-- ==== Sys2Proof/Word.lean ====
section
/-! DEFINITION. The machine's words and the one container every register file, table and memory uses:
a list of (index, value) pairs with indexes strictly rising. What an index that is not listed holds is
the container's default, which each reader names (00 R5, R9). -/

namespace Sys2Proof

/-- A 64-bit scalar (R130, R154). -/
abbrev Word := BitVec 64

/-- One byte of any memory (R5). -/
abbrev Byte := BitVec 8

/-- A 64-byte row: byte i is bits [8i+7:8i] (R5, R180). -/
abbrev Row := BitVec 512

/-- A sparse table from index to value. Indexes rise strictly, and no listed value is the default. -/
abbrev Tbl (α : Type) := List (Nat × α)

/-- A byte-addressed memory, in the form of `Tbl`; an unlisted byte reads 0 (log entry 4). -/
abbrev Memory := List Host.Cell

/-- A value with its poison bit (R115). -/
structure Pv (n : Nat) where
  v : BitVec n
  p : Bool
  deriving DecidableEq, Repr

/-- The value of a place that holds `v` and no poison. -/
def Pv.clean {n : Nat} (v : BitVec n) : Pv n := ⟨v, false⟩

/-- What an unwritten place holds: zero, not poisoned (R130, R154, R199). -/
def Pv.zero {n : Nat} : Pv n := ⟨0, false⟩

abbrev PWord := Pv 64
abbrev PRow := Pv 512

end Sys2Proof
end

