-- ==== Sys2Proof/Syntax.lean ====
section
/-! DEFINITION. The instructions: one constructor for each row of spec/opcode_table.json. Native words carry
their frame (03 R46); operands have the widths and codes of 03 R47; events carry what the outside supplies. -/

namespace Sys2Proof

/-- The frame of a native word (03 R46): Y, W, G and N. -/
structure Frame where
  y : Bool
  w : Fin 32
  g : Fin 8
  n : Bool
  deriving DecidableEq, Repr

abbrev XReg := Fin 32
abbrev VReg := Fin 32
/-- A c register, stream, track, queue, flag or mailbox number (03 R47: 4 bits). -/
abbrev Num4 := Fin 16
/-- A guard, mask register, noise slot or grid number (03 R47: 3 bits). -/
abbrev Num3 := Fin 8
/-- A sub-array selection: bit i selects sub-array i (03 R47). -/
abbrev SaMask := BitVec 4

/-- The number formats with a code of their own (04 R57). -/
inductive Fmt where
  | int8 | uint8 | int16 | int32 | int64 | int4
  | fp64 | fp32 | fp16 | bf16 | e4m3 | e5m2 | e2m1 | acc26
  | mxfp8e4m3 | mxfp8e5m2 | mxfp4 | mxint8 | kc2 | dev8 | e8m0
  deriving DecidableEq, Repr

/-- Rounding modes (03 R47). -/
inductive Rm where
  | rne | rtz | rdn | rup | rna | sto
  deriving DecidableEq, Repr

/-- Scopes (01 R21). -/
inductive Scope where
  | cl | co | qd | di | pk | pd
  deriving DecidableEq, Repr

/-- Order modifiers (03 R47). -/
inductive Order where
  | rlx | acq | rel | ar
  deriving DecidableEq, Repr

/-- Cursor advances (03 R47). -/
inductive Adv where
  | a1 | a0 | as
  deriving DecidableEq, Repr

inductive Lop where
  | and | or | xor | andn
  deriving DecidableEq, Repr

inductive Cond where
  | eq | ne | lt | le | gt | ge | un
  deriving DecidableEq, Repr

inductive Aop where
  | add | and | or | xor | min | max | minu | maxu | swap | fadd32
  deriving DecidableEq, Repr

inductive Join where
  | none | align | unjoin
  deriving DecidableEq, Repr

inductive Red where
  | sum | max | min | maxabs
  deriving DecidableEq, Repr

inductive Dist where
  | norm | unif | raw
  deriving DecidableEq, Repr

inductive Part where
  | keylo | keyhi | ctrlo | ctrhi | stride
  deriving DecidableEq, Repr

/-- Boundary rules of a face (03 R47, 14 R273). -/
inductive Rule where
  | periodic | clamp | reflect | odd | const | none
  deriving DecidableEq, Repr

inductive Acc where
  | accum | repl
  deriving DecidableEq, Repr

/-- The four issue-slot clusters (01 R16). -/
inductive Cluster where
  | s | a | v | m
  deriving DecidableEq, Repr

/-- The engines (01 R20). -/
inductive EngineId where
  | ce | tie | fx
  deriving DecidableEq, Repr

/-- The element types of KV1 (21 R387). -/
inductive Pt where
  | i8 | i16 | i32 | i64 | f64 | f32 | f16 | bf16
  deriving DecidableEq, Repr

/-- The drain formats of KM.RD (21 R388). -/
inductive DrainFmt where
  | fp32 | bf16 | acc26 | int32 | int8
  deriving DecidableEq, Repr

/-- The second operand of a portable integer word (21 R381). -/
inductive RvSrc where
  | reg (b : XReg)
  | imm (v : BitVec 12)
  deriving DecidableEq, Repr

/-- RV64I register and immediate arithmetic (21 R381). -/
inductive RvOp where
  | add | sub | sll | slt | sltu | xor | srl | sra | or | and
  deriving DecidableEq, Repr

/-- The 32-bit forms (21 R381). -/
inductive RvWordOp where
  | addw | subw | sllw | srlw | sraw
  deriving DecidableEq, Repr

/-- Multiply and divide, with the 32-bit forms (21 R381). -/
inductive RvMulOp where
  | mul | mulh | mulhsu | mulhu | div | divu | rem | remu | mulw | divw | divuw | remw | remuw
  deriving DecidableEq, Repr

inductive RvCond where
  | beq | bne | blt | bge | bltu | bgeu
  deriving DecidableEq, Repr

inductive RvLoadOp where
  | lb | lh | lw | ld | lbu | lhu | lwu
  deriving DecidableEq, Repr

inductive RvStoreOp where
  | sb | sh | sw | sd
  deriving DecidableEq, Repr

/-- The counters of 21 R382. -/
inductive RvCounter where
  | cycle | time | instret
  deriving DecidableEq, Repr

/-- The four combining operations of FX (12 R267). -/
inductive CombOp where
  | fadd | fmax | fmin | iadd
  deriving DecidableEq, Repr

/-- The form of a case of a decision entry (05 R96). -/
inductive CaseKind where
  | eq | ranges | rangeu
  deriving DecidableEq, Repr

/-- A case of a decision entry (05 R96). -/
structure Case where
  kind : BitVec 2
  lo   : Word
  hi   : Word
  cont : Nat
  deriving DecidableEq, Repr

/-- A decision-table entry (05 R96). -/
structure DecisionEntry where
  comb  : BitVec 3
  cases : List Case
  dflt  : Option Nat
  deriving DecidableEq, Repr

/-- The streams of a continuation or body; an empty list is a cluster with no stream (02 R36). A continuation
index of a portable function holds a stub, which carries no streams (18 R345). -/
structure Block where
  s : List Word
  a : List Word
  v : List Word
  m : List Word
  stub : Option Nat
  deriving DecidableEq, Repr

/-- A loop-table entry with its body (05 R105). -/
structure LoopEntry where
  period : Nat
  stages : Nat
  pre    : Bool
  skip   : Nat
  exit   : Nat
  body   : Block
  deriving DecidableEq, Repr

/-- A noise slot (04 R90). -/
structure NoiseSlot where
  key    : BitVec 128
  ctr    : BitVec 128
  stride : Word
  deriving DecidableEq, Repr

/-- Where a data block lies (02 R33). -/
inductive DataSpace where
  | pocket | ring | global
  deriving DecidableEq, Repr

structure DataBlock where
  space  : DataSpace
  offset : Nat
  bytes  : List Byte
  deriving DecidableEq, Repr

/-- A profile version note (21 R391, R392), with the bytes that follow it. -/
structure Note where
  profile : Nat
  major   : Nat
  minor   : Nat
  floorMajor : Nat
  floorMinor : Nat
  pad : Nat
  deriving DecidableEq, Repr

/-- A section-table entry (21 R392). -/
structure Section where
  type   : Nat
  flags  : Nat
  offset : Nat
  size   : Nat
  deriving DecidableEq, Repr

/-- A portable function: its place in the portable text, its text and its address-taken flag (21 R393). -/
structure Function where
  start : Nat
  text : List Byte
  taken : Bool
  deriving DecidableEq, Repr

/-- A TIE table: a descriptor with its number, and its segments from index `first` (12 R262). -/
structure TieTable where
  td    : Nat
  desc  : BitVec 512
  first : Nat
  segs  : List (BitVec 128)
  deriving DecidableEq, Repr

/-- One slot-table entry of a router of the partition: which router (quad or die), its number from the
partition's base, the output port, the slot, and the 16 bits (16 R313, R316). -/
structure SlotEntry where
  die    : Bool
  router : Nat
  out    : Nat
  slot   : Nat
  bits   : BitVec 16
  deriving DecidableEq, Repr

/-- A live-region declaration: rows `first` to `last` of bank `bank` (02 R33). -/
structure LiveRegion where
  bank  : Nat
  first : Nat
  last  : Nat
  deriving DecidableEq, Repr

/-- A code object as OBJECT_LOAD receives it (21 R392, R393): its bytes, from which the header, the notes, the section table,
the portable text and the function table are read, and the content of the sections whose layout the manual does not
give, of the engine control stores their bytes (03 R56; log entry 7). -/
structure Object where
  image      : List Byte
  conts      : List Block
  decisions  : List (Nat × DecisionEntry)
  loops      : List (Nat × LoopEntry)
  entry      : Nat
  layouts    : List (Nat × BitVec 512)
  streams    : List (Nat × BitVec 256)
  noise      : List (Nat × NoiseSlot)
  grids      : List (Nat × BitVec 1024)
  ttables    : List TieTable
  ceStore    : List Byte
  tieStore   : List Byte
  fxStore    : List Byte
  slots      : List SlotEntry
  windows    : List (Nat × Word)
  data       : List DataBlock
  mailboxes  : List (Nat × Word)
  live       : List LiveRegion
  deriving DecidableEq, Repr

/-- A Yelnar frame: its header fields and its flits (16 R320). -/
structure Packet where
  kind  : BitVec 4
  nfl   : BitVec 3
  dmod  : BitVec 8
  dcore : BitVec 11
  smod  : BitVec 8
  score : BitVec 11
  doff  : BitVec 19
  len   : BitVec 6
  tag   : BitVec 16
  idx   : BitVec 16
  n     : BitVec 16
  op    : BitVec 2
  rsv   : BitVec 8
  flits : List Row
  deriving DecidableEq, Repr

/-- The id of a new key of one direction of a link (16 R322): `outbound` is the direction in which this module sends. -/
structure LinkKey where
  outbound : Bool
  id       : BitVec 32
  deriving DecidableEq, Repr

/-- A message that disciplines WALL: the offset from the source it measures, in ns (19 R364). -/
structure TimeMessage where
  offset : Int
  deriving DecidableEq, Repr

/-- The instructions and events: one constructor for each row of spec/opcode_table.json. -/
inductive Instr where
  -- S cluster (03 R52)
  | nop (f : Frame)
  | add (f : Frame) (d a b : XReg)
  | sub (f : Frame) (d a b : XReg)
  | and (f : Frame) (d a b : XReg)
  | or (f : Frame) (d a b : XReg)
  | xor (f : Frame) (d a b : XReg)
  | sll (f : Frame) (d a b : XReg)
  | srl (f : Frame) (d a b : XReg)
  | sra (f : Frame) (d a b : XReg)
  | slt (f : Frame) (d a b : XReg)
  | sltu (f : Frame) (d a b : XReg)
  | mul (f : Frame) (d a b : XReg)
  | mulh (f : Frame) (d a b : XReg)
  | div (f : Frame) (d a b : XReg)
  | divu (f : Frame) (d a b : XReg)
  | rem (f : Frame) (d a b : XReg)
  | remu (f : Frame) (d a b : XReg)
  | min (f : Frame) (d a b : XReg)
  | max (f : Frame) (d a b : XReg)
  | clz (f : Frame) (d a : XReg)
  | ctz (f : Frame) (d a : XReg)
  | popc (f : Frame) (d a : XReg)
  | sel (f : Frame) (d a b : XReg) (g : Num3)
  | addi (f : Frame) (d a : XReg) (imm : BitVec 36)
  | andi (f : Frame) (d a : XReg) (imm : BitVec 36)
  | ori (f : Frame) (d a : XReg) (imm : BitVec 36)
  | xori (f : Frame) (d a : XReg) (imm : BitVec 36)
  | slti (f : Frame) (d a : XReg) (imm : BitVec 36)
  | slli (f : Frame) (d a : XReg) (n : BitVec 36)
  | srli (f : Frame) (d a : XReg) (n : BitVec 36)
  | srai (f : Frame) (d a : XReg) (n : BitVec 36)
  | limm (f : Frame) (d : XReg) (imm : BitVec 41)
  | limmh (f : Frame) (d : XReg) (imm : BitVec 41)
  | gset (f : Frame) (g : Num3) (a : XReg)
  | gseti (f : Frame) (g : Num3) (b : BitVec 43)
  | glog (f : Frame) (g ga gb : Num3) (op : Lop)
  | wait (f : Frame) (n : BitVec 46)
  | decide (f : Frame) (a : XReg) (d : BitVec 8)
  | loop (f : Frame) (a : XReg) (l : BitVec 8)
  | call (f : Frame) (target ret : BitVec 12)
  | ret (f : Frame)
  | chkp (f : Frame) (d : BitVec 8)
  | stop (f : Frame)
  | bar (f : Frame) (id : BitVec 8) (scope : Scope) (join : Join)
  | pulse (f : Frame)
  | spawn (f : Frame) (n : BitVec 46)
  | mbr (f : Frame) (d : XReg) (mb : Num4)
  | mbw (f : Frame) (mb : Num4) (a : XReg)
  | qpush (f : Frame) (q : Num4) (a : XReg)
  | qpop (f : Frame) (d : XReg) (q : Num4)
  | flset (f : Frame) (fl : Num4) (b : BitVec 42)
  | fltst (f : Frame) (d : XReg) (fl : Num4)
  | tick (f : Frame) (d : XReg)
  | wall (f : Frame) (d : XReg)
  | trap (f : Frame) (n : BitVec 46)
  | tret (f : Frame)
  | ten (f : Frame)
  | csrr (f : Frame) (d : XReg) (csr : BitVec 41)
  | csrw (f : Frame) (a : XReg) (csr : BitVec 41)
  -- A cluster (03 R53)
  | cadd (f : Frame) (d a b : Num4)
  | csub (f : Frame) (d a b : Num4)
  | cmul (f : Frame) (d a b : Num4)
  | cand (f : Frame) (d a b : Num4)
  | cor (f : Frame) (d a b : Num4)
  | cshl (f : Frame) (d a b : Num4)
  | cshr (f : Frame) (d a b : Num4)
  | cmin (f : Frame) (d a b : Num4)
  | cmax (f : Frame) (d a b : Num4)
  | caddi (f : Frame) (d a : Num4) (imm : BitVec 38)
  | climm (f : Frame) (d : Num4) (imm : BitVec 42)
  | layset (f : Frame) (lt : Fin 64) (a : Num4)
  | layget (f : Frame) (lt : Fin 64) (a : Num4)
  | stset (f : Frame) (st a : Num4)
  | stget (f : Frame) (st a : Num4)
  | stadv (f : Frame) (st a : Num4)
  | strst (f : Frame) (st : Num4)
  | ld (f : Frame) (d st : Num4) (order : Order) (scope : Scope) (adv : Adv)
  | st (f : Frame) (st a : Num4) (order : Order) (scope : Scope) (adv : Adv)
  | lds (f : Frame) (q st : Num4) (order : Order) (scope : Scope) (adv : Adv)
  | sts (f : Frame) (st q : Num4) (order : Order) (scope : Scope) (adv : Adv)
  | gath (f : Frame) (q sta stb : Num4) (adv : Adv)
  | scat (f : Frame) (sta stb q : Num4) (adv : Adv)
  | touch (f : Frame) (st : Num4)
  | amo (f : Frame) (d st a : Num4) (order : Order) (scope : Scope) (op : Aop)
  | amocas (f : Frame) (d st a b : Num4) (order : Order) (scope : Scope)
  | fence (f : Frame) (fset : BitVec 5) (scope : Scope)
  | qmark (f : Frame)
  | cqpush (f : Frame) (q a : Num4)
  | cqpop (f : Frame) (d q : Num4)
  | nkey (f : Frame) (ns : Num3) (a : Num4)
  | nctr (f : Frame) (ns : Num3) (a b : Num4)
  | nskip (f : Frame) (ns : Num3) (a : Num4)
  | nget (f : Frame) (d : Num4) (ns : Num3) (part : Part)
  | eng (f : Frame) (e : EngineId) (entry : BitVec 10) (a n : Num4) (chain : Option (BitVec 10))
  | epush (f : Frame) (e : EngineId) (a : Num4)
  | epop (f : Frame) (d : Num4) (e : EngineId)
  | gdef (f : Frame) (gr : Num3) (a : Num4)
  | gbc (f : Frame) (gr : Num3) (face : Fin 6) (a : Num4) (rule : Rule)
  | gld (f : Frame) (q : Num4) (gr : Num3) (st t : Num4) (adv : Adv)
  | gst (f : Frame) (gr : Num3) (st t q : Num4) (adv : Adv)
  | gadv (f : Frame) (gr : Num3)
  | gstat (f : Frame) (d : Num4) (gr : Num3)
  -- V cluster (03 R54)
  | vrd (f : Frame) (d : VReg) (st tk : Num4) (adv : Adv)
  | vwr (f : Frame) (st : Num4) (a : VReg) (tk : Num4) (adv : Adv)
  | vtap (f : Frame) (d : VReg) (tk : Num4)
  | vinj (f : Frame) (tk : Num4) (a : VReg)
  | vqpop (f : Frame) (d : VReg) (q : Num4)
  | vqpush (f : Frame) (q : Num4) (a : VReg)
  | vadd (f : Frame) (d a b : VReg) (k : Num3) (fmt : Fmt)
  | vsub (f : Frame) (d a b : VReg) (k : Num3) (fmt : Fmt)
  | vmul (f : Frame) (d a b : VReg) (k : Num3) (fmt : Fmt)
  | vmulh (f : Frame) (d a b : VReg) (k : Num3) (fmt : Fmt)
  | vmin (f : Frame) (d a b : VReg) (k : Num3) (fmt : Fmt)
  | vmax (f : Frame) (d a b : VReg) (k : Num3) (fmt : Fmt)
  | vand (f : Frame) (d a b : VReg) (k : Num3) (fmt : Fmt)
  | vor (f : Frame) (d a b : VReg) (k : Num3) (fmt : Fmt)
  | vxor (f : Frame) (d a b : VReg) (k : Num3) (fmt : Fmt)
  | vshl (f : Frame) (d a b : VReg) (k : Num3) (fmt : Fmt)
  | vshr (f : Frame) (d a b : VReg) (k : Num3) (fmt : Fmt)
  | vcmpi (f : Frame) (kd : Num3) (a b : VReg) (k : Num3) (fmt : Fmt) (cond : Cond)
  | vfadd (f : Frame) (d a b : VReg) (k : Num3) (fmt : Fmt) (rm : Rm) (ns : Num3)
  | vfsub (f : Frame) (d a b : VReg) (k : Num3) (fmt : Fmt) (rm : Rm) (ns : Num3)
  | vfmul (f : Frame) (d a b : VReg) (k : Num3) (fmt : Fmt) (rm : Rm) (ns : Num3)
  | vfma (f : Frame) (d a b c : VReg) (k : Num3) (fmt : Fmt) (rm : Rm) (ns : Num3)
  | vfmin (f : Frame) (d a b : VReg) (k : Num3) (fmt : Fmt)
  | vfmax (f : Frame) (d a b : VReg) (k : Num3) (fmt : Fmt)
  | vfabs (f : Frame) (d a : VReg) (k : Num3) (fmt : Fmt)
  | vfneg (f : Frame) (d a : VReg) (k : Num3) (fmt : Fmt)
  | vfcmp (f : Frame) (kd : Num3) (a b : VReg) (k : Num3) (fmt : Fmt) (cond : Cond)
  | vcvt (f : Frame) (d a : VReg) (k : Num3) (dst src : Fmt) (rm : Rm) (ns : Num3)
  | vqmx (f : Frame) (d a : VReg) (fmt : Fmt) (rm : Rm) (ns : Num3)
  | vdq (f : Frame) (d a : VReg) (dst src : Fmt)
  | vred (f : Frame) (d a : VReg) (k : Num3) (fmt : Fmt) (red : Red)
  | vperm (f : Frame) (d a b : VReg) (k : Num3) (fmt : Fmt)
  | vslide (f : Frame) (d a : VReg) (fmt : Fmt) (n : BitVec 31)
  | vsel (f : Frame) (d a b : VReg) (k : Num3)
  | vbcst (f : Frame) (d a : VReg) (fmt : Fmt) (i : BitVec 31)
  | vext (f : Frame) (d a : VReg) (fmt : Fmt) (i : BitVec 31)
  | vins (f : Frame) (d a : VReg) (fmt : Fmt) (i : BitVec 31)
  | vpln (f : Frame) (d a : VReg) (fmt : Fmt)
  | vunpl (f : Frame) (d a : VReg) (fmt : Fmt)
  | kset (f : Frame) (kd : Num3) (n : BitVec 43)
  | klog (f : Frame) (kd ka kb : Num3) (op : Lop)
  | kcnt (f : Frame) (d : VReg) (ka : Num3)
  | vrng (f : Frame) (d a : VReg) (ns : Num3) (k : Num3) (fmt : Fmt) (dist : Dist) (idx : Bool)
  -- M cluster (03 R55)
  | mcfg (f : Frame) (sa : SaMask) (fa fb : Fmt) (planes : BitVec 4) (acc : Acc) (pro : BitVec 7)
  | mlw (f : Frame) (sa : SaMask) (tk : Num4)
  | mlwp (f : Frame) (sa : SaMask) (tka tkb : Num4) (ns : Num3)
  | mma (f : Frame) (sa : SaMask) (tk : Num4) (rows : BitVec 38)
  | macz (f : Frame) (sa : SaMask)
  | mpro (f : Frame) (sa : SaMask)
  | mrd (f : Frame) (sa : SaMask) (tk : Num4) (fmt : Fmt) (rm : Rm) (rows : BitVec 30)
  | mwake (f : Frame) (sa : SaMask)
  | msleep (f : Frame) (sa : SaMask)
  | mstat (f : Frame) (sa : SaMask)
  -- sub-array and engine events
  | weightSetSwap (core : Nat) (sa : Nat)
  | subarrayGate (core : Nat) (sa : Nat)
  | subarrayWakeDone (core : Nat) (sa : Nat)
  | engineCommandStart (core : Nat) (e : EngineId)
  | engineChainStart (core : Nat) (e : EngineId)
  -- engine words (03 R56)
  | lit (v : BitVec 12)
  | litn (v : BitVec 12)
  | lith (v : BitVec 12)
  | param (n : Num3)
  | jmp (i : BitVec 12)
  | jz (o : BitVec 12)
  | nestCount (l : Num3)
  | nestSrc (l : Num3)
  | nestDst (l : Num3)
  | copy (s d : Num4)
  | plane (s d : Num4)
  | fill (d : Num4)
  | tload (td : Num3)
  | trun (tki tko : Num4)
  | send (rows : Num4) (s : Num4)
  | comb (op : CombOp) (s : Num4)
  | chain (i : BitVec 12)
  | resultEntryLand (core : Nat) (e : EngineId)
  -- KV1 (21 R387)
  | kvSetvl (pt : Pt) (d a : XReg)
  | kvLd (pt : Pt) (hint : BitVec 3) (d : VReg) (a : XReg)
  | kvSt (pt : Pt) (hint : BitVec 3) (b : VReg) (a : XReg)
  | kvLds (pt : Pt) (hint : BitVec 3) (d : VReg) (a b : XReg)
  | kvAdd (pt : Pt) (rm : Fin 4) (d a b : VReg)
  | kvSub (pt : Pt) (rm : Fin 4) (d a b : VReg)
  | kvMul (pt : Pt) (rm : Fin 4) (d a b : VReg)
  | kvFma (pt : Pt) (rm : Fin 4) (d a b : VReg)
  | kvMin (pt : Pt) (d a b : VReg)
  | kvMax (pt : Pt) (d a b : VReg)
  | kvCvt (pt : Pt) (rm : Fin 4) (src : Pt) (d a : VReg)
  | kvRed (pt : Pt) (red : Red) (d a : VReg)
  | kvCmp (pt : Pt) (cond : Cond) (d a b : VReg)
  | kvSel (pt : Pt) (d a b : VReg)
  | kvBcst (pt : Pt) (d : VReg) (a : XReg)
  | kvRng (pt : Pt) (unif : Bool) (d : VReg) (a : XReg)
  -- KM1 (21 R388)
  | kmCfg (sa : SaMask) (hint : BitVec 3) (a : XReg)
  | kmLw (sa : SaMask) (hint : BitVec 3) (a : XReg)
  | kmLwp (sa : SaMask) (hint : BitVec 3) (a : XReg)
  | kmMma (sa : SaMask) (hint : BitVec 3) (a b : XReg)
  | kmRd (sa : SaMask) (fmt : DrainFmt) (a b : XReg)
  | kmZero (sa : SaMask) (hint : BitVec 3)
  -- KG1 (21 R389)
  | kgDef (gr : Num3) (hint : BitVec 4) (a : XReg)
  | kgLd (gr : Num3) (hint : BitVec 4) (d : VReg) (a b : XReg)
  | kgSt (gr : Num3) (hint : BitVec 4) (d : VReg) (a b : XReg)
  | kgAdv (gr : Num3) (hint : BitVec 4)
  -- the RV64IM base (21 R381 to R384)
  | rvIntegerOp (op : RvOp) (d a : XReg) (b : RvSrc)
  | rvWordOp (op : RvWordOp) (d a : XReg) (b : RvSrc)
  | rvMuldiv (op : RvMulOp) (d a b : XReg)
  | lui (d : XReg) (imm : BitVec 20)
  | auipc (d : XReg) (imm : BitVec 20)
  | rvBranch (cond : RvCond) (a b : XReg) (off : BitVec 12)
  | jal (d : XReg) (off : BitVec 20)
  | jalr (d a : XReg) (off : BitVec 12)
  | rvLoad (op : RvLoadOp) (d a : XReg) (off : BitVec 12)
  | rvStore (op : RvStoreOp) (a b : XReg) (off : BitVec 12)
  | rvFence (fm pred succ : BitVec 4) (d a : XReg)
  | fenceTso (d a : XReg)
  | csrrs (d : XReg) (c : RvCounter)
  | csrrsi (d : XReg) (c : RvCounter)
  -- events that the machine itself brings about (01, 05, 10, 12, 14, 16, 18, 19)
  | decisionSwitch (p : Nat)
  | iterationBoundary (p : Nat)
  | loopExit (p : Nat)
  | barrierRelease (group : Nat)
  | podBarrierRelease (group : Nat)
  | pulseIntervalExpiry (p : Nat)
  | freezeLimitExpiry (p : Nat)
  | hemTimeout (p : Nat)
  | hemStampArrival (core gr face : Nat) (step : BitVec 32)
  | icacheFillDone (p : Nat)
  | lateDataArrival (p : Nat)
  | lateWritePerform (p : Nat)
  | queueEntryDelivered (p : Nat)
  | bankPortServiceDone (p : Nat)
  | lsqEntryRetire (p : Nat)
  | partitionComplete (p : Nat)
  | entryDone (p : Nat)
  | preemptDrainDone (p : Nat)
  | saveComplete (p : Nat)
  | killQuiesced (p : Nat)
  | loadingDone (e : Fin 1024)
  | partitionStart (e : Fin 1024)
  | pllRelockDone (region : Fin 128)
  | combiningSlotTimeout (tag : BitVec 16) (dcore : BitVec 11)
  -- what comes from outside: other agents, host commands and host writes, power, time and links (15, 16, 18, 19)
  | externalWriteArrival (core : Nat) (ring : Bool) (off : Nat) (bytes : List Byte)
  | resume (e : Fin 1024) (w : Word)
  | kill (e : Fin 1024) (w : Word)
  | step (e : Fin 1024) (w : Word)
  | preempt (e : Fin 1024) (w : Word)
  | restore (e : Fin 1024) (w : Word)
  | freeze (e : Fin 1024) (w : Word)
  | submit (e : Fin 1024)
  | withdraw (e : Fin 1024)
  | launchEntryWrite (e : Fin 1024) (i : Fin 14) (w : Word)
  | trouteWrite (e : Fin 1024) (w : Word)
  | objectLoad (o : Object)
  | chasonTranslationDone (handle : Word) (fn : Nat) (ok : Bool)
  | hivreq (w : Word)
  | wallWrite (w : Word)
  | plimitWrite (w : Word)
  | tjlimitWrite (w : Word)
  | invalidateSubmit (w : Word)
  | barrierGroupWrite (g : Fin 256) (w : Word)
  | mismatchCounterWrite (core : Fin 2048) (w : BitVec 32)
  | diagCounterWrite (off : BitVec 12) (w : Word)
  | bar0RegisterWrite (off : BitVec 24) (w : Word)
  | hostMailboxWrite (off : BitVec 18) (size : Nat) (w : Word)
  | bar4Write (off : Nat) (bytes : List Byte)
  | bar4Read (off : Nat) (n : Nat)
  | powerUp (failure : Option Word)
  | linkTraining (port : Fin 32) (versions : List (Nat × Nat))
  | postedWrite (port : Fin 32) (f : Packet)
  | acknowledgement (port : Fin 32) (f : Packet)
  | combiningContribution (port : Fin 32) (f : Packet)
  | combinedPrefix (port : Fin 32) (f : Packet)
  | fxCombineArrival (f : Packet)
  | peerMailboxWrite (port : Fin 32) (f : Packet)
  | gridExchange (port : Fin 32) (f : Packet)
  | barrierFrame (port : Fin 32) (f : Packet)
  | timeFrame (port : Fin 32) (t : TimeMessage)
  | linkControl (port : Fin 32) (f : Packet)
  | frameTagFailure (port : Fin 32)
  | linkKeyReplace (port : Fin 32) (key : LinkKey)
  | ethernetPtpMessage (t : TimeMessage)
  | doeSpdmRequest (req : List Byte)
  | fcapWrite (w : Word)
  | supplyDroop (region : Fin 128)
  | reservedKindFrame (port : Fin 32) (f : Packet)
  -- words and events without an argument; compiled Lean builds only the first 245 constructors that have one
  | dup
  | drop
  | swap
  | over
  | rot
  | engAdd
  | engSub
  | engMul
  | engAnd
  | engOr
  | engXor
  | engShl
  | engShr
  | repw
  | endE
  | nestClear
  | result
  | ecall
  | ebreak
  | invalidateAck
  | iqackPop
  | selfTestComplete
  | moduleReset
  | wallPhaseBroadcast
  | powerLimitStepdown
  | overcurrentStepdown
  | powerStepup
  deriving DecidableEq, Repr

end Sys2Proof
end

