-- ==== Sys2Proof/Machine/Limits.lean ====
section
/-! DEFINITION. What the fields of a word may hold (03 R47, R50, R52 to R55): operand limits, the formats each
word accepts, and the matrix combinations that are implemented. -/

namespace Sys2Proof

/-- Bits of one element, as it stands in memory and in a V register (04 R57, 08 R199). Of the formats that 08 R199 gives no
lanes, KC2 counts its 16-bit index, and DEV8 and E8M0 their byte (DESIGN CHOICE, log entry 90). -/
def Fmt.bits : Fmt → Nat
  | .int8 | .uint8 | .e4m3 | .e5m2 | .mxfp8e4m3 | .mxfp8e5m2 | .mxint8 | .dev8 | .e8m0 => 8
  | .int16 | .fp16 | .bf16 | .kc2 => 16
  | .int32 | .fp32 | .acc26 => 32
  | .int64 | .fp64 => 64
  | .int4 | .e2m1 | .mxfp4 => 4

/-- Lanes of a V register (08 R199), and 64 bytes by the element's size for the formats that its table leaves out (DESIGN
CHOICE, log entry 90). -/
def Fmt.lanes (f : Fmt) : Nat := 512 / f.bits

/-- The formats of 0x10 to 0x1B (03 R54, 08 R207). -/
def Fmt.isVecInt : Fmt → Bool
  | .int8 | .uint8 | .int16 | .int32 | .int64 => true
  | _ => false

/-- The formats of 0x20 to 0x28 (03 R54, 08 R209). -/
def Fmt.isVecFloat : Fmt → Bool
  | .fp64 | .fp32 | .fp16 | .bf16 => true
  | _ => false

/-- The formats of the element moves (08 R215): the 8-, 16-, 32- and 64-bit formats of 08 R199. -/
def Fmt.isMove : Fmt → Bool
  | .int8 | .uint8 | .int16 | .int32 | .int64 | .fp64 | .fp32 | .fp16 | .bf16 | .e4m3 | .e5m2
  | .acc26 | .mxfp8e4m3 | .mxfp8e5m2 | .mxint8 => true
  | _ => false

/-- The destination formats of VCVT (08 R211). -/
def Fmt.isCvtDst : Fmt → Bool
  | .int8 | .uint8 | .int16 | .int32 | .int64 | .fp64 | .fp32 | .fp16 | .bf16 | .e4m3 | .e5m2 | .e2m1 => true
  | _ => false

/-- The source formats of VCVT (08 R211). -/
def Fmt.isCvtSrc (f : Fmt) : Bool := f.isCvtDst || f == .acc26

/-- The MX formats (04 R72). -/
def Fmt.isMx : Fmt → Bool
  | .mxfp8e4m3 | .mxfp8e5m2 | .mxfp4 | .mxint8 => true
  | _ => false

/-- The sources of VDQ (08 R213). -/
def Fmt.isDqSrc (f : Fmt) : Bool := f.isMx || f == .kc2 || f == .dev8

/-- The formats of VPLN and VUNPL (08 R217). -/
def Fmt.isPlane (f : Fmt) : Bool :=
  f.isMx || f == .int8 || f == .int4 || f == .bf16 || f == .e4m3 || f == .e5m2 || f == .e2m1

/-- The formats that stand in the fmtA column of 10 R225 (log entry 8). -/
def Fmt.isMatA (f : Fmt) : Bool :=
  f.isMx || f == .int8 || f == .int4 || f == .bf16 || f == .e4m3 || f == .e5m2 || f == .e2m1

/-- The formats that stand in the fmtB column of 10 R225 (log entry 8). -/
def Fmt.isMatB : Fmt → Bool
  | .bf16 | .e4m3 | .e5m2 | .mxfp4 | .kc2 | .mxint8 | .int8 | .int4 => true
  | _ => false

/-- Tracks that one row drains onto (10 R234); 0 for a format that MRD does not accept. -/
def Fmt.drainTracks : Fmt → Nat
  | .fp32 | .acc26 | .int32 => 4
  | .bf16 => 2
  | .int8 => 1
  | _ => 0

/-- The implemented pairings of 10 R225. -/
def matPair (a b : Fmt) : Bool :=
  match a with
  | .bf16 | .e4m3 | .e5m2 | .e2m1 | .mxfp4 | .mxfp8e4m3 | .mxfp8e5m2 =>
      b == .bf16 || b == .e4m3 || b == .e5m2 || b == .mxfp4 || b == .kc2
  | .mxint8 => b == .bf16 || b == .mxint8 || b == .mxfp4 || b == .kc2
  | .int8 | .int4 => b == .int8 || b == .int4
  | _ => false

/-- The smallest and largest planes of 10 R226. -/
def planeRange : Fmt → Nat × Nat
  | .bf16 => (3, 8)
  | .e4m3 => (2, 4)
  | .e5m2 => (2, 3)
  | .e2m1 => (1, 2)
  | .mxfp8e4m3 => (3, 4)
  | .mxfp8e5m2 => (3, 3)
  | .mxfp4 => (2, 2)
  | .mxint8 => (2, 8)
  | .int8 => (1, 8)
  | .int4 => (1, 4)
  | _ => (1, 0)

/-- The CSR numbers that are implemented (06 R138). -/
def csrImplemented (n : Nat) : Bool :=
  [0x001, 0x010, 0x011, 0x012, 0x018, 0x019, 0x01A, 0x020, 0x021, 0x022, 0x028, 0x029, 0x02A, 0x02B,
   0x030, 0x040, 0x041].contains n

/-- A nonzero ns needs rounding mode `sto` (03 R50). -/
def nsOk (rm : Rm) (ns : Num3) : Bool := rm == .sto || ns.val == 0

/-- A guard destination is g1 to g3 (06 R132). -/
def guardDst (g : Num3) : Bool := 1 ≤ g.val && g.val ≤ 3

def loadOrder (o : Order) : Bool := o == .rlx || o == .acq
def storeOrder (o : Order) : Bool := o == .rlx || o == .rel

def loadQueue (q : Num4) : Bool := q.val ≤ 3
def storeQueue (q : Num4) : Bool := q.val == 4 || q.val == 5

/-- Exactly one sub-array is named (03 R55). -/
def oneSa (sa : SaMask) : Bool := sa == 1 || sa == 2 || sa == 4 || sa == 8

/-- A control-store index is below the engine's store size (03 R53). -/
def entryOk (e : EngineId) (i : BitVec 10) : Bool := e == .ce || i.toNat < 512

/-- The drain tracks stay in the direction group of the first (10 R234, R242). -/
def drainGroup (tk : Num4) (nt : Nat) : Bool := nt == 0 || tk.val / 8 == (tk.val + nt - 1) / 8

/-- An element index lies below the lane count, 64 bytes by the element's size, of whatever format its field names (03 R54):
this comes before the format check. An undefined code, which has no lane count, counts 64 lanes, so that an index of 64 or
more raises 0x02 and a smaller one 0x03 (DESIGN CHOICE, log entry 90). -/
def laneOk (fmt : Fmt) (i : Nat) : Bool := i < fmt.lanes

/-- The operand limits of a word (03 R50, step 3). Whether an index names an entry of the running object is
checked where the object is known, and a limit that only the word's entry gives under a true guard (`Instr.entryLimits`). -/
def Instr.limitsOk : Instr → Bool
  | .slli _ _ _ n | .srli _ _ _ n | .srai _ _ _ n => n.toNat < 64
  | .limmh _ _ imm => imm.toNat < 2 ^ 32
  | .gset _ g _ => guardDst g
  | .gseti _ g b => guardDst g && b.toNat ≤ 1
  | .glog _ g _ _ _ => guardDst g
  | .spawn _ n => n.toNat ≤ 1023
  | .qpush _ q _ => q.val == 8 || q.val == 10 || q.val == 12
  | .qpop _ _ q => q.val == 9 || q.val == 11 || q.val == 13
  | .flset _ _ b => b.toNat ≤ 1
  | .csrr _ _ c | .csrw _ _ c => csrImplemented c.toNat
  | .lds _ q _ _ _ _ => loadQueue q
  | .sts _ _ q _ _ _ => storeQueue q
  | .gath _ q _ _ _ => loadQueue q
  | .scat _ _ _ q _ => storeQueue q
  | .fence _ fset _ => fset != 0
  | .cqpush _ q _ => q.val == 9
  | .cqpop _ _ q => q.val == 8
  | .nkey _ _ a | .nskip _ _ a | .nctr _ _ a _ => a.val % 2 == 0
  | .eng _ e entry a n ch =>
      entryOk e entry && n.val ≤ 8 && a.val + n.val ≤ 16 && (match ch with | some c => entryOk e c | none => true)
  | .gld _ q _ _ _ _ => loadQueue q
  | .gst _ _ _ _ q _ => storeQueue q
  | .vqpop _ _ q => q.val ≤ 3 || q.val == 10
  | .vqpush _ q _ => q.val == 4 || q.val == 5 || q.val == 11
  | .vcmpi _ _ _ _ _ _ c => c != .un
  | .vfadd _ _ _ _ _ _ rm ns | .vfsub _ _ _ _ _ _ rm ns | .vfmul _ _ _ _ _ _ rm ns => nsOk rm ns
  | .vfma _ _ _ _ _ _ _ rm ns => nsOk rm ns
  | .vcvt _ _ _ _ _ _ rm ns => nsOk rm ns
  | .vqmx _ _ _ _ rm ns => nsOk rm ns
  | .vslide _ _ _ fmt n => laneOk fmt n.toInt.natAbs
  | .vbcst _ _ _ fmt i | .vext _ _ _ fmt i | .vins _ _ _ fmt i => laneOk fmt i.toNat
  | .vpln _ d a _ | .vunpl _ d a _ => d.val % 4 == 0 && a.val % 4 == 0
  | .kset _ _ n => n.toNat ≤ 64
  | .vrng _ _ a _ _ _ _ idx => idx || a.val == 0
  | .mcfg _ _ _ _ planes _ pro => 1 ≤ planes.toNat && planes.toNat ≤ 8 && pro.toNat ≤ 64
  | .mma _ _ _ rows => 1 ≤ rows.toNat && rows.toNat ≤ 1024
  | .mrd _ sa _ _ rm rows => oneSa sa && rm != .sto && 1 ≤ rows.toNat && rows.toNat ≤ 1024
  | .mstat _ sa => oneSa sa
  | .nestCount l | .nestSrc l | .nestDst l => l.val ≤ 5
  | .kvAdd pt rm _ _ _ | .kvSub pt rm _ _ _ | .kvMul pt rm _ _ _ =>
      (match pt with | .i8 | .i16 | .i32 | .i64 => rm.val == 0 | _ => true)
  | .kvCmp pt c _ _ _ => (match pt with | .i8 | .i16 | .i32 | .i64 => c != .un | _ => true)
  | .rvIntegerOp op _ _ (.imm v) =>
      (match op with | .sub => false | .sll | .srl | .sra => v.toNat < 64 | _ => true)
  | .rvWordOp op _ _ (.imm v) =>
      (match op with | .subw => false | .addw => true | _ => v.toNat < 32)
  | .rvFence fm p s _ _ => !(fm == 8 && p == 3 && s == 3)
  | _ => true

/-- The limits that only the entry of a word gives, which are none of the decode checks of 03 R50, so that a word with a false
guard is not held to them (05 R93): the orders of 07 R183, the even registers of 08 R212 and R213, and the masks, tracks and
drain tracks of 10 R237 to R242. -/
def Instr.entryLimits : Instr → Bool
  | .ld _ _ _ o _ _ | .lds _ _ _ o _ _ => loadOrder o
  | .st _ _ _ o _ _ | .sts _ _ _ o _ _ => storeOrder o
  | .vqmx _ _ a _ _ _ => a.val % 2 == 0
  | .vdq _ d _ dst _ => dst != .fp32 || d.val % 2 == 0
  | .mcfg _ sa _ _ _ _ _ | .mlw _ sa _ | .macz _ sa | .mpro _ sa | .mma _ sa _ _ => sa != 0
  | .mlwp _ sa tka tkb _ => sa != 0 && tka != tkb
  | .mrd _ _ tk fmt _ _ => drainGroup tk fmt.drainTracks
  | _ => true

/-- A type with float elements (21 R387). -/
def Pt.isFloat : Pt → Bool
  | .f64 | .f32 | .f16 | .bf16 => true
  | _ => false

/-- The word accepts its formats (03 R50, step 4; 03 R54). -/
def Instr.formatOk : Instr → Bool
  | .vadd _ _ _ _ _ f | .vsub _ _ _ _ _ f | .vmul _ _ _ _ _ f | .vmulh _ _ _ _ _ f | .vmin _ _ _ _ _ f
  | .vmax _ _ _ _ _ f | .vand _ _ _ _ _ f | .vor _ _ _ _ _ f | .vxor _ _ _ _ _ f | .vshl _ _ _ _ _ f
  | .vshr _ _ _ _ _ f | .vcmpi _ _ _ _ _ f _ => f.isVecInt
  | .vfadd _ _ _ _ _ f _ _ | .vfsub _ _ _ _ _ f _ _ | .vfmul _ _ _ _ _ f _ _ | .vfma _ _ _ _ _ _ f _ _
  | .vfmin _ _ _ _ _ f | .vfmax _ _ _ _ _ f | .vfabs _ _ _ _ f | .vfneg _ _ _ _ f | .vfcmp _ _ _ _ _ f _
  | .vred _ _ _ _ f _ => f.isVecFloat
  | .vcvt _ _ _ _ dst src _ _ => dst.isCvtDst && src.isCvtSrc
  | .vqmx _ _ _ f _ _ => f.isMx
  | .vdq _ _ _ dst src => (dst == .fp32 || dst == .bf16) && src.isDqSrc
  | .vperm _ _ _ _ _ f | .vslide _ _ _ f _ | .vbcst _ _ _ f _ | .vext _ _ _ f _ | .vins _ _ _ f _ => f.isMove
  | .vpln _ _ _ f | .vunpl _ _ _ f => f.isPlane
  | .vrng _ _ _ _ _ f d _ => if d == .raw then f == .int32 else f == .fp32
  | .mcfg _ _ fa fb _ _ _ => fa.isMatA && fb.isMatB
  | .mrd _ _ _ f _ _ => f.drainTracks != 0
  | .kvFma pt _ _ _ _ | .kvRed pt _ _ _ => pt.isFloat
  | .kvRng pt _ _ _ => pt == .f32
  | _ => true

/-- The matrix combination is implemented (03 R50, step 5; 10 R225, R226). -/
def Instr.comboOk : Instr → Bool
  | .mcfg _ _ fa fb planes _ _ =>
      matPair fa fb && (planeRange fa).1 ≤ planes.toNat && planes.toNat ≤ (planeRange fa).2
  | _ => true

end Sys2Proof
end

