-- ==== Sys2Proof/WellFormed.lean ====
section
/-! DEFINITION. Well-formed instructions: those whose every field is inside the limits of its map row, whose
formats are accepted and whose combination is implemented (03 R47, R50). -/

namespace Sys2Proof

def Instr.wellFormed (i : Instr) : Bool := i.limitsOk && i.formatOk && i.comboOk

end Sys2Proof
end

