-- ==== Sys2Proof/Decode.lean ====
section
/-! DEFINITION. From bits to instructions and back (03 R46 to R56, 21 R381 to R389). Decoding is total: every
word gives an instruction or the reason it gives none. The encoder is written from the same tables. -/

namespace Sys2Proof

/-! ### Codes of the modifiers (03 R47, 04 R57) -/

def Fmt.code : Fmt → Nat
  | .int8 => 0x00 | .uint8 => 0x01 | .int16 => 0x02 | .int32 => 0x03 | .int64 => 0x04 | .int4 => 0x05
  | .fp64 => 0x08 | .fp32 => 0x09 | .fp16 => 0x0A | .bf16 => 0x0B | .e4m3 => 0x0C | .e5m2 => 0x0D
  | .e2m1 => 0x0E | .acc26 => 0x0F | .mxfp8e4m3 => 0x10 | .mxfp8e5m2 => 0x11 | .mxfp4 => 0x12
  | .mxint8 => 0x13 | .kc2 => 0x14 | .dev8 => 0x15 | .e8m0 => 0x16

/-- The format of a code, where the code is defined (04 R57). -/
def Fmt.ofCode? : Nat → Option Fmt
  | 0x00 => some .int8 | 0x01 => some .uint8 | 0x02 => some .int16 | 0x03 => some .int32
  | 0x04 => some .int64 | 0x05 => some .int4 | 0x08 => some .fp64 | 0x09 => some .fp32
  | 0x0A => some .fp16 | 0x0B => some .bf16 | 0x0C => some .e4m3 | 0x0D => some .e5m2
  | 0x0E => some .e2m1 | 0x0F => some .acc26 | 0x10 => some .mxfp8e4m3 | 0x11 => some .mxfp8e5m2
  | 0x12 => some .mxfp4 | 0x13 => some .mxint8 | 0x14 => some .kc2 | 0x15 => some .dev8
  | 0x16 => some .e8m0 | _ => none

/-- The format field of a word under decode. No V or M word accepts e8m0, so an undefined code, read as e8m0
here, is never part of a decoded instruction: it fails the word's own format check (03 R50, step 4), but for an element index
of 64 or more, which fails the check before it (log entry 90). -/
def Fmt.ofField (n : Nat) : Fmt := (Fmt.ofCode? n).getD .e8m0

def Rm.code : Rm → Nat
  | .rne => 0 | .rtz => 1 | .rdn => 2 | .rup => 3 | .rna => 4 | .sto => 5
def Rm.ofCode? : Nat → Option Rm
  | 0 => some .rne | 1 => some .rtz | 2 => some .rdn | 3 => some .rup | 4 => some .rna | 5 => some .sto
  | _ => none

def Scope.code : Scope → Nat
  | .cl => 0 | .co => 1 | .qd => 2 | .di => 3 | .pk => 4 | .pd => 5
def Scope.ofCode? : Nat → Option Scope
  | 0 => some .cl | 1 => some .co | 2 => some .qd | 3 => some .di | 4 => some .pk | 5 => some .pd | _ => none

def Order.code : Order → Nat
  | .rlx => 0 | .acq => 1 | .rel => 2 | .ar => 3
def Order.ofCode? : Nat → Option Order
  | 0 => some .rlx | 1 => some .acq | 2 => some .rel | 3 => some .ar | _ => none

def Adv.code : Adv → Nat
  | .a1 => 0 | .a0 => 1 | .as => 2
def Adv.ofCode? : Nat → Option Adv
  | 0 => some .a1 | 1 => some .a0 | 2 => some .as | _ => none

def Lop.code : Lop → Nat
  | .and => 0 | .or => 1 | .xor => 2 | .andn => 3
def Lop.ofCode? : Nat → Option Lop
  | 0 => some .and | 1 => some .or | 2 => some .xor | 3 => some .andn | _ => none

def Cond.code : Cond → Nat
  | .eq => 0 | .ne => 1 | .lt => 2 | .le => 3 | .gt => 4 | .ge => 5 | .un => 6
def Cond.ofCode? : Nat → Option Cond
  | 0 => some .eq | 1 => some .ne | 2 => some .lt | 3 => some .le | 4 => some .gt | 5 => some .ge
  | 6 => some .un | _ => none

def Aop.code : Aop → Nat
  | .add => 0 | .and => 1 | .or => 2 | .xor => 3 | .min => 4 | .max => 5 | .minu => 6 | .maxu => 7
  | .swap => 8 | .fadd32 => 9
def Aop.ofCode? : Nat → Option Aop
  | 0 => some .add | 1 => some .and | 2 => some .or | 3 => some .xor | 4 => some .min | 5 => some .max
  | 6 => some .minu | 7 => some .maxu | 8 => some .swap | 9 => some .fadd32 | _ => none

def Join.code : Join → Nat
  | .none => 0 | .align => 1 | .unjoin => 2
def Join.ofCode? : Nat → Option Join
  | 0 => some .none | 1 => some .align | 2 => some .unjoin | _ => Option.none

def Red.code : Red → Nat
  | .sum => 0 | .max => 1 | .min => 2 | .maxabs => 3
def Red.ofCode? : Nat → Option Red
  | 0 => some .sum | 1 => some .max | 2 => some .min | 3 => some .maxabs | _ => none

def Dist.code : Dist → Nat
  | .norm => 0 | .unif => 1 | .raw => 2
def Dist.ofCode? : Nat → Option Dist
  | 0 => some .norm | 1 => some .unif | 2 => some .raw | _ => none

def Part.code : Part → Nat
  | .keylo => 0 | .keyhi => 1 | .ctrlo => 2 | .ctrhi => 3 | .stride => 4
def Part.ofCode? : Nat → Option Part
  | 0 => some .keylo | 1 => some .keyhi | 2 => some .ctrlo | 3 => some .ctrhi | 4 => some .stride | _ => none

def Rule.code : Rule → Nat
  | .periodic => 0 | .clamp => 1 | .reflect => 2 | .odd => 3 | .const => 4 | .none => 5
def Rule.ofCode? : Nat → Option Rule
  | 0 => some .periodic | 1 => some .clamp | 2 => some .reflect | 3 => some .odd | 4 => some .const
  | 5 => some .none | _ => Option.none

def Acc.code : Acc → Nat
  | .accum => 0 | .repl => 1
def Acc.ofCode? : Nat → Option Acc
  | 0 => some .accum | 1 => some .repl | _ => none

def EngineId.code : EngineId → Nat
  | .ce => 0 | .tie => 1 | .fx => 2
def EngineId.ofCode? : Nat → Option EngineId
  | 0 => some .ce | 1 => some .tie | 2 => some .fx | _ => none

def CombOp.code : CombOp → Nat
  | .fadd => 0 | .fmax => 1 | .fmin => 2 | .iadd => 3
def CombOp.ofCode? : Nat → Option CombOp
  | 0 => some .fadd | 1 => some .fmax | 2 => some .fmin | 3 => some .iadd | _ => none

/-! ### Fields -/

/-- The 5-bit field whose lowest bit is `lo`. -/
def x5 (o lo : Nat) : Fin 32 := Fin.ofNat 32 (o / 2 ^ lo)
def n4 (o lo : Nat) : Fin 16 := Fin.ofNat 16 (o / 2 ^ lo)
def n3 (o lo : Nat) : Fin 8 := Fin.ofNat 8 (o / 2 ^ lo)
def n6 (o lo : Nat) : Fin 64 := Fin.ofNat 64 (o / 2 ^ lo)
def bits (n o lo : Nat) : BitVec n := BitVec.ofNat n (o / 2 ^ lo)
/-- The `w`-bit field whose lowest bit is `lo`, as a number. -/
def fld (o lo w : Nat) : Nat := o / 2 ^ lo % 2 ^ w

/-- What the operand bits of a word give (03 R50, steps 1 to 3). -/
inductive Fields where
  | ok (i : Instr)
  | illegal
  | reserved
  deriving DecidableEq, Repr

/-- Bits [k-1:0] are reserved and must be zero (03 R48). -/
def zeroBelow (o k : Nat) (r : Fields) : Fields := if o % 2 ^ k = 0 then r else .reserved

/-- A modifier with a reserved code makes the word reserved (03 R47). -/
def need {α : Type} : Option α → (α → Fields) → Fields
  | some a, k => k a
  | none, _ => .reserved

/-! ### The S map (03 R52) -/

def decodeS (f : Frame) (op o : Nat) : Fields :=
  match op with
  | 0x00 => zeroBelow o 46 (.ok (.nop f))
  | 0x01 => zeroBelow o 31 (.ok (.add f (x5 o 41) (x5 o 36) (x5 o 31)))
  | 0x02 => zeroBelow o 31 (.ok (.sub f (x5 o 41) (x5 o 36) (x5 o 31)))
  | 0x03 => zeroBelow o 31 (.ok (.and f (x5 o 41) (x5 o 36) (x5 o 31)))
  | 0x04 => zeroBelow o 31 (.ok (.or f (x5 o 41) (x5 o 36) (x5 o 31)))
  | 0x05 => zeroBelow o 31 (.ok (.xor f (x5 o 41) (x5 o 36) (x5 o 31)))
  | 0x06 => zeroBelow o 31 (.ok (.sll f (x5 o 41) (x5 o 36) (x5 o 31)))
  | 0x07 => zeroBelow o 31 (.ok (.srl f (x5 o 41) (x5 o 36) (x5 o 31)))
  | 0x08 => zeroBelow o 31 (.ok (.sra f (x5 o 41) (x5 o 36) (x5 o 31)))
  | 0x09 => zeroBelow o 31 (.ok (.slt f (x5 o 41) (x5 o 36) (x5 o 31)))
  | 0x0A => zeroBelow o 31 (.ok (.sltu f (x5 o 41) (x5 o 36) (x5 o 31)))
  | 0x0B => zeroBelow o 31 (.ok (.mul f (x5 o 41) (x5 o 36) (x5 o 31)))
  | 0x0C => zeroBelow o 31 (.ok (.mulh f (x5 o 41) (x5 o 36) (x5 o 31)))
  | 0x0D => zeroBelow o 31 (.ok (.div f (x5 o 41) (x5 o 36) (x5 o 31)))
  | 0x0E => zeroBelow o 31 (.ok (.divu f (x5 o 41) (x5 o 36) (x5 o 31)))
  | 0x0F => zeroBelow o 31 (.ok (.rem f (x5 o 41) (x5 o 36) (x5 o 31)))
  | 0x10 => zeroBelow o 31 (.ok (.remu f (x5 o 41) (x5 o 36) (x5 o 31)))
  | 0x11 => zeroBelow o 31 (.ok (.min f (x5 o 41) (x5 o 36) (x5 o 31)))
  | 0x12 => zeroBelow o 31 (.ok (.max f (x5 o 41) (x5 o 36) (x5 o 31)))
  | 0x13 => zeroBelow o 36 (.ok (.clz f (x5 o 41) (x5 o 36)))
  | 0x14 => zeroBelow o 36 (.ok (.ctz f (x5 o 41) (x5 o 36)))
  | 0x15 => zeroBelow o 36 (.ok (.popc f (x5 o 41) (x5 o 36)))
  | 0x16 => zeroBelow o 28 (.ok (.sel f (x5 o 41) (x5 o 36) (x5 o 31) (n3 o 28)))
  | 0x20 => .ok (.addi f (x5 o 41) (x5 o 36) (bits 36 o 0))
  | 0x21 => .ok (.andi f (x5 o 41) (x5 o 36) (bits 36 o 0))
  | 0x22 => .ok (.ori f (x5 o 41) (x5 o 36) (bits 36 o 0))
  | 0x23 => .ok (.xori f (x5 o 41) (x5 o 36) (bits 36 o 0))
  | 0x27 => .ok (.slti f (x5 o 41) (x5 o 36) (bits 36 o 0))
  | 0x24 => .ok (.slli f (x5 o 41) (x5 o 36) (bits 36 o 0))
  | 0x25 => .ok (.srli f (x5 o 41) (x5 o 36) (bits 36 o 0))
  | 0x26 => .ok (.srai f (x5 o 41) (x5 o 36) (bits 36 o 0))
  | 0x28 => .ok (.limm f (x5 o 41) (bits 41 o 0))
  | 0x29 => .ok (.limmh f (x5 o 41) (bits 41 o 0))
  | 0x30 => zeroBelow o 38 (.ok (.gset f (n3 o 43) (x5 o 38)))
  | 0x31 => .ok (.gseti f (n3 o 43) (bits 43 o 0))
  | 0x32 => zeroBelow o 35 (need (Lop.ofCode? (fld o 35 2)) fun op => .ok (.glog f (n3 o 43) (n3 o 40) (n3 o 37) op))
  | 0x40 => .ok (.wait f (bits 46 o 0))
  | 0x41 => zeroBelow o 33 (.ok (.decide f (x5 o 41) (bits 8 o 33)))
  | 0x42 => zeroBelow o 33 (.ok (.loop f (x5 o 41) (bits 8 o 33)))
  | 0x43 => zeroBelow o 22 (.ok (.call f (bits 12 o 34) (bits 12 o 22)))
  | 0x44 => zeroBelow o 46 (.ok (.ret f))
  | 0x45 => zeroBelow o 46 (.ok (.stop f))
  | 0x46 => zeroBelow o 33 (need (Scope.ofCode? (fld o 35 3)) fun sc =>
      need (Join.ofCode? (fld o 33 2)) fun j => .ok (.bar f (bits 8 o 38) sc j))
  | 0x47 => zeroBelow o 38 (.ok (.chkp f (bits 8 o 38)))
  | 0x48 => zeroBelow o 46 (.ok (.pulse f))
  | 0x49 => .ok (.spawn f (bits 46 o 0))
  | 0x50 => zeroBelow o 37 (.ok (.mbr f (x5 o 41) (n4 o 37)))
  | 0x51 => zeroBelow o 37 (.ok (.mbw f (n4 o 42) (x5 o 37)))
  | 0x52 => zeroBelow o 37 (.ok (.qpush f (n4 o 42) (x5 o 37)))
  | 0x53 => zeroBelow o 37 (.ok (.qpop f (x5 o 41) (n4 o 37)))
  | 0x54 => .ok (.flset f (n4 o 42) (bits 42 o 0))
  | 0x55 => zeroBelow o 37 (.ok (.fltst f (x5 o 41) (n4 o 37)))
  | 0x56 => zeroBelow o 41 (.ok (.tick f (x5 o 41)))
  | 0x57 => zeroBelow o 41 (.ok (.wall f (x5 o 41)))
  | 0x60 => .ok (.trap f (bits 46 o 0))
  | 0x61 => zeroBelow o 46 (.ok (.tret f))
  | 0x62 => zeroBelow o 46 (.ok (.ten f))
  | 0x63 => .ok (.csrr f (x5 o 41) (bits 41 o 0))
  | 0x64 => .ok (.csrw f (x5 o 41) (bits 41 o 0))
  | _ => .illegal

/-! ### The A map (03 R53) -/

def decodeA (f : Frame) (op o : Nat) : Fields :=
  match op with
  | 0x00 => zeroBelow o 46 (.ok (.nop f))
  | 0x01 => zeroBelow o 34 (.ok (.cadd f (n4 o 42) (n4 o 38) (n4 o 34)))
  | 0x02 => zeroBelow o 34 (.ok (.csub f (n4 o 42) (n4 o 38) (n4 o 34)))
  | 0x03 => zeroBelow o 34 (.ok (.cmul f (n4 o 42) (n4 o 38) (n4 o 34)))
  | 0x04 => zeroBelow o 34 (.ok (.cand f (n4 o 42) (n4 o 38) (n4 o 34)))
  | 0x05 => zeroBelow o 34 (.ok (.cor f (n4 o 42) (n4 o 38) (n4 o 34)))
  | 0x06 => zeroBelow o 34 (.ok (.cshl f (n4 o 42) (n4 o 38) (n4 o 34)))
  | 0x07 => zeroBelow o 34 (.ok (.cshr f (n4 o 42) (n4 o 38) (n4 o 34)))
  | 0x08 => zeroBelow o 34 (.ok (.cmin f (n4 o 42) (n4 o 38) (n4 o 34)))
  | 0x09 => zeroBelow o 34 (.ok (.cmax f (n4 o 42) (n4 o 38) (n4 o 34)))
  | 0x0A => .ok (.caddi f (n4 o 42) (n4 o 38) (bits 38 o 0))
  | 0x0B => .ok (.climm f (n4 o 42) (bits 42 o 0))
  | 0x10 => zeroBelow o 36 (.ok (.layset f (n6 o 40) (n4 o 36)))
  | 0x11 => zeroBelow o 36 (.ok (.layget f (n6 o 40) (n4 o 36)))
  | 0x12 => zeroBelow o 38 (.ok (.stset f (n4 o 42) (n4 o 38)))
  | 0x13 => zeroBelow o 38 (.ok (.stget f (n4 o 42) (n4 o 38)))
  | 0x14 => zeroBelow o 38 (.ok (.stadv f (n4 o 42) (n4 o 38)))
  | 0x15 => zeroBelow o 42 (.ok (.strst f (n4 o 42)))
  | 0x20 => zeroBelow o 31 (need (Order.ofCode? (fld o 36 2)) fun ord => need (Scope.ofCode? (fld o 33 3)) fun sc =>
      need (Adv.ofCode? (fld o 31 2)) fun av => .ok (.ld f (n4 o 42) (n4 o 38) ord sc av))
  | 0x21 => zeroBelow o 31 (need (Order.ofCode? (fld o 36 2)) fun ord => need (Scope.ofCode? (fld o 33 3)) fun sc =>
      need (Adv.ofCode? (fld o 31 2)) fun av => .ok (.st f (n4 o 42) (n4 o 38) ord sc av))
  | 0x22 => zeroBelow o 31 (need (Order.ofCode? (fld o 36 2)) fun ord => need (Scope.ofCode? (fld o 33 3)) fun sc =>
      need (Adv.ofCode? (fld o 31 2)) fun av => .ok (.lds f (n4 o 42) (n4 o 38) ord sc av))
  | 0x23 => zeroBelow o 31 (need (Order.ofCode? (fld o 36 2)) fun ord => need (Scope.ofCode? (fld o 33 3)) fun sc =>
      need (Adv.ofCode? (fld o 31 2)) fun av => .ok (.sts f (n4 o 42) (n4 o 38) ord sc av))
  | 0x24 => zeroBelow o 32 (need (Adv.ofCode? (fld o 32 2)) fun av =>
      .ok (.gath f (n4 o 42) (n4 o 38) (n4 o 34) av))
  | 0x25 => zeroBelow o 32 (need (Adv.ofCode? (fld o 32 2)) fun av =>
      .ok (.scat f (n4 o 42) (n4 o 38) (n4 o 34) av))
  | 0x26 => zeroBelow o 42 (.ok (.touch f (n4 o 42)))
  | 0x28 => zeroBelow o 25 (need (Order.ofCode? (fld o 32 2)) fun ord => need (Scope.ofCode? (fld o 29 3)) fun sc =>
      need (Aop.ofCode? (fld o 25 4)) fun op => .ok (.amo f (n4 o 42) (n4 o 38) (n4 o 34) ord sc op))
  | 0x29 => zeroBelow o 25 (need (Order.ofCode? (fld o 28 2)) fun ord => need (Scope.ofCode? (fld o 25 3)) fun sc =>
      .ok (.amocas f (n4 o 42) (n4 o 38) (n4 o 34) (n4 o 30) ord sc))
  | 0x2C => zeroBelow o 38 (need (Scope.ofCode? (fld o 38 3)) fun sc => .ok (.fence f (bits 5 o 41) sc))
  | 0x2D => zeroBelow o 46 (.ok (.qmark f))
  | 0x30 => zeroBelow o 15 (need (EngineId.ofCode? (fld o 44 2)) fun e =>
      if fld o 15 1 = 1 then .ok (.eng f e (bits 10 o 34) (n4 o 30) (n4 o 26) (some (bits 10 o 16)))
      else if fld o 16 10 = 0 then .ok (.eng f e (bits 10 o 34) (n4 o 30) (n4 o 26) none)
      else .reserved)
  | 0x31 => zeroBelow o 40 (need (EngineId.ofCode? (fld o 44 2)) fun e => .ok (.epush f e (n4 o 40)))
  | 0x32 => zeroBelow o 40 (need (EngineId.ofCode? (fld o 40 2)) fun e => .ok (.epop f (n4 o 42) e))
  | 0x38 => zeroBelow o 39 (.ok (.gdef f (n3 o 43) (n4 o 39)))
  | 0x39 => zeroBelow o 33 (need (Rule.ofCode? (fld o 33 3)) fun r =>
      if h : fld o 40 3 < 6 then .ok (.gbc f (n3 o 43) ⟨fld o 40 3, h⟩ (n4 o 36) r) else .reserved)
  | 0x3A => zeroBelow o 29 (need (Adv.ofCode? (fld o 29 2)) fun av =>
      .ok (.gld f (n4 o 42) (n3 o 39) (n4 o 35) (n4 o 31) av))
  | 0x3B => zeroBelow o 29 (need (Adv.ofCode? (fld o 29 2)) fun av =>
      .ok (.gst f (n3 o 43) (n4 o 39) (n4 o 35) (n4 o 31) av))
  | 0x3C => zeroBelow o 43 (.ok (.gadv f (n3 o 43)))
  | 0x3D => zeroBelow o 39 (.ok (.gstat f (n4 o 42) (n3 o 39)))
  | 0x40 => zeroBelow o 39 (.ok (.nkey f (n3 o 43) (n4 o 39)))
  | 0x41 => zeroBelow o 35 (.ok (.nctr f (n3 o 43) (n4 o 39) (n4 o 35)))
  | 0x42 => zeroBelow o 39 (.ok (.nskip f (n3 o 43) (n4 o 39)))
  | 0x43 => zeroBelow o 36 (need (Part.ofCode? (fld o 36 3)) fun p => .ok (.nget f (n4 o 42) (n3 o 39) p))
  | 0x48 => zeroBelow o 38 (.ok (.cqpush f (n4 o 42) (n4 o 38)))
  | 0x49 => zeroBelow o 38 (.ok (.cqpop f (n4 o 42) (n4 o 38)))
  | _ => .illegal

/-! ### The V map (03 R54) -/

def decodeV (f : Frame) (op o : Nat) : Fields :=
  match op with
  | 0x00 => zeroBelow o 46 (.ok (.nop f))
  | 0x01 => zeroBelow o 31 (need (Adv.ofCode? (fld o 31 2)) fun av => .ok (.vrd f (x5 o 41) (n4 o 37) (n4 o 33) av))
  | 0x02 => zeroBelow o 31 (need (Adv.ofCode? (fld o 31 2)) fun av => .ok (.vwr f (n4 o 42) (x5 o 37) (n4 o 33) av))
  | 0x03 => zeroBelow o 37 (.ok (.vtap f (x5 o 41) (n4 o 37)))
  | 0x04 => zeroBelow o 37 (.ok (.vinj f (n4 o 42) (x5 o 37)))
  | 0x05 => zeroBelow o 37 (.ok (.vqpop f (x5 o 41) (n4 o 37)))
  | 0x06 => zeroBelow o 37 (.ok (.vqpush f (n4 o 42) (x5 o 37)))
  | 0x10 => zeroBelow o 23 (.ok (.vadd f (x5 o 41) (x5 o 36) (x5 o 31) (n3 o 28) (.ofField (fld o 23 5))))
  | 0x11 => zeroBelow o 23 (.ok (.vsub f (x5 o 41) (x5 o 36) (x5 o 31) (n3 o 28) (.ofField (fld o 23 5))))
  | 0x12 => zeroBelow o 23 (.ok (.vmul f (x5 o 41) (x5 o 36) (x5 o 31) (n3 o 28) (.ofField (fld o 23 5))))
  | 0x13 => zeroBelow o 23 (.ok (.vmulh f (x5 o 41) (x5 o 36) (x5 o 31) (n3 o 28) (.ofField (fld o 23 5))))
  | 0x14 => zeroBelow o 23 (.ok (.vmin f (x5 o 41) (x5 o 36) (x5 o 31) (n3 o 28) (.ofField (fld o 23 5))))
  | 0x15 => zeroBelow o 23 (.ok (.vmax f (x5 o 41) (x5 o 36) (x5 o 31) (n3 o 28) (.ofField (fld o 23 5))))
  | 0x16 => zeroBelow o 23 (.ok (.vand f (x5 o 41) (x5 o 36) (x5 o 31) (n3 o 28) (.ofField (fld o 23 5))))
  | 0x17 => zeroBelow o 23 (.ok (.vor f (x5 o 41) (x5 o 36) (x5 o 31) (n3 o 28) (.ofField (fld o 23 5))))
  | 0x18 => zeroBelow o 23 (.ok (.vxor f (x5 o 41) (x5 o 36) (x5 o 31) (n3 o 28) (.ofField (fld o 23 5))))
  | 0x19 => zeroBelow o 23 (.ok (.vshl f (x5 o 41) (x5 o 36) (x5 o 31) (n3 o 28) (.ofField (fld o 23 5))))
  | 0x1A => zeroBelow o 23 (.ok (.vshr f (x5 o 41) (x5 o 36) (x5 o 31) (n3 o 28) (.ofField (fld o 23 5))))
  | 0x24 => zeroBelow o 23 (.ok (.vfmin f (x5 o 41) (x5 o 36) (x5 o 31) (n3 o 28) (.ofField (fld o 23 5))))
  | 0x25 => zeroBelow o 23 (.ok (.vfmax f (x5 o 41) (x5 o 36) (x5 o 31) (n3 o 28) (.ofField (fld o 23 5))))
  | 0x38 => zeroBelow o 23 (.ok (.vperm f (x5 o 41) (x5 o 36) (x5 o 31) (n3 o 28) (.ofField (fld o 23 5))))
  | 0x1B => zeroBelow o 22 (need (Cond.ofCode? (fld o 22 3)) fun c =>
      .ok (.vcmpi f (n3 o 43) (x5 o 38) (x5 o 33) (n3 o 30) (.ofField (fld o 25 5)) c))
  | 0x28 => zeroBelow o 22 (need (Cond.ofCode? (fld o 22 3)) fun c =>
      .ok (.vfcmp f (n3 o 43) (x5 o 38) (x5 o 33) (n3 o 30) (.ofField (fld o 25 5)) c))
  | 0x20 => zeroBelow o 17 (need (Rm.ofCode? (fld o 20 3)) fun rm =>
      .ok (.vfadd f (x5 o 41) (x5 o 36) (x5 o 31) (n3 o 28) (.ofField (fld o 23 5)) rm (n3 o 17)))
  | 0x21 => zeroBelow o 17 (need (Rm.ofCode? (fld o 20 3)) fun rm =>
      .ok (.vfsub f (x5 o 41) (x5 o 36) (x5 o 31) (n3 o 28) (.ofField (fld o 23 5)) rm (n3 o 17)))
  | 0x22 => zeroBelow o 17 (need (Rm.ofCode? (fld o 20 3)) fun rm =>
      .ok (.vfmul f (x5 o 41) (x5 o 36) (x5 o 31) (n3 o 28) (.ofField (fld o 23 5)) rm (n3 o 17)))
  | 0x23 => zeroBelow o 12 (need (Rm.ofCode? (fld o 15 3)) fun rm =>
      .ok (.vfma f (x5 o 41) (x5 o 36) (x5 o 31) (x5 o 26) (n3 o 23) (.ofField (fld o 18 5)) rm (n3 o 12)))
  | 0x26 => zeroBelow o 28 (.ok (.vfabs f (x5 o 41) (x5 o 36) (n3 o 33) (.ofField (fld o 28 5))))
  | 0x27 => zeroBelow o 28 (.ok (.vfneg f (x5 o 41) (x5 o 36) (n3 o 33) (.ofField (fld o 28 5))))
  | 0x30 => zeroBelow o 17 (need (Rm.ofCode? (fld o 20 3)) fun rm =>
      .ok (.vcvt f (x5 o 41) (x5 o 36) (n3 o 33) (.ofField (fld o 28 5)) (.ofField (fld o 23 5)) rm (n3 o 17)))
  | 0x31 => zeroBelow o 25 (need (Rm.ofCode? (fld o 28 3)) fun rm =>
      .ok (.vqmx f (x5 o 41) (x5 o 36) (.ofField (fld o 31 5)) rm (n3 o 25)))
  | 0x32 => zeroBelow o 26 (.ok (.vdq f (x5 o 41) (x5 o 36) (.ofField (fld o 31 5)) (.ofField (fld o 26 5))))
  | 0x34 => zeroBelow o 26 (need (Red.ofCode? (fld o 26 2)) fun r =>
      .ok (.vred f (x5 o 41) (x5 o 36) (n3 o 33) (.ofField (fld o 28 5)) r))
  | 0x3A => zeroBelow o 28 (.ok (.vsel f (x5 o 41) (x5 o 36) (x5 o 31) (n3 o 28)))
  | 0x39 => .ok (.vslide f (x5 o 41) (x5 o 36) (.ofField (fld o 31 5)) (bits 31 o 0))
  | 0x3B => .ok (.vbcst f (x5 o 41) (x5 o 36) (.ofField (fld o 31 5)) (bits 31 o 0))
  | 0x44 => .ok (.vext f (x5 o 41) (x5 o 36) (.ofField (fld o 31 5)) (bits 31 o 0))
  | 0x45 => .ok (.vins f (x5 o 41) (x5 o 36) (.ofField (fld o 31 5)) (bits 31 o 0))
  | 0x3C => zeroBelow o 31 (.ok (.vpln f (x5 o 41) (x5 o 36) (.ofField (fld o 31 5))))
  | 0x3D => zeroBelow o 31 (.ok (.vunpl f (x5 o 41) (x5 o 36) (.ofField (fld o 31 5))))
  | 0x40 => .ok (.kset f (n3 o 43) (bits 43 o 0))
  | 0x41 => zeroBelow o 35 (need (Lop.ofCode? (fld o 35 2)) fun op => .ok (.klog f (n3 o 43) (n3 o 40) (n3 o 37) op))
  | 0x42 => zeroBelow o 38 (.ok (.kcnt f (x5 o 41) (n3 o 38)))
  | 0x48 => zeroBelow o 22 (need (Dist.ofCode? (fld o 23 2)) fun d =>
      .ok (.vrng f (x5 o 41) (x5 o 36) (n3 o 33) (n3 o 30) (.ofField (fld o 25 5)) d (fld o 22 1 == 1)))
  | _ => .illegal

/-! ### The M map (03 R55) -/

def decodeM (f : Frame) (op o : Nat) : Fields :=
  match op with
  | 0x00 => zeroBelow o 46 (.ok (.nop f))
  | 0x01 => zeroBelow o 19 (need (Acc.ofCode? (fld o 26 2)) fun a =>
      .ok (.mcfg f (bits 4 o 42) (.ofField (fld o 37 5)) (.ofField (fld o 32 5)) (bits 4 o 28) a (bits 7 o 19)))
  | 0x02 => zeroBelow o 38 (.ok (.mlw f (bits 4 o 42) (n4 o 38)))
  | 0x03 => zeroBelow o 31 (.ok (.mlwp f (bits 4 o 42) (n4 o 38) (n4 o 34) (n3 o 31)))
  | 0x04 => .ok (.mma f (bits 4 o 42) (n4 o 38) (bits 38 o 0))
  | 0x05 => zeroBelow o 42 (.ok (.macz f (bits 4 o 42)))
  | 0x06 => zeroBelow o 42 (.ok (.mpro f (bits 4 o 42)))
  | 0x07 => need (Rm.ofCode? (fld o 30 3)) fun rm =>
      .ok (.mrd f (bits 4 o 42) (n4 o 38) (.ofField (fld o 33 5)) rm (bits 30 o 0))
  | 0x08 => zeroBelow o 42 (.ok (.mwake f (bits 4 o 42)))
  | 0x09 => zeroBelow o 42 (.ok (.msleep f (bits 4 o 42)))
  | 0x0A => zeroBelow o 42 (.ok (.mstat f (bits 4 o 42)))
  | _ => .illegal

/-! ### Native words (03 R46, R50) -/

/-- What a native word decodes to; the failures are in the order of 03 R50. -/
inductive NativeDecode where
  | ok (i : Instr)
  | illegal
  | reserved
  | format
  | combination
  deriving DecidableEq, Repr

/-- The checks of 03 R50 after the opcode and the reserved bits. -/
def checkFields : Fields → NativeDecode
  | .illegal => .illegal
  | .reserved => .reserved
  | .ok i =>
    if !i.limitsOk then .reserved
    else if !i.formatOk then .format
    else if !i.comboOk then .combination
    else .ok i

def frameOf (n : Nat) : Frame :=
  ⟨n / 2 ^ 63 % 2 == 1, Fin.ofNat 32 (n / 2 ^ 58), Fin.ofNat 8 (n / 2 ^ 55), n / 2 ^ 54 % 2 == 1⟩

def decodeFields (c : Cluster) (n : Nat) : Fields :=
  match c with
  | .s => decodeS (frameOf n) (fld n 46 8) (n % 2 ^ 46)
  | .a => decodeA (frameOf n) (fld n 46 8) (n % 2 ^ 46)
  | .v => decodeV (frameOf n) (fld n 46 8) (n % 2 ^ 46)
  | .m => decodeM (frameOf n) (fld n 46 8) (n % 2 ^ 46)

def decodeNative (c : Cluster) (w : Word) : NativeDecode := checkFields (decodeFields c w.toNat)

/-! ### Engine words (03 R56, 12 R249, R252) -/

/-- What a 16-bit word decodes to in an engine: an instruction; an illegal word (cause 0x01); a launch word of
another engine (cause 0x02); or a launch word with an encoded argument outside its limits (cause 0x05). -/
inductive EngineDecode where
  | ok (i : Instr)
  | illegal
  | wrongEngine
  | badArgument
  deriving DecidableEq, Repr

/-- Class 0x9, copy launch: CE only. -/
def decodeCopy (sub arg : Nat) : EngineDecode :=
  match sub with
  | 0 =>
    if arg / 32 ≠ 0 || 5 < arg % 8 then .badArgument
    else match arg / 8 with
      | 0 => .ok (.nestCount (n3 arg 0))
      | 1 => .ok (.nestSrc (n3 arg 0))
      | 2 => .ok (.nestDst (n3 arg 0))
      | _ => if arg % 8 = 0 then .ok .nestClear else .badArgument
  | 1 => .ok (.copy (n4 arg 4) (n4 arg 0))
  | 2 => .ok (.plane (n4 arg 4) (n4 arg 0))
  | 3 => if arg / 16 = 0 then .ok (.fill (n4 arg 0)) else .badArgument
  | _ => .illegal

/-- Class 0xA, TIE launch: TIE only. -/
def decodeTie (sub arg : Nat) : EngineDecode :=
  match sub with
  | 0 => if arg / 8 = 0 then .ok (.tload (n3 arg 0)) else .badArgument
  | 1 => .ok (.trun (n4 arg 4) (n4 arg 0))
  | _ => .illegal

/-- Class 0xB, FX launch: FX only. -/
def decodeFx (sub arg : Nat) : EngineDecode :=
  match sub with
  | 0 => .ok (.send (n4 arg 4) (n4 arg 0))
  | 1 => match CombOp.ofCode? (arg / 16) with
    | some op => .ok (.comb op (n4 arg 0))
    | none => .badArgument
  | _ => .illegal

/-- Class 0x3, stack and arithmetic. -/
def decodeStack (operand : Nat) : EngineDecode :=
  match operand with
  | 0x000 => .ok .dup | 0x001 => .ok .drop | 0x002 => .ok .swap | 0x003 => .ok .over | 0x004 => .ok .rot
  | 0x005 => .ok .engAdd | 0x006 => .ok .engSub | 0x007 => .ok .engMul | 0x008 => .ok .engAnd
  | 0x009 => .ok .engOr | 0x00A => .ok .engXor | 0x00B => .ok .engShl | 0x00C => .ok .engShr
  | _ => .illegal

/-- An engine word (03 R56). A launch word of another engine's class is that, cause 0x02, whatever its sub-operation (12 R249 gives no
order between 0x01 and 0x02; DESIGN CHOICE, log entry 105). -/
def decodeEngineNat (e : EngineId) (n : Nat) : EngineDecode :=
  let o := n % 2 ^ 12
  match n / 2 ^ 12 % 16 with
  | 0x0 => .ok (.lit (bits 12 o 0))
  | 0x1 => .ok (.litn (bits 12 o 0))
  | 0x2 => .ok (.lith (bits 12 o 0))
  | 0x3 => decodeStack o
  | 0x4 => if o / 8 = 0 then .ok (.param (n3 o 0)) else .illegal
  | 0x5 => .ok (.jmp (bits 12 o 0))
  | 0x6 => .ok (.jz (bits 12 o 0))
  | 0x7 => if o = 0 then .ok .repw else .illegal
  | 0x8 => if o = 0 then .ok .endE else .illegal
  | 0x9 => if e = .ce then decodeCopy (o / 256) (o % 256) else .wrongEngine
  | 0xA => if e = .tie then decodeTie (o / 256) (o % 256) else .wrongEngine
  | 0xB => if e = .fx then decodeFx (o / 256) (o % 256) else .wrongEngine
  | 0xC => .ok (.chain (bits 12 o 0))
  | 0xD => if o = 0 then .ok .result else .illegal
  | _ => .illegal

def decodeEngine (e : EngineId) (w : BitVec 16) : EngineDecode := decodeEngineNat e w.toNat

/-! ### Portable words (21 R381 to R389) -/

def Pt.code : Pt → Nat
  | .i8 => 0 | .i16 => 1 | .i32 => 2 | .i64 => 3 | .f64 => 4 | .f32 => 5 | .f16 => 6 | .bf16 => 7
def Pt.ofCode : Nat → Pt
  | 0 => .i8 | 1 => .i16 | 2 => .i32 | 3 => .i64 | 4 => .f64 | 5 => .f32 | 6 => .f16 | _ => .bf16

def DrainFmt.code : DrainFmt → Nat
  | .fp32 => 0 | .bf16 => 1 | .acc26 => 2 | .int32 => 3 | .int8 => 4
def DrainFmt.ofCode? : Nat → Option DrainFmt
  | 0 => some .fp32 | 1 => some .bf16 | 2 => some .acc26 | 3 => some .int32 | 4 => some .int8 | _ => none

def RvCond.code : RvCond → Nat
  | .beq => 0 | .bne => 1 | .blt => 4 | .bge => 5 | .bltu => 6 | .bgeu => 7
def RvLoadOp.code : RvLoadOp → Nat
  | .lb => 0 | .lh => 1 | .lw => 2 | .ld => 3 | .lbu => 4 | .lhu => 5 | .lwu => 6
def RvStoreOp.code : RvStoreOp → Nat
  | .sb => 0 | .sh => 1 | .sw => 2 | .sd => 3
def RvCounter.code : RvCounter → Nat
  | .cycle => 0xC00 | .time => 0xC01 | .instret => 0xC02

/-- What a portable word decodes to; the failures are the traps of 21 R385. -/
inductive PortableDecode where
  | ok (i : Instr)
  | illegal
  | reserved
  | format
  deriving DecidableEq, Repr

/-- The checks of a portable word after its fields (21 R385). -/
def checkPortable (i : Instr) : PortableDecode :=
  if !i.limitsOk then .reserved else if !i.formatOk then .format else .ok i

/-- The R-type fields of a portable word (21 R386). -/
def rd (n : Nat) : Fin 32 := x5 n 7
def rs1 (n : Nat) : Fin 32 := x5 n 15
def rs2 (n : Nat) : Fin 32 := x5 n 20

/-- A KV1 word (21 R387): h in [31], pt in [30:28], m in [27:25]. -/
def decodeKv (n : Nat) : PortableDecode :=
  let pt := Pt.ofCode (fld n 28 3)
  let m := fld n 25 3
  let rm : Fin 4 := Fin.ofNat 4 m
  let b0 : Bool := fld n 20 5 = 0
  let d0 : Bool := fld n 7 5 = 0
  match fld n 31 1 * 8 + fld n 12 3 with
  | 0 => if m = 0 && b0 then .ok (.kvSetvl pt (rd n) (rs1 n)) else .reserved
  | 1 => if b0 then .ok (.kvLd pt (bits 3 n 25) (rd n) (rs1 n)) else .reserved
  | 2 => if d0 then .ok (.kvSt pt (bits 3 n 25) (rs2 n) (rs1 n)) else .reserved
  | 3 => .ok (.kvLds pt (bits 3 n 25) (rd n) (rs1 n) (rs2 n))
  | 4 => if m < 4 then checkPortable (.kvAdd pt rm (rd n) (rs1 n) (rs2 n)) else .reserved
  | 5 => if m < 4 then checkPortable (.kvSub pt rm (rd n) (rs1 n) (rs2 n)) else .reserved
  | 6 => if m < 4 then checkPortable (.kvMul pt rm (rd n) (rs1 n) (rs2 n)) else .reserved
  | 7 => if m < 4 then checkPortable (.kvFma pt rm (rd n) (rs1 n) (rs2 n)) else .reserved
  | 8 => if m = 0 then .ok (.kvMin pt (rd n) (rs1 n) (rs2 n)) else .reserved
  | 9 => if m = 0 then .ok (.kvMax pt (rd n) (rs1 n) (rs2 n)) else .reserved
  | 10 => if m < 4 && fld n 23 2 = 0 then .ok (.kvCvt pt rm (Pt.ofCode (fld n 20 3)) (rd n) (rs1 n)) else .reserved
  | 11 => if m = 0 && fld n 22 3 = 0 then
      (match Red.ofCode? (fld n 20 2) with
       | some r => checkPortable (.kvRed pt r (rd n) (rs1 n)) | none => .reserved) else .reserved
  | 12 => match Cond.ofCode? m with
      | some c => checkPortable (.kvCmp pt c (rd n) (rs1 n) (rs2 n)) | none => .reserved
  | 13 => if m = 0 then .ok (.kvSel pt (rd n) (rs1 n) (rs2 n)) else .reserved
  | 14 => if m = 0 && b0 then .ok (.kvBcst pt (rd n) (rs1 n)) else .reserved
  | _ => if m < 2 && b0 then checkPortable (.kvRng pt (m == 1) (rd n) (rs1 n)) else .reserved

/-- A KM1 word (21 R388): f in [31:29], the mask in [28:25]. -/
def decodeKm (n : Nat) : PortableDecode :=
  let sa : SaMask := bits 4 n 25
  let h : BitVec 3 := bits 3 n 29
  let b0 : Bool := fld n 20 5 = 0
  let d0 : Bool := fld n 7 5 = 0
  match fld n 12 3 with
  | 0 => if d0 && b0 then .ok (.kmCfg sa h (rs1 n)) else .reserved
  | 1 => if d0 && b0 then .ok (.kmLw sa h (rs1 n)) else .reserved
  | 2 => if d0 && b0 then .ok (.kmLwp sa h (rs1 n)) else .reserved
  | 3 => if d0 then .ok (.kmMma sa h (rs1 n) (rs2 n)) else .reserved
  | 4 => if d0 then (match DrainFmt.ofCode? (fld n 29 3) with
      | some f => .ok (.kmRd sa f (rs1 n) (rs2 n)) | none => .reserved) else .reserved
  | 5 => if d0 && b0 && fld n 15 5 = 0 then .ok (.kmZero sa h) else .reserved
  | _ => .illegal

/-- A KG1 word (21 R389): hints in [31:28], the grid in [27:25]. -/
def decodeKg (n : Nat) : PortableDecode :=
  let gr : Num3 := n3 n 25
  let h : BitVec 4 := bits 4 n 28
  let b0 : Bool := fld n 20 5 = 0
  let d0 : Bool := fld n 7 5 = 0
  match fld n 12 3 with
  | 0 => if d0 && b0 then .ok (.kgDef gr h (rs1 n)) else .reserved
  | 1 => .ok (.kgLd gr h (rd n) (rs1 n) (rs2 n))
  | 2 => .ok (.kgSt gr h (rd n) (rs1 n) (rs2 n))
  | 3 => if d0 && b0 && fld n 15 5 = 0 then .ok (.kgAdv gr h) else .reserved
  | _ => .illegal

/-- OP and OP-IMM of RV64I, with the RISC-V encodings (21 R381). -/
def decodeOp (n : Nat) : PortableDecode :=
  let k (op : RvOp) : PortableDecode := .ok (.rvIntegerOp op (rd n) (rs1 n) (.reg (rs2 n)))
  let md (op : RvMulOp) : PortableDecode := .ok (.rvMuldiv op (rd n) (rs1 n) (rs2 n))
  match fld n 25 7, fld n 12 3 with
  | 0x00, 0 => k .add | 0x20, 0 => k .sub | 0x00, 1 => k .sll | 0x00, 2 => k .slt | 0x00, 3 => k .sltu
  | 0x00, 4 => k .xor | 0x00, 5 => k .srl | 0x20, 5 => k .sra | 0x00, 6 => k .or | 0x00, 7 => k .and
  | 0x01, 0 => md .mul | 0x01, 1 => md .mulh | 0x01, 2 => md .mulhsu | 0x01, 3 => md .mulhu
  | 0x01, 4 => md .div | 0x01, 5 => md .divu | 0x01, 6 => md .rem | 0x01, 7 => md .remu
  | _, _ => .illegal

def decodeOpImm (n : Nat) : PortableDecode :=
  let k (op : RvOp) (v : BitVec 12) : PortableDecode := .ok (.rvIntegerOp op (rd n) (rs1 n) (.imm v))
  match fld n 12 3 with
  | 0 => k .add (bits 12 n 20)
  | 1 => if fld n 26 6 = 0 then k .sll (BitVec.ofNat 12 (fld n 20 6)) else .illegal
  | 2 => k .slt (bits 12 n 20)
  | 3 => k .sltu (bits 12 n 20)
  | 4 => k .xor (bits 12 n 20)
  | 5 => if fld n 26 6 = 0 then k .srl (BitVec.ofNat 12 (fld n 20 6))
         else if fld n 26 6 = 0x10 then k .sra (BitVec.ofNat 12 (fld n 20 6)) else .illegal
  | 6 => k .or (bits 12 n 20)
  | _ => k .and (bits 12 n 20)

def decodeOp32 (n : Nat) : PortableDecode :=
  let k (op : RvWordOp) : PortableDecode := .ok (.rvWordOp op (rd n) (rs1 n) (.reg (rs2 n)))
  let md (op : RvMulOp) : PortableDecode := .ok (.rvMuldiv op (rd n) (rs1 n) (rs2 n))
  match fld n 25 7, fld n 12 3 with
  | 0x00, 0 => k .addw | 0x20, 0 => k .subw | 0x00, 1 => k .sllw | 0x00, 5 => k .srlw | 0x20, 5 => k .sraw
  | 0x01, 0 => md .mulw | 0x01, 4 => md .divw | 0x01, 5 => md .divuw | 0x01, 6 => md .remw | 0x01, 7 => md .remuw
  | _, _ => .illegal

def decodeOpImm32 (n : Nat) : PortableDecode :=
  let k (op : RvWordOp) (v : BitVec 12) : PortableDecode := .ok (.rvWordOp op (rd n) (rs1 n) (.imm v))
  match fld n 12 3 with
  | 0 => k .addw (bits 12 n 20)
  | 1 => if fld n 25 7 = 0 then k .sllw (BitVec.ofNat 12 (fld n 20 5)) else .illegal
  | 5 => if fld n 25 7 = 0 then k .srlw (BitVec.ofNat 12 (fld n 20 5))
         else if fld n 25 7 = 0x20 then k .sraw (BitVec.ofNat 12 (fld n 20 5)) else .illegal
  | _ => .illegal

def decodeBranch (n : Nat) : PortableDecode :=
  let off := fld n 31 1 * 2 ^ 11 + fld n 7 1 * 2 ^ 10 + fld n 25 6 * 2 ^ 4 + fld n 8 4
  let k (c : RvCond) : PortableDecode := .ok (.rvBranch c (rs1 n) (rs2 n) (BitVec.ofNat 12 off))
  match fld n 12 3 with
  | 0 => k .beq | 1 => k .bne | 4 => k .blt | 5 => k .bge | 6 => k .bltu | 7 => k .bgeu
  | _ => .illegal

def decodeLoad (n : Nat) : PortableDecode :=
  let k (op : RvLoadOp) : PortableDecode := .ok (.rvLoad op (rd n) (rs1 n) (bits 12 n 20))
  match fld n 12 3 with
  | 0 => k .lb | 1 => k .lh | 2 => k .lw | 3 => k .ld | 4 => k .lbu | 5 => k .lhu | 6 => k .lwu
  | _ => .illegal

def decodeStore (n : Nat) : PortableDecode :=
  let k (op : RvStoreOp) : PortableDecode :=
    .ok (.rvStore op (rs1 n) (rs2 n) (BitVec.ofNat 12 (fld n 25 7 * 32 + fld n 7 5)))
  match fld n 12 3 with
  | 0 => k .sb | 1 => k .sh | 2 => k .sw | 3 => k .sd
  | _ => .illegal

/-- FENCE with fm = 8 and RW,RW is FENCE.TSO; every other fm is a plain FENCE, as RISC-V has it. -/
def decodeFence (n : Nat) : PortableDecode :=
  if fld n 12 3 ≠ 0 then .illegal
  else if fld n 20 12 = 0x833 then .ok (.fenceTso (rd n) (rs1 n))
  else .ok (.rvFence (bits 4 n 28) (bits 4 n 24) (bits 4 n 20) (rd n) (rs1 n))

/-- ECALL, EBREAK and the counter reads (21 R382). -/
def decodeSystem (n : Nat) : PortableDecode :=
  let ctr : Option RvCounter :=
    match fld n 20 12 with | 0xC00 => some .cycle | 0xC01 => some .time | 0xC02 => some .instret | _ => none
  match fld n 12 3 with
  | 0 => if fld n 7 25 = 0 then .ok .ecall else if fld n 7 25 = 0x2000 then .ok .ebreak else .illegal
  | 2 => if fld n 15 5 = 0 then (match ctr with | some c => .ok (.csrrs (rd n) c) | none => .illegal) else .illegal
  | 6 => if fld n 15 5 = 0 then (match ctr with | some c => .ok (.csrrsi (rd n) c) | none => .illegal) else .illegal
  | _ => .illegal

def decodePortableNat (n : Nat) : PortableDecode :=
  match fld n 0 7 with
  | 0x0B => decodeKv n
  | 0x2B => decodeKm n
  | 0x5B => decodeKg n
  | 0x33 => decodeOp n
  | 0x13 => decodeOpImm n
  | 0x3B => decodeOp32 n
  | 0x1B => decodeOpImm32 n
  | 0x37 => .ok (.lui (rd n) (bits 20 n 12))
  | 0x17 => .ok (.auipc (rd n) (bits 20 n 12))
  | 0x63 => decodeBranch n
  | 0x6F => .ok (.jal (rd n)
      (BitVec.ofNat 20 (fld n 31 1 * 2 ^ 19 + fld n 12 8 * 2 ^ 11 + fld n 20 1 * 2 ^ 10 + fld n 21 10)))
  | 0x67 => if fld n 12 3 = 0 then .ok (.jalr (rd n) (rs1 n) (bits 12 n 20)) else .illegal
  | 0x03 => decodeLoad n
  | 0x23 => decodeStore n
  | 0x0F => decodeFence n
  | 0x73 => decodeSystem n
  | _ => .illegal

def decodePortable (w : BitVec 32) : PortableDecode := decodePortableNat w.toNat

/-! ### Rows of the opcode table -/

/-- The engine whose launch class a 16-bit word is in; the copy engine for the words every engine runs. -/
def engineOfWord (n : Nat) : EngineId :=
  match n / 2 ^ 12 % 16 with
  | 0xA => .tie
  | 0xB => .fx
  | _ => .ce

/-- The instruction the decoder reads from an instruction whose bits are `w`: 16 bits an engine word, 32 bits a
portable word, 64 bits a word of the S map. -/
def decodeTableWord (nbits w : Nat) : Option Instr :=
  if nbits = 16 then
    match decodeEngine (engineOfWord w) (BitVec.ofNat 16 w) with
    | .ok i => some i
    | _ => none
  else if nbits = 32 then
    match decodePortable (BitVec.ofNat 32 w) with
    | .ok i => some i
    | _ => none
  else if nbits = 64 then
    match decodeNative .s (BitVec.ofNat 64 w) with
    | .ok i => some i
    | _ => none
  else none

/-! ### Encoding (03 R46 to R56, 21 R381 to R389) -/

/-- Operand fields packed from bit `top` - 1 downward, with no gaps (03 R48). -/
def packFrom : Nat → List (Nat × Nat) → Nat
  | _, [] => 0
  | top, (w, v) :: rest => v * 2 ^ (top - w) + packFrom (top - w) rest

/-- The parts of a native word: its frame, cluster, opcode and operand fields (width, value). A NOP is of every
cluster (03 R46) and is given by `encodeNative` directly. -/
structure NativeForm where
  frame : Frame
  cluster : Cluster
  op : Nat
  fields : List (Nat × Nat)
  deriving DecidableEq, Repr

def chainField : Option (BitVec 10) → Nat
  | some c => c.toNat
  | none => 0

def chainFlag : Option (BitVec 10) → Nat
  | some _ => 1
  | none => 0

def Instr.native : Instr → Option NativeForm
  | .add f d a b => some ⟨f, .s, 0x01, [(5, d.val), (5, a.val), (5, b.val)]⟩
  | .sub f d a b => some ⟨f, .s, 0x02, [(5, d.val), (5, a.val), (5, b.val)]⟩
  | .and f d a b => some ⟨f, .s, 0x03, [(5, d.val), (5, a.val), (5, b.val)]⟩
  | .or f d a b => some ⟨f, .s, 0x04, [(5, d.val), (5, a.val), (5, b.val)]⟩
  | .xor f d a b => some ⟨f, .s, 0x05, [(5, d.val), (5, a.val), (5, b.val)]⟩
  | .sll f d a b => some ⟨f, .s, 0x06, [(5, d.val), (5, a.val), (5, b.val)]⟩
  | .srl f d a b => some ⟨f, .s, 0x07, [(5, d.val), (5, a.val), (5, b.val)]⟩
  | .sra f d a b => some ⟨f, .s, 0x08, [(5, d.val), (5, a.val), (5, b.val)]⟩
  | .slt f d a b => some ⟨f, .s, 0x09, [(5, d.val), (5, a.val), (5, b.val)]⟩
  | .sltu f d a b => some ⟨f, .s, 0x0A, [(5, d.val), (5, a.val), (5, b.val)]⟩
  | .mul f d a b => some ⟨f, .s, 0x0B, [(5, d.val), (5, a.val), (5, b.val)]⟩
  | .mulh f d a b => some ⟨f, .s, 0x0C, [(5, d.val), (5, a.val), (5, b.val)]⟩
  | .div f d a b => some ⟨f, .s, 0x0D, [(5, d.val), (5, a.val), (5, b.val)]⟩
  | .divu f d a b => some ⟨f, .s, 0x0E, [(5, d.val), (5, a.val), (5, b.val)]⟩
  | .rem f d a b => some ⟨f, .s, 0x0F, [(5, d.val), (5, a.val), (5, b.val)]⟩
  | .remu f d a b => some ⟨f, .s, 0x10, [(5, d.val), (5, a.val), (5, b.val)]⟩
  | .min f d a b => some ⟨f, .s, 0x11, [(5, d.val), (5, a.val), (5, b.val)]⟩
  | .max f d a b => some ⟨f, .s, 0x12, [(5, d.val), (5, a.val), (5, b.val)]⟩
  | .clz f d a => some ⟨f, .s, 0x13, [(5, d.val), (5, a.val)]⟩
  | .ctz f d a => some ⟨f, .s, 0x14, [(5, d.val), (5, a.val)]⟩
  | .popc f d a => some ⟨f, .s, 0x15, [(5, d.val), (5, a.val)]⟩
  | .sel f d a b g => some ⟨f, .s, 0x16, [(5, d.val), (5, a.val), (5, b.val), (3, g.val)]⟩
  | .addi f d a i => some ⟨f, .s, 0x20, [(5, d.val), (5, a.val), (36, i.toNat)]⟩
  | .andi f d a i => some ⟨f, .s, 0x21, [(5, d.val), (5, a.val), (36, i.toNat)]⟩
  | .ori f d a i => some ⟨f, .s, 0x22, [(5, d.val), (5, a.val), (36, i.toNat)]⟩
  | .xori f d a i => some ⟨f, .s, 0x23, [(5, d.val), (5, a.val), (36, i.toNat)]⟩
  | .slti f d a i => some ⟨f, .s, 0x27, [(5, d.val), (5, a.val), (36, i.toNat)]⟩
  | .slli f d a i => some ⟨f, .s, 0x24, [(5, d.val), (5, a.val), (36, i.toNat)]⟩
  | .srli f d a i => some ⟨f, .s, 0x25, [(5, d.val), (5, a.val), (36, i.toNat)]⟩
  | .srai f d a i => some ⟨f, .s, 0x26, [(5, d.val), (5, a.val), (36, i.toNat)]⟩
  | .limm f d i => some ⟨f, .s, 0x28, [(5, d.val), (41, i.toNat)]⟩
  | .limmh f d i => some ⟨f, .s, 0x29, [(5, d.val), (41, i.toNat)]⟩
  | .gset f g a => some ⟨f, .s, 0x30, [(3, g.val), (5, a.val)]⟩
  | .gseti f g b => some ⟨f, .s, 0x31, [(3, g.val), (43, b.toNat)]⟩
  | .glog f g ga gb op => some ⟨f, .s, 0x32, [(3, g.val), (3, ga.val), (3, gb.val), (2, op.code)]⟩
  | .wait f n => some ⟨f, .s, 0x40, [(46, n.toNat)]⟩
  | .decide f a d => some ⟨f, .s, 0x41, [(5, a.val), (8, d.toNat)]⟩
  | .loop f a l => some ⟨f, .s, 0x42, [(5, a.val), (8, l.toNat)]⟩
  | .call f t r => some ⟨f, .s, 0x43, [(12, t.toNat), (12, r.toNat)]⟩
  | .ret f => some ⟨f, .s, 0x44, []⟩
  | .stop f => some ⟨f, .s, 0x45, []⟩
  | .bar f id sc j => some ⟨f, .s, 0x46, [(8, id.toNat), (3, sc.code), (2, j.code)]⟩
  | .chkp f d => some ⟨f, .s, 0x47, [(8, d.toNat)]⟩
  | .pulse f => some ⟨f, .s, 0x48, []⟩
  | .spawn f n => some ⟨f, .s, 0x49, [(46, n.toNat)]⟩
  | .mbr f d m => some ⟨f, .s, 0x50, [(5, d.val), (4, m.val)]⟩
  | .mbw f m a => some ⟨f, .s, 0x51, [(4, m.val), (5, a.val)]⟩
  | .qpush f q a => some ⟨f, .s, 0x52, [(4, q.val), (5, a.val)]⟩
  | .qpop f d q => some ⟨f, .s, 0x53, [(5, d.val), (4, q.val)]⟩
  | .flset f fl b => some ⟨f, .s, 0x54, [(4, fl.val), (42, b.toNat)]⟩
  | .fltst f d fl => some ⟨f, .s, 0x55, [(5, d.val), (4, fl.val)]⟩
  | .tick f d => some ⟨f, .s, 0x56, [(5, d.val)]⟩
  | .wall f d => some ⟨f, .s, 0x57, [(5, d.val)]⟩
  | .trap f n => some ⟨f, .s, 0x60, [(46, n.toNat)]⟩
  | .tret f => some ⟨f, .s, 0x61, []⟩
  | .ten f => some ⟨f, .s, 0x62, []⟩
  | .csrr f d c => some ⟨f, .s, 0x63, [(5, d.val), (41, c.toNat)]⟩
  | .csrw f a c => some ⟨f, .s, 0x64, [(5, a.val), (41, c.toNat)]⟩
  | .cadd f d a b => some ⟨f, .a, 0x01, [(4, d.val), (4, a.val), (4, b.val)]⟩
  | .csub f d a b => some ⟨f, .a, 0x02, [(4, d.val), (4, a.val), (4, b.val)]⟩
  | .cmul f d a b => some ⟨f, .a, 0x03, [(4, d.val), (4, a.val), (4, b.val)]⟩
  | .cand f d a b => some ⟨f, .a, 0x04, [(4, d.val), (4, a.val), (4, b.val)]⟩
  | .cor f d a b => some ⟨f, .a, 0x05, [(4, d.val), (4, a.val), (4, b.val)]⟩
  | .cshl f d a b => some ⟨f, .a, 0x06, [(4, d.val), (4, a.val), (4, b.val)]⟩
  | .cshr f d a b => some ⟨f, .a, 0x07, [(4, d.val), (4, a.val), (4, b.val)]⟩
  | .cmin f d a b => some ⟨f, .a, 0x08, [(4, d.val), (4, a.val), (4, b.val)]⟩
  | .cmax f d a b => some ⟨f, .a, 0x09, [(4, d.val), (4, a.val), (4, b.val)]⟩
  | .caddi f d a i => some ⟨f, .a, 0x0A, [(4, d.val), (4, a.val), (38, i.toNat)]⟩
  | .climm f d i => some ⟨f, .a, 0x0B, [(4, d.val), (42, i.toNat)]⟩
  | .layset f l a => some ⟨f, .a, 0x10, [(6, l.val), (4, a.val)]⟩
  | .layget f l a => some ⟨f, .a, 0x11, [(6, l.val), (4, a.val)]⟩
  | .stset f s a => some ⟨f, .a, 0x12, [(4, s.val), (4, a.val)]⟩
  | .stget f s a => some ⟨f, .a, 0x13, [(4, s.val), (4, a.val)]⟩
  | .stadv f s a => some ⟨f, .a, 0x14, [(4, s.val), (4, a.val)]⟩
  | .strst f s => some ⟨f, .a, 0x15, [(4, s.val)]⟩
  | .ld f p q o sc av => some ⟨f, .a, 0x20, [(4, p.val), (4, q.val), (2, o.code), (3, sc.code), (2, av.code)]⟩
  | .st f p q o sc av => some ⟨f, .a, 0x21, [(4, p.val), (4, q.val), (2, o.code), (3, sc.code), (2, av.code)]⟩
  | .lds f p q o sc av => some ⟨f, .a, 0x22, [(4, p.val), (4, q.val), (2, o.code), (3, sc.code), (2, av.code)]⟩
  | .sts f p q o sc av => some ⟨f, .a, 0x23, [(4, p.val), (4, q.val), (2, o.code), (3, sc.code), (2, av.code)]⟩
  | .gath f p q r av => some ⟨f, .a, 0x24, [(4, p.val), (4, q.val), (4, r.val), (2, av.code)]⟩
  | .scat f p q r av => some ⟨f, .a, 0x25, [(4, p.val), (4, q.val), (4, r.val), (2, av.code)]⟩
  | .touch f s => some ⟨f, .a, 0x26, [(4, s.val)]⟩
  | .amo f d s a o sc op => some ⟨f, .a, 0x28, [(4, d.val), (4, s.val), (4, a.val), (2, o.code), (3, sc.code), (4, op.code)]⟩
  | .amocas f d s a b o sc => some ⟨f, .a, 0x29, [(4, d.val), (4, s.val), (4, a.val), (4, b.val), (2, o.code), (3, sc.code)]⟩
  | .fence f fs sc => some ⟨f, .a, 0x2C, [(5, fs.toNat), (3, sc.code)]⟩
  | .qmark f => some ⟨f, .a, 0x2D, []⟩
  | .eng f e en a n ch => some ⟨f, .a, 0x30,
      [(2, e.code), (10, en.toNat), (4, a.val), (4, n.val), (10, chainField ch), (1, chainFlag ch)]⟩
  | .epush f e a => some ⟨f, .a, 0x31, [(2, e.code), (4, a.val)]⟩
  | .epop f d e => some ⟨f, .a, 0x32, [(4, d.val), (2, e.code)]⟩
  | .gdef f g a => some ⟨f, .a, 0x38, [(3, g.val), (4, a.val)]⟩
  | .gbc f g fc a r => some ⟨f, .a, 0x39, [(3, g.val), (3, fc.val), (4, a.val), (3, r.code)]⟩
  | .gld f q g s t av => some ⟨f, .a, 0x3A, [(4, q.val), (3, g.val), (4, s.val), (4, t.val), (2, av.code)]⟩
  | .gst f g s t q av => some ⟨f, .a, 0x3B, [(3, g.val), (4, s.val), (4, t.val), (4, q.val), (2, av.code)]⟩
  | .gadv f g => some ⟨f, .a, 0x3C, [(3, g.val)]⟩
  | .gstat f d g => some ⟨f, .a, 0x3D, [(4, d.val), (3, g.val)]⟩
  | .nkey f ns a => some ⟨f, .a, 0x40, [(3, ns.val), (4, a.val)]⟩
  | .nctr f ns a b => some ⟨f, .a, 0x41, [(3, ns.val), (4, a.val), (4, b.val)]⟩
  | .nskip f ns a => some ⟨f, .a, 0x42, [(3, ns.val), (4, a.val)]⟩
  | .nget f d ns p => some ⟨f, .a, 0x43, [(4, d.val), (3, ns.val), (3, p.code)]⟩
  | .cqpush f q a => some ⟨f, .a, 0x48, [(4, q.val), (4, a.val)]⟩
  | .cqpop f d q => some ⟨f, .a, 0x49, [(4, d.val), (4, q.val)]⟩
  | .vrd f d s t av => some ⟨f, .v, 0x01, [(5, d.val), (4, s.val), (4, t.val), (2, av.code)]⟩
  | .vwr f s a t av => some ⟨f, .v, 0x02, [(4, s.val), (5, a.val), (4, t.val), (2, av.code)]⟩
  | .vtap f d t => some ⟨f, .v, 0x03, [(5, d.val), (4, t.val)]⟩
  | .vinj f t a => some ⟨f, .v, 0x04, [(4, t.val), (5, a.val)]⟩
  | .vqpop f d q => some ⟨f, .v, 0x05, [(5, d.val), (4, q.val)]⟩
  | .vqpush f q a => some ⟨f, .v, 0x06, [(4, q.val), (5, a.val)]⟩
  | .vadd f d a b k m => some ⟨f, .v, 0x10, [(5, d.val), (5, a.val), (5, b.val), (3, k.val), (5, m.code)]⟩
  | .vsub f d a b k m => some ⟨f, .v, 0x11, [(5, d.val), (5, a.val), (5, b.val), (3, k.val), (5, m.code)]⟩
  | .vmul f d a b k m => some ⟨f, .v, 0x12, [(5, d.val), (5, a.val), (5, b.val), (3, k.val), (5, m.code)]⟩
  | .vmulh f d a b k m => some ⟨f, .v, 0x13, [(5, d.val), (5, a.val), (5, b.val), (3, k.val), (5, m.code)]⟩
  | .vmin f d a b k m => some ⟨f, .v, 0x14, [(5, d.val), (5, a.val), (5, b.val), (3, k.val), (5, m.code)]⟩
  | .vmax f d a b k m => some ⟨f, .v, 0x15, [(5, d.val), (5, a.val), (5, b.val), (3, k.val), (5, m.code)]⟩
  | .vand f d a b k m => some ⟨f, .v, 0x16, [(5, d.val), (5, a.val), (5, b.val), (3, k.val), (5, m.code)]⟩
  | .vor f d a b k m => some ⟨f, .v, 0x17, [(5, d.val), (5, a.val), (5, b.val), (3, k.val), (5, m.code)]⟩
  | .vxor f d a b k m => some ⟨f, .v, 0x18, [(5, d.val), (5, a.val), (5, b.val), (3, k.val), (5, m.code)]⟩
  | .vshl f d a b k m => some ⟨f, .v, 0x19, [(5, d.val), (5, a.val), (5, b.val), (3, k.val), (5, m.code)]⟩
  | .vshr f d a b k m => some ⟨f, .v, 0x1A, [(5, d.val), (5, a.val), (5, b.val), (3, k.val), (5, m.code)]⟩
  | .vfmin f d a b k m => some ⟨f, .v, 0x24, [(5, d.val), (5, a.val), (5, b.val), (3, k.val), (5, m.code)]⟩
  | .vfmax f d a b k m => some ⟨f, .v, 0x25, [(5, d.val), (5, a.val), (5, b.val), (3, k.val), (5, m.code)]⟩
  | .vperm f d a b k m => some ⟨f, .v, 0x38, [(5, d.val), (5, a.val), (5, b.val), (3, k.val), (5, m.code)]⟩
  | .vcmpi f d a b k m c => some ⟨f, .v, 0x1B, [(3, d.val), (5, a.val), (5, b.val), (3, k.val), (5, m.code), (3, c.code)]⟩
  | .vfcmp f d a b k m c => some ⟨f, .v, 0x28, [(3, d.val), (5, a.val), (5, b.val), (3, k.val), (5, m.code), (3, c.code)]⟩
  | .vfadd f d a b k m r s => some ⟨f, .v, 0x20,
      [(5, d.val), (5, a.val), (5, b.val), (3, k.val), (5, m.code), (3, r.code), (3, s.val)]⟩
  | .vfsub f d a b k m r s => some ⟨f, .v, 0x21,
      [(5, d.val), (5, a.val), (5, b.val), (3, k.val), (5, m.code), (3, r.code), (3, s.val)]⟩
  | .vfmul f d a b k m r s => some ⟨f, .v, 0x22,
      [(5, d.val), (5, a.val), (5, b.val), (3, k.val), (5, m.code), (3, r.code), (3, s.val)]⟩
  | .vfma f d a b c k m r s => some ⟨f, .v, 0x23,
      [(5, d.val), (5, a.val), (5, b.val), (5, c.val), (3, k.val), (5, m.code), (3, r.code), (3, s.val)]⟩
  | .vfabs f d a k m => some ⟨f, .v, 0x26, [(5, d.val), (5, a.val), (3, k.val), (5, m.code)]⟩
  | .vfneg f d a k m => some ⟨f, .v, 0x27, [(5, d.val), (5, a.val), (3, k.val), (5, m.code)]⟩
  | .vcvt f d a k m1 m2 r s => some ⟨f, .v, 0x30,
      [(5, d.val), (5, a.val), (3, k.val), (5, m1.code), (5, m2.code), (3, r.code), (3, s.val)]⟩
  | .vqmx f d a m r s => some ⟨f, .v, 0x31, [(5, d.val), (5, a.val), (5, m.code), (3, r.code), (3, s.val)]⟩
  | .vdq f d a m1 m2 => some ⟨f, .v, 0x32, [(5, d.val), (5, a.val), (5, m1.code), (5, m2.code)]⟩
  | .vred f d a k m r => some ⟨f, .v, 0x34, [(5, d.val), (5, a.val), (3, k.val), (5, m.code), (2, r.code)]⟩
  | .vsel f d a b k => some ⟨f, .v, 0x3A, [(5, d.val), (5, a.val), (5, b.val), (3, k.val)]⟩
  | .vslide f d a m i => some ⟨f, .v, 0x39, [(5, d.val), (5, a.val), (5, m.code), (31, i.toNat)]⟩
  | .vbcst f d a m i => some ⟨f, .v, 0x3B, [(5, d.val), (5, a.val), (5, m.code), (31, i.toNat)]⟩
  | .vext f d a m i => some ⟨f, .v, 0x44, [(5, d.val), (5, a.val), (5, m.code), (31, i.toNat)]⟩
  | .vins f d a m i => some ⟨f, .v, 0x45, [(5, d.val), (5, a.val), (5, m.code), (31, i.toNat)]⟩
  | .vpln f d a m => some ⟨f, .v, 0x3C, [(5, d.val), (5, a.val), (5, m.code)]⟩
  | .vunpl f d a m => some ⟨f, .v, 0x3D, [(5, d.val), (5, a.val), (5, m.code)]⟩
  | .kset f k n => some ⟨f, .v, 0x40, [(3, k.val), (43, n.toNat)]⟩
  | .klog f k a b op => some ⟨f, .v, 0x41, [(3, k.val), (3, a.val), (3, b.val), (2, op.code)]⟩
  | .kcnt f d k => some ⟨f, .v, 0x42, [(5, d.val), (3, k.val)]⟩
  | .vrng f d a ns k m ds ix => some ⟨f, .v, 0x48,
      [(5, d.val), (5, a.val), (3, ns.val), (3, k.val), (5, m.code), (2, ds.code), (1, if ix then 1 else 0)]⟩
  | .mcfg f sa fa fb p ac pr => some ⟨f, .m, 0x01,
      [(4, sa.toNat), (5, fa.code), (5, fb.code), (4, p.toNat), (2, ac.code), (7, pr.toNat)]⟩
  | .mlw f sa t => some ⟨f, .m, 0x02, [(4, sa.toNat), (4, t.val)]⟩
  | .mlwp f sa t u ns => some ⟨f, .m, 0x03, [(4, sa.toNat), (4, t.val), (4, u.val), (3, ns.val)]⟩
  | .mma f sa t r => some ⟨f, .m, 0x04, [(4, sa.toNat), (4, t.val), (38, r.toNat)]⟩
  | .macz f sa => some ⟨f, .m, 0x05, [(4, sa.toNat)]⟩
  | .mpro f sa => some ⟨f, .m, 0x06, [(4, sa.toNat)]⟩
  | .mrd f sa t m r n => some ⟨f, .m, 0x07, [(4, sa.toNat), (4, t.val), (5, m.code), (3, r.code), (30, n.toNat)]⟩
  | .mwake f sa => some ⟨f, .m, 0x08, [(4, sa.toNat)]⟩
  | .msleep f sa => some ⟨f, .m, 0x09, [(4, sa.toNat)]⟩
  | .mstat f sa => some ⟨f, .m, 0x0A, [(4, sa.toNat)]⟩
  | _ => none

/-- Bits [63:54] of a word as a number (03 R46). -/
def frameBits (f : Frame) : Nat :=
  (if f.y then 1 else 0) * 2 ^ 63 + f.w.val * 2 ^ 58 + f.g.val * 2 ^ 55 + (if f.n then 1 else 0) * 2 ^ 54

def NativeForm.toNat (x : NativeForm) : Nat := frameBits x.frame + x.op * 2 ^ 46 + packFrom 46 x.fields

/-- The word of a native instruction in cluster `c`; none for an instruction the cluster's map does not hold. -/
def encodeNative (c : Cluster) (i : Instr) : Option Word :=
  match i with
  | .nop f => some (BitVec.ofNat 64 (frameBits f))
  | i => match i.native with
    | some x => if x.cluster = c then some (BitVec.ofNat 64 x.toNat) else none
    | none => none

/-- An engine word: class in [15:12], operand in [11:0] (03 R56, 12 R252). -/
def Instr.engineParts : Instr → Option (Nat × Nat)
  | .lit v => some (0x0, v.toNat)
  | .litn v => some (0x1, v.toNat)
  | .lith v => some (0x2, v.toNat)
  | .dup => some (0x3, 0x000)
  | .drop => some (0x3, 0x001)
  | .swap => some (0x3, 0x002)
  | .over => some (0x3, 0x003)
  | .rot => some (0x3, 0x004)
  | .engAdd => some (0x3, 0x005)
  | .engSub => some (0x3, 0x006)
  | .engMul => some (0x3, 0x007)
  | .engAnd => some (0x3, 0x008)
  | .engOr => some (0x3, 0x009)
  | .engXor => some (0x3, 0x00A)
  | .engShl => some (0x3, 0x00B)
  | .engShr => some (0x3, 0x00C)
  | .param n => some (0x4, n.val)
  | .jmp i => some (0x5, i.toNat)
  | .jz o => some (0x6, o.toNat)
  | .repw => some (0x7, 0)
  | .endE => some (0x8, 0)
  | .nestCount l => some (0x9, l.val)
  | .nestSrc l => some (0x9, 8 + l.val)
  | .nestDst l => some (0x9, 16 + l.val)
  | .nestClear => some (0x9, 24)
  | .copy s d => some (0x9, 0x100 + s.val * 16 + d.val)
  | .plane s d => some (0x9, 0x200 + s.val * 16 + d.val)
  | .fill d => some (0x9, 0x300 + d.val)
  | .tload n => some (0xA, n.val)
  | .trun i o => some (0xA, 0x100 + i.val * 16 + o.val)
  | .send r s => some (0xB, r.val * 16 + s.val)
  | .comb p s => some (0xB, 0x100 + p.code * 16 + s.val)
  | .chain i => some (0xC, i.toNat)
  | .result => some (0xD, 0)
  | _ => none

def encodeEngine (i : Instr) : Option (BitVec 16) :=
  match i.engineParts with
  | some (c, o) => some (BitVec.ofNat 16 (c * 2 ^ 12 + o))
  | none => none

/-- An R-type word (21 R386). -/
def rType (f7 b a f3 d op : Nat) : Nat := f7 * 2 ^ 25 + b * 2 ^ 20 + a * 2 ^ 15 + f3 * 2 ^ 12 + d * 2 ^ 7 + op

/-- A KV1 word: h ‖ funct3 is `sel` (21 R387). -/
def kvWord (sel : Nat) (pt : Pt) (m b a d : Nat) : Nat :=
  rType (sel / 8 * 64 + pt.code * 8 + m) b a (sel % 8) d 0x0B

def kmWord (f3 f : Nat) (sa : SaMask) (b a : Nat) : Nat := rType (f * 16 + sa.toNat) b a f3 0 0x2B

def kgWord (f3 : Nat) (h : BitVec 4) (gr : Num3) (b a d : Nat) : Nat := rType (h.toNat * 8 + gr.val) b a f3 d 0x5B

/-- An I-type word. -/
def iType (imm a f3 d op : Nat) : Nat := imm * 2 ^ 20 + a * 2 ^ 15 + f3 * 2 ^ 12 + d * 2 ^ 7 + op

def RvOp.funct : RvOp → Nat × Nat
  | .add => (0, 0x00) | .sub => (0, 0x20) | .sll => (1, 0x00) | .slt => (2, 0x00) | .sltu => (3, 0x00)
  | .xor => (4, 0x00) | .srl => (5, 0x00) | .sra => (5, 0x20) | .or => (6, 0x00) | .and => (7, 0x00)

def RvWordOp.funct : RvWordOp → Nat × Nat
  | .addw => (0, 0x00) | .subw => (0, 0x20) | .sllw => (1, 0x00) | .srlw => (5, 0x00) | .sraw => (5, 0x20)

/-- The funct3 and the major opcode of a multiply or divide. -/
def RvMulOp.funct : RvMulOp → Nat × Nat
  | .mul => (0, 0x33) | .mulh => (1, 0x33) | .mulhsu => (2, 0x33) | .mulhu => (3, 0x33) | .div => (4, 0x33)
  | .divu => (5, 0x33) | .rem => (6, 0x33) | .remu => (7, 0x33) | .mulw => (0, 0x3B) | .divw => (4, 0x3B)
  | .divuw => (5, 0x3B) | .remw => (6, 0x3B) | .remuw => (7, 0x3B)

def Instr.portableNat : Instr → Option Nat
  | .kvSetvl pt d a => some (kvWord 0 pt 0 0 a.val d.val)
  | .kvLd pt h d a => some (kvWord 1 pt h.toNat 0 a.val d.val)
  | .kvSt pt h b a => some (kvWord 2 pt h.toNat b.val a.val 0)
  | .kvLds pt h d a b => some (kvWord 3 pt h.toNat b.val a.val d.val)
  | .kvAdd pt r d a b => some (kvWord 4 pt r.val b.val a.val d.val)
  | .kvSub pt r d a b => some (kvWord 5 pt r.val b.val a.val d.val)
  | .kvMul pt r d a b => some (kvWord 6 pt r.val b.val a.val d.val)
  | .kvFma pt r d a b => some (kvWord 7 pt r.val b.val a.val d.val)
  | .kvMin pt d a b => some (kvWord 8 pt 0 b.val a.val d.val)
  | .kvMax pt d a b => some (kvWord 9 pt 0 b.val a.val d.val)
  | .kvCvt pt r s d a => some (kvWord 10 pt r.val s.code a.val d.val)
  | .kvRed pt r d a => some (kvWord 11 pt 0 r.code a.val d.val)
  | .kvCmp pt c d a b => some (kvWord 12 pt c.code b.val a.val d.val)
  | .kvSel pt d a b => some (kvWord 13 pt 0 b.val a.val d.val)
  | .kvBcst pt d a => some (kvWord 14 pt 0 0 a.val d.val)
  | .kvRng pt u d a => some (kvWord 15 pt (if u then 1 else 0) 0 a.val d.val)
  | .kmCfg sa h a => some (kmWord 0 h.toNat sa 0 a.val)
  | .kmLw sa h a => some (kmWord 1 h.toNat sa 0 a.val)
  | .kmLwp sa h a => some (kmWord 2 h.toNat sa 0 a.val)
  | .kmMma sa h a b => some (kmWord 3 h.toNat sa b.val a.val)
  | .kmRd sa f a b => some (kmWord 4 f.code sa b.val a.val)
  | .kmZero sa h => some (kmWord 5 h.toNat sa 0 0)
  | .kgDef g h a => some (kgWord 0 h g 0 a.val 0)
  | .kgLd g h d a b => some (kgWord 1 h g b.val a.val d.val)
  | .kgSt g h d a b => some (kgWord 2 h g b.val a.val d.val)
  | .kgAdv g h => some (kgWord 3 h g 0 0 0)
  | .rvIntegerOp op d a (.reg b) => some (rType op.funct.2 b.val a.val op.funct.1 d.val 0x33)
  | .rvIntegerOp op d a (.imm v) => some (iType (op.funct.2 * 32 + v.toNat) a.val op.funct.1 d.val 0x13)
  | .rvWordOp op d a (.reg b) => some (rType op.funct.2 b.val a.val op.funct.1 d.val 0x3B)
  | .rvWordOp op d a (.imm v) => some (iType (op.funct.2 * 32 + v.toNat) a.val op.funct.1 d.val 0x1B)
  | .rvMuldiv op d a b => some (rType 1 b.val a.val op.funct.1 d.val op.funct.2)
  | .lui d i => some (i.toNat * 2 ^ 12 + d.val * 2 ^ 7 + 0x37)
  | .auipc d i => some (i.toNat * 2 ^ 12 + d.val * 2 ^ 7 + 0x17)
  | .rvBranch c a b o =>
      let n := o.toNat
      some (n / 2 ^ 11 * 2 ^ 31 + n / 16 % 64 * 2 ^ 25 + b.val * 2 ^ 20 + a.val * 2 ^ 15 + c.code * 2 ^ 12
        + n % 16 * 2 ^ 8 + n / 2 ^ 10 % 2 * 2 ^ 7 + 0x63)
  | .jal d o =>
      let n := o.toNat
      some (n / 2 ^ 19 * 2 ^ 31 + n % 1024 * 2 ^ 21 + n / 2 ^ 10 % 2 * 2 ^ 20 + n / 2 ^ 11 % 256 * 2 ^ 12
        + d.val * 2 ^ 7 + 0x6F)
  | .jalr d a o => some (iType o.toNat a.val 0 d.val 0x67)
  | .rvLoad op d a o => some (iType o.toNat a.val op.code d.val 0x03)
  | .rvStore op a b o => some (rType (o.toNat / 32) b.val a.val op.code (o.toNat % 32) 0x23)
  | .rvFence fm p s d a => some (iType (fm.toNat * 256 + p.toNat * 16 + s.toNat) a.val 0 d.val 0x0F)
  | .fenceTso d a => some (iType 0x833 a.val 0 d.val 0x0F)
  | .ecall => some 0x00000073
  | .ebreak => some 0x00100073
  | .csrrs d c => some (iType c.code 0 2 d.val 0x73)
  | .csrrsi d c => some (iType c.code 0 6 d.val 0x73)
  | _ => none

def encodePortable (i : Instr) : Option (BitVec 32) :=
  match i.portableNat with
  | some n => some (BitVec.ofNat 32 n)
  | none => none

/-- The words of an instruction: which unit runs it, and its bits. An event has none. -/
inductive Encoding where
  | native (c : Cluster) (w : Word)
  | engine (w : BitVec 16)
  | portable (w : BitVec 32)
  | none
  deriving DecidableEq, Repr

def encode (i : Instr) : Encoding :=
  match i with
  | .nop f => .native .s (BitVec.ofNat 64 (frameBits f))
  | i => match i.native with
    | some x => .native x.cluster (BitVec.ofNat 64 x.toNat)
    | Option.none => match encodeEngine i with
      | some w => .engine w
      | Option.none => match encodePortable i with
        | some w => .portable w
        | Option.none => .none

end Sys2Proof
end

