-- ==== Sys2Proof/Machine/Table.lean ====
section
/-! DEFINITION. Tables and memories: reading and writing one index, keeping indexes strictly rising, and reading
and writing runs of bytes. -/

namespace Sys2Proof.Machine

/-- The value at an index, where one is listed. -/
def tfind {α : Type} : Tbl α → Nat → Option α
  | [], _ => none
  | (k', v) :: t, k => if k = k' then some v else if k < k' then none else tfind t k

/-- The value at an index; an unlisted index holds `d`. -/
def tget {α : Type} (d : α) (t : Tbl α) (k : Nat) : α := (tfind t k).getD d

/-- List `v` at index `k`, whatever stood there. -/
def tput {α : Type} : Tbl α → Nat → α → Tbl α
  | [], k, v => [(k, v)]
  | (k', v') :: t, k, v =>
    if k = k' then (k, v) :: t
    else if k < k' then (k, v) :: (k', v') :: t
    else (k', v') :: tput t k v

/-- Unlist an index. -/
def tdel {α : Type} : Tbl α → Nat → Tbl α
  | [], _ => []
  | (k', v') :: t, k =>
    if k = k' then t else if k < k' then (k', v') :: t else (k', v') :: tdel t k

/-- Write `v` at `k`: writing the default unlists the index, so that equal contents are equal tables. -/
def tset {α : Type} [DecidableEq α] (d : α) (t : Tbl α) (k : Nat) (v : α) : Tbl α :=
  if v = d then tdel t k else tput t k v

/-- Indexes rise strictly from above `lo`. -/
def risingFrom {α : Type} : Option Nat → Tbl α → Bool
  | _, [] => true
  | none, (k, _) :: t => risingFrom (some k) t
  | some lo, (k, _) :: t => decide (lo < k) && risingFrom (some k) t

/-- The canonical form of a memory: addresses strictly rising, and no entry equal to what an unlisted address
reads as (log entry 4). -/
def Memory.wf (m : Memory) : Bool := risingFrom none m && m.all fun e => e.2 != 0

/-- A byte of a memory; a byte nothing has written reads 0 (log entry 4). -/
def Memory.read (m : Memory) (a : Nat) : Byte := tget (0 : Byte) m a

def Memory.write (m : Memory) (a : Nat) (b : Byte) : Memory := tset (0 : Byte) m a b

/-- `n` bytes from `a` upward. -/
def Memory.readBytes (m : Memory) (a : Nat) : Nat → List Byte
  | 0 => []
  | n + 1 => Memory.read m a :: Memory.readBytes m (a + 1) n

/-- Bytes `l` from `a` upward. -/
def Memory.writeBytes (m : Memory) (a : Nat) : List Byte → Memory
  | [] => m
  | b :: l => Memory.writeBytes (Memory.write m a b) (a + 1) l

/-- Bytes at addresses of their own. -/
def Memory.writeCells (m : Memory) : List (Nat × Byte) → Memory
  | [] => m
  | (a, b) :: l => Memory.writeCells (Memory.write m a b) l

/-- Little-endian bytes as a number (00 R5). -/
def leNat : List Byte → Nat
  | [] => 0
  | b :: l => b.toNat + 256 * leNat l

/-- The low `n` bytes of a number, little-endian. -/
def leBytes : Nat → Nat → List Byte
  | 0, _ => []
  | n + 1, v => BitVec.ofNat 8 v :: leBytes n (v / 256)

/-- 64 bytes as a row: byte i is bits [8i+7:8i] (00 R5). -/
def rowOfBytes (l : List Byte) : Row := BitVec.ofNat 512 (leNat l)

def bytesOfRow (r : Row) : List Byte := leBytes 64 r.toNat

/-- Byte `i` of a row. -/
def rowByte (r : Row) (i : Nat) : Byte := BitVec.ofNat 8 (r.toNat / 2 ^ (8 * i))

/-- The bits of the bytes that `m` selects. -/
def byteMask (m : BitVec 64) : Row :=
  (List.range 64).foldl (fun acc i => if m.getLsbD i then acc ||| BitVec.ofNat 512 (255 * 2 ^ (8 * i)) else acc) 0

/-- `new` where `mask` has a 1, `old` elsewhere. -/
def mergeRow (mask old new : Row) : Row := (new &&& mask) ||| (old &&& ~~~mask)

/-- Element `i` of a row of `b`-bit elements (08 R199). -/
def elemOf (b : Nat) (r : Row) (i : Nat) : Nat := r.toNat / 2 ^ (b * i) % 2 ^ b

/-- A row from its elements, element 0 lowest. -/
def rowOfElems (b : Nat) : List Nat → Nat
  | [] => 0
  | e :: l => e % 2 ^ b + 2 ^ b * rowOfElems b l

/-- The elements of a row. -/
def elemsOf (b : Nat) (r : Row) : List Nat := (List.range (512 / b)).map (elemOf b r)

/-- A signed reading of the low `b` bits. -/
def sgn (b n : Nat) : Int := if n % 2 ^ b < 2 ^ (b - 1) then (n % 2 ^ b : Nat) else (n % 2 ^ b : Nat) - (2 ^ b : Nat)

/-- The two's-complement pattern of an integer in `b` bits. -/
def unsgn (b : Nat) (i : Int) : Nat := (i % (2 ^ b : Nat)).toNat

end Sys2Proof.Machine
end

