-- ==== Sys2Proof/Machine/Numbers.lean ====
section
/-! DEFINITION. Number formats and exact arithmetic (04 R57 to R91): every value is an exact dyadic number, an
infinity or NaN; results are rounded once, at the end. -/

namespace Sys2Proof.Machine

/-- An exact value: (-1)^neg × m × 2^e, an infinity, or NaN (04 R65). -/
inductive Num where
  | fin (neg : Bool) (m : Nat) (e : Int)
  | inf (neg : Bool)
  | nan
  deriving DecidableEq, Repr

/-- The five flags NV DZ OF UF NX in [4:0] (04 R64). -/
abbrev Flags := BitVec 5

def flagNV : Flags := 16
def flagOF : Flags := 4
def flagUF : Flags := 2
def flagNX : Flags := 1

/-- A binary float format: exponent bits, fraction bits, bias (04 R59, R62, R77). -/
structure FloatFmt where
  eb   : Nat
  fb   : Nat
  bias : Nat
  deriving DecidableEq, Repr

def floatFmt : Fmt → Option FloatFmt
  | .fp64 => some ⟨11, 52, 1023⟩
  | .fp32 => some ⟨8, 23, 127⟩
  | .fp16 => some ⟨5, 10, 15⟩
  | .bf16 => some ⟨8, 7, 127⟩
  | .e4m3 | .mxfp8e4m3 => some ⟨4, 3, 7⟩
  | .e5m2 | .mxfp8e5m2 => some ⟨5, 2, 15⟩
  | .e2m1 | .mxfp4 => some ⟨2, 1, 1⟩
  | .acc26 => some ⟨8, 17, 127⟩
  | _ => none

/-- Width and signedness of an integer format (04 R58); an MXINT8 element is an int8. -/
def intFmt : Fmt → Option (Nat × Bool)
  | .int8 | .mxint8 => some (8, true)
  | .uint8 => some (8, false)
  | .int16 => some (16, true)
  | .int32 => some (32, true)
  | .int64 => some (64, true)
  | .int4 => some (4, true)
  | _ => none

/-- The formats without an infinity (04 R62). -/
def noInf (f : Fmt) : Bool := f == .e4m3 || f == .mxfp8e4m3 || f == .e2m1 || f == .mxfp4

/-- The formats without a NaN. -/
def noNan (f : Fmt) : Bool := f == .e2m1 || f == .mxfp4

def isE4m3 (f : Fmt) : Bool := f == .e4m3 || f == .mxfp8e4m3

def numOfInt (i : Int) : Num := .fin (decide (i < 0)) i.natAbs 0

/-- The value of a float pattern. `flush` reads a subnormal as a zero of its sign (04 R61, R77). -/
def floatNum (f : Fmt) (ff : FloatFmt) (flush : Bool) (n : Nat) : Num :=
  let neg := n / 2 ^ (ff.eb + ff.fb) % 2 == 1
  let ex := n / 2 ^ ff.fb % 2 ^ ff.eb
  let fr := n % 2 ^ ff.fb
  if ex == 2 ^ ff.eb - 1 && !noNan f && (!isE4m3 f || fr == 7) then
    if isE4m3 f then .nan else if fr == 0 then .inf neg else .nan
  else if ex == 0 then
    if flush then .fin neg 0 0 else .fin neg fr (1 - (ff.bias : Int) - ff.fb)
  else .fin neg (2 ^ ff.fb + fr) ((ex : Int) - ff.bias - ff.fb)

/-- The value of an element pattern; MX and KC2 elements are read without their scale. -/
def toNum (f : Fmt) (flush : Bool) (n : Nat) : Num :=
  match floatFmt f with
  | some ff => floatNum f ff (flush || f == .acc26) n
  | none => match intFmt f with
    | some (b, true) => numOfInt (sgn b n)
    | some (b, false) => numOfInt (n % 2 ^ b : Nat)
    | none => numOfInt (n : Nat)

/-! ### Rounding (04 R65 to R68) -/

/-- The draw of a stochastic rounding: u = (draw + 0.5) × 2^-24 (04 R89). -/
abbrev Draw := Nat

/-- m × 2^s rounded to an integer; the flag says that it was inexact. The sign decides the directed modes. -/
def roundMag (neg : Bool) (m : Nat) (s : Int) (rm : Rm) (u : Draw) : Nat × Bool :=
  if 0 ≤ s then (m * 2 ^ s.toNat, false)
  else
    let d := 2 ^ (-s).toNat
    let q := m / d
    let r := m % d
    if r = 0 then (q, false)
    else
      let up : Bool := match rm with
        | .rne => decide (d < 2 * r) || (2 * r == d && q % 2 == 1)
        | .rtz => false
        | .rdn => neg
        | .rup => !neg
        | .rna => decide (d ≤ 2 * r)
        | .sto =>
          if neg then !decide ((2 * u + 1) * d < (d - r) * 2 ^ 25) else decide ((2 * u + 1) * d < r * 2 ^ 25)
      (if up then q + 1 else q, true)

def bitLen (m : Nat) : Nat := if m = 0 then 0 else Nat.log2 m + 1

/-- The largest finite pattern, without its sign. -/
def maxFinite (f : Fmt) (ff : FloatFmt) : Nat :=
  if isE4m3 f then 0x7E else if noNan f then 7 else (2 ^ ff.eb - 1) * 2 ^ ff.fb - 1

/-- The value of a pattern without its sign, as a number of units of the smallest subnormal. -/
def patUnits (ff : FloatFmt) (n : Nat) : Nat :=
  let ex := n / 2 ^ ff.fb
  let fr := n % 2 ^ ff.fb
  if ex = 0 then fr else (2 ^ ff.fb + fr) * 2 ^ (ex - 1)

/-- The canonical NaN (04 R63); +0 for a format without one (R69). -/
def canonicalNan : Fmt → Nat
  | .fp64 => 0x7FF8000000000000
  | .fp32 => 0x7FC00000
  | .fp16 => 0x7E00
  | .bf16 => 0x7FC0
  | .e4m3 | .mxfp8e4m3 => 0x7F
  | .e5m2 | .mxfp8e5m2 => 0x7E
  | .acc26 => 0x1FF0000
  | _ => 0

/-- The pattern of q × 2^g, where q has at most `fb` + 1 bits or is 2^(fb + 1). -/
def packFloat (ff : FloatFmt) (q : Nat) (g : Int) : Nat :=
  if q < 2 ^ ff.fb then q
  else if 2 ^ (ff.fb + 1) ≤ q then ((g + 1 + ff.fb + ff.bias).toNat) * 2 ^ ff.fb
  else (g + ff.fb + ff.bias).toNat * 2 ^ ff.fb + (q - 2 ^ ff.fb)

/-- What an overflow delivers, without its sign (04 R66). -/
def overflowPat (f : Fmt) (ff : FloatFmt) (neg : Bool) (rm : Rm) : Nat :=
  let big := maxFinite f ff
  let inf := (2 ^ ff.eb - 1) * 2 ^ ff.fb
  if noInf f then big
  else match rm with
    | .rne | .rna | .sto => inf
    | .rtz => big
    | .rdn => if neg then inf else big
    | .rup => if neg then big else inf

/-- RND of a finite nonzero magnitude m × 2^e into a float format (04 R65 to R68). `noSub` is set for a format or
unit that produces no subnormals. -/
def rndFinite (f : Fmt) (ff : FloatFmt) (noSub : Bool) (neg : Bool) (m : Nat) (e : Int) (rm : Rm) (u : Draw) :
    Nat × Flags :=
  let emin : Int := 1 - (ff.bias : Int)
  let ex : Int := e + bitLen m - 1
  let sign := if neg then 2 ^ (ff.eb + ff.fb) else 0
  let gU := ex - ff.fb
  let (qU, inexU) := roundMag neg m (e - gU) rm u
  let reaches := decide (ex + 1 = emin) && qU == 2 ^ (ff.fb + 1)
  let tiny := decide (ex < emin) && (rm == .sto || !reaches)
  let big := maxFinite f ff
  let tooBig : Bool :=
    if ex < emin then false
    else
      let top := patUnits ff big
      let unit : Int := emin - ff.fb
      if rm == .sto then
        let s := e - unit
        if 0 ≤ s then decide (top < m * 2 ^ s.toNat) else decide (top * 2 ^ (-s).toNat < m)
      else decide (top < qU * 2 ^ (gU - unit).toNat)
  if tooBig then (sign + overflowPat f ff neg rm, flagOF ||| flagNX)
  else if noSub then
    if tiny then (sign, flagUF ||| flagNX)
    else (sign + packFloat ff qU gU, if inexU then flagNX else 0)
  else
    let g := (if ex < emin then emin else ex) - ff.fb
    let (q, inex) := roundMag neg m (e - g) rm u
    (sign + packFloat ff q g,
      (if inex then flagNX else 0) ||| (if inex && tiny then flagUF else 0))

/-- `RND(fmt, x, rm)` into a float format, with the flags it raises. -/
def rndFloat (f : Fmt) (noSub : Bool) (x : Num) (rm : Rm) (u : Draw) : Nat × Flags :=
  match floatFmt f with
  | none => (0, 0)
  | some ff =>
    match x with
    | .nan => (canonicalNan f, if noNan f then flagNV else 0)
    | .inf neg =>
      let sign := if neg then 2 ^ (ff.eb + ff.fb) else 0
      if noInf f then (sign + maxFinite f ff, flagOF) else (sign + (2 ^ ff.eb - 1) * 2 ^ ff.fb, 0)
    | .fin neg m e =>
      if m = 0 then (if neg then 2 ^ (ff.eb + ff.fb) else 0, 0)
      else rndFinite f ff noSub neg m e rm u

/-- The limits of an integer format. -/
def intLimits (b : Nat) (signed : Bool) : Int × Int :=
  if signed then (-(2 ^ (b - 1) : Nat), (2 ^ (b - 1) : Nat) - 1) else (0, (2 ^ b : Nat) - 1)

def clampInt (lo hi i : Int) : Int := if i < lo then lo else if hi < i then hi else i

/-- An exact value rounded to an integer, with the inexact flag. -/
def rndInteger (neg : Bool) (m : Nat) (e : Int) (rm : Rm) (u : Draw) : Int × Bool :=
  let (q, inex) := roundMag neg m e rm u
  (if neg then -(q : Int) else q, inex)

/-- A float value converted to an integer format (04 R69, R70). -/
def rndInt (b : Nat) (signed : Bool) (x : Num) (rm : Rm) (u : Draw) : Nat × Flags :=
  let (lo, hi) := intLimits b signed
  match x with
  | .nan => (0, flagNV)
  | .inf neg => (unsgn b (if neg then lo else hi), flagNV)
  | .fin neg m e =>
    let (i, inex) := rndInteger neg m e rm u
    if i < lo || hi < i then (unsgn b (clampInt lo hi i), flagNV)
    else (unsgn b i, if inex then flagNX else 0)

/-! ### Exact arithmetic (04 R60) -/

/-- The signed integer numerators of two values over one power of two. -/
def alignInt (a : Int) (ea : Int) (b : Int) (eb : Int) : Int × Int × Int :=
  if ea ≤ eb then (a, b * (2 ^ (eb - ea).toNat : Nat), ea) else (a * (2 ^ (ea - eb).toNat : Nat), b, eb)

def signedMag (neg : Bool) (m : Nat) : Int := if neg then -(m : Int) else m

/-- EXACT a + b. A zero sum of two zeros of one sign keeps that sign, as IEEE 754 has it; any other zero sum is +0, or -0
under RDN (DEDUCED, log entry 68). NV for opposite infinities. -/
def addNum (rm : Rm) (a b : Num) : Num × Flags :=
  match a, b with
  | .nan, _ => (.nan, 0)
  | _, .nan => (.nan, 0)
  | .inf s, .inf t => if s == t then (.inf s, 0) else (.nan, flagNV)
  | .inf s, _ => (.inf s, 0)
  | _, .inf t => (.inf t, 0)
  | .fin s m e, .fin t n f =>
    let (x, y, g) := alignInt (signedMag s m) e (signedMag t n) f
    let z := x + y
    if z = 0 then
      (.fin (if m = 0 && n = 0 && s == t then s else rm == .rdn) 0 0, 0)
    else (.fin (decide (z < 0)) z.natAbs g, 0)

def negNum : Num → Num
  | .fin s m e => .fin (!s) m e
  | .inf s => .inf (!s)
  | .nan => .nan

/-- EXACT a × b; NV for 0 × ∞. -/
def mulNum (a b : Num) : Num × Flags :=
  match a, b with
  | .nan, _ => (.nan, 0)
  | _, .nan => (.nan, 0)
  | .inf s, .inf t => (.inf (s != t), 0)
  | .inf s, .fin t n _ => if n = 0 then (.nan, flagNV) else (.inf (s != t), 0)
  | .fin s m _, .inf t => if m = 0 then (.nan, flagNV) else (.inf (s != t), 0)
  | .fin s m e, .fin t n f => (.fin (s != t) (m * n) (e + f), 0)

def isNan : Num → Bool
  | .nan => true
  | _ => false

/-- Compare two values that are not NaN: -0 and +0 are equal. -/
def cmpNum (a b : Num) : Ordering :=
  match a, b with
  | .inf s, .inf t => if s == t then .eq else if s then .lt else .gt
  | .inf s, _ => if s then .lt else .gt
  | _, .inf t => if t then .gt else .lt
  | .fin s m e, .fin t n f =>
    let (x, y, _) := alignInt (signedMag s m) e (signedMag t n) f
    if x < y then .lt else if x = y then .eq else .gt
  | _, _ => .eq

def numSign : Num → Bool
  | .fin s _ _ => s
  | .inf s => s
  | .nan => false

/-- Less in the order of minimum and maximum, with -0 below +0 (04 R60). -/
def lessNum (a b : Num) : Bool :=
  match cmpNum a b with
  | .lt => true
  | .eq => numSign a && !numSign b
  | .gt => false

/-- The smaller or larger of two values; NaN if either is (04 R60). -/
def minNum (a b : Num) : Num := if isNan a || isNan b then .nan else if lessNum b a then b else a
def maxNum (a b : Num) : Num := if isNan a || isNan b then .nan else if lessNum a b then b else a

/-- x × 2^k, exactly. -/
def scaleNum (x : Num) (k : Int) : Num :=
  match x with
  | .fin s m e => .fin s m (e + k)
  | y => y

/-! ### V arithmetic (04 R61): bf16 is flushed on the way in and out -/

def vIn (f : Fmt) (n : Nat) : Num := toNum f (f == .bf16) n

/-- RND in V. -/
def vOut (f : Fmt) (x : Num) (rm : Rm) (u : Draw) : Nat × Flags := rndFloat f (f == .bf16 || f == .acc26) x rm u

def fAdd (f : Fmt) (rm : Rm) (u : Draw) (a b : Nat) : Nat × Flags :=
  let (z, fl) := addNum rm (vIn f a) (vIn f b)
  let (r, g) := vOut f z rm u
  (r, fl ||| g)

def fSub (f : Fmt) (rm : Rm) (u : Draw) (a b : Nat) : Nat × Flags :=
  let (z, fl) := addNum rm (vIn f a) (negNum (vIn f b))
  let (r, g) := vOut f z rm u
  (r, fl ||| g)

def fMul (f : Fmt) (rm : Rm) (u : Draw) (a b : Nat) : Nat × Flags :=
  let (z, fl) := mulNum (vIn f a) (vIn f b)
  let (r, g) := vOut f z rm u
  (r, fl ||| g)

def fMa (f : Fmt) (rm : Rm) (u : Draw) (a b c : Nat) : Nat × Flags :=
  let (p, fl) := mulNum (vIn f a) (vIn f b)
  let (z, fl2) := addNum rm p (vIn f c)
  let (r, g) := vOut f z rm u
  (r, fl ||| fl2 ||| g)

def fMin (f : Fmt) (a b : Nat) : Nat := (vOut f (minNum (vIn f a) (vIn f b)) .rne 0).1
def fMax (f : Fmt) (a b : Nat) : Nat := (vOut f (maxNum (vIn f a) (vIn f b)) .rne 0).1

def signBit (f : Fmt) : Nat :=
  match floatFmt f with
  | some ff => 2 ^ (ff.eb + ff.fb)
  | none => 0

/-- The sign cleared; the canonical NaN for a NaN (08 R209). Subnormals keep their pattern. -/
def fAbs (f : Fmt) (a : Nat) : Nat := if isNan (toNum f false a) then canonicalNan f else a % signBit f

def fNeg (f : Fmt) (a : Nat) : Nat :=
  if isNan (toNum f false a) then canonicalNan f
  else if a / signBit f % 2 = 1 then a % signBit f else a % signBit f + signBit f

/-- A compare of 08 R210, with the NV it raises. -/
def fCmp (f : Fmt) (c : Cond) (a b : Nat) : Bool × Flags :=
  let x := vIn f a
  let y := vIn f b
  if isNan x || isNan y then
    match c with
    | .ne | .un => (true, 0)
    | .eq => (false, 0)
    | _ => (false, flagNV)
  else
    let o := cmpNum x y
    (match c with
      | .eq => o == .eq | .ne => o != .eq | .lt => o == .lt | .le => o != .gt | .gt => o == .gt | .ge => o != .lt
      | .un => false, 0)

/-- An integer compare (08 R208). -/
def iCmp (c : Cond) (a b : Int) : Bool :=
  match c with
  | .eq => decide (a = b) | .ne => decide (a ≠ b) | .lt => decide (a < b) | .le => decide (a ≤ b)
  | .gt => decide (b < a) | .ge => decide (b ≤ a) | .un => false

/-- A conversion of 04 R69. Between int8 and uint8, of one width, it saturates without a flag, as a narrowing one does (DESIGN CHOICE,
log entry 92). -/
def convert (dst src : Fmt) (rm : Rm) (u : Draw) (n : Nat) : Nat × Flags :=
  match intFmt dst, intFmt src with
  | some (b, s), some (b', s') =>
    let i : Int := if s' then sgn b' n else (n % 2 ^ b' : Nat)
    let (lo, hi) := intLimits b s
    (unsgn b (clampInt lo hi i), 0)
  | some (b, s), none => rndInt b s (vIn src n) rm u
  | none, _ => vOut dst (vIn src n) rm u

/-! ### Reductions (04 R78 to R80) -/

/-- The pattern of the identity of a reduction. -/
def redIdent (f : Fmt) : Red → Nat
  | .sum => signBit f
  | .max => (vOut f (.inf true) .rne 0).1
  | .min => (vOut f (.inf false) .rne 0).1
  | .maxabs => 0

def redOp (f : Fmt) (r : Red) (a b : Nat) : Nat × Flags :=
  match r with
  | .sum => fAdd f .rne 0 a b
  | .max => (fMax f a b, 0)
  | .min => (fMin f a b, 0)
  | .maxabs => (fMax f (fAbs f a) (fAbs f b), 0)

/-- One level of the tree: adjacent pairs. -/
def redLevel (f : Fmt) (r : Red) : List Nat → List Nat × Flags
  | a :: b :: l =>
    let (x, fl) := redOp f r a b
    let (rest, g) := redLevel f r l
    (x :: rest, fl ||| g)
  | l => (l, 0)

/-- The tree over `fuel` levels. -/
def redTree (f : Fmt) (r : Red) : Nat → List Nat → Flags → List Nat × Flags
  | 0, l, fl => (l, fl)
  | n + 1, l, fl =>
    if l.length ≤ 1 then (l, fl) else
      let (l', g) := redLevel f r l
      redTree f r n l' (fl ||| g)

/-- VRED over lanes with their active bits. MAXABS delivers |x|; no active lane gives the result of R79. -/
def reduce (f : Fmt) (r : Red) (lanes : List (Nat × Bool)) : Nat × Flags :=
  if lanes.all fun l => !l.2 then
    (match r with | .sum | .maxabs => 0 | r => redIdent f r, 0)
  else
    let leaves := lanes.map fun l => if l.2 then (if r == .maxabs then fAbs f l.1 else l.1) else redIdent f r
    let (l, fl) := redTree f r 7 leaves 0
    (l.headD 0, fl)

/-! ### Scales, KC2 and DEV8 (04 R71 to R76) -/

/-- 2^(E - 127), or NaN for 0xFF. -/
def scaleE8m0 (e : Nat) (x : Num) : Num := if e = 255 then .nan else scaleNum x ((e : Int) - 127)

/-- The value of an MX element without its scale (04 R72). -/
def mxElem (f : Fmt) (n : Nat) : Num :=
  if f == .mxint8 then scaleNum (numOfInt (sgn 8 n)) (-6) else toNum f false n

/-- The value of an MX element under its scale. -/
def mxValue (f : Fmt) (e n : Nat) : Num := scaleE8m0 e (mxElem f n)

def bitAt (n i : Nat) : Nat := n / 2 ^ i % 2

/-- Weight i of a KC2 index under its scale (04 R75). -/
def kc2Value (idx e i : Nat) : Num :=
  let s := if i < 7 then bitAt idx i else
    (List.range 7).foldl (fun acc j => (acc + bitAt idx j) % 2) (bitAt idx 7)
  let m := if bitAt idx (7 + i) = 1 then 3 else 1
  scaleE8m0 e (.fin (s == 1) m (if bitAt idx 15 = 1 then 0 else -1))

/-- SIG of a DEV8 byte (04 R76): ρ = byte / 16. -/
def sigDev8 (n : Nat) : Num :=
  let r := sgn 8 n
  let fl := r.fdiv 16
  let fr := (r - 16 * fl).toNat
  .fin false (16 + fr) (fl - 4)

/-- floor(log2) of a positive magnitude m × 2^e. -/
def floorLog2 (m : Nat) (e : Int) : Int := e + bitLen m - 1

/-- The element format's largest exponent (04 R74). -/
def mxEmax (f : Fmt) : Int :=
  match f with
  | .mxfp8e4m3 => 8
  | .mxfp8e5m2 => 15
  | _ => 2

/-- The largest magnitude of a list of finite values, as (m, e). -/
def amax (l : List Num) : Nat × Int :=
  l.foldl (fun (acc : Nat × Int) x =>
    match x with
    | .fin _ m e => if cmpNum (.fin false acc.1 acc.2) (.fin false m e) == .lt then (m, e) else acc
    | _ => acc) (0, 0)

/-- `QMX` (04 R74): the scale, the element patterns and the flags. `us` are the draws of stochastic rounding. -/
def quantMx (f : Fmt) (xs : List Num) (rm : Rm) (p : Nat) (us : List Draw) : Nat × List Nat × Flags :=
  if xs.any fun x => match x with | .fin _ _ _ => false | _ => true then (255, xs.map fun _ => 0, flagNV)
  else
    let (m, e) := amax xs
    if m = 0 then
      (0, xs.map fun x => if f == .mxint8 then 0 else if numSign x then signBit f else 0, 0)
    else
      let s0 := if f == .mxint8 then floorLog2 m e + 8 - p else floorLog2 m e - mxEmax f
      let ec := clampInt 0 254 (s0 + 127)
      let s := ec - 127
      let lim : Int := (2 ^ (p - 1) : Nat) - 1
      let one (xu : Num × Draw) : Nat × Flags :=
        if f == .mxint8 then
          match scaleNum xu.1 (6 - s) with
          | .fin neg m e =>
            let (i, inex) := rndInteger neg m e rm xu.2
            let c := clampInt (-lim) lim i
            (unsgn 8 c, if inex || c ≠ i then flagNX else 0)
          | _ => (0, flagNV)
        else rndFloat f false (scaleNum xu.1 (-s)) rm xu.2
      let rs := (xs.zip us).map one
      (ec.toNat, rs.map (·.1), rs.foldl (fun acc r => acc ||| r.2) 0)

/-! ### The noise mixer (04 R88 to R91) -/

def add32 (a b : Nat) : Nat := (a + b) % 2 ^ 32
def rotl32 (a k : Nat) : Nat := (a * 2 ^ k) % 2 ^ 32 + a / 2 ^ (32 - k)

/-- One pass of the mixer over (a, b, c, d). -/
def nmxPass (k : Nat → Nat) (i : Nat) (s : Nat × Nat × Nat × Nat) : Nat × Nat × Nat × Nat :=
  let (a, b, c, d) := s
  let a := add32 a b
  let d := rotl32 (d ^^^ a) 11
  let c := add32 c d
  let b := rotl32 (b ^^^ c) 5
  let a := add32 a (k ((i + 1) % 4) ^^^ (0x9E3779B9 * (i + 1) % 2 ^ 32))
  let d := rotl32 (d ^^^ a) 19
  let c := add32 c d
  let b := rotl32 (b ^^^ c) 3
  (a, b, c, d)

/-- `NMX(K, C)` (04 R88). -/
def nmx (key ctr : BitVec 128) : Nat :=
  let k := fun j => key.toNat / 2 ^ (32 * j) % 2 ^ 32
  let w := fun j => ctr.toNat / 2 ^ (32 * j) % 2 ^ 32
  let (a, b, c, d) :=
    (List.range 8).foldl (fun s i => nmxPass k i s) (w 0 ^^^ k 0, w 1 ^^^ k 1, w 2 ^^^ k 2, w 3 ^^^ k 3)
  add32 a (w 0) + 2 ^ 32 * (add32 b (w 1) + 2 ^ 32 * (add32 c (w 2) + 2 ^ 32 * add32 d (w 3)))

def popcount (n : Nat) : Nat → Nat
  | 0 => 0
  | k + 1 => bitAt n k + popcount n k

/-- `EPS(U)` (04 R89): an odd multiple of 2^-19. -/
def eps (u : Nat) : Num :=
  let pc : Int := popcount (u / 2 ^ 64) 64
  let x : Int := (pc - 32) * 2 ^ 17 + (2 * (u % 2 ^ 16 : Nat) + 1 - 2 ^ 16 : Int)
  .fin (decide (x < 0)) x.natAbs (-19)

/-- The draw of `UNI(U)`: U[127:104] (04 R89). -/
def uniDraw (u : Nat) : Draw := u / 2 ^ 104 % 2 ^ 24

/-- UNI(U) as an exact value. -/
def uni (u : Nat) : Num := .fin false (2 * uniDraw u + 1) (-25)

/-- Block j of a slot: counter + j × stride, modulo 2^128 (04 R90, 08 R220). -/
def slotBlock (s : NoiseSlot) (j : Int) : Nat :=
  nmx s.key (s.ctr + BitVec.ofInt 128 (j * s.stride.toNat))

/-- The slot after m sequential draws. -/
def slotAfter (s : NoiseSlot) (m : Nat) : NoiseSlot :=
  { s with ctr := s.ctr + BitVec.ofNat 128 (m * s.stride.toNat) }

/-- A perturbed weight (04 R91): RND(fmtB, μ + SIG(ρ) × EPS(NMX(K, C)), RNE). An infinite mean overflows a format
without infinity as R66 says (10 R230). -/
def perturbed (fb : Fmt) (mu rho : Nat) (u : Nat) : Nat × Flags :=
  let (p, _) := mulNum (sigDev8 rho) (eps u)
  let (z, fl) := addNum .rne (toNum .bf16 false mu) p
  let (r, g) := rndFloat fb false z .rne 0
  (r, fl ||| g ||| (if g &&& flagOF != 0 then flagNX else 0))

/-! ### Plane-major layout (04 R84) -/

/-- The bit of an element that plane q holds: floats from the sign down, integers from bit 0 up. -/
def planeBit (f : Fmt) (q : Nat) : Nat :=
  match f with
  | .int8 | .int4 | .mxint8 => q
  | f => f.bits - 1 - q

/-- A group of 128 elements as planes, plane 0 lowest: plane q is 128 bits. -/
def planesOf (f : Fmt) (els : List Nat) : Nat :=
  (List.range f.bits).foldr (fun q acc =>
    els.foldr (fun e b => bitAt e (planeBit f q) + 2 * b) 0 + 2 ^ 128 * acc) 0

/-- Element i of a plane-major group. -/
def planeElem (f : Fmt) (n i : Nat) : Nat :=
  (List.range f.bits).foldl (fun acc q => acc + bitAt n (128 * q + i) * 2 ^ planeBit f q) 0

end Sys2Proof.Machine
end

