-- ==== Sys2Proof/Machine/Object.lean ====
section
/-! DEFINITION. What the bytes of an Ebilfen object say (21 R392, R393): header, profile notes, section table, portable text
and function table. Bytes past the end of an image read 0, and a table that does not fit in it has no entries. -/

namespace Sys2Proof.Machine

/-- `n` bytes, little-endian, at an offset. -/
def leAt (l : List Byte) (at_ n : Nat) : Nat := leNat ((l.drop at_).take n)

/-- The entries of a table of `count` entries of `size` bytes at an offset. -/
def tableAt (l : List Byte) (at_ size count : Nat) : List (List Byte) :=
  if at_ + size * count ≤ l.length then (List.range count).map fun i => (l.drop (at_ + size * i)).take size else []

end Sys2Proof.Machine

namespace Sys2Proof

open Sys2Proof.Machine (leAt tableAt)

/-! ### The header (21 R392) -/

def Object.magic (o : Object) : Nat := leAt o.image 0 4
def Object.major (o : Object) : Nat := leAt o.image 4 2
def Object.minor (o : Object) : Nat := leAt o.image 6 2
def Object.flags (o : Object) : Nat := leAt o.image 8 8
def Object.exact (o : Object) : Bool := o.flags % 2 == 1
def Object.loose (o : Object) : Bool := o.flags / 2 % 2 == 1
def Object.partSize (o : Object) : Nat := leAt o.image 16 4
def Object.generation (o : Object) : Nat := leAt o.image 20 4
def Object.sectionCount (o : Object) : Nat := leAt o.image 24 4
def Object.noteCount (o : Object) : Nat := leAt o.image 28 4
def Object.sectionsAt (o : Object) : Nat := leAt o.image 32 8
def Object.notesAt (o : Object) : Nat := leAt o.image 40 8

/-- A note of 8 bytes. -/
def Note.ofBytes (l : List Byte) : Note := ⟨leAt l 0 1, leAt l 1 1, leAt l 2 1, leAt l 3 1, leAt l 4 1, leAt l 5 3⟩

def Object.notes (o : Object) : List Note := (tableAt o.image o.notesAt 8 o.noteCount).map Note.ofBytes

/-- A section entry of 24 bytes. -/
def Section.ofBytes (l : List Byte) : Section := ⟨leAt l 0 4, leAt l 4 4, leAt l 8 8, leAt l 16 8⟩

def Object.sections (o : Object) : List Section := (tableAt o.image o.sectionsAt 24 o.sectionCount).map Section.ofBytes

/-- The header's limits: it is whole, the bytes and flags it does not list are 0, and its tables and sections lie in the
object. -/
def Object.headerOk (o : Object) : Bool :=
  decide (64 ≤ o.image.length) && decide (o.flags < 4) && leAt o.image 48 16 == 0 &&
    decide (o.sectionsAt + 24 * o.sectionCount ≤ o.image.length) && decide (o.notesAt + 8 * o.noteCount ≤ o.image.length) &&
    o.sections.all fun e => decide (e.offset + e.size ≤ o.image.length)

/-! ### Sections (21 R393) -/

/-- A type that the device does not know is skipped where the section is optional. -/
def Section.accepted (e : Section) : Bool := (1 ≤ e.type && decide (e.type ≤ 0x11)) || e.flags % 2 == 1

/-- The bytes of the first section of a type. -/
def Object.sectionBytes (o : Object) (type : Nat) : List Byte :=
  match o.sections.find? fun e => e.type == type with
  | some e => (o.image.drop e.offset).take e.size
  | none => []

/-- The portable text. -/
def Object.text (o : Object) : List Byte := o.sectionBytes 1

/-- A function-table entry of 16 bytes and the text it names. -/
def Function.ofBytes (text l : List Byte) : Function :=
  ⟨leAt l 0 4, (text.drop (leAt l 0 4)).take (leAt l 4 4), leAt l 8 2 % 2 == 1⟩

def Object.functions (o : Object) : List Function :=
  let l := o.sectionBytes 2
  (tableAt l 0 16 (l.length / 16)).map (Function.ofBytes o.text)

/-- The function table's limits: whole entries, with 0 where the table lists nothing, whose text lies in the section. -/
def Object.functionsOk (o : Object) : Bool :=
  let l := o.sectionBytes 2
  l.length % 16 == 0 && (tableAt l 0 16 (l.length / 16)).all fun e =>
    decide (leAt e 0 4 + leAt e 4 4 ≤ o.text.length) && decide (leAt e 8 2 < 2) && leAt e 10 6 == 0

/-! ### Images -/

/-- The header of an object whose section table follows it and whose note table follows that. -/
def objectHeader (flags partSize generation sections notes : Nat) : List Byte :=
  Machine.leBytes 4 0x464C4245 ++ Machine.leBytes 4 1 ++ Machine.leBytes 8 flags ++ Machine.leBytes 4 partSize ++
    Machine.leBytes 4 generation ++ Machine.leBytes 4 sections ++ Machine.leBytes 4 notes ++ Machine.leBytes 8 64 ++
    Machine.leBytes 8 (64 + 24 * sections) ++ Machine.leBytes 16 0

/-- An object of portable text alone: one exact function, without notes. -/
def textImage (text : List Byte) : List Byte :=
  let entry (type at_ size : Nat) := Machine.leBytes 8 type ++ Machine.leBytes 8 at_ ++ Machine.leBytes 8 size
  objectHeader 1 0 0 2 0 ++ entry 2 112 16 ++ entry 1 128 text.length ++ Machine.leBytes 4 0 ++ Machine.leBytes 4 text.length ++
    Machine.leBytes 8 0 ++ text

end Sys2Proof
end

