-- ==== Sys2Proof/Config.lean ====
section
/-! DEFINITION. Free values: what the manual leaves open and no proof may know (log entry 1). Each is an
opaque function of the counter `State.free`, which every draw advances, so that two draws need not agree, or of the
things the manual says it is fixed for. -/

namespace Sys2Proof.Config

/-- Nanoseconds of WALL that pass while one tick, one freeze or one handler word goes by, with what a correction of WALL
slews it by meanwhile (R139, R364, R405). -/
opaque wallAdvance : Nat → Nat

/-- Where a clock region's view of WALL stands at a moment: WALL + skew - 1 with skew below 3, so that two regions'
views agree within 2 ns (R139). -/
opaque wallSkew (region wall : Nat) : Nat

/-- The modules that hold members of a pod barrier group (R328): the host knows them, and the launch table does not say. -/
opaque groupModules (group : Nat) : List (BitVec 8)

/-- Which of several groups that could move is the next to move (R25, R405). -/
opaque nextTurn : Nat → Nat

/-- Ticks that a portable instruction of an object, at a partition size and timing, takes beyond its effects in
Chason's own schedule: fixed for the translation key, function and byte offset (R395). -/
opaque portableTicks (o : Object) (size : Nat) (loose : Bool) (fn : Nat) (launch : Bool) (off : Nat) : Nat

/-- Where Chason begins a continuation of a function beside the places that control enters; which of the indexes still free it
gives a continuation; and the index in its stream of a portable instruction's first native word (R395, R397). -/
opaque portableStart (o : Object) (size : Nat) (loose : Bool) (fn : Nat) (launch : Bool) (off : Nat) : Bool
opaque portableBlock (o : Object) (size : Nat) (loose : Bool) (fn : Nat) (launch : Bool) (off : Nat) : Nat
opaque portableIndex (o : Object) (size : Nat) (loose : Bool) (fn : Nat) (launch : Bool) (off : Nat) : Nat

/-- In which order Chason forms the sums of a KV.ADD of an object that is not exact (R396): the two terms that each step
joins, by their places in what is left, and whether a product among them is not rounded first. It is fixed for the key. -/
opaque portableOrder (o : Object) (size : Nat) (loose : Bool) (fn : Nat) (launch : Bool) (off : Nat) : List (Nat × Nat × Bool)

/-- Bytes of a function's translated code in the code heap, fixed for the translation key (R395, R398). -/
opaque codeBytes (o : Object) (size fn : Nat) : Nat

/-- How many functions Chason evicts where the code heap has no room (R398). -/
opaque evictions : Nat → Nat

/-- Words of one line of an instruction cache, and the line that a full cache replaces (R16). -/
opaque cacheLine : Nat
opaque cacheVictim : Nat → Nat

/-- The VA at which the device runtime places an object's portable text (R381). -/
opaque textBase : Nat → Nat

/-- Which TLB entry a full TLB replaces (R174). -/
opaque tlbVictim : Nat → Nat

/-- A value the manual does not state for the operands at hand. -/
opaque freeWord : Nat → Word

/-- Package power over a window of 1 ms, and the temperature of the hottest die, as the management controller measures
them (R365, R369). -/
opaque packagePower : Nat → BitVec 16
opaque dieTemp : Nat → Nat

/-- The failure word of a self-test that does not pass (R372, R373). -/
opaque selfTest : Nat → Option (BitVec 32)

/-- The log2 of BAR4's size, above 30, as the host resizes it (R356). -/
opaque barSize : Nat → Nat

/-- The Yelnar port that the host's fabric plan names for a module (R311). -/
opaque yelnarPort (mod : Nat) : Nat

end Sys2Proof.Config
end

