-- ==== Sys2Proof/Machine/State.lean ====
section
/-! DEFINITION. The state of one module, as plain data: every piece of state the manual names (INVENTORY.md),
the work in flight with its landing ticks, and the model's own bookkeeping (log entries 1 to 3). -/

namespace Sys2Proof.Machine

/-! ### Traps (18 R333 to R340) -/

/-- The trap classes of 18 R337. -/
inductive Cls where
  | illegalEncoding | reservedField | illegalFormat | formatCombination | decisionMiss | divergence
  | trackCollision | scheduleMiss | poisonStore | notPresent | permission | layoutBound | staleHem | hemOverrun
  | earlyRead | engineFault | parameterStack | watchdogPulse | watchdogFreeze | softwareTrap | debugStep
  | doubleTrap | translationPending | memoryError | returnStack | decisionOverlap | gridDefinition
  deriving DecidableEq, Repr

/-- The units of 18 R334 and R336, in the order that decides which condition is recorded. -/
inductive HwUnit where
  | s | a | v | m | e0 | e1 | e2 | halo | hub
  deriving DecidableEq, Repr

/-- A block of words: a continuation, or the body of a loop by its loop id (18 R336). -/
inductive BlockRef where
  | cont (i : Nat)
  | body (l : Nat)
  deriving DecidableEq, Repr

/-- Which word an effect belongs to: what a trap record and the landing order need (15 R295, 18 R336). -/
structure Who where
  core  : Nat
  unit  : HwUnit
  block : BlockRef
  index : Nat
  word  : Word
  issue : Nat
  deriving DecidableEq, Repr

/-! ### Where data lies -/

/-- A byte location an access names (07 R156, R157): a ring byte by bank and row, a ring element whose bytes go on in
another row at `next`, a pocket byte, a virtual address of GLOBAL or HOST, or a pocket byte of another module. -/
inductive Loc where
  | ring (core off : Nat)
  | ringTwo (core off next : Nat)
  | pocket (core off : Nat)
  | global (va : Nat)
  | host (va : Nat)
  | remote (target : BitVec 19) (off : Nat)
  deriving DecidableEq, Repr

/-- Where the bytes of an access lie, by its first byte: a byte of a store, of HBM or host memory by physical address,
of a pocket of another module, or of the portable text of a loaded object (21 R381). -/
inductive Bytes where
  | ring (core off : Nat)
  | pocket (core off : Nat)
  | hbm (pa : Nat)
  | host (pa : Nat)
  | remote (target : BitVec 19) (off : Nat)
  | text (handle : Word) (off : Nat)
  deriving DecidableEq, Repr

/-- A write that another agent has performed since the group's last clock edge, which lands for the group at its next
one (15 R296): its bytes, a 1 for each bit written, and its poison. -/
structure Arrived where
  place : Bytes
  mask  : Nat
  pois  : Bool
  deriving DecidableEq, Repr

/-! ### Core state -/

/-- A queue entry (06 R136): its place is claimed at issue, its value lands later. `sample` is the tick at which
its data is sampled. -/
structure QEntry where
  id     : Nat
  v      : Row
  p      : Bool
  landed : Bool
  sample : Nat
  deriving DecidableEq, Repr

/-- A word on a track (08 R193): where and when it was injected, and by which word. -/
structure TrackWord where
  stop  : Nat
  tick  : Nat
  v     : Row
  p     : Bool
  who   : Who
  deriving DecidableEq, Repr

/-- A cluster's place in its stream (05 R92): `next` is the tick at which the word at `index` issues. -/
structure Cursor where
  block : BlockRef
  index : Nat
  next  : Option Nat
  deriving DecidableEq, Repr

/-- A TLB entry (07 R174): a page of `size` bytes at `va`, with its leaf. -/
structure TlbEntry where
  asid : Nat
  va   : Nat
  size : Nat
  leaf : Word
  deriving DecidableEq, Repr

/-- A weight set (10 R223): the words of 10 R227 in its fmtB, and its poison bit. -/
structure WeightSet where
  fmt   : Fmt
  words : Tbl Row
  p     : Bool
  deriving DecidableEq, Repr

/-- An accumulator row (10 R223): element n is f in [31:0] and a in [57:32], or an int48 sign-extended. -/
structure AccRow where
  el    : Tbl Word
  count : Nat
  pint  : Nat
  flags : BitVec 5
  p     : Bool
  int   : Bool
  deriving DecidableEq, Repr

inductive Power where
  | gated | waking | awake
  deriving DecidableEq, Repr

/-- A configuration of a sub-array (10 R224). -/
structure SaCfg where
  fmtA   : Fmt
  fmtB   : Fmt
  planes : Nat
  acc    : Acc
  pro    : Nat
  deriving DecidableEq, Repr

/-- A running weight load (10 R227 to R230): `noise` holds the key, tensor id and member, base and row length of
an MLWP. -/
structure LoadRun where
  sa    : Nat
  id    : Nat
  fmt   : Fmt
  tkA   : Nat
  tkB   : Nat
  stop  : Nat
  noise : Option (BitVec 128 × BitVec 48 × Word × Word)
  deriving DecidableEq, Repr

/-- A sub-array (10 R223, R229, R235, R236). A port is busy before its tick. `swap` is the swap tick of a load
whose back set is not yet active, with the load. `form` is the form of the rows that are not listed. -/
structure SubArray where
  cfg     : SaCfg
  active  : WeightSet
  back    : WeightSet
  rows    : Tbl AccRow
  power   : Power
  wakeAt  : Nat
  idle    : Nat
  sleepAt : Option Nat
  weightBusy : Nat
  rowBusy    : Nat
  drainBusy  : Nat
  swap    : Option (Nat × LoadRun)
  form    : Bool
  loads   : Nat
  used    : Nat
  deriving DecidableEq, Repr

/-- A command of an engine (12 R253): entry, parameters and chain; `land` is its landing tick and `gate` the tick at which its word
issued, whose earlier stores it releases (15 R301, R304). -/
structure EngCmd where
  entry : Nat
  params : List Word
  chain : Option Nat
  land  : Nat
  gate  : Nat
  deriving DecidableEq, Repr

/-- A result-FIFO entry (12 R251): claimed, then landed; `wait` lists the untimed launches it waits for, once for
each write not yet performed, `prog` is the number of the microprogram that claimed it, and `made` the tick at which RESULT did. -/
structure ResEntry where
  v      : Word
  landed : Bool
  due    : Nat
  wait   : List Nat
  prog   : Nat
  made   : Nat
  deriving DecidableEq, Repr

/-- An engine (12 R247). `rep` is the count of a REPW not yet used up; `busy` the tick from which the datapath is
free; `lastLand` the last landing tick of the timed launches of the running microprogram; `untimed` the numbers of
its untimed launches, once for each write not yet performed; `endAt` the completion tick at which a chained
microprogram starts; `prog` the number of the microprogram that runs or ran last; `gate` that of its command. -/
structure Engine where
  store   : Tbl (BitVec 16)
  cmds    : List EngCmd
  results : List ResEntry
  block   : Tbl Word
  stack   : List Word
  chain   : Option Nat
  last    : Option EngCmd
  pc      : Nat
  running : Bool
  rep     : Option Nat
  busy    : Nat
  lastLand : Nat
  untimed : List Nat
  endAt   : Option Nat
  prog    : Nat
  gate    : Nat
  deriving DecidableEq, Repr

/-- A level of the copy engine's loop nest (12 R257). -/
structure NestLevel where
  count : Nat
  src   : List Int
  dst   : List Int
  deriving DecidableEq, Repr

/-- A grid object (14 R271): stamps that are not listed are invalid. `hem` holds H_b(f, j) at 48b + 8f + j - 1;
`sending` the sends of a face not yet acknowledged, `arrived` at f + 8·step the number of frames of an exchange of another
module that has landed in part. -/
structure Grid where
  defined : Bool
  desc    : BitVec 1024
  rules   : List Rule
  const   : Tbl Word
  step    : BitVec 32
  sigS    : Tbl (BitVec 32)
  sigR    : Tbl (BitVec 32)
  inner   : Tbl (BitVec 32)
  hem     : Tbl (BitVec 32)
  held    : Tbl (BitVec 32)
  sending : Tbl Nat
  arrived : Tbl Nat
  deriving DecidableEq, Repr

/-- A tile that the destination FX folds (16 R327): the arrivals that are not yet next are held; `p` a contribution folded was
poisoned, `lost` one was by lateness. -/
structure FxTile where
  tag  : Nat
  n    : Nat
  op   : CombOp
  rows : Nat
  doff : Nat
  e    : Nat
  acc  : List Row
  held : List (Nat × Nat × List Row)
  p    : Bool
  lost : Bool
  deriving DecidableEq, Repr

/-- A combining contribution on its way (12 R268, 16 R325): the tile and index it is for, its sender with the launch and the
access number of one of this module, and whether it is poisoned, or lost to lateness. -/
structure Contrib where
  core   : Nat
  off    : Nat
  tag    : Nat
  idx    : Nat
  mod    : Nat
  src    : Nat
  launch : Nat
  seq    : Nat
  pois   : Bool
  lost   : Bool
  deriving DecidableEq, Repr

/-- What a posted write to another module belongs to. -/
inductive PostedBy where
  | word
  | engine (e launch : Nat)
  | grid (gr face launch : Nat)
  deriving DecidableEq, Repr

/-- A posted write not yet acknowledged (16 R318, R321): its target, the units it returns to its window, and the tick
at which its word issued. -/
structure Posted where
  target : Nat
  window : Option Nat
  units  : Nat
  by_    : PostedBy
  issue  : Nat
  deriving DecidableEq, Repr

/-- Units that a write inside the module holds of a window until it is performed (16 R318; log entry 9), or that a scatter to
another module (`far`) holds until its elements set out. -/
structure Credit where
  window : Nat
  units  : Nat
  seq    : Nat
  far    : Bool
  deriving DecidableEq, Repr

/-- An access waiting in the load or store queue until its tick (07 R170). -/
structure QueuedAccess where
  tick : Nat
  store : Bool
  deriving DecidableEq, Repr

/-- An MBW that BAR2 does not yet show (15 R303): mailbox, value and landing tick. -/
structure MbwOut where
  mb   : Nat
  v    : Word
  tick : Nat
  deriving DecidableEq, Repr

/-- A term of a sum that Chason may form in another order: a row, or a product not yet rounded (21 R396). -/
inductive KvTerm where
  | row (v : Row)
  | prod (rm : Rm) (a b : Row)
  deriving DecidableEq, Repr

/-- What a pv register holds as a KV.MUL or a chain of KV.ADD left it, for code that may be regrouped. -/
structure KvSum where
  reg   : Nat
  fmt   : Fmt
  rm    : Rm
  terms : List KvTerm
  deriving DecidableEq, Repr

/-- A line of an instruction cache (01 R16): the object and the partition size of its words, their block, and which line of the
block's stream it is. -/
structure CacheLine where
  handle : Word
  size   : Nat
  block  : BlockRef
  line   : Nat
  deriving DecidableEq, Repr

/-- One core. A register file is a table whose unlisted registers hold 0. `handler` and `hcont` are the word and the continuation
of a handler run (18 R339); `mbSeen` holds the mailboxes as BAR2 shows them and `mbOut` the MBW words it does not show yet; `fxDead` the tiles, by tag and offset, that never complete (16 R325). -/
structure Core where
  x       : Tbl PWord
  guards  : BitVec 8
  flags   : BitVec 16
  mb      : Tbl Word
  mbSeen  : Tbl Word
  mbOut   : List MbwOut
  poisonSeen : Bool
  fflags  : Word
  tvec    : Word
  hm      : Bool
  msk     : Bool
  trec    : Tbl Word
  vstat   : Word
  mgate   : Word
  cursors : Tbl Cursor
  handler : Nat
  hcont   : Nat
  c       : Tbl PWord
  st      : Tbl (BitVec 256)
  lt      : Tbl (BitVec 512)
  ns      : Tbl NoiseSlot
  win     : Tbl Word
  winUsed : Tbl Nat
  winInner : List Credit
  queues  : Tbl (List QEntry)
  nextId  : Nat
  lsq     : List QueuedAccess
  lastL   : Nat
  lastS   : Nat
  lastE   : Nat
  afterL  : Nat
  afterS  : Nat
  afterE  : Nat
  qmark   : Nat
  tlb     : List TlbEntry
  icache  : Tbl (List CacheLine)
  v       : Tbl PRow
  k       : Tbl PWord
  tracks  : Tbl (List TrackWord)
  ring    : Memory
  ringP   : Tbl Bool
  pocket  : Memory
  pocketP : Tbl Bool
  sa      : Tbl SubArray
  engines : Tbl Engine
  nest    : Tbl NestLevel
  segs    : Tbl (BitVec 128)
  tds     : Tbl (BitVec 512)
  fxTiles : List FxTile
  fxDead  : List (Nat × Nat)
  grids   : Tbl Grid
  haloFree : Nat
  vl      : Nat
  kvSums  : List KvSum
  instret : Nat
  posted  : List Posted
  deriving DecidableEq, Repr

/-! ### Work in flight -/

/-- An access as its sampling or landing needs it: location, layout facts and bookkeeping. `stream` is the stream
number for trap records; `seq` the access number by which an environment mark names it (log entry 2); `aims` the coordinates of
its elements, one of which the stream's cursor holds while the access faults (07 R175). -/
structure Access where
  loc    : Loc
  stream : Nat
  seq    : Nat
  home   : Bool
  land   : Nat
  aims   : List (BitVec 128)
  erc    : Bool
  deriving DecidableEq, Repr

/-- A change of a noise slot by an A word (07 R191). -/
inductive NoiseWrite where
  | key (k : BitVec 128)
  | ctr (c : BitVec 128) (s : Word)
  | skip (n : BitVec 128)
  deriving DecidableEq, Repr

/-- A running MMA on one sub-array (10 R240). -/
structure MmaRun where
  sa   : Nat
  cfg  : SaCfg
  set  : WeightSet
  tk   : Nat
  stop : Nat
  rows : Nat
  first : Nat
  deriving DecidableEq, Repr

/-- A running drain (10 R234). -/
structure DrainRun where
  sa   : Nat
  fmt  : Fmt
  rm   : Rm
  tk   : Nat
  rows : Nat
  int  : Bool
  flags : BitVec 5
  deriving DecidableEq, Repr

/-- A place of an element: its first byte, and the place of its lowest bit there (04 R58). -/
structure Spot where
  loc : Loc
  sh  : Nat
  deriving DecidableEq, Repr

/-- What one beat writes: elements of `bits` bits at their places, issued at its slot and landing together (12 R259). -/
structure BeatOut where
  spots : List (Option Spot)
  bits  : Nat
  land  : Nat
  seq   : Nat
  slot  : Nat
  deriving DecidableEq, Repr

/-- A beat of a copy, plane or fill launch (12 R258 to R261). `check` is whether the early-read check is still to be
made; `untimed` is the number of an untimed launch, `late` whether the source data is late (07 R167), `gate` that of the command whose
launch it is, and `prog` the number of its microprogram. -/
structure Beat where
  src  : List (Option Spot)
  bits : Nat
  plane : Option Fmt
  outs : List BeatOut
  srcStream : Nat
  dstStream : Nat
  check : Bool
  srcHome : Bool
  dstHome : Bool
  seq : Nat
  untimed : Option Nat
  late : Bool
  gate : Nat
  prog : Nat
  deriving DecidableEq, Repr

/-- A row of a running TRUN (12 R265): where it is read, the elements that lie inside, and when its result lands. -/
structure TrunRow where
  td   : BitVec 512
  fmt  : Fmt
  src  : Option Loc
  mask : Row
  stop : Nat
  tki  : Nat
  tko  : Nat
  land : Nat
  stream : Nat
  gate : Nat
  deriving DecidableEq, Repr

/-- A combining contribution being read (12 R266): operation, tag, contributors and index. -/
structure Contribution where
  op  : CombOp
  tag : Nat
  n   : Nat
  idx : Nat
  deriving DecidableEq, Repr

/-- A running SEND or COMB (12 R266): the rows still to be read, with the elements inside, and whether a row was late. Row q is
read by access `seq` + q and lands by access `seq` + `total` + q. -/
structure FxRun where
  rows   : List (Option Loc × Row)
  total  : Nat
  dest   : Word
  comb   : Option Contribution
  launch : Nat
  stream : Nat
  seq    : Nat
  late   : Bool
  gate   : Nat
  deriving DecidableEq, Repr

/-- Where a grid load lands: a queue entry, or the pv register of KG.LD. -/
inductive RowDest where
  | queue (q id : Nat)
  | reg (d : Nat)
  deriving DecidableEq, Repr

/-- A face exchange on its way (14 R280 to R282): the sender and its face, the receiver and the face it fills, the
bytes not yet written, the pocket rows that are poisoned, whether lateness took one, and the number of an exchange that leaves the
group. -/
structure Exchange where
  src   : Nat
  sface : Nat
  core  : Nat
  gr    : Nat
  face  : Nat
  step  : BitVec 32
  h     : Nat
  cells : List (Nat × Byte)
  pois  : List Nat
  launch : Option Nat
  seq   : Nat
  lost  : Bool
  deriving DecidableEq, Repr

/-- What happens at a tick. Each is one step of the model; the operations that carry them out stand with the
instructions they belong to. -/
inductive Act where
  -- register writes
  | x (r : Nat) (v : PWord)
  | guard (g : Nat) (b : Bool)
  | flag (i : Nat) (b : Bool)
  | mailbox (i : Nat) (v : Word)
  | csr (n : Nat) (v : Word)
  | fflags (v : BitVec 5)
  | c (r : Nat) (v : PWord)
  | cLost (r : Nat)
  | cursor (st : Nat) (v : BitVec 128)
  | st (i : Nat) (v : BitVec 256)
  | lt (i : Nat) (v : BitVec 512)
  | noise (i : Nat) (w : NoiseWrite)
  | v (r : Nat) (val : Row) (mask : Row) (p : Bool)
  | vLost (r : Nat)
  | k (r : Nat) (val : PWord)
  | queue (q id : Nat) (v : Row) (p : Bool)
  -- memory
  | write (a : Access) (v : Row) (mask : Row) (p : Bool)
  | sampleC (a : Access) (d : Nat) (bytes : Nat) (signed : Bool)
  | sampleQ (a : Access) (q id : Nat) (mask : Row)
  | gatherIndex (a : Access) (mask : Option Row) (q id : Nat) (sta : BitVec 256) (lt : BitVec 512) (land : Nat)
  | gatherRow (a : Access) (q id : Nat) (els : List (Option Loc)) (bits : Nat) (p : Bool)
  | scatterIndex (a : Access) (mask : Option Row) (v : Row) (sta : BitVec 256) (lt : BitVec 512) (land : Nat)
  | scatterRow (a : Access) (els : List (Option Loc)) (v : Row) (bits : Nat)
  | atomic (a : Access) (d : Option Nat) (op : Option Aop) (x y : Word) (fmt : Fmt)
  | sampleTable (a : Access) (isLt : Bool) (i : Nat)
  | touch (va : Nat)
  | nget (d ns : Nat) (part : Part)
  | arm (e : Nat)
  | lateWait (seq : Nat)
  | poisonMark
  | fenceWait (pd ld st : Bool) (upto : Nat)
  -- ring
  | inject (tk stop : Nat) (w : Row) (p : Bool)
  | tapV (d tk : Nat)
  | bankTake (tk stop : Nat) (off : Option Nat) (mask : Row)
  -- matrix
  | mcfg (sa : Nat) (cfg : SaCfg)
  | weightTake (r : LoadRun) (j : Nat)
  | mmaTake (r : MmaRun) (row m : Nat) (got : List PRow)
  | mmaPass (r : MmaRun) (row : Nat) (packet : List PRow)
  | clearRows (sa : Nat) (int : Bool)
  | promote (sa : Nat)
  | drainRow (r : DrainRun) (j : Nat)
  | drainFlags (sa rows : Nat) (extra : BitVec 5)
  -- engines
  | beatSample (b : Beat)
  | beatLand (b : Beat) (o : BeatOut) (v : List Word) (p : Bool)
  | tload (td off q nseg first prog seq gate : Nat)
  | tloadDesc (td : Nat) (v : BitVec 512)
  | tloadSegs (first n : Nat) (v : Row)
  | trunRead (r : TrunRow)
  | trunTake (r : TrunRow)
  | fxRow (r : FxRun) (got : List Row) (p : Bool)
  | fxLand (loc : Loc) (seq : Nat) (v : Option Row) (p late : Bool) (launch : Nat)
  | claim (stream target seq : Nat)
  | emit (loc : Loc) (n seq issue : Nat) (f : Packet) (r : Option Posted)
  | epop (e d : Nat)
  -- grids
  | gridRow (gr off row seq : Nat) (got : List PRow)
  | gridDefine (gr : Nat) (rows : List PRow)
  | gridLoad (gr : Nat) (dest : RowDest) (cur : List Int) (tag : BitVec 32) (check : Bool) (land seq : Nat)
  | gridAdvance (gr : Nat) (step : BitVec 32)
  | gridRule (gr face : Nat) (r : Rule) (const : Option Word)
  | gridFill (gr face : Nat) (rule : Rule) (const : Word) (step : BitVec 32) (seq : Nat) (out : List (Loc × Nat))
  | gridFilled (gr face : Nat) (step : BitVec 32) (cells : List (Nat × Byte)) (pois : List Nat) (seq : Nat) (lost : Bool)
  | gridSend (gr face : Nat) (step : BitVec 32) (desc : BitVec 1024) (seq : Nat) (out : List (Loc × Nat)) (land : Nat)
  | gridArrive (e : Exchange)
  | gridStore (a : Access) (cells : List (Nat × Byte))
  -- portable accesses
  | loadX (a : Access) (d bytes : Nat) (signed : Bool)
  | loadV (a : Access) (d : Nat) (els : List (Option Loc)) (bits n : Nat)
  | storeEls (a : Access) (els : List (Option Loc)) (v : Row) (bits : Nat)
  | kmWeights (a : Access) (sa : SaMask) (noise : Bool)
  | kmPass (a : Access) (sa : SaMask) (rows : Nat)
  | storeRows (a : Access) (l : List Row)
  -- events of the opcode table
  | event (i : Instr)
  deriving DecidableEq, Repr

/-- A piece of delayed work: its tick, its place in the order of 15 R295 (100 for a read), and its word. -/
structure Due where
  tick  : Nat
  place : Nat
  who   : Who
  act   : Act
  deriving DecidableEq, Repr

/-- What the resumption action of a condition does when ticks resume (18 R335). `settle` goes on past a condition that the
landings, reads or switches of the tick meet, which are made again: it is not raised a second time. `again old new` performs
work again, as `new`; `swap old new` does so where the tick was taken back, so that `old` is still in flight. `fault` performs an
access again, whose coordinate the cursor of its stream holds until then (07 R175); `aim` is its cursor alone. `undecide` drops the
decision that met the condition. -/
inductive Fix where
  | continue_
  | retry
  | settle (cls : Cls) (who : Who) (status : Word)
  | void (core : Nat) (cl : Cluster)
  | again (old new : Due)
  | swap (old new : Due)
  | fault (d : Due) (core st : Nat) (cur : BitVec 128)
  | aim (core st : Nat) (cur : BitVec 128)
  | undecide (p : Nat)
  | abandon (core e prog : Nat)
  | pulse (p : Nat)
  | killOnly
  deriving DecidableEq, Repr

/-- A stream whose cursor holds the coordinate of a faulting access, `shown`, in place of its own (07 R175, 18 R344). -/
structure Aimed where
  core  : Nat
  st    : Nat
  shown : BitVec 128
  own   : BitVec 128
  deriving DecidableEq, Repr

/-- A trap condition with its freeze tick (18 R334). -/
structure TrapCond where
  tick   : Nat
  cls    : Cls
  who    : Who
  status : Word
  fix    : Fix
  deriving DecidableEq, Repr

/-- Why a partition's ticks stand still, apart from a trap (01 R27). An instruction cache waits for its lines; a hem wait keeps the
status word of the stamp it waits for and the read that met it; an EPOP waits for an entry that is `ready` to land, or that launches
still hold back. -/
inductive Wait where
  | queue (core q : Nat)
  | queueNever
  | epop (core e : Nat) (ready : Bool)
  | epopNever
  | window (core w : Nat)
  | barrier (group : Nat)
  | late (core : Nat) (seq : Nat)
  | icache (lines : List (Nat × Cluster × CacheLine))
  | lsq (core : Nat) (store : Bool)
  | bank
  | wake (core sa : Nat)
  | pll
  | hem (core gr : Nat) (tmo : Nat) (status : Word) (d : Due)
  | fence (core issue : Nat) (pd ld st : Bool)
  deriving DecidableEq, Repr

/-- A decision-class operation (05 R99, R101). -/
inductive DecisionKind where
  | decide (d : Nat)
  | loop (l : Nat)
  | call (target ret : Nat)
  | ret
  | chkp (d : Nat)
  deriving DecidableEq, Repr

/-- A pending decision: when it issued and what each core read. -/
structure Pending where
  kind  : DecisionKind
  issue : Nat
  who   : Who
  votes : List (Nat × PWord)
  deriving DecidableEq, Repr

/-- An active loop (05 R106 to R112). `period` is the period now running, `base` the clock at which period 0 of
this activation would begin; `captured` lists the clusters whose body the loop buffer holds, and
`released` those whose body a trap has made it let go of. -/
structure Level where
  id     : Nat
  entry  : LoopEntry
  count  : Word
  period : Nat
  clock  : Nat
  depth  : Nat
  captured : List Nat
  first  : Nat
  begun  : Bool
  released : List Nat
  deriving DecidableEq, Repr

/-- A trap in force: its record and what resuming does (18 R333 to R341). -/
structure Trap where
  tick  : Nat
  cls   : Cls
  core  : Nat
  trec  : List Word
  localRoute : Bool
  kill  : Bool
  fixes : List Fix
  cursors : List Aimed
  deriving DecidableEq, Repr

/-- A pre-emption (18 R347): `level` is the depth of the loop nest at which it was taken. -/
structure Preempt where
  pa     : Nat
  taken  : Bool
  level  : Nat
  k0     : Nat
  drain  : Bool
  done   : Bool
  deriving DecidableEq, Repr

/-- A return address of the portable thread, or a continuation of native text (05 R114, 21 R384). -/
inductive RetEntry where
  | cont (i : Nat)
  | portable (fn off : Nat) (launch : Bool)
  deriving DecidableEq, Repr

/-- Where a core's portable instruction goes next (21 R380, R384): on, with the ticks its effects take; a branch; a
jump; a call; a return; or a jump to an address, which pushes or does not. -/
inductive Next where
  | on (lat : Nat)
  | branch (taken : Bool) (off : Nat)
  | jump (off : Nat)
  | call (fn : Nat)
  | back
  | indirect (va : Word) (push : Bool)
  deriving DecidableEq, Repr

/-- Where a portable thread stands (21 R379, R384, 22 R400): its function, byte offset, whether this is the launch
copy of the entry function, what each core's instruction asks for, the issue tick of a switch not yet made, and the
tick of the next instruction. -/
structure Thread where
  fn     : Nat
  off    : Nat
  launch : Bool
  votes  : List (Nat × Next)
  issue  : Option Nat
  ready  : Nat
  deriving DecidableEq, Repr

/-- A partition (01 R22). It is known by its launch entry. `frozenAt` is the WALL at which its ticks stopped; `counted` the ns
of the freeze count that are over, and `countFrom` the WALL from which it counts on (19 R370). `settled` lists the conditions of
this tick whose traps are over, and `startAt` is the start point until tick 0 is over (19 R362). -/
structure Part where
  handle : Word
  base   : Nat
  n      : Nat
  loose  : Bool
  tick   : Nat
  run    : Bool
  join   : Option Nat
  decision : Option Pending
  loops  : List Level
  rets   : List RetEntry
  pulse  : Nat
  pulseAt : Nat
  flim   : Nat
  asid   : Nat
  l1pa   : Nat
  troute : Word
  pend   : List Due
  fresh  : List Arrived
  lateWrites : List Due
  seq    : Nat
  conds  : List TrapCond
  settled : List (Cls × Who × Word)
  voids  : List (Nat × Cluster)
  waits  : List Wait
  served : List Wait
  bankUse : List (Nat × Nat)
  landed : Bool
  frozenAt : Option Nat
  counted : Nat
  countFrom : Option Nat
  startAt : Option Nat
  trap   : Option Trap
  stop   : Option Nat
  complete : Bool
  untimed : List Nat
  nextLaunch : Nat
  preempt : Option Preempt
  resumeAt : Option Nat
  stepping : Bool
  thread : Option Thread
  group  : Option Nat
  deriving DecidableEq, Repr

/-! ### Module state -/

/-- A launch entry (19 R359, R360) with the status bits of its control block (18 R343). `start` is the WALL of its start
point, once loading has finished; `restore` the save area it is started from. -/
structure Entry where
  words   : Tbl Word
  state   : BitVec 8
  refusal : BitVec 8
  late    : Bool
  done    : Bool
  quiesced : Bool
  saved   : Bool
  res     : BitVec 2
  cls     : BitVec 8
  trec    : List Word
  loaded  : Bool
  start   : Nat
  restore : Option Nat
  deriving DecidableEq, Repr

/-- A loaded object (21 R392 to R394), with the VA of its portable text (21 R381). -/
structure Loaded where
  obj    : Object
  textVa : Nat
  deriving DecidableEq, Repr

/-- A function in the code heap (21 R398): its object, the partition size it is translated for, the bytes of its code, and the
save areas that hold one of its indexes. -/
structure HeapFn where
  handle : Word
  fn     : Nat
  size   : Nat
  bytes  : Nat
  saves  : List Nat
  deriving DecidableEq, Repr

/-- An arrival at a barrier group (05 R118, 16 R328): the partition, or the module of another, the WALL of its arrival
and the WALL at which this module saw it. -/
structure Arrival where
  part : Option Nat
  mod  : Nat
  base : Nat
  wall : Nat
  seen : Nat
  join : Join
  deriving DecidableEq, Repr

/-- A Yelnar port (16 R320 to R324): of each direction its own key id and the flits under that key, `newIn` and `newOut` the keys that
a frame of kind 8 is still to announce; and the frames that wait for the link to come up. -/
structure Port where
  up      : Bool
  version : Option (Nat × Nat)
  keyIn   : BitVec 32
  keyOut  : BitVec 32
  newIn   : Option (BitVec 32)
  newOut  : Option (BitVec 32)
  count   : Nat
  sent    : Nat
  failures : Nat
  errors  : Nat
  waiting : List Packet
  deriving DecidableEq, Repr

/-- A slot of a combining site (16 R325, R326); `wall` is the WALL of its last arrival. -/
structure SiteSlot where
  wall : Nat
  tag  : Nat
  dcore : Nat
  n    : Nat
  op   : Nat
  rows : Nat
  doff : Nat
  e    : Nat
  acc  : List Row
  deriving DecidableEq, Repr

/-- An invalidate command waiting (07 R176): `since` lists, once it has been broadcast, each partition with the tick before which work
had issued, and `gone` the TLB entries that it has removed. -/
structure InvalidateCmd where
  w0 : Word
  w1 : Word
  w2 : Word
  cookie : Word
  since : Option (List (Nat × Nat))
  gone : List TlbEntry
  deriving DecidableEq, Repr

/-- What the environment does (log entry 2): an access that is late, or a byte with an uncorrectable error (18 R337), by space code, core and address (HBM by PA). -/
inductive Mark where
  | late (p seq : Nat)
  | spoilt (space core a : Nat)
  deriving DecidableEq, Repr

/-- One micro-step of the tick that is being worked, or of what goes on between ticks (log entry 2). -/
inductive Item where
  | landings (g : Nat)
  | control (g : Nat)
  | gather (g : Nat)
  | check (p c : Nat) (cl : Cluster)
  | checkEngine (p c : Nat) (e : EngineId)
  | checkPortable (p c : Nat)
  | resolve (g : Nat)
  | issue (p c : Nat) (cl : Cluster)
  | engine (p c : Nat) (e : EngineId)
  | portable (p c : Nat)
  | portableEnd (p : Nat)
  | handler (p c : Nat)
  | endTick (g : Nat)
  | event (i : Instr)
  deriving DecidableEq, Repr

/-- The module (01 R11 to R30, 19). `stepAt` is the WALL at which a region last changed step, `bar4Log` the log2 of
BAR4's size; `temp` the hottest die's temperature and `coolAt` the WALL since
which power and temperature have left the headroom of R369; `edge` lists the groups whose clock edge has come and whose words
of that tick are still to be worked (log entry 2). `heap` lists the translated functions, the least recently used
first. -/
structure Module where
  cores   : Tbl Core
  parts   : Tbl Part
  hbm     : Memory
  hostMem : Memory
  dieTlb  : Tbl (List TlbEntry)
  wall    : Nat
  tsrc    : BitVec 2
  tport   : BitVec 6
  toff    : Int
  lock    : Bool
  wbase   : Word
  plimit  : BitVec 16
  tjlimit : BitVec 8
  fcap    : BitVec 4
  pnow    : BitVec 16
  temp    : Nat
  coolAt  : Option Nat
  freq    : Tbl (BitVec 10)
  stepAt  : Tbl Nat
  bar4Log : Nat
  ready   : BitVec 2
  hivreq  : BitVec 16
  hivgnt  : BitVec 17
  diagWord : BitVec 32
  diagCount : Tbl Word
  entries : Tbl Entry
  groups  : Tbl Word
  arrivals : Tbl (List Arrival)
  iqWords : Tbl Word
  iq      : List InvalidateCmd
  iqDrop  : Bool
  iqAcks  : List (Word × Bool)
  mismatch : Tbl (BitVec 32)
  objects : List (Word × Loaded)
  nextHandle : Nat
  heap    : List HeapFn
  plan    : Tbl (BitVec 16)
  slots   : Tbl (BitVec 16)
  ports   : Tbl Port
  sites   : List SiteSlot
  contribs : List Contrib
  heldBack : List Packet
  modNum  : Nat
  irqs    : List Nat
  outbox  : List Packet
  readback : List Byte
  agenda  : List Item
  inbox   : List (Nat × Instr)
  marks   : List Mark
  edge    : List Nat
  free    : Nat
  turn    : Nat
  deriving DecidableEq, Repr

/-- The state of the machine: the module, and the module as it stood when the landings of the clock edge in hand began, for a
freeze of that edge holds what would have landed on it (15 R298, 18 R333, R353; log entry 12). -/
structure State extends Module where
  undo    : Option Module
  deriving DecidableEq, Repr

/-- Why a run stops without a next state: it has no constructor, since nothing in this manual stops the module. A trap
freezes a partition, a failed check is a record the host reads, and a module with nothing to do lets WALL pass. -/
inductive Fault where
  deriving DecidableEq, Repr

/-- Why the model gives no meaning. -/
inductive Refusal where
  /-- Raised by `exec` for an instruction whose meaning is not written yet. Safe. -/
  | notModelled (mnemonic : String)
  deriving DecidableEq, Repr

/-- The module right after reset (19 R357 to R371, 06 R138): no partition, no object, self-test running. The
fields the manual gives no reset value are named in log entries 4, 5 and 6. -/
def State.reset : State where
  cores := []
  parts := []
  hbm := []
  hostMem := []
  dieTlb := []
  wall := 0
  tsrc := 0
  tport := 0
  toff := 0
  lock := false
  wbase := 0
  plimit := 15000
  tjlimit := 105
  fcap := 15
  pnow := 0
  temp := 0
  coolAt := none
  freq := []
  stepAt := []
  bar4Log := 36
  ready := 0
  hivreq := 0
  hivgnt := 0
  diagWord := 0x00FF0000
  diagCount := []
  entries := []
  groups := []
  arrivals := []
  iqWords := []
  iq := []
  iqDrop := false
  iqAcks := []
  mismatch := []
  objects := []
  nextHandle := 1
  heap := []
  plan := []
  slots := []
  ports := []
  sites := []
  contribs := []
  heldBack := []
  modNum := 0
  irqs := []
  outbox := []
  readback := []
  agenda := []
  inbox := []
  marks := []
  edge := []
  free := 0
  turn := 0
  undo := none

end Sys2Proof.Machine
end

