-- ==== Sys2Proof/Machine/Ops.lean ====
section
/-! DEFINITION. The named operations over the state: cores and partitions, work in flight, queues, guards, the
words' common issue, taking a trap and returning from one. -/

namespace Sys2Proof.Machine

abbrev Out := Host.Outcome State Fault Refusal

/-! ### Launch values (06 R138, 10 R223, R224, 12 R247, 16 R317) -/

def WeightSet.reset : WeightSet := ⟨.bf16, [], false⟩
def AccRow.reset : AccRow := ⟨[], 0, 0, 0, false, false⟩
def SaCfg.reset : SaCfg := ⟨.bf16, .bf16, 8, .accum, 0⟩

def SubArray.reset : SubArray where
  cfg := SaCfg.reset
  active := WeightSet.reset
  back := WeightSet.reset
  rows := []
  power := .gated
  wakeAt := 0
  idle := 0
  sleepAt := none
  weightBusy := 0
  rowBusy := 0
  drainBusy := 0
  swap := none
  form := false
  loads := 0
  used := 0

def Engine.reset : Engine where
  store := []
  cmds := []
  results := []
  block := []
  stack := []
  chain := none
  last := none
  pc := 0
  running := false
  rep := none
  busy := 0
  lastLand := 0
  untimed := []
  endAt := none
  prog := 0
  gate := 0

def Grid.reset : Grid where
  defined := false
  desc := 0
  rules := []
  const := []
  step := 0
  sigS := []
  sigR := []
  inner := []
  hem := []
  held := []
  sending := []
  arrived := []

/-- win0 without a `.slots win` block: module `m`, cores 0 to 2,047, 256 units (16 R317). -/
def windowZero (m : Nat) : Word := BitVec.ofNat 64 (2 ^ 63 + (m % 256) * 2 ^ 48 + 2047 * 2 ^ 23 + 256)

def Core.reset : Core where
  x := []
  guards := 0
  flags := 0
  mb := []
  mbSeen := []
  mbOut := []
  poisonSeen := false
  fflags := 0
  tvec := 0
  hm := false
  msk := false
  trec := []
  vstat := 0
  mgate := 4096
  cursors := []
  handler := 0
  hcont := 0
  c := []
  st := []
  lt := []
  ns := []
  win := []
  winUsed := []
  winInner := []
  queues := []
  nextId := 0
  lsq := []
  lastL := 0
  lastS := 0
  lastE := 0
  afterL := 0
  afterS := 0
  afterE := 0
  qmark := 0
  tlb := []
  icache := []
  v := []
  k := []
  tracks := []
  ring := []
  ringP := []
  pocket := []
  pocketP := []
  sa := []
  engines := []
  nest := []
  segs := []
  tds := []
  fxTiles := []
  fxDead := []
  grids := []
  haloFree := 0
  vl := 0
  kvSums := []
  instret := 0
  posted := []

/-- A launch entry nothing has written (19 R359). -/
def Entry.reset : Entry where
  words := []
  state := 0
  refusal := 0
  late := false
  done := false
  quiesced := false
  saved := false
  res := 0
  cls := 0
  trec := []
  loaded := false
  start := 0
  restore := none

/-- The partition that a launch entry without a running partition stands for: it has nothing to run. -/
def Part.absent : Part where
  handle := 0
  base := 0
  n := 0
  loose := false
  tick := 0
  run := false
  join := none
  decision := none
  loops := []
  rets := []
  pulse := 0
  pulseAt := 0
  flim := 0
  asid := 0
  l1pa := 0
  troute := 0
  pend := []
  fresh := []
  lateWrites := []
  seq := 0
  conds := []
  settled := []
  voids := []
  waits := []
  served := []
  bankUse := []
  landed := false
  frozenAt := none
  counted := 0
  countFrom := none
  startAt := none
  trap := none
  stop := none
  complete := false
  untimed := []
  nextLaunch := 0
  preempt := none
  resumeAt := none
  stepping := false
  thread := none
  group := none

/-! ### Cores, partitions and entries -/

def State.core (s : State) (c : Nat) : Core := tget Core.reset s.cores c
def State.setCore (s : State) (c : Nat) (k : Core) : State := { s with cores := tput s.cores c k }
def State.modCore (s : State) (c : Nat) (f : Core → Core) : State := s.setCore c (f (s.core c))

def State.part (s : State) (p : Nat) : Part := tget Part.absent s.parts p
def State.setPart (s : State) (p : Nat) (k : Part) : State := { s with parts := tput s.parts p k }
def State.modPart (s : State) (p : Nat) (f : Part → Part) : State := s.setPart p (f (s.part p))

def State.entry (s : State) (e : Nat) : Entry := tget Entry.reset s.entries e
def State.setEntry (s : State) (e : Nat) (k : Entry) : State := { s with entries := tput s.entries e k }
def State.modEntry (s : State) (e : Nat) (f : Entry → Entry) : State := s.setEntry e (f (s.entry e))

/-- The partition's size (01 R22). -/
def Part.size (k : Part) : Nat := 2 ^ k.n
def Part.cores (k : Part) : List Nat := (List.range k.size).map (k.base + ·)
def Part.has (k : Part) (c : Nat) : Bool := decide (k.base ≤ c) && decide (c < k.base + k.size)

/-- The partition that holds a core. -/
def State.partOf (s : State) (c : Nat) : Option Nat := (s.parts.find? fun e => e.2.has c).map (·.1)

/-- The members of the group that moves with partition `g` (01 R24). -/
def State.members (s : State) (g : Nat) : List Nat :=
  match (s.part g).join with
  | none => [g]
  | some j => (s.parts.filter fun e => e.2.join == some j).map (·.1)

def State.sameGroup (s : State) (p q : Nat) : Bool := (s.members p).contains q

/-- The group of partition `p` by its lowest member. -/
def State.groupOf (s : State) (p : Nat) : Nat := (s.members p).headD p

/-- Decision delay (01 R23). -/
def delta (n : Nat) : Nat := if n ≤ 2 then 8 else if n ≤ 4 then 12 else if n ≤ 7 then 20 else 36

/-- Do `f` at every core of a list. -/
def State.modCores (s : State) (l : List Nat) (f : Core → Core) : State := l.foldl (fun s c => s.modCore c f) s

/-- The object of a partition (19 R362). -/
def State.loaded (s : State) (h : Word) : Option Loaded := (s.objects.find? fun e => e.1 == h).map (·.2)
def State.objOf (s : State) (p : Nat) : Option Object := (s.loaded (s.part p).handle).map (·.obj)

/-- Whether a function is in the code heap for a partition size (21 R398). -/
def HeapFn.is (e : HeapFn) (h : Word) (fn size : Nat) : Bool := e.handle == h && e.fn == fn && e.size == size

def State.untranslated (s : State) (p fn : Nat) : Bool :=
  let k := s.part p
  (s.objOf p).isSome && !s.heap.any fun e => e.is k.handle fn k.size

/-- A function is used: it becomes the most recently used of the heap (21 R398). -/
def State.useFn (s : State) (p fn : Nat) : State :=
  let k := s.part p
  let (mine, others) := s.heap.partition fun e => e.is k.handle fn k.size
  { s with heap := others ++ mine }

def listNth {α : Type} : List α → Nat → Option α
  | [], _ => none
  | a :: _, 0 => some a
  | _ :: l, n + 1 => listNth l n

def blockEmpty : Block := ⟨[], [], [], [], none⟩
def loopEmpty : LoopEntry := ⟨1, 1, false, 0, 0, blockEmpty⟩

def lookupId {α : Type} : List (Nat × α) → Nat → Option α
  | [], _ => none
  | (k, v) :: l, n => if k = n then some v else lookupId l n

/-- The block a reference names in an object. -/
def objBlock (o : Object) : BlockRef → Block
  | .cont i => (listNth o.conts i).getD blockEmpty
  | .body l => ((lookupId o.loops l).map (·.body)).getD blockEmpty

def State.block (s : State) (p : Nat) (b : BlockRef) : Block :=
  match s.objOf p with
  | some o => objBlock o b
  | none => blockEmpty

/-- A block with native words. -/
def blockNative (b : Block) : Bool := !(b.s.isEmpty && b.a.isEmpty && b.v.isEmpty && b.m.isEmpty)

/-- The portable function that a continuation stands for at a partition size: where the object holds native text of the K9
for that size, the text runs as written (21 R394). -/
def objStub (o : Object) (size c : Nat) : Option Nat :=
  let b := objBlock o (.cont c)
  if o.partSize == size && o.generation == 9 && blockNative b then none else b.stub

def State.stub (s : State) (p c : Nat) : Option Nat :=
  match s.objOf p with
  | some o => objStub o (s.part p).size c
  | none => none

def blockStream (b : Block) : Cluster → List Word
  | .s => b.s
  | .a => b.a
  | .v => b.v
  | .m => b.m

def clNum : Cluster → Nat
  | .s => 0 | .a => 1 | .v => 2 | .m => 3

def clUnit : Cluster → HwUnit
  | .s => .s | .a => .a | .v => .v | .m => .m

def engNum : EngineId → Nat
  | .ce => 0 | .tie => 1 | .fx => 2

def engUnit : EngineId → HwUnit
  | .ce => .e0 | .tie => .e1 | .fx => .e2

def Cursor.idle : Cursor := ⟨.cont 0, 0, none⟩
def Core.cursor (k : Core) (cl : Cluster) : Cursor := tget Cursor.idle k.cursors (clNum cl)
def Core.setCursor (k : Core) (cl : Cluster) (c : Cursor) : Core := { k with cursors := tput k.cursors (clNum cl) c }

/-- The word at a cluster's cursor. -/
def State.wordAt (s : State) (p : Nat) (cl : Cluster) (cur : Cursor) : Option Word :=
  listNth (blockStream (s.block p cur.block) cl) cur.index

/-- The word of a handler run: it runs the continuation that TVEC named when it began (18 R339). -/
def State.handlerWord (s : State) (p c : Nat) : Option Word :=
  listNth ((s.block p (.cont (s.core c).hcont)).s) (s.core c).handler

/-! ### Registers -/

/-- x0 reads 0 (06 R130). -/
def Core.getX (k : Core) (r : Nat) : PWord := if r = 0 then Pv.zero else tget Pv.zero k.x r
/-- A write to x0 is discarded (06 R130). -/
def Core.setX (k : Core) (r : Nat) (v : PWord) : Core := if r = 0 then k else { k with x := tset Pv.zero k.x r v }
def Core.getC (k : Core) (r : Nat) : PWord := tget Pv.zero k.c r
def Core.setC (k : Core) (r : Nat) (v : PWord) : Core := { k with c := tset Pv.zero k.c r v }
def Core.getV (k : Core) (r : Nat) : PRow := tget Pv.zero k.v r
def Core.setV (k : Core) (r : Nat) (v : PRow) : Core := { k with v := tset Pv.zero k.v r v }
def Core.getK (k : Core) (r : Nat) : PWord := tget Pv.zero k.k r
def Core.setK (k : Core) (r : Nat) (v : PWord) : Core := { k with k := tset Pv.zero k.k r v }
def Core.getSt (k : Core) (r : Nat) : BitVec 256 := tget 0 k.st r
def Core.setSt (k : Core) (r : Nat) (v : BitVec 256) : Core := { k with st := tset 0 k.st r v }
def Core.getLt (k : Core) (r : Nat) : BitVec 512 := tget 0 k.lt r
def Core.setLt (k : Core) (r : Nat) (v : BitVec 512) : Core := { k with lt := tset 0 k.lt r v }
def Core.getMb (k : Core) (r : Nat) : Word := tget 0 k.mb r
def Core.setMb (k : Core) (r : Nat) (v : Word) : Core := { k with mb := tset 0 k.mb r v }
def Core.getNs (k : Core) (r : Nat) : NoiseSlot := tget ⟨0, 0, 0⟩ k.ns r
def Core.setNs (k : Core) (r : Nat) (v : NoiseSlot) : Core := { k with ns := tset ⟨0, 0, 0⟩ k.ns r v }
def Core.getWin (k : Core) (r : Nat) : Word := tget 0 k.win r
def Core.getSa (k : Core) (i : Nat) : SubArray := tget SubArray.reset k.sa i
def Core.setSa (k : Core) (i : Nat) (v : SubArray) : Core := { k with sa := tput k.sa i v }
def Core.modSa (k : Core) (i : Nat) (f : SubArray → SubArray) : Core := k.setSa i (f (k.getSa i))
def Core.getEng (k : Core) (i : Nat) : Engine := tget Engine.reset k.engines i
def Core.setEng (k : Core) (i : Nat) (v : Engine) : Core := { k with engines := tput k.engines i v }
def Core.modEng (k : Core) (i : Nat) (f : Engine → Engine) : Core := k.setEng i (f (k.getEng i))
def Core.getGrid (k : Core) (i : Nat) : Grid := tget Grid.reset k.grids i
def Core.setGrid (k : Core) (i : Nat) (v : Grid) : Core := { k with grids := tput k.grids i v }
def Core.modGrid (k : Core) (i : Nat) (f : Grid → Grid) : Core := k.setGrid i (f (k.getGrid i))

def setBit {n : Nat} (v : BitVec n) (i : Nat) (b : Bool) : BitVec n :=
  if b then v ||| BitVec.ofNat n (2 ^ i) else v &&& ~~~(BitVec.ofNat n (2 ^ i))

/-! ### Guards (06 R132, 05 R111) -/

/-- The innermost active loop is the one at whose boundary a pre-emption was taken (05 R113; log entry 66). -/
def Part.atPreempt (k : Part) : Bool := match k.preempt with | some r => r.taken && r.level == k.loops.length | none => false

/-- Stage guard g(4+j) of the innermost active loop. `first` is the period a restored loop began with (18 R351);
a taken pre-emption holds g4 of its loop false (05 R113). -/
def stageGuard (k : Part) (j : Nat) : Bool :=
  match k.loops with
  | [] => false
  | l :: _ =>
    decide (j < l.entry.stages) && decide (l.first + j ≤ l.period) && decide (l.period < j + l.count.toNat) &&
      !(j == 0 && k.atPreempt)

/-- A guard as landed by now. -/
def State.guard (s : State) (p c g : Nat) : Bool :=
  if g = 0 then true
  else if g < 4 then (s.core c).guards.getLsbD g
  else stageGuard (s.part p) (g - 4)

/-- The guard of a word (05 R93). -/
def State.guardTrue (s : State) (p c : Nat) (f : Frame) : Bool := s.guard p c f.g.val != f.n

/-- The GUARDS image: bit 0 always 1 (06 R138). -/
def State.guardImage (s : State) (p c : Nat) : Nat :=
  (List.range 8).foldl (fun acc g => acc + if s.guard p c g then 2 ^ g else 0) 0

/-! ### Work in flight (15 R294, R295) -/

/-- The place of the samples of a tick: after every landing. -/
def samplePlace : Nat := 100

/-- The place at which fences look: after every landing and before the samples. -/
def fencePlace : Nat := 10

/-- The place of work that waits for what holds it back: on a tick that freezes it is in flight again as the tick is taken back; in a
complete partition it is tried again in wall time. -/
def heldPlace : Nat := 101

/-- The place of a landing by its source (15 R295); what the hub does stands with the arrivals. -/
def unitPlace : HwUnit → Nat
  | .s => 1 | .a => 2 | .v => 3 | .m => 4 | .e0 => 5 | .halo => 6 | .e1 => 7 | .e2 => 8 | .hub => 9

/-- Whether `a` is applied before `b`, which was made before it. Arrivals keep the order in which they were performed. -/
def dueLess (a b : Due) : Bool :=
  if a.tick ≠ b.tick then decide (a.tick < b.tick)
  else if a.place ≠ b.place then decide (a.place < b.place)
  else if a.place = 9 then false
  else if a.who.issue ≠ b.who.issue then decide (a.who.issue < b.who.issue)
  else decide (a.who.core < b.who.core)

/-- Insert after everything that is not later. -/
def insertDue (d : Due) : List Due → List Due
  | [] => [d]
  | e :: l => if dueLess d e then d :: e :: l else e :: insertDue d l

def State.addDue (s : State) (p : Nat) (d : Due) : State := s.modPart p fun k => { k with pend := insertDue d k.pend }

/-- The time edge common to a joined group: how many ticks ago, or ahead, a due's word issued. -/
def dueAge (k : Part) (d : Due) : Int := (k.tick : Int) - d.who.issue

/-! ### The context of a word -/

/-- Where a word issues. In a handler run results land at once (18 R340). -/
structure Ctx where
  p : Nat
  c : Nat
  t : Nat
  who : Who
  handler : Bool
  deriving DecidableEq, Repr

def State.ctx (s : State) (p c : Nat) (cl : Cluster) : Ctx :=
  let cur := (s.core c).cursor cl
  let t := (s.part p).tick
  ⟨p, c, t, ⟨c, clUnit cl, cur.block, cur.index, (s.wordAt p cl cur).getD 0, t⟩, false⟩

def State.handlerCtx (s : State) (p c : Nat) : Ctx :=
  let k := s.core c
  let t := (s.part p).tick
  ⟨p, c, t, ⟨c, .s, .cont k.hcont, k.handler, (s.handlerWord p c).getD 0, t⟩, true⟩

/-- The context of something the hub or a unit does for a partition. -/
def State.hubWho (s : State) (p : Nat) : Who := ⟨(s.part p).base, .hub, .cont 0, 0, 0, (s.part p).tick⟩

/-! ### Register landings -/

/-- CSRW as it lands (06 R153): RO fields keep their value, W1C bits clear (00 R8, 08 R202). -/
def Core.setCsr (k : Core) (n : Nat) (v : Word) : Core :=
  if n = 0x001 then { k with fflags := v &&& 31 }
  else if n = 0x020 then { k with tvec := v &&& 0xFFF }
  else if n = 0x030 then { k with vstat := (v &&& 0xFF0) ||| (k.vstat &&& 5 &&& ~~~v) }
  else if n = 0x040 then { k with mgate := v }
  else k

def Core.raiseFlags (k : Core) (f : Flags) : Core := { k with fflags := k.fflags ||| f.setWidth 64 }

/-- An empty tap (08 R196). Of two on one tick ETK takes the first: samples in the order in which the model performs them, then what V
issues (DESIGN CHOICE, log entry 107). -/
def Core.emptyTap (k : Core) (tk : Nat) : Core :=
  if k.vstat.getLsbD 0 then k
  else { k with vstat := (k.vstat &&& ~~~(0xF0 : Word)) ||| BitVec.ofNat 64 (tk * 16) ||| 1 }

def Core.getQueue (k : Core) (q : Nat) : List QEntry := tget [] k.queues q
def Core.setQueue (k : Core) (q : Nat) (l : List QEntry) : Core := { k with queues := tset [] k.queues q l }

/-- Queue depths (06 R135). -/
def queueDepth (q : Nat) : Nat := if q < 8 then 16 else 8

/-- A noise-slot write as it lands (07 R191). -/
def noiseApply (n : NoiseSlot) : NoiseWrite → NoiseSlot
  | .key k => { n with key := k }
  | .ctr c s => { n with ctr := c, stride := s }
  | .skip a => { n with ctr := n.ctr + a }

/-- A landing in the registers and queues of one core. Other acts leave the core as it is. -/
def Core.land (k : Core) : Act → Core
  | .x r v => k.setX r v
  | .guard g b => { k with guards := setBit k.guards g b }
  | .flag i b => { k with flags := setBit k.flags i b }
  | .mailbox i v => k.setMb i v
  | .csr n v => k.setCsr n v
  | .fflags f => k.raiseFlags f
  | .c r v => k.setC r v
  | .cLost r => k.setC r ⟨(k.getC r).v, true⟩
  | .cursor i v => k.setSt i ((k.getSt i &&& ~~~(BitVec.ofNat 256 (2 ^ 128 - 1))) ||| v.setWidth 256)
  | .st i v => k.setSt i v
  | .lt i v => k.setLt i v
  | .noise i w => k.setNs i (noiseApply (k.getNs i) w)
  | .v r val mask p =>
    let old := k.getV r
    k.setV r ⟨mergeRow mask old.v val, p || (old.p && mask != BitVec.allOnes 512)⟩
  | .vLost r => k.setV r ⟨(k.getV r).v, true⟩
  | .k r v => k.setK r v
  | .queue q id v p =>
    k.setQueue q ((k.getQueue q).map fun e => if e.id = id then { e with v := v, p := p, landed := true } else e)
  | _ => k

/-- An MBW lands at tick `t`; BAR2 shows it once what it releases has been performed (15 R303). -/
def Core.mbwLand (k : Core) (t : Nat) : Act → Core
  | .mailbox i v => { k.setMb i v with mbOut := k.mbOut ++ [⟨i, v, t⟩] }
  | a => k.land a

/-- A mailbox value that BAR2 shows from this moment, over those it was still to show. -/
def Core.showMb (k : Core) (i : Nat) (v : Word) : Core :=
  { k with mbSeen := tset 0 k.mbSeen i v, mbOut := k.mbOut.filter fun e => e.mb != i }

/-- A result of a handler run lands at once; BAR2 shows an MBW from that moment (18 R340). -/
def Core.landNow (k : Core) : Act → Core
  | .mailbox i v => (k.setMb i v).showMb i v
  | a => k.land a

/-- Let a result land at `tick`, or at once in a handler run (18 R340). -/
def State.later (s : State) (x : Ctx) (tick : Nat) (a : Act) : State :=
  if x.handler then s.modCore x.c fun k => k.landNow a
  else s.addDue x.p ⟨tick, unitPlace x.who.unit, x.who, a⟩

/-- A read that samples at `tick`. -/
def State.sampleAt (s : State) (x : Ctx) (tick : Nat) (a : Act) : State := s.addDue x.p ⟨tick, samplePlace, x.who, a⟩

/-! ### Queues (06 R136, R137) -/

/-- Claim a place in a queue: the number of its entry. -/
def State.claim (s : State) (c q sample : Nat) : State × Nat :=
  let k := s.core c
  let id := k.nextId
  (s.setCore c { k.setQueue q (k.getQueue q ++ [⟨id, 0, false, false, sample⟩]) with nextId := id + 1 }, id)

/-- Give a claimed place back (07 R185). -/
def Core.unclaim (k : Core) (q id : Nat) : Core := k.setQueue q ((k.getQueue q).filter fun e => e.id != id)

/-- Take the oldest entry. -/
def State.pop (s : State) (c q : Nat) : State × PRow :=
  match (s.core c).getQueue q with
  | [] => (s, Pv.zero)
  | e :: l => (s.modCore c fun k => k.setQueue q l, ⟨e.v, e.p⟩)

/-! ### Trap conditions and freeze causes of a word -/

/-- What a word would raise at its issue tick: conditions with their TREC3, and freezes. `again` marks a condition
whose word issues anew when ticks resume (18 R335). -/
structure Probe where
  conds : List (Cls × Word × Bool)
  waits : List Wait
  deriving DecidableEq, Repr

def Probe.ok : Probe := ⟨[], []⟩
def Probe.trap (c : Cls) (v : Word) : Probe := ⟨[(c, v, false)], []⟩
def Probe.wait (w : Wait) : Probe := ⟨[], [w]⟩
/-- The first probe that raises something; a trap comes before a freeze. -/
def Probe.andThen (a b : Probe) : Probe :=
  match a.conds with
  | _ :: _ => a
  | [] => ⟨b.conds, a.waits ++ b.waits⟩

/-- `b` is only made once `a` raises nothing, not even a freeze. -/
def Probe.before (a b : Probe) : Probe := if a.conds.isEmpty && a.waits.isEmpty then b else a

/-- A probe that raises `c` when the condition holds. -/
def Probe.when (b : Bool) (p : Probe) : Probe := if b then p else Probe.ok

/-- Whether entry `i` of queue `q` can be popped at `t` (06 R137). -/
def State.popProbe (s : State) (c q t : Nat) (i : Nat := 0) : Probe :=
  match listNth ((s.core c).getQueue q) i with
  | none => .wait .queueNever
  | some e => if e.landed then .ok else if e.sample ≤ t then .wait (.queue c q) else .wait .queueNever

/-- The entry a pop would take. -/
def State.peek (s : State) (c q : Nat) : PRow :=
  match (s.core c).getQueue q with
  | [] => Pv.zero
  | e :: _ => ⟨e.v, e.p⟩

/-! ### Taking a trap (18 R333 to R339) -/

def clsCode : Cls → Nat
  | .illegalEncoding => 0x01 | .reservedField => 0x02 | .illegalFormat => 0x03 | .formatCombination => 0x04
  | .decisionMiss => 0x05 | .divergence => 0x06 | .trackCollision => 0x07 | .scheduleMiss => 0x08
  | .poisonStore => 0x09 | .notPresent => 0x0A | .permission => 0x0B | .layoutBound => 0x0C
  | .staleHem => 0x0D | .hemOverrun => 0x0E | .earlyRead => 0x0F | .engineFault => 0x10
  | .parameterStack => 0x11 | .watchdogPulse => 0x12 | .watchdogFreeze => 0x13 | .softwareTrap => 0x14
  | .debugStep => 0x15 | .doubleTrap => 0x16 | .translationPending => 0x17 | .memoryError => 0x18
  | .returnStack => 0x19 | .decisionOverlap => 0x1A | .gridDefinition => 0x1B

def unitOrder : HwUnit → Nat
  | .s => 0 | .a => 1 | .v => 2 | .m => 3 | .e0 => 4 | .e1 => 5 | .e2 => 6 | .halo => 7 | .hub => 8

/-- The unit and engine fields of TREC0. -/
def unitField : HwUnit → Nat
  | .s => 0 | .a => 1 | .v => 2 | .m => 3 | .e0 => 4 | .e1 => 4 | .e2 => 4 | .halo => 5 | .hub => 6
def engineField : HwUnit → Nat
  | .e1 => 1 | .e2 => 2 | _ => 0

/-- TREC0 (18 R336). -/
def trec0 (h : Bool) (cls : Cls) (w : Who) : Word :=
  BitVec.ofNat 64 ((if h then 2 ^ 24 else 0) + unitField w.unit * 2 ^ 21 + engineField w.unit * 2 ^ 19 +
    w.core % 2048 * 2 ^ 8 + clsCode cls)

/-- TREC2 (18 R336): block 0 for engine words, nothing for the halo engine and the hub. -/
def trec2 (w : Who) : Word :=
  match w.unit with
  | .halo | .hub => 0
  | .e0 | .e1 | .e2 => BitVec.ofNat 64 (w.index % 2 ^ 32)
  | _ => match w.block with
    | .cont i => BitVec.ofNat 64 (i % 2 ^ 16 * 2 ^ 32 + w.index % 2 ^ 32)
    | .body l => BitVec.ofNat 64 (2 ^ 48 + l % 2 ^ 16 * 2 ^ 32 + w.index % 2 ^ 32)

/-- The trap record. -/
def trapRecord (h : Bool) (cls : Cls) (w : Who) (tick : Nat) (status : Word) : List Word :=
  [trec0 h cls w, BitVec.ofNat 64 tick, trec2 w, status]

def Core.setTrec (k : Core) (l : List Word) : Core :=
  { k with trec := tset 0 (tset 0 (tset 0 (tset 0 k.trec 0 (l.getD 0 0)) 1 (l.getD 1 0)) 2 (l.getD 2 0)) 3 (l.getD 3 0) }

/-- The order that decides which of several conditions of one tick is recorded (18 R334); of the translation faults of a
unit the access issued first, whatever its class (07 R175). -/
def condBefore (a b : TrapCond) : Bool :=
  let walk (c : Cls) : Bool := c == .notPresent || c == .permission
  if a.who.core ≠ b.who.core then decide (a.who.core < b.who.core)
  else if a.who.unit ≠ b.who.unit then decide (unitOrder a.who.unit < unitOrder b.who.unit)
  else if walk a.cls && walk b.cls && a.who.issue ≠ b.who.issue then decide (a.who.issue < b.who.issue)
  else if a.cls ≠ b.cls then decide (clsCode a.cls < clsCode b.cls)
  else decide (a.who.issue < b.who.issue)

/-- The stop at the end of a STEP gives way to any trap of its tick (18 R353). -/
def TrapCond.stepEnd (a : TrapCond) : Bool := a.cls == .debugStep && a.status == 0

def firstCond : TrapCond → List TrapCond → TrapCond
  | a, [] => a
  | a, b :: l => firstCond (if a.stepEnd || (!b.stepEnd && condBefore b a) then b else a) l

/-- The classes that are always routed HOST (18 R338). -/
def alwaysHost : Cls → Bool
  | .watchdogPulse | .watchdogFreeze | .doubleTrap => true
  | _ => false

/-- A condition arises, but for one of this tick whose trap is over. -/
def State.addCond (s : State) (p : Nat) (c : TrapCond) : State :=
  s.modPart p fun k => if k.settled.contains (c.cls, c.who, c.status) then k else { k with conds := k.conds ++ [c] }

/-- A destination of the core is marked poisoned: a core of a loose partition notes it (05 R117). -/
def State.markPoison (s : State) (c : Nat) : State :=
  match s.partOf c with
  | some p => if (s.part p).loose then s.modCore c fun k => { k with poisonSeen := true } else s
  | none => s

def State.addWait (s : State) (p : Nat) (w : Wait) : State := s.modPart p fun k => { k with waits := k.waits ++ [w] }

/-- Freeze causes that outlive the tick's own checks: they clear by what happens outside. -/
def Wait.lasting : Wait → Bool
  | .barrier _ | .fence .. | .pll => true
  | _ => false

/-- An interrupt to the host (19 R355). -/
def State.interrupt (s : State) (v : Nat) : State := { s with irqs := s.irqs ++ [v] }

/-- The vector of a launch entry's events (19 R355). -/
def entryVector (e : Nat) : Nat := 1 + e % 63

/-- The partition has drained and is being saved (18 R347). -/
def Part.saving (k : Part) : Bool := match k.preempt with | some r => r.done | none => false

/-- Late data marks its destination and the partition goes on: loose native code. Portable code repeats a late access
instead, so that loose and strict translations give the same values (21 R395; log entry 25). -/
def Part.goesOn (k : Part) : Bool := k.loose && k.thread.isNone

/-- A trap or another cause holds the partition's ticks (01 R27, 18 R333). -/
def Part.still (k : Part) : Bool := k.trap.isSome || !k.waits.isEmpty || k.saving

def Part.freeze (k : Part) (wall : Nat) : Part :=
  { k with frozenAt := some (k.frozenAt.getD wall), countFrom := some (k.countFrom.getD wall) }

/-- The freeze count stops, keeping what it has (19 R370). -/
def Part.stopCount (k : Part) (wall : Nat) : Part :=
  { k with counted := k.counted + match k.countFrom with | some w => wall - w | none => 0, countFrom := none }

/-- The loop buffers let go of their bodies when a trap freezes the partition (05 R112). -/
def Part.release (k : Part) : Part :=
  { k with loops := k.loops.map fun l => { l with captured := [], released := l.released ++ l.captured } }

def Core.getCur (k : Core) (n : Nat) : BitVec 128 := (k.getSt n).setWidth 128
def Core.setCur (k : Core) (n : Nat) (v : BitVec 128) : Core := k.land (.cursor n v)

/-- The stream whose cursor a fault names, with the faulting coordinate. -/
def Fix.aimOf : Fix → Option (Nat × Nat × BitVec 128)
  | .fault _ c st v | .aim c st v => some (c, st, v)
  | _ => none

/-- Point the cursors of faulting streams at the faulting coordinates, the first of each stream (07 R175). -/
def State.aim : State → List (Nat × Nat × BitVec 128) → List Aimed → State × List Aimed
  | s, [], l => (s, l)
  | s, (c, st, v) :: r, l =>
    if l.any fun a => a.core == c && a.st == st then s.aim r l
    else (s.modCore c fun k => k.setCur st v).aim r (l ++ [⟨c, st, v, (s.core c).getCur st⟩])

/-- A stream goes on from its own cursor, unless a handler has given it another. -/
def State.unaim (s : State) (a : Aimed) : State :=
  s.modCore a.core fun k => if k.getCur a.st = a.shown then k.setCur a.st a.own else k

/-- TAKE THE TRAP of condition `c` in partition `p`, with the resumption actions `fixes` of every condition of its
tick (18 R333 to R339): the record goes into every core, LOCAL routing starts a handler run, HOST routing tells
the host, which takes it out of the freeze count (19 R370), the cursors of faulting streams hold the faulting coordinates, that of
`c` before others of its stream, and the whole group stands still. -/
def State.takeTrap (s : State) (p : Nat) (c : TrapCond) (fixes : List Fix) : State :=
  let k := s.part p
  let rec4 := trapRecord false c.cls c.who k.tick c.status
  let loc := k.troute.getLsbD (clsCode c.cls) && !alwaysHost c.cls
  let kill := fixes.contains .killOnly
  let old := match k.trap with | some t => t.cursors | none => []
  let (s, cursors) := s.aim ((c.fix :: fixes).filterMap Fix.aimOf) old
  let s := s.modCores k.cores fun x =>
    let x := x.setTrec rec4
    if loc then { x with hm := true, msk := true, handler := 0, hcont := x.tvec.toNat % 4096 } else x
  let s := (s.members p).foldl (fun s q => s.modPart q fun k =>
    let k := (k.freeze s.wall).release
    let k := if loc then k else k.stopCount s.wall
    { k with conds := [], waits := k.waits.filter Wait.lasting }) s
  let s := s.modPart p fun k =>
    { k with trap := some ⟨k.tick, c.cls, c.who.core, rec4, loc, kill, fixes, cursors⟩, stepping := false }
  let s := s.modEntry p fun e => { e with cls := BitVec.ofNat 8 (clsCode c.cls), trec := rec4 }
  let s := { s with agenda := [] }
  if loc then s else s.interrupt (entryVector p)

/-- The conditions of a group whose freeze tick has come. -/
def State.condsNow (s : State) (g : Nat) : List TrapCond :=
  (s.members g).flatMap fun q => (s.part q).conds.filter fun c => decide (c.tick ≤ (s.part q).tick)

/-- The member of a group that holds a core. -/
def State.memberWith (s : State) (g c : Nat) : Nat := ((s.members g).find? fun q => (s.part q).has c).getD g

/-- Take the trap of the first of some conditions of a group; every one takes its resumption action. -/
def State.trapOf (s : State) (g : Nat) (conds : List TrapCond) (fixes : TrapCond → List Fix) : State :=
  match conds with
  | [] => s
  | c :: l =>
    let f := firstCond c l
    s.takeTrap (s.memberWith g f.who.core) f ((c :: l).flatMap fixes)

/-- A double trap (18 R340): into every core of the partition, HOST, and kill only. The first trap is the one whose record
the core holds. -/
def State.doubleTrap (s : State) (x : Ctx) (second : Cls) : State :=
  let k := s.part x.p
  let first := (tget 0 (s.core x.c).trec 0).toNat % 256
  let status := BitVec.ofNat 64 (first * 256 + clsCode second)
  let rec4 := trapRecord true .doubleTrap x.who k.tick status
  let s := s.modCores k.cores fun c => c.setTrec rec4
  let s := s.modPart x.p fun k =>
    { k with trap := some ⟨k.tick, .doubleTrap, x.c, rec4, false, true, [.killOnly], []⟩ }
  let s := s.modEntry x.p fun e => { e with cls := 0x16, trec := rec4 }
  s.interrupt (entryVector x.p)

/-- A condition that a handler word meets (18 R340): a double trap while MSK = 1, a nested trap after TEN, whose record
goes into its own core and the control block (18 R342, R343). -/
def State.handlerTrap (s : State) (x : Ctx) (cls : Cls) (status : Word) : State :=
  if (s.core x.c).msk then s.doubleTrap x cls
  else
    let rec4 := trapRecord true cls x.who (s.part x.p).tick status
    (s.modCore x.c fun k => { k.setTrec rec4 with msk := true, handler := 0 }).modEntry x.p fun e =>
      { e with cls := BitVec.ofNat 8 (clsCode cls), trec := rec4 }

/-! ### Microprograms begin and are abandoned (12 R248, R249) -/

/-- A microprogram begins: the stack is empty and the nest cleared (12 R248, R257). -/
def Core.begin (k : Core) (e : Nat) (f : Engine → Engine) : Core :=
  let k := k.modEng e fun g =>
    f { g with stack := [], running := true, rep := none, endAt := none, lastLand := 0, untimed := [], prog := g.prog + 1 }
  if e = 0 then { k with nest := [] } else k

/-- The parameter block of a command: parameters it did not supply read 0. -/
def blockOf (l : List Word) : Tbl Word := l.zipIdx.filterMap fun (v, i) => if v = 0 then none else some (i, v)

def Core.startCommand (k : Core) (e : Nat) (c : EngCmd) (l : List EngCmd) : Core :=
  k.begin e fun g => { g with cmds := l, block := blockOf c.params, chain := c.chain, pc := c.entry, gate := c.gate }

def Core.startChain (k : Core) (e i : Nat) : Core := k.begin e fun g => { g with chain := none, pc := i }

/-- The microprogram that an engine begins next: a chained one, or that of its oldest command. -/
def Core.startNext (k : Core) (e : Nat) : Core :=
  let g := k.getEng e
  match g.endAt, g.chain, g.cmds with
  | some _, some i, _ => k.startChain e i
  | _, _, c :: l => k.startCommand e c l
  | _, _, [] => k

/-- Microprogram `prog` is abandoned; where it begins on the frozen tick itself, it begins first. -/
def Core.abandon (k : Core) (e prog : Nat) : Core :=
  let k := if (k.getEng e).prog + 1 = prog then k.startNext e else k
  k.modEng e fun g =>
    if g.prog = prog then { g with running := false, stack := [], chain := none, rep := none, endAt := none } else g

/-- Carry out the resumption action of one condition (18 R335). -/
def State.applyFix (s : State) (p : Nat) : Fix → State
  | .continue_ | .retry | .killOnly | .aim _ _ _ => s
  | .fault d _ _ _ => s.addDue ((s.partOf d.who.core).getD p) d
  | .settle cls who v => s.modPart ((s.partOf who.core).getD p) fun k => { k with settled := k.settled ++ [(cls, who, v)] }
  | .void c cl => s.modPart ((s.partOf c).getD p) fun k => { k with voids := k.voids ++ [(c, cl)] }
  | .again old new =>
    let q := (s.partOf new.who.core).getD p
    (s.modPart q fun k => { k with pend := k.pend.erase old }).addDue q new
  | .swap old new =>
    let q := (s.partOf new.who.core).getD p
    if (s.part q).pend.contains old then (s.modPart q fun k => { k with pend := k.pend.erase old }).addDue q new else s
  | .undecide q => s.modPart q fun k => { k with decision := none }
  | .abandon c e prog => s.modCore c fun k => k.abandon e prog
  | .pulse q => s.modPart q fun k => { k with pulseAt := k.tick }

/-- RETURN FROM A TRAP: when nothing else holds the group, ticks resume at the frozen tick with the resumption
action of every condition (18 R335, R341), and every stream from its own cursor. The freeze count goes on where another cause holds the group (19 R370). -/
def State.resumeTicks (s : State) (p : Nat) : State :=
  match (s.part p).trap with
  | none => s
  | some t =>
    let s := t.fixes.foldl (fun s f => s.applyFix p f) (t.cursors.foldl State.unaim s)
    let s := s.modPart p fun k => { k with trap := none }
    if t.localRoute then s
    else
      let still := (s.members p).any fun q => (s.part q).still
      (s.members p).foldl (fun s q => s.modPart q fun k => { k with countFrom := if still then some s.wall else none }) s

/-- TRET's end of the handler run (06 R152, 18 R341): a kill-only condition lets no ticks resume (18 R335). -/
def State.trapReturn (s : State) (p c : Nat) : State :=
  let s := s.modCore c fun k => { k with hm := false, msk := false }
  if (s.part p).cores.any fun c => (s.core c).hm then s
  else match (s.part p).trap with
    | some t => if t.localRoute && !t.kill then s.resumeTicks p else s
    | none => s

/-! ### The common part of every native word -/

/-- Remove the item being worked. -/
def State.popItem (s : State) : State := { s with agenda := s.agenda.drop 1 }

/-- Remove the item being worked if it is an event. -/
def State.popEvent (s : State) : State :=
  match s.agenda with
  | .event _ :: l => { s with agenda := l }
  | _ => s

/-- Move a cluster past its word: the next word issues at t + 1 + W (05 R92). A stream ends after its last word. -/
def State.advance (s : State) (p c : Nat) (cl : Cluster) (w : Nat) : State :=
  let cur := (s.core c).cursor cl
  let t := (s.part p).tick
  let more := decide (cur.index + 1 < (blockStream (s.block p cur.block) cl).length)
  s.modCore c fun k => k.setCursor cl ⟨cur.block, cur.index + 1, if more then some (t + 1 + w) else none⟩

/-- The words that a handler run refuses (18 R340). -/
def handlerIllegal : Instr → Bool
  | .decide .. | .loop .. | .call .. | .ret .. | .chkp .. | .stop .. | .bar .. | .spawn .. | .pulse ..
  | .qpush .. | .qpop .. => true
  | _ => false

def raiseProbe (x : Ctx) (cl : Cluster) (s : State) (pr : Probe) : State :=
  s.modPart x.p fun k =>
    { k with
      conds := k.conds ++ pr.conds.map fun (c, v, again) =>
        ⟨x.t, c, x.who, v, if again then .retry else .void x.c cl⟩
      waits := k.waits ++ pr.waits }

/-- What a word with a true guard raises: a limit of its entry (05 R93), then what its own checks find. -/
def wordProbe (i : Instr) (x : Ctx) (pr : Probe) : Probe :=
  (Probe.when (!i.entryLimits) (.trap .reservedField x.who.word)).andThen pr

/-- A native word (05 R92, R93, 18 R334): probed, then issued, or run in a handler. `probe` is what it would raise
at its issue tick and `effect` what it does there. -/
def nativeWord (cl : Cluster) (i : Instr) (f : Frame) (probe : Ctx → State → Probe) (effect : Ctx → State → State)
    (s : State) : State :=
  match s.agenda with
  | .check p c _ :: _ =>
    let s := s.popItem
    let x := s.ctx p c cl
    if s.guardTrue p c f then raiseProbe x cl s (wordProbe i x (probe x s)) else s
  | .issue p c _ :: _ =>
    let s := s.popItem
    let x := s.ctx p c cl
    let t := s.advance p c cl f.w.val
    if s.guardTrue p c f && !(s.part p).voids.contains (c, cl) then effect x t else t
  | .handler p c :: _ =>
    let s := s.popItem
    let x := s.handlerCtx p c
    let next := s.modCore c fun k => { k with handler := k.handler + 1 }
    if !s.guardTrue p c f then next
    else if handlerIllegal i then s.handlerTrap x .illegalEncoding x.who.word
    else
      match (wordProbe i x (probe x s)).conds with
      | (cls, v, _) :: _ => s.handlerTrap x cls v
      | [] => effect x next
  | _ => s.popItem

/-! ### Free values -/

/-- The next draw of the counter behind the free values (log entry 1). -/
def State.draw (s : State) : Nat × State := (s.free, { s with free := s.free + 1 })

/-- What the management controller measures at the end of a window of 1 ms: PNOW, the hottest die, and since when both have
left the headroom of R369 (19 R365, R369). -/
def State.measure (s : State) : State :=
  let (n, s) := s.draw
  let p := Config.packagePower n
  let t := Config.dieTemp n
  let cool := decide (100 * p.toNat < 98 * s.plimit.toNat) && decide (t + 5 ≤ s.tjlimit.toNat)
  { s with pnow := p, temp := t, coolAt := if cool then some (s.coolAt.getD s.wall) else none }

/-- WALL goes on to `w`. -/
def State.passWall (s : State) (w : Nat) : State :=
  let t := { s with wall := w }
  if w / 1000000 = s.wall / 1000000 then t else t.measure

/-- A row of free values. -/
def State.drawRow (s : State) : Row × State :=
  (BitVec.ofNat 512 (rowOfElems 64 ((List.range 8).map fun i => (Config.freeWord (s.free + i)).toNat)),
    { s with free := s.free + 8 })

end Sys2Proof.Machine
end

