-- ==== Sys2Proof/Machine/Operands.lean ====
section
/-! DEFINITION. Operand forms: layout entries and stream registers, the locations of elements and rows, cursor
advances, latencies, translation, and the bytes at a location (07 R156 to R175). -/

namespace Sys2Proof.Machine

/-! ### Fields -/

/-- A two's-complement field as an integer. -/
def sfld (o lo w : Nat) : Int := sgn w (fld o lo w)

/-- A layout entry read by fields (07 R158). Dimensions beyond `dims` have extent 1 and stride 0 (R160). -/
structure Lay where
  base : Nat
  space : Nat
  fmt : Option Fmt
  dims : Nat
  pm : Bool
  edge : Bool
  erc : Bool
  home : Bool
  skew : Nat
  peer : Nat
  ext : List Nat
  str : List Int
  scaleoff : Int
  reserved : Bool
  deriving DecidableEq, Repr

def layOf (v : BitVec 512) : Lay :=
  let n := v.toNat
  let dims := fld n 72 2
  { base := fld n 0 52
    space := fld n 64 3
    fmt := Fmt.ofCode? (fld n 67 5)
    dims := dims
    pm := fld n 74 1 == 1
    edge := fld n 75 1 == 1
    erc := fld n 76 1 == 1
    home := fld n 77 1 == 1
    skew := fld n 78 3
    peer := fld n 84 19
    ext := (List.range 4).map fun d => if d ≤ dims then fld n (128 + 32 * d) 32 else 1
    str := (List.range 4).map fun d => if d ≤ dims then sfld n (256 + 32 * d) 32 else 0
    scaleoff := sfld n 384 32
    reserved := fld n 52 12 != 0 || fld n 81 3 != 0 || fld n 103 25 != 0 || fld n 416 96 != 0 }

/-- A stream register read by fields (07 R164). -/
structure Str where
  cur : List Int
  step : List Int
  lt : Nat
  wrap : Nat
  planes : Nat
  sstride : Nat
  reserved : Bool
  deriving DecidableEq, Repr

def strOf (v : BitVec 256) : Str :=
  let n := v.toNat
  { cur := (List.range 4).map fun d => sfld n (32 * d) 32
    step := (List.range 4).map fun d => sfld n (128 + 16 * d) 16
    lt := fld n 192 6
    wrap := fld n 198 2
    planes := fld n 200 4
    sstride := fld n 204 16
    reserved := fld n 220 36 != 0 || fld n 198 2 == 3 }

/-- A layout entry or a stream register as it is read: its reserved bits read 0 (00 R8, 07 R158, R164). -/
def readLt (v : BitVec 512) : BitVec 512 :=
  v &&& ~~~(BitVec.ofNat 512 ((2 ^ 96 - 1) * 2 ^ 416 + (2 ^ 25 - 1) * 2 ^ 103 + 7 * 2 ^ 81 + (2 ^ 12 - 1) * 2 ^ 52))
def readSt (v : BitVec 256) : BitVec 256 := v &&& BitVec.ofNat 256 (2 ^ 220 - 1)

/-- Four coordinates as the low 128 bits of a stream register. -/
def packCursor (l : List Int) : BitVec 128 := BitVec.ofNat 128 (rowOfElems 32 (l.map fun i => unsgn 32 i))

/-! ### Checks of a layout and a stream (07 R159, R164) -/

inductive AccessKind where
  | element | row | other
  deriving DecidableEq, Repr

/-- The reserved-field conditions of R159 and R164, and of R156 for HOST. -/
def layReserved (st : Str) (l : Lay) (kind : AccessKind) : Bool :=
  st.reserved || l.reserved || decide (4 < l.space) || (l.skew != 0 && l.space != 0) || (l.home && l.space != 2) ||
    (l.pm && !(match l.fmt with | some f => f.isPlane | none => true)) ||
    (match kind with
      | .element => l.pm || l.space == 4
      | .row => (!l.pm && l.str.headD 0 != 1) || l.space == 4
      | .other => false)

/-- A stream and its layout checked for an A or V word. `accept` says which formats the word takes; `space` which
spaces. -/
def layProbe (w : Word) (st : Str) (l : Lay) (kind : AccessKind) (space : Bool) (accept : Fmt → Bool) : Probe :=
  if layReserved st l kind || !space then .trap .reservedField w
  else match l.fmt with
    | none => .trap .illegalFormat w
    | some f => .when (!accept f) (.trap .illegalFormat w)

/-- The stream and the layout of stream register `n`. -/
def Core.stream (k : Core) (n : Nat) : Str × Lay :=
  let st := strOf (k.getSt n)
  (st, layOf (k.getLt st.lt))

/-! ### Elements and rows (07 R160 to R162) -/

def addCoord (cur : List Int) (i : Int) : List Int :=
  match cur with
  | [] => []
  | c :: l => sgn 32 (unsgn 32 (c + i)) :: l

/-- The element offset, exactly. -/
def elemOffset (l : Lay) (cur : List Int) : Int := (List.zipWith (· * ·) cur l.str).foldl (· + ·) 0

/-- The first dimension whose coordinate lies outside its extent. -/
def outsideDim : Nat → List Int → List Nat → Option Nat
  | d, c :: cs, e :: es => if 0 ≤ c && c < (e : Int) then outsideDim (d + 1) cs es else some d
  | _, _, _ => none

def Lay.outside (l : Lay) (cur : List Int) : Option Nat := outsideDim 0 cur l.ext

def Lay.format (l : Lay) : Fmt := l.fmt.getD .int8

/-- The first byte of element or plane-major row `o`. -/
def Lay.byteOf (l : Lay) (o : Int) : Int :=
  if l.pm then l.base + 64 * o
  else if l.format == .kc2 then l.base + 2 * o.fdiv 8
  else if l.format.bits = 4 then l.base + o.fdiv 2
  else l.base + o * (l.format.bits / 8 : Nat)

/-- Where the scale of the block of element `o` lies. -/
def Lay.scaleByte (l : Lay) (sstride : Nat) (o : Int) : Int :=
  l.base + l.scaleoff + o.fdiv 32 * (if sstride = 0 then 1 else sstride : Nat)

/-- The addressable range of a space (07 R156). -/
def spaceTop (space : Nat) : Nat :=
  match space with
  | 0 => 4194304
  | 1 | 3 => 327680
  | _ => 2 ^ 52

/-- TREC3 of the layout-bound trap (07 R404). -/
def boundEdge (d : Nat) (c : Int) : Word := BitVec.ofNat 64 (d * 2 ^ 62 + unsgn 32 c)
def boundPlace (cause stream space : Nat) (b : Int) : Word :=
  BitVec.ofNat 64 (stream % 16 * 2 ^ 60 + cause * 2 ^ 56 + space % 8 * 2 ^ 52 + unsgn 52 b)
def boundOffset (v : Word) : Word := BitVec.ofNat 64 (3 * 2 ^ 56 + v.toNat % 2 ^ 52)

/-- A row of the ring store by its bank and row (07 R157): 64 × (8 × row + bank). -/
def ringRow (l : Lay) (row : Nat) (c1 : Int) : Nat :=
  64 * (8 * (row / 8) + (((row : Int) + (l.skew : Int) * c1) % 8).toNat)

/-- The location of `n` bytes, at most 64, of the layout's space, for an access whose coordinate 1 is `c1` (07 R157). -/
def State.locOf (s : State) (core : Nat) (l : Lay) (b : Nat) (c1 : Int) (n : Nat) : Loc :=
  match l.space with
  | 0 =>
    let off := ringRow l (b / 64) c1 + b % 64
    if b % 64 + n ≤ 64 || l.skew = 0 then .ring core off else .ringTwo core off (ringRow l (b / 64 + 1) c1)
  | 1 => .pocket core b
  | 2 => .global b
  | 3 =>
    if l.peer / 2048 = s.modNum then .pocket (l.peer % 2048) b else .remote (BitVec.ofNat 19 l.peer) b
  | _ => .host b

/-- The bank of a ring location. -/
def ringBank (off : Nat) : Nat := off / 64 % 8

def inRange (l : Lay) (b : Int) (n : Nat) : Bool := decide (0 ≤ b) && decide (b + n ≤ spaceTop l.space)

/-- An element of an access: outside (with the dimension), outside its space's range, or at a location. -/
inductive Elem where
  | drop (dim : Nat)
  | range (b : Int)
  | at (l : Loc)
  deriving DecidableEq, Repr

/-- The bytes an element occupies. -/
def elemBytes (l : Lay) : Nat := if l.pm then 64 else if l.format == .kc2 then 2 else (l.format.bits + 7) / 8

def State.element (s : State) (core : Nat) (l : Lay) (cur : List Int) : Elem :=
  match l.outside cur with
  | some d => .drop d
  | none =>
    let b := l.byteOf (elemOffset l cur)
    if inRange l b (elemBytes l) then .at (s.locOf core l b.toNat (cur.getD 1 0) (elemBytes l)) else .range b

/-- What an element raises at issue. -/
def elemProbe (l : Lay) (stream : Nat) (cur : List Int) : Elem → Probe
  | .drop d => .when l.edge (.trap .layoutBound (boundEdge d (cur.getD d 0)))
  | .range b => .trap .layoutBound (boundPlace 1 stream l.space b)
  | .at _ => .ok

/-- Elements of one row: 128 of a 4-bit format, 256 weights of KC2, one row of a plane-major layout (07 R162, R165). -/
def rowElems (l : Lay) : Nat := if l.pm then 1 else if l.format == .kc2 then 256 else 512 / l.format.bits

/-- The bits of the row that stand for element `i`. A KC2 index, which holds eight weights, goes by its first weight (DESIGN CHOICE, log
entry 106). -/
def rowElemMask (l : Lay) (i : Nat) : Nat :=
  if l.pm then 2 ^ 512 - 1
  else if l.format == .kc2 then (if i % 8 = 0 then 65535 * 2 ^ (2 * i) else 0)
  else (2 ^ l.format.bits - 1) * 2 ^ (l.format.bits * i)

/-- A row access (07 R161, R162): its location where any element lies inside, the bits of the elements inside, the row's
own place where it lies in the space, and its bank of the ring store. -/
structure RowAccess where
  loc : Option Loc
  mask : Row
  probe : Probe
  own : Option Loc
  bank : Nat
  deriving DecidableEq, Repr

/-- The row access at a cursor. A row of a packed format that begins inside a byte, or of KC2 inside a block, has no first
byte of its own and is misaligned, cause 2 (DEDUCED, log entry 86). -/
def State.rowAt (s : State) (core : Nat) (l : Lay) (stream : Nat) (cur : List Int) : RowAccess :=
  let b := l.byteOf (elemOffset l cur)
  let outs := (List.range (rowElems l)).map fun (i : Nat) => (i, l.outside (addCoord cur (i : Int)))
  let inside := outs.filter fun e => e.2.isNone
  let mask := BitVec.ofNat 512 (inside.foldl (fun acc e => acc ||| rowElemMask l e.1) 0)
  let sub := if l.format == .kc2 then 8 else if l.format.bits = 4 then 2 else 1
  let c1 := cur.getD 1 0
  let own := if inRange l b 64 then some (s.locOf core l b.toNat c1 64) else none
  let answer (loc : Option Loc) (p : Probe) : RowAccess := ⟨loc, mask, p, own, ((b.fdiv 64 + (l.skew : Int) * c1) % 8).toNat⟩
  if b % 64 ≠ 0 || (!l.pm && elemOffset l cur % sub ≠ 0) then
    answer none (.trap .layoutBound (boundPlace 2 stream l.space b))
  else
    match outs.find? fun e => e.2.isSome with
    | some (i, some d) =>
      if l.edge then answer none (.trap .layoutBound (boundEdge d ((addCoord cur i).getD d 0)))
      else if inside.isEmpty then answer none .ok
      else if own.isSome then answer own .ok
      else answer none (.trap .layoutBound (boundPlace 1 stream l.space b))
    | _ => if own.isSome then answer own .ok else answer none (.trap .layoutBound (boundPlace 1 stream l.space b))

/-! ### Cursor advances (07 R165) -/

/-- NEST: a coordinate that passes its extent returns to 0 and carries into the next; one below 0 borrows. -/
def nestWrap : Int → List Int → List Nat → List Int
  | k, c :: cs, e :: es =>
    let c := sgn 32 (unsgn 32 (c + k))
    if (e : Int) ≤ c then 0 :: nestWrap 1 cs es
    else if c < 0 then ((e : Int) - 1) :: nestWrap (-1) cs es
    else c :: nestWrap 0 cs es
  | _, cs, _ => cs

def advanceBy (st : Str) (l : Lay) (a : List Int) : List Int :=
  let c := List.zipWith (fun x y => sgn 32 (unsgn 32 (x + y))) st.cur a
  match st.wrap with
  | 0 => nestWrap 0 c l.ext
  | 1 => List.zipWith (fun (x : Int) (e : Nat) => if e = 0 then 0 else x % (e : Int)) c l.ext
  | _ => c

/-- The cursor after an access (07 R165). `n` is one access in elements. -/
def cursorAfter (st : Str) (l : Lay) (adv : Adv) (n : Nat) : Option (BitVec 128) :=
  match adv with
  | .a0 => none
  | .a1 => some (packCursor (advanceBy st l [n, 0, 0, 0]))
  | .as => some (packCursor (advanceBy st l st.step))

/-! ### Latencies (07 R166, R168) -/

/-- The relation of two cores of the module. -/
def peerLatency (loose : Bool) (a b : Nat) : Nat :=
  if a = b then (if loose then 10 else 14)
  else if a / 4 = b / 4 then (if loose then 24 else 40)
  else if a / 128 = b / 128 then (if loose then 48 else 96)
  else (if loose then 120 else 220)

def ownPocket (loose : Bool) : Nat := if loose then 10 else 14
def homeLatency (loose : Bool) : Nat := if loose then 420 else 1200
def farLatency (loose : Bool) : Nat := if loose then 520 else 1400

/-- The latency of a layout's path from a core (07 R166). A write to another module, which the table does not time, leaves
this module as one to the core of the same number in it would land (DESIGN CHOICE, log entry 84). -/
def pathLatency (loose : Bool) (core : Nat) (l : Lay) : Nat :=
  match l.space with
  | 0 => 8
  | 1 => ownPocket loose
  | 3 => peerLatency loose core (l.peer % 2048)
  | _ => if l.home then homeLatency loose else farLatency loose

/-- The fence time F of a scope (07 R188). -/
def fenceTime (loose : Bool) : Scope → Nat
  | .cl | .co => 0
  | .qd => if loose then 24 else 40
  | .di => if loose then 48 else 96
  | .pk | .pd => if loose then 120 else 220

/-! ### Translation (07 R171 to R175) -/

/-- What translates: an A word's read, write or atomic, or a beat of the copy engine. -/
inductive XKind where
  | read | write | atomic | beatRead | beatWrite
  deriving DecidableEq, Repr

def XKind.ofEngine : XKind → Bool
  | .beatRead | .beatWrite => true
  | _ => false

/-- A physical address in HBM or host memory. -/
inductive Phys where
  | hbm (pa : Nat)
  | host (pa : Nat)
  deriving DecidableEq, Repr

inductive Xlat where
  | ok (p : Phys)
  | fault (c : Cls)
  deriving DecidableEq, Repr

/-- The HBM address map (07 R173). -/
def hbmMapped (pa : Nat) : Bool := decide (pa < 2 ^ 40) && decide (pa % 2 ^ 36 < 48 * 2 ^ 30)

def readWord (m : Memory) (a : Nat) : Nat := leNat (Memory.readBytes m a 8)

def pteV (e : Nat) : Bool := bitAt e 0 == 1
def pteT (e : Nat) : Bool := bitAt e 1 == 1
def pteC (e : Nat) : Bool := bitAt e 5 == 1
def pteAddr (e : Nat) : Nat := fld e 15 37 * 2 ^ 15
def pteReserved (e : Nat) : Bool := fld e 52 12 != 0 || fld e 8 7 != 0

/-- The page size of a run of 32 entries, where it is one (07 R171, R172). -/
def runOk (m : Memory) (node i : Nat) (e : Nat) : Bool :=
  let first := i / 32 * 32
  (List.range 32).all fun j =>
    let x := readWord m (node + 8 * (first + j))
    pteV x && pteC x && !pteT x && !pteReserved x && fld x 2 6 == fld e 2 6 &&
      pteAddr x == pteAddr (readWord m (node + 8 * first)) + j * 65536

/-- A leaf as a TLB entry: page size and physical base, with the permission bits of the entry. -/
def leafEntry (asid va size base e : Nat) : Option TlbEntry :=
  if base % size ≠ 0 || 2 ≤ fld e 6 2 then none
  else some ⟨asid, va / size * size, size, BitVec.ofNat 64 (base + fld e 0 15)⟩

/-- A walk (07 R171, R172): the leaf it ends in. -/
def walk (m : Memory) (asid l1 va : Nat) : Option TlbEntry :=
  let e1 := readWord m (l1 + 8 * fld va 40 12)
  if !hbmMapped l1 || !pteV e1 || pteReserved e1 then none
  else if !pteT e1 then leafEntry asid va (2 ^ 40) (pteAddr e1) e1
  else if !hbmMapped (pteAddr e1) then none
  else
    let e2 := readWord m (pteAddr e1 + 8 * fld va 28 12)
    if !pteV e2 || pteReserved e2 then none
    else if !pteT e2 then leafEntry asid va (2 ^ 28) (pteAddr e2) e2
    else if !hbmMapped (pteAddr e2) then none
    else
      let node := pteAddr e2
      let i := fld va 16 12
      let e3 := readWord m (node + 8 * i)
      if !pteV e3 || pteReserved e3 || pteT e3 then none
      else if pteC e3 && runOk m node i e3 then leafEntry asid va (2 ^ 21) (pteAddr (readWord m (node + 8 * (i / 32 * 32)))) e3
      else leafEntry asid va (2 ^ 16) (pteAddr e3) e3

def tlbHit (l : List TlbEntry) (asid va : Nat) : Option TlbEntry :=
  l.find? fun e => e.asid == asid && decide (e.va ≤ va) && decide (va < e.va + e.size)

/-- Fill a TLB of `cap` entries; a full one gives up an entry that software cannot predict (07 R174). -/
def tlbFill (cap victim : Nat) (l : List TlbEntry) (e : TlbEntry) : List TlbEntry :=
  if l.length < cap then l ++ [e] else (l.eraseIdx (victim % cap)) ++ [e]

/-- Translate with the core's and the die's TLB, filling both (07 R174). -/
def State.lookup (s : State) (p core va : Nat) : State × Option TlbEntry :=
  let k := s.part p
  match tlbHit (s.core core).tlb k.asid va with
  | some e => (s, some e)
  | none =>
    let die := core / 128
    let dl := tget [] s.dieTlb die
    match tlbHit dl k.asid va with
    | some e =>
      let (n, s) := s.draw
      (s.modCore core fun c => { c with tlb := tlbFill 192 (Config.tlbVictim n) c.tlb e }, some e)
    | none =>
      match walk s.hbm k.asid k.l1pa va with
      | none => (s, none)
      | some e =>
        let (n, s) := s.draw
        let s := s.modCore core fun c => { c with tlb := tlbFill 192 (Config.tlbVictim n) c.tlb e }
        let (n, s) := s.draw
        ({ s with dieTlb := tput s.dieTlb die (tlbFill 2048 (Config.tlbVictim n) dl e) }, some e)

/-- What an entry gives an access of a kind; `host` for a HOST layout (07 R172): a leaf of host memory is not present for
an A word, and a leaf of HBM for a HOST layout. -/
def TlbEntry.xlat (e : TlbEntry) (va : Nat) (kind : XKind) (host : Bool) : Xlat :=
  let leaf := e.leaf.toNat
  let pa := leaf / 2 ^ 15 * 2 ^ 15 + (va - e.va)
  let tgt := fld leaf 6 2
  if tgt = 1 && !host && !kind.ofEngine || tgt ≠ 1 && host then .fault .notPresent
  else if tgt = 0 && !hbmMapped pa then .fault .notPresent
  else
    let ok := match kind with
      | .read | .beatRead => bitAt leaf 2 == 1
      | .write | .beatWrite => bitAt leaf 3 == 1
      | .atomic => bitAt leaf 4 == 1
    if ok then .ok (if tgt = 1 then .host pa else .hbm pa) else .fault .permission

/-- The physical address of a virtual one (07 R172). An access that faults installs nothing in any TLB (18 R344). -/
def State.translate (s : State) (p core va : Nat) (kind : XKind) (host : Bool) : State × Xlat :=
  let (t, r) := s.lookup p core va
  match r with
  | none => (t, .fault .notPresent)
  | some e =>
    match e.xlat va kind host with
    | .ok b => (t, .ok b)
    | .fault c => ({ t with cores := s.cores, dieTlb := s.dieTlb }, .fault c)

/-- How many of the `n` bytes of an access lie together from its location on, and where the others begin: in the next
page, or in another row of the ring store. -/
def Loc.cut (l : Loc) (n : Nat) : Nat × Option Loc :=
  let page (va : Nat) : Nat := 65536 - va % 65536
  match l with
  | .global va => if n ≤ page va then (n, none) else (page va, some (.global (va + page va)))
  | .host va => if n ≤ page va then (n, none) else (page va, some (.host (va + page va)))
  | .ringTwo c o q => if n ≤ 64 - o % 64 then (n, none) else (64 - o % 64, some (.ring c q))
  | _ => (n, none)

/-- The byte of an object's portable text that a VA names. -/
def State.textOf (s : State) (h : Word) (va : Nat) : Option (Word × Nat) :=
  match s.loaded h with
  | some l => if l.textVa ≤ va && va < l.textVa + l.obj.text.length then some (h, va - l.textVa) else none
  | none => none

/-- The portable text that a partition sees at a VA: that of its own object, or of another object with a launch under the same
ASID, since the text is mapped in the ASID of every launch (21 R381). -/
def State.textAt (s : State) (p va : Nat) : Option (Word × Nat) :=
  let k := s.part p
  match s.textOf k.handle va with
  | some t => some t
  | none => s.parts.findSome? fun q => if q.2.asid == k.asid then s.textOf q.2.handle va else none

/-- The physical place of a location's first byte, translated now. The device runtime maps the portable text read-only
(21 R381). -/
def State.resolveLoc (s : State) (p core : Nat) (kind : XKind) : Loc → State × Except Cls Bytes
  | .ring c o | .ringTwo c o _ => (s, .ok (.ring c o))
  | .pocket c o => (s, .ok (.pocket c o))
  | .remote t o => (s, .ok (.remote t o))
  | .global va =>
    match s.textAt p va, kind with
    | some (h, o), .read | some (h, o), .beatRead => (s, .ok (.text h o))
    | some _, _ => (s, .error .permission)
    | none, _ =>
      match s.translate p core va kind false with
      | (s, .ok (.hbm pa)) => (s, .ok (.hbm pa))
      | (s, .ok (.host pa)) => (s, .ok (.host pa))
      | (s, .fault c) => (s, .error c)
  | .host va =>
    match s.translate p core va kind true with
    | (s, .ok (.hbm pa)) => (s, .ok (.hbm pa))
    | (s, .ok (.host pa)) => (s, .ok (.host pa))
    | (s, .fault c) => (s, .error c)

/-- TREC3 of a translation fault (07 R175). -/
def faultStatus (stream : Nat) : Loc → Word
  | .global va | .host va => BitVec.ofNat 64 (stream % 16 * 2 ^ 60 + va % 2 ^ 52)
  | _ => BitVec.ofNat 64 (stream % 16 * 2 ^ 60)

/-- TREC3 of an uncorrectable memory error (18 R337): the VA or byte offset, the space and the stream. -/
def memoryStatus (core stream : Nat) (l : Loc) : Word :=
  let (space, a) : Nat × Nat := match l with
    | .ring _ o | .ringTwo _ o _ => (0, o)
    | .pocket c o => (if c = core then 1 else 3, o)
    | .global v => (2, v)
    | .host v => (4, v)
    | .remote _ o => (3, o)
  BitVec.ofNat 64 (a % 2 ^ 52 + space * 2 ^ 52 + stream % 16 * 2 ^ 60)

/-! ### The bytes at a place -/

/-- Whether a mark names one of `n` bytes at a place. -/
def Bytes.covers (b : Bytes) (n : Nat) : Mark → Bool
  | .spoilt space core a =>
    match b with
    | .ring c o => space == 0 && core == c && decide (o ≤ a) && decide (a < o + n)
    | .pocket c o => space == 1 && core == c && decide (o ≤ a) && decide (a < o + n)
    | .hbm pa => space == 2 && decide (pa ≤ a) && decide (a < pa + n)
    | _ => false
  | _ => false

def State.spoilt (s : State) (b : Bytes) (n : Nat) : Bool := s.marks.any (b.covers n)

/-- A byte that is written again has no error any more. -/
def State.mended (s : State) (b : Bytes) (l : List Byte) (mask : Nat) : State :=
  if s.marks.isEmpty || mask % 2 ^ (8 * l.length) != 2 ^ (8 * l.length) - 1 then s
  else { s with marks := s.marks.filter fun m => !b.covers l.length m }

/-- The bytes at a place. What a pocket of another module holds is no state of this one: free values (log entry 1). -/
def State.readPlace (s : State) (b : Bytes) (n : Nat) : List Byte :=
  match b with
  | .ring c o => Memory.readBytes (s.core c).ring o n
  | .pocket c o => Memory.readBytes (s.core c).pocket o n
  | .hbm pa => Memory.readBytes s.hbm pa n
  | .host pa => Memory.readBytes s.hostMem pa n
  | .remote _ _ => (List.range n).map fun i => (Config.freeWord (s.free + i)).setWidth 8
  | .text h o => match s.loaded h with
    | some l => (List.range n).map fun i => l.obj.text.getD (o + i) 0
    | none => List.replicate n 0

/-- A read of another module's pocket draws its free values. -/
def State.drawRemote (s : State) (b : Bytes) (n : Nat) : State :=
  match b with
  | .remote _ _ => { s with free := s.free + n }
  | _ => s

/-- Whether a row that `n` bytes at a place lie in is poisoned (05 R115); HBM and host memory carry no poison. -/
def State.placePoison (s : State) (b : Bytes) (n : Nat) : Bool :=
  let any (t : Tbl Bool) (o : Nat) : Bool := tget false t (o / 64) || tget false t ((o + n - 1) / 64)
  match b with
  | .ring c o => any (s.core c).ringP o
  | .pocket c o => any (s.core c).pocketP o
  | _ => false

/-- The poison bit of a row after a write (05 R116): a write of the whole row sets it to its own, any other write
only sets it. -/
def poisonAfter (t : Tbl Bool) (row : Nat) (whole p : Bool) : Tbl Bool :=
  if whole then tset false t row p else if p then tset false t row true else t

/-- Bytes with bits to keep: `mask` holds a 1 where a bit is written. -/
def mergeBytes (old new : List Byte) (mask : Nat) : List Byte :=
  (List.zip old new).zipIdx.map fun ((o, n), i) =>
    let m := BitVec.ofNat 8 (mask / 2 ^ (8 * i))
    (n &&& m) ||| (o &&& ~~~m)

/-- The cells a write changes: bytes none of whose bits are written are left alone. -/
def writtenCells (a : Nat) (old new : List Byte) (mask : Nat) : List (Nat × Byte) :=
  (mergeBytes old new mask).zipIdx.filterMap fun (b, i) =>
    if mask / 2 ^ (8 * i) % 256 = 0 then none else some (a + i, b)

/-- Write bytes at a place of this module at once. -/
def State.writePlace (s : State) (b : Bytes) (l : List Byte) (mask : Nat) (p : Bool) : State :=
  let s := s.mended b l mask
  let whole := l.length == 64 && mask % 2 ^ 512 == 2 ^ 512 - 1
  match b with
  | .ring c o => s.modCore c fun k =>
      { k with ring := Memory.writeCells k.ring (writtenCells o (Memory.readBytes k.ring o l.length) l mask)
               ringP := poisonAfter k.ringP (o / 64) (whole && o % 64 == 0) p }
  | .pocket c o => s.modCore c fun k =>
      { k with pocket := Memory.writeCells k.pocket (writtenCells o (Memory.readBytes k.pocket o l.length) l mask)
               pocketP := poisonAfter k.pocketP (o / 64) (whole && o % 64 == 0) p }
  | .hbm pa => { s with hbm := Memory.writeCells s.hbm (writtenCells pa (Memory.readBytes s.hbm pa l.length) l mask) }
  | .host pa =>
    { s with hostMem := Memory.writeCells s.hostMem (writtenCells pa (Memory.readBytes s.hostMem pa l.length) l mask) }
  | .remote _ _ | .text _ _ => s

/-- An arrival at a partition: it lands at the tick at which the partition stands (15 R296). -/
def State.arrive (s : State) (q : Nat) (who : Who) (a : Act) : State :=
  s.addDue q ⟨(s.part q).tick, 9, who, a⟩

/-- A partition whose ticks can run. -/
def Part.live (k : Part) : Bool := k.run && !k.complete

/-! ### One order of the writes of a byte (15 R294 to R299; log entry 64)

The bytes change when a write is performed, so that every agent finds one order. A group that writes the same bytes at its
next edge writes before what has arrived since its last one, which place 9 of R295 puts after it: those bits of its write
are already overwritten when it lands. -/

/-- The store a place lies in, and its byte there. -/
def Bytes.split : Bytes → (Nat × Nat) × Nat
  | .ring c o => ((0, c), o)
  | .pocket c o => ((1, c), o)
  | .hbm pa => ((2, 0), pa)
  | .host pa => ((3, 0), pa)
  | .remote t o => ((4, t.toNat), o)
  | .text h o => ((5, h.toNat), o)

/-- The bits that an arrival wrote of the 4,096 bytes from a place. -/
def Arrived.over (a : Arrived) (b : Bytes) : Nat :=
  if a.place.split.1 ≠ b.split.1 || b.split.2 + 4096 ≤ a.place.split.2 then 0
  else if b.split.2 ≤ a.place.split.2 then a.mask <<< (8 * (a.place.split.2 - b.split.2))
  else a.mask >>> (8 * (b.split.2 - a.place.split.2))

/-- What of a write of `mask` has been overwritten by arrivals that land with it. -/
def hiddenBits (l : List Arrived) (b : Bytes) (mask : Nat) : Nat :=
  l.foldl (fun m a => m ||| a.over b) 0 &&& mask

/-- Every other group that runs has an arrival. On a group whose own edge this is it lands on that edge, and one order holds for
writes of one edge: that in which they are performed, by ascending core (15 R299). -/
def State.tellOthers (s : State) (p : Option Nat) (a : Arrived) : State :=
  { s with parts := s.parts.map fun (e : Nat × Part) =>
      let mine := match p with | some q => s.sameGroup q e.1 | none => false
      (e.1, if mine || !e.2.live || s.edge.any (s.sameGroup · e.1) then e.2 else { e.2 with fresh := e.2.fresh ++ [a] }) }

/-- Perform a write of partition `p` at its landing tick, or an arrival (15 R296, R298): the bytes change, and for every other group
the write lands at its own next edge. An arrival of a group's own work on no edge of that group comes while it stands still, and
lands at f as any other: behind what the group still writes on that tick. -/
def State.performWrite (s : State) (p : Option Nat) (b : Bytes) (l : List Byte) (mask : Nat) (pois : Bool) : State :=
  (s.writePlace b l mask pois).tellOthers p ⟨b, mask % 2 ^ (8 * l.length), pois⟩

/-- The poison bit of the row of a place. -/
def State.setPoison (s : State) (b : Bytes) (p : Bool) : State :=
  match b with
  | .ring c o => s.modCore c fun k => { k with ringP := tset false k.ringP (o / 64) p }
  | .pocket c o => s.modCore c fun k => { k with pocketP := tset false k.pocketP (o / 64) p }
  | _ => s

/-- A write of partition `p` lands, before the arrivals of its tick. -/
def State.landWrite (s : State) (p : Nat) (b : Bytes) (l : List Byte) (mask : Nat) (pois : Bool) : State :=
  let fresh := (s.part p).fresh
  let hidden := hiddenBits fresh b mask
  if hidden = 0 || !(s.part p).live then s.performWrite (some p) b l mask pois
  else if hidden = mask then s
  else
    let t := s.performWrite (some p) b l (mask - hidden) pois
    if l.length = 64 && mask = 2 ^ 512 - 1 then
      t.setPoison b (pois || fresh.any fun a => a.pois && a.over b % 2 ^ 512 != 0)
    else t

/-- An atomic's new value takes the place of the old one at once, whatever has arrived: an atomic never passes a write
to its element, nor is passed by one; for every other group it is an arrival (15 R296, R299, 16 R319). -/
def State.landAtomic (s : State) (p : Nat) (b : Bytes) (l : List Byte) : State :=
  let t := s.performWrite (some p) b l (2 ^ (8 * l.length) - 1) false
  let cut (a : Arrived) : Arrived :=
    let bits := a.over b % 2 ^ (8 * l.length)
    if bits = 0 then a
    else { a with mask := a.mask - bits >>> (8 * (a.place.split.2 - b.split.2)) <<< (8 * (b.split.2 - a.place.split.2)) }
  (s.members p).foldl (fun t q => t.modPart q fun k => { k with fresh := k.fresh.map cut }) t

/-- The rows that some bytes of this module's stores lie in are marked poisoned (05 R115). -/
def State.losePlace (s : State) (l : Loc) (n : Nat) : State :=
  let mark (s : State) (c : Nat) (b : Bytes) : State := (s.setPoison b true).markPoison c
  match l.cut n, l with
  | (_, some (.ring c q)), .ringTwo _ o _ => mark (mark s c (.ring c o)) c (.ring c q)
  | _, .ring c o | _, .ringTwo c o _ => mark s c (.ring c o)
  | _, .pocket c o => mark s c (.pocket c o)
  | _, _ => s

/-! ### Pending writes (07 R163, R169) -/

/-- Whether two byte ranges overlap. -/
def overlap (a n b m : Nat) : Bool := decide (a < b + m) && decide (b < a + n)

def onePieceOverlap (a : Loc) (n : Nat) (b : Loc) (m : Nat) : Bool :=
  match a, b with
  | .ring c o, .ring d q => c == d && overlap o n q m
  | .pocket c o, .pocket d q => c == d && overlap o n q m
  | .global o, .global q => overlap o n q m
  | .host o, .host q => overlap o n q m
  | .remote t o, .remote u q => t == u && overlap o n q m
  | _, _ => false

/-- The pieces of an access that lie together. -/
def Loc.pieces (l : Loc) (n : Nat) : List (Loc × Nat) :=
  let whole (l : Loc) : Loc := match l with | .ringTwo c o _ => .ring c o | _ => l
  match l.cut n with
  | (_, none) => [(whole l, n)]
  | (k, some l') => [(whole l, k), (l', n - k)]

def locOverlap (a : Loc) (n : Nat) (b : Loc) (m : Nat) : Bool :=
  (a.pieces n).any fun x => (b.pieces m).any fun y => onePieceOverlap x.1 x.2 y.1 y.2

/-- The length of the run of bytes a mask selects from. -/
def maskLen (mask : Row) : Nat := (bitLen mask.toNat + 7) / 8

def optLocs (l : List (Option Loc)) : List Loc := l.filterMap id

/-- The locations an act will write, with lengths and landing ticks. -/
def Act.writes (a : Act) (tick core : Nat) : List (Loc × Nat × Nat) :=
  let out (o : BeatOut) : List (Loc × Nat × Nat) := o.spots.filterMap fun x => x.map fun x => (x.loc, (o.bits + 7) / 8, o.land)
  match a with
  | .write acc _ m _ => [(acc.loc, maskLen m, tick)]
  | .atomic acc _ _ _ _ f => [(acc.loc, f.bits / 8, tick)]
  | .scatterRow _ els _ b => (optLocs els).map fun l => (l, b / 8, tick)
  | .storeEls _ els _ b => (optLocs els).map fun l => (l, b / 8, tick)
  | .storeRows acc l => [(acc.loc, 64 * l.length, tick)]
  | .bankTake _ _ (some off) _ => [(.ring core off, 64, tick + 1)]
  | .beatSample b => b.outs.flatMap out
  | .beatLand _ o _ _ => out o
  | .fxLand loc _ _ _ _ _ => [(loc, 64, tick)]
  | .gridStore _ l => l.map fun e => (.pocket core e.1, 1, tick)
  | .gridSend _ _ _ _ _ out land => out.map fun e => (e.1, e.2, land)
  | .gridFilled _ _ _ l _ _ _ => l.map fun e => (.pocket core e.1, 1, tick)
  | .gridArrive ex => ex.cells.map fun y => (.pocket ex.core y.1, 1, tick)
  | _ => []

/-- A late write of a loose partition to the location, not yet performed (07 R169). -/
def State.lateTo (s : State) (p : Nat) (l : Loc) (n : Nat) : Bool :=
  (s.part p).lateWrites.any fun d => (d.act.writes d.tick d.who.core).any fun w => locOverlap l n w.1 w.2.1

/-! ### Reading a location -/

/-- What a read of `n` bytes finds: bytes and the poison of their rows, or the fault of its translation. -/
def State.readLoc (s : State) (p core : Nat) (kind : XKind) (l : Loc) (n : Nat) : State × Except Cls (List Byte × Bool) :=
  let (first, rest) := l.cut n
  match s.resolveLoc p core kind l with
  | (s, .error c) => (s, .error c)
  | (s, .ok b) =>
    if s.spoilt b first then (s, .error .memoryError)
    else
      let head := s.readPlace b first
      let q := s.placePoison b first
      match rest with
      | none => (s.drawRemote b first, .ok (head, q))
      | some l' =>
        match s.resolveLoc p core kind l' with
        | (s, .error c) => (s, .error c)
        | (s, .ok b') =>
          if s.spoilt b' (n - first) then (s, .error .memoryError)
          else (s, .ok (head ++ s.readPlace b' (n - first), q || s.placePoison b' (n - first)))

def Loc.isRemote : Loc → Bool
  | .remote _ _ => true
  | _ => false

/-- Whether the layout is of another module. -/
def State.farPeer (s : State) (l : Lay) : Bool := l.space == 3 && l.peer / 2048 != s.modNum

def elemLoc : Elem → Option Loc
  | .at l => some l
  | _ => none

/-- The elements a gather or scatter names, from its index row. -/
def State.gatherElems (s : State) (core : Nat) (sta : BitVec 256) (lt : BitVec 512) (idx : Row) : List (List Int × Elem) :=
  let r := strOf sta
  let l := layOf lt
  (List.range (512 / l.format.bits)).map fun j =>
    let cur := addCoord r.cur (sgn 32 (elemOf 32 idx j))
    (cur, s.element core l cur)

/-- The indexes and their poison. A row with no element inside its extents is read as 0 (07 R161). -/
def State.indexRow (s : State) (p core : Nat) (a : Access) (mask : Option Row) : State × Except Cls (Row × Bool) :=
  match mask with
  | none => (s, .ok (0, false))
  | some m =>
    match s.readLoc p core .read a.loc 64 with
    | (s, .error c) => (s, .error c)
    | (s, .ok (b, pois)) => (s, .ok (rowOfBytes b &&& m, pois || s.lateTo p a.loc 64))

/-- The first trap the elements raise at the index-sampling tick (07 R185). -/
def firstElemTrap (l : Lay) (stream : Nat) : List (List Int × Elem) → Option (Cls × Word)
  | [] => none
  | (cur, e) :: r =>
    match (elemProbe l stream cur e).conds with
    | (c, v, _) :: _ => some (c, v)
    | [] => firstElemTrap l stream r

/-! ### Writes that have been issued (07 R163, 15 R298) -/

/-- The elements that a scatter whose indexes are not sampled yet would write, by its index row as it stands (DEDUCED, log entry
98). -/
def State.scatterElems (s : State) (p core : Nat) (a : Access) (mask : Option Row) (sta : BitVec 256) (lt : BitVec 512) :
    List Loc :=
  match (s.indexRow p core a mask).2 with
  | .ok (idx, false) =>
    let els := s.gatherElems core sta lt idx
    if (firstElemTrap (layOf lt) a.stream els).isSome then [] else els.filterMap fun e => elemLoc e.2
  | _ => []

def destOff (v : Word) : Nat := fld v.toNat 19 19
def destTarget (v : Word) : Nat := fld v.toNat 0 19

/-- The place of row `q` of a SEND or COMB at its target. -/
def State.destPlace (s : State) (dest : Word) (q : Nat) : Loc :=
  let t := destTarget dest
  if t / 2048 = s.modNum then .pocket (t % 2048) (destOff dest + 64 * q) else .remote (BitVec.ofNat 19 t) (destOff dest + 64 * q)

/-- The rows that a running SEND is still to write, and those of a contribution to another module. -/
def State.fxWrites (s : State) (p : Nat) (d : Due) (r : FxRun) : List (Loc × Nat × Nat) :=
  let lat := peerLatency (s.part p).loose d.who.core (destTarget r.dest % 2048) / 2
  match r.comb with
  | none => (List.range r.rows.length).map fun i => (s.destPlace r.dest (r.total - r.rows.length + i), 64, d.tick + i + lat)
  | some _ => match s.destPlace r.dest 0 with
    | .remote t o => [(.remote t o, 64 * r.total, d.tick + r.rows.length + lat)]
    | _ => []

/-- The locations that work in flight will write, with lengths and landing ticks: those of scatters, sends and rule fills too whose
sources have not been read. -/
def State.writesOf (s : State) (p : Nat) (d : Due) : List (Loc × Nat × Nat) :=
  match d.act with
  | .scatterIndex a mask _ sta lt land =>
    (s.scatterElems p d.who.core a mask sta lt).map fun l => (l, (layOf lt).format.bits / 8, land)
  | .fxRow r _ _ => s.fxWrites p d r
  | .gridFill _ _ _ _ _ _ out => out.map fun e => (e.1, e.2, d.tick + ownPocket (s.part p).loose)
  | a => a.writes d.tick d.who.core

/-- A write of partition `p` to the location that lands after `t`, or that is late (07 R163, 15 R294). -/
def State.pendingWrite (s : State) (p : Nat) (l : Loc) (n t : Nat) : Bool :=
  ((s.part p).pend.any fun d => (s.writesOf p d).any fun w => decide (t < w.2.2) && locOverlap l n w.1 w.2.1) || s.lateTo p l n

/-- The tick at which a write is issued: a beat of a copy at its slot (12 R256, R259), any other with its word. -/
def Due.issued (d : Due) : Nat :=
  match d.act with
  | .beatLand _ o _ _ => o.slot
  | .emit _ _ _ i _ _ => i
  | _ => d.who.issue

/-- Where work in flight will write in other modules, with lengths and issue ticks. A scatter whose indexes are not sampled may write
anywhere in its target. -/
def State.farWrites (s : State) (p : Nat) (d : Due) : List (Loc × Nat × Nat) :=
  let far (w : Loc × Nat × Nat) (issue : Nat) : Option (Loc × Nat × Nat) := if w.1.isRemote then some (w.1, w.2.1, issue) else none
  match d.act with
  | .scatterIndex _ _ _ _ lt _ =>
    let l := layOf lt
    if s.farPeer l then [(.remote (BitVec.ofNat 19 l.peer) 0, 327680, d.who.issue)] else []
  | .emit loc n _ i _ _ => [(loc, n, i)]
  | .beatSample b => b.outs.flatMap fun o => o.spots.filterMap fun x => x.bind fun x => far (x.loc, (o.bits + 7) / 8, 0) o.slot
  | _ => (s.writesOf p d).filterMap fun w => far w d.issued

/-- A write to another module waits while one that its core issued before it to the same bytes has not set out, a late one of a loose
partition too: writes of one core to one location are performed in issue order (15 R298, 16 R321). `seq` numbers writes that wait
already. -/
def State.postWaits (s : State) (p : Nat) (d : Due) (l : List (Loc × Nat)) (seq : Option Nat) : Bool :=
  let k := s.part p
  let first (e : Due) : Bool := match e.act, seq with
    | .emit _ _ m _ _ _, some n => decide (m < n)
    | .emit .., none => true
    | _, _ => false
  !l.isEmpty && (k.lateWrites ++ k.pend).any fun e => e.who.core == d.who.core &&
    (s.farWrites p e).any fun w => (decide (w.2.2 < d.issued) || (w.2.2 == d.issued && first e)) &&
      l.any fun v => locOverlap w.1 w.2.1 v.1 v.2

/-- The HBM stack a location's first byte lies on, where it is a GLOBAL one, whatever the page permits. -/
def State.stackOf (s : State) (p core : Nat) : Loc → Option Nat
  | .global va =>
    match (s.lookup p core va).2 with
    | some e =>
      let leaf := e.leaf.toNat
      if fld leaf 6 2 = 0 then some ((leaf / 2 ^ 15 * 2 ^ 15 + (va - e.va)) / 2 ^ 36) else none
    | none => none
  | _ => none

/-- A home promise that the page does not keep (07 R168). -/
def State.strayed (s : State) (p : Nat) (core : Nat) (a : Access) : Bool :=
  a.home && (match s.stackOf p core a.loc with | some i => i != core / 128 | none => false)

/-- Whether the environment makes access `seq` late (log entry 2). -/
def State.isLate (s : State) (p seq : Nat) : Bool := s.marks.contains (.late p seq)

/-- A grant of the host interface is in force (19 R358). -/
def State.granted (s : State) : Bool := s.hivgnt.getLsbD 16

/-- A frame of kind `kind` from this core (16 R320). -/
def packetOf (kind : BitVec 4) (smod score : Nat) (target : BitVec 19) (off : Nat) (l : List Row) (len : Nat) : Packet where
  kind := kind
  nfl := BitVec.ofNat 3 (l.length - 1)
  dmod := BitVec.ofNat 8 (target.toNat / 2048)
  dcore := BitVec.ofNat 11 target.toNat
  smod := BitVec.ofNat 8 smod
  score := BitVec.ofNat 11 score
  doff := BitVec.ofNat 19 off
  len := BitVec.ofNat 6 (len - 1)
  tag := 0
  idx := 0
  n := 0
  op := 0
  rsv := 0
  flits := l

/-- A port before training (16 R320 to R324). -/
def Port.reset : Port := ⟨false, none, 0, 0, none, none, 0, 0, 0, 0, []⟩

def State.port (s : State) (n : Nat) : Port := tget Port.reset s.ports n
def State.modPort (s : State) (n : Nat) (f : Port → Port) : State := { s with ports := tput s.ports n (f (s.port n)) }

/-- A frame sets out on a live link: its 8 flits are counted, and behind one of kind 8 the new key takes effect (16 R322). -/
def Port.sends (q : Port) (f : Packet) : Port :=
  match q.newOut with
  | some k => if f.kind = 8 then { q with keyOut := k, newOut := none, sent := 0 } else { q with sent := q.sent + 8 }
  | none => { q with sent := q.sent + 8 }

/-- A frame leaves on a port; on one that is down it waits (16 R322). -/
def State.sendOn (s : State) (n : Nat) (f : Packet) : State :=
  if (s.port n).up then { s with outbox := s.outbox ++ [f] }.modPort n fun q => q.sends f
  else s.modPort n fun q => { q with waiting := q.waiting ++ [f] }

/-- A frame is handed to the port that leads to its module (16 R311). -/
def State.send (s : State) (f : Packet) : State := s.sendOn (Config.yelnarPort f.dmod.toNat % 32) f

/-- A write to another module sets out, or waits for one before it. -/
def State.post (s : State) (p : Nat) (d : Due) (loc : Loc) (n : Nat) (f : Packet) (r : Option Posted) : State :=
  let m := (s.part p).seq + 1
  let t := s.modPart p fun k => { k with seq := m }
  if t.postWaits p d [(loc, n)] (some m) then
    t.addDue p { d with tick := (t.part p).tick + 1, place := 9, act := .emit loc n m d.issued f r }
  else (t.send f).modCore d.who.core fun k => { k with posted := k.posted ++ r.toList }

/-- A write that waited sets out. -/
def State.doEmit (s : State) (p : Nat) (d : Due) (loc : Loc) (n m : Nat) (f : Packet) (r : Option Posted) : State :=
  if s.postWaits p d [(loc, n)] (some m) then s.addDue p { d with tick := (s.part p).tick + 1 }
  else (s.send f).modCore d.who.core fun k => { k with posted := k.posted ++ r.toList }

end Sys2Proof.Machine
end

