-- ==== Sys2Proof/Machine/Flags.lean ====
section
/-! DEFINITION. Flag computations: what a CSR reads as, the flags a result raises and when, per-lane flags under a
mask, the vector status, and the occupancy of a queue (06 R136 to R138, 04 R64, 08 R200, R202). -/

namespace Sys2Proof.Machine

/-- What CSRR reads (06 R138). -/
def State.csr (s : State) (p c n : Nat) : Word :=
  let k := s.core c
  let q := s.part p
  match n with
  | 0x001 => k.fflags
  | 0x010 => 0x24140C08
  | 0x011 => BitVec.ofNat 64 (c % 2048 + s.modNum % 256 * 2 ^ 11)
  | 0x012 => BitVec.ofNat 64 (q.base % 2048 + q.n % 16 * 2 ^ 11 + (if q.loose then 2 ^ 16 else 0) +
      if q.join.isSome then 2 ^ 17 else 0)
  | 0x018 => k.flags.setWidth 64
  | 0x019 => BitVec.ofNat 64 (s.guardImage p c)
  | 0x01A => if k.poisonSeen then 1 else 0
  | 0x020 => k.tvec
  | 0x021 => q.troute &&& ~~~(BitVec.ofNat 64 (2 ^ 0x12 + 2 ^ 0x13 + 2 ^ 0x16))
  | 0x022 => BitVec.ofNat 64 ((if k.hm then 1 else 0) + if k.msk then 2 else 0)
  | 0x028 => tget 0 k.trec 0
  | 0x029 => tget 0 k.trec 1
  | 0x02A => tget 0 k.trec 2
  | 0x02B => tget 0 k.trec 3
  | 0x030 => k.vstat
  | 0x040 => k.mgate
  | 0x041 => 48
  | _ => 0

/-- Sub-array wake latency (06 R138). -/
def wakeLatency : Nat := 48

/-- Flags land with the result that raised them; a poisoned result raises none (04 R64). -/
def State.laterFlags (s : State) (x : Ctx) (tick : Nat) (f : Flags) (p : Bool) : State :=
  if p || f == 0 then s else s.later x tick (.fflags f)

/-- The OR of several flag sets. -/
def orFlags (l : List Flags) : Flags := l.foldl (· ||| ·) 0

/-- Whether mask register `k` makes element `i` of a format active: k0 makes every element active, and a bit governs
the two elements of a byte of a 4-bit format (08 R200). -/
def activeLane (f : Fmt) (k : Nat) (m : Word) (i : Nat) : Bool :=
  if k = 0 then true else if f.bits = 4 then m.getLsbD (i / 2) else m.getLsbD i

/-- The bits of a register that active elements occupy. -/
def laneMask (f : Fmt) (k : Nat) (m : Word) : Row :=
  BitVec.ofNat 512 (rowOfElems f.bits ((List.range f.lanes).map fun i =>
    if activeLane f k m i then 2 ^ f.bits - 1 else 0))

/-- Flags of the active elements only (04 R64). -/
def laneFlags (l : List (Bool × Flags)) : Flags := l.foldl (fun acc e => if e.1 then acc ||| e.2 else acc) 0

/-- A bank-port conflict (08 R197). -/
def Core.bankConflict (k : Core) : Core := { k with vstat := k.vstat ||| 4 }

/-! ### Queue occupancy (06 R136) -/

/-- The queues an instruction pops, one entry for each pop. -/
def popsOf : Instr → List Nat
  | .qpop _ _ q => [q.val]
  | .sts _ _ q .. => [q.val]
  | .scat _ _ _ q _ => [q.val]
  | .gst _ _ _ _ q _ => [q.val]
  | .cqpop _ _ q => [q.val]
  | .vqpop _ _ q => [q.val]
  | .mlwp .. => [12, 12]
  | _ => []

/-- The cluster that pops a queue (06 R135). -/
def consumer (q : Nat) : Cluster :=
  if q < 4 then .v else if q < 6 then .a
  else match q with
    | 8 => .a | 10 => .v | 12 => .m | _ => .s

/-- The frame of a word: its guard, read from the word's bits. -/
def wordFrame (w : Word) : Frame := frameOf w.toNat

/-- How many entries of `q` the consumer's word of this tick pops. -/
def State.poppedNow (s : State) (p c q : Nat) : Nat :=
  let cl := consumer q
  let cur := (s.core c).cursor cl
  if cur.next = some (s.part p).tick && !(s.part p).voids.contains (c, cl) then
    match s.wordAt p cl cur with
    | some w =>
      match decodeNative cl w with
      | .ok i => if s.guardTrue p c (wordFrame w) then ((popsOf i).filter (· == q)).length else 0
      | _ => 0
    | none => 0
  else 0

/-- A push finds space that a pop of the same tick frees; into a full queue it freezes for good (06 R137). -/
def State.pushProbe (s : State) (p c q : Nat) : Probe :=
  .when (decide (queueDepth q + s.poppedNow p c q ≤ ((s.core c).getQueue q).length)) (.wait .queueNever)

end Sys2Proof.Machine
end

