-- ==== Sys2Proof/Machine/Scalar.lean ====
section
/-! DEFINITION. The S cluster's arithmetic, guards, mailboxes, queues, flags, counters and system words (06). -/

namespace Sys2Proof.Machine

/-! ### Arithmetic (06 R140 to R145) -/

def ofBool (b : Bool) : Word := if b then 1 else 0

/-- A signed quotient truncated toward zero, with the corners of R141. -/
def divSigned (a b : Word) : Word := if b = 0 then BitVec.allOnes 64 else BitVec.ofInt 64 (a.toInt.tdiv b.toInt)
def divUnsigned (a b : Word) : Word := if b = 0 then BitVec.allOnes 64 else BitVec.ofNat 64 (a.toNat / b.toNat)
def remSigned (a b : Word) : Word := if b = 0 then a else BitVec.ofInt 64 (a.toInt.tmod b.toInt)
def remUnsigned (a b : Word) : Word := if b = 0 then a else BitVec.ofNat 64 (a.toNat % b.toNat)

def mulHigh (a b : Word) : Word := BitVec.ofInt 64 ((a.toInt * b.toInt).fdiv (2 ^ 64))

def shiftLeft (a b : Word) : Word := a <<< (b.toNat % 64)
def shiftRight (a b : Word) : Word := a >>> (b.toNat % 64)
def shiftArith (a b : Word) : Word := a.sshiftRight (b.toNat % 64)

def leadingZeros (a : Word) : Word := BitVec.ofNat 64 (64 - bitLen a.toNat)
def trailingZeros (a : Word) : Word :=
  BitVec.ofNat 64 (((List.range 64).find? fun i => a.getLsbD i).getD 64)
def countOnes (a : Word) : Word := BitVec.ofNat 64 (popcount a.toNat 64)

/-- A word of two registers: sampled at issue, landing `lat` ticks later, poisoned by a poisoned operand (06 R131). -/
def scalarRR (i : Instr) (f : Frame) (lat : Nat) (d a b : XReg) (g : Word → Word → Word) : State → State :=
  nativeWord .s i f (fun _ _ => .ok) fun x s =>
    let u := (s.core x.c).getX a.val
    let v := (s.core x.c).getX b.val
    s.later x (x.t + lat) (.x d.val ⟨g u.v v.v, u.p || v.p⟩)

/-- A word of one register. -/
def scalarR (i : Instr) (f : Frame) (lat : Nat) (d a : XReg) (g : Word → Word) : State → State :=
  nativeWord .s i f (fun _ _ => .ok) fun x s =>
    let u := (s.core x.c).getX a.val
    s.later x (x.t + lat) (.x d.val ⟨g u.v, u.p⟩)

/-- A word with no operand but what the core holds. -/
def scalarPut (i : Instr) (f : Frame) (lat : Nat) (d : XReg) (g : Ctx → State → PWord) : State → State :=
  nativeWord .s i f (fun _ _ => .ok) fun x s => s.later x (x.t + lat) (.x d.val (g x s))

/-- The cluster of the word that is worked on. -/
def State.cluster (s : State) : Cluster :=
  match s.agenda with
  | .check _ _ cl :: _ => cl
  | .issue _ _ cl :: _ => cl
  | _ => .s

/-- NOP stands in the map of every cluster (03 R46). -/
def execNop (f : Frame) (s : State) : Out :=
  .next (nativeWord s.cluster (.nop f) f (fun _ _ => .ok) (fun _ s => s) s)
def execAdd (f : Frame) (d a b : XReg) (s : State) : Out := .next (scalarRR (.add f d a b) f 1 d a b (· + ·) s)
def execSub (f : Frame) (d a b : XReg) (s : State) : Out := .next (scalarRR (.sub f d a b) f 1 d a b (· - ·) s)
def execAnd (f : Frame) (d a b : XReg) (s : State) : Out := .next (scalarRR (.and f d a b) f 1 d a b (· &&& ·) s)
def execOr (f : Frame) (d a b : XReg) (s : State) : Out := .next (scalarRR (.or f d a b) f 1 d a b (· ||| ·) s)
def execXor (f : Frame) (d a b : XReg) (s : State) : Out := .next (scalarRR (.xor f d a b) f 1 d a b (· ^^^ ·) s)
def execSll (f : Frame) (d a b : XReg) (s : State) : Out := .next (scalarRR (.sll f d a b) f 1 d a b shiftLeft s)
def execSrl (f : Frame) (d a b : XReg) (s : State) : Out := .next (scalarRR (.srl f d a b) f 1 d a b shiftRight s)
def execSra (f : Frame) (d a b : XReg) (s : State) : Out := .next (scalarRR (.sra f d a b) f 1 d a b shiftArith s)
def execSlt (f : Frame) (d a b : XReg) (s : State) : Out :=
  .next (scalarRR (.slt f d a b) f 1 d a b (fun u v => ofBool (u.slt v)) s)
def execSltu (f : Frame) (d a b : XReg) (s : State) : Out :=
  .next (scalarRR (.sltu f d a b) f 1 d a b (fun u v => ofBool (u.ult v)) s)
def execMul (f : Frame) (d a b : XReg) (s : State) : Out := .next (scalarRR (.mul f d a b) f 3 d a b (· * ·) s)
def execMulh (f : Frame) (d a b : XReg) (s : State) : Out := .next (scalarRR (.mulh f d a b) f 3 d a b mulHigh s)
def execDiv (f : Frame) (d a b : XReg) (s : State) : Out := .next (scalarRR (.div f d a b) f 18 d a b divSigned s)
def execDivu (f : Frame) (d a b : XReg) (s : State) : Out := .next (scalarRR (.divu f d a b) f 18 d a b divUnsigned s)
def execRem (f : Frame) (d a b : XReg) (s : State) : Out := .next (scalarRR (.rem f d a b) f 18 d a b remSigned s)
def execRemu (f : Frame) (d a b : XReg) (s : State) : Out := .next (scalarRR (.remu f d a b) f 18 d a b remUnsigned s)
def execMin (f : Frame) (d a b : XReg) (s : State) : Out :=
  .next (scalarRR (.min f d a b) f 1 d a b (fun u v => if v.slt u then v else u) s)
def execMax (f : Frame) (d a b : XReg) (s : State) : Out :=
  .next (scalarRR (.max f d a b) f 1 d a b (fun u v => if u.slt v then v else u) s)
def execClz (f : Frame) (d a : XReg) (s : State) : Out := .next (scalarR (.clz f d a) f 1 d a leadingZeros s)
def execCtz (f : Frame) (d a : XReg) (s : State) : Out := .next (scalarR (.ctz f d a) f 1 d a trailingZeros s)
def execPopc (f : Frame) (d a : XReg) (s : State) : Out := .next (scalarR (.popc f d a) f 1 d a countOnes s)

/-- SEL reads its guard operand at issue; either register's poison poisons the result (06 R143). -/
def execSel (f : Frame) (d a b : XReg) (g : Num3) (s : State) : Out :=
  .next (scalarPut (.sel f d a b g) f 1 d (fun x s =>
    let u := (s.core x.c).getX a.val
    let v := (s.core x.c).getX b.val
    ⟨if s.guard x.p x.c g.val then u.v else v.v, u.p || v.p⟩) s)

def execAddi (f : Frame) (d a : XReg) (imm : BitVec 36) (s : State) : Out :=
  .next (scalarR (.addi f d a imm) f 1 d a (· + imm.signExtend 64) s)
def execAndi (f : Frame) (d a : XReg) (imm : BitVec 36) (s : State) : Out :=
  .next (scalarR (.andi f d a imm) f 1 d a (· &&& imm.signExtend 64) s)
def execOri (f : Frame) (d a : XReg) (imm : BitVec 36) (s : State) : Out :=
  .next (scalarR (.ori f d a imm) f 1 d a (· ||| imm.signExtend 64) s)
def execXori (f : Frame) (d a : XReg) (imm : BitVec 36) (s : State) : Out :=
  .next (scalarR (.xori f d a imm) f 1 d a (· ^^^ imm.signExtend 64) s)
def execSlti (f : Frame) (d a : XReg) (imm : BitVec 36) (s : State) : Out :=
  .next (scalarR (.slti f d a imm) f 1 d a (fun u => ofBool (u.slt (imm.signExtend 64))) s)
def execSlli (f : Frame) (d a : XReg) (n : BitVec 36) (s : State) : Out :=
  .next (scalarR (.slli f d a n) f 1 d a (fun u => shiftLeft u (n.setWidth 64)) s)
def execSrli (f : Frame) (d a : XReg) (n : BitVec 36) (s : State) : Out :=
  .next (scalarR (.srli f d a n) f 1 d a (fun u => shiftRight u (n.setWidth 64)) s)
def execSrai (f : Frame) (d a : XReg) (n : BitVec 36) (s : State) : Out :=
  .next (scalarR (.srai f d a n) f 1 d a (fun u => shiftArith u (n.setWidth 64)) s)
def execLimm (f : Frame) (d : XReg) (imm : BitVec 41) (s : State) : Out :=
  .next (scalarPut (.limm f d imm) f 1 d (fun _ _ => ⟨imm.signExtend 64, false⟩) s)
/-- imm[31:0] ‖ x[d][31:0] (06 R145). -/
def execLimmh (f : Frame) (d : XReg) (imm : BitVec 41) (s : State) : Out :=
  .next (scalarR (.limmh f d imm) f 1 d d
    (fun u => BitVec.ofNat 64 (imm.toNat % 2 ^ 32 * 2 ^ 32 + u.toNat % 2 ^ 32)) s)

/-! ### Guards (06 R146) -/

/-- A word that must not read a poisoned register (05 R116). -/
def poisonProbe (x : Ctx) (v : PWord) : Probe := .when v.p (.trap .poisonStore x.who.word)

def execGset (f : Frame) (g : Num3) (a : XReg) (s : State) : Out :=
  .next (nativeWord .s (.gset f g a) f (fun x s => poisonProbe x ((s.core x.c).getX a.val))
    (fun x s => s.later x (x.t + 2) (.guard g.val (((s.core x.c).getX a.val).v != 0))) s)

def execGseti (f : Frame) (g : Num3) (b : BitVec 43) (s : State) : Out :=
  .next (nativeWord .s (.gseti f g b) f (fun _ _ => .ok) (fun x s => s.later x (x.t + 2) (.guard g.val (b != 0))) s)

def lopBool (op : Lop) (a b : Bool) : Bool :=
  match op with
  | .and => a && b
  | .or => a || b
  | .xor => a != b
  | .andn => a && !b

def execGlog (f : Frame) (g ga gb : Num3) (op : Lop) (s : State) : Out :=
  .next (nativeWord .s (.glog f g ga gb op) f (fun _ _ => .ok) (fun x s =>
    s.later x (x.t + 2) (.guard g.val (lopBool op (s.guard x.p x.c ga.val) (s.guard x.p x.c gb.val)))) s)

/-! ### Mailboxes, queues and flags (06 R147 to R149) -/

def execMbr (f : Frame) (d : XReg) (mb : Num4) (s : State) : Out :=
  .next (scalarPut (.mbr f d mb) f 2 d (fun x s => ⟨(s.core x.c).getMb mb.val, false⟩) s)

def execMbw (f : Frame) (mb : Num4) (a : XReg) (s : State) : Out :=
  .next (nativeWord .s (.mbw f mb a) f (fun x s => poisonProbe x ((s.core x.c).getX a.val))
    (fun x s => s.later x (x.t + 2) (.mailbox mb.val ((s.core x.c).getX a.val).v)) s)

/-- Claim a place at issue and let the value land as its entry (06 R136). -/
def State.pushLater (s : State) (x : Ctx) (q tick : Nat) (v : Row) (p : Bool) : State :=
  let (s, id) := s.claim x.c q x.t
  s.later x tick (.queue q id v p)

def execQpush (f : Frame) (q : Num4) (a : XReg) (s : State) : Out :=
  .next (nativeWord .s (.qpush f q a) f (fun x s => s.pushProbe x.p x.c q.val) (fun x s =>
    let u := (s.core x.c).getX a.val
    s.pushLater x q.val (x.t + 2) (u.v.setWidth 512) u.p) s)

def execQpop (f : Frame) (d : XReg) (q : Num4) (s : State) : Out :=
  .next (nativeWord .s (.qpop f d q) f (fun x s => s.popProbe x.c q.val x.t) (fun x s =>
    let (s, e) := s.pop x.c q.val
    s.later x (x.t + 2) (.x d.val ⟨e.v.setWidth 64, e.p⟩)) s)

def execFlset (f : Frame) (fl : Num4) (b : BitVec 42) (s : State) : Out :=
  .next (nativeWord .s (.flset f fl b) f (fun _ _ => .ok) (fun x s => s.later x (x.t + 2) (.flag fl.val (b != 0))) s)

def execFltst (f : Frame) (d : XReg) (fl : Num4) (s : State) : Out :=
  .next (scalarPut (.fltst f d fl) f 1 d (fun x s => ⟨ofBool ((s.core x.c).flags.getLsbD fl.val), false⟩) s)

/-! ### Counters (06 R139, R150) -/

def execTick (f : Frame) (d : XReg) (s : State) : Out :=
  .next (scalarPut (.tick f d) f 1 d (fun x _ => ⟨BitVec.ofNat 64 x.t, false⟩) s)

/-- The view of WALL of a core's region at this moment: within ±2 ns of every other region's (06 R139, 01 R14). -/
def State.wallView (s : State) (c : Nat) : Word :=
  BitVec.ofInt 64 ((s.wall : Int) + (Config.wallSkew (c / 16) s.wall % 3 : Nat) - 1)

def execWall (f : Frame) (d : XReg) (s : State) : Out :=
  .next (scalarPut (.wall f d) f 1 d (fun x s => ⟨s.wallView x.c, false⟩) s)

/-! ### System words (06 R151 to R153, 18 R340, R341) -/

/-- TRAP raises the software trap with freeze tick t + 1; in a handler run it is a condition of the handler word. -/
def execTrap (f : Frame) (n : BitVec 46) (s : State) : Out :=
  .next (nativeWord .s (.trap f n) f
    (fun x _ => .when x.handler (.trap .softwareTrap (n.setWidth 64)))
    (fun x s => s.addCond x.p ⟨x.t + 1, .softwareTrap, x.who, n.setWidth 64, .continue_⟩) s)

/-- TRET and TEN are legal only in handler mode (06 R152). -/
def handlerOnly (x : Ctx) : Probe := .when (!x.handler) (.trap .illegalEncoding x.who.word)

def execTret (f : Frame) (s : State) : Out :=
  .next (nativeWord .s (.tret f) f (fun x _ => handlerOnly x)
    (fun x s => if x.handler then s.trapReturn x.p x.c else s) s)

def execTen (f : Frame) (s : State) : Out :=
  .next (nativeWord .s (.ten f) f (fun x _ => handlerOnly x)
    (fun x s => if x.handler then s.modCore x.c fun k => { k with msk := false } else s) s)

def execCsrr (f : Frame) (d : XReg) (csr : BitVec 41) (s : State) : Out :=
  .next (scalarPut (.csrr f d csr) f 1 d (fun x s => ⟨s.csr x.p x.c csr.toNat, false⟩) s)

def execCsrw (f : Frame) (a : XReg) (csr : BitVec 41) (s : State) : Out :=
  .next (nativeWord .s (.csrw f a csr) f (fun x s => poisonProbe x ((s.core x.c).getX a.val))
    (fun x s => s.later x (x.t + 1) (.csr csr.toNat ((s.core x.c).getX a.val).v)) s)

end Sys2Proof.Machine
end

