-- ==== Sys2Proof/Machine/Control.lean ====
section
/-! DEFINITION. Control: waits, decisions, loops, calls, STOP, barriers, PULSE and SPAWN, with the events that carry
them out at their ticks (05), and the events that end a freeze (01 R27, R405). -/

namespace Sys2Proof.Machine

/-! ### Switching streams (05 R99, R107) -/

/-- Every cluster of every core starts the block at offset 0 on this tick. -/
def State.startBlock (s : State) (p : Nat) (b : BlockRef) : State :=
  let blk := s.block p b
  let t := (s.part p).tick
  let one (k : Core) (cl : Cluster) : Core :=
    k.setCursor cl ⟨b, 0, if (blockStream blk cl).isEmpty then none else some t⟩
  (s.modPart p fun k => { k with thread := none }).modCores (s.part p).cores fun k => one (one (one (one k .s) .a) .v) .m

/-- No cluster issues. -/
def State.idleCursors (s : State) (p : Nat) : State :=
  s.modCores (s.part p).cores fun k =>
    { k with cursors := k.cursors.map fun e => (e.1, { e.2 with next := none }) }

/-- The stub of a continuation that names a portable function not yet translated (18 R345). -/
def State.pendingStub (s : State) (p c : Nat) : Option Nat :=
  match s.stub p c with
  | some fn => if s.untranslated p fn then some fn else none
  | none => none

/-- Switch to a continuation: its streams, or the portable function its slot holds (21 R384). -/
def State.switchCont (s : State) (p c : Nat) : State :=
  match s.stub p c with
  | some fn =>
    let s := (s.idleCursors p).useFn p fn
    s.modPart p fun k => { k with thread := some ⟨fn, 0, false, [], none, k.tick⟩ }
  | none => s.startBlock p (.cont c)

/-! ### Decisions (05 R97, R98) -/

def signedMax (a b : Word) : Word := if a.slt b then b else a
def signedMin (a b : Word) : Word := if b.slt a then b else a

/-- The combined value of the cores' values in core order. -/
def combineVotes (comb : BitVec 3) : List Word → Word
  | [] => 0
  | v :: l =>
    match comb.toNat with
    | 0 => v
    | 1 => l.foldl signedMax v
    | 2 => l.foldl signedMin v
    | 3 => l.foldl (· ||| ·) v
    | 4 => l.foldl (· &&& ·) v
    | _ => l.foldl (· + ·) v

def caseMatches (c : Case) (v : Word) : Bool :=
  match c.kind.toNat with
  | 0 => v == c.lo
  | 1 => c.lo.sle v && v.sle c.hi
  | _ => c.lo.ule v && v.ule c.hi

/-- The continuation an entry chooses for a combined value. -/
def chooseCase (e : DecisionEntry) (v : Word) : Option Nat :=
  match e.cases.find? fun c => caseMatches c v with
  | some c => some c.cont
  | none => e.dflt

/-- What a decision-class operation decides at its switch tick (05 R102, R122 to R125). -/
inductive Decision where
  | switch (cont : Nat)
  | enter (l : Nat) (n : Word)
  | call (target ret : Nat)
  | back
  | fault (c : Cls) (status : Word)
  deriving DecidableEq, Repr

def poisonedVote (l : List (Nat × PWord)) : Option Nat := (l.find? fun e => e.2.p).map (·.1)

def decideEntry (e : Option DecisionEntry) (votes : List (Nat × PWord)) : Decision :=
  match e with
  | none => .fault .decisionMiss 0
  | some e =>
    let v := combineVotes e.comb (votes.map fun x => x.2.v)
    match chooseCase e v with
    | some c => .switch c
    | none => .fault .decisionMiss v

def State.outcome (s : State) (p : Nat) (d : Pending) : Decision :=
  let k := s.part p
  let entry (i : Nat) : Option DecisionEntry := (s.objOf p).bind fun o => lookupId o.decisions i
  match d.kind with
  | .decide i =>
    match poisonedVote d.votes with
    | some c => .fault .scheduleMiss (BitVec.ofNat 64 c)
    | none => decideEntry (entry i) d.votes
  | .chkp i => decideEntry (entry i) d.votes
  | .loop l =>
    let n := match d.votes with | v :: _ => v.2.v | [] => 0
    match poisonedVote d.votes with
    | some c => .fault .scheduleMiss (BitVec.ofNat 64 c)
    | none =>
      match d.votes.find? fun v => v.2.v != n with
      | some v => .fault .divergence (BitVec.ofNat 64 v.1)
      | none =>
        if n = 0 then .switch (((s.objOf p).bind fun o => lookupId o.loops l).getD loopEmpty).skip
        else if 8 ≤ k.loops.length then .fault .returnStack 2
        else .enter l n
  | .call t r => if 16 ≤ k.rets.length then .fault .returnStack 0 else .call t r
  | .ret => if k.rets.isEmpty then .fault .returnStack 1 else .back

/-- The clusters whose body the loop buffers capture: 512 words with the bodies already captured (05 R112). -/
def captureBody (outer : List Level) (b : Block) : List Nat :=
  [Cluster.s, .a, .v, .m].filterMap fun cl =>
    let used := outer.foldl (fun acc l =>
      acc + if l.captured.contains (clNum cl) then (blockStream l.entry.body cl).length else 0) 0
    if (blockStream b cl).length + used ≤ 512 then some (clNum cl) else none

/-- The bodies of a loop nest that becomes active as a whole, captured from the outermost inwards (05 R112, 18 R351). -/
def captureAll : List Level → List Level
  | [] => []
  | l :: outer =>
    let outer := captureAll outer
    { l with captured := captureBody outer l.entry.body } :: outer

/-- At a loop's boundary the bodies that a trap has released are captured again; one that never fitted stays out (05 R112). -/
def Level.recapture (l : Level) : Level := { l with captured := l.captured ++ l.released, released := [] }

/-- Take a waiting pre-emption request at the beginning of a period of a pre-emptible innermost loop (05 R113). -/
def takePreempt (k : Part) : Part :=
  match k.preempt, k.loops with
  | some r, l :: _ =>
    if !r.taken && l.entry.pre && k.trap.isNone then
      { k with preempt := some { r with taken := true, level := k.loops.length, k0 := min l.period l.count.toNat } }
    else k
  | _, _ => k

/-- Whether the drain begins where the next period would (18 R347): `next` is that period's number. -/
def drainStarts (k : Part) (next : Nat) : Bool :=
  match k.preempt, k.loops with
  | some r, l :: _ => k.atPreempt && decide (r.k0 + l.entry.stages - 1 ≤ next)
  | _, _ => false

def Part.startDrain (k : Part) : Part := { k with preempt := k.preempt.map fun r => { r with drain := true } }

/-- A loop becomes active and its period 0 begins (05 R106, R107, R112). -/
def State.enterLoop (s : State) (p l : Nat) (n : Word) : State :=
  let e := ((s.objOf p).bind fun o => lookupId o.loops l).getD loopEmpty
  let s := s.modPart p fun k => takePreempt
    { k with loops := ⟨l, e, n, 0, 0, k.rets.length, captureBody k.loops e.body, 0, true, []⟩ :: k.loops }
  if drainStarts (s.part p) 0 then (s.modPart p Part.startDrain).idleCursors p else s.startBlock p (.body l)

/-- Return to what the top of the stacks names. -/
def State.goBack (s : State) (p : Nat) : RetEntry → State
  | .cont i => s.switchCont p i
  | .portable fn off launch =>
    let s := (s.idleCursors p).useFn p fn
    s.modPart p fun k => { k with thread := some ⟨fn, off, launch, [], none, k.tick⟩ }

/-- The continuation a decision would switch to. -/
def State.target (s : State) (p : Nat) : Decision → Option Nat
  | .switch c => some c
  | .call t _ => some t
  | .back => match (s.part p).rets with
    | .cont i :: _ => some i
    | _ => none
  | _ => none

/-- The switch tick of a decision-class operation (05 R99, R102, 18 R346). -/
def State.decisionSwitch (s : State) (p : Nat) : State :=
  let k := s.part p
  match k.decision with
  | none => s
  | some d =>
    if k.tick ≠ d.issue + delta k.n then s
    else
      let o := s.outcome p d
      match (s.target p o).bind fun c => s.pendingStub p c with
      | some fn => s.addCond p ⟨k.tick, .translationPending, d.who, BitVec.ofNat 64 fn, .retry⟩
      | none =>
        let s := s.modPart p fun k => { k with decision := none }
        match o with
        | .fault c v => s.addCond p ⟨k.tick, c, d.who, v, .continue_⟩
        | .switch c => s.switchCont p c
        | .call t r => (s.modPart p fun k => { k with rets := .cont r :: k.rets }).switchCont p t
        | .back =>
          match k.rets with
          | [] => s
          | r :: l => (s.modPart p fun k => { k with rets := l }).goBack p r
        | .enter l n => s.enterLoop p l n

def execDecisionSwitch (p : Nat) (s : State) : Out := .next (s.popEvent.decisionSwitch p)

/-! ### Loop boundaries and exits (05 R106 to R113) -/

/-- Cut the return stacks back to a depth; the top is first. -/
def cutStack (l : List RetEntry) (depth : Nat) : List RetEntry := l.drop (l.length - depth)

/-- A decision that would switch at or after a boundary is an overlap: it is dropped, and no word of the old streams
issues on the boundary tick (05 R107, R108). -/
def State.overlapAt (s : State) (p : Nat) (d : Pending) : State :=
  ((s.modPart p fun k => { k with decision := none, thread := none }).idleCursors p).addCond p
    ⟨(s.part p).tick, .decisionOverlap, d.who, d.who.word, .undecide p⟩

def State.iterationBoundary (s : State) (p : Nat) : State :=
  let k := s.part p
  match k.loops with
  | [] => s
  | l :: outer =>
    if !l.begun then
      if k.resumeAt ≠ some k.tick then s
      else
        let s := s.modPart p fun k =>
          takePreempt { k with loops := captureAll ({ l with begun := true } :: outer), resumeAt := none }
        if drainStarts (s.part p) l.period then (s.modPart p Part.startDrain).idleCursors p
        else s.startBlock p (.body l.id)
    else if l.clock ≠ (l.period + 1) * l.entry.period || l.count.toNat + l.entry.stages - 1 ≤ l.period + 1 then s
    else match k.decision with
      | some d => s.overlapAt p d
      | none =>
        let l := { l.recapture with period := l.period + 1 }
        let s := s.modPart p fun k => takePreempt { k with loops := l :: outer, rets := cutStack k.rets l.depth }
        if drainStarts (s.part p) l.period then (s.modPart p Part.startDrain).idleCursors p
        else s.startBlock p (.body l.id)

def execIterationBoundary (p : Nat) (s : State) : Out := .next (s.popEvent.iterationBoundary p)

def State.loopExit (s : State) (p : Nat) : State :=
  let k := s.part p
  match k.loops with
  | [] => s
  | l :: outer =>
    let periods := l.count.toNat + l.entry.stages - 1
    if !l.begun || l.clock ≠ periods * l.entry.period || l.period + 1 ≠ periods then s
    else match k.decision with
      | some d => s.overlapAt p d
      | none =>
        if drainStarts k periods then (s.modPart p Part.startDrain).idleCursors p
        else match s.pendingStub p l.entry.exit with
          | some fn => s.addCond p ⟨k.tick, .translationPending, s.hubWho p, BitVec.ofNat 64 fn, .retry⟩
          | none =>
            (s.modPart p fun k => { k with loops := outer, rets := cutStack k.rets l.depth }).switchCont p l.entry.exit

def execLoopExit (p : Nat) (s : State) : Out := .next (s.popEvent.loopExit p)

/-! ### Decision-class words -/

/-- One core's part in a decision-class operation (05 R99 to R101). The words of the other cores of this tick add
theirs. -/
def State.vote (s : State) (x : Ctx) (kind : DecisionKind) (v : PWord) : State :=
  s.modPart x.p fun k =>
    match k.decision with
    | some d => if d.issue = x.t then { k with decision := some { d with votes := d.votes ++ [(x.c, v)] } } else k
    | none => { k with decision := some ⟨kind, x.t, x.who, [(x.c, v)]⟩ }

def execDecide (f : Frame) (a : XReg) (d : BitVec 8) (s : State) : Out :=
  .next (nativeWord .s (.decide f a d) f (fun _ _ => .ok)
    (fun x s => s.vote x (.decide d.toNat) ((s.core x.c).getX a.val)) s)

def execLoop (f : Frame) (a : XReg) (l : BitVec 8) (s : State) : Out :=
  .next (nativeWord .s (.loop f a l) f (fun _ _ => .ok)
    (fun x s => s.vote x (.loop l.toNat) ((s.core x.c).getX a.val)) s)

def execCall (f : Frame) (target ret : BitVec 12) (s : State) : Out :=
  .next (nativeWord .s (.call f target ret) f (fun _ _ => .ok)
    (fun x s => s.vote x (.call target.toNat ret.toNat) Pv.zero) s)

def execRet (f : Frame) (s : State) : Out :=
  .next (nativeWord .s (.ret f) f (fun _ _ => .ok) (fun x s => s.vote x .ret Pv.zero) s)

/-- CHKP reads the poison-seen bit and clears it on the same tick (05 R117, R125). -/
def execChkp (f : Frame) (d : BitVec 8) (s : State) : Out :=
  .next (nativeWord .s (.chkp f d) f (fun _ _ => .ok) (fun x s =>
    let b := (s.core x.c).poisonSeen
    (s.modCore x.c fun k => { k with poisonSeen := false }).vote x (.chkp d.toNat) ⟨ofBool b, false⟩) s)

/-- WAIT adds n to the gap before the next S word; in a handler run it is a NOP (05 R121, 18 R340). -/
def execWait (f : Frame) (n : BitVec 46) (s : State) : Out :=
  .next (nativeWord .s (.wait f n) f (fun _ _ => .ok) (fun x s =>
    if x.handler then s else s.modCore x.c fun k =>
      let cur := k.cursor .s
      k.setCursor .s { cur with next := cur.next.map (· + n.toNat) }) s)

/-- STOP: nothing issues after this tick, and a pending decision is abandoned (05 R126). -/
def execStop (f : Frame) (s : State) : Out :=
  .next (nativeWord .s (.stop f) f (fun _ _ => .ok)
    (fun x s => s.modPart x.p fun k => { k with stop := some x.t, decision := none }) s)

/-- PULSE restarts the pulse interval (05 R128). -/
def execPulse (f : Frame) (s : State) : Out :=
  .next (nativeWord .s (.pulse f) f (fun _ _ => .ok)
    (fun x s => s.modPart x.p fun k => { k with pulseAt := x.t }) s)

/-- SPAWN arms a launch entry at t + 2, once for all the cores that name it on one tick (05 R129). -/
def execSpawn (f : Frame) (n : BitVec 46) (s : State) : Out :=
  .next (nativeWord .s (.spawn f n) f (fun _ _ => .ok) (fun x s =>
    if (s.part x.p).pend.any fun d => d.tick == x.t + 2 && d.act == .arm n.toNat then s
    else s.later x (x.t + 2) (.arm n.toNat)) s)

/-! ### Barriers (05 R118 to R120, R127, 16 R328, R329, 19 R363) -/

def State.groupWord (s : State) (g : Nat) : Nat := (tget (0 : Word) s.groups g).toNat
def groupValid (w : Nat) : Bool := bitAt w 0 == 1
def groupPod (w : Nat) : Bool := bitAt w 1 == 1
def groupLocal (w : Nat) : Nat := fld w 2 16
def groupTotal (w : Nat) : Nat := fld w 18 16

/-- Whether an entry's word 1 names the group, in a state in which it is a member. -/
def Entry.inGroup (e : Entry) (g : Nat) : Bool :=
  let w := (tget (0 : Word) e.words 1).toNat
  bitAt w 19 == 1 && fld w 20 8 == g && decide (1 ≤ e.state.toNat) && decide (e.state.toNat ≤ 4)

/-- The cores of the group's members: first and last of each. -/
def State.groupCores (s : State) (g : Nat) : List (Nat × Nat) :=
  (s.entries.filter fun e => e.2.inGroup g).map fun e =>
    let w := (tget (0 : Word) e.2.words 1).toNat
    (fld w 0 11, fld w 0 11 + 2 ^ fld w 11 4 - 1)

/-- Cores in one unit of a level (01 R21). -/
def unitSize : Scope → Nat
  | .cl | .co => 1
  | .qd => 4
  | .di => 128
  | .pk | .pd => 2048

def oneUnit (sc : Scope) (l : List (Nat × Nat)) : Bool :=
  match l with
  | [] => true
  | (a, _) :: _ => l.all fun e => e.1 / unitSize sc == a / unitSize sc && e.2 / unitSize sc == a / unitSize sc

/-- The checks of R119 and R120 at issue. -/
def State.barProbe (s : State) (x : Ctx) (id : Nat) (sc : Scope) (join : Join) : Probe :=
  let w := s.groupWord id
  let k := s.part x.p
  let elsewhere := join == .align &&
    (s.parts.any fun e => e.2.group == some id && (match e.2.join with | some j => j != id | none => false))
  .when (!groupValid w || k.group != some id || sc == .cl || !oneUnit sc (s.groupCores id) ||
      (groupPod w && sc != .pd) || (join == .align && groupPod w) || elsewhere)
    (.trap .reservedField x.who.word)

/-- The frame that tells a module of a pod group of an arrival (16 R328). -/
def barrierPacket (dmod : BitVec 8) (mod base wall g : Nat) : Packet where
  kind := 6
  nfl := 0
  dmod := dmod
  dcore := 0
  smod := BitVec.ofNat 8 mod
  score := BitVec.ofNat 11 base
  doff := 0
  len := 63
  tag := BitVec.ofNat 16 (g % 256)
  idx := 0
  n := 0
  op := 0
  rsv := 0
  flits := [BitVec.ofNat 512 (mod + 2 ^ 64 * base + 2 ^ 128 * wall)]

/-- An arrival of this module is told to every other module of the group (16 R328). -/
def State.tellModules (s : State) (base g : Nat) : State :=
  ((Config.groupModules g).filter fun m => m.toNat != s.modNum).foldl
    (fun s m => s.send (barrierPacket m s.modNum base s.wall g)) s

/-- Two arrivals of one member. -/
def Arrival.sameMember (a b : Arrival) : Bool := a.part == b.part && a.mod == b.mod && a.base == b.base

/-- The arrivals that a release counts, the first of each member, and those of a later release that have come already
(16 R329). -/
def roundOf (l : List Arrival) : List Arrival × List Arrival :=
  l.foldl (fun r a => if r.1.any a.sameMember then (r.1, r.2 ++ [a]) else (r.1 ++ [a], r.2)) ([], [])

/-- An arrival, or the divergence of a join code that differs from the first member's (05 R118). -/
def State.barArrive (s : State) (x : Ctx) (id : Nat) (join : Join) : State :=
  let l : List Arrival := tget [] s.arrivals id
  let k := s.part x.p
  if l.any fun a => a.part == some x.p then s
  else
    let differs := match l.find? fun a => a.part.isSome with
      | some a => a.join != join
      | none => false
    if differs then s.addCond x.p ⟨x.t + 1, .divergence, x.who, x.who.word, .continue_⟩
    else
      let s := { s with arrivals := tput s.arrivals id (l ++ [(⟨some x.p, s.modNum, k.base, s.wall, s.wall, join⟩ : Arrival)]) }
      let s := s.addWait x.p (.barrier id)
      if groupPod (s.groupWord id) then s.tellModules k.base id else s

def execBar (f : Frame) (id : BitVec 8) (scope : Scope) (join : Join) (s : State) : Out :=
  .next (nativeWord .s (.bar f id scope join) f (fun x s => s.barProbe x id.toNat scope join)
    (fun x s => s.barArrive x id.toNat join) s)

/-- Take one freeze cause away; the partition moves again when none is left, and its freeze count restarts when a tick
ends (19 R370). -/
def Part.clearWait (k : Part) (w : Wait) : Part :=
  { k with waits := k.waits.filter (· != w), served := k.served ++ [w] }

/-- Release the members that arrived (05 R118, R120). -/
def State.releaseGroup (s : State) (g : Nat) (late : Bool) : State :=
  let (l, next) := roundOf (tget [] s.arrivals g)
  let join := match l.find? fun a => a.part.isSome with | some a => a.join | none => .none
  let s := l.foldl (fun s a =>
    match a.part with
    | none => s
    | some p =>
      let s := s.modPart p fun k =>
        let k := k.clearWait (.barrier g)
        match join with
        | .align => { k with join := some g }
        | .unjoin => { k with join := none }
        | .none => k
      if late then s.modEntry p fun e => { e with late := true } else s) s
  { s with arrivals := tset [] s.arrivals g next }

/-- Whether every member of a group of this module has arrived. -/
def State.barrierFull (s : State) (g : Nat) : Bool :=
  let w := s.groupWord g
  groupValid w && !groupPod w && decide (0 < (tget [] s.arrivals g).length) &&
    decide (groupLocal w ≤ (tget [] s.arrivals g).length)

/-- The next alignment point at or after a WALL value (19 R362). -/
def alignUp (w : Nat) : Nat := (w + 999) / 1000 * 1000

/-- Whether the module's links run Y2.0 (16 R324). -/
def State.yelnarTwo (s : State) : Bool := s.ports.any fun e => e.2.up && e.2.version == some (2, 0)

def State.podFull (s : State) (g : Nat) : Bool :=
  let w := s.groupWord g
  groupValid w && groupPod w && decide (0 < groupTotal w) && decide (groupTotal w ≤ (roundOf (tget [] s.arrivals g)).1.length)

/-- WALL at which a complete pod group releases (16 R329): under Y2.0 the first alignment edge at or after the
largest arrival plus 2 µs, under Y1.2 the first after the count completes. -/
def State.podTarget (s : State) (g : Nat) : Nat :=
  let l := (roundOf (tget [] s.arrivals g)).1
  let seen := l.foldl (fun m a => max m a.seen) 0
  if s.yelnarTwo then max (alignUp (l.foldl (fun m a => max m a.wall) 0 + 2000)) seen else alignUp (seen + 1)

def State.podLate (s : State) (g : Nat) : Bool :=
  let l := (roundOf (tget [] s.arrivals g)).1
  s.yelnarTwo && decide (alignUp (l.foldl (fun m a => max m a.wall) 0 + 2000) < l.foldl (fun m a => max m a.seen) 0)

/-! ### Watchdogs (05 R128, 19 R370, 18 R338) -/

/-- The pulse interval expires on this tick. Whether it still runs after a STOP the manual does not say: here it does not
(DESIGN CHOICE, log entry 67). -/
def Part.pulseDue (k : Part) : Bool := k.pulse != 0 && decide (k.pulseAt + k.pulse ≤ k.tick) && k.stop.isNone

def execPulseIntervalExpiry (p : Nat) (s : State) : Out :=
  let s := s.popEvent
  let k := s.part p
  .next (if k.pulseDue then
      s.addCond p ⟨k.tick, .watchdogPulse, s.hubWho p, BitVec.ofNat 64 k.pulse, .pulse p⟩
    else s)

/-- The freeze limit in ns (19 R359). -/
def Part.limitNs (k : Part) : Nat := (if k.flim = 0 then 100000 else k.flim) * 1000

/-- The cause of a watchdog-freeze trap (18 R338): the partition's own freeze, or that of a member of its group. -/
def State.freezeCause (s : State) (p : Nat) : Nat :=
  let k := s.part p
  let own (w : Wait) : Nat :=
    match w with
    | .queue _ _ | .queueNever => 1
    | .epop _ _ _ | .epopNever => 2
    | .window _ _ => 3
    | .barrier _ => 4
    | _ => 6
  let l := s.members p
  if l.any fun q => (s.part q).cores.any fun c => (s.core c).hm then 5
  else match k.waits ++ l.flatMap fun q => (s.part q).waits with
    | w :: _ => own w
    | [] => 6

/-- A HOST-routed trap in force: the host already holds the partition. -/
def Part.hostHeld (k : Part) : Bool := match k.trap with | some t => !t.localRoute | none => false

/-- The group stands still at a tick. -/
def State.groupStill (s : State) (p : Nat) : Bool := (s.members p).any fun q => (s.part q).still

/-- WALL at which the freeze check of a partition fires (19 R370): the count runs while the partition's ticks stand still
by any cause of its group, but for a trap that the host holds. -/
def State.limitAt (s : State) (p : Nat) : Option Nat :=
  let k := s.part p
  match k.countFrom with
  | some w => if (s.members p).any (fun q => (s.part q).hostHeld) || !s.groupStill p then none else some (w + k.limitNs - k.counted)
  | none => none

def execFreezeLimitExpiry (p : Nat) (s : State) : Out :=
  let s := s.popEvent
  let k := s.part p
  match s.limitAt p with
  | some w =>
    if w ≤ s.wall then
      let status := BitVec.ofNat 64 ((if k.flim = 0 then 100000 else k.flim) % 2 ^ 32 + s.freezeCause p * 2 ^ 32)
      let old := match k.trap with | some t => t.fixes | none => []
      let c : TrapCond := ⟨k.tick, .watchdogFreeze, s.hubWho p, status, .continue_⟩
      .next (s.trapOf p (c :: s.condsNow p) fun d => if d.cls = .watchdogFreeze then d.fix :: old else [d.fix])
    else .next s
  | none => .next s

/-! ### Freezes that clear by themselves (01 R27, R405) -/

/-- The first freeze cause of a kind. -/
def Part.findWait (k : Part) (f : Wait → Bool) : Option Wait := k.waits.find? f

def State.clearKind (s : State) (p : Nat) (f : Wait → Bool) : State :=
  match (s.part p).findWait f with
  | some w => s.modPart p fun k => k.clearWait w
  | none => s

def execLateDataArrival (p : Nat) (s : State) : Out :=
  .next (s.popEvent.clearKind p fun w => match w with | .late _ _ => true | _ => false)

def execBankPortServiceDone (p : Nat) (s : State) : Out :=
  .next (s.popEvent.clearKind p fun w => match w with | .bank => true | _ => false)

/-- An entry of a full load or store queue retires: its access has performed (07 R170). -/
def execLsqEntryRetire (p : Nat) (s : State) : Out :=
  let s := s.popEvent
  match (s.part p).findWait fun w => match w with | .lsq _ _ => true | _ => false with
  | some (.lsq c st) =>
    let s := s.modCore c fun k => { k with lsq := (k.lsq.eraseP fun e => e.store == st) }
    .next (s.modPart p fun k => k.clearWait (.lsq c st))
  | _ => .next s

/-- The entry a pop waits for is delivered in wall time: it has landed when the words of the tick issue (06 R137). -/
def State.deliver (s : State) (p c q : Nat) : State :=
  match ((s.core c).getQueue q).find? fun e => !e.landed with
  | none => s
  | some e =>
    let mine (d : Due) : Bool := d.who.core == c && (match d.act with | .queue q' id _ _ => q' == q && id == e.id | _ => false)
    match (s.part p).pend.find? mine with
    | some d => (s.modCore c fun k => k.land d.act).modPart p fun k => { k with pend := k.pend.filter (!mine ·) }
    | none => s

def execQueueEntryDelivered (p : Nat) (s : State) : Out :=
  .next (s.popEvent.clearKind p fun w => match w with | .queue _ _ => true | _ => false)

/-- Whether two writes of one core name bytes in common. -/
def Due.meets (d e : Due) : Bool :=
  d.who.core == e.who.core && (d.act.writes d.tick d.who.core).any fun v => (e.act.writes e.tick e.who.core).any fun w =>
    locOverlap v.1 v.2.1 w.1 w.2.1

/-- Of the late writes of a core to bytes in common the oldest arrives first (15 R308): `l` lists those before `d`, last
first. -/
def oldestLate : Due → List Due → Due
  | d, [] => d
  | d, e :: l => oldestLate (if d.meets e then e else d) l

/-- A late write of a loose partition, any of them, reaches its location: it lands as an arrival (07 R169). -/
def execLateWritePerform (p : Nat) (s : State) : Out :=
  let s := s.popEvent
  let l := (s.part p).lateWrites
  let (n, s) := s.draw
  let i := Config.nextTurn n % l.length
  match listNth l i with
  | none => .next s
  | some d =>
    let d := oldestLate d (l.take i).reverse
    .next ((s.modPart p fun k => { k with lateWrites := l.erase d }).addDue p { d with place := 9 })

end Sys2Proof.Machine
end

