-- ==== Sys2Proof/Machine/Access.lean ====
section
/-! DEFINITION. The A cluster: coordinate arithmetic, table words, loads and stores, gathers and scatters, atomics,
fences, scalar queue words and noise-slot words (07 R179 to R191), with their sampling and landing. -/

namespace Sys2Proof.Machine

/-! ### Coordinate arithmetic (07 R179) -/

/-- A word of two c registers. -/
def coordRR (i : Instr) (f : Frame) (lat : Nat) (d a b : Num4) (g : Word → Word → Word) : State → State :=
  nativeWord .a i f (fun _ _ => .ok) fun x s =>
    let u := (s.core x.c).getC a.val
    let v := (s.core x.c).getC b.val
    s.later x (x.t + lat) (.c d.val ⟨g u.v v.v, u.p || v.p⟩)

def execCadd (f : Frame) (d a b : Num4) (s : State) : Out := .next (coordRR (.cadd f d a b) f 1 d a b (· + ·) s)
def execCsub (f : Frame) (d a b : Num4) (s : State) : Out := .next (coordRR (.csub f d a b) f 1 d a b (· - ·) s)
def execCmul (f : Frame) (d a b : Num4) (s : State) : Out := .next (coordRR (.cmul f d a b) f 3 d a b (· * ·) s)
def execCand (f : Frame) (d a b : Num4) (s : State) : Out := .next (coordRR (.cand f d a b) f 1 d a b (· &&& ·) s)
def execCor (f : Frame) (d a b : Num4) (s : State) : Out := .next (coordRR (.cor f d a b) f 1 d a b (· ||| ·) s)
def execCshl (f : Frame) (d a b : Num4) (s : State) : Out := .next (coordRR (.cshl f d a b) f 1 d a b shiftLeft s)
def execCshr (f : Frame) (d a b : Num4) (s : State) : Out := .next (coordRR (.cshr f d a b) f 1 d a b shiftRight s)
def execCmin (f : Frame) (d a b : Num4) (s : State) : Out :=
  .next (coordRR (.cmin f d a b) f 1 d a b (fun u v => if v.slt u then v else u) s)
def execCmax (f : Frame) (d a b : Num4) (s : State) : Out :=
  .next (coordRR (.cmax f d a b) f 1 d a b (fun u v => if u.slt v then v else u) s)
def execCaddi (f : Frame) (d a : Num4) (imm : BitVec 38) (s : State) : Out :=
  .next (nativeWord .a (.caddi f d a imm) f (fun _ _ => .ok) (fun x s =>
    let u := (s.core x.c).getC a.val
    s.later x (x.t + 1) (.c d.val ⟨u.v + imm.signExtend 64, u.p⟩)) s)
def execClimm (f : Frame) (d : Num4) (imm : BitVec 42) (s : State) : Out :=
  .next (nativeWord .a (.climm f d imm) f (fun _ _ => .ok)
    (fun x s => s.later x (x.t + 1) (.c d.val ⟨imm.signExtend 64, false⟩)) s)

/-! ### Access numbers and table words (07 R180, R181) -/

/-- A fresh access number, from 1 up (log entry 2). -/
def State.nextSeq (s : State) (p : Nat) : State × Nat :=
  let n := (s.part p).seq + 1
  (s.modPart p fun k => { k with seq := n }, n)

/-- The checks of an offset operand of `size` bytes: poison, alignment and range (07 R180, R181). -/
def offsetProbe (x : Ctx) (v : PWord) (size : Nat) : Probe :=
  (poisonProbe x v).andThen
    (.when (v.v.toNat % size != 0 || decide (327680 < v.v.toNat + size)) (.trap .layoutBound (boundOffset v.v)))

/-- LAYSET and STSET: the pocket bytes are sampled at t + ⌊L/2⌋ and land in the table at t + L. For fences, QMARK, orders and queue
places a table word counts as no load or store (DESIGN CHOICE, log entry 95). -/
def tableSet (i : Instr) (f : Frame) (a : Num4) (size : Nat) (isLt : Bool) (n : Nat) : State → State :=
  nativeWord .a i f (fun x s => offsetProbe x ((s.core x.c).getC a.val) size) fun x s =>
    let l := ownPocket (s.part x.p).loose
    let (s, m) := s.nextSeq x.p
    s.sampleAt x (x.t + l / 2)
      (.sampleTable ⟨.pocket x.c ((s.core x.c).getC a.val).v.toNat, 0xF, m, false, x.t + l, [], false⟩ isLt n)

/-- LAYGET and STGET: the entry is sampled at t, its reserved bits as 0 (00 R8), and its bytes land at t + ⌊L/2⌋, as a store, with the
exceptions of log entry 95. -/
def tableGet (i : Instr) (f : Frame) (a : Num4) (size : Nat) (entry : Core → Row) : State → State :=
  nativeWord .a i f (fun x s => offsetProbe x ((s.core x.c).getC a.val) size) fun x s =>
    let l := ownPocket (s.part x.p).loose
    let v := entry (s.core x.c)
    let (s, n) := s.nextSeq x.p
    s.later x (x.t + l / 2)
      (.write ⟨.pocket x.c ((s.core x.c).getC a.val).v.toNat, 0xF, n, false, x.t + l / 2, [], false⟩ v
        (BitVec.ofNat 512 (2 ^ (8 * size) - 1)) false)

def execLayset (f : Frame) (lt : Fin 64) (a : Num4) (s : State) : Out :=
  .next (tableSet (.layset f lt a) f a 64 true lt.val s)
def execLayget (f : Frame) (lt : Fin 64) (a : Num4) (s : State) : Out :=
  .next (tableGet (.layget f lt a) f a 64 (fun k => readLt (k.getLt lt.val)) s)
def execStset (f : Frame) (st a : Num4) (s : State) : Out :=
  .next (tableSet (.stset f st a) f a 32 false st.val s)
def execStget (f : Frame) (st a : Num4) (s : State) : Out :=
  .next (tableGet (.stget f st a) f a 32 (fun k => (readSt (k.getSt st.val)).setWidth 512) s)

/-- STADV adds c[a] × step to the cursor, wrapping to 32 bits, and wraps it as R165 says. -/
def execStadv (f : Frame) (st a : Num4) (s : State) : Out :=
  .next (nativeWord .a (.stadv f st a) f
    (fun x s =>
      let (r, l) := (s.core x.c).stream st.val
      (layProbe x.who.word r l .other true (fun _ => true)).andThen (poisonProbe x ((s.core x.c).getC a.val)))
    (fun x s =>
      let (r, l) := (s.core x.c).stream st.val
      let n := ((s.core x.c).getC a.val).v.toInt
      s.later x (x.t + 1) (.cursor st.val (packCursor (advanceBy r l (r.step.map fun z => sgn 32 (unsgn 32 (n * z))))))) s)

def execStrst (f : Frame) (st : Num4) (s : State) : Out :=
  .next (nativeWord .a (.strst f st) f
    (fun x s => .when (strOf ((s.core x.c).getSt st.val)).reserved (.trap .reservedField x.who.word))
    (fun x s => s.later x (x.t + 1) (.cursor st.val 0)) s)

/-! ### Ticks of an access (07 R167, R183, R188, R189) -/

/-- When an access is timed from, what it leaves for later ones, and the completion ticks of the fences that its order modifiers
stand for: of a release after loads and after stores, and of an acquire. -/
structure Timing where
  base : Nat
  core : Core
  relL : Nat
  relS : Nat
  acq  : Nat
  deriving DecidableEq, Repr

/-- The tick an access is timed from: behind fences, QMARK and its own order modifiers. `first` and `last` are the
distances from there to its first and last sampling or landing tick. -/
def accessTiming (loose : Bool) (k : Core) (t first last : Nat) (o : Order) (sc : Scope) (ld st : Bool) : Timing :=
  let f := t + fenceTime loose sc
  let rel := o == .rel || o == .ar
  let acq := o == .acq || o == .ar
  let afterS := if rel then max k.afterS (max f (max k.lastL k.lastS)) else k.afterS
  let base := max t (max (if ld then k.afterL else 0) (if st then afterS else 0))
  let base := if ld && decide (base + first < k.qmark) then k.qmark else base
  let lastL := if ld then max k.lastL (base + last) else k.lastL
  let lastS := if st then max k.lastS (base + last) else k.lastS
  let c := max f lastL
  ⟨base, { k with lastL := lastL, lastS := lastS
                  afterL := if acq then max k.afterL c else k.afterL
                  afterS := if acq then max afterS c else afterS }, max f k.lastL, max f k.lastS, c⟩

/-- An access of the load or store queue finds a place, or freezes (07 R170). -/
def State.lsqProbe (s : State) (x : Ctx) (store : Bool) : Probe :=
  let n := ((s.core x.c).lsq.filter fun e => e.store == store && decide (x.t < e.tick)).length
  .when (decide (32 ≤ n)) (.wait (.lsq x.c store))

def Core.enqueue (k : Core) (t tick : Nat) (store : Bool) : Core :=
  { k with lsq := (k.lsq.filter fun e => decide (t < e.tick)) ++ [⟨tick, store⟩] }

def Act.isAtomic : Act → Bool
  | .atomic .. => true
  | _ => false

/-- Accesses of a core issued before `issue`, of the kinds named (`ld` loads, `st` stores, and an atomic is both), that are not yet
performed: late ones of a loose partition and, at `.pd`, stores posted to another module and not acknowledged (07 R188). -/
def State.fencePending (s : State) (p c issue : Nat) (pd ld st : Bool) : Bool :=
  let k := s.part p
  let mine (d : Due) : Bool := d.who.core == c && d.who.unit == .a && decide (d.who.issue < issue)
  let late (d : Due) : Bool := mine d && (st || (ld && d.act.isAtomic))
  k.lateWrites.any late || (k.pend.any fun d => late d && d.place == 9) ||
    (pd && st && (((s.core c).posted.any fun r => r.by_ == .word && decide (r.issue < issue)) ||
      k.pend.any fun d => mine d && !(s.farWrites p d).isEmpty))

/-- The completion tick of a fence, release or acquire: there the partition freezes until what it covers of the accesses issued
before `upto` has been performed (07 R183, R188; log entry 65). -/
def State.fenceWait (s : State) (x : Ctx) (sc : Scope) (tick upto : Nat) (ld st : Bool) : State :=
  s.addDue x.p ⟨max tick (x.t + 1), fencePlace, x.who, .fenceWait (sc == .pd) ld st upto⟩

def State.doFence (s : State) (p : Nat) (d : Due) (pd ld st : Bool) (upto : Nat) : State :=
  if !(s.part p).complete && s.fencePending p d.who.core upto pd ld st then s.addWait p (.fence d.who.core upto pd ld st) else s

/-- The fences whose accesses have all performed let go. -/
def State.clearFences (s : State) (p : Nat) : State :=
  (s.part p).waits.foldl (fun s w =>
    match w with
    | Wait.fence c i pd ld st =>
      if s.fencePending p c i pd ld st then s else s.modPart p fun k => { k with waits := k.waits.filter (· != w) }
    | _ => s) s

/-- The fences that an access's order modifiers stand for: a release after earlier accesses, an acquire after those and the access
itself (07 R183). -/
def State.orderWait (s : State) (x : Ctx) (o : Order) (sc : Scope) (tm : Timing) : State :=
  let s := if o == .rel || o == .ar then
    (s.fenceWait x sc tm.relL x.t true false).fenceWait x sc tm.relS x.t false true else s
  if o == .acq || o == .ar then s.fenceWait x sc tm.acq (x.t + 1) true false else s

/-- The advance of a stream after an access, landing at t + 1 (07 R165). -/
def State.advanceStream (s : State) (x : Ctx) (n : Nat) (adv : Adv) (amount : Nat) : State :=
  let (r, l) := (s.core x.c).stream n
  match cursorAfter r l adv amount with
  | some c => s.later x (x.t + 1) (.cursor n c)
  | none => s

/-! ### Windows of PEER writes (16 R317, R318) -/

/-- The lowest-numbered valid window that covers a target. -/
def Core.window (k : Core) (target : Nat) : Option Nat :=
  (List.range 8).find? fun i =>
    let w := (k.getWin i).toNat
    bitAt w 63 == 1 && fld w 48 8 == target / 2048 && decide (fld w 34 11 ≤ target % 2048) &&
      decide (target % 2048 ≤ fld w 23 11)

/-- The units of a window that are claimed. -/
def Core.unitsOf (k : Core) (i : Nat) : Nat :=
  (k.winInner.filter fun r => r.window == i).foldl (fun n r => n + r.units) (tget 0 k.winUsed i)

/-- The window whose allowance a write of `units` units would exceed. -/
def Core.overWindow (k : Core) (target units : Nat) : Option Nat :=
  (k.window target).filter fun i => decide (fld (k.getWin i).toNat 0 16 < k.unitsOf i + units)

/-- A PEER write of `units` units: no window is a permission trap, too few units a freeze. -/
def State.windowProbe (s : State) (c stream : Nat) (l : Lay) (units : Nat) : Probe :=
  if l.space ≠ 3 then .ok
  else if ((s.core c).window l.peer).isNone then
    ⟨[(.permission, BitVec.ofNat 64 (stream * 2 ^ 60 + l.peer), true)], []⟩
  else match (s.core c).overWindow l.peer units with
    | some i => .wait (.window c i)
    | none => .ok

/-- Claim the units of a write to a core: one inside the module holds them by its access number. -/
def State.claimUnits (s : State) (c target units seq : Nat) : State :=
  match (s.core c).window target with
  | none => s
  | some i =>
    if units = 0 then s
    else if target / 2048 = s.modNum then s.modCore c fun k => { k with winInner := k.winInner ++ [⟨i, units, seq, false⟩] }
    else s.modCore c fun k => { k with winUsed := tset 0 k.winUsed i (tget 0 k.winUsed i + units) }

def State.claimWindow (s : State) (c : Nat) (l : Lay) (units seq : Nat) : State :=
  if l.space = 3 then s.claimUnits c l.peer units seq else s

/-- The units a scatter claims as it issues, by its index row as it stands, until its elements are known (16 R318; log entry 9). -/
def State.holdUnits (s : State) (c : Nat) (l : Lay) (units seq : Nat) : State :=
  match (s.core c).window l.peer with
  | none => s
  | some i =>
    if l.space ≠ 3 || units = 0 then s
    else s.modCore c fun k => { k with winInner := k.winInner ++ [⟨i, units, seq, s.farPeer l⟩] }

/-- A write inside the module is performed: its units return. -/
def State.unitsBack (s : State) (c seq : Nat) : State :=
  if (s.core c).winInner.isEmpty then s
  else s.modCore c fun k => { k with winInner := k.winInner.filter fun r => r.seq != seq }

/-! ### Writing a location at its landing tick -/

/-- The runs of written bytes: first byte and its bytes. -/
def writtenRuns : Nat → List (Byte × Bool) → Option (Nat × List Byte) → List (Nat × List Byte)
  | _, [], none => []
  | _, [], some (a, l) => [(a, l.reverse)]
  | i, (b, true) :: r, none => writtenRuns (i + 1) r (some (i, [b]))
  | i, (b, true) :: r, some (a, l) => writtenRuns (i + 1) r (some (a, b :: l))
  | i, (_, false) :: r, none => writtenRuns (i + 1) r none
  | i, (_, false) :: r, some (a, l) => (a, l.reverse) :: writtenRuns (i + 1) r none

/-- The posted writes to another module that carry the written bytes (16 R320). -/
def State.postWrite (s : State) (who : Who) (target : BitVec 19) (off : Nat) (l : List Byte) (mask : Nat) : State :=
  let core := who.core
  let sel := l.zipIdx.map fun (b, i) => (b, mask / 2 ^ (8 * i) % 256 != 0)
  let w := (s.core core).window target.toNat
  (writtenRuns 0 sel none).zipIdx.foldl (fun s (r : (Nat × List Byte) × Nat) =>
    (s.send (packetOf 0 s.modNum core target (off + r.1.1) [rowOfBytes r.1.2] r.1.2.length)).modCore core fun k =>
      { k with posted := k.posted ++ [(⟨target.toNat, w, if r.2 = 0 then 1 else 0, .word, who.issue⟩ : Posted)] }) s

/-- How a write of a partition takes effect: by its landing tick, before the arrivals of that tick; as an arrival; or as an
atomic's new value. -/
inductive Landing where
  | own | arrival | atomic
  deriving DecidableEq, Repr

/-- Write bytes at a physical place. -/
def State.writeAt (s : State) (p : Nat) (how : Landing) (b : Bytes) (l : List Byte) (mask : Nat) (pois : Bool) : State :=
  match how with
  | .own => s.landWrite p b l mask pois
  | .arrival => s.performWrite none b l mask pois
  | .atomic => s.landAtomic p b l

/-- Write bytes at a location, translating now: the fault of the translation, if any. -/
def State.writeLoc (s : State) (p : Nat) (who : Who) (how : Landing) (kind : XKind) (l : Loc) (bytes : List Byte) (mask : Nat)
    (pois : Bool) : State × Option Cls :=
  match l with
  | .remote t o => (s.postWrite who t o bytes mask, none)
  | _ =>
    let (first, rest) := l.cut bytes.length
    match s.resolveLoc p who.core kind l with
    | (s, .error c) => (s, some c)
    | (s, .ok b) =>
      match rest with
      | none => (s.writeAt p how b bytes mask pois, none)
      | some l' =>
        match s.resolveLoc p who.core kind l' with
        | (s, .error c) => (s, some c)
        | (s, .ok b') =>
          let s := s.writeAt p how b (bytes.take first) (mask % 2 ^ (8 * first)) pois
          (s.writeAt p how b' (bytes.drop first) (mask / 2 ^ (8 * first)) pois, none)

/-- A write of place 9 is an arrival; any other lands by its own tick. -/
def Due.landing (d : Due) : Landing := if d.place = 9 then .arrival else .own

/-- A fault of an access at its own tick: performed again when ticks resume, and until then the cursor of its stream holds the
faulting coordinate (07 R175, 18 R344). Where an element straddles two pages and only the second faults, TREC3 gives the VA of the
element's first byte; the stream goes on from the advance that has landed when the access is performed again (DEDUCED, log entry
85). -/
def State.accessFault (s : State) (p : Nat) (d : Due) (c : Cls) (a : Access) : State :=
  s.addCond p ⟨(s.part p).tick, c, d.who,
    if c = .memoryError then memoryStatus d.who.core a.stream a.loc else faultStatus a.stream a.loc,
    match if c = .memoryError then [] else a.aims with | v :: _ => .fault d d.who.core a.stream v | [] => .again d d⟩

/-- The access of the element that faults, of those of a scatter or gather. -/
def Access.atElem (a : Access) (els : List (Option Loc)) (loc : Loc) : Access :=
  { a with loc := loc, aims := ((List.zip els a.aims).filter fun e => e.1 == some loc).map (·.2) }

/-- A value that the environment or a broken home promise makes late: a strict partition freezes at the promised tick (07
R167, R168). -/
def State.lateFreeze (s : State) (p : Nat) (d : Due) (a : Access) : State :=
  if (s.part p).tick = a.land then s.addWait p (.late d.who.core a.seq)
  else s.addDue p { d with tick := a.land, place := 0, act := .lateWait a.seq }

def State.accessLate (s : State) (p core : Nat) (a : Access) : Bool := s.isLate p a.seq || s.strayed p core a

/-- An earlier write of the core to bytes of this one is among `l`, late ones that have not been performed: the order of one
location is kept (15 R308). -/
def Due.behind (d : Due) (l : List Due) : Bool :=
  let mine := d.act.writes d.tick d.who.core
  l.any fun e => e.who.core == d.who.core && (e.act.writes e.tick e.who.core).any fun w =>
    mine.any fun v => locOverlap w.1 w.2.1 v.1 v.2.1

/-- A write at its landing tick that may be late (07 R167 to R169, 15 R298): a strict partition holds the tick until it
arrives and performs it as the tick is made again, a loose one keeps it aside, as it does one behind a late write to its bytes; behind one that has
reached its location and lands on this tick as an arrival, it lands after it. -/
def State.lateGate (s : State) (p : Nat) (d : Due) (seq : Nat) (late : Bool) (f : State → State) : State :=
  let k := s.part p
  if d.place = 9 then f s
  else if k.goesOn then
    if late || d.behind k.lateWrites then s.modPart p fun k => { k with lateWrites := k.lateWrites ++ [d] }
    else if d.behind (k.pend.filter (·.place == 9)) then s.addDue p { d with place := 9 }
    else f s
  else if late && !k.served.contains (.late d.who.core seq) then
    (s.addWait p (.late d.who.core seq)).addDue p { d with place := heldPlace }
  else f s

/-- A store that waits for one before it to the same bytes of another module is tried again on the next tick. -/
def State.postGate (s : State) (p : Nat) (d : Due) (f : State → State) : State :=
  if s.postWaits p d ((s.farWrites p d).map fun w => (w.1, w.2.1)) none then s.addDue p { d with tick := d.tick + 1 } else f s

/-- A store's landing (07 R167, R169). -/
def State.doWrite (s : State) (p : Nat) (d : Due) (a : Access) (v mask : Row) (pois : Bool) : State :=
  s.postGate p d fun s => s.lateGate p d a.seq (s.accessLate p d.who.core a) fun s =>
    match s.writeLoc p d.who d.landing .write a.loc ((bytesOfRow v).take (maskLen mask)) mask.toNat pois with
    | (s, some c) => s.accessFault p d c a
    | (s, none) => s.unitsBack d.who.core a.seq

/-- The stores of a scatter, in ascending order: a higher lane wins on duplicates (07 R185). -/
def scatterList (s : State) (p : Nat) (who : Who) (how : Landing) (bits : Nat) (v : Row) :
    List (Option Loc × Nat) → State × Option (Cls × Loc)
  | [] => (s, none)
  | (none, _) :: l => scatterList s p who how bits v l
  | (some loc, j) :: l =>
    let bytes := leBytes (bits / 8) (elemOf bits v j)
    match s.writeLoc p who how .write loc bytes (2 ^ bits - 1) false with
    | (s, some c) => (s, some (c, loc))
    | (s, none) => scatterList s p who how bits v l

/-- Whether some element of an access is late. -/
def State.elemsLate (s : State) (p core : Nat) (a : Access) (els : List (Option Loc)) : Bool :=
  s.isLate p a.seq || (optLocs els).any fun loc => s.strayed p core { a with loc := loc }

def State.doScatterRow (s : State) (p : Nat) (d : Due) (a : Access) (els : List (Option Loc)) (v : Row) (bits : Nat) : State :=
  s.postGate p d fun s => s.lateGate p d a.seq (s.elemsLate p d.who.core a els) fun s =>
    match scatterList s p d.who d.landing bits v els.zipIdx with
    | (s, some (c, loc)) => s.accessFault p d c (a.atElem els loc)
    | (s, none) => s.unitsBack d.who.core a.seq

/-! ### Sampled values -/

/-- A sampled value lands at its promised tick. One that is late (`late`: its data; `old`: a write it should have read)
freezes a strict partition there; in a loose one it is discarded, and its destination is marked poisoned (07 R167 to R169,
05 R115, R117). -/
def State.landSampled (s : State) (p : Nat) (d : Due) (a : Access) (late old : Bool) (value : Act) (lost : Option Act) : State :=
  let loses := (s.part p).goesOn
  let land (s : State) (place : Nat) (act : Act) : State := s.addDue p { d with tick := a.land, place := place, act := act }
  let s := if late && !loses then s.lateFreeze p d a else s
  if loses && (late || old) then
    match lost with
    | some m => land (land s 0 .poisonMark) 2 m
    | none => s
  else land s 2 value

/-- A lost queue entry holds no value that the manual states. -/
def State.lostEntry (s : State) (q id : Nat) : State × Act :=
  let (v, s) := s.drawRow
  (s, .queue q id v true)

/-- The sampling of a table word. A table entry carries no poison, so that of a poisoned row is not kept, and one whose
data is late keeps its value (DEDUCED, log entry 72). -/
def State.doSampleTable (s : State) (p : Nat) (d : Due) (a : Access) (isLt : Bool) (i : Nat) : State :=
  let n := if isLt then 64 else 32
  match s.readLoc p d.who.core .read a.loc n with
  | (s, .error c) => s.accessFault p d c a
  | (s, .ok (l, _)) =>
    let v := rowOfBytes l
    s.landSampled p d a (s.isLate p a.seq) (s.lateTo p a.loc n) (if isLt then .lt i v else .st i (v.setWidth 256)) none

/-! ### Element loads and stores (07 R182, R183) -/

/-- The scalar formats of LD and ST. -/
def isScalarFmt : Fmt → Bool
  | .int8 | .uint8 | .int16 | .int32 | .int64 | .fp64 | .fp32 | .fp16 | .bf16 | .e4m3 | .e5m2 | .dev8 | .e8m0 | .acc26 => true
  | _ => false

def isSignedFmt (f : Fmt) : Bool := match intFmt f with | some (_, b) => b | none => false

/-- A raw element as LD delivers it. -/
def extendElem (signed : Bool) (bits n : Nat) : Word := if signed then BitVec.ofInt 64 (sgn bits n) else BitVec.ofNat 64 n

/-- The checks an A read makes at issue for the early-read rule (07 R163), against writes of earlier ticks. -/
def State.earlyProbe (s : State) (x : Ctx) (l : Lay) (loc : Option Loc) (n tick : Nat) : Probe :=
  match loc with
  | some a => .when (l.erc && s.pendingWrite x.p a n tick) (.trap .earlyRead x.who.word)
  | none => .ok

/-- A layout's home promise applies to GLOBAL only. -/
def Lay.promise (l : Lay) : Bool := l.space == 2 && l.home

def execLd (f : Frame) (d st : Num4) (order : Order) (scope : Scope) (adv : Adv) (s : State) : Out :=
  .next (nativeWord .a (.ld f d st order scope adv) f
    (fun x s =>
      let k := s.core x.c
      let (r, l) := k.stream st.val
      let e := s.element x.c l r.cur
      let lat := pathLatency (s.part x.p).loose x.c l
      let tm := accessTiming (s.part x.p).loose k x.t (lat / 2) (lat / 2) order scope true false
      (layProbe x.who.word r l .element (!s.farPeer l) isScalarFmt).andThen
        ((elemProbe l st.val r.cur e).andThen
          ((s.earlyProbe x l (elemLoc e) (elemBytes l) (tm.base + lat / 2)).andThen (s.lsqProbe x false))))
    (fun x s =>
      let k := s.core x.c
      let (r, l) := k.stream st.val
      let e := s.element x.c l r.cur
      let lat := pathLatency (s.part x.p).loose x.c l
      let tm := accessTiming (s.part x.p).loose k x.t (lat / 2) (lat / 2) order scope true false
      let s := s.setCore x.c (tm.core.enqueue x.t (tm.base + lat / 2) false)
      let s := s.orderWait x order scope tm
      let (s, n) := s.nextSeq x.p
      let s := s.advanceStream x st.val adv 1
      match elemLoc e with
      | some loc => s.sampleAt x (tm.base + lat / 2)
          (.sampleC ⟨loc, st.val, n, l.promise, tm.base + lat, [packCursor r.cur], l.erc⟩ d.val (elemBytes l) (isSignedFmt l.format))
      | none => s.later x (tm.base + lat) (.c d.val Pv.zero)) s)

/-- The sampling of an element load. -/
def State.doSampleC (s : State) (p : Nat) (d : Due) (a : Access) (dst bytes : Nat) (signed : Bool) : State :=
  match s.readLoc p d.who.core .read a.loc bytes with
  | (s, .error c) => s.accessFault p d c a
  | (s, .ok (l, pois)) =>
    s.landSampled p d a (s.accessLate p d.who.core a) (s.lateTo p a.loc bytes)
      (.c dst ⟨extendElem signed (8 * bytes) (leNat l), pois⟩) (some (.cLost dst))

def execSt (f : Frame) (st a : Num4) (order : Order) (scope : Scope) (adv : Adv) (s : State) : Out :=
  .next (nativeWord .a (.st f st a order scope adv) f
    (fun x s =>
      let k := s.core x.c
      let (r, l) := k.stream st.val
      let e := s.element x.c l r.cur
      (layProbe x.who.word r l .element true isScalarFmt).andThen
        ((poisonProbe x (k.getC a.val)).andThen
          ((Probe.when (elemLoc e).isSome (s.windowProbe x.c st.val l 1)).andThen
            ((elemProbe l st.val r.cur e).andThen (s.lsqProbe x true)))))
    (fun x s =>
      let k := s.core x.c
      let (r, l) := k.stream st.val
      let e := s.element x.c l r.cur
      let lat := pathLatency (s.part x.p).loose x.c l
      let tm := accessTiming (s.part x.p).loose k x.t (lat / 2) (lat / 2) order scope false true
      let s := s.setCore x.c (tm.core.enqueue x.t (tm.base + lat / 2) true)
      let s := s.orderWait x order scope tm
      let (s, n) := s.nextSeq x.p
      let s := s.advanceStream x st.val adv 1
      match elemLoc e with
      | some loc =>
        (s.claimWindow x.c l 1 n).later x (tm.base + lat / 2)
          (.write ⟨loc, st.val, n, l.promise, tm.base + lat / 2, [packCursor r.cur], l.erc⟩ ((k.getC a.val).v.setWidth 512)
            (BitVec.ofNat 512 (2 ^ (8 * elemBytes l) - 1)) false)
      | none => s) s)

/-! ### Row loads and stores (07 R184) -/

def execLds (f : Frame) (q st : Num4) (order : Order) (scope : Scope) (adv : Adv) (s : State) : Out :=
  .next (nativeWord .a (.lds f q st order scope adv) f
    (fun x s =>
      let k := s.core x.c
      let (r, l) := k.stream st.val
      let e := s.rowAt x.c l st.val r.cur
      let lat := pathLatency (s.part x.p).loose x.c l
      let tm := accessTiming (s.part x.p).loose k x.t (lat / 2) (lat / 2) order scope true false
      (layProbe x.who.word r l .row (!s.farPeer l) (fun _ => true)).andThen
        (e.probe.andThen ((s.earlyProbe x l e.loc 64 (tm.base + lat / 2)).andThen
          ((s.pushProbe x.p x.c q.val).andThen (s.lsqProbe x false)))))
    (fun x s =>
      let k := s.core x.c
      let (r, l) := k.stream st.val
      let e := s.rowAt x.c l st.val r.cur
      let lat := pathLatency (s.part x.p).loose x.c l
      let tm := accessTiming (s.part x.p).loose k x.t (lat / 2) (lat / 2) order scope true false
      let s := s.setCore x.c (tm.core.enqueue x.t (tm.base + lat / 2) false)
      let s := s.orderWait x order scope tm
      let (s, n) := s.nextSeq x.p
      let s := s.advanceStream x st.val adv (rowElems l)
      let (s, id) := s.claim x.c q.val (tm.base + lat / 2)
      match e.loc with
      | some loc => s.sampleAt x (tm.base + lat / 2) (.sampleQ ⟨loc, st.val, n, l.promise, tm.base + lat, [packCursor r.cur], l.erc⟩ q.val id e.mask)
      | none => s.later x (tm.base + lat) (.queue q.val id 0 false)) s)

/-- The sampling of a row load: elements outside read 0 (07 R161). -/
def State.doSampleQ (s : State) (p : Nat) (d : Due) (a : Access) (q id : Nat) (mask : Row) : State :=
  match s.readLoc p d.who.core .read a.loc 64 with
  | (s, .error c) => s.accessFault p d c a
  | (s, .ok (l, pois)) =>
    let (s, lost) := s.lostEntry q id
    s.landSampled p d a (s.accessLate p d.who.core a) (s.lateTo p a.loc 64) (.queue q id (rowOfBytes l &&& mask) pois) (some lost)

/-- The checks of a pop whose entry is stored: a poisoned entry is not (07 R184). -/
def State.storePopProbe (s : State) (x : Ctx) (q : Nat) : Probe :=
  (s.popProbe x.c q x.t).andThen (.when (s.peek x.c q).p (.trap .poisonStore x.who.word))

def execSts (f : Frame) (st q : Num4) (order : Order) (scope : Scope) (adv : Adv) (s : State) : Out :=
  .next (nativeWord .a (.sts f st q order scope adv) f
    (fun x s =>
      let k := s.core x.c
      let (r, l) := k.stream st.val
      let e := s.rowAt x.c l st.val r.cur
      (layProbe x.who.word r l .row true (fun _ => true)).andThen
        ((s.storePopProbe x q.val).andThen
          ((Probe.when e.loc.isSome (s.windowProbe x.c st.val l 1)).andThen (e.probe.andThen (s.lsqProbe x true)))))
    (fun x s =>
      let k := s.core x.c
      let (r, l) := k.stream st.val
      let e := s.rowAt x.c l st.val r.cur
      let lat := pathLatency (s.part x.p).loose x.c l
      let tm := accessTiming (s.part x.p).loose k x.t (lat / 2) (lat / 2) order scope false true
      let s := s.setCore x.c (tm.core.enqueue x.t (tm.base + lat / 2) true)
      let s := s.orderWait x order scope tm
      let (s, n) := s.nextSeq x.p
      let s := s.advanceStream x st.val adv (rowElems l)
      let (s, v) := s.pop x.c q.val
      match e.loc with
      | some loc => (s.claimWindow x.c l 1 n).later x (tm.base + lat / 2)
          (.write ⟨loc, st.val, n, l.promise, tm.base + lat / 2, [packCursor r.cur], l.erc⟩ v.v e.mask v.p)
      | none => s) s)

/-! ### Gather and scatter (07 R185) -/

/-- An element wide enough for a gather. -/
def isGatherFmt (f : Fmt) : Bool := f.bits == 32 || f.bits == 64

/-- The checks of the two streams of a gather or scatter at issue. The index layout is held to 07 R159's rules of a row access, an
element stride other than 1 among them (DESIGN CHOICE, log entry 94). -/
def State.gatherProbe (s : State) (x : Ctx) (sta stb : Nat) (load : Bool) : Probe :=
  let k := s.core x.c
  let (ra, la) := k.stream sta
  let (rb, lb) := k.stream stb
  let reservedOrSpace := layReserved ra la .element || layReserved rb lb .row || decide (1 < lb.space) ||
    (load && s.farPeer la)
  if reservedOrSpace then .trap .reservedField x.who.word
  else if (match la.fmt with | some f => !isGatherFmt f | none => true) || lb.fmt != some .int32 then
    .trap .illegalFormat x.who.word
  else .ok

/-- Distances from the base of a gather or scatter to its index sampling and its element tick. -/
def State.gatherLats (s : State) (x : Ctx) (sta stb : Nat) : Nat × Nat :=
  let k := s.core x.c
  let loose := (s.part x.p).loose
  (pathLatency loose x.c (k.stream stb).2, pathLatency loose x.c (k.stream sta).2)

/-- The units a scatter needs, one for each element it writes, by its index row as it stands (16 R318). -/
def State.scatterUnits (s : State) (x : Ctx) (sta stb : Nat) : Nat :=
  let k := s.core x.c
  let (rb, lb) := k.stream stb
  let e := s.rowAt x.c lb stb rb.cur
  let v := k.getSt sta
  (s.scatterElems x.p x.c ⟨e.loc.getD (.pocket x.c 0), sta, 0, false, 0, [], false⟩ (e.loc.map fun _ => e.mask) v
    (k.getLt (strOf v).lt)).length

def execGath (f : Frame) (q sta stb : Num4) (adv : Adv) (s : State) : Out :=
  .next (nativeWord .a (.gath f q sta stb adv) f
    (fun x s =>
      let k := s.core x.c
      let (rb, lb) := k.stream stb.val
      let e := s.rowAt x.c lb stb.val rb.cur
      let (li, le) := s.gatherLats x sta.val stb.val
      let tm := accessTiming (s.part x.p).loose k x.t (li / 2) (li + le / 2) .rlx .co true false
      (s.gatherProbe x sta.val stb.val true).andThen (e.probe.andThen
        ((s.earlyProbe x lb e.loc 64 (tm.base + li / 2)).andThen
          ((s.pushProbe x.p x.c q.val).andThen (s.lsqProbe x false)))))
    (fun x s =>
      let k := s.core x.c
      let (rb, lb) := k.stream stb.val
      let e := s.rowAt x.c lb stb.val rb.cur
      let (li, le) := s.gatherLats x sta.val stb.val
      let tm := accessTiming (s.part x.p).loose k x.t (li / 2) (li + le / 2) .rlx .co true false
      let s := s.setCore x.c (tm.core.enqueue x.t (tm.base + li + le / 2) false)
      let (s, n) := s.nextSeq x.p
      let s := s.advanceStream x stb.val adv 16
      let (s, id) := s.claim x.c q.val (tm.base + li + le / 2)
      let sta256 := k.getSt sta.val
      s.sampleAt x (tm.base + li / 2)
        (.gatherIndex ⟨e.loc.getD (.pocket x.c 0), sta.val, n, false, tm.base + li + le, [], lb.erc⟩
          (e.loc.map fun _ => e.mask) q.val id sta256 (k.getLt (strOf sta256).lt) (tm.base + li + le / 2))) s)

def execScat (f : Frame) (sta stb q : Num4) (adv : Adv) (s : State) : Out :=
  .next (nativeWord .a (.scat f sta stb q adv) f
    (fun x s =>
      let k := s.core x.c
      let (_, la) := k.stream sta.val
      let (rb, lb) := k.stream stb.val
      let e := s.rowAt x.c lb stb.val rb.cur
      let (li, le) := s.gatherLats x sta.val stb.val
      let tm := accessTiming (s.part x.p).loose k x.t (li / 2) (li + le / 2) .rlx .co false true
      (s.gatherProbe x sta.val stb.val false).andThen ((s.storePopProbe x q.val).andThen
        ((s.windowProbe x.c sta.val la (s.scatterUnits x sta.val stb.val)).andThen (e.probe.andThen
          ((s.earlyProbe x lb e.loc 64 (tm.base + li / 2)).andThen (s.lsqProbe x true))))))
    (fun x s =>
      let k := s.core x.c
      let (_, la) := k.stream sta.val
      let (rb, lb) := k.stream stb.val
      let e := s.rowAt x.c lb stb.val rb.cur
      let (li, le) := s.gatherLats x sta.val stb.val
      let tm := accessTiming (s.part x.p).loose k x.t (li / 2) (li + le / 2) .rlx .co false true
      let s := s.setCore x.c (tm.core.enqueue x.t (tm.base + li + le / 2) true)
      let units := s.scatterUnits x sta.val stb.val
      let (s, n) := s.nextSeq x.p
      let s := s.holdUnits x.c la units n
      let s := s.advanceStream x stb.val adv 16
      let (s, v) := s.pop x.c q.val
      let sta256 := k.getSt sta.val
      s.sampleAt x (tm.base + li / 2)
        (.scatterIndex ⟨e.loc.getD (.pocket x.c 0), sta.val, n, la.promise, tm.base + li + le / 2, [], lb.erc⟩
          (e.loc.map fun _ => e.mask) v.v sta256 (k.getLt (strOf sta256).lt) (tm.base + li + le / 2))) s)

/-- An element of a gather with a write pending that lands after the elements are sampled (07 R163; log entry 23). -/
def State.earlyElem (s : State) (p : Nat) (l : Lay) (els : List (List Int × Elem)) (at_ : Nat) : Bool :=
  l.erc && els.any fun e => match elemLoc e.2 with
    | some loc => s.pendingWrite p loc (elemBytes l) at_
    | none => false

/-- The access that reads the index row of a gather or scatter, whose stream the word names. -/
def indexAccess (w : Word) (a : Access) : Access :=
  { a with stream := fld w.toNat (if fld w.toNat 46 8 = 0x25 then 38 else 34) 4 }

def State.doGatherIndex (s : State) (p : Nat) (d : Due) (a : Access) (mask : Option Row) (q id : Nat) (sta : BitVec 256)
    (lt : BitVec 512) (el : Nat) : State :=
  match s.indexRow p d.who.core a mask with
  | (s, .error c) => s.accessFault p d c (indexAccess d.who.word a)
  | (s, .ok (idx, pois)) =>
    let l := layOf lt
    let k := s.part p
    let missed := k.loose && mask.isSome && s.lateTo p a.loc 64
    let s := if missed then s.addDue p { d with tick := a.land, place := 0, act := .poisonMark } else s
    let els := s.gatherElems d.who.core sta lt idx
    let trap := match firstElemTrap l a.stream els with
      | some t => some t
      | none => if s.earlyElem p l els el then some (Cls.earlyRead, d.who.word) else none
    match trap with
    | some (c, v) =>
      (s.modCore d.who.core fun k => k.unclaim q id).addCond p ⟨k.tick, c, d.who, v, .continue_⟩
    | none =>
      s.addDue p { d with tick := el, act := .gatherRow { a with home := l.promise, aims := els.map fun e => packCursor e.1 } q id
                            (els.map fun e => elemLoc e.2) l.format.bits (pois || missed) }

/-- Read the elements of a gather: bytes, poison and the first fault. -/
def gatherList (s : State) (p core bits : Nat) : List (Option Loc) → State × Except (Cls × Loc) (List Nat × Bool × Bool)
  | [] => (s, .ok ([], false, false))
  | none :: l =>
    match gatherList s p core bits l with
    | (s, .ok (v, q, m)) => (s, .ok (0 :: v, q, m))
    | r => r
  | some loc :: l =>
    match s.readLoc p core .read loc (bits / 8) with
    | (s, .error c) => (s, .error (c, loc))
    | (s, .ok (b, pois)) =>
      let late := s.lateTo p loc (bits / 8)
      match gatherList s p core bits l with
      | (s, .ok (v, q, m)) => (s, .ok (leNat b :: v, q || pois, m || late))
      | r => r

def State.doGatherRow (s : State) (p : Nat) (d : Due) (a : Access) (q id : Nat) (els : List (Option Loc)) (bits : Nat)
    (pois : Bool) : State :=
  match gatherList s p d.who.core bits els with
  | (s, .error (c, loc)) => s.accessFault p d c (a.atElem els loc)
  | (s, .ok (v, pp, m)) =>
    let (s, lost) := s.lostEntry q id
    s.landSampled p d a (s.elemsLate p d.who.core a els) m
      (.queue q id (BitVec.ofNat 512 (rowOfElems bits v)) (pois || pp)) (some lost)

/-- The index sampling of a scatter: what it claimed by the row as it stood at issue becomes the units of the elements it writes (16
R318; log entry 9). -/
def State.doScatterIndex (s : State) (p : Nat) (d : Due) (a : Access) (mask : Option Row) (v : Row) (sta : BitVec 256)
    (lt : BitVec 512) (el : Nat) : State :=
  match s.indexRow p d.who.core a mask with
  | (s, .error c) => s.accessFault p d c (indexAccess d.who.word a)
  | (s, .ok (idx, pois)) =>
    let l := layOf lt
    let t := (s.part p).tick
    let s := s.unitsBack d.who.core a.seq
    if pois then s.addCond p ⟨t, .poisonStore, d.who, d.who.word, .continue_⟩
    else
      let els := s.gatherElems d.who.core sta lt idx
      match firstElemTrap l a.stream els with
      | some (c, w) => s.addCond p ⟨t, c, d.who, w, .continue_⟩
      | none =>
        let locs := els.map fun e => elemLoc e.2
        (s.claimWindow d.who.core l (optLocs locs).length a.seq).addDue p
          { d with tick := el, place := 2
                   act := .scatterRow { a with aims := els.map fun e => packCursor e.1 } locs v l.format.bits }

/-! ### TOUCH (07 R186) -/

def execTouch (f : Frame) (st : Num4) (s : State) : Out :=
  .next (nativeWord .a (.touch f st) f
    (fun x s =>
      let (r, l) := (s.core x.c).stream st.val
      layProbe x.who.word r l .row true (fun _ => true))
    (fun x s =>
      let (r, l) := (s.core x.c).stream st.val
      let b := l.byteOf (elemOffset l r.cur)
      if l.space = 2 && inRange l b 1 then
        s.sampleAt x (x.t + pathLatency (s.part x.p).loose x.c l / 2) (.touch b.toNat)
      else s) s)

/-- A prefetch fills both TLBs; a failed walk, one that is not present for an A word, is discarded. -/
def State.doTouch (s : State) (p : Nat) (d : Due) (va : Nat) : State :=
  match s.lookup p d.who.core va with
  | (t, some e) =>
    if e.xlat va .read false = .fault .notPresent then { t with cores := s.cores, dieTlb := s.dieTlb } else t
  | (t, none) => t

/-! ### Atomics (07 R187, 16 R319) -/

/-- The formats an atomic accepts; `none` is AMOCAS. -/
def atomicFmt (op : Option Aop) (f : Fmt) : Bool :=
  match op with
  | some .swap | none => f == .int32 || f == .int64 || f == .fp32 || f == .fp64
  | some .fadd32 => f == .fp32
  | _ => f == .int32 || f == .int64

/-- The new value of an atomic on an old value of `b` bits; none where AMOCAS does not match. -/
def atomicNew (op : Option Aop) (b old x y : Nat) : Option Nat :=
  match op with
  | none => if old = x then some y else none
  | some .add => some ((old + x) % 2 ^ b)
  | some .and => some (old &&& x)
  | some .or => some (old ||| x)
  | some .xor => some (old ^^^ x)
  | some .min => some (if sgn b x < sgn b old then x else old)
  | some .max => some (if sgn b old < sgn b x then x else old)
  | some .minu => some (if x < old then x else old)
  | some .maxu => some (if old < x then x else old)
  | some .swap => some x
  | some .fadd32 => some (fAdd .fp32 .rne 0 old x).1

/-- The checks of an atomic at issue. -/
def State.atomicProbe (s : State) (x : Ctx) (st : Nat) (op : Option Aop) (a b : PWord) (order : Order) (scope : Scope) : Probe :=
  let k := s.core x.c
  let (r, l) := k.stream st
  let e := s.element x.c l r.cur
  let lat := pathLatency (s.part x.p).loose x.c l
  let tm := accessTiming (s.part x.p).loose k x.t (lat / 2) (lat / 2) order scope true true
  (layProbe x.who.word r l .element (l.space != 0 && !s.farPeer l) (atomicFmt op)).andThen
    ((poisonProbe x a).andThen ((poisonProbe x b).andThen
      ((elemProbe l st r.cur e).andThen
        ((s.earlyProbe x l (elemLoc e) (elemBytes l) (tm.base + lat / 2)).andThen
          ((s.lsqProbe x false).andThen (s.lsqProbe x true))))))

def State.atomicIssue (s : State) (x : Ctx) (st d : Nat) (op : Option Aop) (a b : Word) (order : Order) (scope : Scope) : State :=
  let k := s.core x.c
  let (r, l) := k.stream st
  let e := s.element x.c l r.cur
  let lat := pathLatency (s.part x.p).loose x.c l
  let tm := accessTiming (s.part x.p).loose k x.t (lat / 2) (lat / 2) order scope true true
  let at_ := tm.base + lat / 2
  let s := s.setCore x.c ((tm.core.enqueue x.t at_ false).enqueue x.t at_ true)
  let s := s.orderWait x order scope tm
  let (s, n) := s.nextSeq x.p
  match elemLoc e with
  | some loc => s.later x at_ (.atomic ⟨loc, st, n, l.promise, tm.base + lat, [packCursor r.cur], l.erc⟩ (some d) op a b l.format)
  | none => s.later x (tm.base + lat) (.c d Pv.zero)

def execAmo (f : Frame) (d st a : Num4) (order : Order) (scope : Scope) (op : Aop) (s : State) : Out :=
  .next (nativeWord .a (.amo f d st a order scope op) f
    (fun x s => s.atomicProbe x st.val (some op) ((s.core x.c).getC a.val) Pv.zero order scope)
    (fun x s => s.atomicIssue x st.val d.val (some op) ((s.core x.c).getC a.val).v 0 order scope) s)

def execAmocas (f : Frame) (d st a b : Num4) (order : Order) (scope : Scope) (s : State) : Out :=
  .next (nativeWord .a (.amocas f d st a b order scope) f
    (fun x s => s.atomicProbe x st.val none ((s.core x.c).getC a.val) ((s.core x.c).getC b.val) order scope)
    (fun x s => s.atomicIssue x st.val d.val none ((s.core x.c).getC a.val).v ((s.core x.c).getC b.val).v order scope) s)

/-- The tick at which an atomic is performed: read and write together; a poisoned row traps and cd is not written. One
that is late waits as a late write does, and never passes a late write to its element (16 R319). -/
def State.doAtomic (s : State) (p : Nat) (d : Due) (a : Access) (dst : Option Nat) (op : Option Aop) (x y : Word) (f : Fmt) : State :=
  let n := f.bits / 8
  let k := s.part p
  let c := d.who.core
  let late := s.accessLate p c a
  if k.loose && d.place != 9 && (late || s.lateTo p a.loc n) then
    (s.landSampled p d a true false .poisonMark (dst.map .cLost)).modPart p fun k =>
      { k with lateWrites := k.lateWrites ++ [{ d with act := .atomic a none op x y f }] }
  else if k.loose && d.place != 9 && d.behind (k.pend.filter (·.place == 9)) then s.addDue p { d with place := 9 }
  else if late && !k.loose && !k.served.contains (.late c a.seq) then
    (s.addWait p (.late c a.seq)).addDue p { d with place := heldPlace }
  else match s.readLoc p c .atomic a.loc n with
    | (s, .error e) => s.accessFault p d e a
    | (s, .ok (_, true)) => s.addCond p ⟨k.tick, .poisonStore, d.who, d.who.word, .continue_⟩
    | (s, .ok (b, false)) =>
      let old := leNat b
      let s := match atomicNew op f.bits old (x.toNat % 2 ^ f.bits) (y.toNat % 2 ^ f.bits) with
        | some v => (s.writeLoc p d.who .atomic .atomic a.loc (leBytes n v) (2 ^ f.bits - 1) false).1
        | none => s
      match dst with
      | some r => s.addDue p { d with tick := a.land, place := 2, act := .c r ⟨extendElem (isSignedFmt f) f.bits old, false⟩ }
      | none => s

/-! ### Fences, queue words and noise-slot words (07 R188 to R191) -/

/-- FENCE: each set bit xy puts later accesses of kind y behind earlier accesses of kind x. -/
def State.fence (s : State) (x : Ctx) (fset : BitVec 5) (scope : Scope) : State :=
  let k := s.core x.c
  let ft := x.t + fenceTime (s.part x.p).loose scope
  let eng := fset.getLsbD 0
  let pl := max k.lastL (if eng then k.lastE else 0)
  let ps := max k.lastS (if eng then k.lastE else 0)
  let ll := if fset.getLsbD 4 then max ft pl else 0
  let ls := if fset.getLsbD 3 then max ft pl else 0
  let sl := if fset.getLsbD 2 then max ft ps else 0
  let ss := if fset.getLsbD 1 then max ft ps else 0
  let s := s.setCore x.c { k with
    afterL := max k.afterL (max ll sl)
    afterS := max k.afterS (max ls ss)
    afterE := if eng then max k.afterE (max (max ll sl) (max ls ss)) else k.afterE }
  let s := if fset.getLsbD 4 || fset.getLsbD 3 then s.fenceWait x scope (max ll ls) x.t true false else s
  if fset.getLsbD 2 || fset.getLsbD 1 then s.fenceWait x scope (max sl ss) x.t false true else s

def execFence (f : Frame) (fset : BitVec 5) (scope : Scope) (s : State) : Out :=
  .next (nativeWord .a (.fence f fset scope) f (fun _ _ => .ok) (fun x s => s.fence x fset scope) s)

def execQmark (f : Frame) (s : State) : Out :=
  .next (nativeWord .a (.qmark f) f (fun _ _ => .ok)
    (fun x s => s.modCore x.c fun k => { k with qmark := max k.qmark k.lastS }) s)

def execCqpush (f : Frame) (q a : Num4) (s : State) : Out :=
  .next (nativeWord .a (.cqpush f q a) f (fun x s => s.pushProbe x.p x.c q.val) (fun x s =>
    let u := (s.core x.c).getC a.val
    s.pushLater x q.val (x.t + 2) (u.v.setWidth 512) u.p) s)

def execCqpop (f : Frame) (d q : Num4) (s : State) : Out :=
  .next (nativeWord .a (.cqpop f d q) f (fun x s => s.popProbe x.c q.val x.t) (fun x s =>
    let (s, e) := s.pop x.c q.val
    s.later x (x.t + 2) (.c d.val ⟨e.v.setWidth 64, e.p⟩)) s)

/-- The pair c[a+1] ‖ c[a]. -/
def Core.pair (k : Core) (a : Nat) : Pv 128 :=
  let lo := k.getC a
  let hi := k.getC ((a + 1) % 16)
  ⟨hi.v ++ lo.v, lo.p || hi.p⟩

def pairProbe (x : Ctx) (v : Pv 128) : Probe := .when v.p (.trap .poisonStore x.who.word)

def execNkey (f : Frame) (ns : Num3) (a : Num4) (s : State) : Out :=
  .next (nativeWord .a (.nkey f ns a) f (fun x s => pairProbe x ((s.core x.c).pair a.val))
    (fun x s => s.later x (x.t + 2) (.noise ns.val (.key ((s.core x.c).pair a.val).v))) s)

def execNctr (f : Frame) (ns : Num3) (a b : Num4) (s : State) : Out :=
  .next (nativeWord .a (.nctr f ns a b) f
    (fun x s => (pairProbe x ((s.core x.c).pair a.val)).andThen (poisonProbe x ((s.core x.c).getC b.val)))
    (fun x s => s.later x (x.t + 2)
      (.noise ns.val (.ctr ((s.core x.c).pair a.val).v ((s.core x.c).getC b.val).v))) s)

def execNskip (f : Frame) (ns : Num3) (a : Num4) (s : State) : Out :=
  .next (nativeWord .a (.nskip f ns a) f (fun x s => pairProbe x ((s.core x.c).pair a.val))
    (fun x s => s.later x (x.t + 2) (.noise ns.val (.skip ((s.core x.c).pair a.val).v))) s)

/-- NGET sees the slot after every change of its tick, so its read stands before the next tick's landings. -/
def execNget (f : Frame) (d : Num4) (ns : Num3) (part : Sys2Proof.Part) (s : State) : Out :=
  .next (nativeWord .a (.nget f d ns part) f (fun _ _ => .ok)
    (fun x s => s.addDue x.p ⟨x.t + 1, 0, x.who, .nget d.val ns.val part⟩) s)

def noisePart (n : NoiseSlot) : Sys2Proof.Part → Word
  | .keylo => n.key.setWidth 64
  | .keyhi => (n.key >>> 64).setWidth 64
  | .ctrlo => n.ctr.setWidth 64
  | .ctrhi => (n.ctr >>> 64).setWidth 64
  | .stride => n.stride

def State.doNget (s : State) (p : Nat) (d : Due) (dst ns : Nat) (part : Sys2Proof.Part) : State :=
  s.addDue p { d with tick := d.tick + 1, place := 2
                      act := .c dst ⟨noisePart ((s.core d.who.core).getNs ns) part, false⟩ }

end Sys2Proof.Machine
end

