-- ==== Sys2Proof/Machine/Vector.lean ====
section
/-! DEFINITION. The V cluster: the ring and its tracks, queue moves, element-wise arithmetic, conversion and
quantisation, reductions, permutes, masks, plane transposition and random draws (08). -/

namespace Sys2Proof.Machine

/-! ### Tracks (08 R192 to R196) -/

/-- Ticks from stop `a` to stop `b` on a track: tk0 to tk7 run clockwise (08 R193). -/
def transit (a b tk : Nat) : Nat := if tk < 8 then (b + 16 - a) % 16 else (a + 16 - b) % 16

/-- The stop of a bank. -/
def bankStop (bank : Nat) : Nat := 2 * bank

/-- Whether a track word stands at a stop at a tick; not at the stop that injected it. -/
def trackHolds (tk stop t : Nat) (w : TrackWord) : Bool :=
  w.stop != stop && w.tick + transit w.stop stop tk == t

/-- The word a track holds at a stop at a tick. -/
def Core.trackAt (k : Core) (tk stop t : Nat) : Option TrackWord :=
  (tget [] k.tracks tk).find? (trackHolds tk stop t)

def Core.putTrack (k : Core) (tk t : Nat) (w : TrackWord) : Core :=
  { k with tracks := tset [] k.tracks tk ((tget [] k.tracks tk).filter (fun e => decide (t < e.tick + 16)) ++ [w]) }

/-- A taking: the word, or 64 zero bytes and an empty tap (08 R196). -/
def Core.take (k : Core) (tk stop t : Nat) : Core × PRow :=
  match k.trackAt tk stop t with
  | some w => (k, ⟨w.v, w.p⟩)
  | none => (k.emptyTap tk, Pv.zero)

/-- The taking of one's own injection: where it was discarded the slot is empty, whatever the track holds (08 R195). -/
def Core.takeOwn (k : Core) (tk stop t : Nat) (own : TrackWord → Bool) : Core × PRow :=
  match k.trackAt tk stop t with
  | some w => if own w then (k, ⟨w.v, w.p⟩) else (k.emptyTap tk, Pv.zero)
  | none => (k.emptyTap tk, Pv.zero)

/-- The stop at which the table engine takes and injects (12 R265). -/
def tieStop : Nat := 7

/-- The earliest-issued of some injections; of those with one issue tick, the one that stands first in the landing order of 15
R295 (DEDUCED, log entry 91). -/
def earliestDue : Due → List Due → Due
  | d, [] => d
  | d, e :: l => earliestDue (if e.who.issue < d.who.issue then e else d) l

/-- An injection at its tick: alone it enters the track; with another, or onto a word, every injection there is
discarded (08 R195). -/
def State.doInject (s : State) (p : Nat) (d : Due) (tk stop : Nat) (w : Row) (pois : Bool) : State :=
  let c := d.who.core
  let t := d.tick
  let same (e : Due) : Bool := e.tick == t && e.who.core == c &&
    (match e.act with | .inject tk' stop' _ _ => tk' == tk && stop' == stop | _ => false)
  let rivals := (s.part p).pend.filter same
  if rivals.isEmpty && ((s.core c).trackAt tk stop t).isNone then
    s.modCore c fun k => k.putTrack tk t ⟨stop, t, w, pois, d.who⟩
  else
    let s := s.modPart p fun k => { k with pend := k.pend.filter (!same ·) }
    s.addCond p ⟨t, .trackCollision, (earliestDue d rivals).who, BitVec.ofNat 64 (tk + 16 * stop), .continue_⟩

/-- VRD's taking at stop 1, landing one tick later. -/
def State.doTapV (s : State) (p : Nat) (d : Due) (r tk : Nat) : State :=
  let (k, v) := (s.core d.who.core).takeOwn tk 1 d.tick (·.who == d.who)
  (s.setCore d.who.core k).addDue p { d with tick := d.tick + 1, place := 3, act := .v r v.v (BitVec.allOnes 512) v.p }

/-- A bank takes a word: it lands one tick later, in the place of the unit that injected it (08 R194, 15 R295). A row
beyond the store takes nothing. The rows of a TRUN share one word, and each is known by the slot in which it left stop 7. -/
def State.doBankTake (s : State) (p : Nat) (d : Due) (tk stop : Nat) (off : Option Nat) (mask : Row) : State :=
  let src := if d.who.unit = .e1 then tieStop else 1
  let (k, v) := (s.core d.who.core).takeOwn tk stop d.tick fun w => w.who == d.who && w.stop == src
  let s := s.setCore d.who.core k
  match off with
  | none => s
  | some o => s.addDue p
      { d with tick := d.tick + 1, place := unitPlace d.who.unit
               act := .write ⟨.ring d.who.core o, 0xF, 0, false, d.tick + 1, [], false⟩ v.v mask v.p }

/-- Inject a word at a stop at a tick. -/
def State.injectAt (s : State) (x : Ctx) (tick tk stop : Nat) (v : PRow) : State :=
  s.addDue x.p ⟨tick, 0, x.who, .inject tk stop v.v v.p⟩

/-- The ring offset of a location. -/
def ringOff : Option Loc → Option Nat
  | some (.ring _ o) => some o
  | _ => none

/-- A bank row as a read finds it now: elements outside read 0, a late row is poisoned (08 R203). -/
def State.readBank (s : State) (p c : Nat) (loc : Option Loc) (mask : Row) : PRow :=
  match loc with
  | some (.ring r o) =>
    ⟨rowOfBytes (Memory.readBytes (s.core r).ring o 64) &&& mask,
      tget false (s.core r).ringP (o / 64) || s.lateTo p (.ring c o) 64⟩
  | _ => Pv.zero

/-- An uncorrectable error in the bank row that is read (18 R337). -/
def State.memoryProbe (s : State) (x : Ctx) (stream : Nat) (loc : Option Loc) : Probe :=
  match loc with
  | some (.ring c o) =>
    .when (s.spoilt (.ring c o) 64) ⟨[(.memoryError, memoryStatus x.c stream (.ring c o), true)], []⟩
  | _ => .ok

/-- The checks of VRD and VWR on their stream (08 R203, R204). -/
def State.bankProbe (s : State) (x : Ctx) (st : Nat) (read : Bool) : Probe :=
  let (r, l) := (s.core x.c).stream st
  let e := s.rowAt x.c l st r.cur
  (layProbe x.who.word r l .row (l.space == 0) (fun _ => true)).andThen (e.probe.andThen
    (if read then (s.earlyProbe x l e.own 64 x.t).andThen (s.memoryProbe x st e.own) else .ok))

def execVrd (f : Frame) (d : VReg) (st tk : Num4) (adv : Adv) (s : State) : Out :=
  .next (nativeWord .v (.vrd f d st tk adv) f (fun x s => s.bankProbe x st.val true) (fun x s =>
    let (r, l) := (s.core x.c).stream st.val
    let e := s.rowAt x.c l st.val r.cur
    let stop := bankStop e.bank
    let w := s.readBank x.p x.c e.own e.mask
    let late := (s.part x.p).loose && (match e.own with | some a => s.lateTo x.p a 64 | none => false)
    let s := s.injectAt x (x.t + 2) tk.val stop w
    let s := s.sampleAt x (x.t + 2 + transit stop 1 tk.val) (.tapV d.val tk.val)
    let s := if late then s.addDue x.p ⟨x.t + 3 + transit stop 1 tk.val, 0, x.who, .poisonMark⟩ else s
    s.advanceStream x st.val adv (rowElems l)) s)

def execVwr (f : Frame) (st : Num4) (a : VReg) (tk : Num4) (adv : Adv) (s : State) : Out :=
  .next (nativeWord .v (.vwr f st a tk adv) f (fun x s => s.bankProbe x st.val false) (fun x s =>
    let (r, l) := (s.core x.c).stream st.val
    let e := s.rowAt x.c l st.val r.cur
    let stop := bankStop e.bank
    let s := s.injectAt x (x.t + 1) tk.val 1 ((s.core x.c).getV a.val)
    let s := s.sampleAt x (x.t + 1 + transit 1 stop tk.val) (.bankTake tk.val stop (ringOff e.own) e.mask)
    s.advanceStream x st.val adv (rowElems l)) s)

def fullMask : Row := BitVec.allOnes 512

def execVtap (f : Frame) (d : VReg) (tk : Num4) (s : State) : Out :=
  .next (nativeWord .v (.vtap f d tk) f (fun _ _ => .ok) (fun x s =>
    let (k, v) := (s.core x.c).take tk.val 1 x.t
    (s.setCore x.c k).later x (x.t + 1) (.v d.val v.v fullMask v.p)) s)

def execVinj (f : Frame) (tk : Num4) (a : VReg) (s : State) : Out :=
  .next (nativeWord .v (.vinj f tk a) f (fun _ _ => .ok)
    (fun x s => s.injectAt x (x.t + 1) tk.val 1 ((s.core x.c).getV a.val)) s)

/-! ### Queue moves (08 R206) -/

/-- A 64-bit value in every 8-byte group. -/
def broadcast64 (v : Nat) : Row := BitVec.ofNat 512 (rowOfElems 64 (List.replicate 8 v))

def execVqpop (f : Frame) (d : VReg) (q : Num4) (s : State) : Out :=
  .next (nativeWord .v (.vqpop f d q) f (fun x s => s.popProbe x.c q.val x.t) (fun x s =>
    let (s, e) := s.pop x.c q.val
    s.later x (x.t + 2) (.v d.val (if q.val = 10 then broadcast64 (e.v.toNat % 2 ^ 64) else e.v) fullMask e.p)) s)

def execVqpush (f : Frame) (q : Num4) (a : VReg) (s : State) : Out :=
  .next (nativeWord .v (.vqpush f q a) f (fun x s => s.pushProbe x.p x.c q.val) (fun x s =>
    let u := (s.core x.c).getV a.val
    s.pushLater x q.val (x.t + 2) (if q.val = 11 then u.v &&& BitVec.ofNat 512 (2 ^ 64 - 1) else u.v) u.p) s)

/-! ### Element-wise operations -/

/-- The mask operand: its value, and the poison it brings; k0 makes every element active (08 R200). -/
def Core.maskOf (k : Core) (m : Nat) : PWord := if m = 0 then Pv.zero else k.getK m

/-- Land a masked result with its flags. -/
def State.landLanes (s : State) (x : Ctx) (lat d : Nat) (f : Fmt) (k : Nat) (m : PWord) (p : Bool)
    (r : List (Nat × Flags)) : State :=
  let fl := laneFlags (r.zipIdx.map fun (e, i) => (activeLane f k m.v i, e.2))
  let s := s.laterFlags x (x.t + lat) fl (p || m.p)
  s.later x (x.t + lat) (.v d (BitVec.ofNat 512 (rowOfElems f.bits (r.map (·.1)))) (laneMask f k m.v) (p || m.p))

/-- A masked operation of two registers. -/
def vec2 (i : Instr) (f : Frame) (lat : Nat) (d a b : VReg) (k : Num3) (fmt : Fmt)
    (g : Nat → Nat → Nat × Flags) : State → State :=
  nativeWord .v i f (fun _ _ => .ok) fun x s =>
    let u := (s.core x.c).getV a.val
    let v := (s.core x.c).getV b.val
    s.landLanes x lat d.val fmt k.val ((s.core x.c).maskOf k.val) (u.p || v.p)
      (List.zipWith g (elemsOf fmt.bits u.v) (elemsOf fmt.bits v.v))

/-- Integer readings of an element (08 R207). -/
def laneInt (fmt : Fmt) (n : Nat) : Int := if isSignedFmt fmt then sgn fmt.bits n else (n % 2 ^ fmt.bits : Nat)

def laneAdd (fmt : Fmt) (a b : Nat) : Nat := (a + b) % 2 ^ fmt.bits
def laneSub (fmt : Fmt) (a b : Nat) : Nat := unsgn fmt.bits ((a : Int) - b)
def laneMul (fmt : Fmt) (a b : Nat) : Nat := unsgn fmt.bits (laneInt fmt a * laneInt fmt b)
def laneMulh (fmt : Fmt) (a b : Nat) : Nat := unsgn fmt.bits ((laneInt fmt a * laneInt fmt b).fdiv (2 ^ fmt.bits : Nat))
def laneMin (fmt : Fmt) (a b : Nat) : Nat := if laneInt fmt b < laneInt fmt a then b else a
def laneMax (fmt : Fmt) (a b : Nat) : Nat := if laneInt fmt a < laneInt fmt b then b else a
def laneShl (fmt : Fmt) (a b : Nat) : Nat := a * 2 ^ (b % fmt.bits) % 2 ^ fmt.bits
def laneShr (fmt : Fmt) (a b : Nat) : Nat := unsgn fmt.bits ((laneInt fmt a).fdiv (2 ^ (b % fmt.bits) : Nat))

/-- A masked integer operation: no flags. -/
def vecInt (i : Instr) (f : Frame) (d a b : VReg) (k : Num3) (fmt : Fmt) (g : Fmt → Nat → Nat → Nat) : State → State :=
  vec2 i f 2 d a b k fmt fun u v => (g fmt u v, 0)

def execVadd (f : Frame) (d a b : VReg) (k : Num3) (fmt : Fmt) (s : State) : Out :=
  .next (vecInt (.vadd f d a b k fmt) f d a b k fmt laneAdd s)
def execVsub (f : Frame) (d a b : VReg) (k : Num3) (fmt : Fmt) (s : State) : Out :=
  .next (vecInt (.vsub f d a b k fmt) f d a b k fmt laneSub s)
def execVmul (f : Frame) (d a b : VReg) (k : Num3) (fmt : Fmt) (s : State) : Out :=
  .next (vecInt (.vmul f d a b k fmt) f d a b k fmt laneMul s)
def execVmulh (f : Frame) (d a b : VReg) (k : Num3) (fmt : Fmt) (s : State) : Out :=
  .next (vecInt (.vmulh f d a b k fmt) f d a b k fmt laneMulh s)
def execVmin (f : Frame) (d a b : VReg) (k : Num3) (fmt : Fmt) (s : State) : Out :=
  .next (vecInt (.vmin f d a b k fmt) f d a b k fmt laneMin s)
def execVmax (f : Frame) (d a b : VReg) (k : Num3) (fmt : Fmt) (s : State) : Out :=
  .next (vecInt (.vmax f d a b k fmt) f d a b k fmt laneMax s)
def execVand (f : Frame) (d a b : VReg) (k : Num3) (fmt : Fmt) (s : State) : Out :=
  .next (vecInt (.vand f d a b k fmt) f d a b k fmt (fun _ u v => u &&& v) s)
def execVor (f : Frame) (d a b : VReg) (k : Num3) (fmt : Fmt) (s : State) : Out :=
  .next (vecInt (.vor f d a b k fmt) f d a b k fmt (fun _ u v => u ||| v) s)
def execVxor (f : Frame) (d a b : VReg) (k : Num3) (fmt : Fmt) (s : State) : Out :=
  .next (vecInt (.vxor f d a b k fmt) f d a b k fmt (fun _ u v => u ^^^ v) s)
def execVshl (f : Frame) (d a b : VReg) (k : Num3) (fmt : Fmt) (s : State) : Out :=
  .next (vecInt (.vshl f d a b k fmt) f d a b k fmt laneShl s)
def execVshr (f : Frame) (d a b : VReg) (k : Num3) (fmt : Fmt) (s : State) : Out :=
  .next (vecInt (.vshr f d a b k fmt) f d a b k fmt laneShr s)

/-- A mask from per-lane bits. -/
def maskWord (l : List Bool) : Word := BitVec.ofNat 64 (rowOfElems 1 (l.map fun b => if b then 1 else 0))

/-- A compare: active lanes that hold give 1, every other bit 0 (08 R208, R210). -/
def vecCmp (i : Instr) (f : Frame) (kd : Num3) (a b : VReg) (k : Num3) (fmt : Fmt)
    (g : Nat → Nat → Bool × Flags) : State → State :=
  nativeWord .v i f (fun _ _ => .ok) fun x s =>
    let u := (s.core x.c).getV a.val
    let v := (s.core x.c).getV b.val
    let m := (s.core x.c).maskOf k.val
    let p := u.p || v.p || m.p
    let r := (List.zipWith g (elemsOf fmt.bits u.v) (elemsOf fmt.bits v.v)).zipIdx.map fun (e, i) =>
      (activeLane fmt k.val m.v i, e)
    let s := s.laterFlags x (x.t + 2) (laneFlags (r.map fun e => (e.1, e.2.2))) p
    s.later x (x.t + 2) (.k kd.val ⟨maskWord (r.map fun e => e.1 && e.2.1), p⟩)

def execVcmpi (f : Frame) (kd : Num3) (a b : VReg) (k : Num3) (fmt : Fmt) (cond : Cond) (s : State) : Out :=
  .next (vecCmp (.vcmpi f kd a b k fmt cond) f kd a b k fmt
    (fun u v => (iCmp cond (laneInt fmt u) (laneInt fmt v), 0)) s)

/-! ### Draws of a noise slot (04 R68, R90) -/

/-- The first `n` sequential draws of a slot as uniform draws. -/
def slotDraws (n : NoiseSlot) (m : Nat) : List Draw := (List.range m).map fun (j : Nat) => uniDraw (slotBlock n j)

/-- Make `m` draws where the mode is `sto`: the slot advances at once (08 R209). -/
def State.drawSto (s : State) (c ns : Nat) (rm : Rm) (m : Nat) : State × List Draw :=
  if rm == .sto then
    let n := (s.core c).getNs ns
    (s.modCore c fun k => k.setNs ns (slotAfter n m), slotDraws n m)
  else (s, List.replicate m 0)

/-- A masked float operation of two registers with a rounding mode (08 R209). -/
def vecFloat (i : Instr) (f : Frame) (lat : Nat) (d a b : VReg) (k : Num3) (fmt : Fmt) (rm : Rm) (ns : Num3)
    (g : Fmt → Rm → Draw → Nat → Nat → Nat × Flags) : State → State :=
  nativeWord .v i f (fun _ _ => .ok) fun x s =>
    let u := (s.core x.c).getV a.val
    let v := (s.core x.c).getV b.val
    let m := (s.core x.c).maskOf k.val
    let (s, us) := s.drawSto x.c ns.val rm fmt.lanes
    s.landLanes x lat d.val fmt k.val m (u.p || v.p)
      (List.zipWith (fun (q : Draw) (e : Nat × Nat) => g fmt rm q e.1 e.2) us ((elemsOf fmt.bits u.v).zip (elemsOf fmt.bits v.v)))

def execVfadd (f : Frame) (d a b : VReg) (k : Num3) (fmt : Fmt) (rm : Rm) (ns : Num3) (s : State) : Out :=
  .next (vecFloat (.vfadd f d a b k fmt rm ns) f 4 d a b k fmt rm ns fAdd s)
def execVfsub (f : Frame) (d a b : VReg) (k : Num3) (fmt : Fmt) (rm : Rm) (ns : Num3) (s : State) : Out :=
  .next (vecFloat (.vfsub f d a b k fmt rm ns) f 4 d a b k fmt rm ns fSub s)
def execVfmul (f : Frame) (d a b : VReg) (k : Num3) (fmt : Fmt) (rm : Rm) (ns : Num3) (s : State) : Out :=
  .next (vecFloat (.vfmul f d a b k fmt rm ns) f 4 d a b k fmt rm ns fMul s)

def execVfma (f : Frame) (d a b c : VReg) (k : Num3) (fmt : Fmt) (rm : Rm) (ns : Num3) (s : State) : Out :=
  .next (nativeWord .v (.vfma f d a b c k fmt rm ns) f (fun _ _ => .ok) (fun x s =>
    let u := (s.core x.c).getV a.val
    let v := (s.core x.c).getV b.val
    let w := (s.core x.c).getV c.val
    let m := (s.core x.c).maskOf k.val
    let (s, us) := s.drawSto x.c ns.val rm fmt.lanes
    s.landLanes x 5 d.val fmt k.val m (u.p || v.p || w.p)
      (List.zipWith (fun (q : Draw) (e : Nat × Nat × Nat) => fMa fmt rm q e.1 e.2.1 e.2.2) us
        ((elemsOf fmt.bits u.v).zip ((elemsOf fmt.bits v.v).zip (elemsOf fmt.bits w.v))))) s)

def execVfmin (f : Frame) (d a b : VReg) (k : Num3) (fmt : Fmt) (s : State) : Out :=
  .next (vec2 (.vfmin f d a b k fmt) f 2 d a b k fmt (fun u v => (fMin fmt u v, 0)) s)
def execVfmax (f : Frame) (d a b : VReg) (k : Num3) (fmt : Fmt) (s : State) : Out :=
  .next (vec2 (.vfmax f d a b k fmt) f 2 d a b k fmt (fun u v => (fMax fmt u v, 0)) s)

/-- A masked operation of one register without flags. -/
def vec1 (i : Instr) (f : Frame) (lat : Nat) (d a : VReg) (k : Num3) (fmt : Fmt) (g : Nat → Nat) : State → State :=
  nativeWord .v i f (fun _ _ => .ok) fun x s =>
    let u := (s.core x.c).getV a.val
    s.landLanes x lat d.val fmt k.val ((s.core x.c).maskOf k.val) u.p ((elemsOf fmt.bits u.v).map fun e => (g e, 0))

def execVfabs (f : Frame) (d a : VReg) (k : Num3) (fmt : Fmt) (s : State) : Out :=
  .next (vec1 (.vfabs f d a k fmt) f 2 d a k fmt (fAbs fmt) s)
def execVfneg (f : Frame) (d a : VReg) (k : Num3) (fmt : Fmt) (s : State) : Out :=
  .next (vec1 (.vfneg f d a k fmt) f 2 d a k fmt (fNeg fmt) s)

def execVfcmp (f : Frame) (kd : Num3) (a b : VReg) (k : Num3) (fmt : Fmt) (cond : Cond) (s : State) : Out :=
  .next (vecCmp (.vfcmp f kd a b k fmt cond) f kd a b k fmt (fCmp fmt cond) s)

/-! ### Conversion, quantisation and decoding (08 R211 to R213) -/

/-- VCVT: the low n elements convert under the mask; every element above is 0 whatever the mask. The mask bit of element i is that of
the destination format (08 R200; DESIGN CHOICE, log entry 22). -/
def execVcvt (f : Frame) (d a : VReg) (k : Num3) (dst src : Fmt) (rm : Rm) (ns : Num3) (s : State) : Out :=
  .next (nativeWord .v (.vcvt f d a k dst src rm ns) f (fun _ _ => .ok) (fun x s =>
    let u := (s.core x.c).getV a.val
    let m := (s.core x.c).maskOf k.val
    let n := min src.lanes dst.lanes
    let (s, us) := s.drawSto x.c ns.val rm n
    let r := List.zipWith (fun (q : Draw) (e : Nat) => convert dst src rm q e) us ((elemsOf src.bits u.v).take n)
    let act := fun i => activeLane dst k.val m.v i
    let fl := laneFlags (r.zipIdx.map fun (e, i) => (act i, e.2))
    let mask := rowOfElems dst.bits ((List.range dst.lanes).map fun i =>
      if n ≤ i || act i then 2 ^ dst.bits - 1 else 0)
    let p := u.p || m.p
    let s := s.laterFlags x (x.t + 4) fl p
    s.later x (x.t + 4) (.v d.val (BitVec.ofNat 512 (rowOfElems dst.bits (r.map (·.1)))) (BitVec.ofNat 512 mask) p)) s)

/-- VSTAT.QP, the planes of VQMX to MXINT8 (08 R202). -/
def Core.qp (k : Core) : Nat := fld k.vstat.toNat 8 4

def execVqmx (f : Frame) (d a : VReg) (fmt : Fmt) (rm : Rm) (ns : Num3) (s : State) : Out :=
  .next (nativeWord .v (.vqmx f d a fmt rm ns) f
    (fun x s => .when (fmt == .mxint8 && decide (8 < (s.core x.c).qp)) (.trap .reservedField x.who.word))
    (fun x s =>
      let u := (s.core x.c).getV a.val
      let v := (s.core x.c).getV ((a.val + 1) % 32)
      let q := (s.core x.c).qp
      let (s, us) := s.drawSto x.c ns.val rm 32
      let (e, ys, fl) := quantMx fmt ((elemsOf 32 u.v ++ elemsOf 32 v.v).map (vIn .fp32)) rm (if q = 0 then 8 else q) us
      let s := s.laterFlags x (x.t + 4) fl (u.p || v.p)
      s.later x (x.t + 4)
        (.v d.val (BitVec.ofNat 512 (rowOfElems fmt.bits ys + e * 2 ^ 256)) fullMask (u.p || v.p))) s)

/-- The values VDQ decodes from a register (08 R213). -/
def dqValues (src : Fmt) (r : Row) : List Num :=
  let byte (i : Nat) : Nat := elemOf 8 r i
  match src with
  | .kc2 => (List.range 4).flatMap fun j => (List.range 8).map fun i => kc2Value (elemOf 16 r j) (byte 8) i
  | .dev8 => (List.range 32).map fun i => sigDev8 (byte i)
  | f => (List.range 32).map fun i => mxValue f (byte 32) (elemOf f.bits r i)

def execVdq (f : Frame) (d a : VReg) (dst src : Fmt) (s : State) : Out :=
  .next (nativeWord .v (.vdq f d a dst src) f (fun _ _ => .ok) (fun x s =>
    let u := (s.core x.c).getV a.val
    let r := (dqValues src u.v).map fun n => vOut dst n .rne 0
    let s := s.laterFlags x (x.t + 4) (orFlags (r.map (·.2))) u.p
    let vals := r.map (·.1)
    let s := s.later x (x.t + 4) (.v d.val (BitVec.ofNat 512 (rowOfElems dst.bits (vals.take dst.lanes))) fullMask u.p)
    if dst == .fp32 then
      s.later x (x.t + 4) (.v ((d.val + 1) % 32) (BitVec.ofNat 512 (rowOfElems 32 (vals.drop 16))) fullMask u.p)
    else s) s)

/-! ### Reductions, permutes and element moves (08 R214, R215) -/

def execVred (f : Frame) (d a : VReg) (k : Num3) (fmt : Fmt) (red : Red) (s : State) : Out :=
  .next (nativeWord .v (.vred f d a k fmt red) f (fun _ _ => .ok) (fun x s =>
    let u := (s.core x.c).getV a.val
    let m := (s.core x.c).maskOf k.val
    let (v, fl) := reduce fmt red ((elemsOf fmt.bits u.v).zipIdx.map fun (e, i) => (e, activeLane fmt k.val m.v i))
    let s := s.laterFlags x (x.t + 6) fl (u.p || m.p)
    s.later x (x.t + 6) (.v d.val (BitVec.ofNat 512 v) fullMask (u.p || m.p))) s)

def execVperm (f : Frame) (d a b : VReg) (k : Num3) (fmt : Fmt) (s : State) : Out :=
  .next (nativeWord .v (.vperm f d a b k fmt) f (fun _ _ => .ok) (fun x s =>
    let u := (s.core x.c).getV a.val
    let v := (s.core x.c).getV b.val
    s.landLanes x 3 d.val fmt k.val ((s.core x.c).maskOf k.val) (u.p || v.p)
      ((elemsOf fmt.bits v.v).map fun j => (elemOf fmt.bits u.v (j % fmt.lanes), 0))) s)

/-- An unmasked move whose elements come from one register. -/
def vecMove (i : Instr) (f : Frame) (d a : VReg) (fmt : Fmt) (g : Row → Nat → Nat) : State → State :=
  nativeWord .v i f (fun _ _ => .ok) fun x s =>
    let u := (s.core x.c).getV a.val
    s.later x (x.t + 3)
      (.v d.val (BitVec.ofNat 512 (rowOfElems fmt.bits ((List.range fmt.lanes).map (g u.v)))) fullMask u.p)

def execVslide (f : Frame) (d a : VReg) (fmt : Fmt) (n : BitVec 31) (s : State) : Out :=
  .next (vecMove (.vslide f d a fmt n) f d a fmt (fun r i =>
    let j := (i : Int) - n.toInt
    if 0 ≤ j && j < (fmt.lanes : Int) then elemOf fmt.bits r j.toNat else 0) s)

def execVbcst (f : Frame) (d a : VReg) (fmt : Fmt) (i : BitVec 31) (s : State) : Out :=
  .next (vecMove (.vbcst f d a fmt i) f d a fmt (fun r _ => elemOf fmt.bits r i.toNat) s)

def execVext (f : Frame) (d a : VReg) (fmt : Fmt) (i : BitVec 31) (s : State) : Out :=
  .next (vecMove (.vext f d a fmt i) f d a fmt (fun r j => if j = 0 then elemOf fmt.bits r i.toNat else 0) s)

def execVins (f : Frame) (d a : VReg) (fmt : Fmt) (i : BitVec 31) (s : State) : Out :=
  .next (nativeWord .v (.vins f d a fmt i) f (fun _ _ => .ok) (fun x s =>
    let u := (s.core x.c).getV a.val
    let at_ := 2 ^ (fmt.bits * i.toNat)
    s.later x (x.t + 3)
      (.v d.val (BitVec.ofNat 512 (elemOf fmt.bits u.v 0 * at_)) (BitVec.ofNat 512 ((2 ^ fmt.bits - 1) * at_)) u.p)) s)

/-- VSEL chooses bytes; with k0 it delivers va, and any poisoned operand poisons the result (08 R215). -/
def execVsel (f : Frame) (d a b : VReg) (k : Num3) (s : State) : Out :=
  .next (nativeWord .v (.vsel f d a b k) f (fun _ _ => .ok) (fun x s =>
    let u := (s.core x.c).getV a.val
    let v := (s.core x.c).getV b.val
    let m := (s.core x.c).getK k.val
    let r := if k.val = 0 then u.v else mergeRow (byteMask m.v) v.v u.v
    s.later x (x.t + 3) (.v d.val r fullMask (u.p || v.p || m.p))) s)

/-! ### Masks (08 R216) -/

def execKset (f : Frame) (kd : Num3) (n : BitVec 43) (s : State) : Out :=
  .next (nativeWord .v (.kset f kd n) f (fun _ _ => .ok)
    (fun x s => s.later x (x.t + 1) (.k kd.val ⟨BitVec.ofNat 64 (2 ^ n.toNat - 1), false⟩)) s)

def lopWord (op : Lop) (a b : Word) : Word :=
  match op with
  | .and => a &&& b
  | .or => a ||| b
  | .xor => a ^^^ b
  | .andn => a &&& ~~~b

def execKlog (f : Frame) (kd ka kb : Num3) (op : Lop) (s : State) : Out :=
  .next (nativeWord .v (.klog f kd ka kb op) f (fun _ _ => .ok) (fun x s =>
    let u := (s.core x.c).getK ka.val
    let v := (s.core x.c).getK kb.val
    s.later x (x.t + 1) (.k kd.val ⟨lopWord op u.v v.v, u.p || v.p⟩)) s)

def execKcnt (f : Frame) (d : VReg) (ka : Num3) (s : State) : Out :=
  .next (nativeWord .v (.kcnt f d ka) f (fun _ _ => .ok) (fun x s =>
    let u := (s.core x.c).getK ka.val
    s.later x (x.t + 2) (.v d.val (BitVec.ofNat 512 (popcount u.v.toNat 64)) fullMask u.p)) s)

/-! ### Plane transposition (08 R217, R218) -/

/-- Four registers in order as one number of 2,048 bits. -/
def Core.quadValue (k : Core) (a : Nat) : Nat :=
  rowOfElems 512 ((List.range 4).map fun i => (k.getV ((a + i) % 32)).v.toNat)

def Core.quadPoison (k : Core) (a : Nat) : Bool := (List.range 4).any fun i => (k.getV ((a + i) % 32)).p

/-- The groups of 128 elements in four registers. -/
def quadGroups (f : Fmt) (n : Nat) : List Nat := (List.range (16 / f.bits)).map fun g => n / 2 ^ (128 * f.bits * g) % 2 ^ (128 * f.bits)

def groupElems (f : Fmt) (n : Nat) : List Nat := (List.range 128).map fun i => n / 2 ^ (f.bits * i) % 2 ^ f.bits

def transposed (f : Fmt) (n : Nat) : Nat := rowOfElems (128 * f.bits) ((quadGroups f n).map fun g => planesOf f (groupElems f g))

def untransposed (f : Fmt) (n : Nat) : Nat :=
  rowOfElems (128 * f.bits) ((quadGroups f n).map fun g => rowOfElems f.bits ((List.range 128).map (planeElem f g)))

/-- Both words read all sources at t and land all destinations together at t + 5. -/
def vecQuad (i : Instr) (f : Frame) (d a : VReg) (g : Nat → Nat) : State → State :=
  nativeWord .v i f (fun _ _ => .ok) fun x s =>
    let n := g ((s.core x.c).quadValue a.val)
    let p := (s.core x.c).quadPoison a.val
    (List.range 4).foldl (fun s j =>
      s.later x (x.t + 5) (.v ((d.val + j) % 32) (BitVec.ofNat 512 (n / 2 ^ (512 * j))) fullMask p)) s

def execVpln (f : Frame) (d a : VReg) (fmt : Fmt) (s : State) : Out :=
  .next (vecQuad (.vpln f d a fmt) f d a (transposed fmt) s)
def execVunpl (f : Frame) (d a : VReg) (fmt : Fmt) (s : State) : Out :=
  .next (vecQuad (.vunpl f d a fmt) f d a (untransposed fmt) s)

/-! ### Random draws (08 R219, R220) -/

/-- What a draw slot receives from a block: one element, or four of `raw`. -/
def drawValue (dist : Dist) (u : Nat) : Nat :=
  match dist with
  | .norm => (rndFloat .fp32 false (eps u) .rne 0).1
  | .unif => (rndFloat .fp32 false (uni u) .rtz 0).1
  | .raw => u

def drawBits (dist : Dist) : Nat := if dist == .raw then 128 else 32

/-- Index j of an indexed draw: a uint32 lane, for `raw` an int32 lane. -/
def drawIndex (dist : Dist) (r : Row) (j : Nat) : Int :=
  let v := elemOf 32 r j
  if dist == .raw && decide (2 ^ 31 ≤ v) then (v : Int) - 2 ^ 32 else v

/-- The blocks of the active slots in order: sequential ones count, indexed ones are named. -/
def drawBlocks (n : NoiseSlot) (idx : Option (Nat → Int)) : Nat → List Bool → List Nat → List Nat
  | _, [], _ => []
  | m, false :: l, _ :: js => 0 :: drawBlocks n idx m l js
  | m, true :: l, j :: js =>
    let u := match idx with
      | some r => slotBlock n (r j)
      | none => slotBlock n m
    u :: drawBlocks n idx (m + 1) l js
  | _, _ :: _, [] => []

def execVrng (f : Frame) (d a : VReg) (ns : Num3) (k : Num3) (fmt : Fmt) (dist : Dist) (idx : Bool) (s : State) : Out :=
  .next (nativeWord .v (.vrng f d a ns k fmt dist idx) f (fun _ _ => .ok) (fun x s =>
    let c := s.core x.c
    let u := c.getV a.val
    let m := c.maskOf k.val
    let n := c.getNs ns.val
    let slots := if dist == .raw then 4 else 16
    let act := (List.range slots).map fun i => if k.val = 0 then true else m.v.getLsbD i
    let blocks := drawBlocks n (if idx then some (drawIndex dist u.v) else none) 0 act (List.range slots)
    let b := drawBits dist
    let vals := blocks.map (drawValue dist)
    let mask := rowOfElems b (act.map fun q => if q then 2 ^ b - 1 else 0)
    let s := if idx then s else s.modCore x.c fun c => c.setNs ns.val (slotAfter n (act.filter id).length)
    s.later x (x.t + 6) (.v d.val (BitVec.ofNat 512 (rowOfElems b vals)) (BitVec.ofNat 512 mask) ((idx && u.p) || m.p))) s)

end Sys2Proof.Machine
end

