-- ==== Sys2Proof/Machine/Matrix.lean ====
section
/-! DEFINITION. The M cluster: configuration, weight loads, perturbed weights, passes, clears and drains, ports and
power gating of the sub-arrays (10), with the arithmetic of 04 R81 to R86. -/

namespace Sys2Proof.Machine

/-! ### Selection and stops (10 R228) -/

def selected (sa : SaMask) : List Nat := (List.range 4).filter fun i => sa.getLsbD i

/-- The stop of sub-array i's port (08 R192). -/
def saStop (i : Nat) : Nat := match i with | 0 => 3 | 1 => 5 | 2 => 9 | _ => 11

/-- The lead sub-array: lowest on tk0 to tk7, highest on tk8 to tk15. -/
def leadOf (sel : List Nat) (tk : Nat) : Nat := if tk < 8 then sel.headD 0 else sel.getLastD 0

/-- o_i of R228. -/
def saOffset (sel : List Nat) (tk i : Nat) : Nat := transit (saStop (leadOf sel tk)) (saStop i) tk

/-! ### Weights (10 R227, R230) -/

def isIntPair (f : Fmt) : Bool := f == .int8 || f == .int4

/-- Words of a weight load. -/
def weightWords (f : Fmt) : Nat :=
  match f with
  | .bf16 => 256
  | .int4 => 64
  | .mxint8 => 132
  | .mxfp4 => 68
  | .kc2 => 36
  | _ => 128

def WeightSet.word (w : WeightSet) (j : Nat) : Row := tget 0 w.words j

/-- Weight (k, n) of a set as a value (10 R227, 04 R72 to R75). -/
def WeightSet.value (w : WeightSet) (k n : Nat) : Num :=
  let b := k / 32
  match w.fmt with
  | .bf16 => toNum .bf16 false (elemOf 16 (w.word (2 * k + n / 32)) (n % 32))
  | .int4 => numOfInt (sgn 4 (elemOf 4 (w.word (k / 2)) (k % 2 * 64 + n)))
  | .mxint8 => mxValue .mxint8 (elemOf 8 (w.word (128 + b)) n) (elemOf 8 (w.word k) n)
  | .mxfp4 => mxValue .mxfp4 (elemOf 8 (w.word (64 + b)) n) (elemOf 4 (w.word (k / 2)) (k % 2 * 64 + n))
  | .kc2 => kc2Value (elemOf 16 (w.word (2 * (k / 8) + n / 32)) (n % 32)) (elemOf 8 (w.word (32 + b)) n) (k % 8)
  | f => toNum f false (elemOf 8 (w.word k) n)

/-- The noise counter of weight index `idx` (04 R91): tensor id ‖ member ‖ 0x0000 ‖ idx. -/
def weightCounter (hi : BitVec 48) (idx : Nat) : BitVec 128 := BitVec.ofNat 128 (hi.toNat * 2 ^ 80 + idx % 2 ^ 64)

/-- DEV8 words of an MLWP stand above the mean words in the set being filled. -/
def devWord : Nat := 1000

/-- One row k of perturbed weights: patterns of the set's format and their flags. -/
def perturbRow (w : WeightSet) (key : BitVec 128) (hi : BitVec 48) (base len : Word) (k : Nat) : List (Nat × Flags) :=
  (List.range 64).map fun n =>
    let mu := elemOf 16 (w.word (2 * k + n / 32)) (n % 32)
    let rho := elemOf 8 (w.word (devWord + k)) n
    perturbed w.fmt mu rho (nmx key (weightCounter hi (base.toNat + k * len.toNat + n)))

/-- The set an MLWP leaves, as words of its format, with the flags of its 8,192 roundings (10 R230). -/
def perturbSet (w : WeightSet) (key : BitVec 128) (hi : BitVec 48) (base len : Word) : WeightSet × Flags :=
  let rows := (List.range 128).map (perturbRow w key hi base len)
  let fl := rows.foldl (fun acc r => acc ||| orFlags (r.map (·.2))) 0
  let put (t : Tbl Row) (j : Nat) (l : List Nat) (b : Nat) : Tbl Row := tset 0 t j (BitVec.ofNat 512 (rowOfElems b l))
  let words := rows.zipIdx.foldl (fun t (r, k) =>
    let v := r.map (·.1)
    if w.fmt == .bf16 then put (put t (2 * k) (v.take 32) 16) (2 * k + 1) (v.drop 32) 16 else put t k v 8) []
  (⟨w.fmt, words, w.p⟩, fl)

/-! ### Row packets (10 R226, 04 R85, R86) -/

/-- Bit planes of a row packet: sign, exponent and p - 1 fraction planes of a float; p planes of an integer. -/
def packetPlanes (f : Fmt) (p : Nat) : Nat :=
  match floatFmt f with
  | some ff => 1 + ff.eb + (p - 1)
  | none => p

/-- W_A: words of a row packet; an MX format adds its scale word. -/
def packetWords (f : Fmt) (p : Nat) : Nat := (packetPlanes f p + 3) / 4 + if f.isMx then 1 else 0

/-- Element k of a packet at the declared precision. -/
def packetElem (f : Fmt) (p : Nat) (words : List Row) (k : Nat) : Nat :=
  (List.range (packetPlanes f p)).foldl (fun acc q =>
    let w := (listNth words (q / 4)).getD 0
    acc + bitAt w.toNat (128 * (q % 4) + k) * 2 ^ planeBit f q) 0

/-- valA(k) of 04 R81. -/
def packetValue (f : Fmt) (p : Nat) (words : List Row) (k : Nat) : Num :=
  let e := packetElem f p words k
  let scale := elemOf 8 ((listNth words (packetWords f p - 1)).getD 0) (k / 32)
  match f with
  | .int8 | .int4 => numOfInt (sgn p e)
  | .mxint8 => scaleE8m0 scale (scaleNum (numOfInt (sgn p e)) (-6))
  | .mxfp8e4m3 | .mxfp8e5m2 | .mxfp4 => mxValue f scale e
  | _ => toNum f false e

/-! ### Passes (04 R81 to R83) -/

def accF (w : Word) : Nat := w.toNat % 2 ^ 32
def accA (w : Word) : Nat := w.toNat / 2 ^ 32 % 2 ^ 26
def accWord (f a : Nat) : Word := BitVec.ofNat 64 (f % 2 ^ 32 + a % 2 ^ 26 * 2 ^ 32)

/-- The exact sum of values. -/
def sumNums : List Num → Num
  | [] => .fin false 0 0
  | [x] => x
  | x :: l => (addNum .rne x (sumNums l)).1

/-- The exact sum of products of one block of 32 K values. Infinities of both signs set NV whatever else the block holds
(04 R82). -/
def blockSum (l : List (Num × Num)) : Num × Flags :=
  let prods := l.map fun e => mulNum e.1 e.2
  let vals := prods.map (·.1)
  let opposed := vals.contains (.inf false) && vals.contains (.inf true)
  (if opposed then .nan else sumNums vals, orFlags (prods.map (·.2)) ||| (if opposed then flagNV else 0))

/-- One block into the acc26 part. -/
def accBlock (acc : Nat × Flags) (l : List (Num × Num)) : Nat × Flags :=
  let (s, f) := blockSum l
  let (sb, g) := rndFloat .acc26 true s .rne 0
  let (z, h) := addNum .rne (toNum .acc26 true acc.1) (toNum .acc26 true sb)
  let (r, i) := rndFloat .acc26 true z .rne 0
  (r, acc.2 ||| f ||| g ||| h ||| i)

/-- f ← RNE(fp32, f + a). -/
def promoteF (f a : Nat) : Nat × Flags :=
  let (z, g) := addNum .rne (toNum .fp32 false f) (toNum .acc26 true a)
  let (r, h) := rndFloat .fp32 false z .rne 0
  (r, g ||| h)

/-- One column of a float pass: the new element and its flags; `promote` is set where the count reaches P. -/
def floatColumn (old : Word) (va : List Num) (w : WeightSet) (n : Nat) (promote : Bool) : Word × Flags :=
  let prods := va.zipIdx.map fun (a, k) => (a, w.value k n)
  let (a, fl) := (List.range 4).foldl (fun acc b => accBlock acc ((prods.drop (32 * b)).take 32)) (accA old, 0)
  if promote then
    let (f, g) := promoteF (accF old) a
    (accWord f 0, fl ||| g)
  else (accWord (accF old) a, fl)

/-- A value that is an integer. -/
def Num.int? : Num → Option Int
  | .fin s m e =>
    let i : Option Nat := if 0 ≤ e then some (m * 2 ^ e.toNat) else if m % 2 ^ (-e).toNat = 0 then some (m / 2 ^ (-e).toNat) else none
    i.map fun (i : Nat) => if s then -(i : Int) else i
  | _ => none

/-- One column of an int48 pass: the exact products are added modulo 2^48 (04 R83). A weight set loaded in a float format may
give a product that is no integer, for which the manual states no sum (log entry 69). -/
def intColumn (old : Word) (va : List Num) (w : WeightSet) (n : Nat) : Option Word :=
  (va.zipIdx.foldl (fun (acc : Option Int) (a, k) =>
    acc.bind fun i => (mulNum a (w.value k n)).1.int?.map (i + ·)) (some (sgn 64 old.toNat))).map fun sum =>
      BitVec.ofInt 64 (sgn 48 (unsgn 48 sum))

/-- A row before a pass or a drain: a row of the other form reads as zero of its own form (10 R223). -/
def AccRow.asForm (r : AccRow) (int : Bool) : AccRow := if r.int = int then r else { r with el := [], count := 0, int := int }

/-- A pass on an accumulator row (10 R232). The pass count of an int48 row returns to 0 at P as a float row's does, though
nothing is promoted, and the flags of a pass on a row already poisoned go into the row, which a drain withholds while the
row is poisoned (both DEDUCED, log entry 70). A sum that the manual does not state is a free value, drawn from `free` on. -/
def AccRow.pass (r : AccRow) (cfg : SaCfg) (w : WeightSet) (packet : List PRow) (free : Nat) : AccRow :=
  if packet.any (·.p) then { r with p := true }
  else
    let int := isIntPair cfg.fmtA
    let r := r.asForm int
    let r := if cfg.acc == .repl then { r with el := [], count := 0, p := false } else r
    let words := packet.map (·.v)
    let va := (List.range 128).map (packetValue cfg.fmtA cfg.planes words)
    let count := min 127 (r.count + 1)
    let full := cfg.pro != 0 && count == cfg.pro
    if int then
      let el := (List.range 64).foldl (fun t n => tset 0 t n
        ((intColumn (tget 0 r.el n) va w n).getD (((Config.freeWord (free + n)).setWidth 48).signExtend 64))) r.el
      { r with el := el, count := if full then 0 else count, pint := cfg.pro }
    else
      let (el, fl) := (List.range 64).foldl (fun (acc : Tbl Word × Flags) n =>
        let (v, f) := floatColumn (tget 0 r.el n) va w n full
        (tset 0 acc.1 n v, acc.2 ||| f)) (r.el, r.flags)
      { r with el := el, flags := fl, count := if full then 0 else count, pint := cfg.pro }

/-- MPRO on one row, by its own form (10 R241). -/
def AccRow.promote (r : AccRow) : AccRow :=
  if r.int then r
  else
    let (el, fl) := r.el.foldl (fun (acc : Tbl Word × Flags) (n, v) =>
      let (f, g) := promoteF (accF v) (accA v)
      (tset 0 acc.1 n (accWord f 0), acc.2 ||| g)) (r.el, 0)
    { r with el := el, count := 0, flags := if r.p then r.flags else r.flags ||| fl }

/-- One element as MRD delivers it (10 R234). -/
def drainElem (r : AccRow) (int : Bool) (f : Fmt) (rm : Rm) (n : Nat) : Nat × Flags :=
  let v := tget 0 r.el n
  if int then
    let i := sgn 64 v.toNat
    match intFmt f with
    | some (b, sg) => let (lo, hi) := intLimits b sg; (unsgn b (clampInt lo hi i), 0)
    | none => rndFloat f (f == .acc26) (numOfInt i) rm 0
  else
    let (z, g) := addNum rm (toNum .fp32 false (accF v)) (toNum .acc26 true (accA v))
    let (x, h) := rndFloat f (f == .acc26) z rm 0
    (x, g ||| h)

/-- Bits of a drained element: acc26 in its container. -/
def drainBits (f : Fmt) : Nat := if f == .acc26 then 32 else f.bits

/-! ### The sub-array's rows -/

def SubArray.row (a : SubArray) (j : Nat) : AccRow := tget { AccRow.reset with int := a.form } a.rows j

def SubArray.setRow (a : SubArray) (j : Nat) (r : AccRow) : SubArray := { a with rows := tput a.rows j r }

/-! ### Power (10 R236) -/

def SubArray.awakeAt (a : SubArray) (t : Nat) : Bool :=
  match a.power with
  | .awake => true
  | .waking => decide (a.wakeAt ≤ t)
  | .gated => false

def SubArray.busyAt (a : SubArray) (t : Nat) : Bool :=
  decide (t < a.weightBusy) || decide (t < a.rowBusy) || decide (t < a.drainBusy)

/-- A wake starts on a gated sub-array. -/
def SubArray.startWake (a : SubArray) (t : Nat) : SubArray :=
  match a.power with
  | .gated => { a with power := .waking, wakeAt := t + wakeLatency, idle := 0, sleepAt := none }
  | _ => a

/-- A word names the sub-array on this tick: its idle count returns to 0. -/
def SubArray.name (a : SubArray) (t : Nat) : SubArray := { a with used := t, idle := 0 }

/-- Whether the sub-array gates at tick `t`: its idle count has reached MGATE, or MSLEEP's tick has come and no port is
busy. An MSLEEP of a waking sub-array holds until it is awake (DESIGN CHOICE, log entry 36). -/
def SubArray.gates (a : SubArray) (mgate t : Nat) : Bool :=
  a.power == .awake && !a.busyAt t &&
    ((mgate != 0 && decide (mgate ≤ a.idle)) || (match a.sleepAt with | some u => decide (u ≤ t) | none => false))

def Core.nameAll (k : Core) (sel : List Nat) (t : Nat) : Core := sel.foldl (fun k i => k.modSa i fun a => a.name t) k

/-- Gate a sub-array where its idle count or MSLEEP asks for it. -/
def execSubarrayGate (core sa : Nat) (s : State) : Out :=
  let s := s.popEvent
  let t := match s.partOf core with | some p => (s.part p).tick | none => 0
  let k := s.core core
  .next (if (k.getSa sa).gates k.mgate.toNat t then
      s.modCore core fun k => k.modSa sa fun a => { a with power := .gated, sleepAt := none }
    else s)

/-- A wake completes in wall time: the freeze that waited on it clears, and the word that waited names the sub-array
(10 R236, 01 R405). -/
def execSubarrayWakeDone (core sa : Nat) (s : State) : Out :=
  let s := s.popEvent
  match s.partOf core with
  | none => .next s
  | some p =>
    if (s.part p).waits.contains (.wake core sa) then
      let s := s.modCore core fun k => k.modSa sa fun a =>
        if a.power == .waking then { a with power := .awake, wakeAt := (s.part p).tick, idle := 0 } else a
      .next (s.modPart p fun k => k.clearWait (.wake core sa))
    else .next s

/-! ### Start checks (10 R235, R236) -/

inductive PortKind where
  | weight | row | drain
  deriving DecidableEq, Repr

def missStatus (sa : SaMask) (cause : Nat) : Word := BitVec.ofNat 64 (sa.toNat + cause * 16)

/-- Busy, then wake, then poison. A load that meets a load not yet swapped is no conflict: the earlier is abandoned. -/
def State.startProbe (s : State) (x : Ctx) (sa : SaMask) (kind : PortKind) (poison : Bool) : Probe :=
  let k := s.core x.c
  let sel := selected sa
  let loose := (s.part x.p).loose
  let busy := sel.any fun i =>
    let a := k.getSa i
    match kind with
    | .weight => decide (x.t < a.weightBusy) && a.swap.isNone
    | .row => decide (x.t < a.rowBusy)
    | .drain => decide (x.t < a.drainBusy)
  let asleep := if kind == .drain then [] else sel.filter fun i => !(k.getSa i).awakeAt x.t
  let miss (c : Nat) : Probe := .trap .scheduleMiss (missStatus sa c)
  if busy then miss 1
  else if !asleep.isEmpty then (if loose then miss 2 else ⟨[], asleep.map fun i => .wake x.c i⟩)
  else .when (loose && poison) (miss 0)

/-- Whether the checks of a word came as far as the wake check: nothing before it raised a trap, and no pop waits (10
R235, R239). -/
def wakeReached (sa : SaMask) (p : Nat) (old s : State) : Bool :=
  match (s.part p).conds.drop (old.part p).conds.length with
  | [] => ((s.part p).waits.drop (old.part p).waits.length).all fun w => match w with | .wake _ _ => true | _ => false
  | c :: _ => c.cls == .scheduleMiss && c.status != missStatus sa 1

/-- A word whose checks reach gated sub-arrays starts their wakes at its issue tick, whether it then waits or traps. -/
def wakeOnCheck (sa : SaMask) (f : Frame) (old s : State) : State :=
  match old.agenda with
  | .check p c _ :: _ =>
    if old.guardTrue p c f && wakeReached sa p old s then
      s.modCore c fun k => (selected sa).foldl (fun k i => k.modSa i fun a => a.startWake (old.part p).tick) k
    else s
  | _ => s

/-! ### Configuration (10 R237) -/

def execMcfg (f : Frame) (sa : SaMask) (fa fb : Fmt) (planes : BitVec 4) (acc : Acc) (pro : BitVec 7) (s : State) : Out :=
  .next (nativeWord .m (.mcfg f sa fa fb planes acc pro) f (fun _ _ => .ok) (fun x s =>
    let s := s.modCore x.c fun k => k.nameAll (selected sa) x.t
    (selected sa).foldl (fun s i => s.later x (x.t + 1) (.mcfg i ⟨fa, fb, planes.toNat, acc, pro.toNat⟩)) s) s)

/-! ### Loads (10 R227 to R230, R238, R239) -/

/-- Start a load on one sub-array: an earlier load that has not swapped is abandoned. -/
def State.startLoad (s : State) (x : Ctx) (i tkA tkB : Nat) (words oa ob : Nat)
    (noise : Option (BitVec 128 × BitVec 48 × Word × Word)) : State :=
  let a := (s.core x.c).getSa i
  let last := if noise.isSome then max (x.t + words + oa) (x.t + 255 + ob) else x.t + words + oa
  let run : LoadRun := ⟨i, a.loads + 1, a.cfg.fmtB, tkA, tkB, saStop i, noise⟩
  let s := s.modCore x.c fun k => k.modSa i fun a =>
    { a with loads := a.loads + 1, weightBusy := last + 1, swap := some (last + 1, run)
             back := ⟨a.cfg.fmtB, [], false⟩ }
  let s := s.sampleAt x (x.t + 1 + oa) (.weightTake run 0)
  let s := if noise.isSome then s.sampleAt x (x.t + 1 + ob) (.weightTake run devWord) else s
  s.addDue x.p ⟨last + 1, 4, x.who, .event (.weightSetSwap x.c i)⟩

/-- Take word j of a load at the sub-array's stop; the next word follows one tick later, or two for DEV8 words. An abandoned load takes
nothing more (10 R229; DESIGN CHOICE, log entry 108). -/
def State.doWeightTake (s : State) (p : Nat) (d : Due) (r : LoadRun) (j : Nat) : State :=
  let c := d.who.core
  if ((s.core c).getSa r.sa).loads ≠ r.id then s
  else
    let dev := decide (devWord ≤ j)
    let (k, v) := (s.core c).take (if dev then r.tkB else r.tkA) r.stop d.tick
    let k := k.modSa r.sa fun a => { a with back := { a.back with words := tset 0 a.back.words j v.v, p := a.back.p || v.p } }
    let s := s.setCore c k
    let more := if dev then decide (j + 1 < devWord + 128)
      else decide (j + 1 < (if r.noise.isSome then 256 else weightWords r.fmt))
    if more then s.addDue p { d with tick := d.tick + (if dev then 2 else 1), act := .weightTake r (j + 1) } else s

/-- The swap tick: later while an MMA still uses the old set; MLWP's weights are formed and its flags merged. -/
def execWeightSetSwap (core sa : Nat) (s : State) : Out :=
  let s := s.popEvent
  match s.partOf core with
  | none => .next s
  | some p =>
    let t := (s.part p).tick
    let a := (s.core core).getSa sa
    match a.swap with
    | none => .next s
    | some (u, r) =>
      if u ≠ t then .next s
      else if t < a.rowBusy then
        let s := s.modCore core fun k => k.modSa sa fun a => { a with swap := some (a.rowBusy, r) }
        .next (s.addDue p ⟨a.rowBusy, 4, ⟨core, .m, .cont 0, 0, 0, t⟩, .event (.weightSetSwap core sa)⟩)
      else
        let (w, fl) := match r.noise with
          | some (key, hi, base, len) => perturbSet a.back key hi base len
          | none => (a.back, 0)
        .next (s.modCore core fun k =>
          (k.modSa sa fun a => { a with active := w, back := a.active, swap := none }).raiseFlags (if w.p then 0 else fl))

def execMlw (f : Frame) (sa : SaMask) (tk : Num4) (s : State) : Out :=
  .next (wakeOnCheck sa f s (nativeWord .m (.mlw f sa tk) f
    (fun x s => s.startProbe x sa .weight false)
    (fun x s =>
      let sel := selected sa
      let s := s.modCore x.c fun k => k.nameAll sel x.t
      sel.foldl (fun s i =>
        s.startLoad x i tk.val tk.val (weightWords ((s.core x.c).getSa i).cfg.fmtB) (saOffset sel tk.val i) 0 none) s) s))

def execMlwp (f : Frame) (sa : SaMask) (tka tkb : Num4) (ns : Num3) (s : State) : Out :=
  .next (wakeOnCheck sa f s (nativeWord .m (.mlwp f sa tka tkb ns) f
    (fun x s =>
      let k := s.core x.c
      let bad := (selected sa).any fun i => let b := (k.getSa i).cfg.fmtB; !(b == .bf16 || b == .e4m3)
      let p := (s.peek x.c 12).p || (match listNth (k.getQueue 12) 1 with | some e => e.p | none => false)
      (Probe.when bad (.trap .illegalFormat x.who.word)).andThen
        (((s.popProbe x.c 12 x.t 0).andThen (s.popProbe x.c 12 x.t 1)).before (s.startProbe x sa .weight p)))
    (fun x s =>
      let sel := selected sa
      let (s, b) := s.pop x.c 12
      let (s, l) := s.pop x.c 12
      let n := (s.core x.c).getNs ns.val
      let noise := (n.key, (n.ctr >>> 80).setWidth 48, b.v.setWidth 64, l.v.setWidth 64)
      let s := s.modCore x.c fun k => k.nameAll sel x.t
      sel.foldl (fun s i =>
        s.startLoad x i tka.val tkb.val 256 (saOffset sel tka.val i) (saOffset sel tkb.val i) (some noise)) s) s))

/-! ### Multiply (10 R228, R232, R240) -/

/-- A poisoned set, or a poisoned row that a pass would add to (10 R235). -/
def Core.mmaPoison (k : Core) (sa : SaMask) (rows : Nat) : Bool := (selected sa).any fun i =>
  let a := k.getSa i
  a.active.p || (a.cfg.acc == .accum && a.rows.any fun e => decide (e.1 < rows) && e.2.p)

def execMma (f : Frame) (sa : SaMask) (tk : Num4) (rows : BitVec 38) (s : State) : Out :=
  .next (wakeOnCheck sa f s (nativeWord .m (.mma f sa tk rows) f
    (fun x s => s.startProbe x sa .row ((s.core x.c).mmaPoison sa rows.toNat))
    (fun x s =>
      let sel := selected sa
      let s := s.modCore x.c fun k => k.nameAll sel x.t
      sel.foldl (fun s i =>
        let a := (s.core x.c).getSa i
        let o := saOffset sel tk.val i
        let r : MmaRun := ⟨i, a.cfg, a.active, tk.val, saStop i, rows.toNat, x.t + 1 + o⟩
        let last := x.t + 1 + (rows.toNat - 1) * a.cfg.planes + (packetWords a.cfg.fmtA a.cfg.planes - 1) + o
        let s := s.modCore x.c fun k => k.modSa i fun a => { a with rowBusy := last + 1 }
        s.sampleAt x (x.t + 1 + o) (.mmaTake r 0 0 [])) s) s))

/-- Take word m of row j; after the last word the pass is set to land and the next row begins. -/
def State.doMmaTake (s : State) (p : Nat) (d : Due) (r : MmaRun) (j m : Nat) (got : List PRow) : State :=
  let c := d.who.core
  let (k, v) := (s.core c).take r.tk r.stop d.tick
  let s := s.setCore c k
  let got := got ++ [v]
  let n := r.cfg.planes
  if m + 1 < packetWords r.cfg.fmtA n then s.addDue p { d with tick := d.tick + 1, act := .mmaTake r j (m + 1) got }
  else
    let s := s.addDue p { d with tick := r.first + (j + 1) * n + 5, place := 4, act := .mmaPass r j got }
    if j + 1 < r.rows then s.addDue p { d with tick := r.first + (j + 1) * n, act := .mmaTake r (j + 1) 0 [] } else s

/-- The free values of `n` sums that a pass may need (04 R83; log entry 69). -/
def State.drawSums (s : State) (cfg : SaCfg) (w : WeightSet) (n : Nat) : State :=
  if isIntPair cfg.fmtA && !isIntPair w.fmt then { s with free := s.free + n } else s

def State.doMmaPass (s : State) (d : Due) (r : MmaRun) (j : Nat) (packet : List PRow) : State :=
  (s.drawSums r.cfg r.set 64).modCore d.who.core fun k => k.modSa r.sa fun a => a.setRow j ((a.row j).pass r.cfg r.set packet s.free)

/-! ### Clears and drains (10 R233, R234, R241, R242) -/

def execMacz (f : Frame) (sa : SaMask) (s : State) : Out :=
  .next (nativeWord .m (.macz f sa) f (fun _ _ => .ok) (fun x s =>
    let s := s.modCore x.c fun k => k.nameAll (selected sa) x.t
    (selected sa).foldl (fun s i =>
      s.later x (x.t + 1) (.clearRows i (isIntPair ((s.core x.c).getSa i).cfg.fmtA))) s) s)

/-- Every row cleared and in the given form; a row keeps only the P of its last pass. -/
def SubArray.clear (a : SubArray) (int : Bool) : SubArray :=
  { a with form := int
           rows := (a.rows.filter fun e => e.2.pint != 0).map fun e => (e.1, { AccRow.reset with pint := e.2.pint, int := int }) }

def execMpro (f : Frame) (sa : SaMask) (s : State) : Out :=
  .next (nativeWord .m (.mpro f sa) f (fun _ _ => .ok) (fun x s =>
    let s := s.modCore x.c fun k => k.nameAll (selected sa) x.t
    (selected sa).foldl (fun s i => s.later x (x.t + 1) (.promote i)) s) s)

def SubArray.promoteAll (a : SubArray) : SubArray := { a with rows := a.rows.map fun e => (e.1, e.2.promote) }

/-- MRD. Whether the format suits the accumulators as they are configured is looked at when the word starts, so under a true guard only
(DESIGN CHOICE, log entry 80). -/
def execMrd (f : Frame) (sa : SaMask) (tk : Num4) (fmt : Fmt) (rm : Rm) (rows : BitVec 30) (s : State) : Out :=
  .next (nativeWord .m (.mrd f sa tk fmt rm rows) f
    (fun x s =>
      let k := s.core x.c
      let bad := (selected sa).any fun i =>
        if isIntPair (k.getSa i).cfg.fmtA then !(fmt == .int32 || fmt == .int8 || fmt == .fp32 || fmt == .bf16)
        else !(fmt == .fp32 || fmt == .bf16 || fmt == .acc26)
      (Probe.when bad (.trap .illegalFormat x.who.word)).andThen (s.startProbe x sa .drain false))
    (fun x s =>
      let sel := selected sa
      let s := s.modCore x.c fun k => k.nameAll sel x.t
      sel.foldl (fun s i =>
        let a := (s.core x.c).getSa i
        let r : DrainRun := ⟨i, fmt, rm, tk.val, rows.toNat, isIntPair a.cfg.fmtA, 0⟩
        let s := s.modCore x.c fun k => k.modSa i fun a => { a with drainBusy := x.t + 2 + rows.toNat }
        s.sampleAt x (x.t + 1) (.drainRow r 0)) s) s)

/-- Row j is sampled, and injected on its tracks one tick later; the flags land with the last injection. -/
def State.doDrainRow (s : State) (p : Nat) (d : Due) (r : DrainRun) (j : Nat) : State :=
  let row := ((s.core d.who.core).getSa r.sa).row j
  let els := (List.range 64).map (drainElem (row.asForm r.int) r.int r.fmt r.rm)
  let b := drainBits r.fmt
  let per := 512 / b
  let s := (List.range (64 / per)).foldl (fun s w =>
    s.addDue p { d with tick := d.tick + 1, place := 0
                        act := .inject (r.tk + w) (saStop r.sa)
                          (BitVec.ofNat 512 (rowOfElems b (((els.drop (w * per)).take per).map (·.1)))) row.p }) s
  let fl := if row.p then r.flags else r.flags ||| orFlags (els.map (·.2))
  let r := { r with flags := fl }
  if j + 1 < r.rows then s.addDue p { d with tick := d.tick + 1, act := .drainRow r (j + 1) }
  else s.addDue p { d with tick := d.tick + 1, place := 4, act := .drainFlags r.sa r.rows fl }

/-- MRD's landing: held flags of the drained rows are merged and cleared (10 R234). Whether a row is poisoned is judged here for its held
flags, and as it is drained for the flags of its own rounding (DESIGN CHOICE, log entry 109). -/
def State.doDrainFlags (s : State) (d : Due) (sa rows : Nat) (extra : Flags) : State :=
  s.modCore d.who.core fun k =>
    let a := k.getSa sa
    let held := a.rows.foldl (fun acc e => if e.1 < rows && !e.2.p then acc ||| e.2.flags else acc) extra
    (k.setSa sa { a with rows := a.rows.map fun e => if e.1 < rows then (e.1, { e.2 with flags := 0 }) else e }).raiseFlags held

/-! ### Power words and status (10 R243, R244) -/

def execMwake (f : Frame) (sa : SaMask) (s : State) : Out :=
  .next (nativeWord .m (.mwake f sa) f (fun _ _ => .ok) (fun x s =>
    s.modCore x.c fun k => (selected sa).foldl (fun k i => k.modSa i fun a => (a.name x.t).startWake x.t) k) s)

def execMsleep (f : Frame) (sa : SaMask) (s : State) : Out :=
  .next (nativeWord .m (.msleep f sa) f (fun _ _ => .ok) (fun x s =>
    s.modCore x.c fun k => (selected sa).foldl (fun k i => k.modSa i fun a =>
      { a.name x.t with sleepAt := some (x.t + 1) }) k) s)

/-- The status word of a sub-array at `t`. -/
def SubArray.status (a : SubArray) (t : Nat) : Word :=
  let b (c : Bool) (n : Nat) : Nat := if c then 2 ^ n else 0
  let fl := a.rows.foldl (fun acc e => acc ||| e.2.flags) (0 : Flags)
  BitVec.ofNat 64 (b (a.awakeAt t) 0 + b (a.power == .waking && !a.awakeAt t) 1 +
    b (decide (t < a.weightBusy) || a.swap.isSome) 2 + b (decide (t < a.rowBusy)) 3 + b (decide (t < a.drainBusy)) 4 +
    b a.active.p 5 + fl.toNat * 2 ^ 6 + a.cfg.fmtA.code * 2 ^ 16 + a.cfg.fmtB.code * 2 ^ 21 + a.cfg.planes * 2 ^ 26 +
    a.cfg.acc.code * 2 ^ 30 + a.cfg.pro * 2 ^ 32)

def execMstat (f : Frame) (sa : SaMask) (s : State) : Out :=
  .next (nativeWord .m (.mstat f sa) f (fun x s => s.pushProbe x.p x.c 13) (fun x s =>
    let i := (selected sa).headD 0
    let v := ((s.core x.c).getSa i).status x.t
    let s := s.modCore x.c fun k => k.nameAll (selected sa) x.t
    s.pushLater x 13 (x.t + 2) (v.setWidth 512) false) s)

end Sys2Proof.Machine
end

