-- ==== Sys2Proof/Machine/Engine.lean ====
section
/-! DEFINITION. The engines (12): commands and results, the stack words, the copy engine with its loop nest, the
table-interpolation engine and the fabric exchange engine with its combining (16 R325 to R327). -/

namespace Sys2Proof.Machine

/-! ### Stores, commands and results (12 R247, R248, R251) -/

def storeSize : EngineId → Nat
  | .ce => 1024
  | _ => 512

/-- A control-store word; a word no object filled is 0xF000. -/
def Engine.word (g : Engine) (i : Nat) : BitVec 16 := tget 0xF000 g.store i

def engPlace : EngineId → Nat
  | .ce => 5 | .tie => 7 | .fx => 8

/-- The engine status word without its cause (12 R249). -/
def engStatus (depth e index : Nat) : Word := BitVec.ofNat 64 (depth * 2 ^ 28 + e * 2 ^ 26 + index)

def withCause (st : Word) (cause : Nat) : Word := st + BitVec.ofNat 64 (cause * 2 ^ 32)

/-- Where an engine's word stands: its status word stands for the word. -/
def State.engCtx (s : State) (p c : Nat) (e : EngineId) : Ctx :=
  let g := (s.core c).getEng (engNum e)
  let t := (s.part p).tick
  ⟨p, c, t, ⟨c, engUnit e, .cont 0, g.pc, engStatus g.stack.length (engNum e) g.pc, t⟩, false⟩

/-- An idle engine whose oldest command has landed. -/
def Engine.canStart (g : Engine) (t : Nat) : Bool :=
  !g.running && g.endAt.isNone && (match g.cmds with | c :: _ => decide (c.land ≤ t) | [] => false)

def Engine.canChain (g : Engine) (t : Nat) : Bool :=
  !g.running && (match g.endAt with | some u => decide (u ≤ t) | none => false)

def execEngineCommandStart (core : Nat) (e : EngineId) (s : State) : Out :=
  let s := s.popEvent
  let g := (s.core core).getEng (engNum e)
  match s.partOf core, g.cmds with
  | some p, c :: l =>
    if g.canStart (s.part p).tick then
      .next (s.modCore core fun k => k.startCommand (engNum e) c l)
    else .next s
  | _, _ => .next s

def execEngineChainStart (core : Nat) (e : EngineId) (s : State) : Out :=
  let s := s.popEvent
  let g := (s.core core).getEng (engNum e)
  match s.partOf core, g.chain with
  | some p, some i =>
    if g.canChain (s.part p).tick then
      .next (s.modCore core fun k => k.startChain (engNum e) i)
    else .next s
  | _, _ => .next s

/-- A beat of a timed launch that the microprogram of a result entry made before it is late in a loose partition and not yet
performed (07 R169). -/
def State.lateBeat (s : State) (p c : Nat) (r : ResEntry) : Bool :=
  let k := s.part p
  let mine (d : Due) : Bool := match d.act with
    | .beatLand b _ _ _ => d.who.core == c && b.untimed.isNone && b.prog == r.prog && decide (d.who.issue < r.made)
    | _ => false
  k.lateWrites.any mine || k.pend.any fun d => d.place == 9 && mine d

/-- Nothing holds an entry back but its tick: the untimed launches before it have been performed, and so have late beats of timed ones,
for its landing releases every write of the launches before it (12 R251, 15 R301). -/
def State.resultFree (s : State) (p c e : Nat) (r : ResEntry) : Bool := r.wait.isEmpty && !(e == 0 && s.lateBeat p c r)

/-- The tick of the oldest entry that has not landed, when nothing else holds it back. -/
def State.resultReady (s : State) (p c e : Nat) : Option Nat :=
  match ((s.core c).getEng e).results.find? fun r => !r.landed with
  | some r => if s.resultFree p c e r then some r.due else none
  | none => none

/-- Result entries that land on the partition's tick, in order. -/
def State.landCount (s : State) (p c e : Nat) : Nat :=
  ((((s.core c).getEng e).results.filter fun r => !r.landed).takeWhile fun r =>
    s.resultFree p c e r && decide (r.due ≤ (s.part p).tick)).length

def landFirst : List ResEntry → List ResEntry
  | [] => []
  | r :: l => if r.landed then r :: landFirst l else { r with landed := true } :: l

/-- The oldest entry of an engine that has not landed lands. -/
def Core.landResult (k : Core) (e : Nat) : Core := k.modEng e fun g => { g with results := landFirst g.results }

/-- The entry lands at its tick, or in wall time when an EPOP waits for it: its freeze ends, and the entry has landed when the EPOP
takes it (12 R251, R255). -/
def execResultEntryLand (core : Nat) (e : EngineId) (s : State) : Out :=
  let s := s.popEvent
  match s.partOf core with
  | none => .next s
  | some p =>
    if (s.part p).waits.contains (.epop core (engNum e) true) then .next (s.modPart p fun k => k.clearWait (.epop core (engNum e) true))
    else match s.resultReady p core (engNum e) with
      | some due => .next (if due ≤ (s.part p).tick then s.modCore core fun k => k.landResult (engNum e) else s)
      | none => .next s

/-- The entry that an EPOP of this tick waited for lands. -/
def State.landAwaited (s : State) (p c e : Nat) : State :=
  if (s.part p).served.contains (.epop c e true) && (s.resultReady p c e).isSome then s.modCore c fun k => k.landResult e else s

/-- What held an entry back has come nearer its end while its EPOP waits: the tick is made again, which looks at the entry anew. -/
def Part.clearPops (k : Part) (core e : Nat) : Part := { k with waits := k.waits.filter (· != .epop core e false) }

/-! ### Untimed launches (12 R251, R256, R268) -/

/-- A launch whose arrivals only acknowledgements tell: `n` writes are outstanding. -/
def State.addUnits (s : State) (p core e launch n : Nat) : State :=
  let more (l : List Nat) : List Nat := if l.contains launch then l ++ List.replicate n launch else l
  let s := s.modPart p fun k => { k with untimed := k.untimed ++ List.replicate n launch }
  s.modCore core fun k => k.modEng e fun g =>
    { g with untimed := more g.untimed, results := g.results.map fun r => { r with wait := more r.wait } }

/-- A fresh launch number, with `n` writes outstanding. -/
def State.newLaunch (s : State) (p core e n : Nat) : State × Nat :=
  let i := (s.part p).nextLaunch
  let s := s.modPart p fun k => { k with nextLaunch := i + 1, untimed := k.untimed ++ List.replicate n i }
  (s.modCore core fun k => k.modEng e fun g => { g with untimed := g.untimed ++ List.replicate n i }, i)

/-- One write of an untimed launch has been performed at its target. -/
def State.unitDone (s : State) (p core e launch : Nat) : State :=
  let s := s.modPart p fun k => { k.clearPops core e with untimed := k.untimed.erase launch }
  s.modCore core fun k => k.modEng e fun g =>
    { g with untimed := g.untimed.erase launch, results := g.results.map fun r => { r with wait := r.wait.erase launch } }

/-! ### ENG, EPUSH and EPOP (12 R253 to R255) -/

/-- Poison, then a full command FIFO. An A word executes on no stack: its status has depth 0, and index 0 where there is no entry
(DESIGN CHOICE, log entry 96). -/
def State.engProbe (s : State) (x : Ctx) (e entry : Nat) (params : List PWord) : Probe :=
  (Probe.when (params.any (·.p)) (.trap .poisonStore x.who.word)).andThen
    (.when (decide (8 ≤ ((s.core x.c).getEng e).cmds.length)) (.trap .engineFault (withCause (engStatus 0 e entry) 6)))

/-- Claim a command-FIFO entry; behind a fence it is timed from the fence's completion (07 R188). The command releases the
core's earlier stores at `.pd`: the partition freezes for those that are not performed when all have landed (15 R301), and the reads
of its launches see those still in flight (15 R304; log entry 83). -/
def State.pushCommand (s : State) (x : Ctx) (e entry : Nat) (params : List Word) (chain : Option Nat) : State × EngCmd :=
  let land := max x.t (s.core x.c).afterE + 2
  let c : EngCmd := ⟨entry, params, chain, land, x.t⟩
  let s := s.fenceWait x .pd (max land (s.core x.c).lastS) x.t false true
  (s.modCore x.c fun k =>
    { k.modEng e fun g => { g with cmds := g.cmds ++ [c] } with lastE := max k.lastE land }, c)

def Core.params (k : Core) (a n : Nat) : List PWord := (List.range n).map fun i => k.getC (a + i)

def execEng (f : Frame) (e : EngineId) (entry : BitVec 10) (a n : Num4) (chain : Option (BitVec 10)) (s : State) : Out :=
  .next (nativeWord .a (.eng f e entry a n chain) f
    (fun x s => s.engProbe x (engNum e) entry.toNat ((s.core x.c).params a.val n.val))
    (fun x s =>
      let l := ((s.core x.c).params a.val n.val).map (·.v)
      let (s, c) := s.pushCommand x (engNum e) entry.toNat l (chain.map (·.toNat))
      s.modCore x.c fun k => k.modEng (engNum e) fun g => { g with last := some c }) s)

/-- The parameters of the latest ENG with a new parameter 0. -/
def repeated (l : List Word) (v : Word) : List Word := v :: l.drop 1

def execEpush (f : Frame) (e : EngineId) (a : Num4) (s : State) : Out :=
  .next (nativeWord .a (.epush f e a) f
    (fun x s =>
      let k := s.core x.c
      match (k.getEng (engNum e)).last with
      | none => (poisonProbe x (k.getC a.val)).andThen (.trap .engineFault (withCause (engStatus 0 (engNum e) 0) 9))
      | some c => s.engProbe x (engNum e) c.entry [k.getC a.val])
    (fun x s =>
      let k := s.core x.c
      match (k.getEng (engNum e)).last with
      | none => s
      | some c => (s.pushCommand x (engNum e) c.entry (repeated c.params (k.getC a.val).v) c.chain).1) s)

/-- Whether the oldest result can be taken (12 R255). -/
def State.resultProbe (s : State) (c e : Nat) : Probe :=
  match ((s.core c).getEng e).results with
  | [] => .wait .epopNever
  | r :: _ => .when (!r.landed) (.wait (.epop c e false))

def State.takeResult (s : State) (c e : Nat) : State × Word :=
  match ((s.core c).getEng e).results with
  | [] => (s, 0)
  | r :: l => (s.modCore c fun k => k.modEng e fun g => { g with results := l }, r.v)

def execEpop (f : Frame) (d : Num4) (e : EngineId) (s : State) : Out :=
  .next (nativeWord .a (.epop f d e) f
    (fun x s => if x.t < (s.core x.c).afterE then .ok else s.resultProbe x.c (engNum e))
    (fun x s =>
      let at_ := max x.t (s.core x.c).afterE
      let s := s.modCore x.c fun k => { k with lastE := max k.lastE at_ }
      if x.t < at_ then s.sampleAt x at_ (.epop (engNum e) d.val)
      else
        let (s, v) := s.takeResult x.c (engNum e)
        s.later x (x.t + 2) (.c d.val ⟨v, false⟩)) s)

/-- An EPOP that a fence held back takes its entry. -/
def State.doEpop (s : State) (p : Nat) (d : Due) (e r : Nat) : State :=
  let s := if (s.resultProbe d.who.core e).waits.isEmpty then s else s.landAwaited p d.who.core e
  match (s.resultProbe d.who.core e).waits with
  | w :: _ => (s.addWait p w).addDue p { d with place := heldPlace }
  | [] =>
    let (s, v) := s.takeResult d.who.core e
    s.addDue p { d with tick := d.tick + 2, place := 2, act := .c r ⟨v, false⟩ }

/-! ### The common part of every engine word (12 R249, R250) -/

/-- What an engine word would raise: conditions with what resuming does, and freezes. -/
structure EngProbe where
  conds : List (Cls × Word × Fix)
  waits : List Wait
  deriving DecidableEq, Repr

def EngProbe.ok : EngProbe := ⟨[], []⟩
/-- The first that raises something. The second is looked at only when the first raises nothing: a launch with a bad
operand has no elements to check. -/
def EngProbe.andThen (a : EngProbe) (b : Unit → EngProbe) : EngProbe :=
  match a.conds, a.waits with
  | [], [] => b ()
  | _, _ => a
def EngProbe.when (b : Bool) (p : EngProbe) : EngProbe := if b then p else .ok

/-- A fault of an engine word: the microprogram is abandoned. -/
def State.engFault (s : State) (x : Ctx) (e : EngineId) (cls : Cls) (cause : Nat) : EngProbe :=
  ⟨[(cls, withCause x.who.word cause, .abandon x.c (engNum e) ((s.core x.c).getEng (engNum e)).prog)], []⟩

def State.engCause (s : State) (x : Ctx) (e : EngineId) (cause : Nat) (b : Bool) : EngProbe :=
  .when b (s.engFault x e .engineFault cause)

def raiseEngine (x : Ctx) (s : State) (pr : EngProbe) : State :=
  s.modPart x.p fun k =>
    { k with conds := k.conds ++ pr.conds.map fun (c, v, f) => ⟨x.t, c, x.who, v, f⟩
             waits := k.waits ++ pr.waits }

/-- Whether an engine executes a word now: a launch word waits for its datapath (12 R250). -/
def Engine.ready (g : Engine) (launch : Bool) (t : Nat) : Bool := g.running && !(launch && decide (t < g.busy))

/-- The index after a word: the word itself while a repetition is left. -/
def Engine.nextIndex (g : Engine) (target : Option Int) : Int :=
  match target with
  | some i => i
  | none => match g.rep with
    | some (_ + 2) => g.pc
    | _ => (g.pc : Int) + 1

/-- An engine word: depth, limits, next index and the word's own checks; then its effect. `target` is where it goes
other than to the next word. -/
def engineWord (pops pushes : Nat) (launch : Bool) (target : Engine → List Word → Option Int)
    (probe : Ctx → EngineId → List Word → State → EngProbe) (effect : Ctx → EngineId → List Word → State → State)
    (s : State) : State :=
  match s.agenda with
  | .checkEngine p c e :: _ =>
    let s := s.popItem
    let x := s.engCtx p c e
    let g := (s.core c).getEng (engNum e)
    let depth := g.stack.length
    if !g.ready launch x.t then s
    else if depth < pops then raiseEngine x s (s.engFault x e .parameterStack 2)
    else if 8 < depth - pops + pushes then raiseEngine x s (s.engFault x e .parameterStack 1)
    else
      let args := g.stack.take pops
      let i := g.nextIndex (target g args)
      raiseEngine x s ((probe x e args s).andThen fun _ =>
        (s.engCause x e 3 (decide (i < 0) || decide ((storeSize e : Int) ≤ i))))
  | .engine p c e :: _ =>
    let s := s.popItem
    let x := s.engCtx p c e
    let g := (s.core c).getEng (engNum e)
    if !g.ready launch x.t then s
    else
      let args := g.stack.take pops
      let s := s.modCore c fun k => k.modEng (engNum e) fun g =>
        { g with stack := g.stack.drop pops
                 pc := (g.nextIndex (target g args)).toNat
                 rep := match g.rep with | some (n + 2) => some (n + 1) | _ => none }
      effect x e args s
  | _ => s.popItem

def noTarget : Engine → List Word → Option Int := fun _ _ => none
def noEngCheck : Ctx → EngineId → List Word → State → EngProbe := fun _ _ _ _ => .ok

/-- Push values, the last of the list on top. -/
def State.pushStack (s : State) (x : Ctx) (e : EngineId) (l : List Word) : State :=
  s.modCore x.c fun k => k.modEng (engNum e) fun g => { g with stack := l.reverse ++ g.stack }

/-- A word that only moves the stack: its operands come top first. -/
def stackWord (pops pushes : Nat) (g : List Word → List Word) (s : State) : State :=
  engineWord pops pushes false noTarget noEngCheck (fun x e args s => s.pushStack x e (g args)) s

/-- The operand `i` of a launch, counted from the top. -/
def argAt (l : List Word) (i : Nat) : Word := l.getD i 0

/-! ### Stack words (12 R250) -/

def execLit (v : BitVec 12) (s : State) : Out := .next (stackWord 0 1 (fun _ => [v.setWidth 64]) s)
def execLitn (v : BitVec 12) (s : State) : Out := .next (stackWord 0 1 (fun _ => [v.signExtend 64]) s)
def execLith (v : BitVec 12) (s : State) : Out :=
  .next (stackWord 1 1 (fun l => [(argAt l 0 <<< 12) ||| v.setWidth 64]) s)
def execDup (s : State) : Out := .next (stackWord 1 2 (fun l => [argAt l 0, argAt l 0]) s)
def execDrop (s : State) : Out := .next (stackWord 1 0 (fun _ => []) s)
def execSwap (s : State) : Out := .next (stackWord 2 2 (fun l => [argAt l 0, argAt l 1]) s)
def execOver (s : State) : Out := .next (stackWord 2 3 (fun l => [argAt l 1, argAt l 0, argAt l 1]) s)
def execRot (s : State) : Out := .next (stackWord 3 3 (fun l => [argAt l 1, argAt l 0, argAt l 2]) s)
def execEngAdd (s : State) : Out := .next (stackWord 2 1 (fun l => [argAt l 1 + argAt l 0]) s)
def execEngSub (s : State) : Out := .next (stackWord 2 1 (fun l => [argAt l 1 - argAt l 0]) s)
def execEngMul (s : State) : Out := .next (stackWord 2 1 (fun l => [argAt l 1 * argAt l 0]) s)
def execEngAnd (s : State) : Out := .next (stackWord 2 1 (fun l => [argAt l 1 &&& argAt l 0]) s)
def execEngOr (s : State) : Out := .next (stackWord 2 1 (fun l => [argAt l 1 ||| argAt l 0]) s)
def execEngXor (s : State) : Out := .next (stackWord 2 1 (fun l => [argAt l 1 ^^^ argAt l 0]) s)
def execEngShl (s : State) : Out := .next (stackWord 2 1 (fun l => [shiftLeft (argAt l 1) (argAt l 0)]) s)
def execEngShr (s : State) : Out := .next (stackWord 2 1 (fun l => [shiftRight (argAt l 1) (argAt l 0)]) s)

def execParam (n : Num3) (s : State) : Out :=
  .next (engineWord 0 1 false noTarget noEngCheck
    (fun x e _ s => s.pushStack x e [tget 0 ((s.core x.c).getEng (engNum e)).block n.val]) s)

def execJmp (i : BitVec 12) (s : State) : Out :=
  .next (engineWord 0 0 false (fun _ _ => some i.toNat) noEngCheck (fun _ _ _ s => s) s)

def execJz (o : BitVec 12) (s : State) : Out :=
  .next (engineWord 1 0 false (fun g l => if argAt l 0 = 0 then some ((g.pc : Int) + o.toInt) else none) noEngCheck
    (fun _ _ _ s => s) s)

/-- The words a REPW may not repeat: JMP, JZ, REPW, END and CHAIN (12 R249, cause 0x04). -/
def notRepeatable (w : BitVec 16) : Bool :=
  let c := w.toNat / 2 ^ 12
  c == 5 || c == 6 || c == 7 || c == 8 || c == 0xC

def execRepw (s : State) : Out :=
  .next (engineWord 1 0 false (fun g l => if argAt l 0 = 0 then some ((g.pc : Int) + 2) else none)
    (fun x e _ s =>
      let g := (s.core x.c).getEng (engNum e)
      (s.engCause x e 3 (decide (storeSize e ≤ g.pc + 1))).andThen fun _ => (s.engCause x e 4 (notRepeatable (g.word (g.pc + 1)))))
    (fun x e l s => s.modCore x.c fun k => k.modEng (engNum e) fun g =>
      { g with rep := if argAt l 0 = 0 then none else some (argAt l 0).toNat }) s)

/-- END: idle from the next tick, or chained at the completion tick (12 R248). -/
def execEndE (s : State) : Out :=
  .next (engineWord 0 0 false (fun _ _ => some 0) noEngCheck
    (fun x e _ s => s.modCore x.c fun k => k.modEng (engNum e) fun g =>
      { g with running := false, stack := [], rep := none
               endAt := g.chain.map fun _ => max (x.t + 1) (g.lastLand + 1) }) s)

def execChain (i : BitVec 12) (s : State) : Out :=
  .next (engineWord 0 0 false noTarget (fun x e _ s => s.engCause x e 3 (decide (storeSize e ≤ i.toNat)))
    (fun x e _ s => s.modCore x.c fun k => k.modEng (engNum e) fun g => { g with chain := some i.toNat }) s)

/-- RESULT claims a result-FIFO entry (12 R251). Where launches of both kinds stand before it, the entry waits for the last landing of
the timed ones and for the untimed ones, since its landing releases the writes of every launch before it (15 R301; DESIGN CHOICE, log
entry 114). -/
def execResult (s : State) : Out :=
  .next (engineWord 1 0 false noTarget
    (fun x e _ s => s.engCause x e 7 (decide (16 ≤ ((s.core x.c).getEng (engNum e)).results.length)))
    (fun x e l s => s.modCore x.c fun k => k.modEng (engNum e) fun g =>
      { g with results := g.results ++
          [(⟨argAt l 0, false, max (x.t + 1) (g.lastLand + 1), g.untimed, g.prog, x.t⟩ : ResEntry)] }) s)

/-! ### The loop nest (12 R257) -/

def NestLevel.cleared : NestLevel := ⟨1, [0, 0, 0, 0], [0, 0, 0, 0]⟩
def Core.level (k : Core) (l : Nat) : NestLevel := tget NestLevel.cleared k.nest l

/-- A step value fits in 32 signed bits. -/
def fits32 (v : Word) : Bool := decide (-(2 ^ 31 : Int) ≤ v.toInt) && decide (v.toInt < 2 ^ 31)

def execNestCount (l : Num3) (s : State) : Out :=
  .next (engineWord 1 0 true noTarget
    (fun x e a s => s.engCause x e 5 (decide (5 < l.val) || decide (2 ^ 32 ≤ (argAt a 0).toNat)))
    (fun x _ a s => s.modCore x.c fun k =>
      { k with nest := tset NestLevel.cleared k.nest l.val { k.level l.val with count := (argAt a 0).toNat } }) s)

/-- The four operands of a step, d0 on top. -/
def stepOf (a : List Word) : List Int := (List.range 4).map fun i => (argAt a i).toInt

def nestStep (l : Num3) (f : NestLevel → List Int → NestLevel) (s : State) : State :=
  engineWord 4 0 true noTarget
    (fun x e a s => s.engCause x e 5 (decide (5 < l.val) || !(a.all fits32)))
    (fun x _ a s => s.modCore x.c fun k =>
      { k with nest := tset NestLevel.cleared k.nest l.val (f (k.level l.val) (stepOf a)) }) s

def execNestSrc (l : Num3) (s : State) : Out := .next (nestStep l (fun n v => { n with src := v }) s)
def execNestDst (l : Num3) (s : State) : Out := .next (nestStep l (fun n v => { n with dst := v }) s)

def execNestClear (s : State) : Out :=
  .next (engineWord 0 0 true noTarget noEngCheck (fun x _ _ s => s.modCore x.c fun k => { k with nest := [] }) s)

/-! ### Copies (12 R256, R258 to R261) -/

/-- A side of a launch as its stream and layout stood at the launch tick. -/
structure Side where
  n : Nat
  st : Str
  l : Lay
  deriving DecidableEq, Repr

def Core.side (k : Core) (n : Nat) : Side := let (st, l) := k.stream n; ⟨n, st, l⟩

/-- A side no launch can use (12 R260, 07 R159). -/
def Side.unusable (a : Side) : Bool := layReserved a.st a.l .other || a.l.fmt.isNone

/-- A side on HOST or another module (12 R256). -/
def State.untimedSide (s : State) (l : Lay) : Bool := l.space == 4 || s.farPeer l

/-- Bytes per tick of a path (12 R256). -/
def pathBytes (core : Nat) (l : Lay) : Nat :=
  match l.space with
  | 0 | 1 => 64
  | 3 => if l.peer % 2048 = core then 64 else if l.peer % 2048 / 128 = core / 128 then 32 else 16
  | _ => 16

def State.sideBytes (s : State) (core : Nat) (l : Lay) : Nat := if s.untimedSide l then 16 else pathBytes core l
def State.sideLatency (s : State) (p core : Nat) (l : Lay) : Nat :=
  if s.untimedSide l then 0 else pathLatency (s.part p).loose core l

def addVec (a b : List Int) : List Int := List.zipWith (fun x y => sgn 32 (unsgn 32 (x + y))) a b

/-- The offsets of the iterations, level 0 varying fastest; `l` lists the levels outermost first. -/
def nestOffsets : List NestLevel → List (List Int × List Int)
  | [] => [([0, 0, 0, 0], [0, 0, 0, 0])]
  | n :: l =>
    let inner := nestOffsets l
    (List.range n.count).flatMap fun (i : Nat) =>
      inner.map fun (a, b) =>
        (List.zipWith (fun x y => x + (i : Int) * y) a n.src, List.zipWith (fun x y => x + (i : Int) * y) b n.dst)

def Core.iterations (k : Core) : List (List Int × List Int) := nestOffsets ([5, 4, 3, 2, 1, 0].map k.level)
def Core.iterationCount (k : Core) : Nat := [0, 1, 2, 3, 4, 5].foldl (fun acc l => acc * (k.level l).count) 1

/-- The lines of a copy: the coordinates of their first elements from the origin. -/
def copyLines (e1 e2 e3 : Nat) : List (List Int) :=
  (List.range e3).flatMap fun (i3 : Nat) => (List.range e2).flatMap fun (i2 : Nat) => (List.range e1).map fun (i1 : Nat) =>
    [0, (i1 : Int), (i2 : Int), (i3 : Int)]

/-- Runs of `n` of a list. -/
def chunks {α : Type} (n : Nat) (l : List α) : List (List α) :=
  (List.range ((l.length + n - 1) / n)).map fun j => (l.drop (j * n)).take n

/-- Where an element of a launch lies, or what it raises (12 R260). -/
structure Placed where
  spot : Option Spot
  bad  : Option Word
  deriving DecidableEq, Repr

def Loc.plus : Loc → Nat → Loc
  | .ring c o, n => .ring c (o + n)
  | .ringTwo c o q, n => if o % 64 + n < 64 then .ring c (o + n) else .ring c (q + (o % 64 + n - 64))
  | .pocket c o, n => .pocket c (o + n)
  | .global v, n => .global (v + n)
  | .host v, n => .host (v + n)
  | .remote t o, n => .remote t (o + n)

def State.placed (s : State) (core : Nat) (a : Side) (cur : List Int) : Placed :=
  match s.element core a.l cur with
  | .drop d => ⟨none, if a.l.edge then some (boundEdge d (cur.getD d 0)) else none⟩
  | .range b => ⟨none, some (boundPlace 1 a.n a.l.space b)⟩
  | .at loc =>
    let o := elemOffset a.l cur
    if !a.l.pm && a.l.format == .kc2 && o % 8 != 0 then ⟨none, none⟩
    else ⟨some ⟨loc, if !a.l.pm && a.l.format.bits = 4 then 4 * (o % 2).toNat else 0⟩, none⟩

/-- A beat before its ticks are known: the copy it belongs to, what it reads, and the writes that take a slot each. -/
structure RawBeat where
  k    : Nat
  src  : List Placed
  bits : Nat
  outs : List (List Placed)
  obits : Nat
  deriving DecidableEq, Repr

def shiftCur (o : List Int) (i0 : Nat) (line : List Int) : List Int := addVec (addVec o line) [(i0 : Int), 0, 0, 0]

/-- Elements of a beat: 128 of a 4-bit format, 256 weights of KC2. -/
def beatElems (f : Fmt) : Nat := if f == .kc2 then 256 else 512 / f.bits

/-- The blocks a line covers, in order. -/
def lineBlocks : List Int → List Int
  | [] => []
  | a :: l => match lineBlocks l with
    | [] => [a]
    | b :: r => if a = b then b :: r else a :: b :: r

/-- The place of the scale byte of a block (12 R261). -/
def State.scalePlace (s : State) (core : Nat) (a : Side) (c1 : Int) (blk : Int) : Placed :=
  let b := a.l.scaleByte a.st.sstride (blk * 32)
  if inRange a.l b 1 then ⟨some ⟨s.locOf core a.l b.toNat c1 1, 0⟩, none⟩ else ⟨none, some (boundPlace 1 a.n a.l.space b)⟩

def scaled (l : Lay) : Bool := l.format.isMx || l.format == .kc2

/-- The beats of one line of COPY, with the scale bytes after it. -/
def State.copyLine (s : State) (core k : Nat) (a b : Side) (oa ob : List Int) (e0 : Nat) (line : List Int) : List RawBeat :=
  let f := a.l.format
  let idx := List.range e0
  let els := (chunks (beatElems f) idx).map fun l =>
    (⟨k, l.map fun i => s.placed core a (shiftCur oa i line), f.bits,
      [l.map fun i => s.placed core b (shiftCur ob i line)], f.bits⟩ : RawBeat)
  if scaled a.l && scaled b.l then
    let blks (x : Side) (o : List Int) : List Int :=
      lineBlocks (idx.map fun i => (elemOffset x.l (shiftCur o i line)).fdiv 32)
    let c1 (o : List Int) : Int := (shiftCur o 0 line).getD 1 0
    let pairs := List.zip (blks a oa) (blks b ob)
    els ++ (chunks 64 pairs).map fun l =>
      ⟨k, l.map fun p => s.scalePlace core a (c1 oa) p.1, 8, [l.map fun p => s.scalePlace core b (c1 ob) p.2], 8⟩
  else els

/-- The eight words of a plane-major row. -/
def rowPieces (p : Placed) : List Placed :=
  (List.range 8).map fun j => ⟨p.spot.map fun x => ⟨x.loc.plus (8 * j), 0⟩, p.bad⟩

/-- The groups of one line of PLANE: 128 elements read at once, bits/4 rows written. -/
def State.planeLine (s : State) (core k : Nat) (a b : Side) (oa ob : List Int) (e0 : Nat) (line : List Int) : List RawBeat :=
  let f := a.l.format
  let rows := f.bits / 4
  (List.range (e0 / 128)).map fun g =>
    ⟨k, (List.range 128).map fun j => s.placed core a (shiftCur oa (128 * g + j) line), f.bits,
      (List.range rows).map fun r => rowPieces (s.placed core b (shiftCur ob (g * rows + r) line)), 64⟩

/-- The beats of one line of FILL. In a plane-major destination an element offset names a row, whose first bytes take the value
(DESIGN CHOICE, log entry 113). -/
def State.fillLine (s : State) (core k : Nat) (b : Side) (ob : List Int) (e0 : Nat) (line : List Int) : List RawBeat :=
  let f := b.l.format
  (chunks (beatElems f) (List.range e0)).map fun l =>
    ⟨k, [], f.bits, [l.map fun i => s.placed core b (shiftCur ob i line)], f.bits⟩

inductive CopyKind where
  | copy | plane | fill
  deriving DecidableEq, Repr

/-- Every beat of a launch in emission order (12 R258). -/
def State.rawBeats (s : State) (core : Nat) (kind : CopyKind) (a b : Side) (ext : List Nat) : List RawBeat :=
  let lines := copyLines (ext.getD 1 0) (ext.getD 2 0) (ext.getD 3 0)
  let e0 := ext.getD 0 0
  ((s.core core).iterations.zipIdx).flatMap fun (it, k) =>
    let oa := addVec a.st.cur it.1
    let ob := addVec b.st.cur it.2
    lines.flatMap fun line =>
      match kind with
      | .copy => s.copyLine core k a b oa ob e0 line
      | .plane => s.planeLine core k a b oa ob e0 line
      | .fill => s.fillLine core k b ob e0 line

/-- The first layout-bound condition of a launch. -/
def firstBad (l : List RawBeat) : Option Word :=
  l.findSome? fun r => match r.src.findSome? (·.bad) with
    | some w => some w
    | none => r.outs.findSome? fun o => o.findSome? (·.bad)

/-- s_m of 12 R259. -/
def slotTick (t b k m : Nat) : Nat := t + 4 * (k + 1) + (64 * (m + 1) + b - 1) / b

/-- The last slot of a launch, from beat number `m` on. -/
def lastSlot (t b : Nat) : Nat → List RawBeat → Option Nat → Option Nat
  | _, [], r => r
  | m, x :: l, _ => lastSlot t b (m + x.outs.length) l (some (slotTick t b x.k (m + x.outs.length - 1)))

/-- A PEER write of an engine: no window is a permission trap (16 R318). -/
def State.engWindow (s : State) (x : Ctx) (stream target units : Nat) : EngProbe :=
  match (s.core x.c).window target with
  | none => ⟨[(.permission, BitVec.ofNat 64 (stream * 2 ^ 60 + target), .retry)], []⟩
  | some _ =>
    match (s.core x.c).overWindow target units with
    | some i => ⟨[], [.window x.c i]⟩
    | none => .ok

/-- A beat to PEER claims its unit at its slot, where the partition freezes until there is one (16 R318). -/
def State.doClaim (s : State) (p : Nat) (d : Due) (stream target seq : Nat) : State :=
  match (s.core d.who.core).overWindow target 1 with
  | some i => (s.addWait p (.window d.who.core i)).addDue p { d with place := heldPlace, act := .claim stream target seq }
  | none => s.claimUnits d.who.core target 1 seq

def wide (l : List Word) : Bool := l.any fun v => decide (2 ^ 32 ≤ v.toNat)
def extOf (a : List Word) : List Nat := (List.range 4).map fun i => (argAt a i).toNat

/-- Layouts that do not fit the launch (12 R260). -/
def copyMismatch (kind : CopyKind) (a b : Lay) : Bool :=
  match kind with
  | .copy => a.pm || b.pm || a.format.bits != b.format.bits || ((a.format == .kc2) != (b.format == .kc2))
  | .plane => a.pm || !b.pm || a.format != b.format
  | .fill => false

def State.copyProbe (s : State) (x : Ctx) (e : EngineId) (kind : CopyKind) (a b : Side) (args : List Word) : EngProbe :=
  let g := (s.core x.c).getEng (engNum e)
  (s.engCause x e 5 (wide (args.take 4) || (kind == .plane && (argAt args 0).toNat % 128 != 0))).andThen fun _ =>
    ((s.engCause x e 8 ((kind != .fill && a.unusable) || b.unusable || copyMismatch kind a.l b.l)).andThen fun _ =>
      ((match firstBad (s.rawBeats x.c kind a b (extOf args)) with
        | some w => (⟨[(.layoutBound, w, .abandon x.c (engNum e) g.prog)], []⟩ : EngProbe)
        | none => .ok).andThen fun _ =>
        (.when (b.l.space == 3) (s.engWindow x b.n b.l.peer 0))))

/-- Set a launch's beats to work, from beat number `m` on. -/
def State.launchBeats (s : State) (x : Ctx) (a b : Side) (fill : Option Word) (bw ls ld : Nat) (un : Option Nat) :
    Nat → List RawBeat → State
  | _, [] => s
  | m, r :: l =>
    let n := r.outs.length
    let at_ := slotTick x.t bw r.k m + ls / 2
    let seq := (s.part x.p).seq + 1
    let s := s.modPart x.p fun k => { k with seq := k.seq + 1 + n }
    let outs := r.outs.zipIdx.map fun (o, j) =>
      (⟨o.map (·.spot), r.obits, max (slotTick x.t bw r.k (m + j) + ls + ld / 2) (at_ + 1), seq + 1 + j,
        slotTick x.t bw r.k (m + j)⟩ : BeatOut)
    let s := if b.l.space == 3 then
        outs.zipIdx.foldl (fun (s : State) (o, j) =>
          if o.spots.any Option.isSome then s.sampleAt x (slotTick x.t bw r.k (m + j)) (.claim b.n b.l.peer o.seq) else s) s
      else s
    let beat : Beat := ⟨r.src.map (·.spot), r.bits, if b.l.pm then a.l.fmt else none, outs, a.n, b.n, a.l.erc,
      a.l.promise, b.l.promise, seq, un, false, ((s.core x.c).getEng 0).gate,
      ((s.core x.c).getEng 0).prog⟩
    let place := if un.isSome then 9 else 5
    let s := match fill with
      | some v => outs.foldl (fun (s : State) (o : BeatOut) =>
          s.addDue x.p ⟨o.land, place, x.who, .beatLand beat o (o.spots.map fun _ => v) false⟩) s
      | none => s.sampleAt x at_ (.beatSample beat)
    s.launchBeats x a b fill bw ls ld un (m + n) l

def State.copyLaunch (s : State) (x : Ctx) (kind : CopyKind) (a b : Side) (args : List Word) : State :=
  let raw := s.rawBeats x.c kind a b (extOf args)
  let fill := if kind == .fill then some (argAt args 4) else none
  let untimed := (kind != .fill && s.untimedSide a.l) || s.untimedSide b.l
  let bw := if kind == .fill then s.sideBytes x.c b.l else min (s.sideBytes x.c a.l) (s.sideBytes x.c b.l)
  let ls := if kind == .fill then 0 else s.sideLatency x.p x.c a.l
  let ld := s.sideLatency x.p x.c b.l
  let last := lastSlot x.t bw 0 raw none
  let m := raw.foldl (fun acc r => acc + r.outs.length) 0
  let (s, un) := if untimed && m != 0 then
      let (s, i) := s.newLaunch x.p x.c 0 m
      (s, some i)
    else (s, none)
  let s := s.modCore x.c fun k => k.modEng 0 fun g =>
    { g with busy := (match last with | some v => v | none => x.t + 4 * k.iterationCount) + 1
             lastLand := match last with
               | some v => if untimed then g.lastLand else max g.lastLand (v + ls + ld / 2)
               | none => g.lastLand }
  s.launchBeats x a b fill bw ls ld un 0 raw

/-- The streams as COPY, PLANE and FILL find them at the launch tick. -/
def copyWord (kind : CopyKind) (pops st dt : Nat) (s : State) : State :=
  engineWord pops 0 true noTarget
    (fun x e a s => s.copyProbe x e kind ((s.core x.c).side st) ((s.core x.c).side dt) a)
    (fun x _ a s => s.copyLaunch x kind ((s.core x.c).side st) ((s.core x.c).side dt) a) s

def execCopy (st dt : Num4) (s : State) : Out := .next (copyWord .copy 4 st.val dt.val s)
def execPlane (st dt : Num4) (s : State) : Out := .next (copyWord .plane 4 st.val dt.val s)
def execFill (dt : Num4) (s : State) : Out := .next (copyWord .fill 5 dt.val dt.val s)

/-! ### What a launch reads (15 R304)

ENG and EPUSH release the core's earlier stores, so every read of a launch sees them. One that samples before such a store has landed
finds the bytes as the store will leave them (log entry 83). -/

/-- A store in flight that a command pushed at tick `gate` released. -/
def Due.released (d : Due) (core gate : Nat) : Bool :=
  d.who.core == core && d.who.unit == .a && decide (d.who.issue < gate) &&
    (match d.act with
      | .write .. | .scatterIndex .. | .scatterRow .. | .atomic .. | .gridStore .. => true
      | _ => false)

/-- Perform a store in flight now. -/
def State.performStore (s : State) (p : Nat) (e : Due) : State :=
  let s := s.modPart p fun k => { k with pend := k.pend.erase e }
  let d := { e with place := 9 }
  match d.act with
  | .write a v mask q => s.doWrite p d a v mask q
  | .scatterIndex a mask v sta lt el => s.doScatterIndex p d a mask v sta lt el
  | .scatterRow a els v bits => s.doScatterRow p d a els v bits
  | .atomic a r op x y f => s.doAtomic p d a r op x y f
  | .gridStore _ l => l.foldl (fun (s : State) (a, b) => s.performWrite (some p) (.pocket d.who.core a) [b] 255 false) s
  | _ => s

/-- The state as it would be with the released stores performed, and with the elements of those scatters whose indexes were still
to be read. -/
def State.withStores (s : State) (p core gate : Nat) : State :=
  let pass (s : State) : State := ((s.part p).pend.filter (·.released core gate)).foldl (fun s d => s.performStore p d) s
  pass (pass s)

/-- A read of a launch: what it finds with the released stores performed; they themselves stay in flight. -/
def State.launchRead {α : Type} (s : State) (p core gate : Nat) (read : State → State × α) : State × α :=
  if (s.part p).pend.any (·.released core gate) then ((read s).1, (read (s.withStores p core gate)).2) else read s

/-! ### Beats at their ticks (12 R259, R260) -/

def spotLoc (x : Option Spot) : Option Loc := x.map (·.loc)

/-- Read the elements of a beat: values, poison, or the first fault with its place. -/
def readSpots (s : State) (p core bits : Nat) : List (Option Spot) → State × Except (Cls × Loc) (List Word × Bool)
  | [] => (s, .ok ([], false))
  | none :: l =>
    match readSpots s p core bits l with
    | (s, .ok (v, q)) => (s, .ok (0 :: v, q))
    | r => r
  | some x :: l =>
    match s.readLoc p core .beatRead x.loc ((bits + 7) / 8) with
    | (s, .error c) => (s, .error (c, x.loc))
    | (s, .ok (b, pois)) =>
      match readSpots s p core bits l with
      | (s, .ok (v, q)) => (s, .ok (BitVec.ofNat 64 (leNat b / 2 ^ x.sh % 2 ^ bits) :: v, q || pois))
      | r => r

/-- What each write of a sampled beat delivers. -/
def Beat.values (b : Beat) (v : List Word) : List (List Word) :=
  match b.plane with
  | none => b.outs.map fun _ => v
  | some f =>
    let n := planesOf f (v.map (·.toNat))
    b.outs.zipIdx.map fun (_, r) => (List.range 8).map fun j => BitVec.ofNat 64 (n / 2 ^ (512 * r + 64 * j))

/-- A beat reads its source. One whose data is late holds its writes in a strict partition, and lands with no values in a
loose one, which discards it (05 R115, 12 R259). -/
def State.doBeatSample (s : State) (p : Nat) (d : Due) (b : Beat) : State :=
  let k := s.part p
  let c := d.who.core
  let n := (b.bits + 7) / 8
  let locs := b.src.filterMap spotLoc
  if b.check && locs.any fun l => s.pendingWrite p l n k.tick then
    s.addCond p ⟨k.tick, .earlyRead, d.who, withCause d.who.word 0xA,
      .again d { d with act := .beatSample { b with check := false } }⟩
  else match s.launchRead p c b.gate fun s => readSpots s p c b.bits b.src with
    | (s, .error (cls, l)) => s.accessFault p d cls ⟨l, b.srcStream, b.seq, b.srcHome, k.tick, [], false⟩
    | (s, .ok (v, pois)) =>
      let late := s.isLate p b.seq || locs.any fun l => s.strayed p c ⟨l, b.srcStream, b.seq, b.srcHome, k.tick, [], false⟩
      let missed := k.loose && (late || locs.any fun l => s.lateTo p l n)
      let place := if b.untimed.isSome then 9 else 5
      (List.zip b.outs (b.values v)).foldl (fun (s : State) (o, w) =>
        s.addDue p { d with tick := o.land, place := place
                            act := .beatLand { b with late := late && !k.loose } o (if missed then [] else w) pois }) s

/-- Bytes to write, with the bits of each that are written. -/
def spotCells (bits : Nat) : List (Option Spot × Word) → List (Loc × Nat × Nat)
  | [] => []
  | (none, _) :: l => spotCells bits l
  | (some x, v) :: l =>
    (if bits < 8 then [(x.loc, v.toNat % 2 ^ bits * 2 ^ x.sh, (2 ^ bits - 1) * 2 ^ x.sh)]
     else (List.range (bits / 8)).map fun j => (x.loc.plus j, v.toNat / 2 ^ (8 * j) % 256, 255)) ++ spotCells bits l

/-- Whether a location begins a 64-byte row. -/
def Loc.rowStart : Loc → Bool
  | .ring _ o | .ringTwo _ o _ | .pocket _ o | .remote _ o => o % 64 == 0
  | .global v | .host v => v % 64 == 0

/-- A run of bytes written together: its first location, its bytes and their masks, last first. -/
structure Run where
  first : Loc
  bytes : List Nat
  masks : List Nat
  deriving DecidableEq, Repr

/-- Join bytes that follow one another within a row; two halves of one byte become one. -/
def joinRuns : List (Loc × Nat × Nat) → Option Run → List Run
  | [], none => []
  | [], some r => [r]
  | (l, v, m) :: rest, none => joinRuns rest (some ⟨l, [v], [m]⟩)
  | (l, v, m) :: rest, some r =>
    if l = r.first.plus (r.bytes.length - 1) then
      joinRuns rest (some { r with bytes := (r.bytes.headD 0 ||| v) :: r.bytes.drop 1, masks := (r.masks.headD 0 ||| m) :: r.masks.drop 1 })
    else if l = r.first.plus r.bytes.length && !l.rowStart then
      joinRuns rest (some { r with bytes := v :: r.bytes, masks := m :: r.masks })
    else r :: joinRuns rest (some ⟨l, [v], [m]⟩)

def Run.list (r : Run) : List Byte := r.bytes.reverse.map fun v => BitVec.ofNat 8 v
def Run.mask (r : Run) : Nat := rowOfElems 8 r.masks.reverse

/-- Write runs in order: the first fault with its place. -/
def writeRuns (s : State) (p : Nat) (who : Who) (how : Landing) (pois : Bool) : List Run → State × Option (Cls × Loc)
  | [] => (s, none)
  | r :: l =>
    match s.writeLoc p who how .beatWrite r.first r.list r.mask pois with
    | (s, some c) => (s, some (c, r.first))
    | (s, none) => writeRuns s p who how pois l

/-- Post runs to another module for an engine launch: the first frame returns the units (16 R318, R320). -/
def State.postRuns (s : State) (p : Nat) (d : Due) (e launch units : Nat) (runs : List (BitVec 19 × Nat × List Row × Nat)) :
    State :=
  let c := d.who.core
  runs.zipIdx.foldl (fun s (r, i) =>
    let w := (s.core c).window r.1.toNat
    s.post p d (.remote r.1 r.2.1) (64 * (r.2.2.1.length - 1) + r.2.2.2) (packetOf 0 s.modNum c r.1 r.2.1 r.2.2.1 r.2.2.2)
      (some ⟨r.1.toNat, w, if i = 0 then units else 0, .engine e launch, d.who.issue⟩)) s

/-- Units of a write to another module that sends nothing return. -/
def State.returnUnits (s : State) (c target units : Nat) : State :=
  match (s.core c).window target with
  | some w => s.modCore c fun k => { k with winUsed := tset 0 k.winUsed w (tget 0 k.winUsed w - units) }
  | none => s

def Run.remote (r : Run) : Option (BitVec 19 × Nat × List Row × Nat) :=
  match r.first with
  | .remote t o => some (t, o, [rowOfBytes r.list], r.bytes.length)
  | _ => none

/-- The other module that a write of a beat goes to. -/
def BeatOut.farTarget (o : BeatOut) : Option Nat :=
  o.spots.findSome? fun x => match x with | some ⟨.remote t _, _⟩ => some t.toNat | _ => none

/-- One write of a beat is over: its unit returns, and an untimed launch hears of it. -/
def State.beatDone (s : State) (p c : Nat) (b : Beat) (o : BeatOut) : State :=
  let s := match o.farTarget with | some t => s.returnUnits c t 1 | none => s.unitsBack c o.seq
  match b.untimed with
  | some launch => s.unitDone p c 0 launch
  | none => s

/-- A write of a beat lands. One whose data was lost marks the rows it names poisoned, and the poison-seen bit of the core
that holds them (05 R115, R117; log entry 71); HBM and other modules keep what they hold. -/
def State.doBeatLand (s : State) (p : Nat) (d : Due) (b : Beat) (o : BeatOut) (v : List Word) (pois : Bool) : State :=
  let c := d.who.core
  let locs := o.spots.filterMap spotLoc
  let runs := joinRuns (spotCells o.bits (List.zip o.spots v)) none
  match runs.filterMap Run.remote, b.untimed with
  | r :: more, some launch => (s.addUnits p c 0 launch more.length).postRuns p d 0 launch 1 (r :: more)
  | _, _ =>
    if v.isEmpty && !o.spots.isEmpty then
      (locs.foldl (fun (s : State) l => s.losePlace l ((o.bits + 7) / 8)) s).beatDone p c b o
    else
      let late := b.late || s.isLate p o.seq || locs.any fun l => s.strayed p c ⟨l, b.dstStream, o.seq, b.dstHome, o.land, [], false⟩
      s.lateGate p d o.seq late fun s =>
        match writeRuns s p d.who d.landing pois runs with
        | (s, some (cls, l)) => s.accessFault p d cls ⟨l, b.dstStream, o.seq, b.dstHome, o.land, [], false⟩
        | (s, none) => s.beatDone p c b o

/-! ### Tables (12 R262 to R264) -/

structure TieDesc where
  fmt : Option Fmt
  s : Int
  nseg : Nat
  first : Nat
  lo : Nat
  aL : Nat
  bL : Nat
  aH : Nat
  bH : Nat
  broken : Bool
  deriving DecidableEq, Repr

def tieDesc (v : BitVec 512) : TieDesc :=
  let n := v.toNat
  let f := Fmt.ofCode? (fld n 200 5)
  let s := sfld n 192 8
  let nseg := fld n 176 16
  let first := fld n 160 16
  { fmt := f, s := s, nseg := nseg, first := first, lo := fld n 0 32, aL := fld n 32 32, bL := fld n 64 32,
    aH := fld n 96 32, bH := fld n 128 32,
    broken := n / 2 ^ 205 != 0 || !(f == some .bf16 || f == some .fp32) || decide (s < -32) || decide (32 < s) ||
      nseg == 0 || decide (1024 < nseg) || decide (1024 < first + nseg) }

def single (n : Nat) : Num := toNum .fp32 false n

/-- RNE(fp32, EXACT a × x + b). -/
def tieStep (a x b : Num) : Num × Flags :=
  let (p, f1) := mulNum a x
  let (z, f2) := addNum .rne p b
  let (r, f3) := rndFloat .fp32 false z .rne 0
  (single r, f1 ||| f2 ||| f3)

/-- RNE(d.fmt, y). -/
def tieOut (f : Fmt) (y : Num × Flags) : Nat × Flags :=
  let (r, g) := rndFloat f false y.1 .rne 0
  (r, y.2 ||| g)

def tieTail (f : Fmt) (a b x : Num) : Nat × Flags :=
  match a with
  | .fin _ 0 _ => tieOut f (b, 0)
  | _ => tieOut f (tieStep a x b)

/-- EVAL of 12 R263; `free` is what it answers where lo is NaN, for which the manual states no result. -/
def tieEval (d : TieDesc) (segs : Tbl (BitVec 128)) (free x : Nat) : Nat × Flags :=
  let f := d.fmt.getD .fp32
  let v := toNum f false x
  let lo := single d.lo
  let hi := (addNum .rne lo (.fin false d.nseg (-d.s))).1
  if isNan v then (canonicalNan f, 0)
  else if isNan lo then (free % 2 ^ f.bits, 0)
  else if cmpNum v lo == .lt then tieTail f (single d.aL) (single d.bL) v
  else if cmpNum v hi != .lt then tieTail f (single d.aH) (single d.bH) v
  else match scaleNum (addNum .rne v (negNum lo)).1 d.s with
    | .fin _ m e =>
      let i := if 0 ≤ e then m * 2 ^ e.toNat else m / 2 ^ (-e).toNat
      let fr : Num := if 0 ≤ e then .fin false 0 0 else .fin false (m % 2 ^ (-e).toNat) e
      let seg := (tget 0 segs (d.first + i)).toNat
      let y := tieStep (single (fld seg 64 32)) fr (single (fld seg 32 32))
      let z := tieStep y.1 fr (single (fld seg 0 32))
      tieOut f (z.1, y.2 ||| z.2)
    | _ => tieTail f (single d.aH) (single d.bH) v

def execTload (td : Num3) (s : State) : Out :=
  .next (engineWord 1 0 true noTarget
    (fun x e a s => s.engCause x e 5 ((argAt a 0).toNat % 64 != 0 || decide (327680 < (argAt a 0).toNat + 64)))
    (fun x e a s =>
      let l := ownPocket (s.part x.p).loose
      let s := s.modCore x.c fun k => k.modEng (engNum e) fun g =>
        { g with busy := x.t + l + 1, lastLand := max g.lastLand (x.t + l) }
      let prog := ((s.core x.c).getEng (engNum e)).prog
      let seq := (s.part x.p).seq + 1
      let s := s.modPart x.p fun k => { k with seq := k.seq + 257 }
      let gate := ((s.core x.c).getEng (engNum e)).gate
      s.sampleAt x (x.t + l / 2) (.tload td.val (argAt a 0).toNat 0 0 0 prog seq gate)) s)

/-- The last landing of the TLOAD of tick `made` is known once its descriptor is: entries claimed since, and a chained start, wait
for it. -/
def Engine.extend (g : Engine) (prog made last : Nat) : Engine :=
  let later (r : ResEntry) : Bool := r.prog = prog && decide (made < r.made) && !r.landed && decide (r.due ≤ last)
  let g := { g with busy := max g.busy (last + 1)
                    results := g.results.map fun r => if later r then { r with due := last + 1 } else r }
  if g.prog = prog then
    { g with lastLand := max g.lastLand last, endAt := g.endAt.map fun u => max u (last + 1) }
  else g

/-- What a TLOAD samples at a pocket offset: a segment row past the end of the pocket is of free values (log entry 97). -/
def State.tloadRow (s : State) (off : Nat) (b : List Byte) : Row × State :=
  if off < 327680 then (rowOfBytes b, s) else s.drawRow

/-- Row q of a TLOAD is sampled by access `seq` + q: the descriptor first, then its segments. The table memory carries no
poison, and keeps what it holds where a row is late (log entry 72). -/
def State.doTload (s : State) (p : Nat) (d : Due) (td off q nseg first prog seq gate : Nat) : State :=
  let c := d.who.core
  let l := ownPocket (s.part p).loose
  let loc : Loc := .pocket c (off + 64 * q)
  let land := d.tick + (l - l / 2)
  let put (s : State) (act : Act) : State :=
    s.landSampled p d ⟨loc, 0xF, seq + q, false, land, [], false⟩ (s.isLate p (seq + q)) (s.lateTo p loc 64) act none
  match s.launchRead p c gate fun s => s.readLoc p c .read loc 64 with
  | (s, .error cls) => s.accessFault p d cls ⟨loc, 0xF, seq + q, false, land, [], false⟩
  | (s, .ok (b, _)) =>
    let (v, s) := s.tloadRow (off + 64 * q) b
    if q = 0 then
      let t := tieDesc v
      if t.broken then
        s.addCond p ⟨(s.part p).tick, .engineFault, d.who, withCause d.who.word 8, .abandon c 1 prog⟩
      else
        let rows := (t.nseg + 3) / 4
        let s := s.modCore c fun k => k.modEng 1 fun g => g.extend prog d.who.issue (land + rows)
        (put s (.tloadDesc td v)).addDue p { d with tick := d.tick + 1, act := .tload td off 1 t.nseg t.first prog seq gate }
    else
      let done := 4 * (q - 1)
      let s := put s (.tloadSegs (first + done) (min 4 (nseg - done)) v)
      if 4 * q < nseg then s.addDue p { d with tick := d.tick + 1, act := .tload td off (q + 1) nseg first prog seq gate } else s

def State.doTloadDesc (s : State) (d : Due) (td : Nat) (v : BitVec 512) : State :=
  s.modCore d.who.core fun k => { k with tds := tset 0 k.tds td v }

def State.doTloadSegs (s : State) (d : Due) (first n : Nat) (v : Row) : State :=
  s.modCore d.who.core fun k =>
    { k with segs := (List.range n).foldl (fun t j => tset 0 t (first + j) (BitVec.ofNat 128 (elemOf 128 v j))) k.segs }

/-! ### TRUN (12 R265) -/

/-- The rows a launch takes from a stream: the cursor after each `a1` advance under the stream's wrap mode. -/
def rowCursors (st : Str) (l : Lay) : Nat → List (List Int)
  | 0 => []
  | n + 1 => st.cur :: rowCursors { st with cur := advanceBy st l [(rowElems l : Int), 0, 0, 0] } l n

def State.sideRows (s : State) (core : Nat) (a : Side) (n : Nat) : List RowAccess :=
  (rowCursors a.st a.l n).map fun cur => s.rowAt core a.l a.n cur

/-- The first layout-bound condition of a list of rows. -/
def firstRowBad (l : List RowAccess) : Option Word :=
  l.findSome? fun r => match r.probe.conds with
    | (_, w, _) :: _ => some w
    | [] => none

def boundProbe (x : Ctx) (e : EngineId) (s : State) (w : Option Word) : EngProbe :=
  match w with
  | some w => ⟨[(.layoutBound, w, .abandon x.c (engNum e) ((s.core x.c).getEng (engNum e)).prog)], []⟩
  | none => .ok

/-- A side TRUN cannot use, one whose element stride is not 1 among them (DESIGN CHOICE, log entry 111). -/
def Side.notRing (a : Side) (f : Option Fmt) : Bool := a.unusable || layReserved a.st a.l .row || a.l.space != 0 || a.l.pm || a.l.fmt != f

/-- Operands top first: rows, destination stream, source stream, descriptor. -/
def execTrun (tki tko : Num4) (s : State) : Out :=
  .next (engineWord 4 0 true noTarget
    (fun x e a s =>
      let k := s.core x.c
      let d := tieDesc (tget 0 k.tds (argAt a 3).toNat)
      let src := k.side (argAt a 2).toNat
      let dst := k.side (argAt a 1).toNat
      let n := (argAt a 0).toNat
      (s.engCause x e 5 (decide (2 ^ 32 ≤ n) || decide (15 < (argAt a 1).toNat) || decide (15 < (argAt a 2).toNat) ||
          decide (7 < (argAt a 3).toNat))).andThen fun _ =>
        ((s.engCause x e 8 (d.broken || src.notRing d.fmt || dst.notRing d.fmt)).andThen fun _ =>
          ((boundProbe x e s (firstRowBad (s.sideRows x.c src n))).andThen fun _ =>
            (boundProbe x e s (firstRowBad (s.sideRows x.c dst n))))))
    (fun x e a s =>
      let k := s.core x.c
      let td := tget 0 k.tds (argAt a 3).toNat
      let src := k.side (argAt a 2).toNat
      let dst := k.side (argAt a 1).toNat
      let n := (argAt a 0).toNat
      let rows := (List.zip (s.sideRows x.c src n) (s.sideRows x.c dst n)).zipIdx
      rows.foldl (fun s (r, m) =>
        let inStop := bankStop r.1.bank
        let outStop := bankStop r.2.bank
        let u := x.t + 3 + m + transit inStop tieStop tki.val
        let put := u + 6 + transit tieStop outStop tko.val
        let row : TrunRow := ⟨td, (tieDesc td).fmt.getD .fp32, r.1.own, r.1.mask, inStop, tki.val, tko.val, put + 1, src.n,
          (k.getEng (engNum e)).gate⟩
        let s := s.sampleAt x (x.t + 1 + m) (.trunRead row)
        let s := s.sampleAt x u (.trunTake row)
        let s := s.sampleAt x put (.bankTake tko.val outStop (ringOff r.2.own) r.2.mask)
        s.modCore x.c fun k => k.modEng (engNum e) fun g =>
          { g with busy := max g.busy (u + 7), lastLand := max g.lastLand (put + 1) }) s) s)

/-- The source bank reads; the row enters its track two ticks later. One that a late write should have changed is poisoned,
which the core notes when its result lands (05 R117, 07 R169). -/
def State.doTrunRead (s : State) (p : Nat) (d : Due) (r : TrunRow) : State :=
  let w := (s.launchRead p d.who.core r.gate fun s => (s, s.readBank p d.who.core r.src r.mask)).2
  let late := (s.part p).loose && (match r.src with | some a => s.lateTo p a 64 | none => false)
  let s := if late then s.addDue p { d with tick := r.land, place := 0, act := .poisonMark } else s
  s.addDue p { d with tick := d.tick + 2, place := 0, act := .inject r.tki r.stop w.v w.p }

/-- The table engine takes the row and injects its values six ticks later; the flags land with the result. -/
def State.doTrunTake (s : State) (p : Nat) (d : Due) (r : TrunRow) : State :=
  let c := d.who.core
  let (k, v) := (s.core c).takeOwn r.tki tieStop d.tick fun w => w.who == d.who && w.stop == r.stop
  let s := s.setCore c k
  let t := tieDesc r.td
  let base := s.free
  let s := { s with free := base + 64 }
  let out := (elemsOf r.fmt.bits v.v).zipIdx.map fun (e, i) => tieEval t k.segs (Config.freeWord (base + i)).toNat e
  let s := s.addDue p { d with tick := d.tick + 6, place := 0
                               act := .inject r.tko tieStop (BitVec.ofNat 512 (rowOfElems r.fmt.bits (out.map (·.1)))) v.p }
  let fl := orFlags (out.map (·.2))
  if v.p || fl == 0 then s else s.addDue p { d with tick := r.land, place := 7, act := .fflags fl }

/-! ### Combining (12 R267, 16 R325 to R327) -/

def combOf (op : Nat) : CombOp :=
  match op with
  | 0 => .fadd | 1 => .fmax | 2 => .fmin | _ => .iadd

def combCode : CombOp → Nat
  | .fadd => 0 | .fmax => 1 | .fmin => 2 | .iadd => 3

/-- One element of an accumulation. -/
def combElem (op : CombOp) (a b : Nat) : Nat :=
  match op with
  | .fadd => (rndFloat .fp32 false (addNum .rne (single a) (single b)).1 .rne 0).1
  | .fmax => fMax .fp32 a b
  | .fmin => fMin .fp32 a b
  | .iadd => (a + b) % 2 ^ 32

def combRow (op : CombOp) (a b : Row) : Row :=
  BitVec.ofNat 512 (rowOfElems 32 (List.zipWith (combElem op) (elemsOf 32 a) (elemsOf 32 b)))

def combRows (op : CombOp) (a b : List Row) : List Row := List.zipWith (combRow op) a b

/-- The rows of a contribution or prefix. One of 9 to 16 rows takes two frames, and stands here with the rows of both (log
entry 73). -/
def frameRows (f : Packet) : List Row := if f.flits.length ≤ 8 then f.flits.take (f.nfl.toNat + 1) else f.flits.take 16

def frameCore (f : Packet) : Nat := f.dcore.toNat
def frameOff (f : Packet) : Nat := f.doff.toNat
def frameTag (f : Packet) : Nat := f.tag.toNat

/-- The contribution that a frame carries. -/
def Contrib.isOf (c : Contrib) (f : Packet) : Bool :=
  f.kind == 2 && c.core == (frameCore f) && c.off == (frameOff f) && c.tag == (frameTag f) && c.idx == f.idx.toNat &&
    c.mod == f.smod.toNat && c.src == f.score.toNat

/-- A mismatched arrival is discarded: it is counted, is never acknowledged, and its tile never completes (16 R325). -/
def State.mismatchAt (s : State) (f : Packet) : State :=
  let core := frameCore f
  let s := s.modCore core fun k => { k with fxDead := k.fxDead ++ [(frameTag f, frameOff f)] }
  let s := match s.contribs.reverse.find? (·.isOf f) with
    | some c => { s with contribs := (s.contribs.reverse.erase c).reverse }
    | none => s
  let v := tget (0 : BitVec 32) s.mismatch core
  if v = BitVec.allOnes 32 then s else { s with mismatch := tset 0 s.mismatch core (v + 1) }

/-- How many indexes an arrival covers, and the first. -/
def coverOf (f : Packet) : Nat × Nat := if f.kind = 3 then (0, f.idx.toNat) else (f.idx.toNat, 1)

/-- The frame that acknowledges a write (16 R321). -/
def ackPacket (dmod : BitVec 8) (dcore : BitVec 11) (smod : BitVec 8) (score : BitVec 11) : Packet where
  kind := 1
  nfl := 0
  dmod := dmod
  dcore := dcore
  smod := smod
  score := score
  doff := 0
  len := 63
  tag := 0
  idx := 0
  n := 0
  op := 0
  rsv := 0
  flits := [0]

/-- The destination acknowledges a contribution (12 R268): a core of this module hears at once and gets its units back,
another module by a frame. -/
def State.ackContrib (s : State) (c : Contrib) : State :=
  if c.mod = s.modNum then
    let s := match s.partOf c.src with | some p => s.unitDone p c.src 2 c.launch | none => s
    s.unitsBack c.src c.seq
  else s.send (ackPacket (BitVec.ofNat 8 c.mod) (BitVec.ofNat 11 c.src) (BitVec.ofNat 8 s.modNum) (BitVec.ofNat 11 c.core))

/-- The whole tile has been folded: it lands in the pocket as an arrival and its result entry follows (12 R267). Where lateness took
a contribution, its rows are marked poisoned by lateness, which the core notes (05 R117). The entry lands on the tick after the one at
which the destination stands (DESIGN CHOICE, log entry 112). -/
def State.tileDone (s : State) (core off tag : Nat) (pois lost : Bool) (rows : List Row) : State :=
  let s := if lost then s.markPoison core else s
  let s := rows.zipIdx.foldl (fun s (r, i) =>
    s.performWrite none (.pocket core (off + 64 * i)) (bytesOfRow r) (2 ^ 512 - 1) pois) s
  let due := match s.partOf core with | some p => (s.part p).tick + 1 | none => 0
  s.modCore core fun k => k.modEng 2 fun g =>
    { g with results := g.results ++ [(⟨BitVec.ofNat 64 tag, false, due, [], 0, 0⟩ : ResEntry)] }

/-- Fold every held arrival that is next. -/
def foldHeld : Nat → FxTile → FxTile
  | 0, t => t
  | n + 1, t =>
    match t.held.find? fun h => h.1 == t.e with
    | none => t
    | some h => foldHeld n { t with acc := combRows t.op t.acc h.2.2, e := t.e + h.2.1, held := t.held.erase h }

/-- A tile's place in the list of a destination: by tag and offset. -/
def sameTile (tag off : Nat) (t : FxTile) : Bool := t.tag == tag && t.doff == off

/-- The tiles in the reorder store: those that hold an arrival that is not yet next. -/
def Core.reorderFull (k : Core) (tag off : Nat) : Bool :=
  let l := k.fxTiles.filter fun t => !t.held.isEmpty && !sameTile tag off t
  decide (64 ≤ l.length)

/-- A core's tile with what is known of it now. -/
def State.putTile (s : State) (core : Nat) (t : FxTile) : State :=
  s.modCore core fun k => { k with fxTiles := k.fxTiles.filter (!sameTile t.tag t.doff ·) ++ [t] }

/-- The contributions a tile has folded are acknowledged. A poisoned one poisons the tile (05 R116). A tile with every index folded
is written, unless an arrival for it was discarded. -/
def State.fxAdvance (s : State) (core : Nat) (t : FxTile) : State :=
  let mine (c : Contrib) : Bool := c.core == core && c.off == t.doff && c.tag == t.tag && decide (c.idx < t.e)
  let got := s.contribs.filter mine
  let t := { t with p := t.p || got.any (·.pois), lost := t.lost || got.any (·.lost) }
  let s := { s with contribs := s.contribs.filter (!mine ·) }
  let s := got.foldl State.ackContrib s
  if t.e = t.n && !(s.core core).fxDead.contains (t.tag, t.doff) then
    (s.modCore core fun k => { k with fxTiles := k.fxTiles.filter (!sameTile t.tag t.doff ·) }).tileDone core t.doff t.tag t.p t.lost t.acc
  else s.putTile core t

/-- The destination core's FX folds what reaches it in ascending index (16 R327). -/
def State.fxFold (s : State) (f : Packet) : State :=
  let core := frameCore f
  let k := s.core core
  let (i, n) := coverOf f
  let fresh : FxTile := ⟨frameTag f, f.n.toNat, combOf f.op.toNat, (frameRows f).length, (frameOff f), 0, [], [], false, false⟩
  let t := (k.fxTiles.find? (sameTile (frameTag f) (frameOff f))).getD fresh
  if t.n != f.n.toNat || t.op != combOf f.op.toNat || t.rows != (frameRows f).length || i < t.e || t.n < i + n ||
      t.held.any fun h => decide (h.1 < i + n) && decide (i < h.1 + h.2.1) then s.mismatchAt f
  else if i = t.e then
    let t := { t with acc := if t.e = 0 then (frameRows f) else combRows t.op t.acc (frameRows f), e := t.e + n }
    s.fxAdvance core (foldHeld t.held.length t)
  else if t.held.isEmpty && k.reorderFull (frameTag f) (frameOff f) then { s with heldBack := s.heldBack ++ [f] }
  else s.putTile core { t with held := t.held ++ [(i, n, (frameRows f))] }

/-- Offer the arrivals that a full reorder store held back once more, as long as one may have become next. -/
def offerAll : Nat → State → State
  | 0, s => s
  | n + 1, s =>
    let t := s.heldBack.foldl State.fxFold { s with heldBack := [] }
    if t.heldBack.length < s.heldBack.length then offerAll n t else t

def State.offerHeld (s : State) : State := offerAll s.heldBack.length s

def State.fxArrive (s : State) (f : Packet) : State := (s.fxFold f).offerHeld

/-- What a site sends on of a slot. -/
def SiteSlot.packet (t : SiteSlot) (smod : Nat) : Packet where
  kind := 3
  nfl := BitVec.ofNat 3 (t.rows - 1)
  dmod := BitVec.ofNat 8 smod
  dcore := BitVec.ofNat 11 t.dcore
  smod := BitVec.ofNat 8 smod
  score := 0
  doff := BitVec.ofNat 19 t.doff
  len := 63
  tag := BitVec.ofNat 16 t.tag
  idx := BitVec.ofNat 16 t.e
  n := BitVec.ofNat 16 t.n
  op := BitVec.ofNat 2 t.op
  rsv := 0
  flits := t.acc

/-- The hub of a core (01 R11), whose switch is the last site before the core. -/
def hubOf (core : Nat) : Nat := core / 1024

/-- SITE of 16 R326 at the hub switch of the destination core; each of the two has a table of its own. -/
def State.siteArrive (s : State) (f : Packet) : State :=
  let (i, n) := coverOf f
  let core := frameCore f
  let same (t : SiteSlot) : Bool := t.tag == (frameTag f) && t.dcore == core && t.doff == (frameOff f)
  let rest := s.sites.filter (!same ·)
  match s.sites.find? same with
  | some t =>
    if t.n != f.n.toNat || t.op != f.op.toNat || t.rows != (frameRows f).length || i < t.e || t.n < i + n then s.mismatchAt f
    else if i = t.e then
      let t := { t with acc := combRows (combOf t.op) t.acc (frameRows f), e := t.e + n, wall := s.wall }
      if t.e = t.n then ({ s with sites := rest }).fxArrive (t.packet s.modNum)
      else { s with sites := rest ++ [t] }
    else (({ s with sites := rest }).fxArrive f).fxArrive (t.packet s.modNum)
  | none =>
    if f.n.toNat < i + n then s.mismatchAt f
    else if i = 0 && decide ((s.sites.filter fun t => hubOf t.dcore == hubOf core).length < 4096) then
      { s with sites := s.sites ++
          [(⟨s.wall, (frameTag f), core, f.n.toNat, f.op.toNat, (frameRows f).length, (frameOff f), n, (frameRows f)⟩ : SiteSlot)] }
    else s.fxArrive f

/-- A contribution sets out for the destination core's hub. -/
def State.contribute (s : State) (f : Packet) (launch seq : Nat) (pois lost : Bool) : State :=
  ({ s with contribs := s.contribs ++
      [(⟨(frameCore f), (frameOff f), (frameTag f), f.idx.toNat, f.smod.toNat, f.score.toNat, launch, seq, pois, lost⟩ : Contrib)] }).siteArrive f

/-- A contribution that no site of this module combines, on its way to the core's FX. -/
def State.contributeDirect (s : State) (f : Packet) : State :=
  ({ s with contribs := s.contribs ++
      [(⟨frameCore f, frameOff f, frameTag f, f.idx.toNat, f.smod.toNat, f.score.toNat, 0, 0, false, false⟩ : Contrib)] }).fxArrive f

/-! ### SEND and COMB (12 R266 to R268) -/

/-- A destination word outside its limits, or one whose rows run past the end of the pocket (DESIGN CHOICE, log entry 110). -/
def destBad (v : Word) (rows : Nat) : Bool :=
  v.toNat / 2 ^ 38 != 0 || destOff v % 64 != 0 || decide (327680 < destOff v + 64 * rows)

/-- A side FX cannot use, one whose element stride is not 1 among them (DESIGN CHOICE, log entry 111). -/
def Side.notFx (a : Side) : Bool := a.unusable || layReserved a.st a.l .row || decide (1 < a.l.space) || a.l.pm

def State.fxProbe (s : State) (x : Ctx) (e : EngineId) (a : Side) (dest : Word) (rows : Nat) (bad : Bool) : EngProbe :=
  (s.engCause x e 5 (bad || destBad dest rows)).andThen fun _ =>
    ((s.engCause x e 8 a.notFx).andThen fun _ =>
      ((boundProbe x e s (firstRowBad (s.sideRows x.c a rows))).andThen fun _ => (s.engWindow x a.n (destTarget dest) rows)))

/-- Row q is sampled at t + ⌊L/2⌋ + q. -/
def State.fxLaunch (s : State) (x : Ctx) (e : EngineId) (a : Side) (dest : Word) (rows : Nat) (comb : Option Contribution) : State :=
  let l := s.sideRows x.c a rows
  let first := x.t + pathLatency (s.part x.p).loose x.c a.l / 2
  let t := destTarget dest
  let (s, i) := s.newLaunch x.p x.c 2 (if comb.isSome then 1 else rows)
  let s := s.modCore x.c fun k => k.modEng (engNum e) fun g => { g with busy := first + rows + 1 }
  let seq := (s.part x.p).seq + 1
  let s := s.modPart x.p fun k => { k with seq := k.seq + 2 * rows }
  let s := if comb.isSome then s.claimUnits x.c t rows (seq + rows)
    else (List.range rows).foldl (fun (s : State) q => s.claimUnits x.c t 1 (seq + rows + q)) s
  s.sampleAt x first (.fxRow ⟨l.map fun r => (r.loc, r.mask), rows, dest, comb, i, a.n, seq, false, ((s.core x.c).getEng 2).gate⟩ [] false)

def execSend (rows : Num4) (st : Num4) (s : State) : Out :=
  .next (engineWord 1 0 true noTarget
    (fun x e a s => s.fxProbe x e ((s.core x.c).side st.val) (argAt a 0) (rows.val + 1) false)
    (fun x e a s => s.fxLaunch x e ((s.core x.c).side st.val) (argAt a 0) (rows.val + 1) none) s)

/-- Operands top first: destination, tag, contributors, index, rows. -/
def execComb (op : CombOp) (st : Num4) (s : State) : Out :=
  .next (engineWord 5 0 true noTarget
    (fun x e a s =>
      let rows := (argAt a 4).toNat
      let n := (argAt a 2).toNat
      s.fxProbe x e ((s.core x.c).side st.val) (argAt a 0) rows
        (rows == 0 || decide (16 < rows) || decide (2 ^ 16 ≤ (argAt a 1).toNat) || n == 0 || decide (2 ^ 16 ≤ n) ||
          decide (n ≤ (argAt a 3).toNat)))
    (fun x e a s =>
      s.fxLaunch x e ((s.core x.c).side st.val) (argAt a 0) (argAt a 4).toNat
        (some ⟨op, (argAt a 1).toNat, (argAt a 2).toNat, (argAt a 3).toNat⟩)) s)

/-- The contribution as a frame (16 R320). -/
def contributionPacket (smod score : Nat) (dest : Word) (c : Contribution) (rows : List Row) : Packet where
  kind := 2
  nfl := BitVec.ofNat 3 (rows.length - 1)
  dmod := BitVec.ofNat 8 (destTarget dest / 2048)
  dcore := BitVec.ofNat 11 (destTarget dest)
  smod := BitVec.ofNat 8 smod
  score := BitVec.ofNat 11 score
  doff := BitVec.ofNat 19 (destOff dest)
  len := 63
  tag := BitVec.ofNat 16 c.tag
  idx := BitVec.ofNat 16 c.idx
  n := BitVec.ofNat 16 c.n
  op := BitVec.ofNat 2 (combCode c.op)
  rsv := 0
  flits := rows

/-- The frames of a contribution: 8 rows in each (16 R320; log entry 73). -/
def contributionFrames (f : Packet) : List Packet :=
  (chunks 8 f.flits).zipIdx.map fun (l, i) =>
    { f with nfl := BitVec.ofNat 3 (l.length - 1), doff := f.doff + BitVec.ofNat 19 (512 * i), flits := l }

/-- The latency of a row's path. -/
def rowLatency (loose : Bool) : Option Loc → Nat
  | some (.pocket _ _) => ownPocket loose
  | _ => 8

/-- A row of a SEND sets out for its target, and leaves the module when a row for the core of the same number in it would land (log
entry 84); `none` is one that lateness took, and `late` one whose data a strict partition waits for. A frame has no field for poison
(16 R320): a poisoned row, or one that lateness took, reaches another module as clean bytes (DESIGN CHOICE, log entry 104). -/
def State.sendRow (s : State) (p : Nat) (d : Due) (r : FxRun) (q : Nat) (v : Option Row) (pois late : Bool) : State :=
  s.addDue p { d with tick := d.tick + peerLatency (s.part p).loose d.who.core (destTarget r.dest % 2048) / 2, place := 8
                      act := .fxLand (s.destPlace r.dest q) (r.seq + r.total + q) v pois late r.launch }

/-- The contribution of a COMB sets out after its last row. -/
def State.sendContribution (s : State) (p : Nat) (d : Due) (r : FxRun) (cb : Contribution) (rows : List Row) (pois lost : Bool) : State :=
  let c := d.who.core
  let target := destTarget r.dest
  let f := contributionPacket s.modNum c r.dest cb rows
  if target / 2048 = s.modNum then s.contribute f r.launch (r.seq + r.total) pois lost
  else
    let w := (s.core c).window target
    (contributionFrames f).zipIdx.foldl (fun s (f, i) =>
      s.post p d (.remote (BitVec.ofNat 19 target) f.doff.toNat) (64 * f.flits.length) f
        (if i = 0 then some ⟨target, w, r.total, .engine 2 r.launch, d.who.issue⟩ else none)) s

/-- A source row is sampled: a SEND posts it, a COMB sends its contribution after the last. The data of a late row is lost
in a loose partition (05 R115); a strict one waits for it where it would arrive (01 R29). With no row left, a contribution
that waited for its data sets out. -/
def State.doFxRow (s : State) (p : Nat) (d : Due) (r : FxRun) (got : List Row) (pois : Bool) : State :=
  let c := d.who.core
  let k := s.part p
  match r.rows with
  | [] =>
    s.lateGate p d (r.seq + r.total) r.late fun s =>
      match r.comb with
      | some cb => s.sendContribution p d r cb got pois false
      | none => s
  | (loc, mask) :: l =>
    let q := r.total - r.rows.length
    let lat := rowLatency k.loose loc
    let arrival := d.tick + (lat - lat / 2)
    let (s, v) := match loc with
      | none => (s, Except.ok (0, false))
      | some a => match s.launchRead p c r.gate fun s => s.readLoc p c .read a 64 with
        | (s, .ok (b, pp)) => (s, .ok (rowOfBytes b &&& mask, pp))
        | (s, .error e) => (s, .error e)
    match v with
    | .error e => s.accessFault p d e ⟨loc.getD (.pocket c 0), r.stream, r.seq + q, false, arrival, [], false⟩
    | .ok (v, pp) =>
      let late := s.isLate p (r.seq + q)
      let lost := k.loose && (late || (match loc with | some a => s.lateTo p a 64 | none => false))
      let (v, s) := if lost then s.drawRow else (v, s)
      let got := got ++ [v]
      let r := { r with rows := l, late := r.late || late || lost }
      let pois := pois || pp || lost
      let s := match r.comb with
        | none => s.sendRow p d r q (if lost then none else some v) pp (late && !k.loose)
        | some cb =>
          if !l.isEmpty then s
          else if k.loose then s.sendContribution p d r cb got pois r.late
          else if r.late then s.addDue p { d with tick := arrival, place := 8, act := .fxRow r got pois }
          else s.sendContribution p d r cb got pois false
      if l.isEmpty then s else s.addDue p { d with tick := d.tick + 1, act := .fxRow r got pois }

/-- A row of a SEND lands in a pocket of the module, or leaves for another. -/
def State.doFxLand (s : State) (p : Nat) (d : Due) (loc : Loc) (seq : Nat) (v : Option Row) (pois late : Bool) (launch : Nat) :
    State :=
  let c := d.who.core
  s.lateGate p d seq (late || s.isLate p seq) fun s =>
    match loc, v with
    | .remote t o, some v => s.postRuns p d 2 launch 1 [(t, o, [v], 64)]
    | .remote t _, none => (s.returnUnits c t.toNat 1).unitDone p c 2 launch
    | .pocket t o, some v => ((s.writeAt p d.landing (.pocket t o) (bytesOfRow v) (2 ^ 512 - 1) pois).unitDone p c 2 launch).unitsBack c seq
    | _, _ => ((s.losePlace loc 64).unitDone p c 2 launch).unitsBack c seq

end Sys2Proof.Machine
end

