-- ==== Sys2Proof/Machine/Grid.lean ====
section
/-! DEFINITION. Grids: descriptors, hems and stamps, exchanges and rule fills, and the grid words (14). -/

namespace Sys2Proof.Machine

/-! ### The descriptor (14 R272) -/

/-- A descriptor: row 0 in the low 512 bits, row 1 above it. -/
abbrev Desc := BitVec 1024

def dfld (v : Desc) (lo w : Nat) : Nat := fld v.toNat lo w

def dDims (v : Desc) : Nat := dfld v 424 2 + 1
def dN (v : Desc) (e : Nat) : Nat := dfld v (64 + 32 * e) 32
def dG (v : Desc) (e : Nat) : Nat := dfld v (160 + 32 * e) 32
def dShape (v : Desc) (e : Nat) : Nat := dfld v (256 + 16 * e) 16
def dPos (v : Desc) (e : Nat) : Nat := dfld v (304 + 16 * e) 16
def dBase (v : Desc) (b : Nat) : Nat := dfld v (352 + 32 * b) 19
def dFmt (v : Desc) : Fmt := (Fmt.ofCode? (dfld v 416 5)).getD .fp32
def dR (v : Desc) : Nat := dfld v 426 4
def dD (v : Desc) : Nat := dfld v 430 4
def dTmo (v : Desc) : Nat := if dfld v 32 16 = 0 then 100 else dfld v 32 16
def dStep (v : Desc) : BitVec 32 := BitVec.ofNat 32 (dfld v 0 32)
def dH (v : Desc) (f : Nat) : Nat := dfld v (512 + 32 * f + 22) 4
def dRule (v : Desc) (f : Nat) : Nat := dfld v (512 + 32 * f + 19) 3
def dNbr (v : Desc) (f : Nat) : Nat := dfld v (512 + 32 * f) 19

def dEsize (v : Desc) : Nat := (dFmt v).bits / 8
def faces : List Nat := [0, 1, 2, 3, 4, 5]

/-- A face lies at the edge of the core grid (14 R273). -/
def dPhysical (v : Desc) (f : Nat) : Bool :=
  let e := f / 2
  if f % 2 = 0 then dPos v e == 0 else dPos v e + 1 == dShape v e

def dDeclared (v : Desc) (f : Nat) : Bool := decide (f / 2 < dDims v)

/-- Padded extents (14 R275). -/
def dP (v : Desc) (e : Nat) : Nat := if e < dDims v then dH v (2 * e) + dN v e + dH v (2 * e + 1) else 1

def dBytes (v : Desc) : Nat := dP v 0 * dP v 1 * dP v 2 * dEsize v

/-- The pocket byte of an element (14 R275). -/
def dByte (v : Desc) (b : Nat) (c : List Int) : Nat :=
  let at_ (e : Nat) : Int := c.getD e 0 + dH v (2 * e)
  (((dBase v b : Nat) : Int) + ((at_ 2 * dP v 1 + at_ 1) * dP v 0 + at_ 0) * dEsize v).toNat

/-! ### The checks of GDEF (14 R274) -/

def dReserved (v : Desc) : Bool :=
  dfld v 434 78 != 0 || dfld v 421 3 != 0 || dfld v 403 13 != 0 || dfld v 371 13 != 0 || dfld v 48 16 != 0 ||
    dfld v 704 320 != 0 || faces.any fun f => dfld v (512 + 32 * f + 26) 6 != 0

def dShapeBad (v : Desc) (e : Nat) : Bool :=
  if e < dDims v then dShape v e == 0 || decide (dShape v e ≤ dPos v e) || dN v e == 0 || dG v e != dN v e * dShape v e
  else dShape v e != 1 || dPos v e != 0 || dN v e != 1

/-- The first failing check of a descriptor. A width above 8, which no layer number reaches, is refused as a reserved value
where nothing else is wrong (log entry 14). -/
def dCause (v : Desc) : Option Nat :=
  let n := dBytes v
  if dReserved v || dfld v 424 2 = 3 || faces.any fun f => decide (5 < dRule v f) then some 1
  else if !(match Fmt.ofCode? (dfld v 416 5) with | some .fp64 | some .fp32 | some .bf16 => true | _ => false) then some 2
  else if [0, 1, 2].any (dShapeBad v) then some 3
  else if dR v = 0 || dD v = 0 || 8 < dR v || 8 < dD v then some 4
  else if faces.any fun f =>
      if dDeclared v f then dPhysical v f && dRule v f == 5 && dH v f != 0 else dH v f != 0 || dRule v f != 5 then some 5
  else if faces.any fun f =>
      dDeclared v f && !(dPhysical v f && dRule v f == 5) && decide (dH v f < dD v * dR v) then some 6
  else if faces.any fun f => dDeclared v f && decide (dN v (f / 2) < dH v f) then some 7
  else if dBase v 0 % 64 ≠ 0 || dBase v 1 % 64 ≠ 0 || 327680 < dBase v 0 + n || 327680 < dBase v 1 + n ||
      overlap (dBase v 0) n (dBase v 1) n then some 8
  else if faces.any fun f => decide (8 < dH v f) then some 1
  else none

/-! ### Faces, stamps and elements (14 R271, R273, R276) -/

def Grid.rule (g : Grid) (f : Nat) : Rule := (g.rules[f]?).getD .none

def Grid.exchanging (g : Grid) (f : Nat) : Bool :=
  dDeclared g.desc f && (!dPhysical g.desc f || g.rule f == .periodic)

def Grid.ruleFilled (g : Grid) (f : Nat) : Bool :=
  dDeclared g.desc f && dPhysical g.desc f && !(g.rule f == .periodic || g.rule f == .none)

def hemIndex (b f j : Nat) : Nat := 48 * b + 8 * f + (j - 1)
def Grid.stamp (g : Grid) (b f j : Nat) : Option (BitVec 32) := tfind g.hem (hemIndex b f j)
def Grid.interior (g : Grid) (b : Nat) : Option (BitVec 32) := tfind g.inner b
def Grid.sentAt (g : Grid) (f : Nat) : BitVec 32 := tget 0 g.sigS f
def Grid.gotAt (g : Grid) (f : Nat) : BitVec 32 := tget 0 g.sigR f

/-- Layers 1 to `n` of a face carry step `step`. -/
def Grid.setStamps (g : Grid) (b f n : Nat) (step : BitVec 32) : Grid :=
  { g with hem := (List.range n).foldl (fun t j => tput t (hemIndex b f (j + 1)) step) g.hem }

inductive GElem where
  | interior
  | layer (face j : Nat)
  | corner
  | beyond (dim : Nat)
  | openBand
  deriving DecidableEq, Repr

/-- The first dimension in which a coordinate lies beyond the padded extent. -/
def dBeyond (v : Desc) (c : List Int) : Option Nat :=
  [0, 1, 2].find? fun e =>
    let x := c.getD e 0 + dH v (2 * e)
    decide (x < 0) || decide ((dP v e : Int) ≤ x)

/-- The hems an element lies in: face and layer. -/
def dHems (v : Desc) (c : List Int) : List (Nat × Nat) :=
  [0, 1, 2].filterMap fun e =>
    let x := c.getD e 0
    if x < 0 then some (2 * e, (-x).toNat)
    else if (dN v e : Int) ≤ x then some (2 * e + 1, (x - dN v e + 1).toNat)
    else none

def Grid.classify (g : Grid) (c : List Int) : GElem :=
  match dBeyond g.desc c with
  | some d => .beyond d
  | none => match dHems g.desc c with
    | [] => .interior
    | [(f, j)] => if g.exchanging f || g.ruleFilled f then .layer f j else .openBand
    | _ => .corner

/-- The elements of a row from a cursor. -/
def Grid.rowElems (g : Grid) (cur : List Int) : List (List Int × GElem) :=
  (List.range (64 / dEsize g.desc)).map fun (i : Nat) =>
    let c := addCoord cur (i : Int)
    (c, g.classify c)

/-- The row that a grid word's stream names: cur0 to cur2 (14 R277). -/
def gridCursor (st : BitVec 256) : List Int := (strOf st).cur.take 3

def State.advanceGrid (s : State) (x : Ctx) (st n : Nat) (adv : Adv) : State :=
  let r := strOf ((s.core x.c).getSt st)
  let amount : List Int := match adv with
    | .a0 => [0, 0, 0, 0]
    | .a1 => [(n : Int), 0, 0, 0]
    | .as => r.step.take 3 ++ [0]
  if adv == .a0 then s else s.later x (x.t + 1) (.cursor st (packCursor (addVec r.cur amount)))

/-- TREC3 of the hem traps and of the grid-definition trap (14 R286). -/
def hemStatus (gr : Nat) (stamp : Option (BitVec 32)) (face layer : Nat) : Word :=
  BitVec.ofNat 64 ((match stamp with | some v => v.toNat * 2 ^ 32 + 2 ^ 11 | none => 0) + layer * 2 ^ 7 + face * 2 ^ 4 + gr)
def defStatus (gr cause : Nat) : Word := BitVec.ofNat 64 (gr + cause * 256)

/-- An undefined grid (14 R271). -/
def undefinedProbe (g : Grid) (gr : Nat) : Probe := .when (!g.defined) (.trap .gridDefinition (defStatus gr 0))

/-! ### Sends (14 R280, R281) -/

/-- B_f of 14 R280. -/
def faceBytes (v : Desc) (f : Nat) : Nat :=
  let others := [0, 1, 2].foldl (fun acc e => if e = f / 2 then acc else acc * (if e < dDims v then dN v e else 1)) 1
  dH v f * dEsize v * others

/-- Every coordinate of the interior extents of the dimensions other than `e`, with `x` in dimension `e`. -/
def acrossFace (v : Desc) (e : Nat) (x : Int) : List (List Int) :=
  let dim (d : Nat) : List Int := if d = e then [x] else (List.range (if d < dDims v then dN v d else 1)).map fun (i : Nat) => (i : Int)
  (dim 2).flatMap fun z => (dim 1).flatMap fun y => (dim 0).map fun w => [w, y, z]

/-- Source and destination coordinates of an exchange on face f, layer by layer. -/
def exchangePairs (v : Desc) (f : Nat) : List (List Int × List Int) :=
  let e := f / 2
  let n : Int := dN v e
  (List.range (dH v f)).flatMap fun (j0 : Nat) =>
    let j : Int := j0 + 1
    let src := if f % 2 = 0 then j - 1 else n - j
    let dst := if f % 2 = 0 then n - 1 + j else -j
    List.zip (acrossFace v e src) (acrossFace v e dst)

/-- The face that the receiver fills. -/
def facing (f : Nat) : Nat := if f % 2 = 0 then f + 1 else f - 1

/-- Bytes of one element moved from pocket byte `a` to `b`. -/
def moveCells (m : Memory) (a b n : Nat) : List (Nat × Byte) :=
  (List.range n).map fun i => (b + i, Memory.read m (a + i))

/-- Pocket rows of poisoned source elements. -/
def poisonedRows (k : Core) (pairs : List (Nat × Nat)) : List Nat :=
  (pairs.filterMap fun (a, b) => if tget false k.pocketP (a / 64) then some (b / 64) else none).eraseDups

/-- Rows that a loose partition fills from bytes of a late write (07 R169): pairs of a source byte and where it goes. -/
def State.lateRows (s : State) (p core es : Nat) (pairs : List (Nat × Nat)) : List Nat :=
  if !(s.part p).goesOn then []
  else (pairs.filterMap fun (a, b) => if s.lateTo p (.pocket core a) es then some (b / 64) else none).eraseDups

/-- Whether a core of this module moves with partition `p`. -/
def State.inGroup (s : State) (p core : Nat) : Bool :=
  match s.partOf core with
  | some q => s.sameGroup p q
  | none => false

def State.timedNeighbour (s : State) (p target : Nat) : Bool := target / 2048 == s.modNum && s.inGroup p (target % 2048)

/-- One send of a face not yet acknowledged more, or less. -/
def Grid.sends (g : Grid) (f : Nat) (n : Int) : Grid :=
  { g with sending := tset 0 g.sending f (((tget 0 g.sending f : Nat) : Int) + n).toNat }

/-- The tick at which a timed exchange that is read at `at_` lands (14 R281). -/
def exchangeLand (loose : Bool) (core : Nat) (v : Desc) (f at_ : Nat) : Nat :=
  let target := dNbr v f % 2048
  let bytes := if target = core then 64 else if target / 128 = core / 128 then 32 else 16
  at_ + peerLatency loose core target + (faceBytes v f + bytes - 1) / bytes

/-- What a timed exchange, or one to another module, will write. -/
def State.exchangeOut (s : State) (p : Nat) (v : Desc) (f b : Nat) : List (Loc × Nat) :=
  let t := dNbr v f
  let place (a : Nat) : Loc := if t / 2048 = s.modNum then .pocket (t % 2048) a else .remote (BitVec.ofNat 19 t) a
  if s.timedNeighbour p t || t / 2048 != s.modNum then (exchangePairs v f).map fun e => (place (dByte v b e.2), dEsize v) else []

/-- Set the sends of a completed step going, in ascending face order from tick `first` (14 R281). -/
def State.startSends (s : State) (p : Nat) (d : Due) (gr : Nat) (step : BitVec 32) : Nat → List Nat → State
  | at_, [] => s.modCore d.who.core fun k => { k with haloFree := at_ }
  | at_, f :: l =>
    let v := ((s.core d.who.core).getGrid gr).desc
    let s := s.modCore d.who.core fun k => k.modGrid gr fun g => g.sends f 1
    let (s, n) := s.nextSeq p
    let out := s.exchangeOut p v f (step.toNat % 2)
    let land := exchangeLand (s.part p).loose d.who.core v f at_
    let s := s.addDue p { d with tick := at_, place := samplePlace, act := .gridSend gr f step v n out land }
    s.startSends p d gr step (at_ + (faceBytes v f + 63) / 64) l

def State.sendFaces (s : State) (p : Nat) (d : Due) (gr : Nat) (step : BitVec 32) (l : List Nat) : State :=
  if l.isEmpty then s else s.startSends p d gr step (max (d.tick + 1) (s.core d.who.core).haloFree) l

/-- The frames of an exchange to another module (log entry 15). -/
def exchangeFrames (smod : Nat) (e : Exchange) (target : Nat) : List Packet :=
  let runs := writtenRunsOf e.cells
  runs.zipIdx.map fun (r, i) =>
    { packetOf 5 smod e.src (BitVec.ofNat 19 target) r.1 [BitVec.ofNat 512 (e.step.toNat), rowOfBytes r.2] r.2.length with
      tag := BitVec.ofNat 16 (e.gr + 8 * e.face + 64 * e.h)
      idx := BitVec.ofNat 16 i
      n := BitVec.ofNat 16 runs.length }
where
  /-- Runs of at most 64 bytes that follow one another. -/
  writtenRunsOf (l : List (Nat × Byte)) : List (Nat × List Byte) :=
    (l.foldl (fun (acc : List (Nat × List Byte)) (a, b) =>
      match acc with
      | (f, bs) :: r => if a = f + bs.length && bs.length < 64 then (f, bs ++ [b]) :: r else (a, [b]) :: acc
      | [] => [(a, [b])]) []).reverse

/-- Every byte of the face has landed: its stamps and receive step, or the held stamp of an undefined grid. -/
def State.stampFace (s : State) (core gr face : Nat) (step : BitVec 32) : State :=
  s.modCore core fun k => k.modGrid gr fun g =>
    if g.defined then
      let g := g.setStamps (step.toNat % 2) face (dH g.desc face) step
      { g with sigR := tput g.sigR face step }
    else { g with held := tput g.held face step }

/-- Cells in runs that lie together in one row. -/
def cellRuns (l : List (Nat × Byte)) : List (Nat × List Byte) :=
  ((l.foldl (fun (acc : List (Nat × List Byte)) (a, b) =>
    match acc with
    | (f, bs) :: r => if a = f + bs.length && a % 64 != 0 then (f, b :: bs) :: r else (a, [b]) :: acc
    | [] => [(a, [b])]) []).map fun e => (e.1, e.2.reverse)).reverse

/-- Write cells of a pocket for a partition; `pois` lists the rows whose data is poisoned. -/
def State.writeCells (s : State) (p : Nat) (how : Landing) (core : Nat) (l : List (Nat × Byte)) (pois : List Nat) : State :=
  (cellRuns l).foldl (fun s r =>
    s.writeAt p how (.pocket core r.1) r.2 (2 ^ (8 * r.2.length) - 1) (pois.contains (r.1 / 64))) s

/-! ### Arrivals (14 R282) -/

/-- The exchange is acknowledged; a sender in another module hears by frame. -/
def State.exchangeDone (s : State) (e : Exchange) : State :=
  let s := if e.src < 2048 then s.modCore e.src fun k => k.modGrid e.gr fun g => g.sends e.sface (-1) else s
  match e.launch, s.partOf e.src with
  | some i, some p => s.modPart p fun k => { k with untimed := k.untimed.erase i }
  | _, _ => s

/-- The rows of cells whose data is late are marked poisoned, and what follows their landing follows. -/
def State.lateCells (s : State) (core : Nat) (cells : List (Nat × Byte)) (k : State → State) : State :=
  k (((cells.map fun x => x.1 / 64).eraseDups).foldl (fun (s : State) r => s.losePlace (.pocket core (64 * r)) 64) s)

/-- The receiver notes rows that lateness took (05 R117). -/
def Exchange.noted (e : Exchange) (s : State) : State := if e.lost then s.markPoison e.core else s

/-- An exchange lands: data, then stamps. Timed data that is late freezes a strict partition, and is discarded and its rows
marked poisoned in a loose one (14 R281). -/
def State.doGridArrive (s : State) (p : Nat) (d : Due) (e : Exchange) : State :=
  let late := e.launch.isNone && s.isLate p e.seq
  let done (s : State) : State := (s.stampFace e.core e.gr e.face e.step).exchangeDone e
  let land (s : State) : State := done (e.noted (s.writeCells p d.landing e.core e.cells e.pois))
  if !(s.part p).goesOn then s.lateGate p d e.seq late land
  else if late then s.lateCells e.core e.cells done
  else land s

/-! ### Rule fills (14 R283) -/

/-- The source coordinate of layer j along the face's dimension, where a rule copies one. -/
def fillSource (r : Rule) (f : Nat) (n j : Int) : Int :=
  match r with
  | .clamp => if f % 2 = 0 then 0 else n - 1
  | _ => if f % 2 = 0 then j - 1 else n - j

/-- The halo engine samples what a rule fill copies. -/
def State.doGridFill (s : State) (p : Nat) (d : Due) (gr f : Nat) (r : Rule) (const : Word) (step : BitVec 32) (seq : Nat) : State :=
  let c := d.who.core
  let k := s.core c
  let v := (k.getGrid gr).desc
  let b := step.toNat % 2
  let e := f / 2
  let n : Int := dN v e
  let es := dEsize v
  let one (j : Int) : List (List (Nat × Byte) × List Nat × List Nat) :=
    let dst := acrossFace v e (if f % 2 = 0 then -j else n - 1 + j)
    let src := acrossFace v e (fillSource r f n j)
    (List.zip src dst).map fun (x, y) =>
      let a := dByte v b x
      let t := dByte v b y
      match r with
      | .const => ((leBytes es const.toNat).zipIdx.map fun (w, i) => (t + i, w), [], [])
      | .odd =>
        let w := fNeg (dFmt v) (leNat (Memory.readBytes k.pocket a es))
        ((leBytes es w).zipIdx.map fun (w, i) => (t + i, w), poisonedRows k [(a, t)], s.lateRows p c es [(a, t)])
      | _ => (moveCells k.pocket a t es, poisonedRows k [(a, t)], s.lateRows p c es [(a, t)])
  let all := (List.range (dH v f)).flatMap fun (j0 : Nat) => one (j0 + 1)
  let lost := (all.flatMap (·.2.2)).eraseDups
  s.addDue p { d with tick := d.tick + ownPocket (s.part p).loose, place := 6
                      act := .gridFilled gr f step (all.flatMap (·.1)) ((all.flatMap (·.2.1) ++ lost).eraseDups) seq (!lost.isEmpty) }

/-- A rule fill lands: data, then stamps. One that is late freezes a strict partition, and its rows are marked poisoned in a loose
one (01 R29, 05 R115). One of an
old definition that is in flight when GDEF redefines the grid lands as any other: it writes its cells and sets the stamps of its face in
the new state (DESIGN CHOICE, log entry 115). -/
def State.doGridFilled (s : State) (p : Nat) (d : Due) (gr f : Nat) (step : BitVec 32) (cells : List (Nat × Byte))
    (pois : List Nat) (seq : Nat) (lost : Bool) : State :=
  let c := d.who.core
  let late := s.isLate p seq
  let stamp (s : State) : State := s.modCore c fun k => k.modGrid gr fun g =>
    if g.defined then g.setStamps (step.toNat % 2) f (dH g.desc f) step else g
  let land (s : State) : State := stamp (s.writeCells p d.landing c cells pois)
  if !(s.part p).goesOn then s.lateGate p d seq late land
  else if late then s.lateCells c cells stamp
  else land (if lost then s.markPoison c else s)

/-- What a rule fill of a face will write. -/
def fillOut (core : Nat) (v : Desc) (f b : Nat) : List (Loc × Nat) :=
  (List.range (dH v f)).flatMap fun (j : Nat) =>
    (acrossFace v (f / 2) (if f % 2 = 0 then -((j : Int) + 1) else (dN v (f / 2) : Int) + j)).map fun y =>
      (.pocket core (dByte v b y), dEsize v)

/-- The fills of the rule-filled faces, by the rules and the CONST values in force as the GDEF or GADV takes effect (14 R288), sampled
at that tick. -/
def State.startFills (s : State) (p : Nat) (d : Due) (gr : Nat) (step : BitVec 32) : State :=
  let c := d.who.core
  let g := (s.core c).getGrid gr
  (faces.filter g.ruleFilled).foldl (fun s f =>
    let (s, n) := s.nextSeq p
    s.addDue p { d with place := samplePlace, act := .gridFill gr f (g.rule f) (tget 0 g.const f) step n (fillOut c g.desc f (step.toNat % 2)) }) s

/-! ### GDEF (14 R278, R287) -/

def execGdef (f : Frame) (gr : Num3) (a : Num4) (s : State) : Out :=
  .next (nativeWord .a (.gdef f gr a) f
    (fun x s =>
      let o := (s.core x.c).getC a.val
      (poisonProbe x o).andThen
        (.when (o.v.toNat % 64 != 0 || decide (327680 < o.v.toNat + 128)) (.trap .layoutBound (boundOffset o.v))))
    (fun x s =>
      let l := ownPocket (s.part x.p).loose
      let seq := (s.part x.p).seq + 1
      let s := s.modPart x.p fun k => { k with seq := k.seq + 2 }
      s.sampleAt x (x.t + l / 2) (.gridRow gr.val ((s.core x.c).getC a.val).v.toNat 0 seq [])) s)

/-- The two descriptor rows are sampled on successive ticks, by accesses `seq` and `seq` + 1; the descriptor takes effect at
t + L + 1. A late row freezes a strict partition, and counts as poisoned in a loose one (01 R29). -/
def State.doGridRow (s : State) (p : Nat) (d : Due) (gr off row seq : Nat) (got : List PRow) : State :=
  let k := s.core d.who.core
  let a := off + 64 * row
  let l := ownPocket (s.part p).loose
  let late := s.isLate p (seq + row)
  let lost := (s.part p).goesOn && (late || s.lateTo p (.pocket d.who.core a) 64)
  let r : PRow := ⟨rowOfBytes (Memory.readBytes k.pocket a 64), tget false k.pocketP (a / 64) || lost⟩
  let s := if late && !(s.part p).goesOn then
      s.lateFreeze p d ⟨.pocket d.who.core a, 0xF, seq + row, false, d.tick + (l - l / 2), [], false⟩ else s
  if row = 0 then s.addDue p { d with tick := d.tick + 1, act := .gridRow gr off 1 seq [r] }
  else s.addDue p { d with tick := d.tick + (l - l / 2), place := 2, act := .gridDefine gr (got ++ [r]) }

def ruleOf (n : Nat) : Rule := (Rule.ofCode? n).getD .none

/-- The state of a grid as its descriptor takes effect: held stamps of its first step are adopted. -/
def gridDefined (old : Grid) (v : Desc) : Grid :=
  let s0 := dStep v
  let b := s0.toNat % 2
  let g : Grid := { Grid.reset with
    defined := true
    desc := v
    rules := faces.map fun f => ruleOf (dRule v f)
    step := s0
    sigS := faces.map fun f => (f, s0)
    sigR := faces.map fun f => (f, s0)
    inner := [(b, s0)]
    sending := old.sending
    arrived := old.arrived }
  faces.foldl (fun g f => if tfind old.held f = some s0 then g.setStamps b f (dH v f) s0 else g) g

def State.doGridDefine (s : State) (p : Nat) (d : Due) (gr : Nat) (rows : List PRow) : State :=
  let v : Desc := ((rows.getD 1 Pv.zero).v ++ (rows.getD 0 Pv.zero).v).setWidth 1024
  match if rows.any (·.p) then some 1 else dCause v with
  | some c => s.addCond p ⟨(s.part p).tick, .gridDefinition, d.who, defStatus gr c, .continue_⟩
  | none =>
    let s := s.modCore d.who.core fun k => k.modGrid gr fun g => gridDefined g v
    let g := (s.core d.who.core).getGrid gr
    (s.startFills p d gr (dStep v)).sendFaces p d gr (dStep v) (faces.filter g.exchanging)

/-! ### GBC (14 R288) -/

def execGbc (f : Frame) (gr : Num3) (face : Fin 6) (a : Num4) (rule : Rule) (s : State) : Out :=
  .next (nativeWord .a (.gbc f gr face a rule) f
    (fun x s =>
      let k := s.core x.c
      let g := k.getGrid gr.val
      (Probe.when (rule == .const) (poisonProbe x (k.getC a.val))).andThen
        ((undefinedProbe g gr.val).andThen
          ((Probe.when (!dDeclared g.desc face.val) (.trap .gridDefinition (defStatus gr.val 5))).andThen
            (.when (rule != .none && decide (dH g.desc face.val < dD g.desc * dR g.desc))
              (.trap .gridDefinition (defStatus gr.val 6))))))
    (fun x s => s.later x (x.t + 1)
      (.gridRule gr.val face.val rule (if rule == .const then some ((s.core x.c).getC a.val).v else none))) s)

def State.doGridRule (s : State) (d : Due) (gr face : Nat) (r : Rule) (const : Option Word) : State :=
  s.modCore d.who.core fun k => k.modGrid gr fun g =>
    { g with rules := g.rules.set face r
             const := match const with
               | some v => tset 0 g.const face (BitVec.ofNat 64 (v.toNat % 2 ^ (8 * dEsize g.desc)))
               | none => g.const }

/-! ### GLD (14 R284, R289) -/

/-- The stamp an element is read against, with its face and layer. -/
def Grid.elemStamp (g : Grid) (b : Nat) : GElem → Option (Option (BitVec 32) × Nat × Nat)
  | .interior => some (g.interior b, 7, 0)
  | .layer f j => some (g.stamp b f j, f, j)
  | _ => none

def aboveTag (t : BitVec 32) : Option (BitVec 32) → Bool
  | some v => decide (t < v)
  | none => false
def belowTag (t : BitVec 32) : Option (BitVec 32) → Bool
  | some v => decide (v < t)
  | none => true

/-- What the stamps say of a row at its sampling tick. -/
inductive StampCheck where
  | pass
  | overrun (status : Word)
  | stale (status : Word)
  | wait (status : Word)
  deriving DecidableEq, Repr

/-- t is step0 + k·d: an exchange brings it. -/
def exchangeStep (v : Desc) (t : BitVec 32) : Bool :=
  decide ((dStep v).toNat ≤ t.toNat) && (t.toNat - (dStep v).toNat) % dD v == 0

def State.stampCheck (s : State) (p core gr : Nat) (cur : List Int) (t : BitVec 32) : StampCheck :=
  let g := (s.core core).getGrid gr
  let l := (g.rowElems cur).filterMap fun e => g.elemStamp (t.toNat % 2) e.2
  let status (x : Option (BitVec 32) × Nat × Nat) : Word := hemStatus gr x.1 x.2.1 x.2.2
  match l.find? fun x => aboveTag t x.1 with
  | some x => .overrun (status x)
  | none =>
    let hopeless (x : Option (BitVec 32) × Nat × Nat) : Bool :=
      x.2.1 == 7 || g.ruleFilled x.2.1 || s.timedNeighbour p (dNbr g.desc x.2.1) || !exchangeStep g.desc t
    match l.find? fun x => belowTag t x.1 && hopeless x with
    | some x => .stale (status x)
    | none => match l.find? fun x => belowTag t x.1 with
      | some x => .wait (status x)
      | none => .pass

def firstBeyond (l : List (List Int × GElem)) : Option Word :=
  match l with
  | (c, .beyond d) :: _ => some (boundEdge d (c.getD d 0))
  | _ => none

def beyondProbe (g : Grid) (cur : List Int) : Probe :=
  match firstBeyond (g.rowElems cur) with
  | some w => .trap .layoutBound w
  | none => .ok

def tagOf (v : PWord) : BitVec 32 := v.v.setWidth 32

def execGld (f : Frame) (q : Num4) (gr : Num3) (st t : Num4) (adv : Adv) (s : State) : Out :=
  .next (nativeWord .a (.gld f q gr st t adv) f
    (fun x s =>
      let k := s.core x.c
      let g := k.getGrid gr.val
      (poisonProbe x (k.getC t.val)).andThen
        ((undefinedProbe g gr.val).andThen
          ((beyondProbe g (gridCursor (k.getSt st.val))).andThen
            ((s.pushProbe x.p x.c q.val).andThen (s.lsqProbe x false)))))
    (fun x s =>
      let k := s.core x.c
      let g := k.getGrid gr.val
      let lat := ownPocket (s.part x.p).loose
      let tm := accessTiming (s.part x.p).loose k x.t (lat / 2) (lat / 2) .rlx .co true false
      let s := s.setCore x.c (tm.core.enqueue x.t (tm.base + lat / 2) false)
      let (s, n) := s.nextSeq x.p
      let s := s.advanceGrid x st.val (64 / dEsize g.desc) adv
      let (s, id) := s.claim x.c q.val (tm.base + lat / 2)
      s.sampleAt x (tm.base + lat / 2)
        (.gridLoad gr.val (.queue q.val id) (gridCursor (k.getSt st.val)) (tagOf (k.getC t.val)) true (tm.base + lat) n)) s)

/-- The row a GLD delivers: corners and elements beyond read 0. -/
def Core.gridRow (k : Core) (g : Grid) (b : Nat) (cur : List Int) : PRow :=
  let es := dEsize g.desc
  let l := (g.rowElems cur).map fun (c, e) =>
    match e with
    | .corner | .beyond _ => (0, false)
    | _ =>
      let a := dByte g.desc b c
      (leNat (Memory.readBytes k.pocket a es), tget false k.pocketP (a / 64) || tget false k.pocketP ((a + es - 1) / 64))
  ⟨BitVec.ofNat 512 (rowOfElems (8 * es) (l.map (·.1))), l.any (·.2)⟩

/-- What lands a row, and what marks one that is lost. -/
def RowDest.act (r : PRow) : RowDest → Act
  | .queue q id => .queue q id r.v r.p
  | .reg d => .v d r.v (BitVec.allOnes 512) r.p

def State.lostRow (s : State) : RowDest → State × Act
  | .queue q id => s.lostEntry q id
  | .reg d => (s, .vLost d)

/-- A row of a grid meets a late write of a loose partition (07 R169). -/
def State.gridLate (s : State) (p core : Nat) (g : Grid) (b : Nat) (cur : List Int) : Bool :=
  (g.rowElems cur).any fun e =>
    match e.2 with
    | .corner | .beyond _ => false
    | _ => s.lateTo p (.pocket core (dByte g.desc b e.1)) (dEsize g.desc)

def State.doGridLoad (s : State) (p : Nat) (d : Due) (gr : Nat) (dest : RowDest) (cur : List Int) (t : BitVec 32)
    (check : Bool) (land seq : Nat) : State :=
  let c := d.who.core
  let now := (s.part p).tick
  let g := (s.core c).getGrid gr
  let again : Due := { d with act := .gridLoad gr dest cur t false land seq }
  match if check then s.stampCheck p c gr cur t else .pass with
  | .overrun w => s.addCond p ⟨now, .hemOverrun, d.who, w, .again d again⟩
  | .stale w => s.addCond p ⟨now, .staleHem, d.who, w, .again d again⟩
  | .wait w => (s.addWait p (.hem c gr (dTmo g.desc) w d)).addDue p { d with place := heldPlace }
  | .pass =>
    let r := (s.core c).gridRow g (t.toNat % 2) cur
    let (s, lost) := s.lostRow dest
    s.landSampled p d ⟨.pocket c 0, 0xF, seq, false, land, [], false⟩ (s.isLate p seq) (s.gridLate p c g (t.toNat % 2) cur)
      (dest.act r) (some lost)

/-! ### Hem waits (14 R282, R284) -/

/-- Stamps of a grid have landed while its partition stands still: a wait for them ends, and the tick is made again, which looks at
every stamp anew. -/
def Part.clearHems (k : Part) (core gr : Nat) : Part :=
  { k with waits := k.waits.filter fun w => match w with | .hem c g _ _ _ => !(c == core && g == gr) | _ => true }

/-- Every byte of an exchange of another agent has been performed at the receiver: its stamps land at the group's next tick, at f
where the group stands at f, and at once where no tick is to come (14 R282, R285, 15 R296). -/
def State.stampArrive (s : State) (who : Who) (e : Exchange) : State :=
  match s.partOf e.core with
  | some q =>
    let k := s.part q
    if !k.live || s.groupStill q then
      (s.doGridArrive q ⟨k.tick, 9, who, .gridArrive e⟩ e).modPart q fun k => k.clearHems e.core e.gr
    else s.arrive q who (.gridArrive e)
  | none => (s.stampFace e.core e.gr e.face e.step).exchangeDone e

/-- The halo engine reads a face, as a whole, and sends it. An exchange that leaves the group is performed when it has reached the
receiver, its data before its stamps. A frame has no field for poison (16 R320): rows that are poisoned, or that lateness took, reach
another module as clean bytes (DESIGN CHOICE, log entry 104). -/
def State.doGridSend (s : State) (p : Nat) (d : Due) (gr f : Nat) (step : BitVec 32) (v : Desc) (seq : Nat) : State :=
  let c := d.who.core
  let k := s.core c
  let b := step.toNat % 2
  let pairs := (exchangePairs v f).map fun (x, y) => (dByte v b x, dByte v b y)
  let target := dNbr v f
  let cells := pairs.flatMap fun (x, y) => moveCells k.pocket x y (dEsize v)
  let lost := s.lateRows p c (dEsize v) pairs
  let e : Exchange := ⟨c, f, target % 2048, gr, facing f, step, dH v f, cells, poisonedRows k pairs ++ lost, none, seq, !lost.isEmpty⟩
  if s.timedNeighbour p target then
    s.addDue p { d with tick := exchangeLand (s.part p).loose c v f d.tick, place := 6, act := .gridArrive e }
  else
    let i := (s.part p).nextLaunch
    let frames := exchangeFrames s.modNum e target
    let far := target / 2048 != s.modNum
    let s := s.modPart p fun k =>
      { k with nextLaunch := i + 1, untimed := k.untimed ++ List.replicate (if far then frames.length else 1) i }
    if far then
      let s := s.modCore c fun k => k.modGrid gr fun g => g.sends f ((frames.length : Int) - 1)
      frames.foldl (fun s fr => s.post p d (.remote (BitVec.ofNat 19 target) fr.doff.toNat) (fr.len.toNat + 1) fr
        (some ⟨target, none, 0, .grid gr f i, d.who.issue⟩)) s
    else (e.noted (s.writeCells p .arrival e.core e.cells e.pois)).stampArrive d.who { e with cells := [], pois := [], launch := some i }

/-- A face exchange that has arrived at a partition and not yet landed. -/
def State.arrivedExchange (s : State) (p core gr face : Nat) (step : BitVec 32) : Option Due :=
  (s.part p).pend.find? fun d => d.place == 9 && decide (d.tick ≤ (s.part p).tick) &&
    (match d.act with
      | .gridArrive e => e.core == core && e.gr == gr && e.face == face && e.step == step
      | _ => false)

/-- A face exchange lands in full: its stamps and receive step are set, and the hem waits it ends, end. -/
def execHemStampArrival (core gr face : Nat) (step : BitVec 32) (s : State) : Out :=
  let s := s.popEvent
  match s.partOf core with
  | none => .next (s.stampFace core gr face step)
  | some p =>
    match s.arrivedExchange p core gr face step with
    | some d =>
      let s := s.modPart p fun k => { k with pend := k.pend.erase d }
      match d.act with
      | .gridArrive e => .next ((s.doGridArrive p d e).modPart p fun k => k.clearHems core gr)
      | _ => .next s
    | none => .next ((s.stampFace core gr face step).modPart p fun k => k.clearHems core gr)

/-- The hem wait of a partition whose time is over: its read, and the status word of the stamp it waits for. -/
def State.hemOver (s : State) (p : Nat) : Option (Due × Word) :=
  match (s.part p).frozenAt with
  | none => none
  | some w => (s.part p).waits.findSome? fun x =>
    match x with
    | .hem _ _ tmo v d => if w + tmo * 1000 < s.wall then some (d, v) else none
    | _ => none

/-- A hem wait longer than tmo raises the stale-hem trap at the frozen tick (14 R284). -/
def execHemTimeout (p : Nat) (s : State) : Out :=
  let s := s.popEvent
  match s.hemOver p with
  | none => .next s
  | some (d, status) =>
    match d.act with
    | .gridLoad g dest cur t _ land seq =>
      let again : Due := { d with act := .gridLoad g dest cur t false land seq }
      let c : TrapCond := ⟨(s.part p).tick, .staleHem, d.who, status, .again d again⟩
      .next (s.trapOf p (c :: s.condsNow p) fun e => [e.fix])
    | _ => .next s

/-! ### GST (14 R279, R289) -/

/-- What an element of a GST raises: the class with its status. -/
def Grid.storeCheck (g : Grid) (gr : Nat) (t : BitVec 32) (e : GElem) : Option (Cls × Word) :=
  let cls : Cls := if t ≤ g.step then .staleHem else .hemOverrun
  let next := t.toNat = g.step.toNat + 1
  match e with
  | .interior => if next then none else some (cls, hemStatus gr (some g.step) 7 0)
  | .layer f j =>
    if g.ruleFilled f then none
    else if !next then some (cls, hemStatus gr (some g.step) f j)
    else if (j : Int) ≤ (dH g.desc f : Int) - ((t.toNat : Int) - (g.gotAt f).toNat) * dR g.desc then none
    else some (.hemOverrun, hemStatus gr (some (g.gotAt f)) f j)
  | _ => none

/-- Whether a GST writes an element. -/
def Grid.stores (g : Grid) : GElem → Bool
  | .interior | .openBand => true
  | .layer f _ => !g.ruleFilled f
  | _ => false

def tagProbe (g : Grid) (gr : Nat) (cur : List Int) (t : BitVec 32) : Probe :=
  match (g.rowElems cur).findSome? fun e => g.storeCheck gr t e.2 with
  | some (c, w) => .trap c w
  | none => .ok

/-- The bytes a GST writes. -/
def Grid.storeCells (g : Grid) (b : Nat) (cur : List Int) (v : Row) : List (Nat × Byte) :=
  let es := dEsize g.desc
  (g.rowElems cur).zipIdx.flatMap fun ((c, e), i) =>
    if g.stores e then
      (leBytes es (elemOf (8 * es) v i)).zipIdx.map fun (w, j) => (dByte g.desc b c + j, w)
    else []

def execGst (f : Frame) (gr : Num3) (st t q : Num4) (adv : Adv) (s : State) : Out :=
  .next (nativeWord .a (.gst f gr st t q adv) f
    (fun x s =>
      let k := s.core x.c
      let g := k.getGrid gr.val
      let cur := gridCursor (k.getSt st.val)
      (poisonProbe x (k.getC t.val)).andThen
        ((s.storePopProbe x q.val).andThen
          ((undefinedProbe g gr.val).andThen
            ((beyondProbe g cur).andThen
              ((tagProbe g gr.val cur (tagOf (k.getC t.val))).andThen (s.lsqProbe x true))))))
    (fun x s =>
      let k := s.core x.c
      let g := k.getGrid gr.val
      let cur := gridCursor (k.getSt st.val)
      let lat := ownPocket (s.part x.p).loose
      let tm := accessTiming (s.part x.p).loose k x.t (lat / 2) (lat / 2) .rlx .co false true
      let s := s.setCore x.c (tm.core.enqueue x.t (tm.base + lat / 2) true)
      let (s, n) := s.nextSeq x.p
      let s := s.advanceGrid x st.val (64 / dEsize g.desc) adv
      let (s, v) := s.pop x.c q.val
      s.later x (tm.base + lat / 2) (.gridStore ⟨.pocket x.c 0, 0xF, n, false, tm.base + lat / 2, [], false⟩
        (g.storeCells ((tagOf (k.getC t.val)).toNat % 2) cur v.v))) s)

/-- A grid store's landing (07 R167, R169). -/
def State.doGridStore (s : State) (p : Nat) (d : Due) (a : Access) (cells : List (Nat × Byte)) : State :=
  s.lateGate p d a.seq (s.isLate p a.seq) fun s => s.writeCells p d.landing d.who.core cells []

/-! ### GADV and GSTAT (14 R290, R291) -/

def execGadv (f : Frame) (gr : Num3) (s : State) : Out :=
  .next (nativeWord .a (.gadv f gr) f
    (fun x s =>
      let g := (s.core x.c).getGrid gr.val
      (undefinedProbe g gr.val).andThen
        (.when (g.step == BitVec.allOnes 32) (.trap .gridDefinition (defStatus gr.val 9))))
    (fun x s => s.later x (x.t + 1) (.gridAdvance gr.val (((s.core x.c).getGrid gr.val).step + 1))) s)

/-- Whether a face sends at step s' (14 R290). -/
def Grid.sendsAt (g : Grid) (step : BitVec 32) (f : Nat) : Bool :=
  g.exchanging f && decide ((g.sentAt f).toNat + dD g.desc ≤ step.toNat)

/-- Layers of a face that are recomputed at step s', of the h that there are. -/
def Grid.recomputed (g : Grid) (step : BitVec 32) (f : Nat) : Nat :=
  min (dH g.desc f) ((dH g.desc f : Int) - ((step.toNat : Int) - (g.gotAt f).toNat) * dR g.desc).toNat

/-- The stamps of a grid as step s' completes, which GADV counted from the step at its issue (14 R290). -/
def Grid.advanced (g : Grid) (step : BitVec 32) : Grid :=
  let b := step.toNat % 2
  let other := (b + 1) % 2
  let inOther (i : Nat) : Bool := i / 48 == other
  let g1 := { g with
    step := step
    inner := (tput g.inner b step).filter fun e => !(e.1 == other && decide (e.2 < step))
    hem := g.hem.filter fun e => !(inOther e.1 && decide (e.2 < step)) }
  faces.foldl (fun h f =>
    if g.sendsAt step f then { h with sigS := tput h.sigS f step }
    else if g.exchanging f then h.setStamps b f (g.recomputed step f) step
    else h) g1

def State.doGridAdvance (s : State) (p : Nat) (d : Due) (gr : Nat) (step : BitVec 32) : State :=
  let g := (s.core d.who.core).getGrid gr
  let s := s.modCore d.who.core fun k => k.modGrid gr fun g => g.advanced step
  (s.startFills p d gr step).sendFaces p d gr step (faces.filter (g.sendsAt step))

/-- The status word of a grid. -/
def Grid.status (g : Grid) : Word :=
  let held := if g.held.isEmpty then 0 else 2 ^ 33
  if !g.defined then BitVec.ofNat 64 held
  else
    let b := g.step.toNat % 2
    let stale (f : Nat) : Bool := (g.exchanging f || g.ruleFilled f) &&
      ((List.range (dH g.desc f)).any fun j => belowTag g.step (g.stamp b f (j + 1)))
    let bits (n : Nat) (t : Nat → Bool) : Nat := faces.foldl (fun acc f => acc + if t f then 2 ^ (n + f) else 0) 0
    BitVec.ofNat 64 (g.step.toNat + 2 ^ 32 + held + (dDims g.desc - 1) * 2 ^ 34 +
      bits 36 (fun f => tget 0 g.sending f != 0) + bits 42 stale)

def execGstat (f : Frame) (d : Num4) (gr : Num3) (s : State) : Out :=
  .next (nativeWord .a (.gstat f d gr) f (fun _ _ => .ok)
    (fun x s => s.later x (x.t + 2) (.c d.val ⟨((s.core x.c).getGrid gr.val).status, false⟩)) s)

end Sys2Proof.Machine
end

