-- ==== Sys2Proof/Machine/Portable.lean ====
section
/-! DEFINITION. Portable code (21): the thread of a partition, the scalar base, the profiles KV1, KM1 and KG1, and the
switches that every core of the partition makes together. -/

namespace Sys2Proof.Machine

/-! ### The thread and its text (21 R379, R381, R393) -/

/-- Bytes from the start of the text to a function (21 R393). -/
def functionStart (l : List Function) (fn : Nat) : Nat := match listNth l fn with | some f => f.start | none => 0

def State.loadedOf (s : State) (p : Nat) : Option Loaded := s.loaded (s.part p).handle

def Loaded.text (l : Loaded) (fn : Nat) : List Byte := match listNth l.obj.functions fn with | some f => f.text | none => []

/-- The VA of a byte of a function's text. -/
def Loaded.va (l : Loaded) (fn off : Nat) : Nat := l.textVa + functionStart l.obj.functions fn + off

def Loaded.entryVa (l : Loaded) (fn : Nat) : Word := BitVec.ofNat 64 (l.va fn 0)

def Thread.none : Thread := ⟨0, 0, false, [], Option.none, 0⟩

def State.thread (s : State) (p : Nat) : Thread := (s.part p).thread.getD Thread.none

/-- The text of the thread's function. -/
def State.threadText (s : State) (p : Nat) : List Byte :=
  match s.loadedOf p with
  | some l => l.text (s.thread p).fn
  | none => []

/-- The 32-bit word at a byte offset of a text; none past its end. -/
def textWord (t : List Byte) (off : Nat) : Option (BitVec 32) :=
  if off < t.length then some (BitVec.ofNat 32 (leNat ((t.drop off).take 4))) else none

/-- The instruction at the thread; none past the end of its function (21 R385). -/
def State.portableAt (s : State) (p : Nat) : Option (BitVec 32) := textWord (s.threadText p) (s.thread p).off

/-- The instruction at a byte offset of a text, where there is one that Chason accepts. -/
def textInstr (t : List Byte) (off : Nat) : Option Instr :=
  match textWord t off with
  | some w => match decodePortable w with | .ok i => some i | _ => none
  | none => none

/-- TREC3 of a portable trap: the instruction and its byte offset (21 R385). -/
def portableStatus (w off : Nat) : Word := BitVec.ofNat 64 (w + off * 2 ^ 32)

/-- Chason's own schedule and indexes for the instruction at the thread (21 R395, log entry 1). -/
def State.chason {α : Type} (s : State) (p : Nat) (f : Object → Nat → Bool → Nat → Bool → Nat → α) (d : α) : α :=
  let k := s.part p
  let th := s.thread p
  match s.objOf p with
  | some o => f o k.size k.loose th.fn th.launch th.off
  | none => d

/-! ### Continuations of portable functions (21 R397, 22 R400)

Each function owns an entry slot and internal continuations, and the two copies of the entry function own theirs. A continuation
begins where control enters: at the target of a branch or jump, and after a branch, jump or call. Where else one begins, and which
index each has, is Chason's (log entry 1). -/

/-- A continuation of a copy of a function, by the byte offset at which it begins. -/
structure FnCont where
  fn     : Nat
  launch : Bool
  off    : Nat
  deriving DecidableEq, Repr

/-- Offsets of a text at which control enters because of the instruction at `off`. -/
def entersAt (off : Nat) : Instr → List Int
  | .rvBranch _ _ _ h => [off + 4, off + 2 * h.toInt]
  | .jal _ h => [off + 4, off + 2 * h.toInt]
  | .jalr .. => [off + 4]
  | _ => []

def textStarts (t : List Byte) : List Int :=
  (List.range (t.length / 4)).flatMap fun n => match textInstr t (4 * n) with | some i => entersAt (4 * n) i | none => []

/-- The offsets at which a copy of a function's continuations begin, the entry first. -/
def fnStarts (o : Object) (size : Nat) (loose : Bool) (fn : Nat) (launch : Bool) : List Nat :=
  let t := match listNth o.functions fn with | some f => f.text | none => []
  let starts := textStarts t
  0 :: ((List.range (t.length / 4)).map fun n => 4 * (n + 1)).filter fun off =>
    starts.contains (off : Int) || Config.portableStart o size loose fn launch off

/-- The function whose launch copy the object's entry continuation is (22 R400). -/
def entryFn (o : Object) (size : Nat) : Option Nat := objStub o size o.entry

/-- The slot that the object's continuation table gives a copy of a function. -/
def entrySlot (o : Object) (size fn : Nat) (launch : Bool) : Option Nat :=
  if entryFn o size == some fn && !launch then none
  else (List.range o.conts.length).find? fun c => objStub o size c == some fn

/-- The continuations that have an index beyond the object's own table. -/
def ownConts (o : Object) (size : Nat) (loose : Bool) : List FnCont :=
  (List.range o.functions.length).flatMap fun fn => [true, false].flatMap fun launch =>
    ((fnStarts o size loose fn launch).map fun off => ⟨fn, launch, off⟩).filter fun c =>
      c.off != 0 || (entrySlot o size fn launch).isNone

/-- Give each continuation one of the indexes that are left. -/
def assignConts (pick : FnCont → Nat) : List FnCont → List Nat → List (FnCont × Nat)
  | c :: l, a :: free =>
    let i := pick c % (a :: free).length
    (c, (a :: free).getD i a) :: assignConts pick l ((a :: free).eraseIdx i)
  | _, _ => []

def contIndexes (o : Object) (size : Nat) (loose : Bool) : List (FnCont × Nat) :=
  assignConts (fun c => Config.portableBlock o size loose c.fn c.launch c.off) (ownConts o size loose)
    ((List.range (4096 - o.conts.length)).map (o.conts.length + ·))

/-- The continuation that holds the instruction at an offset: the last that begins at or before it. -/
def portableCont (o : Object) (size : Nat) (loose : Bool) (fn : Nat) (launch : Bool) (off : Nat) : Nat :=
  let start := ((fnStarts o size loose fn launch).filter fun a => decide (a ≤ off)).getLastD 0
  let own : Nat := (((contIndexes o size loose).find? fun e => e.1 == ⟨fn, launch, start⟩).map (·.2)).getD 4095
  match start, entrySlot o size fn launch with
  | 0, some c => c
  | _, _ => own

/-- The context of a portable instruction on core `c`, whose effects are those of unit `u`. -/
def State.portCtx (s : State) (p c : Nat) (u : HwUnit) : Ctx :=
  let t := (s.part p).tick
  let th := s.thread p
  let w := portableStatus ((s.portableAt p).getD 0).toNat th.off
  ⟨p, c, t, ⟨c, u, .cont (s.chason p portableCont 0), s.chason p Config.portableIndex 0, w, t⟩, false⟩

def State.portVote (s : State) (p c : Nat) (n : Next) : State :=
  s.modPart p fun k => { k with thread := k.thread.map fun t => { t with votes := t.votes ++ [(c, n)] } }

/-- What a portable instruction raises at its tick: its word has no effect on that core. -/
def raisePortable (x : Ctx) (s : State) (pr : Probe) : State :=
  s.modPart x.p fun k =>
    { k with conds := k.conds ++ pr.conds.map fun (c, v, again) => ⟨x.t, c, x.who, v, if again then .retry else .void x.c .s⟩
             waits := k.waits ++ pr.waits }

/-- One more portable instruction is complete on core `c` (21 R382). -/
def State.counted (s : State) (c : Nat) : State := s.modCore c fun k => { k with instret := k.instret + 1 }

/-- The pv registers that an instruction reads. -/
def kvReads : Instr → List Nat
  | .kvMul _ _ _ a b | .kvAdd _ _ _ a b | .kvSub _ _ _ a b | .kvMin _ _ a b | .kvMax _ _ a b | .kvCmp _ _ _ a b => [a.val, b.val]
  | .kvFma _ _ d a b | .kvSel _ d a b => [d.val, a.val, b.val]
  | .kvSt _ _ b _ => [b.val]
  | .kvCvt _ _ _ _ a | .kvRed _ _ _ a => [a.val]
  | .kgSt _ _ d _ _ => [d.val]
  | _ => []

/-- The pv register that an instruction writes. -/
def kvWrites : Instr → List Nat
  | .kvMul _ _ d _ _ | .kvAdd _ _ d _ _ | .kvSub _ _ d _ _ | .kvFma _ _ d _ _ => [d.val]
  | .kvMin _ d _ _ | .kvMax _ d _ _ | .kvSel _ d _ _ | .kvCmp _ _ d _ _ => [d.val]
  | .kvLd _ _ d _ | .kvLds _ _ d _ _ | .kvBcst _ d _ | .kvRng _ _ d _ => [d.val]
  | .kvCvt _ _ _ d _ | .kvRed _ _ d _ => [d.val]
  | .kgLd _ _ d _ _ => [d.val]
  | _ => []

/-- The pv registers that an instruction names, but for the float KV.MUL and KV.ADD, which keep account of their own. -/
def kvNames (i : Instr) : List Nat :=
  match i with
  | .kvMul pt .. | .kvAdd pt .. => if Pt.isFloat pt then [] else kvWrites i ++ kvReads i
  | _ => kvWrites i ++ kvReads i

/-- A register that is used, or written anew, is no term of a sum any more (21 R396). -/
def Core.kvUse (k : Core) (l : List Nat) : Core :=
  if k.kvSums.isEmpty then k else { k with kvSums := k.kvSums.filter fun e => !l.contains e.reg }

/-- The pv registers that the thread's instruction names. -/
def State.threadNames (s : State) (p : Nat) : List Nat :=
  match s.portableAt p with
  | some w => match decodePortable w with | .ok i => kvNames i | _ => []
  | none => []

/-- What follows an instruction's effect on one core: the account of sums, the count of one that goes on, since one that
switches is complete when it has switched, and where the core goes next. -/
def State.portDone (s : State) (p c : Nat) (n : Next) : State :=
  let s := s.modCore c fun k => k.kvUse (s.threadNames p)
  (match n with | .on _ => s.counted c | _ => s).portVote p c n

/-- A portable instruction on one core: probed, then executed; it answers where the core goes next. -/
def portableWord (u : HwUnit) (probe : Ctx → State → Probe) (effect : Ctx → State → State × Next) (s : State) : State :=
  match s.agenda with
  | .checkPortable p c :: _ =>
    let s := s.popItem
    let x := s.portCtx p c u
    raisePortable x s (probe x s)
  | .portable p c :: _ =>
    let s := s.popItem
    let x := s.portCtx p c u
    if (s.part p).voids.contains (c, .s) then s.portVote p c (.on 1)
    else
      let (s, n) := effect x s
      s.portDone p c n
  | _ => s.popItem

def noPortCheck : Ctx → State → Probe := fun _ _ => .ok

/-- An instruction that writes an x register. -/
def portableX (lat : Nat) (d : XReg) (g : Ctx → State → PWord) : State → State :=
  portableWord .s noPortCheck fun x s => (s.later x (x.t + lat) (.x d.val (g x s)), .on lat)

def State.xr (s : State) (x : Ctx) (r : XReg) : PWord := (s.core x.c).getX r.val

/-! ### Integer arithmetic (21 R381) -/

/-- The low 32 bits, sign-extended. -/
def low32 (v : Word) : Word := (v.setWidth 32).signExtend 64

def rvOp (op : RvOp) (a b : Word) : Word :=
  match op with
  | .add => a + b
  | .sub => a - b
  | .sll => shiftLeft a b
  | .slt => ofBool (a.slt b)
  | .sltu => ofBool (a.ult b)
  | .xor => a ^^^ b
  | .srl => shiftRight a b
  | .sra => shiftArith a b
  | .or => a ||| b
  | .and => a &&& b

def rvWordOp (op : RvWordOp) (a b : Word) : Word :=
  let n := b.toNat % 32
  match op with
  | .addw => low32 (a + b)
  | .subw => low32 (a - b)
  | .sllw => low32 (a <<< n)
  | .srlw => low32 ((a.setWidth 32 >>> n).setWidth 64)
  | .sraw => ((a.setWidth 32).sshiftRight n).signExtend 64

def rvMulOp (op : RvMulOp) (a b : Word) : Word :=
  let sa := low32 a
  let sb := low32 b
  let ua := (a.setWidth 32).setWidth 64
  let ub := (b.setWidth 32).setWidth 64
  match op with
  | .mul => a * b
  | .mulh => mulHigh a b
  | .mulhsu => BitVec.ofInt 64 ((a.toInt * (b.toNat : Int)).fdiv (2 ^ 64))
  | .mulhu => BitVec.ofNat 64 (a.toNat * b.toNat / 2 ^ 64)
  | .div => divSigned a b
  | .divu => divUnsigned a b
  | .rem => remSigned a b
  | .remu => remUnsigned a b
  | .mulw => low32 (a * b)
  | .divw => low32 (divSigned sa sb)
  | .divuw => low32 (divUnsigned ua ub)
  | .remw => low32 (remSigned sa sb)
  | .remuw => low32 (remUnsigned ua ub)

/-- The second operand: a register, or the immediate sign-extended. -/
def State.rvSrc (s : State) (x : Ctx) : RvSrc → PWord
  | .reg b => s.xr x b
  | .imm v => ⟨v.signExtend 64, false⟩

def execRvIntegerOp (op : RvOp) (d a : XReg) (b : RvSrc) (s : State) : Out :=
  .next (portableX 1 d (fun x s => ⟨rvOp op (s.xr x a).v (s.rvSrc x b).v, (s.xr x a).p || (s.rvSrc x b).p⟩) s)

def execRvWordOp (op : RvWordOp) (d a : XReg) (b : RvSrc) (s : State) : Out :=
  .next (portableX 1 d (fun x s => ⟨rvWordOp op (s.xr x a).v (s.rvSrc x b).v, (s.xr x a).p || (s.rvSrc x b).p⟩) s)

def execRvMuldiv (op : RvMulOp) (d a b : XReg) (s : State) : Out :=
  .next (portableX 18 d (fun x s => ⟨rvMulOp op (s.xr x a).v (s.xr x b).v, (s.xr x a).p || (s.xr x b).p⟩) s)

/-- imm ‖ 12 zeros, sign-extended. -/
def upperImm (imm : BitVec 20) : Word := ((imm ++ (0 : BitVec 12)).setWidth 32).signExtend 64

def execLui (d : XReg) (imm : BitVec 20) (s : State) : Out := .next (portableX 1 d (fun _ _ => ⟨upperImm imm, false⟩) s)

/-- The VA of the thread's instruction, plus `n` bytes. -/
def State.threadVa (s : State) (p n : Nat) : Word :=
  match s.loadedOf p with
  | some l => BitVec.ofNat 64 (l.va (s.thread p).fn ((s.thread p).off + n))
  | none => 0

def execAuipc (d : XReg) (imm : BitVec 20) (s : State) : Out :=
  .next (portableX 1 d (fun x s => ⟨s.threadVa x.p 0 + upperImm imm, false⟩) s)

/-! ### Branches and jumps (21 R380, R384) -/

def rvTaken (c : RvCond) (a b : Word) : Bool :=
  match c with
  | .beq => a == b
  | .bne => a != b
  | .blt => a.slt b
  | .bge => !a.slt b
  | .bltu => a.ult b
  | .bgeu => !a.ult b

/-- A byte offset inside the thread's function, at an instruction; log entry 24 says of a branch that leaves it. -/
def State.inFunction (s : State) (p : Nat) (off : Int) : Bool :=
  decide (0 ≤ off) && decide (off < (s.threadText p).length) && off % 4 == 0

def State.hop (s : State) (p : Nat) (halfwords : Int) : Int := (s.thread p).off + 2 * halfwords

def illegalPortable (x : Ctx) : Probe := .trap .illegalEncoding x.who.word

def execRvBranch (cond : RvCond) (a b : XReg) (off : BitVec 12) (s : State) : Out :=
  .next (portableWord .s (fun x s => .when (!s.inFunction x.p (s.hop x.p off.toInt)) (illegalPortable x))
    (fun x s => (s, .branch (rvTaken cond (s.xr x a).v (s.xr x b).v) (s.hop x.p off.toInt).toNat)) s)

/-- The function whose first instruction lies at an offset of the whole text. -/
def functionAt : List Function → Nat → Int → Option Nat
  | [], _, _ => none
  | f :: l, i, at_ => if at_ = f.start && !f.text.isEmpty then some i else functionAt l (i + 1) at_

inductive JalKind where
  | call (fn : Nat)
  | hop (off : Nat)
  | none
  deriving DecidableEq, Repr

/-- What a JAL is (21 R384). -/
def State.jalKind (s : State) (p : Nat) (d : XReg) (off : Int) : JalKind :=
  let inside : JalKind := if s.inFunction p off then .hop off.toNat else .none
  match s.objOf p with
  | some o =>
    match functionAt o.functions 0 (functionStart o.functions (s.thread p).fn + off) with
    | some g => if d.val = 1 then .call g else if g = (s.thread p).fn then inside else .none
    | none => inside
  | none => .none

/-- The link value of a jump lands one tick later. -/
def State.linkTo (s : State) (x : Ctx) (d : XReg) : State := s.later x (x.t + 1) (.x d.val ⟨s.threadVa x.p 4, false⟩)

def execJal (d : XReg) (off : BitVec 20) (s : State) : Out :=
  .next (portableWord .s
    (fun x s => match s.jalKind x.p d (s.hop x.p off.toInt) with | .none => illegalPortable x | _ => .ok)
    (fun x s =>
      (s.linkTo x d, match s.jalKind x.p d (s.hop x.p off.toInt) with
        | .call g => .call g
        | .hop o => .jump o
        | .none => .on 1)) s)

def execJalr (d a : XReg) (off : BitVec 12) (s : State) : Out :=
  .next (portableWord .s noPortCheck (fun x s =>
    if d.val = 0 && a.val = 1 && off = 0 then (s, .back)
    else
      let va := ((s.xr x a).v + off.signExtend 64) &&& ~~~(1 : Word)
      (s.linkTo x d, .indirect va (d.val == 1))) s)

/-- The address-taken function whose entry lies at a VA. -/
def State.takenAt (s : State) (p : Nat) (va : Word) : Option Nat :=
  match s.loadedOf p with
  | some l => (List.range l.obj.functions.length).find? fun i =>
      (match listNth l.obj.functions i with | some f => f.taken | none => false) && l.entryVa i == va
  | none => none

def State.setThread (s : State) (p : Nat) (t : Thread) : State := s.modPart p fun k => { k with thread := some t }

/-- The thread goes on at an offset, with its next instruction at `ready`. -/
def State.goOn (s : State) (p off ready : Nat) : State :=
  s.setThread p { s.thread p with off := off, votes := [], issue := none, ready := ready }

/-- The switch of every core is complete, at a decision boundary (21 R379, R382). -/
def State.switched (s : State) (p : Nat) : State :=
  s.modCores (s.part p).cores fun k => { k with instret := k.instret + 1, kvSums := [] }

/-- Enter a function at its first instruction, in its called copy (21 R384, 22 R400). -/
def State.enterFunction (s : State) (p fn : Nat) (push : Bool) : State :=
  let th := s.thread p
  let k := s.part p
  if s.untranslated p fn then
    s.addCond p ⟨k.tick, .translationPending, (s.portCtx p k.base .s).who, BitVec.ofNat 64 fn, .retry⟩
  else if push && decide (16 ≤ k.rets.length) then
    ((s.switched p).goOn p (th.off + 4) k.tick).addCond p ⟨k.tick, .returnStack, (s.portCtx p k.base .s).who, 0, .continue_⟩
  else
    (((s.switched p).useFn p fn).modPart p fun k => { k with rets := if push then .portable th.fn (th.off + 4) th.launch :: k.rets else k.rets }).setThread p
      ⟨fn, 0, false, [], none, k.tick⟩

/-- The switch of a portable thread at its switch tick: the outcome of what every core asked for. -/
def State.threadSwitch (s : State) (p : Nat) : State :=
  let k := s.part p
  let th := s.thread p
  let t := k.tick
  let who := (s.portCtx p k.base .s).who
  match th.votes with
  | [] => s
  | (_, .branch _ target) :: _ =>
    let n := (th.votes.filter fun v => match v.2 with | .branch b _ => b | _ => false).length
    if n = 0 then (s.switched p).goOn p (th.off + 4) t
    else if n = th.votes.length then (s.switched p).goOn p target t
    else (s.goOn p th.off t).addCond p ⟨t, .decisionMiss, who, BitVec.ofNat 64 n, .continue_⟩
  | (_, .jump off) :: _ => (s.switched p).goOn p off t
  | (_, .call fn) :: _ => s.enterFunction p fn true
  | (_, .indirect va push) :: _ =>
    match s.takenAt p va with
    | some fn => s.enterFunction p fn push
    | none => ((s.switched p).goOn p (th.off + 4) t).addCond p ⟨t, .decisionMiss, who, va, .continue_⟩
  | (_, .back) :: _ =>
    match k.rets with
    | [] => ((s.switched p).goOn p (th.off + 4) t).addCond p ⟨t, .returnStack, who, 1, .continue_⟩
    | r :: l => ((s.switched p).modPart p fun k => { k with rets := l }).goBack p r
  | (_, .on _) :: _ => s.goOn p (th.off + 4) t

/-- The last micro-step of a portable instruction: the thread goes on, stops, or sets a switch Δ ticks away; at the
switch tick it switches. -/
def State.portableEnd (s : State) (p : Nat) : State :=
  let k := s.part p
  let th := s.thread p
  match th.issue, th.votes with
  | some i, _ => if k.tick = i + delta k.n then s.threadSwitch p else s
  | none, [] => s
  | none, (_, n) :: _ =>
    let lat := th.votes.foldl (fun m v => match v.2 with | .on l => max m l | _ => m) 1
    match n with
    | .on _ => s.goOn p (th.off + 4) (k.tick + lat + s.chason p Config.portableTicks 0)
    | .back =>
      if th.launch then (s.switched p).modPart p fun k => { k with stop := some k.tick, decision := none, thread := none }
      else s.setThread p { th with issue := some k.tick }
    | _ => s.setThread p { th with issue := some k.tick }

/-! ### Loads, stores and order (21 R383) -/

/-- The checks of an access of `n` bytes at a VA: alignment, then the range of GLOBAL. -/
def portableVa (va : Word) (n : Nat) : Probe :=
  if va.toNat % n ≠ 0 then .trap .layoutBound va
  else .when (decide (2 ^ 52 < va.toNat + n)) (.trap .layoutBound (boundPlace 1 0xF 2 va.toNat))

def rvLoadShape : RvLoadOp → Nat × Bool
  | .lb => (1, true) | .lh => (2, true) | .lw => (4, true) | .ld => (8, true)
  | .lbu => (1, false) | .lhu => (2, false) | .lwu => (4, false)

def rvStoreSize : RvStoreOp → Nat
  | .sb => 1 | .sh => 2 | .sw => 4 | .sd => 8

/-- The timing of a portable access: the other-stack latency, order rlx and scope co. -/
def State.portTiming (s : State) (x : Ctx) (ld : Bool) : Timing × Nat :=
  let loose := (s.part x.p).loose
  let l := farLatency loose
  (accessTiming loose (s.core x.c) x.t (l / 2) (l / 2) .rlx .co ld (!ld), l)

/-- Set a portable read to work; it lands at the end of its latency. -/
def State.portRead (s : State) (x : Ctx) (va : Nat) (a : Access → Act) : State × Next :=
  let (tm, l) := s.portTiming x true
  let s := s.setCore x.c tm.core
  let (s, n) := s.nextSeq x.p
  (s.sampleAt x (tm.base + l / 2) (a ⟨.global va, 0xF, n, false, tm.base + l, [], false⟩), .on (tm.base + l - x.t))

/-- Set a portable write to work. -/
def State.portWrite (s : State) (x : Ctx) (va : Nat) (a : Access → Act) : State × Next :=
  let (tm, l) := s.portTiming x false
  let s := s.setCore x.c tm.core
  let (s, n) := s.nextSeq x.p
  (s.later x (tm.base + l / 2) (a ⟨.global va, 0xF, n, false, tm.base + l / 2, [], false⟩), .on (tm.base + l / 2 + 1 - x.t))

def execRvLoad (op : RvLoadOp) (d a : XReg) (off : BitVec 12) (s : State) : Out :=
  .next (portableWord .a (fun x s => portableVa ((s.xr x a).v + off.signExtend 64) (rvLoadShape op).1)
    (fun x s =>
      let va := ((s.xr x a).v + off.signExtend 64).toNat
      s.portRead x va fun acc => .loadX acc d.val (rvLoadShape op).1 (rvLoadShape op).2) s)

/-- A word whose stored register must not be poisoned (05 R116). -/
def execRvStore (op : RvStoreOp) (a b : XReg) (off : BitVec 12) (s : State) : Out :=
  .next (portableWord .a
    (fun x s => (poisonProbe x (s.xr x b)).andThen (portableVa ((s.xr x a).v + off.signExtend 64) (rvStoreSize op)))
    (fun x s =>
      let va := ((s.xr x a).v + off.signExtend 64).toNat
      s.portWrite x va fun acc =>
        .storeEls acc [some (.global va)] ((s.xr x b).v.setWidth 512) (8 * rvStoreSize op)) s)

/-- A late portable read holds the ticks: it is repeated in loose mode (21 R395, log entry 25). -/
def State.portLate (s : State) (p : Nat) (d : Due) (a : Access) : State :=
  if s.isLate p a.seq then s.lateFreeze p d a else s

/-- The sampling of a scalar load. -/
def State.doLoadX (s : State) (p : Nat) (d : Due) (a : Access) (r bytes : Nat) (signed : Bool) : State :=
  match s.readLoc p d.who.core .read a.loc bytes with
  | (s, .error c) => s.accessFault p d c a
  | (s, .ok (l, _)) =>
    (s.portLate p d a).addDue p
      { d with tick := a.land, place := 2, act := .x r ⟨extendElem signed (8 * bytes) (leNat l), false⟩ }

/-- predecessor and successor R and W as the set of a FENCE: ll, ls, sl, ss, engine. -/
def fenceSet (p s : BitVec 4) : BitVec 5 :=
  let b (i j : Nat) (n : Nat) : Nat := if p.getLsbD i && s.getLsbD j then n else 0
  BitVec.ofNat 5 (b 1 1 16 + b 1 0 8 + b 0 1 4 + b 0 0 2)

def portableFence (pred succ : BitVec 4) (s : State) : State :=
  portableWord .a noPortCheck (fun x s =>
    let f := fenceSet pred succ
    (if f = 0 then s else s.fence x f .pd, .on 1)) s

def execRvFence (_fm pred succ : BitVec 4) (_d _a : XReg) (s : State) : Out := .next (portableFence pred succ s)
def execFenceTso (_d _a : XReg) (s : State) : Out := .next (portableFence 3 3 s)

/-- The software trap, with freeze tick t + 1 (06 R151). -/
def portableTrap (n : Word) (s : State) : State :=
  portableWord .s noPortCheck (fun x s => (s.addCond x.p ⟨x.t + 1, .softwareTrap, x.who, n, .continue_⟩, .on 1)) s

def execEcall (s : State) : Out := .next (portableTrap 0xEC s)
def execEbreak (s : State) : Out := .next (portableTrap 0xEB s)

/-- The counters of 21 R382. -/
def State.counter (s : State) (x : Ctx) : RvCounter → Word
  | .cycle => BitVec.ofNat 64 x.t
  | .time => s.wallView x.c
  | .instret => BitVec.ofNat 64 (s.core x.c).instret

def portableCounter (d : XReg) (c : RvCounter) (s : State) : State :=
  portableX 1 d (fun x s => ⟨s.counter x c, false⟩) s

def execCsrrs (d : XReg) (c : RvCounter) (s : State) : Out := .next (portableCounter d c s)
def execCsrrsi (d : XReg) (c : RvCounter) (s : State) : Out := .next (portableCounter d c s)

/-! ### KV1 (21 R387) -/

def Pt.fmt : Pt → Fmt
  | .i8 => .int8 | .i16 => .int16 | .i32 => .int32 | .i64 => .int64
  | .f64 => .fp64 | .f32 => .fp32 | .f16 => .fp16 | .bf16 => .bf16

def rmOf : Fin 4 → Rm
  | 0 => .rne | 1 => .rtz | 2 => .rdn | 3 => .rup

def State.vr (s : State) (x : Ctx) (r : VReg) : PRow := (s.core x.c).getV r.val

/-- Active elements of a type (21 R387). -/
def State.activeOf (s : State) (x : Ctx) (pt : Pt) : Nat := min (s.core x.c).vl (Pt.fmt pt).lanes

/-- The bits of the low `n` elements. -/
def lowMask (f : Fmt) (n : Nat) : Row := BitVec.ofNat 512 (2 ^ (f.bits * n) - 1)

/-- Land the active elements of a result with their flags. -/
def State.landActive (s : State) (x : Ctx) (lat : Nat) (d : VReg) (f : Fmt) (n : Nat) (p : Bool) (r : List (Nat × Flags)) :
    State × Next :=
  let s := s.laterFlags x (x.t + lat) (orFlags ((r.take n).map (·.2))) p
  (s.later x (x.t + lat) (.v d.val (BitVec.ofNat 512 (rowOfElems f.bits (r.map (·.1)))) (lowMask f n) p), .on lat)

/-- An operation of two pv registers. -/
def kvTwo (pt : Pt) (lat : Nat) (d a b : VReg) (g : Nat → Nat → Nat × Flags) : State → State :=
  portableWord .v noPortCheck fun x s =>
    let f := Pt.fmt pt
    let u := s.vr x a
    let v := s.vr x b
    s.landActive x lat d f (s.activeOf x pt) (u.p || v.p) (List.zipWith g (elemsOf f.bits u.v) (elemsOf f.bits v.v))

def execKvSetvl (pt : Pt) (d a : XReg) (s : State) : Out :=
  .next (portableWord .s noPortCheck (fun x s =>
    let u := s.xr x a
    let n := min u.v.toNat (Pt.fmt pt).lanes
    ((s.modCore x.c fun k => { k with vl := n, kvSums := [] }).later x (x.t + 1) (.x d.val ⟨BitVec.ofNat 64 n, u.p⟩), .on 1)) s)

/-- The VA of element i of an access with a stride. -/
def elemVa (base stride : Word) (i : Nat) : Word := base + BitVec.ofNat 64 i * stride

/-- The first element whose VA fails its checks. -/
def elemsProbe (base stride : Word) (bytes : Nat) : List Nat → Probe
  | [] => .ok
  | i :: l => (portableVa (elemVa base stride i) bytes).andThen (elemsProbe base stride bytes l)

def elemLocs (base stride : Word) (n : Nat) : List (Option Loc) :=
  (List.range n).map fun i => some (.global (elemVa base stride i).toNat)

def kvLoad (pt : Pt) (d : VReg) (a : XReg) (stride : Ctx → State → Word) : State → State :=
  portableWord .a
    (fun x s => elemsProbe (s.xr x a).v (stride x s) ((Pt.fmt pt).bits / 8) (List.range (s.activeOf x pt)))
    (fun x s =>
      let n := s.activeOf x pt
      s.portRead x (s.xr x a).v.toNat fun acc =>
        .loadV acc d.val (elemLocs (s.xr x a).v (stride x s) n) (Pt.fmt pt).bits n)

def execKvLd (pt : Pt) (_hint : BitVec 3) (d : VReg) (a : XReg) (s : State) : Out :=
  .next (kvLoad pt d a (fun _ _ => BitVec.ofNat 64 ((Pt.fmt pt).bits / 8)) s)
def execKvLds (pt : Pt) (_hint : BitVec 3) (d : VReg) (a b : XReg) (s : State) : Out :=
  .next (kvLoad pt d a (fun x s => (s.xr x b).v) s)

def execKvSt (pt : Pt) (_hint : BitVec 3) (b : VReg) (a : XReg) (s : State) : Out :=
  .next (portableWord .a
    (fun x s =>
      (Probe.when (s.vr x b).p (.trap .poisonStore x.who.word)).andThen
        (elemsProbe (s.xr x a).v (BitVec.ofNat 64 ((Pt.fmt pt).bits / 8)) ((Pt.fmt pt).bits / 8)
          (List.range (s.activeOf x pt))))
    (fun x s =>
      let n := s.activeOf x pt
      s.portWrite x (s.xr x a).v.toNat fun acc =>
        .storeEls acc (elemLocs (s.xr x a).v (BitVec.ofNat 64 ((Pt.fmt pt).bits / 8)) n) (s.vr x b).v (Pt.fmt pt).bits) s)

/-- The sampling of a vector load. -/
def State.doLoadV (s : State) (p : Nat) (d : Due) (a : Access) (r : Nat) (els : List (Option Loc)) (bits n : Nat) : State :=
  match gatherList s p d.who.core bits els with
  | (s, .error (c, loc)) => s.accessFault p d c { a with loc := loc }
  | (s, .ok (v, _, _)) =>
    (s.portLate p d a).addDue p
      { d with tick := a.land, place := 2
               act := .v r (BitVec.ofNat 512 (rowOfElems bits v)) (BitVec.ofNat 512 (2 ^ (bits * n) - 1)) false }

/-- The landing of a store. -/
def State.doStoreEls (s : State) (p : Nat) (d : Due) (a : Access) (els : List (Option Loc)) (v : Row) (bits : Nat) : State :=
  s.lateGate p d a.seq (s.isLate p a.seq) fun s =>
    match scatterList s p d.who d.landing bits v els.zipIdx with
    | (s, some (c, loc)) => s.accessFault p d c { a with loc := loc }
    | (s, none) => s

/-! ### Sums that Chason may regroup (21 R396; log entry 74)

Without the exact flag a KV.MUL whose only use is a KV.ADD may be contracted with it, and a chain of KV.ADD reassociated. A
pv register that a KV.ADD, or a KV.MUL that may be contracted, has written, and that nothing else has used since, stands for the
terms of its sum. Such a KV.MUL raises no flag, and neither does a KV.ADD whose only use is a KV.ADD of its chain; the sum that ends
the chain raises those of every operation that forms it. The order in which they are joined is Chason's, and fixed for the key. -/

/-- One element of a term: a value, or a product not yet rounded. -/
inductive LaneTerm where
  | value (v : Nat)
  | product (rm : Rm) (a b : Nat)
  deriving DecidableEq, Repr

def KvTerm.lane (f : Fmt) (i : Nat) : KvTerm → LaneTerm
  | .row v => .value ((elemsOf f.bits v).getD i 0)
  | .prod rm a b => .product rm ((elemsOf f.bits a).getD i 0) ((elemsOf f.bits b).getD i 0)

/-- A term by itself, with the flags of a product that is rounded. -/
def LaneTerm.rounded (f : Fmt) : LaneTerm → Nat × Flags
  | .value v => (v, 0)
  | .product rm a b => fMul f rm 0 a b

/-- Join two terms: with `fuse` a product among them is not rounded first. -/
def joinLane (f : Fmt) (rm : Rm) (fuse : Bool) (t u : LaneTerm) : Nat × Flags :=
  match fuse, t, u with
  | true, e, .product _ a b | true, .product _ a b, e =>
    let r := fMa f rm 0 a b (e.rounded f).1
    (r.1, r.2 ||| (e.rounded f).2)
  | _, _, _ =>
    let r := fAdd f rm 0 (t.rounded f).1 (u.rounded f).1
    (r.1, r.2 ||| (t.rounded f).2 ||| (u.rounded f).2)

/-- Join the terms of one element in the order that is given, then from the left. -/
def sumLane (f : Fmt) (rm : Rm) : Nat → List (Nat × Nat × Bool) → List LaneTerm → Nat × Flags
  | n + 1, order, a :: b :: l =>
    let all := a :: b :: l
    let (i, j, fuse) := order.headD (0, 1, false)
    let i := i % all.length
    let rest := all.eraseIdx i
    let j := j % rest.length
    let r := joinLane f rm fuse (all.getD i a) (rest.getD j b)
    match rest.eraseIdx j with
    | [] => r
    | l =>
      let q := sumLane f rm n (order.drop 1) (.value r.1 :: l)
      (q.1, q.2 ||| r.2)
  | _, _, a :: _ => a.rounded f
  | _, _, [] => (0, 0)

/-- The terms that a source stands for. -/
def Core.termsOf (k : Core) (f : Fmt) (rm : Rm) (r : VReg) : List KvTerm :=
  match k.kvSums.find? fun e => e.reg == r.val && e.fmt == f && (e.rm == rm || e.terms.length == 1) with
  | some e => e.terms
  | none => [.row (k.getV r.val).v]

/-- Whether the object leaves Chason free to regroup. -/
def State.mayRegroup (s : State) (p : Nat) : Bool := match s.objOf p with | some o => !o.exact | none => false

/-- Where the thread's function goes on from an instruction at an offset; none where another function runs. -/
def State.kvNexts (s : State) (p off : Nat) (i : Instr) : Option (List Nat) :=
  match i with
  | .rvBranch _ _ _ h => some [off + 4, (off + 2 * h.toInt).toNat]
  | .jal d h => match s.jalKind p d (off + 2 * h.toInt) with | .hop o => some [o] | _ => none
  | .jalr d a h => if (s.thread p).launch && d.val == 0 && a.val == 1 && h == 0 then some [] else none
  | _ => some [off + 4]

/-- From the offsets in `todo` on, no path of the function reads register `r` before it is written anew; a path into another
function may read it. -/
def State.kvUnused (s : State) (p r : Nat) : Nat → List Nat → List Nat → Bool
  | 0, todo, _ => todo.isEmpty
  | _, [], _ => true
  | n + 1, off :: todo, seen =>
    if seen.contains off || (textWord (s.threadText p) off).isNone then s.kvUnused p r n todo seen
    else match textInstr (s.threadText p) off with
      | none => s.kvUnused p r n ((off + 4) :: todo) (off :: seen)
      | some i =>
        if (kvReads i).contains r then false
        else if (kvWrites i).contains r then s.kvUnused p r n todo (off :: seen)
        else match s.kvNexts p off i with
          | none => false
          | some l => s.kvUnused p r n (l ++ todo) (off :: seen)

/-- From an offset on, the straight line leads to a KV.ADD of the type, of rounding mode `rm` where one is given, with register `r`
as one source, which is its only use. -/
def State.kvOnlyUse (s : State) (p : Nat) (pt : Pt) (rm : Option (Fin 4)) (r : Nat) : Nat → Nat → Bool
  | 0, _ => false
  | n + 1, off =>
    match textInstr (s.threadText p) off with
    | none => false
    | some i =>
      if (kvReads i).contains r then
        match i with
        | .kvAdd q m d a b => q == pt && rm.all (· == m) && a != b &&
            (d.val == r || s.kvUnused p r (4 * (s.threadText p).length + 4) [off + 4] [])
        | _ => false
      else if (kvWrites i).contains r then false
      else match i with
        | .kvSetvl .. | .rvBranch .. | .jal .. | .jalr .. => false
        | _ => s.kvOnlyUse p pt rm r n (off + 4)

/-- The thread's KV.MUL may be contracted with the KV.ADD that is its only use, or, with its rounding mode `rm`, its KV.ADD is no more
than a part of that one's chain. -/
def State.kvContracts (s : State) (p : Nat) (pt : Pt) (rm : Option (Fin 4)) (d : VReg) : Bool :=
  Pt.isFloat pt && s.mayRegroup p && s.kvOnlyUse p pt rm d.val (s.threadText p).length ((s.thread p).off + 4)

/-- The destination stands for `terms`, where there are any; no other register named does any more. -/
def State.noteSum (s : State) (x : Ctx) (f : Fmt) (rm : Rm) (d a b : VReg) (terms : List KvTerm) : State :=
  if s.mayRegroup x.p then
    s.modCore x.c fun k =>
      let k := k.kvUse [d.val, a.val, b.val]
      if terms.isEmpty then k else { k with kvSums := k.kvSums ++ [⟨d.val, f, rm, terms⟩] }
  else s

/-- A float sum of two registers: as written where neither stands for more than its own value. -/
def State.kvSum (s : State) (x : Ctx) (f : Fmt) (rm : Rm) (a b : VReg) : List (Nat × Flags) :=
  let k := s.core x.c
  let terms := k.termsOf f rm a ++ k.termsOf f rm b
  let plain := List.zipWith (fAdd f rm 0) (elemsOf f.bits (k.getV a.val).v) (elemsOf f.bits (k.getV b.val).v)
  if !s.mayRegroup x.p || terms == [.row (k.getV a.val).v, .row (k.getV b.val).v] then plain
  else (List.range f.lanes).map fun i =>
    sumLane f rm terms.length (s.chason x.p Config.portableOrder []) (terms.map (KvTerm.lane f i))

def execKvAdd (pt : Pt) (rm : Fin 4) (d a b : VReg) (s : State) : Out :=
  .next (portableWord .v noPortCheck (fun x s =>
    let f := Pt.fmt pt
    let u := s.vr x a
    let v := s.vr x b
    let n := s.activeOf x pt
    if Pt.isFloat pt then
      let k := s.core x.c
      let sum := s.kvSum x f (rmOf rm) a b
      let r := if s.kvContracts x.p pt (some rm) d then sum.map fun e => (e.1, 0) else sum
      (s.noteSum x f (rmOf rm) d a b (k.termsOf f (rmOf rm) a ++ k.termsOf f (rmOf rm) b)).landActive x 4 d f n (u.p || v.p) r
    else
      s.landActive x 2 d f n (u.p || v.p)
        (List.zipWith (fun e q => (laneAdd f e q, 0)) (elemsOf f.bits u.v) (elemsOf f.bits v.v))) s)

def execKvSub (pt : Pt) (rm : Fin 4) (d a b : VReg) (s : State) : Out :=
  let f := Pt.fmt pt
  .next (kvTwo pt (if Pt.isFloat pt then 4 else 2) d a b
    (if Pt.isFloat pt then fSub f (rmOf rm) 0 else fun u v => (laneSub f u v, 0)) s)

def execKvMul (pt : Pt) (rm : Fin 4) (d a b : VReg) (s : State) : Out :=
  .next (portableWord .v noPortCheck (fun x s =>
    let f := Pt.fmt pt
    let u := s.vr x a
    let v := s.vr x b
    let fused := s.kvContracts x.p pt none d
    let s := if Pt.isFloat pt then s.noteSum x f (rmOf rm) d a b (if fused then [.prod (rmOf rm) u.v v.v] else []) else s
    let r := List.zipWith (if Pt.isFloat pt then fMul f (rmOf rm) 0 else fun u v => (laneMul f u v, 0)) (elemsOf f.bits u.v)
      (elemsOf f.bits v.v)
    s.landActive x (if Pt.isFloat pt then 4 else 2) d f (s.activeOf x pt) (u.p || v.p)
      (if fused then r.map fun e => (e.1, 0) else r)) s)

def execKvFma (pt : Pt) (rm : Fin 4) (d a b : VReg) (s : State) : Out :=
  .next (portableWord .v noPortCheck (fun x s =>
    let f := Pt.fmt pt
    let u := s.vr x a
    let v := s.vr x b
    let w := s.vr x d
    s.landActive x 5 d f (s.activeOf x pt) (u.p || v.p || w.p)
      (List.zipWith (fun (e : Nat) (q : Nat × Nat) => fMa f (rmOf rm) 0 e q.1 q.2) (elemsOf f.bits u.v)
        ((elemsOf f.bits v.v).zip (elemsOf f.bits w.v)))) s)

def execKvMin (pt : Pt) (d a b : VReg) (s : State) : Out :=
  let f := Pt.fmt pt
  .next (kvTwo pt 2 d a b (fun u v => (if Pt.isFloat pt then fMin f u v else laneMin f u v, 0)) s)

def execKvMax (pt : Pt) (d a b : VReg) (s : State) : Out :=
  let f := Pt.fmt pt
  .next (kvTwo pt 2 d a b (fun u v => (if Pt.isFloat pt then fMax f u v else laneMax f u v, 0)) s)

/-- The low n elements convert; every element above is 0, as VCVT has it (08 R211). -/
def execKvCvt (pt : Pt) (rm : Fin 4) (src : Pt) (d a : VReg) (s : State) : Out :=
  .next (portableWord .v noPortCheck (fun x s =>
    let fd := Pt.fmt pt
    let fs := Pt.fmt src
    let u := s.vr x a
    let n := min fs.lanes fd.lanes
    let act := s.activeOf x pt
    let r := ((elemsOf fs.bits u.v).take n).map (convert fd fs (rmOf rm) 0)
    let s := s.laterFlags x (x.t + 4) (orFlags ((r.take act).map (·.2))) u.p
    let mask := rowOfElems fd.bits ((List.range fd.lanes).map fun i => if n ≤ i || i < act then 2 ^ fd.bits - 1 else 0)
    (s.later x (x.t + 4) (.v d.val (BitVec.ofNat 512 (rowOfElems fd.bits (r.map (·.1)))) (BitVec.ofNat 512 mask) u.p), .on 4)) s)

def execKvRed (pt : Pt) (red : Red) (d a : VReg) (s : State) : Out :=
  .next (portableWord .v noPortCheck (fun x s =>
    let f := Pt.fmt pt
    let u := s.vr x a
    let n := s.activeOf x pt
    let (v, fl) := reduce f red ((elemsOf f.bits u.v).zipIdx.map fun (e, i) => (e, decide (i < n)))
    let s := s.laterFlags x (x.t + 6) fl u.p
    (s.later x (x.t + 6) (.v d.val (BitVec.ofNat 512 v) fullMask u.p), .on 6)) s)

def execKvCmp (pt : Pt) (cond : Cond) (d a b : VReg) (s : State) : Out :=
  let f := Pt.fmt pt
  let ones (r : Bool × Flags) : Nat × Flags := (if r.1 then 2 ^ f.bits - 1 else 0, r.2)
  .next (kvTwo pt 2 d a b
    (fun u v => ones (if Pt.isFloat pt then fCmp f cond u v else (iCmp cond (laneInt f u) (laneInt f v), 0))) s)

def execKvSel (pt : Pt) (d a b : VReg) (s : State) : Out :=
  .next (portableWord .v noPortCheck (fun x s =>
    let f := Pt.fmt pt
    let u := s.vr x a
    let v := s.vr x b
    let w := s.vr x d
    s.landActive x 3 d f (s.activeOf x pt) (u.p || v.p || w.p)
      (List.zipWith (fun (e : Nat) (q : Nat × Nat) => (if e ≠ 0 then q.1 else q.2, 0)) (elemsOf f.bits w.v)
        ((elemsOf f.bits u.v).zip (elemsOf f.bits v.v)))) s)

def execKvBcst (pt : Pt) (d : VReg) (a : XReg) (s : State) : Out :=
  .next (portableWord .v noPortCheck (fun x s =>
    let f := Pt.fmt pt
    let u := s.xr x a
    s.landActive x 3 d f (s.activeOf x pt) u.p (List.replicate f.lanes (u.v.toNat % 2 ^ f.bits, 0))) s)

/-- Element i uses ns7's block at x[a] + i; ns7 does not change (08 R219). -/
def execKvRng (pt : Pt) (unif : Bool) (d : VReg) (a : XReg) (s : State) : Out :=
  .next (portableWord .v noPortCheck (fun x s =>
    let f := Pt.fmt pt
    let u := s.xr x a
    let ns := (s.core x.c).getNs 7
    s.landActive x 6 d f (s.activeOf x pt) u.p
      ((List.range f.lanes).map fun (i : Nat) => (drawValue (if unif then .unif else .norm) (slotBlock ns (u.v.toNat + i)), 0))) s)

/-! ### KM1 (21 R388) -/

/-- The native word of KM.CFG. -/
def kmCfgWord (sa : SaMask) (w : Nat) : Word :=
  BitVec.ofNat 64 (2 ^ 46 + packFrom 46 [(4, sa.toNat), (5, fld w 0 5), (5, fld w 5 5), (4, fld w 10 4), (2, fld w 14 2), (7, fld w 16 7)])

def nativeCls : NativeDecode → Option Cls
  | .ok _ => none
  | .illegal => some .illegalEncoding
  | .reserved => some .reservedField
  | .format => some .illegalFormat
  | .combination => some .formatCombination

def execKmCfg (sa : SaMask) (_hint : BitVec 3) (a : XReg) (s : State) : Out :=
  .next (portableWord .m
    (fun x s =>
      let w := (s.xr x a).v.toNat
      (poisonProbe x (s.xr x a)).andThen
        (if w / 2 ^ 23 ≠ 0 then .trap .reservedField x.who.word
         else match nativeCls (decodeNative .m (kmCfgWord sa w)) with
          | some c => .trap c x.who.word
          | none => .when (sa == 0) (.trap .reservedField x.who.word)))
    (fun x s =>
      match decodeNative .m (kmCfgWord sa (s.xr x a).v.toNat) with
      | .ok (.mcfg _ _ fa fb planes acc pro) =>
        let s := s.modCore x.c fun k => k.nameAll (selected sa) x.t
        ((selected sa).foldl (fun s i => s.later x (x.t + 1) (.mcfg i ⟨fa, fb, planes.toNat, acc, pro.toNat⟩)) s, .on 1)
      | _ => (s, .on 1)) s)

/-- The checks of a block of rows at a VA: alignment to a row, then the range (log entry 26). -/
def rowsProbe (va : Word) (bytes : Nat) : Probe :=
  if va.toNat % 64 ≠ 0 then .trap .layoutBound va
  else .when (decide (2 ^ 52 < va.toNat + bytes)) (.trap .layoutBound (boundPlace 1 0xF 2 va.toNat))

def noSa (x : Ctx) (bad : Bool) : Probe := .when bad (.trap .reservedField x.who.word)

/-- The checks of 10 R235 that can fail: Chason starts no word on a busy port, and wakes a gated sub-array ahead (log entry
75). -/
def State.kmProbe (s : State) (x : Ctx) (sa : SaMask) (poison : Bool) : Probe :=
  .when ((s.part x.p).loose && poison) (.trap .scheduleMiss (missStatus sa 0))

/-- The A word that brings the data of a KM1 instruction: it translates, and takes the faults (01 R19). -/
def Ctx.access (x : Ctx) : Ctx := { x with who := { x.who with unit := .a } }

/-- Chason wakes the sub-arrays it uses. -/
def Core.wakeAll (k : Core) (sel : List Nat) (t : Nat) : Core :=
  sel.foldl (fun k i => k.modSa i fun a => { a.name t with power := .awake, sleepAt := none }) k

def execKmLw (sa : SaMask) (_hint : BitVec 3) (a : XReg) (s : State) : Out :=
  .next (portableWord .m
    (fun x s => (noSa x (sa == 0)).andThen ((poisonProbe x (s.xr x a)).andThen (rowsProbe (s.xr x a).v 64)))
    (fun x s =>
      let s := s.modCore x.c fun k => k.wakeAll (selected sa) x.t
      s.portRead x.access (s.xr x a).v.toNat fun acc => .kmWeights acc sa false) s)

def execKmLwp (sa : SaMask) (_hint : BitVec 3) (a : XReg) (s : State) : Out :=
  .next (portableWord .m
    (fun x s =>
      let bad := (selected sa).any fun i => let b := ((s.core x.c).getSa i).cfg.fmtB; !(b == .bf16 || b == .e4m3)
      (noSa x (sa == 0)).andThen ((Probe.when bad (.trap .illegalFormat x.who.word)).andThen
        ((poisonProbe x (s.xr x a)).andThen (portableVa (s.xr x a).v 32))))
    (fun x s =>
      let s := s.modCore x.c fun k => k.wakeAll (selected sa) x.t
      s.portRead x.access (s.xr x a).v.toNat fun acc => .kmWeights acc sa true) s)

/-- `n` rows from a VA. -/
def readRows (s : State) (p core : Nat) : Nat → Nat → State × Except (Cls × Loc) (List Row)
  | _, 0 => (s, .ok [])
  | va, n + 1 =>
    match s.readLoc p core .read (.global va) 64 with
    | (s, .error c) => (s, .error (c, .global va))
    | (s, .ok (b, _)) =>
      match readRows s p core (va + 64) n with
      | (s, .ok l) => (s, .ok (rowOfBytes b :: l))
      | r => r

/-- The rows that each sub-array takes from a VA, with its number of rows: all are read before any is used, so that an
access that faults has no effect and raises one condition. -/
def readRowsEach (s : State) (p core va : Nat) : List (Nat × Nat) → State × Except (Cls × Loc) (List (Nat × List Row))
  | [] => (s, .ok [])
  | (i, n) :: l =>
    match readRows s p core va n with
    | (s, .error c) => (s, .error c)
    | (s, .ok r) =>
      match readRowsEach s p core va l with
      | (s, .ok q) => (s, .ok ((i, r) :: q))
      | e => e

def listTbl {α : Type} [DecidableEq α] (d : α) (first : Nat) (l : List α) : Tbl α :=
  l.zipIdx.filterMap fun (v, i) => if v = d then none else some (first + i, v)

/-- A loaded set becomes the active one. -/
def SubArray.install (a : SubArray) (w : WeightSet) : SubArray :=
  { a with active := w, back := a.active, swap := none, loads := a.loads + 1 }

/-- The words of a weight load reach each selected sub-array (10 R227, R230). -/
def State.doKmWeights (s : State) (p : Nat) (d : Due) (a : Access) (sa : SaMask) (noise : Bool) : State :=
  let c := d.who.core
  let va := match a.loc with | .global v => v | _ => 0
  if noise then
    match s.readLoc p c .read a.loc 32 with
    | (s, .error cl) => s.accessFault p d cl a
    | (s, .ok (b, _)) =>
      let w (i : Nat) : Nat := leNat ((b.drop (8 * i)).take 8)
      if w 0 % 64 ≠ 0 || w 1 % 64 ≠ 0 then
        s.addCond p ⟨d.tick, .layoutBound, d.who, BitVec.ofNat 64 (if w 0 % 64 ≠ 0 then w 0 else w 1), .continue_⟩
      else
      match readRows s p c (w 0) 256 with
      | (s, .error (cl, loc)) => s.accessFault p d cl { a with loc := loc }
      | (s, .ok means) =>
        match readRows s p c (w 1) 128 with
        | (s, .error (cl, loc)) => s.accessFault p d cl { a with loc := loc }
        | (s, .ok dev) =>
          let n := (s.core c).getNs 7
          (selected sa).foldl (fun s i =>
            let f := ((s.core c).getSa i).cfg.fmtB
            let (set, fl) := perturbSet ⟨f, listTbl 0 0 means ++ listTbl 0 devWord dev, false⟩ n.key
              ((n.ctr >>> 80).setWidth 48) (BitVec.ofNat 64 (w 2)) (BitVec.ofNat 64 (w 3))
            s.modCore c fun k => (k.modSa i fun q => q.install set).raiseFlags fl) (s.portLate p d a)
  else
    match readRowsEach s p c va ((selected sa).map fun i => (i, weightWords ((s.core c).getSa i).cfg.fmtB)) with
    | (s, .error (cl, loc)) => s.accessFault p d cl { a with loc := loc }
    | (s, .ok sets) =>
      sets.foldl (fun s (e : Nat × List Row) =>
        s.modCore c fun k => k.modSa e.1 fun q => q.install ⟨q.cfg.fmtB, listTbl 0 0 e.2, false⟩) (s.portLate p d a)

def rowsBad (w : Word) : Bool := decide (w.toNat < 1) || decide (1024 < w.toNat)

def execKmMma (sa : SaMask) (_hint : BitVec 3) (a b : XReg) (s : State) : Out :=
  .next (portableWord .m
    (fun x s => (noSa x (sa == 0 || rowsBad (s.xr x b).v)).andThen
      ((poisonProbe x (s.xr x a)).andThen ((poisonProbe x (s.xr x b)).andThen ((rowsProbe (s.xr x a).v 64).andThen
        (s.kmProbe x sa ((s.core x.c).mmaPoison sa (s.xr x b).v.toNat))))))
    (fun x s =>
      let s := s.modCore x.c fun k => k.wakeAll (selected sa) x.t
      s.portRead x.access (s.xr x a).v.toNat fun acc => .kmPass acc sa (s.xr x b).v.toNat) s)

/-- The packets of a pass are read and every row makes its pass (10 R226, R232). -/
def State.doKmPass (s : State) (p : Nat) (d : Due) (a : Access) (sa : SaMask) (rows : Nat) : State :=
  let c := d.who.core
  let va := match a.loc with | .global v => v | _ => 0
  let words (i : Nat) : Nat := packetWords ((s.core c).getSa i).cfg.fmtA ((s.core c).getSa i).cfg.planes
  match readRowsEach s p c va ((selected sa).map fun i => (i, rows * words i)) with
  | (s, .error (cl, loc)) => s.accessFault p d cl { a with loc := loc }
  | (s, .ok sets) =>
    sets.foldl (fun s (e : Nat × List Row) =>
      let q := (s.core c).getSa e.1
      (s.drawSums q.cfg q.active (64 * rows)).modCore c fun k => k.modSa e.1 fun q =>
        let w := packetWords q.cfg.fmtA q.cfg.planes
        (List.range rows).foldl (fun (q : SubArray) j =>
          q.setRow j ((q.row j).pass q.cfg q.active (((e.2.drop (j * w)).take w).map fun r => ⟨r, false⟩)
            (s.free + 64 * j))) q)
      (s.portLate p d a)

def DrainFmt.fmt : DrainFmt → Fmt
  | .fp32 => .fp32 | .bf16 => .bf16 | .acc26 => .acc26 | .int32 => .int32 | .int8 => .int8

/-- Whether a row of those that are drained is poisoned. -/
def SubArray.rowsPoisoned (a : SubArray) (n : Nat) : Bool := a.rows.any fun e => decide (e.1 < n) && e.2.p

/-- The rows that KM.RD stores, row-major, with their flags. A poisoned row is stored nowhere (05 R116). -/
def SubArray.drained (a : SubArray) (f : Fmt) (rows : Nat) : List Row × Flags :=
  let int := isIntPair a.cfg.fmtA
  let b := drainBits f
  let per := 512 / b
  let els := (List.range rows).map fun j => (List.range 64).map (drainElem ((a.row j).asForm int) int f .rne)
  (els.flatMap fun r => (List.range (64 / per)).map fun w =>
      BitVec.ofNat 512 (rowOfElems b (((r.drop (w * per)).take per).map (·.1))),
   orFlags (els.map fun r => orFlags (r.map (·.2))))

def execKmRd (sa : SaMask) (fmt : DrainFmt) (a b : XReg) (s : State) : Out :=
  .next (portableWord .m
    (fun x s =>
      let f := DrainFmt.fmt fmt
      let bad := (selected sa).any fun i =>
        if isIntPair ((s.core x.c).getSa i).cfg.fmtA then f == .acc26 else f == .int32 || f == .int8
      (noSa x (!oneSa sa || rowsBad (s.xr x b).v)).andThen
        ((Probe.when bad (.trap .illegalFormat x.who.word)).andThen
          ((poisonProbe x (s.xr x a)).andThen ((poisonProbe x (s.xr x b)).andThen ((rowsProbe (s.xr x a).v 64).andThen
            (.when ((selected sa).any fun i => ((s.core x.c).getSa i).rowsPoisoned (s.xr x b).v.toNat)
              (.trap .poisonStore x.who.word)))))))
    (fun x s =>
      let i := (selected sa).headD 0
      let n := (s.xr x b).v.toNat
      let (l, fl) := ((s.core x.c).getSa i).drained (DrainFmt.fmt fmt) n
      let s := s.modCore x.c fun k => k.nameAll (selected sa) x.t
      let s := s.later x (x.t + 2) (.drainFlags i n fl)
      s.portWrite x.access (s.xr x a).v.toNat fun acc => .storeRows acc l) s)

/-- Store rows from a VA upward. -/
def storeRowList (s : State) (p : Nat) (who : Who) (how : Landing) : Nat → List Row → State × Option (Cls × Loc)
  | _, [] => (s, none)
  | va, r :: l =>
    match s.writeLoc p who how .write (.global va) (bytesOfRow r) (2 ^ 512 - 1) false with
    | (s, some c) => (s, some (c, .global va))
    | (s, none) => storeRowList s p who how (va + 64) l

def State.doStoreRows (s : State) (p : Nat) (d : Due) (a : Access) (l : List Row) : State :=
  s.lateGate p d a.seq (s.isLate p a.seq) fun s =>
    match storeRowList s p d.who d.landing (match a.loc with | .global v => v | _ => 0) l with
    | (s, some (c, loc)) => s.accessFault p d c { a with loc := loc }
    | (s, none) => s

def execKmZero (sa : SaMask) (_hint : BitVec 3) (s : State) : Out :=
  .next (portableWord .m (fun x _ => noSa x (sa == 0)) (fun x s =>
    let s := s.modCore x.c fun k => k.nameAll (selected sa) x.t
    ((selected sa).foldl (fun s i =>
      s.later x (x.t + 1) (.clearRows i (isIntPair ((s.core x.c).getSa i).cfg.fmtA))) s, .on 1)) s)

/-! ### KG1 (21 R389) -/

/-- The coordinates of a coordinate word. -/
def coordsOf (w : Word) : List Int := [sfld w.toNat 0 32, sfld w.toNat 32 16, sfld w.toNat 48 16]

def execKgDef (gr : Num3) (_hint : BitVec 4) (a : XReg) (s : State) : Out :=
  .next (portableWord .a
    (fun x s =>
      let o := s.xr x a
      (poisonProbe x o).andThen
        (.when (o.v.toNat % 64 != 0 || decide (327680 < o.v.toNat + 128)) (.trap .layoutBound (boundOffset o.v))))
    (fun x s =>
      let l := ownPocket (s.part x.p).loose
      let seq := (s.part x.p).seq + 1
      let s := s.modPart x.p fun k => { k with seq := k.seq + 2 }
      (s.sampleAt x (x.t + l / 2) (.gridRow gr.val (s.xr x a).v.toNat 0 seq []), .on (l + 1))) s)

def execKgLd (gr : Num3) (_hint : BitVec 4) (d : VReg) (a b : XReg) (s : State) : Out :=
  .next (portableWord .a
    (fun x s =>
      let g := (s.core x.c).getGrid gr.val
      (poisonProbe x (s.xr x a)).andThen ((poisonProbe x (s.xr x b)).andThen
        ((undefinedProbe g gr.val).andThen (beyondProbe g (coordsOf (s.xr x a).v)))))
    (fun x s =>
      let loose := (s.part x.p).loose
      let l := ownPocket loose
      let tm := accessTiming loose (s.core x.c) x.t (l / 2) (l / 2) .rlx .co true false
      let s := s.setCore x.c tm.core
      let (s, n) := s.nextSeq x.p
      (s.sampleAt x (tm.base + l / 2)
        (.gridLoad gr.val (.reg d.val) (coordsOf (s.xr x a).v) (tagOf (s.xr x b)) true (tm.base + l) n),
        .on (tm.base + l - x.t))) s)

def execKgSt (gr : Num3) (_hint : BitVec 4) (d : VReg) (a b : XReg) (s : State) : Out :=
  .next (portableWord .a
    (fun x s =>
      let g := (s.core x.c).getGrid gr.val
      let cur := coordsOf (s.xr x a).v
      (poisonProbe x (s.xr x a)).andThen ((poisonProbe x (s.xr x b)).andThen
        ((Probe.when (s.vr x d).p (.trap .poisonStore x.who.word)).andThen
          ((undefinedProbe g gr.val).andThen ((beyondProbe g cur).andThen
            (tagProbe g gr.val cur (tagOf (s.xr x b))))))))
    (fun x s =>
      let g := (s.core x.c).getGrid gr.val
      let loose := (s.part x.p).loose
      let l := ownPocket loose
      let tm := accessTiming loose (s.core x.c) x.t (l / 2) (l / 2) .rlx .co false true
      let s := s.setCore x.c tm.core
      let (s, n) := s.nextSeq x.p
      (s.later x (tm.base + l / 2)
        (.gridStore ⟨.pocket x.c 0, 0xF, n, false, tm.base + l / 2, [], false⟩
          (g.storeCells ((tagOf (s.xr x b)).toNat % 2) (coordsOf (s.xr x a).v) (s.vr x d).v)),
        .on (tm.base + l / 2 + 1 - x.t))) s)

def execKgAdv (gr : Num3) (_hint : BitVec 4) (s : State) : Out :=
  .next (portableWord .a
    (fun x s =>
      let g := (s.core x.c).getGrid gr.val
      (undefinedProbe g gr.val).andThen
        (.when (g.step == BitVec.allOnes 32) (.trap .gridDefinition (defStatus gr.val 9))))
    (fun x s => (s.later x (x.t + 1) (.gridAdvance gr.val (((s.core x.c).getGrid gr.val).step + 1)), .on 1)) s)

end Sys2Proof.Machine
end

