-- ==== Sys2Proof/Machine/Fabric.lean ====
section
/-! DEFINITION. The Yelnar ports and the frames that arrive on them (16 R320 to R329), arrivals of other agents
(15 R296), combining slots that time out, and what disciplines WALL (19 R364). -/

namespace Sys2Proof.Machine

/-! ### Ports and frames (16 R320 to R324) -/

/-- The highest version that both ends implement; the K9 has Y1.2 and Y2.0 (16 R324). -/
def commonVersion (l : List (Nat × Nat)) : Option (Nat × Nat) :=
  if l.contains (2, 0) then some (2, 0) else if l.contains (1, 2) then some (1, 2) else none

/-- The frames that wait for a link that has come up set out. -/
def State.flushPort (s : State) (n : Nat) : State :=
  if (s.port n).up then
    (s.port n).waiting.foldl (fun s f => s.sendOn n f) (s.modPort n fun q => { q with waiting := [] })
  else s

def execLinkTraining (port : Fin 32) (versions : List (Nat × Nat)) (s : State) : Out :=
  .next ((s.popEvent.modPort port.val fun q =>
    { q with up := (commonVersion versions).isSome, version := commonVersion versions, failures := 0 }).flushPort port.val)

/-- `n` frames arrive on a live link with good tags: the 8 flits of each are counted, and what they carry is done (16 R320,
R322). -/
def State.linkFrame (s : State) (port n : Nat) (k : State → State) : State :=
  if !(s.port port).up then s else k (s.modPort port fun q => { q with count := q.count + 8 * n, failures := 0 })

/-- How many frames a packet stands for: one for each 8 rows (log entry 73). -/
def framesOf (f : Packet) : Nat := max 1 ((f.flits.length + 7) / 8)

/-- A frame that arrives: a reserved kind or bit is an error and delivers nothing, and a frame of the kind for this module
is carried out. -/
def State.frame (s : State) (port : Nat) (f : Packet) (kind : BitVec 4) (anyMod : Bool) (k : State → State) : State :=
  s.linkFrame port (framesOf f) fun s =>
    if f.rsv != 0 || decide (9 ≤ f.kind.toNat) then s.modPort port fun q => { q with errors := q.errors + 1 }
    else if f.kind = kind && (anyMod || f.dmod.toNat == s.modNum) then k s else s

/-- The acknowledgement of a frame (16 R321). -/
def ackOf (f : Packet) : Packet := ackPacket f.smod f.score f.dmod f.dcore

/-- What another agent does on behalf of no word of this module. -/
def outsideWho (core : Nat) : Who := ⟨core, .hub, .cont 0, 0, 0, 0⟩

/-- Bytes cut at row edges: the first byte of each piece and its bytes. -/
def rowCuts : Nat → Nat → List Byte → List (Nat × List Byte)
  | 0, _, _ => []
  | n + 1, a, l =>
    if l.isEmpty then [] else (a, l.take (64 - a % 64)) :: rowCuts n (a + (64 - a % 64)) (l.drop (64 - a % 64))

/-- An outside write to a store of a core; bytes past the store's end do not exist. -/
def State.outsideWrite (s : State) (core : Nat) (ring : Bool) (off : Nat) (bytes : List Byte) : State :=
  let top := if ring then 4194304 else 327680
  (rowCuts (bytes.length + 1) off (bytes.take (top - off))).foldl (fun s (r : Nat × List Byte) =>
    s.performWrite none (if ring then .ring core r.1 else .pocket core r.1) r.2
      (2 ^ (8 * r.2.length) - 1) false) s

/-- A write that another agent performs lands for the group at its next edge (15 R296). -/
def execExternalWriteArrival (core : Nat) (ring : Bool) (off : Nat) (bytes : List Byte) (s : State) : Out :=
  .next (s.popEvent.outsideWrite core ring off bytes)

/-- The bytes a posted write carries: flit 0 at its offset, later flits as whole rows. -/
def postedBytes (f : Packet) : List (Nat × List Byte) :=
  (f.flits.take (f.nfl.toNat + 1)).zipIdx.map fun (r, i) =>
    if i = 0 then (f.doff.toNat, (bytesOfRow r).take (f.len.toNat + 1)) else ((f.doff.toNat / 64 + i) * 64, bytesOfRow r)

def execPostedWrite (port : Fin 32) (f : Packet) (s : State) : Out :=
  .next (s.popEvent.frame port.val f 0 false fun s =>
    ((postedBytes f).foldl (fun s (r : Nat × List Byte) => s.outsideWrite f.dcore.toNat false r.1 r.2) s).send (ackOf f))

/-- Freezes that an acknowledgement may end: its core's window waits, and the fences whose stores have all performed. -/
def State.acknowledged (s : State) (p core : Nat) : State :=
  (s.modPart p fun k => { k with waits := k.waits.filter fun w => match w with | .window c _ => c != core | _ => true }).clearFences p

/-- A write of core `core` is performed at its target: units return, and what it belongs to hears (16 R318, R321). -/
def State.writeDone (s : State) (core : Nat) (r : Posted) : State :=
  let s := s.modCore core fun k =>
    { k with
      posted := k.posted.erase r
      winUsed := match r.window with
        | some w => tset 0 k.winUsed w (tget 0 k.winUsed w - r.units)
        | none => k.winUsed }
  let p := s.partOf core
  let s := match r.by_ with
    | .word => s
    | .engine e launch => match p with | some p => s.unitDone p core e launch | none => s
    | .grid gr face launch =>
      let s := s.modCore core fun k => k.modGrid gr fun g => g.sends face (-1)
      match p with
      | some p => s.modPart p fun k => { k with untimed := k.untimed.erase launch }
      | none => s
  match p with
  | some p => s.acknowledged p core
  | none => s

/-- An acknowledgement answers the oldest write of the core to its sender (log entry 16). -/
def execAcknowledgement (port : Fin 32) (f : Packet) (s : State) : Out :=
  .next (s.popEvent.frame port.val f 1 false fun s =>
    let core := f.dcore.toNat
    match (s.core core).posted.find? fun r => r.target == f.smod.toNat * 2048 + f.score.toNat with
    | some r => s.writeDone core r
    | none => s)

/-! ### Combining frames (16 R324 to R327) -/

/-- Whether a port combines at switches: Y2.0 does, Y1.2 does not. -/
def State.combines (s : State) (port : Nat) : Bool := (s.port port).version == some (2, 0)

/-- A contribution that reached the destination's module is acknowledged once it has been folded (12 R268). -/
def execCombiningContribution (port : Fin 32) (f : Packet) (s : State) : Out :=
  .next (s.popEvent.frame port.val f 2 false fun s =>
    if s.combines port.val then s.contribute f 0 0 false false else s.contributeDirect f)

def execCombinedPrefix (port : Fin 32) (f : Packet) (s : State) : Out :=
  .next (s.popEvent.frame port.val f 3 false fun s => if s.combines port.val then s.siteArrive f else s.fxArrive f)

/-- The slot that has waited 2 µs for its next arrival. -/
def State.idleSlot (s : State) (tag dcore : Nat) : Option SiteSlot :=
  s.sites.find? fun t => t.tag == tag && t.dcore == dcore && decide (t.wall + 2000 ≤ s.wall)

def execCombiningSlotTimeout (tag : BitVec 16) (dcore : BitVec 11) (s : State) : Out :=
  let s := s.popEvent
  match s.idleSlot tag.toNat dcore.toNat with
  | some t => .next (({ s with sites := s.sites.erase t }).fxArrive (t.packet s.modNum))
  | none => .next s

def execFxCombineArrival (f : Packet) (s : State) : Out := .next (s.popEvent.fxArrive f)

/-! ### Mailbox, grid and barrier frames -/

/-- A mailbox write of an outside agent lands, and remains: an MBW that a freeze holds at its tick is applied before it (06 R134). -/
def State.mailboxLand (s : State) (core m : Nat) (v : Word) : State :=
  let s := s.modCore core fun k => (k.setMb m v).showMb m v
  match s.partOf core with
  | none => s
  | some q => s.modPart q fun k => { k with pend := k.pend.filter fun d =>
      !(d.who.core == core && d.who.unit != .hub && decide (d.tick ≤ k.tick) && (match d.act with | .mailbox i _ => i == m | _ => false)) }

/-- A mailbox write of an outside agent: BAR2 shows it at once, and it lands at the partition's next tick, at f while the
partition is frozen at f, and at once where no tick is to come (06 R134). -/
def State.mailboxArrive (s : State) (core m : Nat) (v : Word) : State :=
  let s := s.modCore core fun k => k.showMb m v
  match s.partOf core with
  | none => s.mailboxLand core m v
  | some q =>
    if !(s.part q).live || s.groupStill q then s.mailboxLand core m v
    else s.arrive q (outsideWho core) (.mailbox m v)

/-- The mailbox's place is that of BAR2: byte 8m (log entry 17). -/
def execPeerMailboxWrite (port : Fin 32) (f : Packet) (s : State) : Out :=
  .next (s.popEvent.frame port.val f 4 false fun s =>
    (s.mailboxArrive f.dcore.toNat (f.doff.toNat / 8 % 16) ((f.flits.headD 0).setWidth 64)).send (ackOf f))

/-- A frame of a face exchange: its bytes are written, and the last frame of the face sets its stamps (14 R282, log
entry 15). -/
def State.exchangeFrame (s : State) (f : Packet) : State :=
  let core := f.dcore.toNat
  let gr := f.tag.toNat % 8
  let face := f.tag.toNat / 8 % 8
  let h := f.tag.toNat / 64
  let step := (f.flits.headD 0).setWidth 32
  let bytes := (bytesOfRow (f.flits.getD 1 0)).take (f.len.toNat + 1)
  let s := s.outsideWrite core false f.doff.toNat bytes
  let key := face + 8 * step.toNat
  let got := tget 0 ((s.core core).getGrid gr).arrived key + 1
  if got < f.n.toNat then
    s.modCore core fun k => k.modGrid gr fun g => { g with arrived := tput g.arrived key got }
  else
    let s := s.modCore core fun k => k.modGrid gr fun g => { g with arrived := tdel g.arrived key }
    s.stampArrive (outsideWho core) ⟨2048, 0, core, gr, face, step, h, [], [], some 0, 0, false⟩

def execGridExchange (port : Fin 32) (f : Packet) (s : State) : Out :=
  .next (s.popEvent.frame port.val f 5 false fun s => (s.exchangeFrame f).send (ackOf f))

/-- An arrival of another module is counted once, by its module, base core and WALL (16 R328): a member's next arrival counts
for the next round. -/
def execBarrierFrame (port : Fin 32) (f : Packet) (s : State) : Out :=
  .next (s.popEvent.frame port.val f 6 true fun s =>
    let g := f.tag.toNat % 256
    let v := (f.flits.headD 0).toNat
    let l : List Arrival := tget [] s.arrivals g
    let a : Arrival := ⟨none, fld v 0 64, fld v 64 64, fld v 128 64, s.wall, .none⟩
    if a.mod = s.modNum || l.any fun b => b.mod == a.mod && b.base == a.base && b.wall == a.wall then s
    else { s with arrivals := tput s.arrivals g (l ++ [a]) })

/-! ### Keys and failures (16 R322) -/

/-- A link-control frame announces the new inbound key: the direction's counter restarts at its boundary. -/
def execLinkControl (port : Fin 32) (f : Packet) (s : State) : Out :=
  .next (s.popEvent.frame port.val f 8 true fun s => s.modPort port.val fun q =>
    match q.newIn with
    | some k => { q with keyIn := k, newIn := none, count := 0 }
    | none => q)

/-- The frame that announces a new outbound key. -/
def State.keyFrame (s : State) : Packet := { ackPacket 0 0 (BitVec.ofNat 8 s.modNum) 0 with kind := 8 }

/-- The controller installs the key and id of one direction of a link: outbound it takes effect behind the frame of kind 8 that this
module sends, inbound when the other end announces it (16 R322). -/
def execLinkKeyReplace (port : Fin 32) (key : LinkKey) (s : State) : Out :=
  let s := s.popEvent
  .next (if !s.granted then s
    else if key.outbound then (s.modPort port.val fun q => { q with newOut := some key.id }).sendOn port.val s.keyFrame
    else s.modPort port.val fun q => { q with newIn := some key.id })

/-- A bad tag discards the frame; after 8 in a row the link goes down and the host is told (19 R355). -/
def execFrameTagFailure (port : Fin 32) (s : State) : Out :=
  let s := s.popEvent
  let q := s.port port.val
  if !q.up then .next s
  else
    let s := s.modPort port.val fun q => { q with failures := q.failures + 1, up := decide (q.failures + 1 < 8) }
    .next (if q.failures + 1 < 8 then s else s.interrupt 0)

def execReservedKindFrame (port : Fin 32) (f : Packet) (s : State) : Out :=
  .next (s.popEvent.frame port.val f 15 true fun s => s)

/-! ### Time messages (19 R364, R365) -/

/-- A measurement of the selected source. The slew that follows is part of how WALL goes on (log entry 18). -/
def State.discipline (s : State) (t : TimeMessage) : State :=
  { s with toff := t.offset, lock := decide (t.offset.natAbs ≤ 100) }

def execTimeFrame (port : Fin 32) (t : TimeMessage) (s : State) : Out :=
  .next (s.popEvent.linkFrame port.val 1 fun s =>
    if s.tsrc = 2 && s.tport.toNat == port.val then s.discipline t else s)

def execEthernetPtpMessage (t : TimeMessage) (s : State) : Out :=
  let s := s.popEvent
  .next (if s.tsrc = 1 then s.discipline t else s)

end Sys2Proof.Machine
end

