-- ==== Sys2Proof/Machine/Launch.lean ====
section
/-! DEFINITION. Code objects and the launch table: OBJECT_LOAD (21 R391 to R398), fabric budgets (16 R310 to R316),
submission, loading, start and completion (19 R359 to R363), with the throttle sets of 19 R366 and R367. -/

namespace Sys2Proof.Machine

/-! ### Checks of an object (21 R391 to R394, 05 R96, R105, 16 R313) -/

/-- The profile versions of this K9: KV1.2, KM1.1 and KG1.0. -/
def profileMinor : Nat → Option Nat
  | 0 => some 2 | 1 => some 1 | 2 => some 0 | _ => none

def noteOk (n : Note) : Bool :=
  n.pad == 0 && n.major == 1 && n.floorMajor == 1 && decide (n.floorMinor ≤ n.minor) &&
    (match profileMinor n.profile with | some m => decide (n.floorMinor ≤ m) | none => false)

/-- The opcode space of a profile. -/
def profileOpcode : Nat → Nat
  | 0 => 0x0B | 1 => 0x2B | _ => 0x5B

/-- The words of a function's text: one every four bytes, as the thread reads them. -/
def textWords : Nat → List Byte → List Nat
  | 0, _ => []
  | n + 1, l => if l.isEmpty then [] else leNat (l.take 4) :: textWords n (l.drop 4)

def usesProfile (o : Object) (p : Nat) : Bool :=
  o.functions.any fun f => (textWords (f.text.length + 1) f.text).any fun w => w % 2 ^ 7 == profileOpcode p

def contIn (o : Object) (i : Nat) : Bool := decide (i < o.conts.length)

def decisionOk (o : Object) (e : Nat × DecisionEntry) : Bool :=
  decide (e.1 < 256) && decide (e.2.comb.toNat ≤ 5) && decide (1 ≤ e.2.cases.length) && decide (e.2.cases.length ≤ 15) &&
    (e.2.cases.all fun c => decide (c.kind.toNat ≤ 2) && contIn o c.cont) &&
    (match e.2.dflt with | some c => contIn o c | none => true)

def loopOk (o : Object) (e : Nat × LoopEntry) : Bool :=
  decide (e.1 < 256) && decide (1 ≤ e.2.period) && decide (e.2.period < 2 ^ 16) && decide (1 ≤ e.2.stages) &&
    decide (e.2.stages ≤ 4) && contIn o e.2.skip && contIn o e.2.exit

/-- Whether quad router `q` has port `n`: a mesh port points to another quad of the die, and port 8 is in column 0 only (16
R310). -/
def quadPort (q n : Nat) : Bool :=
  let row := q % 32 / 8
  let col := q % 8
  decide (n < 4) || (n == 4 && row != 0) || (n == 5 && col != 7) || (n == 6 && row != 3) || (n == 7 && col != 0) ||
    (n == 8 && col == 0)

/-- Whether a quad router or a die router has a port. -/
def unitPort (die : Bool) (unit n : Nat) : Bool := if die then decide (n < 5) else quadPort unit n

/-- Cores that a router serves. -/
def routerCores (die : Bool) : Nat := if die then 128 else 4

/-- The ports that an entry names exist in the router of a partition at a base. -/
def slotPorts (base : Nat) (e : SlotEntry) : Bool :=
  let u := base / routerCores e.die + e.router
  unitPort e.die u e.out && unitPort e.die u (fld e.bits.toNat 9 6)

/-- A slot-table entry of the object alone: fields, a router that the partition covers, and ports that exist at some base
(16 R310, R313; log entry 76). -/
def slotOk (size : Nat) (e : SlotEntry) : Bool :=
  let b := e.bits.toNat
  decide (e.slot < 256) && decide (fld b 0 3 = 0) && decide (fld b 3 6 = e.out) &&
    decide ((e.router + 1) * routerCores e.die ≤ size) && (List.range (2048 / size)).any fun i => slotPorts (i * size) e

/-- Two valid entries of one slot of one router name one input. -/
def slotClash (a b : SlotEntry) : Bool :=
  a.die == b.die && a.router == b.router && a.slot == b.slot && a.out != b.out && bitAt a.bits.toNat 15 == 1 &&
    bitAt b.bits.toNat 15 == 1 && fld a.bits.toNat 9 6 == fld b.bits.toNat 9 6

def spaceSize : DataSpace → Nat
  | .pocket => 327680 | .ring => 4194304 | .global => 2 ^ 52

/-- The bytes of a control store: two for each word, of at most `n` words (03 R56, 12 R247). -/
def storeOk (l : List Byte) (n : Nat) : Bool := l.length % 2 == 0 && decide (l.length ≤ 2 * n)

/-- Every table lies inside the limits of what it fills. -/
def tablesOk (o : Object) : Bool :=
  o.headerOk && o.functionsOk && (o.sections.all Section.accepted) && o.decisions.all (decisionOk o) && o.loops.all (loopOk o) && decide (o.conts.length ≤ 4096) &&
    (o.conts.isEmpty || contIn o o.entry) &&
    (o.conts.all fun b => match b.stub with | some f => decide (f < o.functions.length) | none => true) &&
    (o.layouts.all fun e => decide (e.1 < 64)) && (o.streams.all fun e => decide (e.1 < 16)) &&
    (o.noise.all fun e => decide (e.1 < 8)) && (o.grids.all fun e => decide (e.1 < 8)) &&
    (o.ttables.all fun t => decide (t.td < 8) && decide (t.first + t.segs.length ≤ 1024)) &&
    storeOk o.ceStore 1024 && storeOk o.tieStore 512 && storeOk o.fxStore 512 &&
    (o.slots.all (slotOk o.partSize)) && (o.slots.all fun a => o.slots.all fun b => !slotClash a b) &&
    (o.windows.all fun e => decide (e.1 < 8)) && (o.mailboxes.all fun e => decide (e.1 < 16)) &&
    (o.data.all fun d => decide (d.offset + d.bytes.length ≤ spaceSize d.space)) &&
    (o.live.all fun l => decide (l.bank < 8) && decide (l.first ≤ l.last) && decide (l.last < 8192))

def hasNative (o : Object) : Bool := o.generation == 9 && (o.conts.any fun b => b.stub.isNone || blockNative b)
def hasPortable (o : Object) : Bool := !o.functions.isEmpty

/-- The failure code of a load, the checks taken in code order (21 R394); `full` is whether the code heap has no room
(code 5). -/
def loadFailure (o : Object) (full : Bool) : Option Nat :=
  if o.magic ≠ 0x464C4245 || o.major ≠ 1 then some 1
  else if !o.notes.all noteOk then some 2
  else if [0, 1, 2].any fun p => usesProfile o p && !(o.notes.any fun n => n.profile == p) then some 3
  else if !tablesOk o then some 4
  else if full && hasPortable o then some 5
  else if !hasPortable o && !hasNative o then some 6
  else if 15 < (o.functions.filter fun f => f.taken).length then some 7
  else none

/-! ### The code heap (21 R398) -/

/-- The function that the vote of the first core of a portable switch chose: a call, or a jump to the entry of an address-taken function
(21 R384). -/
def State.votedFn (s : State) (p : Nat) : Next → Option Nat
  | .call fn => some fn
  | .indirect va _ => s.takenAt p va
  | _ => none

/-- A partition holds a function: it executes it, holds a return to it, or has a pending operation that chose it. -/
def State.holdsFn (s : State) (p : Nat) (e : HeapFn) : Bool :=
  let k := s.part p
  let isFn (r : RetEntry) : Bool := match r with
    | .portable fn _ _ => fn == e.fn
    | .cont c => s.stub p c == some e.fn
  k.handle == e.handle && k.size == e.size &&
    (k.rets.any isFn ||
      (match k.thread with
        | some t => t.fn == e.fn || (t.votes.head?.bind fun v => s.votedFn p v.2) == some e.fn
        | none => false) ||
      (match k.decision with
        | some d => (match s.outcome p d with | .switch c | .call c _ => s.stub p c == some e.fn | _ => false)
        | none => false))

/-- In use: a partition holds it, or a save area does. -/
def State.fnInUse (s : State) (e : HeapFn) : Bool := !e.saves.isEmpty || s.parts.any fun q => s.holdsFn q.1 e

/-- Chason evicts at most `n` functions that are not in use, the least recently used first: their indexes are stubs again. -/
def State.evict (s : State) (n : Nat) : State :=
  let out := (s.heap.filter fun e => !s.fnInUse e).take n
  { s with heap := s.heap.filter fun e => !out.contains e }

/-- The functions that a save area at `pa` names stay in use; an area that stood there before names none any more. -/
def State.pinSave (s : State) (p pa : Nat) : State :=
  { s with heap := s.heap.map fun (e : HeapFn) =>
      { e with saves := (e.saves.filter (· != pa)) ++ if s.holdsFn p e then [pa] else [] } }

/-- The code heap is a region of 1 GiB of HBM (01 R16). -/
def heapSize : Nat := 2 ^ 30

/-- Code of `n` bytes fits beside what the heap holds. -/
def State.heapFits (s : State) (n : Nat) : Bool := decide ((s.heap.map HeapFn.bytes).sum + n ≤ heapSize)

/-- Room for a translation of `n` bytes: where there is none, Chason evicts and tries once more. -/
def State.heapRoom (s : State) (n : Nat) : State × Bool :=
  if s.heapFits n then (s, true)
  else
    let (m, s) := s.draw
    let s := s.evict (Config.evictions m)
    (s, s.heapFits n)

/-- Bytes of the code that a load needs room for: that of the entry function at the declared size (log entry 48). -/
def loadBytes (o : Object) : Nat :=
  match objStub o o.partSize o.entry with
  | some fn => Config.codeBytes o o.partSize fn
  | none => 0

/-- A load answers a handle, or a code with the top bit set; the answer is what the host reads back. A load that fails leaves no
trace. -/
def execObjectLoad (o : Object) (s : State) : Out :=
  let s := s.popEvent
  let (t, room) := s.heapRoom (loadBytes o)
  match loadFailure o (!room) with
  | some c => .next { s with readback := leBytes 8 (2 ^ 63 + c) }
  | none =>
    let (m, s) := t.draw
    let l : Loaded := ⟨o, Config.textBase m % 2 ^ 36 * 65536⟩
    .next { s with objects := s.objects ++ [(BitVec.ofNat 64 s.nextHandle, l)]
                   nextHandle := s.nextHandle + 1
                   readback := leBytes 8 s.nextHandle }

/-- Translate a function for a partition size, where the heap has room for it: its stubs are replaced in one step (21 R398). -/
def State.translated (s : State) (h : Word) (fn size : Nat) : State × Bool :=
  if s.heap.any fun e => e.is h fn size then (s, true)
  else
    let n := match s.loaded h with | some l => Config.codeBytes l.obj size fn | none => 0
    let (s, room) := s.heapRoom n
    (if room then { s with heap := s.heap ++ [(⟨h, fn, size, n, []⟩ : HeapFn)] } else s, room)

/-- The partitions that a translation holds. -/
def State.awaiting (s : State) (h : Word) (fn : Nat) : List Nat :=
  (s.parts.filter fun e => e.2.handle == h &&
    (match e.2.trap with
      | some t => t.cls == .translationPending && t.trec.getD 3 0 == BitVec.ofNat 64 fn && !t.localRoute
      | none => false)).map (·.1)

/-- The translation that a partition waits for ends: it resumes; or the heap has no room, it stays trapped and the driver is told. -/
def State.endTranslation (s : State) (handle : Word) (fn p : Nat) : State :=
  let (s, room) := s.translated handle fn (s.part p).size
  if room then s.resumeTicks p else s.interrupt (entryVector p)

/-- Chason has translated a function, and every partition trapped on its stub resumes; or it has failed, the
partitions stay trapped and the driver is told (18 R346, 21 R398, R399). -/
def execChasonTranslationDone (handle : Word) (fn : Nat) (ok : Bool) (s : State) : Out :=
  let s := s.popEvent
  .next ((s.awaiting handle fn).foldl (fun s p => if ok then s.endTranslation handle fn p else s.interrupt (entryVector p)) s)

/-! ### Routers and paths (16 R310 to R316) -/

/-- A table's number: quad routers by quad, die routers, the package switch, Yelnar ports. -/
def quadTable (q out : Nat) : Nat := q * 9 + out
def dieTable (d out : Nat) : Nat := 4608 + d * 5 + out
def switchTable (out : Nat) : Nat := 4688 + out
def portTable (n : Nat) : Nat := 4737 + n

def slotKey (table slot : Nat) : Nat := 256 * table + slot

/-- The object's entries as they stand in the module's tables at a base: those of routers that a partition of the size
covers (16 R314) and of ports that exist there (log entry 76). -/
def objectSlots (o : Object) (base size : Nat) : List (Nat × BitVec 16) :=
  (o.slots.filter fun e => decide ((e.router + 1) * routerCores e.die ≤ size) && slotPorts base e).map fun e =>
    (slotKey (if e.die then dieTable (base / 128 + e.router) e.out else quadTable (base / 4 + e.router) e.out) e.slot, e.bits)

/-- The first and last key of the router that holds a table. -/
def routerKeys (table : Nat) : Nat × Nat :=
  if table < 4608 then (slotKey (table / 9 * 9) 0, slotKey (table / 9 * 9 + 9) 0)
  else if table < 4688 then
    let d := (table - 4608) / 5
    (slotKey (dieTable d 0) 0, slotKey (dieTable (d + 1) 0) 0)
  else (slotKey table 0, slotKey (table + 1) 0)

/-- An entry as it is in force: an object's where an object supplies the router, else the plan's (16 R314). -/
def slotInForce (plan own : Tbl (BitVec 16)) (table slot : Nat) : BitVec 16 :=
  let (a, b) := routerKeys table
  if own.any fun e => decide (a ≤ e.1) && decide (e.1 < b) then tget 0 own (slotKey table slot)
  else tget 0 plan (slotKey table slot)

structure Hop where
  table : Nat
  input : Nat
  seam  : Bool
  deriving DecidableEq, Repr

/-- Hops from quad to quad: `out` leaves, `next` is the input it enters by, and quads differ by `step`. -/
def meshHops (out next : Nat) (step : Int) : Nat → Nat → Nat → List Hop × Nat × Nat
  | 0, q, inp => ([], q, inp)
  | n + 1, q, inp =>
    let q' := ((q : Int) + step).toNat
    let (l, e) := meshHops out next step n q' next
    (⟨quadTable q out, inp, q / 4 != q' / 4⟩ :: l, e)

/-- East or west to a column. -/
def columnHops (col q inp : Nat) : List Hop × Nat × Nat :=
  if q % 8 ≤ col then meshHops 5 7 1 (col - q % 8) q inp else meshHops 7 5 (-1) (q % 8 - col) q inp

/-- South or north to a row. -/
def rowHops (row q inp : Nat) : List Hop × Nat × Nat :=
  let r := q % 32 / 8
  if r ≤ row then meshHops 6 4 8 (row - r) q inp else meshHops 4 6 (-8) (r - row) q inp

/-- The path from core `a` to core `b` (16 R311). -/
def pathHops (a b : Nat) : List Hop :=
  let qa := a / 4
  let qb := b / 4
  if a / 128 = b / 128 then
    let (x, q, i) := columnHops (qb % 8) qa (a % 4)
    let (y, q, i) := rowHops (qb % 32 / 8) q i
    x ++ y ++ [⟨quadTable q (b % 4), i, false⟩]
  else
    let da := a / 128
    let db := b / 128
    let (x, q, i) := columnHops 0 qa (a % 4)
    let rb := qb % 32 / 8
    let (y, q', i') := columnHops (qb % 8) (32 * db + 8 * rb) 8
    x ++ [⟨quadTable q 8, i, false⟩, ⟨dieTable da 4, q % 32 / 8, false⟩, ⟨switchTable db, da, false⟩,
      ⟨dieTable db rb, 4, false⟩] ++ y ++ [⟨quadTable q' (b % 4), i', false⟩]

/-- The largest gap between consecutive slots, the last and the first being consecutive. -/
def largestGap : Nat → List Nat → Nat
  | _, [] => 0
  | first, [a] => first + 256 - a
  | first, a :: b :: l => max (b - a) (largestGap first (b :: l))

/-- G_h (16 R315). -/
def hopGap (t : Nat → BitVec 16) (input : Nat) : Nat :=
  match (List.range 256).filter fun i => bitAt (t i).toNat 15 == 1 && fld (t i).toNat 9 6 == input with
  | a :: b :: l => largestGap a (a :: b :: l)
  | _ => 256

/-- The transit bound of a path. -/
def transitBound (plan own : Tbl (BitVec 16)) (l : List Hop) : Nat :=
  l.foldl (fun t h => t + 2 + hopGap (slotInForce plan own h.table) h.input + if h.seam then 4 else 0) 0

def transitBudget (loose : Bool) (a b : Nat) : Nat :=
  if a / 4 = b / 4 then (if loose then 7 else 13)
  else if a / 128 = b / 128 then (if loose then 19 else 41)
  else if loose then 55 else 103

/-- Whether some ordered pair of the partition's cores exceeds its budget. -/
def budgetExceeded (plan own : Tbl (BitVec 16)) (loose : Bool) (cores : List Nat) : Bool :=
  cores.any fun a => cores.any fun b => a != b && decide (transitBudget loose a b < transitBound plan own (pathHops a b))

/-! ### Launch entries (19 R359 to R361) -/

def Entry.word (e : Entry) (i : Nat) : Nat := (tget (0 : Word) e.words i).toNat
def Entry.base (e : Entry) : Nat := fld (e.word 1) 0 11
def Entry.log2 (e : Entry) : Nat := fld (e.word 1) 11 4
def Entry.size (e : Entry) : Nat := 2 ^ e.log2
def Entry.loose (e : Entry) : Bool := bitAt (e.word 1) 15 == 1
def Entry.pers (e : Entry) : Bool := bitAt (e.word 1) 16 == 1
def Entry.dbg (e : Entry) : Bool := bitAt (e.word 1) 17 == 1
def Entry.held (e : Entry) : Bool := bitAt (e.word 1) 18 == 1
def Entry.gv (e : Entry) : Bool := bitAt (e.word 1) 19 == 1
def Entry.groupId (e : Entry) : Nat := fld (e.word 1) 20 8
def Entry.cont (e : Entry) : Nat := fld (e.word 1) 28 12
def Entry.handle (e : Entry) : Word := tget (0 : Word) e.words 2
def Entry.pulse (e : Entry) : Nat := fld (e.word 3) 0 32
def Entry.flim (e : Entry) : Nat := fld (e.word 3) 32 32
def Entry.asid (e : Entry) : Nat := fld (e.word 12) 0 16
def Entry.l1pa (e : Entry) : Nat := fld (e.word 13) 15 37 * 2 ^ 15

/-- TROUTE bits that read 0: 0x12, 0x13 and 0x16. -/
def routeBits : Word := ~~~(0x4C0000 : Word)

def Entry.busy (e : Entry) : Bool := decide (1 ≤ e.state.toNat) && decide (e.state.toNat ≤ 4)

/-- A refusal leaves the state unchanged and raises the entry's interrupt (19 R360). -/
def State.refuse (s : State) (e code : Nat) : State :=
  (s.modEntry e fun k => { k with refusal := BitVec.ofNat 8 code }).interrupt (entryVector e)

def overlapCores (a b : Entry) : Bool := decide (a.base < b.base + b.size) && decide (b.base < a.base + a.size)

/-- The continuation a launch begins with, where the object has it for this size (21 R394). -/
def launchCont (o : Object) (cont size : Nat) : Option Nat :=
  let c := if cont = 0xFFF then o.entry else cont
  match listNth o.conts c with
  | some b => if b.stub.isSome || (o.partSize == size && o.generation == 9) then some c else none
  | none => none

/-- Entries of an object's tables laid over those in force. -/
def overlaySlots (t : Tbl (BitVec 16)) (l : List (Nat × BitVec 16)) : Tbl (BitVec 16) :=
  l.foldl (fun t e => tset 0 t e.1 e.2) t

/-- The checks of R360 in code order: the first that fails. Codes 0x1A and 0x1B refuse every submission and come
first (log entry 27). -/
def State.submitRefusal (s : State) (e : Nat) : Option Nat :=
  let k := s.entry e
  let l := s.loaded k.handle
  if s.ready ≠ 1 then some 0x1A
  else if !s.granted then some 0x1B
  else if k.base % k.size ≠ 0 || 2048 < k.base + k.size then some 0x10
  else if s.entries.any fun x => x.1 != e && x.2.busy && overlapCores k x.2 then some 0x11
  else match l with
    | none => some 0x13
    | some l =>
      let o := l.obj
      if o.loose != k.loose then some 0x12
      else if (launchCont o k.cont k.size).isNone then some 0x14
      else if budgetExceeded s.plan (overlaySlots s.slots (objectSlots o k.base k.size)) k.loose
          ((List.range k.size).map (k.base + ·)) then some 0x15
      else if k.gv && !groupValid (s.groupWord k.groupId) then some 0x16
      else if k.pers && k.pulse == 0 then some 0x17
      else if fld (k.word 1) 40 24 ≠ 0 || fld (k.word 12) 16 48 ≠ 0 || fld (k.word 13) 52 12 ≠ 0 || fld (k.word 13) 0 15 ≠ 0 then
        some 0x18
      else none

/-- Begin loading an entry: it is armed, and loading at once (19 R362). -/
def State.beginLoading (s : State) (e : Nat) (restore : Option Nat) : State :=
  s.modEntry e fun k =>
    { k with state := 3, late := false, done := false, quiesced := false, saved := false, loaded := false, start := 0
             restore := restore, cls := 0, trec := [] }

def execSubmit (e : Fin 1024) (s : State) : Out :=
  let s := s.popEvent
  let k := s.entry e.val
  if k.busy then .next (s.refuse e.val 0x19)
  else match s.submitRefusal e.val with
    | some c => .next (s.refuse e.val c)
    | none =>
      .next (if k.held then s.modEntry e.val fun k => { k with state := 1 } else s.beginLoading e.val none)

def execWithdraw (e : Fin 1024) (s : State) : Out :=
  let s := s.popEvent
  if !s.granted then .next s
  else
    let k := s.entry e.val
    .next (if k.state = 1 || k.state = 2 then s.modEntry e.val fun k => { k with state := 0 } else s.refuse e.val 0x19)

/-- SPAWN arms an entry that is held (05 R129). -/
def State.doArm (s : State) (e : Nat) : State :=
  if (s.entry e).state = 1 then s.beginLoading e none else s.refuse e 0x19

def execLaunchEntryWrite (e : Fin 1024) (i : Fin 14) (w : Word) (s : State) : Out :=
  let s := s.popEvent
  if !s.granted then .next s
  else if (s.entry e.val).busy then .next (s.refuse e.val 0x19)
  else .next (s.modEntry e.val fun k => { k with words := tset 0 k.words i.val w })

/-- Word 14 may be written in any state; at a tick boundary it takes effect at once (19 R359). -/
def execTrouteWrite (e : Fin 1024) (w : Word) (s : State) : Out :=
  let s := s.popEvent
  if !s.granted then .next s
  else
    let v := w &&& routeBits
    let s := s.modEntry e.val fun k => { k with words := tset 0 k.words 14 v }
    .next (if (tfind s.parts e.val).isSome then s.modPart e.val fun k => { k with troute := v } else s)

/-! ### Throttle sets (19 R365 to R367) -/

def regionsOf (base size : Nat) : List Nat := (List.range 128).filter fun j => decide (base / 16 ≤ j) && decide (j ≤ (base + size - 1) / 16)

def Part.regions (k : Part) : List Nat := regionsOf k.base k.size

/-- An entry that has loaded and waits for its start: its cores and regions are taken. -/
def Entry.waits (e : Entry) : Bool := e.state == 3 && e.loaded

/-- The regions of each gang: a partition, a joined group, or an entry that waits for its start. -/
def State.gangs (s : State) : List (List Nat) :=
  (s.parts.map fun e => (s.members e.1).flatMap fun q => (s.part q).regions) ++
    (s.entries.filter fun e => e.2.waits).map fun e => regionsOf e.2.base e.2.size

def growSet (gangs : List (List Nat)) (l : List Nat) : List Nat :=
  gangs.foldl (fun acc g => if g.any acc.contains then acc ++ (g.eraseDups.filter fun r => !acc.contains r) else acc) l

def growTimes (gangs : List (List Nat)) : Nat → List Nat → List Nat
  | 0, l => l
  | n + 1, l => growTimes gangs n (growSet gangs l)

/-- The throttle set of some regions. -/
def State.throttleSet (s : State) (l : List Nat) : List Nat := growTimes s.gangs s.gangs.length l

/-- Every throttle set that hosts something. -/
def State.throttleSets (s : State) : List (List Nat) :=
  s.gangs.foldl (fun acc g => if acc.any fun t => g.any t.contains then acc else acc ++ [s.throttleSet g]) []

def State.step_ (s : State) (r : Nat) : Nat := fld (tget 0 s.freq r).toNat 0 4
def State.setLow (s : State) (l : List Nat) : Nat := l.foldl (fun m r => min m (s.step_ r)) 15

/-- Whether a throttle set may change step now: once in any 100 µs. -/
def State.windowPassed (s : State) (l : List Nat) : Bool :=
  l.all fun r => match tfind s.stepAt r with | some w => decide (w + 100000 ≤ s.wall) | none => true

def freqWord (reloc gated : Bool) (f : Nat) : BitVec 10 :=
  BitVec.ofNat 10 ((if reloc then 512 else 0) + (if gated then 256 else 0) + f % 16)

/-- A throttle set changes step: its regions relock and every partition of the set freezes (19 R367). -/
def State.changeStep (s : State) (l : List Nat) (f : Nat) : State :=
  let s := { s with freq := l.foldl (fun t r => tset 0 t r (freqWord true false f)) s.freq
                    stepAt := l.foldl (fun t r => tput t r s.wall) s.stepAt }
  s.parts.foldl (fun s e =>
    if e.2.regions.any l.contains && !e.2.waits.contains .pll then
      s.modPart e.1 fun k => { k.freeze s.wall with waits := k.waits ++ [.pll] }
    else s) s

/-- Regions that a joined group brings into one throttle set step to the lowest step among them (01 R26, 19 R366; log entry
77). -/
def State.joinSteps (s : State) (p : Nat) : State :=
  let l := (s.throttleSet ((s.members p).flatMap fun q => (s.part q).regions)).eraseDups
  let f := s.setLow l
  if l.any fun r => s.step_ r != f then s.changeStep l f else s

/-- A full barrier group goes on together (05 R118): the regions of a group that joins step together from then on. -/
def execBarrierRelease (g : Nat) (s : State) : Out :=
  let s := s.popEvent
  if !s.barrierFull g then .next s
  else
    let l := (roundOf (tget [] s.arrivals g)).1.filterMap fun a => a.part
    .next (l.foldl State.joinSteps (s.releaseGroup g false))

/-- A pod group releases at its wall-time target, or when its count completes (16 R329). It never joins. -/
def execPodBarrierRelease (g : Nat) (s : State) : Out :=
  let s := s.popEvent
  if !(s.podFull g && decide (s.podTarget g ≤ s.wall)) then .next s
  else .next (s.releaseGroup g (s.podLate g))

/-- A region that hosts nothing is gated at step 0. -/
def State.gateRegions (s : State) (l : List Nat) : State :=
  { s with freq := l.foldl (fun t r =>
      if s.gangs.any fun g => g.contains r then t else tset 0 t r (freqWord false true 0)) s.freq }

/-- A member that is killed, or whose cores are free, has not arrived at its barrier group any more: no release counts it (05
R118). -/
def State.leaveBarrier (s : State) (p : Nat) : State :=
  let stay : Tbl (List Arrival) := s.arrivals.map fun g => (g.1, g.2.filter fun a => a.part != some p)
  { s with arrivals := stay.filter fun g => !g.2.isEmpty }

/-- The cores of a partition are free: its place in the table of partitions goes. -/
def State.freePart (s : State) (p : Nat) : State :=
  let k := s.part p
  ({ s with parts := tdel s.parts p }.leaveBarrier p).gateRegions k.regions

/-- The tables that a partition's object installed give way to the plan's (16 R314). -/
def State.dropSlots (s : State) (p : Nat) : State :=
  match s.objOf p with
  | some o => { s with slots := (objectSlots o (s.part p).base (s.part p).size).foldl (fun t e => tdel t e.1) s.slots }
  | none => s

/-! ### Loading (19 R362) -/

/-- Whether a page that a GLOBAL block touches is mapped, writable and in HBM: its physical base. -/
def globalPage (m : Memory) (asid l1 va : Nat) : Option Nat :=
  match walk m asid l1 va with
  | none => none
  | some e =>
    let leaf := e.leaf.toNat
    let pa := leaf / 2 ^ 15 * 2 ^ 15 + (va - e.va)
    if fld leaf 6 2 = 0 && bitAt leaf 3 == 1 && hbmMapped pa then some pa else none

/-- The bytes of a block cut at pages of 64 KiB. -/
def pageCuts : Nat → Nat → List Byte → List (Nat × List Byte)
  | 0, _, _ => []
  | n + 1, va, l =>
    if l.isEmpty then []
    else (va, l.take (65536 - va % 65536)) :: pageCuts n (va + (65536 - va % 65536)) (l.drop (65536 - va % 65536))

/-- The GLOBAL data of an object as physical runs; none when a page is refused. -/
def globalRuns (m : Memory) (asid l1 : Nat) (o : Object) : Option (List (Nat × List Byte)) :=
  ((o.data.filter fun d => d.space == .global).flatMap fun d => pageCuts (d.bytes.length + 1) d.offset d.bytes).mapM
    fun (va, l) => (globalPage m asid l1 va).map fun pa => (pa, l)

def fillMemory (m : Memory) (l : List DataBlock) : Memory := l.foldl (fun m d => Memory.writeBytes m d.offset d.bytes) m

/-- A table with the listed indexes set. -/
def putAll {α : Type} [DecidableEq α] (d : α) (l : List (Nat × α)) : Tbl α := l.foldl (fun t e => tset d t e.1 e.2) []

/-- Engine words as they are stored: little-endian, two bytes for each index (03 R56). -/
def engineWords : List Byte → List (BitVec 16)
  | a :: b :: l => BitVec.ofNat 16 (leNat [a, b]) :: engineWords l
  | _ => []

/-- A control store from its bytes: words past their end are 0xF000 (12 R247). -/
def storeTable (l : List Byte) : Tbl (BitVec 16) := putAll 0xF000 ((engineWords l).zipIdx.map fun (w, i) => (i, w))

def dataIn (o : Object) (space : DataSpace) : List DataBlock := o.data.filter fun (d : DataBlock) => d.space == space

/-- The segments of an object's TIE tables, each with its index. -/
def tieSegs (o : Object) : List (Nat × BitVec 128) :=
  o.ttables.flatMap fun (e : TieTable) => e.segs.zipIdx.map fun (v, i) => (e.first + i, v)

/-- The bits of a window register that are not reserved (16 R317). -/
def windowBits : Word := 0x80FF1FFFFF80FFFF

/-- A core as an object leaves it before the launch values (19 R362, 12 R247, 16 R317). -/
def Core.ofObject (o : Object) (modNum : Nat) : Core :=
  let k := { Core.reset with
    st := putAll 0 o.streams
    lt := putAll 0 o.layouts
    ns := putAll ⟨0, 0, 0⟩ o.noise
    win := if o.windows.isEmpty then [(0, windowZero modNum)] else putAll 0 (o.windows.map fun (e : Nat × Word) => (e.1, e.2 &&& windowBits))
    mb := putAll 0 o.mailboxes
    pocket := fillMemory [] (dataIn o .pocket)
    ring := fillMemory [] (dataIn o .ring)
    tds := putAll 0 (o.ttables.map fun (e : TieTable) => (e.td, e.desc))
    segs := putAll 0 (tieSegs o) }
  ((k.modEng 0 fun g => { g with store := storeTable o.ceStore }).modEng 1
    fun g => { g with store := storeTable o.tieStore }).modEng 2 fun g => { g with store := storeTable o.fxStore }

/-- What a core loads over keeps its TLB and its instruction caches, which no launch empties (01 R16, 07 R174). -/
def Core.keeping (k old : Core) : Core := { k with tlb := old.tlb, icache := old.icache }

/-- The launch entry's mailbox values, and the argument registers of portable code (06 R134, 21 R379). -/
def Core.launch (k : Core) (e : Entry) (portable : Bool) : Core :=
  let k := { k with mb := (List.range 8).foldl (fun t i => tset 0 t i (tget 0 e.words (4 + i))) k.mb }
  let k := { k with mbSeen := k.mb }
  if portable then (List.range 8).foldl (fun (k : Core) i => k.setX (10 + i) ⟨k.getMb i, false⟩) k else k

/-- The start point of an entry whose loading ends now, and whether it is late (19 R362). -/
def startPoint (wall now : Nat) : Nat × Bool :=
  let t := (wall / 1000 + 1) * 1000
  if t < now then ((now / 1000 + 1) * 1000, true) else (t, false)

/-- Whether the throttle set that the entry's partition forms must change step, and to which (19 R366). -/
def State.launchStep (s : State) (k : Entry) : List Nat × Nat × Bool :=
  let l := s.throttleSet (regionsOf k.base k.size)
  let f := min (s.setLow l) s.fcap.toNat
  (l, f, l.any fun r => s.step_ r != f)

/-- Loading can end: a step change that it needs is allowed now. -/
def State.loadReady (s : State) (e : Nat) : Bool :=
  let k := s.entry e
  let (l, _, change) := s.launchStep k
  k.state == 3 && !k.loaded && (!change || s.windowPassed l)

/-- Set the regions of a starting partition to their throttle set's lowest step. -/
def State.settleStep (s : State) (k : Entry) : State :=
  let (l, f, change) := s.launchStep k
  if change then s.changeStep l f
  else { s with freq := l.foldl (fun t r => tset 0 t r (freqWord (bitAt (tget 0 t r).toNat 9 == 1) false f)) s.freq }

/-- The entry function is translated while the entry loads; where Chason has no room it stays a stub (21 R395, R397). -/
def State.translateEntry (s : State) (k : Entry) (o : Object) : State :=
  match (launchCont o k.cont k.size).bind (objStub o k.size) with
  | some fn => (s.translated k.handle fn k.size).1
  | none => s

def launchesPortable (o : Object) (k : Entry) : Bool :=
  match launchCont o k.cont k.size with
  | some c => (objStub o k.size c).isSome
  | none => false

/-- The start of an entry is fixed, and its object's slot tables are in force. -/
def State.loadingEnds (s : State) (e : Nat) (o : Object) : State :=
  let k := s.entry e
  let (t, late) := startPoint (k.word 0) s.wall
  let s := { s with slots := overlaySlots s.slots (objectSlots o k.base k.size) }
  (s.settleStep k).modEntry e fun k => { k with loaded := true, start := t, late := late }

/-- The object and the words of the entry are loaded into the cores of its partition. -/
def State.loadCores (s : State) (k : Entry) (o : Object) : State :=
  let one := (Core.ofObject o s.modNum).launch k (launchesPortable o k)
  (List.range k.size).foldl (fun (s : State) i => s.modCore (k.base + i) one.keeping) s

/-- Loading of a fresh launch: cores, and last GLOBAL data; refusal 0x1D empties the entry and writes none of that data (19 R360,
R362). -/
def State.loadFresh (s : State) (e : Nat) (o : Object) : State :=
  let k := s.entry e
  let s := s.loadCores k o
  match globalRuns s.hbm k.asid k.l1pa o with
  | none => (s.modEntry e fun k => { k with state := 0 }).refuse e 0x1D
  | some runs =>
    let s := runs.foldl (fun (s : State) (r : Nat × List Byte) =>
      s.performWrite none (.hbm r.1) r.2 (2 ^ (8 * r.2.length) - 1) false) s
    (s.translateEntry k o).loadingEnds e o

/-! ### Start and completion (05 R126, 19 R362, 18 R352) -/

/-- A partition as it starts. -/
def Entry.part (k : Entry) : Part :=
  { Part.absent with
    handle := k.handle, base := k.base, n := k.log2, loose := k.loose, run := true, pulse := k.pulse, flim := k.flim
    asid := k.asid, l1pa := k.l1pa, troute := tget 0 k.words 14 &&& routeBits
    group := if k.gv then some k.groupId else none }

/-- The launch copy runs where the launch enters the object's entry function; any other function returns as R384 says (22 R400; log
entry 103). -/
def State.setLaunch (s : State) (p : Nat) (entry : Option Nat) : State :=
  s.modPart p fun k => { k with thread := k.thread.map fun t => { t with launch := entry == some t.fn } }

/-- A debug-hold entry starts frozen at its tick 0 (18 R352). -/
def State.debugHold (s : State) (p : Nat) : State :=
  s.addCond p ⟨(s.part p).tick, .debugStep, s.hubWho p, 2, .continue_⟩

def State.startFresh (s : State) (e : Nat) (o : Object) : State :=
  let k := s.entry e
  let s := s.setPart e { k.part with startAt := some k.start }
  (s.switchCont e ((launchCont o k.cont k.size).getD 0)).setLaunch e (entryFn o k.size)

/-- The parts of starting that a fresh launch and a restore share. -/
def State.started (s : State) (e : Nat) : State :=
  let k := s.entry e
  let s := s.modEntry e fun k => { k with state := 4 }
  let s := if (s.part e).regions.any fun r => bitAt (tget 0 s.freq r).toNat 9 == 1 then
      s.modPart e fun k => { k.freeze s.wall with waits := [.pll] }
    else s
  let s := if k.late then s.interrupt (entryVector e) else s
  if k.dbg then s.debugHold e else s

def idleEngine (g : Engine) : Bool := !g.running && g.cmds.isEmpty && g.endAt.isNone
/-- The result entries that only their tick holds back have landed. -/
def State.landedResults (s : State) (p c e : Nat) : Bool :=
  ((s.core c).getEng e).results.all fun r => r.landed || !s.resultFree p c e r

def State.enginesIdle (s : State) (p : Nat) : Bool :=
  (s.part p).cores.all fun c => [0, 1, 2].all fun i => idleEngine ((s.core c).getEng i) && s.landedResults p c i

/-- Work whose arrival only an acknowledgement or a result tells: it does not set the completion tick (05 R126). -/
def Act.untimed : Act → Bool
  | .beatSample b | .beatLand b _ _ _ => b.untimed.isSome
  | .fxRow .. | .fxLand .. | .emit .. => true
  | .gridArrive e => e.launch.isSome
  | _ => false

/-- What is no landing: a fence's look at the accesses before it, and TOUCH, which moves no data and changes wall time only
(07 R186, R188). -/
def Act.idle : Act → Bool
  | .touch _ | .fenceWait .. => true
  | _ => false

/-- STOP has taken effect and nothing timed of the partition is left; what has arrived of others (place 9) is none of its landings. -/
def State.partFinished (s : State) (p : Nat) : Bool :=
  let k := s.part p
  k.run && k.stop.isSome && !k.complete && (k.pend.all fun d => d.place == 9 || d.act.untimed || d.act.idle) && s.enginesIdle p

/-- The partition is complete: its tick is the completion tick, and its object's tables are in force no more. Untimed
work that is left goes on in wall time. -/
def execPartitionComplete (p : Nat) (s : State) : Out :=
  let s := s.popEvent
  if !s.partFinished p then .next s
  else .next ((s.dropSlots p).modPart p fun k => { k with complete := true })

def State.postedNone (s : State) (p : Nat) : Bool := (s.part p).cores.all fun c => (s.core c).posted.isEmpty

def State.entryFinished (s : State) (p : Nat) : Bool :=
  let k := s.part p
  k.run && k.complete && k.pend.isEmpty && k.lateWrites.isEmpty && k.untimed.isEmpty && s.postedNone p

/-- Every untimed write has been performed: done, and the cores are free (05 R126). -/
def execEntryDone (p : Nat) (s : State) : Out :=
  let s := s.popEvent
  if !s.entryFinished p then .next s
  else .next (((s.freePart p).modEntry p fun e => { e with state := 5, done := true }).interrupt (entryVector p))

/-! ### Barrier groups (19 R363) -/

/-- A counter of the diagnostic page: saturating (19 R373). A change of the page raises vector 0 (19 R355). -/
def State.countDiag (s : State) (i : Nat) : State :=
  if tget 0 s.diagCount i = BitVec.allOnes 64 then s
  else { s with diagCount := tset 0 s.diagCount i (tget 0 s.diagCount i + 1) }.interrupt 0

/-- A change while a member is armed, loading or running is ignored and counted. -/
def execBarrierGroupWrite (g : Fin 256) (w : Word) (s : State) : Out :=
  let s := s.popEvent
  if !s.granted then .next s
  else if s.entries.any fun e => e.2.inGroup g.val && decide (2 ≤ e.2.state.toNat) then .next (s.countDiag 2)
  else .next { s with groups := tset 0 s.groups g.val (w &&& 0x3FFFFFFFF) }

end Sys2Proof.Machine
end

