-- ==== Sys2Proof/Machine/Save.lean ====
section
/-! DEFINITION. Pre-emption, the save area and RESTORE (18 R347 to R351), and the two events that begin a partition:
LOADING_DONE and PARTITION_START (19 R362). -/

namespace Sys2Proof.Machine

/-! ### The save area (18 R349, R350) -/

/-- A field of a save area: byte offset, bytes and value, little-endian. -/
abbrev SaveField := Nat × Nat × Nat

/-- Fields of equal size from an offset, one for each index below `n`. -/
def fieldRun (off size n : Nat) (f : Nat → Nat) : List SaveField := (List.range n).map fun i => (off + size * i, size, f i)

/-- Live ring rows of an object: byte offsets in the ring store, in `.live` order. -/
def liveRows (o : Object) : List Nat :=
  o.live.flatMap fun (l : LiveRegion) => (List.range (l.last - l.first + 1)).map fun i => ((l.first + i) * 8 + l.bank) * 64

/-- Z, the bytes of a core block. -/
def blockSize (o : Object) : Nat := (0x2A0000 + 64 * (liveRows o).length + 65535) / 65536 * 65536

def bitsOf (n : Nat) (f : Nat → Bool) : Nat := (List.range n).foldl (fun acc i => acc + if f i then 2 ^ i else 0) 0

def levelFields (k0 : Nat) (inner : Bool) (off : Nat) (l : Level) : List SaveField :=
  [(off, 1, l.id), (off + 1, 1, 1), (off + 2, 1, l.entry.stages), (off + 4, 4, l.clock % 2 ^ 32), (off + 8, 8, l.count.toNat),
    (off + 16, 8, (if inner then k0 else l.period) % 2 ^ 64)]

/-- Loop levels, outermost first: the list has the innermost first. -/
def loopFields (k0 : Nat) (l : List Level) : List SaveField :=
  (l.reverse.zipIdx).flatMap fun (x, i) => levelFields k0 (i + 1 == l.length) (0x280 + 32 * i) x

/-- The continuation index of a return-stack entry (18 R350, 21 R397). -/
def retIndex (o : Object) (size : Nat) (loose : Bool) : RetEntry → Nat
  | .cont i => i
  | .portable fn off launch => portableCont o size loose fn launch off

/-- The return-stack entry that an index of a save area stands for (21 R397). -/
def retOf (o : Object) (size : Nat) (loose : Bool) (i : Nat) : RetEntry :=
  match (contIndexes o size loose).find? fun e => e.2 == i with
  | some (c, _) => .portable c.fn c.off c.launch
  | none => .cont i

def queueFields (k : Core) : List SaveField :=
  ([0, 1, 2, 3, 4, 5].flatMap fun q => (k.getQueue q).zipIdx.map fun (e, i) => (0x2000 + 1024 * q + 64 * i, 64, e.v.toNat)) ++
    ([8, 9, 10, 11, 12, 13].flatMap fun q => (k.getQueue q).zipIdx.map fun (e, i) =>
      (0x3800 + 64 * (q - 8) + 8 * i, 8, e.v.toNat % 2 ^ 64)) ++
    fieldRun 0x3980 1 16 (fun q => (k.getQueue q).length) ++
    fieldRun 0x3990 2 16 (fun q => bitsOf 16 fun i => match listNth (k.getQueue q) i with | some e => e.p | none => false)

def resultFields (k : Core) : List SaveField :=
  ([0, 1, 2].flatMap fun e => (k.getEng e).results.zipIdx.map fun (r, i) => (0x3A00 + 128 * e + 8 * i, 8, r.v.toNat)) ++
    fieldRun 0x3B80 1 3 fun e => (k.getEng e).results.length

/-- The descriptor image with the rules as GBC left them. -/
def Grid.image (g : Grid) : Nat :=
  faces.foldl (fun v f =>
    let lo := 512 + 32 * f + 19
    v - fld v lo 3 * 2 ^ lo + (g.rule f).code * 2 ^ lo) g.desc.toNat

def stampValue (x : Option (BitVec 32)) : Nat := match x with | some v => v.toNat | none => 0

def gridFields (off : Nat) (g : Grid) : List SaveField :=
  [(off, 128, if g.defined then g.image else 0), (off + 176, 4, g.step.toNat), (off + 180, 1, if g.defined then 1 else 0)] ++
    fieldRun (off + 128) 8 6 (fun f => (tget 0 g.const f).toNat) ++
    fieldRun (off + 184) 4 6 (fun f => (g.sentAt f).toNat) ++
    fieldRun (off + 208) 4 6 (fun f => (g.gotAt f).toNat) ++
    fieldRun (off + 232) 4 6 (fun f => stampValue (tfind g.held f)) ++
    [(off + 256, 1, bitsOf 6 fun f => (tfind g.held f).isSome)] ++
    fieldRun (off + 260) 4 2 (fun b => stampValue (g.interior b)) ++
    fieldRun (off + 268) 4 96 (fun i => stampValue (tfind g.hem i)) ++
    [(off + 652, 16, bitsOf 104 fun i =>
      if i < 2 then (g.interior i).isSome else if i < 98 then (tfind g.hem (i - 2)).isSome else g.defined)]

def accFields (off : Nat) (a : SubArray) (i : Nat) : List SaveField :=
  let r := a.row i
  (off + 0x9000 + 4 * i, 4, r.count % 128 + r.pint % 128 * 2 ^ 7 + r.flags.toNat * 2 ^ 14 + (if r.p then 2 ^ 19 else 0) +
      (if r.int then 2 ^ 20 else 0)) ::
    r.el.map fun e => (off + 0xA000 + 512 * i + 8 * e.1, 8, e.2.toNat)

def subArrayFields (off : Nat) (a : SubArray) : List SaveField :=
  [(off, 1, a.cfg.fmtA.code), (off + 1, 1, a.cfg.fmtB.code), (off + 2, 1, a.cfg.planes), (off + 3, 1, a.cfg.acc.code),
    (off + 4, 1, a.cfg.pro), (off + 5, 1, if a.power == .awake then 1 else 0), (off + 6, 1, a.active.fmt.code),
    (off + 7, 1, a.back.fmt.code), (off + 8, 1, bitsOf 2 fun i => if i = 0 then a.active.p else a.back.p)] ++
    fieldRun (off + 0x1000) 64 256 (fun j => (a.active.word j).toNat) ++
    fieldRun (off + 0x5000) 64 256 (fun j => (a.back.word j).toNat) ++
    (List.range 1024).flatMap (accFields off a)

/-- The registers of a core block. -/
def registerFields (s : State) (p c : Nat) : List SaveField :=
  let k := s.core c
  fieldRun 0 8 32 (fun r => (k.getX r).v.toNat) ++ fieldRun 0x100 8 16 (fun r => (k.getC r).v.toNat) ++
    fieldRun 0x180 8 16 (fun r => (k.getMb r).toNat) ++
    [(0x200, 8, k.fflags.toNat), (0x208, 8, k.vstat.toNat), (0x210, 8, k.tvec.toNat), (0x218, 8, k.mgate.toNat),
      (0x220, 2, k.flags.toNat), (0x222, 1, s.guardImage p c), (0x223, 1, if k.poisonSeen then 1 else 0),
      (0x224, 4, bitsOf 32 fun r => (k.getX r).p), (0x228, 2, bitsOf 16 fun r => (k.getC r).p),
      (0x22A, 1, bitsOf 8 fun r => (k.getK r).p), (0x22C, 4, bitsOf 32 fun r => (k.getV r).p)] ++
    fieldRun 0x400 32 16 (fun i => (k.getSt i).toNat) ++ fieldRun 0x600 64 64 (fun i => (k.getLt i).toNat) ++
    (List.range 8).flatMap (fun i =>
      [(0x1600 + 48 * i, 16, (k.getNs i).key.toNat), (0x1610 + 48 * i, 16, (k.getNs i).ctr.toNat),
        (0x1620 + 48 * i, 8, (k.getNs i).stride.toNat)]) ++
    fieldRun 0x1780 8 8 (fun i => (k.getWin i).toNat) ++ fieldRun 0x17C0 8 8 (fun i => (k.getK i).v.toNat) ++
    fieldRun 0x1800 64 32 (fun i => (k.getV i).v.toNat)

/-- The stacks, stores and poison bits of a core block. -/
def storeFields (o : Object) (k : Core) : List SaveField :=
  fieldRun 0x3C00 64 8 (fun i => (tget 0 k.tds i).toNat) ++ (k.segs.map fun e => (0x4000 + 16 * e.1, 16, e.2.toNat)) ++
    (List.range 8).flatMap (fun i => gridFields (0x8000 + 1024 * i) (k.getGrid i)) ++
    (List.range 4).flatMap (fun j => subArrayFields (0xA000 + 0x90000 * j) (k.getSa j)) ++
    [(0x24A000, 640, bitsOf 5120 fun m => tget false k.pocketP m)] ++
    ((liveRows o).zipIdx.flatMap fun (a, m) =>
      [(0x24B000 + m / 8, 1, if tget false k.ringP (a / 64) then 2 ^ (m % 8) else 0)])

/-- Every listed byte of a core block, at offsets of the block; bytes that are 0 are left out. -/
def coreBlock (s : State) (o : Object) (p c : Nat) : List (Nat × Byte) :=
  let k := s.core c
  let part := s.part p
  let fields := registerFields s p c ++
    [(0x240, 1, part.rets.length)] ++
    (part.rets.reverse.zipIdx.map fun (r, m) => (0x242 + 2 * m, 2, retIndex o part.size part.loose r)) ++
    loopFields (match part.preempt with | some r => r.k0 | none => 0) part.loops ++
    queueFields k ++ resultFields k ++ storeFields o k
  (fields.flatMap fun (a, n, v) => (leBytes n v).zipIdx.map fun (b, i) => (a + i, b)) ++
    (k.pocket.map fun e => (0x250000 + e.1, e.2)) ++
    ((liveRows o).zipIdx.flatMap fun (a, m) => (Memory.readBytes k.ring a 64).zipIdx.map fun (b, i) => (0x2A0000 + 64 * m + i, b))

/-- Bytes of one offset in several fields (poison bits of live rows) are joined. -/
def joinBytes (l : List (Nat × Byte)) : Memory :=
  l.foldl (fun m e => if e.2 = 0 then m else Memory.write m e.1 (Memory.read m e.1 ||| e.2)) []

def saveHeader (s : State) (o : Object) (p : Nat) : List SaveField :=
  let k := s.part p
  [(0, 8, 1), (8, 8, k.size), (16, 8, k.base), (24, 8, k.handle.toNat), (32, 8, k.tick), (40, 8, s.wall),
    (48, 8, if k.loose then 1 else 0), (56, 8, blockSize o), (64, 8, (liveRows o).length), (72, 8, p),
    (80, 8, match k.preempt with | some r => r.k0 | none => 0)]

/-- Bytes `a` to `a + n - 1` of a memory unwritten. -/
def Memory.clear (m : Memory) (a n : Nat) : Memory := m.filter fun e => decide (e.1 < a) || decide (a + n ≤ e.1)

def areaSize (o : Object) (size : Nat) : Nat := 4096 + size * blockSize o

/-- The save area written in HBM at `pa` (18 R349). -/
def State.writeSave (s : State) (o : Object) (p pa : Nat) : State :=
  let k := s.part p
  let head := (saveHeader s o p).flatMap fun (a, n, v) => (leBytes n v).zipIdx.map fun (b, i) => (pa + a + i, b)
  let blocks := k.cores.zipIdx.flatMap fun (c, i) =>
    (joinBytes (coreBlock s o p c)).map fun e => (pa + 4096 + i * blockSize o + e.1, e.2)
  let t := { s with hbm := Memory.writeCells (Memory.clear s.hbm pa (areaSize o k.size)) (head ++ blocks) }
  let t := t.tellOthers none ⟨.hbm pa, 2 ^ (8 * 4096) - 1, false⟩
  (k.cores.zipIdx.foldl (fun (t : State) e =>
    t.tellOthers none ⟨.hbm (pa + 4096 + e.2 * blockSize o), 2 ^ (8 * blockSize o) - 1, false⟩) t).pinSave p pa

/-! ### Pre-emption (18 R347) -/

/-- Nothing of the partition is left in flight. -/
def State.drained (s : State) (p : Nat) : Bool :=
  let k := s.part p
  k.pend.isEmpty && k.lateWrites.isEmpty && k.untimed.isEmpty && s.postedNone p && s.enginesIdle p &&
    (k.cores.all fun c => (s.core c).sa.all fun e => e.2.power != .waking && e.2.swap.isNone)

def Part.draining (k : Part) : Bool := match k.preempt with | some r => r.drain && !r.done | none => false

/-- The drain ends: the partition freezes on this tick. -/
def execPreemptDrainDone (p : Nat) (s : State) : Out :=
  let s := s.popEvent
  let k := s.part p
  if !(k.draining && s.drained p && k.run) then .next s
  else .next (s.modPart p fun k => { k.freeze s.wall with preempt := k.preempt.map fun r => { r with done := true } })

/-- The save area is written, and the cores and the entry are free (18 R347). -/
def execSaveComplete (p : Nat) (s : State) : Out :=
  let s := s.popEvent
  match (s.part p).preempt, s.objOf p with
  | some r, some o =>
    if !r.done then .next s
    else .next ((((s.writeSave o p r.pa).dropSlots p).freePart p).modEntry p
      (fun e => { e with state := 6, saved := true })|>.interrupt (entryVector p))
  | _, _ => .next s

/-! ### RESTORE (18 R351) -/

/-- A little-endian field of the save area. -/
def State.saved (s : State) (a n : Nat) : Nat := leNat (Memory.readBytes s.hbm a n)

/-- Whether an area of `n` bytes lies inside the window of one stack. -/
def insideStack (pa n : Nat) : Bool := decide (pa < 2 ^ 40) && decide (pa % 2 ^ 36 + n ≤ 48 * 2 ^ 30)

def bytesToCells (base : Nat) (l : List Byte) : List (Nat × Byte) := l.zipIdx.map fun (b, i) => (base + i, b)

/-- Registers with their poison bits. -/
def readRegs {w : Nat} (n : Nat) (v : Nat → Nat) (p : Nat → Bool) : Tbl (Pv w) :=
  (List.range n).foldl (fun t i => tset Pv.zero t i ⟨BitVec.ofNat w (v i), p i⟩) []

def readTable {w : Nat} (n : Nat) (v : Nat → Nat) : Tbl (BitVec w) :=
  (List.range n).foldl (fun t i => tset 0 t i (BitVec.ofNat w (v i))) []

def fmtOf (n : Nat) : Fmt := (Fmt.ofCode? n).getD .bf16

def readSet (s : State) (a fmt : Nat) (p : Bool) : WeightSet := ⟨fmtOf fmt, readTable 256 fun j => s.saved (a + 64 * j) 64, p⟩

def readRow (s : State) (a i : Nat) : AccRow :=
  let w := s.saved (a + 0x9000 + 4 * i) 4
  ⟨readTable 64 fun n => s.saved (a + 0xA000 + 512 * i + 8 * n) 8, fld w 0 7, fld w 7 7, BitVec.ofNat 5 (fld w 14 5),
    bitAt w 19 == 1, bitAt w 20 == 1⟩

/-- A sub-array from the area, which holds no idle count: it starts again at 0, with the restore tick as a use (DESIGN CHOICE, log entry
52). -/
def readSub (s : State) (a tick : Nat) : SubArray :=
  let b (i : Nat) : Nat := s.saved (a + i) 1
  { SubArray.reset with
    cfg := ⟨fmtOf (b 0), fmtOf (b 1), b 2, (Acc.ofCode? (b 3)).getD .accum, b 4⟩
    power := if bitAt (b 5) 0 == 1 then .awake else .gated
    active := readSet s (a + 0x1000) (b 6) (bitAt (b 8) 0 == 1)
    back := readSet s (a + 0x5000) (b 7) (bitAt (b 8) 1 == 1)
    rows := (List.range 1024).foldl (fun t i => tset AccRow.reset t i (readRow s a i)) []
    used := tick }

def readGrid (s : State) (a : Nat) : Grid :=
  let v : BitVec 1024 := BitVec.ofNat 1024 (s.saved a 128)
  let d := bitAt (s.saved (a + 180) 1) 0 == 1
  let held := s.saved (a + 256) 1
  let bits := s.saved (a + 652) 16
  let stamps (n lo off : Nat) : Tbl (BitVec 32) := (List.range n).filterMap fun i =>
    if bitAt bits (lo + i) == 1 then some (i, BitVec.ofNat 32 (s.saved (a + off + 4 * i) 4)) else none
  { Grid.reset with
    defined := d
    desc := v
    rules := if d then faces.map fun f => ruleOf (dRule v f) else []
    const := readTable 6 fun f => s.saved (a + 128 + 8 * f) 8
    step := BitVec.ofNat 32 (s.saved (a + 176) 4)
    sigS := if d then faces.map fun f => (f, BitVec.ofNat 32 (s.saved (a + 184 + 4 * f) 4)) else []
    sigR := stamps 6 98 208
    inner := stamps 2 0 260
    hem := stamps 96 2 268
    held := faces.filterMap fun f =>
      if bitAt held f == 1 then some (f, BitVec.ofNat 32 (s.saved (a + 232 + 4 * f) 4)) else none }

def readQueue (s : State) (a q tick : Nat) : List QEntry :=
  (List.range (s.saved (a + 0x3980 + q) 1)).map fun i =>
    let v := if q < 8 then s.saved (a + 0x2000 + 1024 * q + 64 * i) 64 else s.saved (a + 0x3800 + 64 * (q - 8) + 8 * i) 8
    ⟨i, BitVec.ofNat 512 v, bitAt (s.saved (a + 0x3990 + 2 * q) 2) i == 1, true, tick⟩

def readResults (s : State) (a e tick : Nat) : List ResEntry :=
  (List.range (s.saved (a + 0x3B80 + e) 1)).map fun i =>
    ⟨BitVec.ofNat 64 (s.saved (a + 0x3A00 + 128 * e + 8 * i) 8), true, tick, [], 0, 0⟩

/-- A core from its block at `a`, over what the object loads (18 R350). Reserved bits of its registers read 0, whatever the area holds
(00 R8). -/
def readCore (s : State) (o : Object) (a tick : Nat) : Core :=
  let k := Core.ofObject o s.modNum
  let bit (off n : Nat) (i : Nat) : Bool := bitAt (s.saved (a + off) n) i == 1
  let live := (liveRows o).zipIdx
  let k := { k with
    x := tdel (readRegs 32 (fun r => s.saved (a + 8 * r) 8) (bit 0x224 4)) 0
    c := readRegs 16 (fun r => s.saved (a + 0x100 + 8 * r) 8) (bit 0x228 2)
    mb := readTable 16 fun r => s.saved (a + 0x180 + 8 * r) 8
    mbSeen := readTable 16 fun r => s.saved (a + 0x180 + 8 * r) 8
    fflags := BitVec.ofNat 64 (s.saved (a + 0x200) 8) &&& 31
    vstat := BitVec.ofNat 64 (s.saved (a + 0x208) 8) &&& 0xFF5
    tvec := BitVec.ofNat 64 (s.saved (a + 0x210) 8) &&& 0xFFF
    mgate := BitVec.ofNat 64 (s.saved (a + 0x218) 8)
    flags := BitVec.ofNat 16 (s.saved (a + 0x220) 2)
    guards := BitVec.ofNat 8 (s.saved (a + 0x222) 1) &&& 0x0E
    poisonSeen := bit 0x223 1 0
    st := readTable 16 fun i => s.saved (a + 0x400 + 32 * i) 32
    lt := readTable 64 fun i => s.saved (a + 0x600 + 64 * i) 64
    ns := (List.range 8).foldl (fun t i => tset ⟨0, 0, 0⟩ t i
      ⟨BitVec.ofNat 128 (s.saved (a + 0x1600 + 48 * i) 16), BitVec.ofNat 128 (s.saved (a + 0x1610 + 48 * i) 16),
        BitVec.ofNat 64 (s.saved (a + 0x1620 + 48 * i) 8)⟩) []
    win := readTable 8 fun i => s.saved (a + 0x1780 + 8 * i) 8 &&& windowBits.toNat
    k := readRegs 8 (fun i => s.saved (a + 0x17C0 + 8 * i) 8) (bit 0x22A 1)
    v := readRegs 32 (fun i => s.saved (a + 0x1800 + 64 * i) 64) (bit 0x22C 4)
    queues := [0, 1, 2, 3, 4, 5, 8, 9, 10, 11, 12, 13].foldl (fun t q => tset [] t q (readQueue s a q tick)) []
    nextId := 16
    tds := readTable 8 fun i => s.saved (a + 0x3C00 + 64 * i) 64
    segs := readTable 1024 fun i => s.saved (a + 0x4000 + 16 * i) 16
    grids := (List.range 8).map fun i => (i, readGrid s (a + 0x8000 + 1024 * i))
    sa := (List.range 4).map fun j => (j, readSub s (a + 0xA000 + 0x90000 * j) tick)
    pocketP := (List.range 5120).foldl (fun t m => tset false t m (bitAt (s.saved (a + 0x24A000 + m / 8) 1) (m % 8) == 1)) []
    ringP := live.foldl (fun t (r, m) => tset false t (r / 64) (bitAt (s.saved (a + 0x24B000 + m / 8) 1) (m % 8) == 1)) []
    pocket := Memory.writeBytes [] 0 (Memory.readBytes s.hbm (a + 0x250000) 327680)
    ring := live.foldl (fun m (r, i) => Memory.writeBytes m r (Memory.readBytes s.hbm (a + 0x2A0000 + 64 * i) 64)) [] }
  [0, 1, 2].foldl (fun k e => k.modEng e fun g => { g with results := readResults s a e tick }) k

/-- The loop levels of a core block, innermost first. -/
def readLevels (s : State) (o : Object) (a : Nat) : List Level :=
  let valid := (List.range 8).filter fun i => bitAt (s.saved (a + 0x281 + 32 * i) 1) 0 == 1
  (valid.map fun i =>
    let b := a + 0x280 + 32 * i
    let id := s.saved b 1
    let e := (lookupId o.loops id).getD loopEmpty
    let period := s.saved (b + 16) 8
    let base := period * e.period
    let inner := i + 1 == valid.length
    let clock := if inner then base else base + (s.saved (b + 4) 4 + 2 ^ 32 - base % 2 ^ 32) % 2 ^ 32
    (⟨id, e, BitVec.ofNat 64 (s.saved (b + 8) 8), period, clock, 0, [], if inner then period else 0, !inner, []⟩ : Level)).reverse

/-- A command on an area that is not the entry's (18 R351). -/
def State.restoreRefusal (s : State) (e pa : Nat) : Option Nat :=
  match s.submitRefusal e with
  | some c => some c
  | none =>
    let k := s.entry e
    if s.saved pa 8 ≠ 1 || s.saved (pa + 8) 8 ≠ k.size || s.saved (pa + 24) 8 ≠ k.handle.toNat then some 0x1C else none

def State.loadSaved (s : State) (e pa : Nat) (o : Object) : State :=
  let k := s.entry e
  let tick := s.saved (pa + 32) 8
  let t := (List.range k.size).foldl (fun (t : State) i =>
    t.modCore (k.base + i) (readCore s o (pa + 4096 + i * blockSize o) tick).keeping) s
  t.loadingEnds e o

def execLoadingDone (e : Fin 1024) (s : State) : Out :=
  let s := s.popEvent
  if !s.loadReady e.val then .next s
  else match s.loaded (s.entry e.val).handle, (s.entry e.val).restore with
    | some l, none => .next (s.loadFresh e.val l.obj)
    | some l, some pa => .next (s.loadSaved e.val pa l.obj)
    | none, _ => .next s

/-- The partition goes on from its save area: its innermost loop begins period k0 at e + Δ (18 R351). The area does not
hold the stack depths of the enclosing loops, which are free values (log entry 1). -/
def State.startSaved (s : State) (e pa : Nat) (o : Object) : State :=
  let k := s.entry e
  let tick := s.saved (pa + 32) 8
  let a := pa + 4096
  let rets := ((List.range (s.saved (a + 0x240) 1)).map fun m => retOf o k.size k.loose (s.saved (a + 0x242 + 2 * m) 2)).reverse
  let (n, s) := s.draw
  let levels := (readLevels s o a).zipIdx.map fun (l, i) =>
    { l with depth := if i = 0 then rets.length else (Config.freeWord (n + i)).toNat % (rets.length + 1) }
  let s := { s with free := s.free + 7 }
  s.setPart e { k.part with startAt := some k.start, tick := tick, rets := rets, loops := levels, pulseAt := tick, resumeAt := some (tick + delta k.log2) }

def execPartitionStart (e : Fin 1024) (s : State) : Out :=
  let s := s.popEvent
  let k := s.entry e.val
  if !(k.state == 3 && k.loaded && decide (k.start ≤ s.wall)) then .next s
  else match s.loaded k.handle, k.restore with
    | some l, none => .next ((s.startFresh e.val l.obj).started e.val)
    | some l, some pa => .next ((s.startSaved e.val pa l.obj).started e.val)
    | none, _ => .next s

end Sys2Proof.Machine
end

