-- ==== Sys2Proof/Machine/Host.lean ====
section
/-! DEFINITION. What the host does: control-block commands (18 R342 to R353), BAR0, BAR2 and BAR4 (19 R355 to R358, 07
R176 to R178), and what the management controller does: clocks, power, self-test and reset (19 R364 to R374). -/

namespace Sys2Proof.Machine

/-! ### Commands (18 R342, R343) -/

/-- The result of a command in the status word: 0 accepted, 1 refused, 2 malformed. -/
def State.result (s : State) (e : Nat) (r : BitVec 2) : State := s.modEntry e fun k => { k with res := r }

def malformed (w : Word) : Bool := fld w.toNat 52 12 != 0 || fld w.toNat 4 12 != 0

/-- The save area's base: PA[51:16]. -/
def areaOf (w : Word) : Nat := fld w.toNat 16 36 * 65536

/-- The entry runs: its partition is started and not saved or killed, and has ticks to run or a trap to resume from. -/
def State.running (s : State) (e : Nat) : Bool :=
  (s.entry e).state == 4 && (s.part e).run && (!(s.part e).complete || (s.part e).trap.isSome)

/-- A command: nothing before a grant, malformed, refused, or carried out. -/
def State.command (s : State) (e : Nat) (w : Word) (refused : Bool) (f : State → State) : State :=
  if !s.granted then s
  else if malformed w then s.result e 2
  else if refused then s.result e 1
  else (f s).result e 0

def State.anyHandler (s : State) (p : Nat) : Bool := (s.part p).cores.any fun c => (s.core c).hm

/-- RESUME and STEP need a trap that the host holds and that is not kill only. -/
def State.resumeRefused (s : State) (e : Nat) : Bool :=
  !s.running e || s.anyHandler e || (match (s.part e).trap with | some t => t.kill | none => true)

def execResume (e : Fin 1024) (w : Word) (s : State) : Out :=
  .next (s.popEvent.command e.val w (s.popEvent.resumeRefused e.val) fun s => s.resumeTicks e.val)

/-- STEP: one tick, then class 0x15 with TREC3 = 0 at f + 1 (18 R353). -/
def execStep (e : Fin 1024) (w : Word) (s : State) : Out :=
  .next (s.popEvent.command e.val w (s.popEvent.resumeRefused e.val) fun s =>
    (s.modPart e.val fun k => { k with stepping := true }).resumeTicks e.val)

/-- FREEZE: class 0x15 with TREC3 = 1 at the next tick boundary (18 R352). -/
def execFreeze (e : Fin 1024) (w : Word) (s : State) : Out :=
  .next (s.popEvent.command e.val w (!s.popEvent.running e.val) fun s =>
    s.addCond e.val ⟨(s.part e.val).tick, .debugStep, s.hubWho e.val, 1, .continue_⟩)

def State.preemptRefused (s : State) (e : Nat) (pa : Nat) : Bool :=
  !s.running e || (s.part e).join.isSome || (s.part e).preempt.isSome ||
    (match s.objOf e with | some o => !insideStack pa (areaSize o (s.part e).size) | none => true)

def execPreempt (e : Fin 1024) (w : Word) (s : State) : Out :=
  .next (s.popEvent.command e.val w (s.popEvent.preemptRefused e.val (areaOf w)) fun s =>
    s.modPart e.val fun k => { k with preempt := some ⟨areaOf w, false, 0, 0, false, false⟩ })

/-- RESTORE: a module that has not passed self-test refuses every one, then one on an entry that is busy is refused; a mismatch
records 0x1C (18 R351, 19 R360, R372). -/
def execRestore (e : Fin 1024) (w : Word) (s : State) : Out :=
  let s := s.popEvent
  let k := s.entry e.val
  let pa := areaOf w
  let outside := match s.loaded k.handle with
    | some l => !insideStack pa (areaSize l.obj k.size)
    | none => !insideStack pa 4096
  if !s.granted then .next s
  else if malformed w then .next (s.result e.val 2)
  else if s.ready ≠ 1 then .next ((s.refuse e.val 0x1A).result e.val 1)
  else if k.busy then .next ((s.refuse e.val 0x19).result e.val 1)
  else if outside then .next (s.result e.val 1)
  else match s.restoreRefusal e.val pa with
    | some c => .next ((s.refuse e.val c).result e.val 1)
    | none => .next ((s.beginLoading e.val (some pa)).result e.val 0)

/-- The engines of a core start no word and no beat. -/
def Core.stopEngines (k : Core) : Core :=
  [0, 1, 2].foldl (fun k e => k.modEng e fun g =>
    { g with running := false, cmds := [], chain := none, endAt := none, rep := none, stack := [] }) k

/-- Contributions of some cores of this module that no destination has folded yet are discarded, and their tiles never
complete. -/
def State.dropContribs (s : State) (cores : List Nat) : State :=
  let gone (c : Contrib) : Bool := c.mod == s.modNum && cores.contains c.src
  let t := { s with contribs := s.contribs.filter (!gone ·) }
  (s.contribs.filter gone).foldl (fun (t : State) c =>
    t.modCore c.core fun k => { k with fxDead := k.fxDead ++ [(c.tag, c.off)] }) t

/-- Work of a killed partition is discarded; the senders of exchanges that arrive hear that they have (18 R348). -/
def State.discard (s : State) (p : Nat) : State :=
  let l := (s.part p).pend
  let s := s.modPart p fun k => { k with pend := [], fresh := [], lateWrites := [], untimed := [] }
  let s := (s.modCores (s.part p).cores fun k => { k with winInner := [] }).dropContribs (s.part p).cores
  l.foldl (fun s d => match d.act with
    | .gridArrive e => if e.launch.isSome then s.exchangeDone e else s
    | _ => s) s

/-- Whether a resumption action acts within partition `p`, `k`. -/
def Fix.within (p : Nat) (k : Part) : Fix → Bool
  | .settle _ w _ => k.has w.core
  | .void c _ | .abandon c _ _ | .aim c _ _ => k.has c
  | .again _ d | .swap _ d | .fault d _ _ _ => k.has d.who.core
  | .undecide q | .pulse q => q == p
  | .continue_ | .retry | .killOnly => true

/-- A killed partition leaves the trap of its group: where it recorded the trap the other members go on from it, each with its own
resumption actions and from its own cursors (18 R335), and a trap that another member recorded loses what was to be done in it. -/
def State.leaveTrap (s : State) (p : Nat) : State :=
  let k := s.part p
  let s := match k.trap with
    | some t =>
      let own := t.cursors.filter fun (a : Aimed) => !k.has a.core
      (t.fixes.filter fun (f : Fix) => !f.within p k).foldl (fun (s : State) f => s.applyFix p f) (own.foldl State.unaim s)
    | none => s
  (s.members p).foldl (fun (s : State) q => s.modPart q fun j =>
    let rest (t : Trap) : Trap :=
      { t with fixes := t.fixes.filter (fun (f : Fix) => f == .killOnly || !f.within p k)
               cursors := t.cursors.filter (fun (a : Aimed) => !k.has a.core) }
    { j with trap := j.trap.map rest }) s

/-- KILL (18 R348): the partition stands still for good, its join ends, its arrival at a barrier counts no more (05 R118), and it
waits only for acknowledgements. -/
def State.kill (s : State) (p : Nat) : State :=
  let others := s.members p
  let s := (((s.leaveTrap p).discard p).leaveBarrier p)
  let s := s.modCores (s.part p).cores fun k => { k.stopEngines with hm := false, msk := false }
  let s := others.foldl (fun (s : State) q => s.modPart q fun k => { k with join := none }) s
  s.modPart p fun k =>
    { k with run := false, conds := [], waits := [], trap := none, decision := none, stop := none, preempt := none
             thread := none, stepping := false, voids := [], frozenAt := none }

def execKill (e : Fin 1024) (w : Word) (s : State) : Out :=
  .next (s.popEvent.command e.val w (!((s.popEvent.entry e.val).state == 4 && (s.popEvent.part e.val).run)) fun s => s.kill e.val)

/-- Every posted write has been acknowledged: quiesced (18 R348). -/
def execKillQuiesced (p : Nat) (s : State) : Out :=
  let s := s.popEvent
  let k := s.part p
  if k.run || (s.entry p).state != 4 || !s.postedNone p then .next s
  else .next (((((s.discard p).dropSlots p).freePart p).modEntry p
    fun e => { e with state := 7, quiesced := true }).interrupt (entryVector p))

/-! ### BAR0 registers (19 R357, R358, R363, R365, R373) -/

/-- The grant of a requested version (19 R358). -/
def grantOf (w : Word) : BitVec 17 :=
  if fld w.toNat 8 8 = 1 then BitVec.ofNat 17 (2 ^ 16 + 256 + min (fld w.toNat 0 8) 3) else 0

def execHivreq (w : Word) (s : State) : Out :=
  let s := s.popEvent
  if s.entries.any fun e => e.2.state == 3 || e.2.state == 4 then .next s
  else .next { s with hivreq := w.setWidth 16, hivgnt := grantOf w }

/-- WALL is written only while nothing is armed, loading or running (19 R364). -/
def execWallWrite (w : Word) (s : State) : Out :=
  let s := s.popEvent
  if !s.granted || s.entries.any fun e => decide (2 ≤ e.2.state.toNat) && decide (e.2.state.toNat ≤ 4) then .next s
  else .next { s with wall := w.toNat }

def clampTo (lo hi v : Nat) : Nat := max lo (min hi v)

def execPlimitWrite (w : Word) (s : State) : Out :=
  let s := s.popEvent
  .next (if s.granted then { s with plimit := BitVec.ofNat 16 (clampTo 5000 15000 (fld w.toNat 0 16)) } else s)

def execTjlimitWrite (w : Word) (s : State) : Out :=
  let s := s.popEvent
  .next (if s.granted then { s with tjlimit := BitVec.ofNat 8 (clampTo 85 105 (fld w.toNat 0 8)) } else s)

/-- The diagnostic page's counters clear when 0 is written (19 R373), and a change of the page raises vector 0 (19 R355). Their
places are the model's (log entry 28). -/
def execDiagCounterWrite (off : BitVec 12) (w : Word) (s : State) : Out :=
  let s := s.popEvent
  let i := off.toNat / 8 - 1
  if w = 0 && off.toNat % 8 == 0 && decide (1 ≤ off.toNat / 8) && decide (i < 3) && tget 0 s.diagCount i ≠ 0 then
    .next ({ s with diagCount := tset 0 s.diagCount i 0 }.interrupt 0)
  else .next s

def execMismatchCounterWrite (core : Fin 2048) (w : BitVec 32) (s : State) : Out :=
  let s := s.popEvent
  .next (if s.granted && w = 0 then { s with mismatch := tset 0 s.mismatch core.val 0 } else s)

/-- Registers of a 4 KiB page of 64-bit words at `page`. -/
def State.timePage (s : State) (r : Nat) (w : Word) : State :=
  match r with
  | 0x008 =>
    let src := w.setWidth 2
    { s with tsrc := if src = 3 then 0 else src, tport := BitVec.ofNat 6 (fld w.toNat 2 6) }
  | 0x020 => { s with wbase := w &&& 0x000FFFFFC0000000 }
  | _ => s

/-- An invalidate word, or the queue's status register: DROP clears when 1 is written (07 R178). -/
def State.queuePage (s : State) (r : Nat) (w : Word) : State :=
  if r = 0x000 || r = 0x008 || r = 0x010 then { s with iqWords := tset 0 s.iqWords (r / 8) w }
  else if r = 0x020 then { s with iqDrop := s.iqDrop && bitAt w.toNat 16 == 0 }
  else s

/-- The tables of the unit that holds a table, and the port of each (16 R310). -/
def unitTables (t : Nat) : List (Nat × Nat) :=
  if t < 4608 then (List.range 9).map fun i => (quadTable (t / 9) i, i)
  else if t < 4688 then (List.range 5).map fun i => (dieTable ((t - 4608) / 5) i, i)
  else if t < 4737 then (List.range 49).map fun i => (switchTable i, i)
  else [(t, 0)]

/-- Whether the unit of a table has a port; a Yelnar port's table names ports of the package switch (16 R310, R313). -/
def tablePort (t n : Nat) : Bool :=
  if t < 4608 then quadPort (t / 9) n
  else if t < 4688 then decide (n < 5)
  else decide (n < 49)

/-- An entry of the plan's tables that is not refused; 0, the value after reset, never is (16 R313, log entry 78). -/
def planOk (plan : Tbl (BitVec 16)) (key : Nat) (v : BitVec 16) : Bool :=
  let t := key / 256
  let b := v.toNat
  let out := ((unitTables t).find? fun e => e.1 == t).map (·.2)
  let clash (e : Nat × Nat) : Bool :=
    let o := (tget 0 plan (slotKey e.1 (key % 256))).toNat
    e.1 != t && bitAt b 15 == 1 && bitAt o 15 == 1 && fld o 9 6 == fld b 9 6
  decide (t < 4769) &&
    (v == 0 || (fld b 0 3 == 0 && out == some (fld b 3 6) && (4737 ≤ t || tablePort t (fld b 3 6)) && tablePort t (fld b 9 6) &&
      !(unitTables t).any clash))

def planPut (plan : Tbl (BitVec 16)) (key : Nat) (v : BitVec 16) : Tbl (BitVec 16) :=
  if planOk plan key v then tset 0 plan key v else plan

/-- Four entries of the fabric plan, or a window register (19 R357, log entry 28). A window of a core keeps its reserved
bits 0. -/
def State.planPage (s : State) (r : Nat) (w : Word) : State :=
  if r < 0x400000 then
    { s with plan := [0, 1, 2, 3].foldl (fun t i => planPut t (r / 8 * 4 + i) (BitVec.ofNat 16 (fld w.toNat (16 * i) 16))) s.plan }
  else
    let i := (r - 0x400000) / 8
    if i / 8 < 2048 then
      s.modCore (i / 8) fun k => { k with win := tset 0 k.win (i % 8) (w &&& windowBits) }
    else s

/-- A reserved command is malformed (18 R343). -/
def State.reservedCommand (s : State) (r : Nat) (w : Word) : State :=
  let cmd := fld w.toNat 0 4
  if r % 64 = 0 && (cmd == 0 || decide (7 ≤ cmd)) then s.result (r / 64) 2 else s

/-- A 64-bit write to BAR0 that is none of the rows of the table that stand for themselves: bytes not listed ignore
writes, and so does a read-only register (00 R8, 19 R357, R358). -/
def execBar0RegisterWrite (off : BitVec 24) (w : Word) (s : State) : Out :=
  let s := s.popEvent
  let a := off.toNat
  if !s.granted || a % 8 ≠ 0 then .next s
  else if 0x2000 ≤ a && a < 0x3000 then .next (s.timePage (a - 0x2000) w)
  else if 0x30000 ≤ a && a < 0x40000 then .next (s.reservedCommand (a - 0x30000) w)
  else if 0x41000 ≤ a && a < 0x42000 then .next (s.queuePage (a - 0x41000) w)
  else if 0x100000 ≤ a && a < 0x800000 then .next (s.planPage (a - 0x100000) w)
  else .next s

/-! ### The invalidate queue (07 R176 to R178) -/

/-- Writing word 3 submits the command. -/
def execInvalidateSubmit (w : Word) (s : State) : Out :=
  let s := s.popEvent
  if !s.granted then .next s
  else if 64 ≤ s.iq.length then .next { s with iqDrop := true }
  else .next { s with iq := s.iq ++ [(⟨tget 0 s.iqWords 0, tget 0 s.iqWords 1, tget 0 s.iqWords 2, w, none, []⟩ : InvalidateCmd)] }

def InvalidateCmd.malformed (c : InvalidateCmd) : Bool :=
  let all := bitAt c.w0.toNat 19 == 1
  fld c.w0.toNat 20 44 != 0 ||
    (!all && (fld c.w1.toNat 0 16 != 0 || fld c.w1.toNat 52 12 != 0 || fld c.w2.toNat 36 28 != 0 || c.w2 == 0))

/-- Whether a command removes a TLB entry: any size, any overlap, whatever the hint (07 R176). -/
def InvalidateCmd.removes (c : InvalidateCmd) (e : TlbEntry) : Bool :=
  let w := c.w0.toNat
  let first := fld c.w1.toNat 16 36 * 65536
  (bitAt w 18 == 1 || e.asid == fld w 0 16) &&
    (bitAt w 19 == 1 || (decide (first < e.va + e.size) && decide (e.va < first + fld c.w2.toNat 0 36 * 65536)))

/-- No TLB holds an entry that a command removes. -/
def State.removeEntries (s : State) (c : InvalidateCmd) : State :=
  let keep (t : List TlbEntry) : List TlbEntry := if c.malformed then t else t.filter fun e => !c.removes e
  { s with cores := s.cores.map fun (k : Nat × Core) => (k.1, { k.2 with tlb := keep k.2.tlb })
           dieTlb := s.dieTlb.map fun (t : Nat × List TlbEntry) => (t.1, keep t.2) }

/-- The TLB entries that a command removes. -/
def State.entriesGone (s : State) (c : InvalidateCmd) : List TlbEntry :=
  if c.malformed then []
  else ((s.cores.flatMap fun k => k.2.tlb) ++ s.dieTlb.flatMap fun t => t.2).filter fun e => c.removes e

def Loc.translated : Loc → Bool
  | .global _ | .host _ => true
  | _ => false

/-- The copy reads or writes through translations. -/
def Beat.translates (b : Beat) : Bool :=
  let some_ (l : List (Option Spot)) : Bool := l.any fun x => match x with | some x => x.loc.translated | none => false
  some_ b.src || b.outs.any fun o => some_ o.spots

/-- Bytes of partition `p` lie in the range of a command, or under an entry of any size that it removed. -/
def State.inGone (s : State) (c : InvalidateCmd) (p : Nat) (l : Loc) (n : Nat) : Bool :=
  match l with
  | .global va | .host va =>
    bitAt c.w0.toNat 19 == 1 || overlap va n (fld c.w1.toNat 16 36 * 65536) (fld c.w2.toNat 0 36 * 65536) ||
      c.gone.any fun e => e.asid == (s.part p).asid && overlap va n e.va e.size
  | _ => false

/-- Work of partition `p` issued before tick `t` that a command's acknowledgement waits for (07 R177; log entry 99): writes that
have come to their tick and are not performed, and copies, to their last beat and acknowledgement, that translate at all, since any of
their beats may have translated under the entry. -/
def State.underRemoved (s : State) (c : InvalidateCmd) (p t : Nat) : Bool :=
  let k := s.part p
  let wrote (d : Due) : Bool := (s.writesOf p d).any fun x => s.inGone c p x.1 x.2.1
  let waits (d : Due) : Bool := match d.act with
    | .beatSample b | .beatLand b _ _ _ => b.translates
    | _ => d.place == 9 && wrote d
  (bitAt c.w0.toNat 18 == 1 || k.asid == fld c.w0.toNat 0 16) &&
    ((k.pend.any fun d => decide (d.who.issue < t) && waits d) ||
      (k.lateWrites.any fun d => decide (d.who.issue < t) && (wrote d || waits d)) ||
      k.cores.any fun j => (s.core j).posted.any fun r =>
        decide (r.issue < t) && (match r.by_ with | .engine 0 _ => true | _ => false))

/-- Whether the oldest command can go on: its broadcast, or its acknowledgement, which waits for room in the FIFO and for what
translated under an entry that it removed. -/
def State.ackReady (s : State) : Bool :=
  match s.iq with
  | [] => false
  | c :: _ => match c.since with
    | none => true
    | some l => decide (s.iqAcks.length < 64) && !(l.any fun e => s.underRemoved c e.1 e.2)

/-- The oldest command is broadcast to every TLB; then it completes, and its acknowledgement enters the FIFO (07 R177, R178). -/
def execInvalidateAck (s : State) : Out :=
  let s := s.popEvent
  match s.iq with
  | [] => .next s
  | c :: l =>
    let t := s.removeEntries c
    let c := { c with since := some (c.since.getD (if c.malformed then [] else s.parts.map fun e => (e.1, e.2.tick + 1)))
                      gone := c.gone ++ s.entriesGone c }
    let t := { t with iq := c :: l }
    .next (if t.ackReady then { t with iq := l, iqAcks := t.iqAcks ++ [(c.cookie, c.malformed)] }.interrupt 0 else t)

def execIqackPop (s : State) : Out :=
  let s := s.popEvent
  .next (if s.granted then { s with iqAcks := s.iqAcks.drop 1 } else s)

/-! ### BAR2 and BAR4 (19 R356) -/

/-- What an MBW of tick `o.tick` releases has been performed: the writes that land by then, and the posted writes to other modules
issued before (15 R303). The untimed copies that it releases are those whose entries have landed, so that they are over (12 R251). -/
def State.mbwReady (s : State) (p : Nat) (o : MbwOut) : Bool :=
  let k := s.part p
  let copy (d : Due) : Bool := match d.act with | .beatSample b | .beatLand b _ _ _ => b.untimed.isSome | _ => false
  let near (d : Due) : Bool := !d.act.untimed && (s.writesOf p d).any fun w => !w.1.isRemote && decide (w.2.2 ≤ o.tick)
  let far (d : Due) : Bool := !copy d && decide (d.who.issue < o.tick) && !(s.farWrites p d).isEmpty
  let before (d : Due) : Bool := d.who.unit != .hub && (near d || far d)
  !(k.pend.any before) && !(k.lateWrites.any before) &&
    (k.cores.all fun c => (s.core c).posted.all fun r => decide (o.tick ≤ r.issue) || (match r.by_ with | .engine 0 _ => true | _ => false))

/-- The MBW values of a core that BAR2 shows, and those it does not show yet. -/
def State.mbwSplit (s : State) (c : Nat) : List MbwOut × List MbwOut :=
  match s.partOf c with
  | some p => (s.core c).mbOut.partition (s.mbwReady p)
  | none => ((s.core c).mbOut, [])

/-- What BAR2 shows of a core's mailboxes. -/
def State.mbShown (s : State) (c : Nat) : Tbl Word :=
  (s.mbwSplit c).1.foldl (fun t o => tset 0 t o.mb o.v) (s.core c).mbSeen

/-- An MBW lands, or the write of a host or peer, which BAR2 has shown before. -/
def State.doMailbox (s : State) (d : Due) (i : Nat) (v : Word) : State :=
  let c := d.who.core
  if d.who.unit == .hub then s.mailboxLand c i v
  else
    let seen := s.mbShown c
    let out := (s.mbwSplit c).2
    s.modCore c fun k => { k with mbSeen := seen, mbOut := out }.mbwLand d.tick (.mailbox i v)

/-- Only aligned writes of 8 bytes take effect. -/
def execHostMailboxWrite (off : BitVec 18) (size : Nat) (w : Word) (s : State) : Out :=
  let s := s.popEvent
  if size = 8 && off.toNat % 8 == 0 then .next (s.mailboxArrive (off.toNat / 128) (off.toNat % 128 / 8) w)
  else .next (s.countDiag 0)

/-- The PA of a byte of BAR4: WBASE aligned to the BAR's size, plus the offset. -/
def State.bar4Pa (s : State) (off : Nat) : Nat :=
  let size := 2 ^ s.bar4Log
  s.wbase.toNat / size * size + off % size

def execBar4Write (off : Nat) (bytes : List Byte) (s : State) : Out :=
  let s := s.popEvent
  let pa := s.bar4Pa off
  if bytes.isEmpty then .next s
  else if hbmMapped pa && hbmMapped (pa + bytes.length - 1) then
    .next (s.performWrite none (.hbm pa) bytes (2 ^ (8 * bytes.length) - 1) false)
  else .next (s.countDiag 1)

def execBar4Read (off n : Nat) (s : State) : Out :=
  let s := s.popEvent
  let pa := s.bar4Pa off
  if hbmMapped pa && hbmMapped (pa + n - 1) then .next { s with readback := Memory.readBytes s.hbm pa n }
  else .next { (s.countDiag 1) with readback := List.replicate n 0xFF }

/-- The answer to an SPDM request over DOE is the firmware's: bytes the manual does not give (19 R355, log entry 1). -/
def execDoeSpdmRequest (req : List Byte) (s : State) : Out :=
  let s := s.popEvent
  .next { s with free := s.free + req.length + 1
                 readback := (List.range (req.length + 1)).map fun i => (Config.freeWord (s.free + i)).setWidth 8 }

/-! ### Power-up, self-test and reset (19 R371, R372) -/

/-- What no reset touches: the model's own fields, the module's number and the size of BAR4 (log entry 29). -/
def State.afterReset (s : State) : State :=
  { State.reset with
    modNum := s.modNum, inbox := s.inbox, marks := s.marks, free := s.free, turn := s.turn, bar4Log := s.bar4Log }

/-- Self-test at the reset values: its first failure, where there is one, is the safe diagnostic state. -/
def State.selfTested (s : State) (failure : Option (BitVec 32)) : State :=
  match failure with
  | none => s
  | some w => { s with ready := 2, diagWord := w }.interrupt 0

/-- Power-good starts self-test; the host gives BAR4 a size as it sets up the link (19 R356). -/
def execPowerUp (failure : Option Word) (s : State) : Out :=
  let (n, s) := s.afterReset.draw
  .next ({ s with bar4Log := 30 + Config.barSize n % 11 }.selfTested (failure.map fun (w : Word) => w.setWidth 32))

/-- Every test has passed: READY becomes 1, and the regions, which host nothing, are gated (19 R366; log entry 101). The safe
diagnostic state is left only through a module reset. -/
def execSelfTestComplete (s : State) : Out :=
  let s := s.popEvent
  .next (if s.ready = 0 then ({ s with ready := 1 }.interrupt 0).gateRegions (List.range 128) else s)

/-- A module reset: every register and table at its reset value, and self-test again; memories keep their contents (log
entry 29). -/
def execModuleReset (s : State) : Out :=
  let (n, t) := { s.afterReset with hbm := s.hbm, hostMem := s.hostMem }.draw
  .next (t.selfTested (Config.selfTest n))

/-! ### Clocks and power (19 R364 to R369) -/

/-- The broadcast brings every region's view of WALL back within its bound; no state of a region is kept. -/
def execWallPhaseBroadcast (s : State) : Out := .next s.popEvent

/-- Every throttle set that may, changes step by `f`. -/
def State.changeSets (s : State) (always : Bool) (f : Nat → Nat) : State :=
  s.throttleSets.foldl (fun (s : State) l =>
    let n := s.setLow l
    if f n ≠ n && (always || s.windowPassed l) then s.changeStep l (f n) else s) s

/-- The hottest die as it is now. -/
def State.feel (s : State) : State :=
  let (n, s) := s.draw
  let t := Config.dieTemp n
  { s with temp := t, coolAt := if t + 5 ≤ s.tjlimit.toNat then s.coolAt else none }

/-- Power or temperature is above its limit (19 R369). -/
def State.overLimit (s : State) : Bool := decide (s.plimit.toNat < s.pnow.toNat) || decide (s.tjlimit.toNat < s.temp)

/-- WALL at which power and temperature have been below their limits with headroom for 1 ms. -/
def State.coolFor (s : State) : Option Nat :=
  if 100 * s.pnow.toNat < 98 * s.plimit.toNat && s.temp + 5 ≤ s.tjlimit.toNat then s.coolAt.map (· + 1000000) else none

/-- Both have been below their limits with headroom for 1 ms. -/
def State.headroom (s : State) : Bool := match s.coolFor with | some w => decide (w ≤ s.wall) | none => false

def execPowerLimitStepdown (s : State) : Out :=
  let s := s.popEvent.feel
  .next (if s.overLimit then s.changeSets false (· - 1) else s)

/-- The core rail's current is above 29,000 A: the event is the condition. -/
def execOvercurrentStepdown (s : State) : Out := .next (s.popEvent.changeSets true (· - 4))

def execPowerStepup (s : State) : Out :=
  let s := s.popEvent.feel
  .next (if s.headroom then s.changeSets false fun n => if n < s.fcap.toNat then n + 1 else n else s)

/-- FCAP; sets above it come down when their window has passed. -/
def execFcapWrite (w : Word) (s : State) : Out :=
  let s := s.popEvent
  if !s.granted then .next s
  else
    let s := { s with fcap := w.setWidth 4 }
    .next (s.changeSets false fun n => min n s.fcap.toNat)

/-- The PLLs of a throttle set have relocked: its partitions go on together (19 R367). -/
def execPllRelockDone (region : Fin 128) (s : State) : Out :=
  let s := s.popEvent
  if bitAt (tget 0 s.freq region.val).toNat 9 = 0 then .next s
  else
    let l := (s.throttleSet [region.val]).eraseDups
    let s := { s with freq := l.foldl (fun t r => tset 0 t r (tget 0 t r &&& 0x1FF)) s.freq }
    .next (s.parts.foldl (fun (s : State) e =>
      if e.2.regions.any l.contains then s.modPart e.1 fun k => { k with waits := k.waits.filter (· != .pll) } else s) s)

/-- A stretched clock changes wall time only (19 R368). -/
def execSupplyDroop (_region : Fin 128) (s : State) : Out :=
  let (n, s) := s.popEvent.draw
  .next (s.passWall (s.wall + Config.wallAdvance n % 1000))

end Sys2Proof.Machine
end

