-- ==== Sys2Proof/Machine/Land.lean ====
section
/-! DEFINITION. What happens at a tick: every piece of delayed work carried out by the operation it belongs to (15 R294,
R295). -/

namespace Sys2Proof.Machine

/-! ### Reads of the stores that meet an uncorrectable error (18 R337) -/

/-- The bytes a rule fill copies. -/
def fillReads (v : Desc) (r : Rule) (f : Nat) (step : BitVec 32) : List Nat :=
  (List.range (dH v f)).flatMap fun (j : Nat) =>
    (acrossFace v (f / 2) (fillSource r f (dN v (f / 2)) ((j : Int) + 1))).map (dByte v (step.toNat % 2))

/-- The store bytes that a piece of work reads without a translated access, with the stream number of its record. -/
def State.storeReads (s : State) (c : Nat) : Act → List (Loc × Nat) × Nat
  | .trunRead r => (match r.src with | some l => [(l, 64)] | none => [], r.stream)
  | .gridRow _ off row _ _ => ([(.pocket c (off + 64 * row), 64)], 0xF)
  | .gridSend _ f step v _ _ _ =>
    ((exchangePairs v f).map fun (x, _) => (Loc.pocket c (dByte v (step.toNat % 2) x), dEsize v), 0xF)
  | .gridFill gr f r _ step _ _ =>
    let v := ((s.core c).getGrid gr).desc
    if r == .const then ([], 0xF) else ((fillReads v r f step).map fun a => (Loc.pocket c a, dEsize v), 0xF)
  | .gridLoad gr _ cur t _ _ _ =>
    let g := (s.core c).getGrid gr
    ((g.rowElems cur).filterMap fun (x, e) => match e with
      | .corner | .beyond _ => none
      | _ => some (Loc.pocket c (dByte g.desc (t.toNat % 2) x), dEsize g.desc), 0xF)
  | _ => ([], 0xF)

def spoiltStore (s : State) (l : Loc × Nat) : Bool :=
  match l.1 with
  | .ring c o => s.spoilt (.ring c o) l.2
  | .pocket c o => s.spoilt (.pocket c o) l.2
  | _ => false

/-- The condition of a read of a store that has an error. -/
def State.storeError (s : State) (p : Nat) (d : Due) : Option TrapCond :=
  if s.marks.isEmpty then none
  else
    let (l, stream) := s.storeReads d.who.core d.act
    match l.find? (spoiltStore s) with
    | some (loc, _) => some ⟨(s.part p).tick, .memoryError, d.who, memoryStatus d.who.core stream loc, .again d d⟩
    | none => none

/-! ### The operations of delayed work -/

/-- Work in the registers, queues, memory and ring of a core. -/
def State.doAct (s : State) (p : Nat) (d : Due) : State :=
  let c := d.who.core
  match d.act with
  | .x .. | .guard .. | .flag .. | .csr .. | .fflags .. | .c .. | .cLost .. | .cursor .. | .st .. | .lt .. | .noise ..
  | .v .. | .vLost .. | .k .. | .queue .. => s.modCore c fun k => k.land d.act
  | .mailbox i v => s.doMailbox d i v
  | .write a v mask q => s.doWrite p d a v mask q
  | .sampleC a r bytes signed => s.doSampleC p d a r bytes signed
  | .sampleQ a q id mask => s.doSampleQ p d a q id mask
  | .gatherIndex a mask q id sta lt el => s.doGatherIndex p d a mask q id sta lt el
  | .gatherRow a q id els bits pois => s.doGatherRow p d a q id els bits pois
  | .scatterIndex a mask v sta lt el => s.doScatterIndex p d a mask v sta lt el
  | .scatterRow a els v bits => s.doScatterRow p d a els v bits
  | .atomic a r op x y f => s.doAtomic p d a r op x y f
  | .sampleTable a isLt i => s.doSampleTable p d a isLt i
  | .touch va => s.doTouch p d va
  | .nget r ns part => s.doNget p d r ns part
  | .arm e => s.doArm e
  | .lateWait seq => s.addWait p (.late c seq)
  | .poisonMark => s.markPoison c
  | .fenceWait pd ld st upto => s.doFence p d pd ld st upto
  | .inject tk stop w q => s.doInject p d tk stop w q
  | .tapV r tk => s.doTapV p d r tk
  | .bankTake tk stop off mask => s.doBankTake p d tk stop off mask
  | .mcfg i cfg => s.modCore c fun k => k.modSa i fun a => { a with cfg := cfg }
  | .weightTake r j => s.doWeightTake p d r j
  | .mmaTake r row m got => s.doMmaTake p d r row m got
  | .mmaPass r row packet => s.doMmaPass d r row packet
  | .clearRows i int => s.modCore c fun k => k.modSa i fun a => a.clear int
  | .promote i => s.modCore c fun k => k.modSa i fun a => a.promoteAll
  | .drainRow r j => s.doDrainRow p d r j
  | .drainFlags i rows extra => s.doDrainFlags d i rows extra
  | .beatSample b => s.doBeatSample p d b
  | .beatLand b o v q => s.doBeatLand p d b o v q
  | .tload td off q nseg first prog seq gate => s.doTload p d td off q nseg first prog seq gate
  | .tloadDesc td v => s.doTloadDesc d td v
  | .tloadSegs first n v => s.doTloadSegs d first n v
  | .trunRead r => s.doTrunRead p d r
  | .trunTake r => s.doTrunTake p d r
  | .fxRow r got q => s.doFxRow p d r got q
  | .fxLand loc seq v q late launch => s.doFxLand p d loc seq v q late launch
  | .claim stream target seq => s.doClaim p d stream target seq
  | .emit loc n m _ f r => s.doEmit p d loc n m f r
  | .epop e r => s.doEpop p d e r
  | .gridRow gr off row seq got => s.doGridRow p d gr off row seq got
  | .gridDefine gr rows => s.doGridDefine p d gr rows
  | .gridLoad gr dest cur t check land seq => s.doGridLoad p d gr dest cur t check land seq
  | .gridAdvance gr step => s.doGridAdvance p d gr step
  | .gridRule gr face r const => s.doGridRule d gr face r const
  | .gridFill gr face r v step seq _ => s.doGridFill p d gr face r v step seq
  | .gridFilled gr face step cells pois seq lost => s.doGridFilled p d gr face step cells pois seq lost
  | .gridSend gr face step v seq _ _ => s.doGridSend p d gr face step v seq
  | .gridArrive e => s.doGridArrive p d e
  | .gridStore a l => s.doGridStore p d a l
  | .loadX a r bytes signed => s.doLoadX p d a r bytes signed
  | .loadV a r els bits n => s.doLoadV p d a r els bits n
  | .storeEls a els v bits => s.doStoreEls p d a els v bits
  | .kmWeights a sa noise => s.doKmWeights p d a sa noise
  | .kmPass a sa rows => s.doKmPass p d a sa rows
  | .storeRows a l => s.doStoreRows p d a l
  | .event i => { s with agenda := .event i :: s.agenda }

/-- One piece of work at its tick. -/
def State.applyDue (s : State) (p : Nat) (d : Due) : State :=
  match s.storeError p d with
  | some c => s.addCond p c
  | none => s.doAct p d

end Sys2Proof.Machine
end

