-- ==== Sys2Proof/Machine/Fetch.lean ====
section
/-! DEFINITION. The instruction caches (01 R16), fetching the word that the item of the agenda names, and the traps of a word that does not decode (03
R50, R51, R56, 12 R249, 18 R340, 21 R385). -/

namespace Sys2Proof.Machine

/-- What the head of the agenda asks for: an instruction to execute; a step that executes none; or nothing. -/
inductive Fetched where
  | run (i : Instr)
  | next (s : State)
  | tick
  deriving DecidableEq, Repr

/-! ### The words of a tick and the instruction caches (01 R16) -/

def clusters : List Cluster := [.s, .a, .v, .m]

/-- Words of the partition may issue on this tick. -/
def Part.issues (k : Part) : Bool := k.stop.isNone && !k.draining

/-- The clusters of each core whose word issues now. -/
def State.issuing (s : State) (p : Nat) : List (Nat × Cluster) :=
  let k := s.part p
  if !k.issues then []
  else k.cores.flatMap fun c => clusters.filterMap fun cl =>
    if ((s.core c).cursor cl).next == some k.tick then some (c, cl) else none

/-- The loop buffer holds the word's body (05 R112). -/
def Part.captured (k : Part) (b : BlockRef) (cl : Cluster) : Bool :=
  match b with
  | .body l => k.loops.any fun x => x.id == l && x.captured.contains (clNum cl)
  | .cont _ => false

/-- A portable instruction is due on this tick: the effects of those before it are complete (21 R395). The last of them landed on an
earlier tick, so that a freeze at this one, which holds what would land on it (18 R333), shows them (22 R402). -/
def Part.portableDue (k : Part) : Bool :=
  match k.thread with
  | some th => k.issues && !k.landed && th.issue.isNone && decide (th.ready ≤ k.tick) && k.pend.all fun d => d.place == 9 || d.who.unit == .hub
  | none => false

/-- Words of one line of an instruction cache; the manual does not state it (log entry 100). -/
def lineWords : Nat := Config.cacheLine % 2048 + 1

/-- A cluster's cache holds 2,048 words. -/
def cacheLines : Nat := 2048 / lineWords

def State.lineOf (s : State) (p : Nat) (b : BlockRef) (i : Nat) : CacheLine :=
  ⟨(s.part p).handle, (s.part p).size, b, i / lineWords⟩

/-- The lines that the words of this tick need: of each cluster's word that no loop buffer holds, or, for portable code, of each
core's first native word. -/
def State.lines (s : State) (p : Nat) : List (Nat × Cluster × CacheLine) :=
  let k := s.part p
  if k.portableDue then
    k.cores.map fun c => let w := (s.portCtx p c .s).who; (c, .s, s.lineOf p w.block w.index)
  else (s.issuing p).filterMap fun (c, cl) =>
    let q := (s.core c).cursor cl
    if k.captured q.block cl then none else some (c, cl, s.lineOf p q.block q.index)

/-- The lines of this tick that their caches do not hold. -/
def State.missing (s : State) (p : Nat) : List (Nat × Cluster × CacheLine) :=
  (s.lines p).filter fun (c, cl, l) => !(tget [] (s.core c).icache (clNum cl)).contains l

/-- A word of this tick is not in its cluster's instruction cache. -/
def State.missed (s : State) (p : Nat) : Bool :=
  !((s.part p).served.any fun w => match w with | .icache _ => true | _ => false) && !(s.missing p).isEmpty

/-- A line arrives; where the cache is full a line that the manual does not name gives way. -/
def State.icacheFill (s : State) (e : Nat × Cluster × CacheLine) : State :=
  let (c, cl, l) := e
  let (n, s) := s.draw
  s.modCore c fun k =>
    let old := tget [] k.icache (clNum cl)
    let old := if old.length < cacheLines then old else old.eraseIdx (Config.cacheVictim n % old.length)
    { k with icache := tset [] k.icache (clNum cl) (old ++ [l]) }

/-- The lines that the tick waits for arrive, and the freeze ends. -/
def execIcacheFillDone (p : Nat) (s : State) : Out :=
  let s := s.popEvent
  match (s.part p).findWait fun w => match w with | .icache _ => true | _ => false with
  | some (.icache l) => .next ((l.foldl State.icacheFill s).modPart p fun k => k.clearWait (.icache l))
  | _ => .next s

/-! ### Native words (03 R50) -/

/-- A decision, loop or continuation index that names no entry of the running object (03 R50). -/
def indexBad (o : Object) : Instr → Bool
  | .decide _ _ d => (lookupId o.decisions d.toNat).isNone
  | .chkp _ d => (lookupId o.decisions d.toNat).isNone
  | .loop _ _ l => (lookupId o.loops l.toNat).isNone
  | .call _ t r => decide (o.conts.length ≤ t.toNat) || decide (o.conts.length ≤ r.toNat)
  | _ => false

def State.indexBad (s : State) (p : Nat) (i : Instr) : Bool :=
  match s.objOf p with
  | some o => Sys2Proof.Machine.indexBad o i
  | none => false

/-- The class a word of a cluster raises before anything else, whatever its guard (03 R50, R51). -/
def State.wordFault (s : State) (p : Nat) (cl : Cluster) (w : Word) : Option Cls :=
  match decodeNative cl w with
  | .ok i => if s.indexBad p i then some .reservedField else none
  | e => nativeCls e

/-- W of a word. -/
def wordGap (w : Word) : Nat := fld w.toNat 58 5

/-- A word at its check: what it raises by R50, or the instruction. -/
def State.fetchCheck (s : State) (p c : Nat) (cl : Cluster) : Fetched :=
  match s.wordAt p cl ((s.core c).cursor cl) with
  | none => .next s.popItem
  | some w =>
    match s.wordFault p cl w with
    | some k => .next (raiseProbe (s.ctx p c cl) cl s.popItem (.trap k w))
    | none => match decodeNative cl w with
      | .ok i => .run i
      | _ => .next s.popItem

/-- A word at its issue; one that a trap skipped only occupies its tick. -/
def State.fetchIssue (s : State) (p c : Nat) (cl : Cluster) : Fetched :=
  match s.wordAt p cl ((s.core c).cursor cl) with
  | none => .next s.popItem
  | some w => match decodeNative cl w with
    | .ok i => .run i
    | _ => .next (s.popItem.advance p c cl (wordGap w))

/-- A word of a handler run: its decode faults are conditions of the run (18 R340), and so is an index that names no entry, whatever
the word's guard (R51). Every word with such an index is one that the run refuses: where its guard is true that illegal encoding is the
first of its faults (R50, R340). -/
def State.fetchHandler (s : State) (p c : Nat) : Fetched :=
  match s.handlerWord p c with
  | none => .next s.popItem
  | some w =>
    let x := s.handlerCtx p c
    match decodeNative .s w with
    | .ok i =>
      if s.indexBad p i && !s.guardTrue p c (wordFrame w) then .next (s.popItem.handlerTrap x .reservedField w) else .run i
    | e => match nativeCls e with
      | some k => .next (s.popItem.handlerTrap x k w)
      | none => .next s.popItem

/-! ### Engine words (03 R56, 12 R249) -/

def State.engineDecode (s : State) (c : Nat) (e : EngineId) : EngineDecode :=
  let g := (s.core c).getEng (engNum e)
  decodeEngine e (g.word g.pc)

def State.fetchEngineCheck (s : State) (p c : Nat) (e : EngineId) : Fetched :=
  let x := s.engCtx p c e
  let g := (s.core c).getEng (engNum e)
  match s.engineDecode c e with
  | .ok i => .run i
  | .illegal => .next (raiseEngine x s.popItem (s.engFault x e .engineFault 1))
  | .wrongEngine => .next (raiseEngine x s.popItem (s.engFault x e .engineFault 2))
  | .badArgument =>
    if !g.ready true x.t then .next s.popItem
    else .next (raiseEngine x s.popItem (s.engFault x e .engineFault 5))

def State.fetchEngine (s : State) (c : Nat) (e : EngineId) : Fetched :=
  match s.engineDecode c e with
  | .ok i => .run i
  | _ => .next s.popItem

/-! ### Portable instructions (21 R385) -/

def portableCls : PortableDecode → Option Cls
  | .ok _ => none
  | .illegal => some .illegalEncoding
  | .reserved => some .reservedField
  | .format => some .illegalFormat

/-- A run past the end of a function cannot resume. -/
def State.pastEnd (s : State) (p c : Nat) : State :=
  let x := s.portCtx p c .s
  s.addCond p ⟨x.t, .illegalEncoding, x.who, portableStatus 0 (s.threadText p).length, .killOnly⟩

def State.fetchPortableCheck (s : State) (p c : Nat) : Fetched :=
  match s.portableAt p with
  | none => .next (s.popItem.pastEnd p c)
  | some w =>
    let d := decodePortable w
    match portableCls d with
    | some k =>
      let x := s.portCtx p c .s
      .next (raisePortable x s.popItem (.trap k x.who.word))
    | none => match d with
      | .ok i => .run i
      | _ => .next s.popItem

/-- An instruction that a trap skipped lets its core go on. -/
def State.fetchPortable (s : State) (p c : Nat) : Fetched :=
  match s.portableAt p with
  | none => .next s.popItem
  | some w => match decodePortable w with
    | .ok i => .run i
    | _ => .next (s.popItem.portVote p c (.on 1))

/-! ### The head of the agenda -/

def State.fetch (s : State) : Fetched :=
  match s.agenda with
  | .check p c cl :: _ => s.fetchCheck p c cl
  | .issue p c cl :: _ => s.fetchIssue p c cl
  | .handler p c :: _ => s.fetchHandler p c
  | .checkEngine p c e :: _ => s.fetchEngineCheck p c e
  | .engine _ c e :: _ => s.fetchEngine c e
  | .checkPortable p c :: _ => s.fetchPortableCheck p c
  | .portable p c :: _ => s.fetchPortable p c
  | .event i :: _ => .run i
  | _ => .tick

end Sys2Proof.Machine
end

