-- ==== Sys2Proof/Machine/Tick.lean ====
section
/-! DEFINITION. One tick of a partition or joined group: what lands, the control events, the checks of every word, the
reads, the freeze, and the end of the tick (01 R25 to R27, 05 R92 to R113, 15 R294 to R296, 18 R333, R334). -/

namespace Sys2Proof.Machine

/-! ### Bank ports (08 R197) -/

/-- The locations a landing writes. -/
def Act.landsIn : Act → List Loc
  | .write a _ _ _ => [a.loc]
  | .scatterRow _ els _ _ => optLocs els
  | .beatLand _ o _ _ => o.spots.filterMap fun x => x.map (·.loc)
  | _ => []

/-- The locations a sample reads. -/
def Act.readsFrom : Act → List Loc
  | .sampleC a _ _ _ => [a.loc]
  | .sampleQ a _ _ _ => [a.loc]
  | .gatherIndex a (some _) _ _ _ _ _ => [a.loc]
  | .scatterIndex a (some _) _ _ _ _ => [a.loc]
  | .gatherRow _ _ _ els _ _ => optLocs els
  | .beatSample b => b.src.filterMap fun x => x.map (·.loc)
  | .trunRead r => r.src.toList
  | .fxRow r _ _ => match r.rows with | (some l, _) :: _ => [l] | _ => []
  | _ => []

/-- The banks that an access of some locations uses: one use for each row. -/
def banksOf (l : List Loc) : List (Nat × Nat) :=
  ((l.flatMap fun x => match x with
    | .ring c o => [(c, o / 64)]
    | .ringTwo c o q => [(c, o / 64), (c, q / 64)]
    | _ => []).eraseDups).map fun e => (e.1, e.2 % 8)

/-- The cores of whose banks one appears twice. -/
def twice : List (Nat × Nat) → List Nat
  | [] => []
  | e :: l => if l.contains e then e.1 :: twice l else twice l

/-! ### Landings (15 R294 to R296) -/

/-- Work of a tick that stands before its reads. -/
def landReady (t : Nat) (d : Due) : Bool := decide (d.tick ≤ t) && decide (d.place ≤ fencePlace)

structure LandItem where
  part : Nat
  age  : Int
  due  : Due
  deriving DecidableEq, Repr

/-- Whether `b`, which stands after `a`, lands before it. -/
def landsBefore (b a : LandItem) : Bool :=
  if a.due.place ≠ b.due.place then decide (b.due.place < a.due.place)
  else if a.due.place = 9 then false
  else if a.age ≠ b.age then decide (a.age < b.age)
  else decide (b.due.who.core < a.due.who.core)

def firstLanding : LandItem → List LandItem → LandItem
  | a, [] => a
  | a, b :: l => firstLanding (if landsBefore b a then b else a) l

def State.landingsOf (s : State) (g : Nat) : List LandItem :=
  (s.members g).flatMap fun q =>
    let k := s.part q
    (k.pend.filter (landReady k.tick)).map fun d => ⟨q, dueAge k d, d⟩

/-- A piece of work leaves the list of what is in flight. -/
def State.dropDue (s : State) (p : Nat) (d : Due) : State := s.modPart p fun k => { k with pend := k.pend.erase d }

/-- The groups whose landings are made together: those of the clock edge. -/
def State.onEdge (s : State) (g : Nat) : List Nat := if s.edge.contains g then s.edge else [g]

/-- The core in whose ring store or pocket a location lies. -/
def Loc.home : Loc → Option Nat
  | .ring c _ | .ringTwo c _ _ | .pocket c _ => some c
  | _ => none

/-- A landing that writes only into the stores of another group of the edge: there it is an arrival, which lands after that group's
own writes (15 R295, R296). An atomic is performed in its place among those of the edge (16 R319). -/
def State.abroad (s : State) (i : LandItem) : Bool :=
  let l := i.due.act.writes i.due.tick i.due.who.core
  !i.due.act.isAtomic && !l.isEmpty && l.all fun w => match w.1.home.bind s.partOf with
    | some q => !s.sameGroup i.part q && s.edge.any (s.sameGroup · q)
    | none => false

/-- The next landing of a group, of those that go abroad or of the others. -/
def State.nextLanding (s : State) (far : Bool) (g : Nat) : Option LandItem :=
  match (s.landingsOf g).filter fun i => s.abroad i == far with
  | [] => none
  | a :: l => some (firstLanding a l)

/-- The physical places that a landing writes, with lengths. -/
def State.placesOf (s : State) (i : LandItem) : List (Bytes × Nat) :=
  (i.due.act.writes i.due.tick i.due.who.core).flatMap fun w => (w.1.pieces w.2.1).filterMap fun (l, n) =>
    match (s.resolveLoc i.part i.due.who.core .write l).2 with
    | .ok b => some (b, n)
    | .error _ => none

def placesMeet (a b : Bytes × Nat) : Bool := a.1.split.1 == b.1.split.1 && overlap a.1.split.2 a.2 b.1.split.2 b.2

/-- A landing of the edge waits for one of another group, by a lower core, to bytes that it writes too (15 R299, 16 R319). -/
def State.waitsTurn (s : State) (g : Nat) (a : LandItem) : Bool :=
  (s.onEdge g).any fun h => !s.sameGroup a.part h && (s.landingsOf h).any fun b =>
    s.abroad b == s.abroad a && decide (b.due.who.core < a.due.who.core) &&
      (s.placesOf b).any fun u => (s.placesOf a).any (placesMeet u)

/-- Of the landings that the groups of one edge make next, that of the lowest core goes first. -/
def lowestCore : LandItem → List LandItem → LandItem
  | a, [] => a
  | a, b :: l => lowestCore (if b.due.who.core < a.due.who.core then b else a) l

/-- What lands next on the edge: of each group its next landing, those that go abroad after the others; one whose turn has not come
waits, unless each waits for another. -/
def State.nextOnEdge (s : State) (g : Nat) : Option LandItem :=
  let near := (s.onEdge g).filterMap (s.nextLanding false)
  let all := if near.isEmpty then (s.onEdge g).filterMap (s.nextLanding true) else near
  match (if all.length ≤ 1 then all else all.filter fun a => !s.waitsTurn g a), all with
  | a :: l, _ => some (lowestCore a l)
  | [], a :: l => some (lowestCore a l)
  | [], [] => none

/-- The next landing of the edge. When none is left the item goes, and the arrivals of the tick have landed. -/
def State.landStep (s : State) (g : Nat) : State :=
  match s.nextOnEdge g with
  | none => ((s.onEdge g).flatMap s.members).foldl (fun s q => s.modPart q fun k => { k with fresh := [] }) s.popItem
  | some x =>
    let s := (s.dropDue x.part x.due).modPart x.part fun k =>
      { k with bankUse := k.bankUse ++ banksOf x.due.act.landsIn, landed := k.landed || x.due.who.unit != .hub }
    s.applyDue x.part x.due

/-! ### Control events (05 R99, R107, R128, 10 R236, 12 R251, R253) -/

def Part.boundaryDue (k : Part) : Bool :=
  match k.loops with
  | [] => false
  | l :: _ =>
    if l.begun then
      l.clock == (l.period + 1) * l.entry.period && decide (l.period + 1 < l.count.toNat + l.entry.stages - 1)
    else k.resumeAt == some k.tick

def Part.exitDue (k : Part) : Bool :=
  match k.loops with
  | [] => false
  | l :: _ =>
    let n := l.count.toNat + l.entry.stages - 1
    l.begun && l.clock == n * l.entry.period && l.period + 1 == n

def Part.switchDue (k : Part) : Bool := match k.decision with | some d => k.tick == d.issue + delta k.n | none => false

def engines : List EngineId := [.ce, .tie, .fx]

def State.coreEvents (s : State) (p c : Nat) : List Item :=
  let k := s.core c
  let t := (s.part p).tick
  (k.sa.filterMap fun e => if e.2.gates k.mgate.toNat t then some (Item.event (.subarrayGate c e.1)) else none) ++
    engines.flatMap fun e =>
      let g := k.getEng (engNum e)
      List.replicate (s.landCount p c (engNum e)) (Item.event (.resultEntryLand c e)) ++
        (if g.canChain t then [Item.event (.engineChainStart c e)] else []) ++
        (if g.canStart t then [Item.event (.engineCommandStart c e)] else [])

def State.controlEvents (s : State) (p : Nat) : List Item :=
  let k := s.part p
  (if k.issues && k.boundaryDue then [Item.event (.iterationBoundary p)] else []) ++
    (if k.issues && k.exitDue then [Item.event (.loopExit p)] else []) ++
    (if k.issues && k.switchDue then [Item.event (.decisionSwitch p)] else []) ++
    (if k.pulseDue then [Item.event (.pulseIntervalExpiry p)] else []) ++
    k.cores.flatMap (s.coreEvents p) ++
    (match k.thread with
      | some th => if k.issues && th.issue.isSome then [Item.portableEnd p] else []
      | none => [])

/-- A result entry lands on this tick. -/
def State.resultsLand (s : State) (p : Nat) : Bool :=
  (s.part p).cores.any fun c => engines.any fun e => 0 < s.landCount p c (engNum e)

def State.controlStep (s : State) (g : Nat) : State :=
  let l := (s.members g).filter fun q => (s.part q).live
  let t := (l.filter s.resultsLand).foldl (fun (t : State) q => t.modPart q fun k => { k with landed := true }) s
  { t with agenda := l.flatMap s.controlEvents ++ s.agenda.drop 1 }

/-! ### The words of the tick (05 R92, 12 R249, 21 R380) -/

def State.runningEngines (s : State) (p : Nat) : List (Nat × EngineId) :=
  (s.part p).cores.flatMap fun c => engines.filterMap fun e =>
    if ((s.core c).getEng (engNum e)).running then some (c, e) else none

/-- The function that a launch enters is not translated (21 R397, 22 R400). -/
def State.entryStub (s : State) (p : Nat) : Bool :=
  let th := s.thread p
  th.off == 0 && s.untranslated p th.fn

def State.wordChecks (s : State) (p : Nat) : List Item :=
  let k := s.part p
  let skip (c : Nat) (cl : Cluster) : Bool := k.voids.contains (c, cl)
  (if s.missed p then []
    else if k.portableDue then
      (if s.entryStub p then [] else (k.cores.filter fun c => !skip c .s).map (Item.checkPortable p))
    else ((s.issuing p).filter fun e => !skip e.1 e.2).map fun e => Item.check p e.1 e.2) ++
    (s.runningEngines p).map fun e => Item.checkEngine p e.1 e.2

/-- What holds the tick before any word is looked at: an instruction-cache miss, or an entry function that waits for its
translation. -/
def State.preCheck (s : State) (p : Nat) : State :=
  if s.missed p then s.addWait p (.icache (s.missing p))
  else if (s.part p).portableDue && s.entryStub p then
    s.addCond p ⟨(s.part p).tick, .translationPending, (s.portCtx p (s.part p).base .s).who,
      BitVec.ofNat 64 (s.thread p).fn, .retry⟩
  else s

/-- The first tick of a drain on which nothing is left, and nothing landed, ends where it stands (18 R347, 20 R377). -/
def State.gatherStep (s : State) (g : Nat) : State :=
  let l := (s.members g).filter fun q => (s.part q).live
  match l.find? fun q => (s.part q).draining && !(s.part q).landed && s.drained q && (s.condsNow g).isEmpty with
  | some q => { s with agenda := [.event (.preemptDrainDone q)] }
  | none =>
    let t := l.foldl State.preCheck s
    { t with agenda := l.flatMap s.wordChecks ++ .resolve g :: s.agenda.drop 1 }

/-! ### The reads of a tick (15 R296, 18 R333 to R335) -/

def State.nextSample (s : State) (g : Nat) : Option (Nat × Due) :=
  (s.members g).findSome? fun q =>
    let k := s.part q
    (k.pend.find? fun d => decide (d.tick ≤ k.tick) && d.place == samplePlace).map fun d => (q, d)

def State.performDue (s : State) (p : Nat) (d : Due) : State := (s.dropDue p d).applyDue p d

/-- Every read of the tick is performed, which shows each condition that they meet. -/
def readAll (g : Nat) : Nat → State → State
  | 0, s => s
  | n + 1, s =>
    match s.nextSample g with
    | none => s
    | some (p, d) => readAll g n (s.performDue p d)

/-- Pieces of work in flight of a group. -/
def State.pendCount (s : State) (g : Nat) : Nat := (s.members g).foldl (fun n q => n + (s.part q).pend.length) 0

/-! ### Freezing (01 R27, 18 R333, R334) -/

/-- The trap of a group that stands still. -/
def State.trapNow (s : State) (g : Nat) : State := s.trapOf g (s.condsNow g) fun c => [c.fix]

/-- The resumption action of a condition of a tick that is made again: work that is still in flight is not added, and what goes on
past its condition, or is abandoned, does not raise it again. -/
def TrapCond.madeAgain (c : TrapCond) : List Fix :=
  match c.fix with
  | .again old new => [.swap old new]
  | .fault _ core st v => [.aim core st v]
  | .continue_ | .abandon _ _ _ => if c.cls = .debugStep then [c.fix] else [c.fix, .settle c.cls c.who c.status]
  | f => [f]

def State.freezeGroup (s : State) (g : Nat) : State :=
  { (s.members g).foldl (fun (s : State) q => s.modPart q fun k => k.freeze s.wall) s with agenda := [] }

/-- A freeze cause that has been served on this tick already. -/
def Part.hasServed (k : Part) (w : Wait) : Bool :=
  match w with
  | .epop c e _ => k.served.contains (.epop c e true)
  | w => k.served.contains w

/-- What a tick that is made again need not wait for any more: the entry of a pop lands before its words issue (06 R137, 12 R255). -/
def State.serve (s : State) (p : Nat) : Wait → State
  | .queue c q => s.deliver p c q
  | .epop c e _ => s.landAwaited p c e
  | _ => s

/-- The freeze causes of a tick that hold it: those that have not been served. An EPOP's entry that launches do not hold back, is ready
to land. -/
def State.causes (s : State) (p : Nat) : List Wait :=
  let k := s.part p
  (k.waits.filter fun w => !k.hasServed w || (match w with | .epop c e _ => (s.resultReady p c e).isNone | _ => false)).map fun w =>
    match w with
    | .epop c e _ => .epop c e (s.resultReady p c e).isSome
    | w => w

/-! ### Checks across several words (05 R94, R95, R100, R101, R118, R126, R127) -/

/-- What the cores' S words must agree on. -/
def collectiveKey : Instr → Option (List Nat)
  | .decide _ _ d => some [0, d.toNat]
  | .loop _ _ l => some [1, l.toNat]
  | .call _ t r => some [2, t.toNat, r.toNat]
  | .ret _ => some [3]
  | .chkp _ d => some [4, d.toNat]
  | .stop _ => some [5]
  | .bar _ id sc j => some [6, id.toNat, sc.code, j.code]
  | _ => none

/-- A core's part in a collective S word, and whether its guard lets it act. -/
structure SharedWord where
  core : Nat
  key  : List Nat
  acts : Bool
  deriving DecidableEq, Repr

def State.collective (s : State) (p : Nat) (l : List (Nat × Cluster)) : List SharedWord :=
  (l.filter fun e => e.2 == .s).filterMap fun e =>
    match s.wordAt p .s ((s.core e.1).cursor .s) with
    | none => none
    | some w => match decodeNative .s w with
      | .ok i => (collectiveKey i).map fun key =>
          ⟨e.1, key, s.guardTrue p e.1 (wordFrame w) && !(s.part p).voids.contains (e.1, .s)⟩
      | _ => none

/-- Words without effect on this tick, and the condition named by one of them with its freeze tick at t + 1. -/
def State.offend (s : State) (p : Nat) (cls : Cls) (c : Nat) (cl : Cluster) (l : List (Nat × Cluster)) : State :=
  let x := s.ctx p c cl
  (s.modPart p fun k => { k with voids := k.voids ++ l }).addCond p ⟨x.t + 1, cls, x.who, x.who.word, .continue_⟩

/-- The collective S words of a tick. -/
def State.collectiveCheck (s : State) (p : Nat) (l : List (Nat × Cluster)) : State :=
  let all := s.collective p l
  let act := all.filter (·.acts)
  let words := act.map fun a => (a.core, Cluster.s)
  match all, act with
  | _, [] => s
  | [], _ => s
  | f :: _, a :: _ =>
    if act.length = (s.part p).size && act.all fun b => b.key == a.key then
      if decide (a.key.headD 9 < 5) && (s.part p).decision.isSome then s.offend p .decisionOverlap f.core .s words else s
    else s.offend p .divergence f.core .s words

def yBit (w : Word) : Bool := w.getLsbD 63

/-- The rendezvous of one core's words. -/
def State.rendezvous (s : State) (p : Nat) (l : List (Nat × Cluster)) (c : Nat) : State :=
  let ys := (l.filter fun e => e.1 == c).filter fun e =>
    match s.wordAt p e.2 ((s.core c).cursor e.2) with | some w => yBit w | none => false
  match ys with
  | [] => s
  | y :: _ => if ys.length < 4 then s.offend p .divergence c y.2 ys else s

/-- The checks across the words of a tick. The words that a failed rendezvous voids are those of its own core with Y = 1; collective
words of other cores still act (DESIGN CHOICE, log entry 93). -/
def State.crossChecks (s : State) (p : Nat) : State :=
  let l := s.issuing p
  (s.part p).cores.foldl (fun s c => s.rendezvous p l c) (s.collectiveCheck p l)

/-! ### Bank conflicts (08 R197) -/

/-- The bank row that a VRD of this tick reads, where nothing voids the word. -/
def State.vrdBank (s : State) (p c : Nat) (voids : List (Nat × Cluster)) : List (Nat × Nat) :=
  let cur := (s.core c).cursor .v
  if cur.next != some (s.part p).tick || voids.contains (c, .v) then []
  else match s.wordAt p .v cur with
    | none => []
    | some w => match decodeNative .v w with
      | .ok (.vrd f _ st _ _) =>
        if s.guardTrue p c f then
          let (r, l) := (s.core c).stream st.val
          match (s.rowAt c l st.val r.cur).own with
          | some a => banksOf [a]
          | none => []
        else []
      | _ => []

/-- The cores with more reads, or more writes, of one bank on this tick than its port serves. -/
def State.bankClash (s : State) (p : Nat) : List Nat :=
  let k := s.part p
  let reads := (k.pend.filter fun d => decide (d.tick ≤ k.tick) && d.place == samplePlace).flatMap fun d => banksOf d.act.readsFrom
  twice (reads ++ k.cores.flatMap fun c => s.vrdBank p c ((s.crossChecks p).part p).voids) ++ twice k.bankUse

/-- A conflict freezes the partition while its bank serves the accesses, and is noted in VSTAT. On a tick that traps, no
word issues, and the ports are looked at when its ticks resume. -/
def State.bankCheck (s : State) (p : Nat) : State :=
  if !(s.condsNow p).isEmpty then s
  else match s.bankClash p with
  | [] => s
  | l => (s.modCores l Core.bankConflict).addWait p .bank

/-! ### Issue -/

def State.issueItems (s : State) (p : Nat) : List Item :=
  let k := s.part p
  (s.issuing p).map (fun e => Item.issue p e.1 e.2) ++
    (s.runningEngines p).map (fun e => Item.engine p e.1 e.2) ++
    (if k.portableDue then k.cores.map (Item.portable p) ++ [Item.portableEnd p] else [])

def State.issueStage (s : State) (g : Nat) : State :=
  let l := (s.members g).filter fun q => (s.part q).live
  let s := l.foldl State.crossChecks s
  { s with agenda := l.flatMap s.issueItems ++ [.endTick g] }

/-- A clock edge of some groups: what lands on it lands for each of them, and their words follow (15 R296, log entry 79). -/
def State.beginEdge (s : State) (l : List Nat) : State :=
  match l with
  | [] => { s with agenda := [], edge := [], undo := none }
  | g :: _ =>
    let t := { s with agenda := [.landings g], edge := l }
    { t with undo := some t.toModule }

/-- Wakes of a core that the checks of a tick have started go on, whether or not its words issue, where the sub-array has gated on that
tick itself too: it does not gate again (10 R236). -/
def Core.keepWakes (k old : Core) : Core :=
  old.sa.foldl (fun (k : Core) e =>
    if e.2.power == .waking then k.modSa e.1 fun a =>
      if a.power == .waking then a else { a with power := .waking, wakeAt := e.2.wakeAt, idle := 0, sleepAt := none }
    else k) k

/-- A tick of a group is taken back: what landed on it is in flight again, for a freeze at f holds every access of f until ticks
resume (15 R298, 18 R333; log entry 12). -/
def State.takeBack (s : State) (g : Nat) : State :=
  match s.undo with
  | some b =>
    ((s.members g).flatMap fun q => (s.part q).cores).foldl (fun (t : State) c => t.modCore c fun k => k.keepWakes (s.core c))
      { toModule := b, undo := none }
  | none => s

/-- A trap of the edge's tick: the tick is taken back, the group stands still, and the edge is made anew for the other groups (18 R333,
R353; log entry 12). Conditions that the freeze before this tick met, whose work is over, take their own actions. -/
def State.trapEdge (s : State) (g : Nat) (conds : List TrapCond) : State :=
  let t := s.takeBack g
  let before := t.condsNow g
  (t.trapOf g conds fun c => if before.contains c then [c.fix] else c.madeAgain).beginEdge (t.edge.filter (· != g))

/-- Freeze causes that can clear only when writes of f have gone out: a fence or a full window waits for their acknowledgements, and
an EPOP, or a fence, for late ones. -/
def Wait.wantsWrites : Wait → Bool
  | .fence .. | .window _ _ | .epop _ _ _ => true
  | _ => false

/-- Of what lands on a tick that is held, writes that no tick performs go on: those posted to another module, which are performed when
they reach it, and late ones of a loose partition, which are performed on arrival (15 R298; log entry 12). `on` is the tick with its
landings made one after another, which shows which they are. -/
def setOut (g : Nat) : Nat → State → State → State
  | 0, _, s => s
  | n + 1, on, s =>
    match on.nextLanding false g, on.nextLanding true g with
    | some i, _ | none, some i =>
      let t := (on.dropDue i.part i.due).applyDue i.part i.due
      let goes := !(on.farWrites i.part i.due).isEmpty || decide ((on.part i.part).lateWrites.length < (t.part i.part).lateWrites.length)
      setOut g n t (if goes && (s.part i.part).pend.contains i.due then (s.dropDue i.part i.due).applyDue i.part i.due else s)
    | none, none => s

/-- A freeze of another cause: the tick is taken back and made again when every cause has cleared, and the edge is made anew for the
other groups (01 R27, 15 R298). -/
def State.holdEdge (s : State) (g : Nat) : State :=
  let t := (s.members g).foldl (fun (t : State) q => t.modPart q fun k => { k.freeze s.wall with waits := s.causes q }) (s.takeBack g)
  let t := if (s.members g).any fun q => (s.causes q).any Wait.wantsWrites then setOut g (s.pendCount g + t.pendCount g) t t else t
  { t with agenda := [] }.beginEdge (t.edge.filter (· != g))

/-- No cause holds the tick: what it waited for has come. -/
def State.serveAll (s : State) (g : Nat) : State :=
  (s.members g).foldl (fun (s : State) q =>
    ((s.part q).waits.foldl (fun (s : State) w => s.serve q w) s).modPart q fun k => { k with waits := [] }) s

/-- Every word of the tick has been looked at: the group freezes on a trap or another cause, or the words issue. -/
def State.resolveStep (s : State) (g : Nat) : State :=
  let s := ((s.members g).filter fun q => (s.part q).live).foldl State.bankCheck s.popItem
  let s := readAll g (2 * s.pendCount g + 16) s
  if !(s.condsNow g).isEmpty then s.trapEdge g (s.condsNow g)
  else if (s.members g).any fun q => !(s.causes q).isEmpty then s.holdEdge g
  else (s.serveAll g).issueStage g

/-! ### The end of a tick (01 R25, 05 R110, R126, 10 R236, 18 R353) -/

/-- A sub-array at the end of tick `t`: its idle count, which rises on every tick without a use, while it wakes too, and a
wake that completes. -/
def SubArray.endTick (a : SubArray) (t : Nat) : SubArray :=
  let a := { a with idle := if a.used = t || a.busyAt t then 0 else a.idle + 1 }
  if a.power == .waking && decide (a.wakeAt ≤ t + 1) then { a with power := .awake } else a

def Core.endTick (k : Core) (t : Nat) : Core := { k with sa := k.sa.map fun (e : Nat × SubArray) => (e.1, e.2.endTick t) }

def advanceLoops : List Level → List Level
  | [] => []
  | l :: r => (if l.begun then { l with clock := l.clock + 1 } else l) :: r

/-- The partition's tick advances. -/
def State.advanceTick (s : State) (p : Nat) : State :=
  let s := s.modPart p fun k =>
    { k with tick := k.tick + 1, loops := advanceLoops k.loops, settled := [], voids := [], served := [], bankUse := [],
             landed := false, frozenAt := none, counted := 0, countFrom := none, startAt := none }
  if (s.part p).stepping then
    (s.modPart p fun k => { k with stepping := false }).addCond p
      ⟨(s.part p).tick, .debugStep, s.hubWho p, 0, .continue_⟩
  else s

/-- STOP ends the joined group (05 R126). -/
def State.endJoin (s : State) (l : List Nat) : State :=
  if l.any fun q => (s.part q).stop == some (s.part q).tick then
    l.foldl (fun (s : State) q => s.modPart q fun k => { k with join := none }) s
  else s

/-- What an A read samples, in bytes. -/
def Act.ercRead : Act → Option (Access × Nat)
  | .sampleC a _ n _ => some (a, n)
  | .sampleQ a _ _ _ | .gatherIndex a (some _) _ _ _ _ _ | .scatterIndex a (some _) _ _ _ _ => some (a, 64)
  | .atomic a _ _ _ _ f => some (a, f.bits / 8)
  | _ => none

/-- What a word that issued on this tick reads with erc: an A word in its access, a VRD the bank row of its stream, whose cursor still
stands where the word found it. With it goes the tick of the sample. -/
def State.ercRead (s : State) (p : Nat) (d : Due) : Option (Loc × Nat × Nat × Cluster) :=
  match d.who.unit, d.act, d.act.ercRead with
  | .a, _, some (a, n) => if a.erc then some (a.loc, n, d.tick, .a) else none
  | .v, .tapV _ _, _ =>
    match decodeNative .v d.who.word with
    | .ok (.vrd _ _ st _ _) =>
      let (r, l) := (s.core d.who.core).stream st.val
      if l.erc then (s.rowAt d.who.core l st.val r.cur).own.map fun a => (a, 64, (s.part p).tick, .v) else none
    | _ => none
  | _, _, _ => none

/-- The early reads of a tick among the words that issued on it: an A read or a VRD with erc, and a write that another word of the
partition issued on the same tick and that lands after the sample (07 R163, 08 R203; log entry 98). -/
def State.earlyReads (s : State) (p : Nat) : List TrapCond :=
  let k := s.part p
  let now := k.pend.filter fun d => d.who.issue == k.tick
  now.filterMap fun d => match s.ercRead p d with
    | some (a, n, t, cl) =>
      if now.any fun e => e.who != d.who && (s.writesOf p e).any fun w => decide (t < w.2.2) && locOverlap a n w.1 w.2.1 then
        some ⟨k.tick, .earlyRead, d.who, d.who.word, .void d.who.core cl⟩
      else none
    | none => none

/-- A partition that completes on this tick. -/
def State.completes (s : State) (p : Nat) : Bool := s.partFinished p && (s.part p).conds.isEmpty

/-- The tick ends; an early read that only shows with the words of its tick takes the tick back. -/
def State.endStep (s : State) (g : Nat) : State :=
  let l := s.members g
  let early := l.flatMap s.earlyReads
  if !early.isEmpty then s.trapEdge g early else
  let live := l.filter fun q => (s.part q).live
  let s := live.foldl (fun (s : State) q => s.modCores (s.part q).cores fun k => k.endTick (s.part q).tick) s
  let s := s.endJoin l
  let done := live.filter s.completes
  let t := live.foldl (fun (t : State) q => if done.contains q then t else t.advanceTick q) s
  let t := live.foldl (fun (t : State) q => if (t.part q).waits.isEmpty then t else t.freezeGroup q) t
  { t with agenda := done.map fun q => .event (.partitionComplete q) }

/-- The words of a group's tick, whose landings have been made. -/
def State.edgeTick (s : State) (g : Nat) (l : List Nat) : State := { s with agenda := [.control g, .gather g], edge := l }

end Sys2Proof.Machine
end

