-- ==== Sys2Proof/Machine/Schedule.lean ====
section
/-! DEFINITION. What happens between ticks: which group moves next, the events of wall time, the freezes that clear, and
what comes from outside (01 R25, R405, 19 R362 to R371; log entry 2). -/

namespace Sys2Proof.Machine

/-- What may happen next. -/
inductive Choice where
  | tick (g : Nat)
  | trap (g : Nat)
  | drift (p : Nat)
  | credit (p core window : Nat)
  | cap
  | item (i : Item)
  deriving DecidableEq, Repr

/-- WALL never stands still (01 R25). -/
def State.passTime (s : State) : State :=
  let (n, s) := s.draw
  s.passWall (s.wall + Config.wallAdvance n)

def State.lead (s : State) (p : Nat) : Bool := (s.members p).headD p == p

/-- A group that is to begin tick 0 while the regions of an entry with its alignment point relock: they take that edge together
(19 R362). -/
def State.startHeld (s : State) (g : Nat) : Bool :=
  match (s.part g).startAt with
  | some w => s.parts.any fun e => e.2.live && e.2.startAt == some w && e.2.waits.contains .pll
  | none => false

/-- A group whose ticks can move. -/
def State.movable (s : State) (g : Nat) : Bool :=
  (s.members g).all fun q => let k := s.part q; k.live && !k.still && !s.startHeld q

/-- The lowest core of a group. -/
def State.lowCore (s : State) (g : Nat) : Nat := (s.members g).foldl (fun m q => min m (s.part q).base) 2048

/-- Groups in ascending order of their lowest cores. -/
def State.byCore (s : State) : List Nat → List Nat
  | [] => []
  | g :: l =>
    let r := s.byCore l
    r.takeWhile (fun q => s.lowCore q < s.lowCore g) ++ g :: r.dropWhile (fun q => s.lowCore q < s.lowCore g)

/-- Entries that started on one alignment point begin tick 0 on one edge (19 R362). -/
def State.startsWith (s : State) (g q : Nat) : Bool := (s.part g).startAt.isSome && (s.part q).startAt == (s.part g).startAt

/-- The groups whose next tick is on one clock edge with that of `g`: of those that can move, the groups of its throttle set, and
on tick 0 those that start with it and the groups of their sets (01 R14, R26; log entry 79). -/
def State.edgeGroups (s : State) (g : Nat) : List Nat :=
  let can := (s.parts.map (·.1)).filter fun q => q == g || (s.lead q && s.movable q)
  let firsts := can.filter fun q => q == g || s.startsWith g q
  let set := s.throttleSet ((firsts.flatMap s.members).flatMap fun q => (s.part q).regions)
  s.byCore (can.filter fun q => firsts.contains q || (s.part q).regions.any set.contains)

/-- A group that stands still, or has completed, and meets a condition on the tick at which it stands. -/
def State.trappable (s : State) (g : Nat) : Bool :=
  ((s.members g).all fun q => let k := s.part q; k.run && k.trap.isNone) &&
    (s.members g).any (fun q => (s.part q).still || (s.part q).complete) && !(s.condsNow g).isEmpty

/-- Handler words that can run (18 R339, R340). -/
def State.handlerItems (s : State) (p : Nat) : List Choice :=
  let k := s.part p
  match k.trap with
  | some t =>
    if t.localRoute then
      (k.cores.filter fun c => (s.core c).hm && (s.handlerWord p c).isSome).map fun c => Choice.item (.handler p c)
    else []
  | none => []

def engineOf (e : Nat) : EngineId := if e = 0 then .ce else if e = 1 then .tie else .fx

/-- The regions whose PLLs relock. -/
def State.relocking (s : State) : List Nat := (s.freq.filter fun e => bitAt e.2.toNat 9 == 1).map (·.1)

/-- The event that ends a freeze cause, where what it waits for can come now (01 R27, R405). -/
def State.clearing (s : State) (p : Nat) (w : Wait) : List Choice :=
  let ev (i : Instr) : List Choice := [Choice.item (.event i)]
  match w with
  | .queue _ _ => ev (.queueEntryDelivered p)
  | .epop c e true => ev (.resultEntryLand c (engineOf e))
  | .late _ _ => ev (.lateDataArrival p)
  | .icache _ => ev (.icacheFillDone p)
  | .lsq _ _ => ev (.lsqEntryRetire p)
  | .bank => ev (.bankPortServiceDone p)
  | .wake c sa => ev (.subarrayWakeDone c sa)
  | .window c w => if (s.core c).winInner.any fun r => r.window == w && !r.far then [.credit p c w] else []
  | _ => []

/-- Work that reaches its place in wall time while the ticks of its group stand still: untimed beats that have set out (18 R353). -/
def Part.driftsStill (k : Part) (d : Due) : Bool :=
  match d.act with
  | .beatLand b _ _ _ => b.untimed.isSome && (!b.src.isEmpty || decide (d.tick ≤ k.tick))
  | _ => false

/-- What has arrived at a partition, or has reached its place, by the tick at which its group stands still (15 R296). -/
def Part.arrived (k : Part) : Option Due :=
  k.pend.find? fun d => d.place == 9 && decide (d.tick ≤ k.tick) && !(match d.act with | .beatLand b _ _ _ => b.untimed.isSome | _ => false)

/-- Work that goes on in wall time while its partition's ticks do not: that of a group that stands still, and what is left of
a complete partition (05 R126, 12 R268, 18 R353). -/
def State.driftDue (s : State) (p : Nat) : Option Due :=
  let k := s.part p
  let held (d : Due) : Bool := d.place == heldPlace && k.waits.any fun w => match w with | .window _ _ => true | _ => false
  if k.complete then k.pend.find? fun d => !held d
  else if (s.members p).any fun q => (s.part q).still then k.pend.find? fun d => !held d && k.driftsStill d
  else none

/-- Perform a piece of work at the tick at which its partition stands. -/
def State.driftOne (s : State) (p : Nat) (d : Due) : State :=
  let t := (s.dropDue p d).applyDue p { d with tick := (s.part p).tick, place := min d.place samplePlace }
  ((match d.act with
    | .gridArrive e => t.modPart p fun k => k.clearHems e.core e.gr
    | _ => t).clearFences p).modPart p fun k => k.clearPops d.who.core 0

/-- Perform what goes on in wall time. -/
def State.driftStep (s : State) (p : Nat) : State :=
  match s.driftDue p with
  | none => s
  | some d => s.driftOne p d

/-- Every write that had arrived when its group came to stand still at f, or arrives then, lands at f before anything else happens
(15 R296, 17 R330). -/
def State.arrivedNow (s : State) : Option (Nat × Due) :=
  s.parts.findSome? fun e =>
    if e.2.live && s.groupStill e.1 then e.2.arrived.map fun d => (e.1, d) else none

/-- The oldest write inside the module that holds units of a window hands them back, and its core's freeze for the window ends
(16 R318, log entry 9). -/
def State.creditStep (s : State) (p core window : Nat) : State :=
  let s := s.modCore core fun k => { k with winInner := k.winInner.eraseP fun r => r.window == window && !r.far }
  s.modPart p fun k => { k with waits := k.waits.filter (· != .window core window) }

def State.partChoices (s : State) (p : Nat) : List Choice :=
  let k := s.part p
  let lead := s.lead p
  let when (b : Bool) (c : Choice) : List Choice := if b then [c] else []
  let ev (i : Instr) : Choice := .item (.event i)
  when (lead && s.movable p) (.tick p) ++ when (lead && s.trappable p) (.trap p) ++ s.handlerItems p ++
    (if k.run then k.waits.flatMap (s.clearing p) else []) ++
    when (k.run && (s.driftDue p).isSome) (.drift p) ++
    when (!k.lateWrites.isEmpty) (ev (.lateWritePerform p)) ++
    when (s.entryFinished p) (ev (.entryDone p)) ++
    when (k.saving && k.trap.isNone) (ev (.saveComplete p)) ++
    when (!k.run && (s.entry p).state == 4 && s.postedNone p) (ev (.killQuiesced p))

/-- Everything that may happen now. -/
def State.choices (s : State) : List Choice :=
  let ev (i : Instr) : Choice := .item (.event i)
  s.parts.flatMap (fun e => s.partChoices e.1) ++
    s.entries.flatMap (fun e => if s.loadReady e.1 then [ev (.loadingDone (Fin.ofNat 1024 e.1))] else []) ++
    s.arrivals.flatMap (fun e => if s.barrierFull e.1 then [ev (.barrierRelease e.1)] else []) ++
    (if s.ackReady then [ev .invalidateAck] else []) ++ s.relocking.map (fun r => ev (.pllRelockDone (Fin.ofNat 128 r))) ++
    (if s.ready = 0 then [ev .selfTestComplete] else [])

/-! ### Events with a WALL of their own -/

/-- A throttle set that a new FCAP has not yet brought down (19 R366, R367). -/
def State.aboveCap (s : State) : List (List Nat) := s.throttleSets.filter fun l => decide (s.fcap.toNat < s.setLow l)

/-- WALL at which every region of a set may change step. -/
def State.windowEnd (s : State) (l : List Nat) : Nat :=
  l.foldl (fun m r => match tfind s.stepAt r with | some w => max m (w + 100000) | none => m) 0

/-- The step changes that power and temperature ask for (19 R369): each throttle set above step 0 steps down as soon as it may,
again and again, while a limit is passed; each below FCAP steps up when there has been headroom for 1 ms. -/
def State.powerTimes (s : State) : List (Nat × Choice) :=
  let ev (i : Instr) : Choice := .item (.event i)
  (if s.overLimit then
    (s.throttleSets.filter fun l => s.setLow l != 0).map fun l => (s.windowEnd l, ev .powerLimitStepdown)
  else []) ++
    match s.coolFor with
    | some w => (s.throttleSets.filter fun l => decide (s.setLow l < s.fcap.toNat)).map fun l =>
        (max w (s.windowEnd l), ev .powerStepup)
    | none => []

def State.partTimes (s : State) (p : Nat) : List (Nat × Choice) :=
  let k := s.part p
  let ev (i : Instr) : Choice := .item (.event i)
  (match s.limitAt p with | some w => [(w, ev (.freezeLimitExpiry p))] | none => []) ++
    (match k.frozenAt with
      | some w => if k.trap.isSome then [] else k.waits.filterMap fun x => match x with
        | .hem _ _ tmo _ _ => some (w + tmo * 1000 + 1, ev (.hemTimeout p))
        | _ => none
      | none => [])

def State.times (s : State) : List (Nat × Choice) :=
  let ev (i : Instr) : Choice := .item (.event i)
  s.entries.flatMap (fun e =>
    if e.2.state = 3 && e.2.loaded then [(e.2.start, ev (.partitionStart (Fin.ofNat 1024 e.1)))]
    else if e.2.state = 3 && !s.loadReady e.1 then [(s.windowEnd (s.launchStep e.2).1, ev (.loadingDone (Fin.ofNat 1024 e.1)))]
    else []) ++
    s.parts.flatMap (fun e => s.partTimes e.1) ++
    s.arrivals.flatMap (fun e => if s.podFull e.1 then [(s.podTarget e.1, ev (.podBarrierRelease e.1))] else []) ++
    s.relocking.map (fun r => (tget 0 s.stepAt r + 3000, ev (.pllRelockDone (Fin.ofNat 128 r)))) ++
    s.sites.map (fun t => (t.wall + 2000, ev (.combiningSlotTimeout (BitVec.ofNat 16 t.tag) (BitVec.ofNat 11 t.dcore)))) ++
    s.aboveCap.map (fun l => (s.windowEnd l, Choice.cap)) ++ s.powerTimes

def earliest : Nat × Choice → List (Nat × Choice) → Nat × Choice
  | a, [] => a
  | a, b :: l => earliest (if b.1 < a.1 then b else a) l

def State.firstTime (s : State) : Option (Nat × Choice) :=
  match s.times with
  | [] => none
  | a :: l => some (earliest a l)

/-! ### The next thing that happens -/

def State.push (s : State) (i : Item) : State := { s with agenda := i :: s.agenda }

/-- What has arrived lands; the stamps of an exchange do so by their event. -/
def State.arriveStep (s : State) (p : Nat) (d : Due) : State :=
  match d.act with
  | .gridArrive e => s.push (.event (.hemStampArrival e.core e.gr e.face e.step))
  | _ => s.driftOne p d

def State.choose (s : State) (c : Choice) : State :=
  match c with
  | .tick g => s.beginEdge (s.edgeGroups g)
  | .trap g => s.trapNow g
  | .drift p => s.driftStep p
  | .credit p c w => s.creditStep p c w
  | .cap => s.changeSets false fun n => min n s.fcap.toNat
  | .item i => s.push i

/-- Inputs come nearer by one. -/
def State.nearer (s : State) : State := { s with inbox := s.inbox.map fun (e : Nat × Instr) => (e.1 - 1, e.2) }

/-- An input whose turn has come. -/
def State.input (s : State) : Option (Nat × Instr) := s.inbox.find? fun e => e.1 == 0

/-- The next thing between clock edges: an event whose WALL has come, an input, or one of the things that may happen, in any
order. When nothing else can happen, WALL goes on, to the next event where there is one. -/
def State.between (s : State) : Out :=
  let s := s.passTime
  let due := match s.firstTime with | some (w, c) => if w ≤ s.wall then some c else none | none => none
  match due with
  | some c => .next (s.choose c)
  | none =>
    match s.input with
    | some e => .next ({ s with inbox := s.inbox.erase e }.push (.event e.2))
    | none =>
      let s := s.nearer
      match s.choices with
      | c :: l =>
        let n := Config.nextTurn s.turn % (l.length + 1)
        .next ({ s with turn := s.turn + 1 }.choose ((listNth (c :: l) n).getD c))
      | [] =>
        match s.firstTime with
        | some (w, c) => .next ((s.passWall (max s.wall w)).choose c)
        | none => .next s

/-- The next thing when no item is left: the groups of a clock edge that has come, then what comes between edges. -/
def State.schedule (s : State) : Out :=
  match s.edge with
  | g :: l => .next (s.edgeTick g l)
  | [] =>
    let s := { s with undo := none }
    match s.arrivedNow with
    | some (p, d) => .next (s.arriveStep p d)
    | none => s.between

/-- A micro-step that executes no instruction. -/
def State.quietStep (s : State) : Out :=
  match s.agenda with
  | [] => s.schedule
  | .landings g :: _ => .next (s.landStep g)
  | .control g :: _ => .next (s.controlStep g)
  | .gather g :: _ => .next (s.gatherStep g)
  | .resolve g :: _ => .next (s.resolveStep g)
  | .endTick g :: _ => .next (s.endStep g)
  | .portableEnd p :: _ => .next (s.popItem.portableEnd p)
  | _ => .next s.popItem

end Sys2Proof.Machine
end

