-- ==== Sys2Proof/Machine/Dispatch.lean ====
section
/-! DEFINITION. The meaning of each instruction and event: one arm for each constructor of Instr. -/

namespace Sys2Proof.Machine

def exec (i : Instr) (s : State) : Host.Outcome State Fault Refusal :=
  match i with
  | .nop f => Sys2Proof.Machine.execNop f s
  | .add f d a b => Sys2Proof.Machine.execAdd f d a b s
  | .sub f d a b => Sys2Proof.Machine.execSub f d a b s
  | .and f d a b => Sys2Proof.Machine.execAnd f d a b s
  | .or f d a b => Sys2Proof.Machine.execOr f d a b s
  | .xor f d a b => Sys2Proof.Machine.execXor f d a b s
  | .sll f d a b => Sys2Proof.Machine.execSll f d a b s
  | .srl f d a b => Sys2Proof.Machine.execSrl f d a b s
  | .sra f d a b => Sys2Proof.Machine.execSra f d a b s
  | .slt f d a b => Sys2Proof.Machine.execSlt f d a b s
  | .sltu f d a b => Sys2Proof.Machine.execSltu f d a b s
  | .mul f d a b => Sys2Proof.Machine.execMul f d a b s
  | .mulh f d a b => Sys2Proof.Machine.execMulh f d a b s
  | .div f d a b => Sys2Proof.Machine.execDiv f d a b s
  | .divu f d a b => Sys2Proof.Machine.execDivu f d a b s
  | .rem f d a b => Sys2Proof.Machine.execRem f d a b s
  | .remu f d a b => Sys2Proof.Machine.execRemu f d a b s
  | .min f d a b => Sys2Proof.Machine.execMin f d a b s
  | .max f d a b => Sys2Proof.Machine.execMax f d a b s
  | .clz f d a => Sys2Proof.Machine.execClz f d a s
  | .ctz f d a => Sys2Proof.Machine.execCtz f d a s
  | .popc f d a => Sys2Proof.Machine.execPopc f d a s
  | .sel f d a b g => Sys2Proof.Machine.execSel f d a b g s
  | .addi f d a imm => Sys2Proof.Machine.execAddi f d a imm s
  | .andi f d a imm => Sys2Proof.Machine.execAndi f d a imm s
  | .ori f d a imm => Sys2Proof.Machine.execOri f d a imm s
  | .xori f d a imm => Sys2Proof.Machine.execXori f d a imm s
  | .slti f d a imm => Sys2Proof.Machine.execSlti f d a imm s
  | .slli f d a n => Sys2Proof.Machine.execSlli f d a n s
  | .srli f d a n => Sys2Proof.Machine.execSrli f d a n s
  | .srai f d a n => Sys2Proof.Machine.execSrai f d a n s
  | .limm f d imm => Sys2Proof.Machine.execLimm f d imm s
  | .limmh f d imm => Sys2Proof.Machine.execLimmh f d imm s
  | .gset f g a => Sys2Proof.Machine.execGset f g a s
  | .gseti f g b => Sys2Proof.Machine.execGseti f g b s
  | .glog f g ga gb op => Sys2Proof.Machine.execGlog f g ga gb op s
  | .wait f n => Sys2Proof.Machine.execWait f n s
  | .decide f a d => Sys2Proof.Machine.execDecide f a d s
  | .loop f a l => Sys2Proof.Machine.execLoop f a l s
  | .call f target ret => Sys2Proof.Machine.execCall f target ret s
  | .ret f => Sys2Proof.Machine.execRet f s
  | .chkp f d => Sys2Proof.Machine.execChkp f d s
  | .stop f => Sys2Proof.Machine.execStop f s
  | .bar f id scope join => Sys2Proof.Machine.execBar f id scope join s
  | .pulse f => Sys2Proof.Machine.execPulse f s
  | .spawn f n => Sys2Proof.Machine.execSpawn f n s
  | .mbr f d mb => Sys2Proof.Machine.execMbr f d mb s
  | .mbw f mb a => Sys2Proof.Machine.execMbw f mb a s
  | .qpush f q a => Sys2Proof.Machine.execQpush f q a s
  | .qpop f d q => Sys2Proof.Machine.execQpop f d q s
  | .flset f fl b => Sys2Proof.Machine.execFlset f fl b s
  | .fltst f d fl => Sys2Proof.Machine.execFltst f d fl s
  | .tick f d => Sys2Proof.Machine.execTick f d s
  | .wall f d => Sys2Proof.Machine.execWall f d s
  | .trap f n => Sys2Proof.Machine.execTrap f n s
  | .tret f => Sys2Proof.Machine.execTret f s
  | .ten f => Sys2Proof.Machine.execTen f s
  | .csrr f d csr => Sys2Proof.Machine.execCsrr f d csr s
  | .csrw f a csr => Sys2Proof.Machine.execCsrw f a csr s
  | .cadd f d a b => Sys2Proof.Machine.execCadd f d a b s
  | .csub f d a b => Sys2Proof.Machine.execCsub f d a b s
  | .cmul f d a b => Sys2Proof.Machine.execCmul f d a b s
  | .cand f d a b => Sys2Proof.Machine.execCand f d a b s
  | .cor f d a b => Sys2Proof.Machine.execCor f d a b s
  | .cshl f d a b => Sys2Proof.Machine.execCshl f d a b s
  | .cshr f d a b => Sys2Proof.Machine.execCshr f d a b s
  | .cmin f d a b => Sys2Proof.Machine.execCmin f d a b s
  | .cmax f d a b => Sys2Proof.Machine.execCmax f d a b s
  | .caddi f d a imm => Sys2Proof.Machine.execCaddi f d a imm s
  | .climm f d imm => Sys2Proof.Machine.execClimm f d imm s
  | .layset f lt a => Sys2Proof.Machine.execLayset f lt a s
  | .layget f lt a => Sys2Proof.Machine.execLayget f lt a s
  | .stset f st a => Sys2Proof.Machine.execStset f st a s
  | .stget f st a => Sys2Proof.Machine.execStget f st a s
  | .stadv f st a => Sys2Proof.Machine.execStadv f st a s
  | .strst f st => Sys2Proof.Machine.execStrst f st s
  | .ld f d st order scope adv => Sys2Proof.Machine.execLd f d st order scope adv s
  | .st f st a order scope adv => Sys2Proof.Machine.execSt f st a order scope adv s
  | .lds f q st order scope adv => Sys2Proof.Machine.execLds f q st order scope adv s
  | .sts f st q order scope adv => Sys2Proof.Machine.execSts f st q order scope adv s
  | .gath f q sta stb adv => Sys2Proof.Machine.execGath f q sta stb adv s
  | .scat f sta stb q adv => Sys2Proof.Machine.execScat f sta stb q adv s
  | .touch f st => Sys2Proof.Machine.execTouch f st s
  | .amo f d st a order scope op => Sys2Proof.Machine.execAmo f d st a order scope op s
  | .amocas f d st a b order scope => Sys2Proof.Machine.execAmocas f d st a b order scope s
  | .fence f fset scope => Sys2Proof.Machine.execFence f fset scope s
  | .qmark f => Sys2Proof.Machine.execQmark f s
  | .cqpush f q a => Sys2Proof.Machine.execCqpush f q a s
  | .cqpop f d q => Sys2Proof.Machine.execCqpop f d q s
  | .nkey f ns a => Sys2Proof.Machine.execNkey f ns a s
  | .nctr f ns a b => Sys2Proof.Machine.execNctr f ns a b s
  | .nskip f ns a => Sys2Proof.Machine.execNskip f ns a s
  | .nget f d ns part => Sys2Proof.Machine.execNget f d ns part s
  | .eng f e entry a n chain => Sys2Proof.Machine.execEng f e entry a n chain s
  | .epush f e a => Sys2Proof.Machine.execEpush f e a s
  | .epop f d e => Sys2Proof.Machine.execEpop f d e s
  | .gdef f gr a => Sys2Proof.Machine.execGdef f gr a s
  | .gbc f gr face a rule => Sys2Proof.Machine.execGbc f gr face a rule s
  | .gld f q gr st t adv => Sys2Proof.Machine.execGld f q gr st t adv s
  | .gst f gr st t q adv => Sys2Proof.Machine.execGst f gr st t q adv s
  | .gadv f gr => Sys2Proof.Machine.execGadv f gr s
  | .gstat f d gr => Sys2Proof.Machine.execGstat f d gr s
  | .vrd f d st tk adv => Sys2Proof.Machine.execVrd f d st tk adv s
  | .vwr f st a tk adv => Sys2Proof.Machine.execVwr f st a tk adv s
  | .vtap f d tk => Sys2Proof.Machine.execVtap f d tk s
  | .vinj f tk a => Sys2Proof.Machine.execVinj f tk a s
  | .vqpop f d q => Sys2Proof.Machine.execVqpop f d q s
  | .vqpush f q a => Sys2Proof.Machine.execVqpush f q a s
  | .vadd f d a b k fmt => Sys2Proof.Machine.execVadd f d a b k fmt s
  | .vsub f d a b k fmt => Sys2Proof.Machine.execVsub f d a b k fmt s
  | .vmul f d a b k fmt => Sys2Proof.Machine.execVmul f d a b k fmt s
  | .vmulh f d a b k fmt => Sys2Proof.Machine.execVmulh f d a b k fmt s
  | .vmin f d a b k fmt => Sys2Proof.Machine.execVmin f d a b k fmt s
  | .vmax f d a b k fmt => Sys2Proof.Machine.execVmax f d a b k fmt s
  | .vand f d a b k fmt => Sys2Proof.Machine.execVand f d a b k fmt s
  | .vor f d a b k fmt => Sys2Proof.Machine.execVor f d a b k fmt s
  | .vxor f d a b k fmt => Sys2Proof.Machine.execVxor f d a b k fmt s
  | .vshl f d a b k fmt => Sys2Proof.Machine.execVshl f d a b k fmt s
  | .vshr f d a b k fmt => Sys2Proof.Machine.execVshr f d a b k fmt s
  | .vcmpi f kd a b k fmt cond => Sys2Proof.Machine.execVcmpi f kd a b k fmt cond s
  | .vfadd f d a b k fmt rm ns => Sys2Proof.Machine.execVfadd f d a b k fmt rm ns s
  | .vfsub f d a b k fmt rm ns => Sys2Proof.Machine.execVfsub f d a b k fmt rm ns s
  | .vfmul f d a b k fmt rm ns => Sys2Proof.Machine.execVfmul f d a b k fmt rm ns s
  | .vfma f d a b c k fmt rm ns => Sys2Proof.Machine.execVfma f d a b c k fmt rm ns s
  | .vfmin f d a b k fmt => Sys2Proof.Machine.execVfmin f d a b k fmt s
  | .vfmax f d a b k fmt => Sys2Proof.Machine.execVfmax f d a b k fmt s
  | .vfabs f d a k fmt => Sys2Proof.Machine.execVfabs f d a k fmt s
  | .vfneg f d a k fmt => Sys2Proof.Machine.execVfneg f d a k fmt s
  | .vfcmp f kd a b k fmt cond => Sys2Proof.Machine.execVfcmp f kd a b k fmt cond s
  | .vcvt f d a k dst src rm ns => Sys2Proof.Machine.execVcvt f d a k dst src rm ns s
  | .vqmx f d a fmt rm ns => Sys2Proof.Machine.execVqmx f d a fmt rm ns s
  | .vdq f d a dst src => Sys2Proof.Machine.execVdq f d a dst src s
  | .vred f d a k fmt red => Sys2Proof.Machine.execVred f d a k fmt red s
  | .vperm f d a b k fmt => Sys2Proof.Machine.execVperm f d a b k fmt s
  | .vslide f d a fmt n => Sys2Proof.Machine.execVslide f d a fmt n s
  | .vsel f d a b k => Sys2Proof.Machine.execVsel f d a b k s
  | .vbcst f d a fmt imm => Sys2Proof.Machine.execVbcst f d a fmt imm s
  | .vext f d a fmt imm => Sys2Proof.Machine.execVext f d a fmt imm s
  | .vins f d a fmt imm => Sys2Proof.Machine.execVins f d a fmt imm s
  | .vpln f d a fmt => Sys2Proof.Machine.execVpln f d a fmt s
  | .vunpl f d a fmt => Sys2Proof.Machine.execVunpl f d a fmt s
  | .kset f kd n => Sys2Proof.Machine.execKset f kd n s
  | .klog f kd ka kb op => Sys2Proof.Machine.execKlog f kd ka kb op s
  | .kcnt f d ka => Sys2Proof.Machine.execKcnt f d ka s
  | .vrng f d a ns k fmt dist idx => Sys2Proof.Machine.execVrng f d a ns k fmt dist idx s
  | .mcfg f sa fa fb planes acc pro => Sys2Proof.Machine.execMcfg f sa fa fb planes acc pro s
  | .mlw f sa tk => Sys2Proof.Machine.execMlw f sa tk s
  | .mlwp f sa tka tkb ns => Sys2Proof.Machine.execMlwp f sa tka tkb ns s
  | .mma f sa tk rows => Sys2Proof.Machine.execMma f sa tk rows s
  | .macz f sa => Sys2Proof.Machine.execMacz f sa s
  | .mpro f sa => Sys2Proof.Machine.execMpro f sa s
  | .mrd f sa tk fmt rm rows => Sys2Proof.Machine.execMrd f sa tk fmt rm rows s
  | .mwake f sa => Sys2Proof.Machine.execMwake f sa s
  | .msleep f sa => Sys2Proof.Machine.execMsleep f sa s
  | .mstat f sa => Sys2Proof.Machine.execMstat f sa s
  | .weightSetSwap core sa => Sys2Proof.Machine.execWeightSetSwap core sa s
  | .subarrayGate core sa => Sys2Proof.Machine.execSubarrayGate core sa s
  | .subarrayWakeDone core sa => Sys2Proof.Machine.execSubarrayWakeDone core sa s
  | .engineCommandStart core e => Sys2Proof.Machine.execEngineCommandStart core e s
  | .engineChainStart core e => Sys2Proof.Machine.execEngineChainStart core e s
  | .lit v => Sys2Proof.Machine.execLit v s
  | .litn v => Sys2Proof.Machine.execLitn v s
  | .lith v => Sys2Proof.Machine.execLith v s
  | .param n => Sys2Proof.Machine.execParam n s
  | .jmp imm => Sys2Proof.Machine.execJmp imm s
  | .jz o => Sys2Proof.Machine.execJz o s
  | .nestCount l => Sys2Proof.Machine.execNestCount l s
  | .nestSrc l => Sys2Proof.Machine.execNestSrc l s
  | .nestDst l => Sys2Proof.Machine.execNestDst l s
  | .copy src d => Sys2Proof.Machine.execCopy src d s
  | .plane src d => Sys2Proof.Machine.execPlane src d s
  | .fill d => Sys2Proof.Machine.execFill d s
  | .tload td => Sys2Proof.Machine.execTload td s
  | .trun tki tko => Sys2Proof.Machine.execTrun tki tko s
  | .send rows src => Sys2Proof.Machine.execSend rows src s
  | .comb op src => Sys2Proof.Machine.execComb op src s
  | .chain imm => Sys2Proof.Machine.execChain imm s
  | .resultEntryLand core e => Sys2Proof.Machine.execResultEntryLand core e s
  | .kvSetvl pt d a => Sys2Proof.Machine.execKvSetvl pt d a s
  | .kvLd pt hint d a => Sys2Proof.Machine.execKvLd pt hint d a s
  | .kvSt pt hint b a => Sys2Proof.Machine.execKvSt pt hint b a s
  | .kvLds pt hint d a b => Sys2Proof.Machine.execKvLds pt hint d a b s
  | .kvAdd pt rm d a b => Sys2Proof.Machine.execKvAdd pt rm d a b s
  | .kvSub pt rm d a b => Sys2Proof.Machine.execKvSub pt rm d a b s
  | .kvMul pt rm d a b => Sys2Proof.Machine.execKvMul pt rm d a b s
  | .kvFma pt rm d a b => Sys2Proof.Machine.execKvFma pt rm d a b s
  | .kvMin pt d a b => Sys2Proof.Machine.execKvMin pt d a b s
  | .kvMax pt d a b => Sys2Proof.Machine.execKvMax pt d a b s
  | .kvCvt pt rm src d a => Sys2Proof.Machine.execKvCvt pt rm src d a s
  | .kvRed pt red d a => Sys2Proof.Machine.execKvRed pt red d a s
  | .kvCmp pt cond d a b => Sys2Proof.Machine.execKvCmp pt cond d a b s
  | .kvSel pt d a b => Sys2Proof.Machine.execKvSel pt d a b s
  | .kvBcst pt d a => Sys2Proof.Machine.execKvBcst pt d a s
  | .kvRng pt unif d a => Sys2Proof.Machine.execKvRng pt unif d a s
  | .kmCfg sa hint a => Sys2Proof.Machine.execKmCfg sa hint a s
  | .kmLw sa hint a => Sys2Proof.Machine.execKmLw sa hint a s
  | .kmLwp sa hint a => Sys2Proof.Machine.execKmLwp sa hint a s
  | .kmMma sa hint a b => Sys2Proof.Machine.execKmMma sa hint a b s
  | .kmRd sa fmt a b => Sys2Proof.Machine.execKmRd sa fmt a b s
  | .kmZero sa hint => Sys2Proof.Machine.execKmZero sa hint s
  | .kgDef gr hint a => Sys2Proof.Machine.execKgDef gr hint a s
  | .kgLd gr hint d a b => Sys2Proof.Machine.execKgLd gr hint d a b s
  | .kgSt gr hint d a b => Sys2Proof.Machine.execKgSt gr hint d a b s
  | .kgAdv gr hint => Sys2Proof.Machine.execKgAdv gr hint s
  | .rvIntegerOp op d a b => Sys2Proof.Machine.execRvIntegerOp op d a b s
  | .rvWordOp op d a b => Sys2Proof.Machine.execRvWordOp op d a b s
  | .rvMuldiv op d a b => Sys2Proof.Machine.execRvMuldiv op d a b s
  | .lui d imm => Sys2Proof.Machine.execLui d imm s
  | .auipc d imm => Sys2Proof.Machine.execAuipc d imm s
  | .rvBranch cond a b off => Sys2Proof.Machine.execRvBranch cond a b off s
  | .jal d off => Sys2Proof.Machine.execJal d off s
  | .jalr d a off => Sys2Proof.Machine.execJalr d a off s
  | .rvLoad op d a off => Sys2Proof.Machine.execRvLoad op d a off s
  | .rvStore op a b off => Sys2Proof.Machine.execRvStore op a b off s
  | .rvFence fm pred succ d a => Sys2Proof.Machine.execRvFence fm pred succ d a s
  | .fenceTso d a => Sys2Proof.Machine.execFenceTso d a s
  | .csrrs d c => Sys2Proof.Machine.execCsrrs d c s
  | .csrrsi d c => Sys2Proof.Machine.execCsrrsi d c s
  | .decisionSwitch p => Sys2Proof.Machine.execDecisionSwitch p s
  | .iterationBoundary p => Sys2Proof.Machine.execIterationBoundary p s
  | .loopExit p => Sys2Proof.Machine.execLoopExit p s
  | .barrierRelease group => Sys2Proof.Machine.execBarrierRelease group s
  | .podBarrierRelease group => Sys2Proof.Machine.execPodBarrierRelease group s
  | .pulseIntervalExpiry p => Sys2Proof.Machine.execPulseIntervalExpiry p s
  | .freezeLimitExpiry p => Sys2Proof.Machine.execFreezeLimitExpiry p s
  | .hemTimeout p => Sys2Proof.Machine.execHemTimeout p s
  | .hemStampArrival core gr face step => Sys2Proof.Machine.execHemStampArrival core gr face step s
  | .icacheFillDone p => Sys2Proof.Machine.execIcacheFillDone p s
  | .lateDataArrival p => Sys2Proof.Machine.execLateDataArrival p s
  | .lateWritePerform p => Sys2Proof.Machine.execLateWritePerform p s
  | .queueEntryDelivered p => Sys2Proof.Machine.execQueueEntryDelivered p s
  | .bankPortServiceDone p => Sys2Proof.Machine.execBankPortServiceDone p s
  | .lsqEntryRetire p => Sys2Proof.Machine.execLsqEntryRetire p s
  | .partitionComplete p => Sys2Proof.Machine.execPartitionComplete p s
  | .entryDone p => Sys2Proof.Machine.execEntryDone p s
  | .preemptDrainDone p => Sys2Proof.Machine.execPreemptDrainDone p s
  | .saveComplete p => Sys2Proof.Machine.execSaveComplete p s
  | .killQuiesced p => Sys2Proof.Machine.execKillQuiesced p s
  | .loadingDone e => Sys2Proof.Machine.execLoadingDone e s
  | .partitionStart e => Sys2Proof.Machine.execPartitionStart e s
  | .pllRelockDone region => Sys2Proof.Machine.execPllRelockDone region s
  | .combiningSlotTimeout tag dcore => Sys2Proof.Machine.execCombiningSlotTimeout tag dcore s
  | .externalWriteArrival core ring off bytes => Sys2Proof.Machine.execExternalWriteArrival core ring off bytes s
  | .resume e w => Sys2Proof.Machine.execResume e w s
  | .kill e w => Sys2Proof.Machine.execKill e w s
  | .step e w => Sys2Proof.Machine.execStep e w s
  | .preempt e w => Sys2Proof.Machine.execPreempt e w s
  | .restore e w => Sys2Proof.Machine.execRestore e w s
  | .freeze e w => Sys2Proof.Machine.execFreeze e w s
  | .submit e => Sys2Proof.Machine.execSubmit e s
  | .withdraw e => Sys2Proof.Machine.execWithdraw e s
  | .launchEntryWrite e imm w => Sys2Proof.Machine.execLaunchEntryWrite e imm w s
  | .trouteWrite e w => Sys2Proof.Machine.execTrouteWrite e w s
  | .objectLoad o => Sys2Proof.Machine.execObjectLoad o s
  | .chasonTranslationDone handle fn ok => Sys2Proof.Machine.execChasonTranslationDone handle fn ok s
  | .hivreq w => Sys2Proof.Machine.execHivreq w s
  | .wallWrite w => Sys2Proof.Machine.execWallWrite w s
  | .plimitWrite w => Sys2Proof.Machine.execPlimitWrite w s
  | .tjlimitWrite w => Sys2Proof.Machine.execTjlimitWrite w s
  | .invalidateSubmit w => Sys2Proof.Machine.execInvalidateSubmit w s
  | .barrierGroupWrite g w => Sys2Proof.Machine.execBarrierGroupWrite g w s
  | .mismatchCounterWrite core w => Sys2Proof.Machine.execMismatchCounterWrite core w s
  | .diagCounterWrite off w => Sys2Proof.Machine.execDiagCounterWrite off w s
  | .bar0RegisterWrite off w => Sys2Proof.Machine.execBar0RegisterWrite off w s
  | .hostMailboxWrite off size w => Sys2Proof.Machine.execHostMailboxWrite off size w s
  | .bar4Write off bytes => Sys2Proof.Machine.execBar4Write off bytes s
  | .bar4Read off n => Sys2Proof.Machine.execBar4Read off n s
  | .powerUp failure => Sys2Proof.Machine.execPowerUp failure s
  | .linkTraining port versions => Sys2Proof.Machine.execLinkTraining port versions s
  | .postedWrite port f => Sys2Proof.Machine.execPostedWrite port f s
  | .acknowledgement port f => Sys2Proof.Machine.execAcknowledgement port f s
  | .combiningContribution port f => Sys2Proof.Machine.execCombiningContribution port f s
  | .combinedPrefix port f => Sys2Proof.Machine.execCombinedPrefix port f s
  | .fxCombineArrival f => Sys2Proof.Machine.execFxCombineArrival f s
  | .peerMailboxWrite port f => Sys2Proof.Machine.execPeerMailboxWrite port f s
  | .gridExchange port f => Sys2Proof.Machine.execGridExchange port f s
  | .barrierFrame port f => Sys2Proof.Machine.execBarrierFrame port f s
  | .timeFrame port t => Sys2Proof.Machine.execTimeFrame port t s
  | .linkControl port f => Sys2Proof.Machine.execLinkControl port f s
  | .frameTagFailure port => Sys2Proof.Machine.execFrameTagFailure port s
  | .linkKeyReplace port key => Sys2Proof.Machine.execLinkKeyReplace port key s
  | .ethernetPtpMessage t => Sys2Proof.Machine.execEthernetPtpMessage t s
  | .doeSpdmRequest req => Sys2Proof.Machine.execDoeSpdmRequest req s
  | .fcapWrite w => Sys2Proof.Machine.execFcapWrite w s
  | .supplyDroop region => Sys2Proof.Machine.execSupplyDroop region s
  | .reservedKindFrame port f => Sys2Proof.Machine.execReservedKindFrame port f s
  | .dup => Sys2Proof.Machine.execDup s
  | .drop => Sys2Proof.Machine.execDrop s
  | .swap => Sys2Proof.Machine.execSwap s
  | .over => Sys2Proof.Machine.execOver s
  | .rot => Sys2Proof.Machine.execRot s
  | .engAdd => Sys2Proof.Machine.execEngAdd s
  | .engSub => Sys2Proof.Machine.execEngSub s
  | .engMul => Sys2Proof.Machine.execEngMul s
  | .engAnd => Sys2Proof.Machine.execEngAnd s
  | .engOr => Sys2Proof.Machine.execEngOr s
  | .engXor => Sys2Proof.Machine.execEngXor s
  | .engShl => Sys2Proof.Machine.execEngShl s
  | .engShr => Sys2Proof.Machine.execEngShr s
  | .repw => Sys2Proof.Machine.execRepw s
  | .endE => Sys2Proof.Machine.execEndE s
  | .nestClear => Sys2Proof.Machine.execNestClear s
  | .result => Sys2Proof.Machine.execResult s
  | .ecall => Sys2Proof.Machine.execEcall s
  | .ebreak => Sys2Proof.Machine.execEbreak s
  | .invalidateAck => Sys2Proof.Machine.execInvalidateAck s
  | .iqackPop => Sys2Proof.Machine.execIqackPop s
  | .selfTestComplete => Sys2Proof.Machine.execSelfTestComplete s
  | .moduleReset => Sys2Proof.Machine.execModuleReset s
  | .wallPhaseBroadcast => Sys2Proof.Machine.execWallPhaseBroadcast s
  | .powerLimitStepdown => Sys2Proof.Machine.execPowerLimitStepdown s
  | .overcurrentStepdown => Sys2Proof.Machine.execOvercurrentStepdown s
  | .powerStepup => Sys2Proof.Machine.execPowerStepup s

end Sys2Proof.Machine
end

