-- ==== Sys2Proof/Machine/Place.lean ====
section
/-! DEFINITION. A module in which one word stands where it is fetched next (log entry 2): partition 0 on core 0 with an
object of one continuation, one control-store word or one portable function. -/

namespace Sys2Proof.Machine

def emptyObject : Object where
  image := objectHeader 1 0 0 0 0
  conts := []
  decisions := []
  loops := []
  entry := 0
  layouts := []
  streams := []
  noise := []
  grids := []
  ttables := []
  ceStore := []
  tieStore := []
  fxStore := []
  slots := []
  windows := []
  data := []
  mailboxes := []
  live := []

/-- Partition 0 on core 0, running an object. -/
def State.withObject (s : State) (o : Object) (thread : Option Thread) (l : List Item) : State :=
  { s with
    objects := [(1, ⟨o, 0⟩)]
    heap := [⟨1, 0, 1, 0, []⟩]
    edge := []
    parts := tput s.parts 0 { Part.absent with handle := 1, run := true, thread := thread }
    agenda := l }

/-- A word of the S cluster at its issue tick. -/
def State.placeNative (s : State) (w : Word) : State :=
  (s.withObject { emptyObject with conts := [⟨[w], [], [], [], none⟩] } none [.issue 0 0 .s]).modCore 0 fun k =>
    k.setCursor .s ⟨.cont 0, 0, some 0⟩

/-- A word of an engine's control store, about to execute. -/
def State.placeEngine (s : State) (e : EngineId) (w : BitVec 16) : State :=
  (s.withObject emptyObject none [.engine 0 0 e]).modCore 0 fun k => k.modEng (engNum e) fun g =>
    { g with store := tput g.store 0 w, pc := 0, running := true }

/-- An instruction of a portable function, about to execute on the partition's only core. -/
def State.placePortable (s : State) (w : BitVec 32) : State :=
  s.withObject { emptyObject with image := textImage (leBytes 4 w.toNat) } (some ⟨0, 0, true, [], none, 0⟩) [.portable 0 0]

/-- The word placed by its width in bits: an engine word, a portable word, or a native word. -/
def State.placeWord (s : State) (nbits w : Nat) : State :=
  if nbits = 16 then s.placeEngine (engineOfWord w) (BitVec.ofNat 16 w)
  else if nbits = 32 then s.placePortable (BitVec.ofNat 32 w)
  else s.placeNative (BitVec.ofNat 64 w)

end Sys2Proof.Machine
end

