-- ==== Sys2Proof/Machine/Read.lean ====
section
/-! DEFINITION. What the host reads: the status word of an entry (18 R343) and the registers of BAR0 and BAR2 (19 R356 to
R365, R373, 07 R178). A read of these pages changes nothing, so reading is a function of the state and no row of the
table. -/

namespace Sys2Proof.Machine

def bitIf (b : Bool) (i : Nat) : Nat := if b then 2 ^ i else 0

/-- The status word of entry `e` (18 R343). -/
def State.statusWord (s : State) (e : Nat) : Word :=
  let k := s.entry e
  let q := s.part e
  let on := k.state == 4 && q.run
  BitVec.ofNat 64 (k.res.toNat * 2 ^ 24 + k.cls.toNat * 2 ^ 16 + bitIf k.late 8 + bitIf k.done 7 + bitIf k.quiesced 6
    + bitIf k.saved 5 + bitIf (on && q.preempt.isSome) 4 + bitIf (on && s.anyHandler e) 3 + bitIf (on && q.trap.isSome) 2
    + bitIf (k.state == 4 && (!q.run || s.groupStill e)) 1 + bitIf (on && !q.complete) 0)

/-- The identity and version page (19 R358). -/
def State.readIdentity (s : State) (r : Nat) : Word :=
  match r with
  | 0x000 => 0x0009
  | 0x008 => s.hivreq.setWidth 64
  | 0x010 => s.hivgnt.setWidth 64
  | 0x018 => s.ready.setWidth 64
  | _ => 0

/-- The diagnostic page (19 R373); the places of its counters are the model's (log entry 28). -/
def State.readDiag (s : State) (r : Nat) : Word :=
  if r = 0 then s.diagWord.setWidth 64
  else if r % 8 == 0 && decide (r / 8 ≤ 3) then tget 0 s.diagCount (r / 8 - 1)
  else 0

/-- The time and power page (19 R365). -/
def State.readTime (s : State) (r : Nat) : Word :=
  match r with
  | 0x000 => BitVec.ofNat 64 s.wall
  | 0x008 => BitVec.ofNat 64 (s.tport.toNat * 4 + s.tsrc.toNat)
  | 0x010 => BitVec.ofInt 64 s.toff
  | 0x018 => BitVec.ofNat 64 (bitIf s.lock 0)
  | 0x020 => s.wbase
  | 0x028 => s.plimit.setWidth 64
  | 0x030 => s.tjlimit.setWidth 64
  | 0x038 => s.fcap.setWidth 64
  | 0x040 => s.pnow.setWidth 64
  | _ => if 0x400 ≤ r && r < 0x800 && r % 8 == 0 then (tget 0 s.freq ((r - 0x400) / 8)).setWidth 64 else 0

/-- The bits of a word of the launch table that are not reserved (19 R359). -/
def entryBits : Nat → Word
  | 1 => 0xFFFFFFFFFF
  | 12 => 0xFFFF
  | 13 => 0xFFFFFFFFF8000
  | _ => BitVec.allOnes 64

/-- The launch table (19 R359): word 15 holds the refusal code and the state, and reserved bits read 0 (00 R8). -/
def State.readEntry (s : State) (e i : Nat) : Word :=
  let k := s.entry e
  if i = 15 then BitVec.ofNat 64 (k.refusal.toNat * 256 + k.state.toNat) else tget 0 k.words i &&& entryBits i

/-- A control block (18 R342): command at 0, which reads 0, status at 8, TREC0 to TREC3 from 16. -/
def State.readControl (s : State) (e r : Nat) : Word :=
  match r with
  | 0x08 => s.statusWord e
  | 0x10 => (s.entry e).trec.getD 0 0
  | 0x18 => (s.entry e).trec.getD 1 0
  | 0x20 => (s.entry e).trec.getD 2 0
  | 0x28 => (s.entry e).trec.getD 3 0
  | _ => 0

/-- The invalidate queue's registers (07 R178). -/
def State.readQueue (s : State) (r : Nat) : Word :=
  match r with
  | 0x20 => BitVec.ofNat 64 (bitIf s.iqDrop 16 + s.iqAcks.length * 256 + (64 - s.iq.length))
  | 0x28 => match s.iqAcks with | (c, _) :: _ => c | [] => 0
  | 0x30 => match s.iqAcks with | (_, bad) :: _ => BitVec.ofNat 64 (bitIf bad 1 + 1) | [] => 0
  | _ => 0

/-- Four entries of the fabric plan, or a window register (log entry 28). -/
def State.readPlan (s : State) (r : Nat) : Word :=
  if r < 0x400000 then
    BitVec.ofNat 64 ((List.range 4).foldl (fun n i => n + (tget 0 s.plan (r / 8 * 4 + i)).toNat * 2 ^ (16 * i)) 0)
  else if (r - 0x400000) / 64 < 2048 then tget 0 (s.core ((r - 0x400000) / 64)).win ((r - 0x400000) / 8 % 8)
  else 0

/-- The link pages (16 R320 to R324): port n has 32 bytes from 32n, with the key ids (outbound above inbound), whether the
link is up with its version, and the error counter. The places are the model's (log entry 28). -/
def State.readLink (s : State) (r : Nat) : Word :=
  if 1024 ≤ r then 0
  else
    let q := s.port (r / 32)
    match r % 32 with
    | 0 => q.keyOut ++ q.keyIn
    | 8 => BitVec.ofNat 64 (bitIf q.up 16 + match q.version with | some (a, b) => 256 * a + b | none => 0)
    | 16 => BitVec.ofNat 64 q.errors
    | _ => 0

/-- The 64-bit register of BAR0 at an offset that is a multiple of 8 (19 R357): bytes not listed read 0. -/
def State.readBar0 (s : State) (a : Nat) : Word :=
  if a < 0x1000 then s.readIdentity a
  else if a < 0x2000 then s.readDiag (a - 0x1000)
  else if a < 0x3000 then s.readTime (a - 0x2000)
  else if 0x10000 ≤ a && a < 0x30000 then s.readEntry ((a - 0x10000) / 128) ((a - 0x10000) % 128 / 8)
  else if 0x30000 ≤ a && a < 0x40000 then s.readControl ((a - 0x30000) / 64) ((a - 0x30000) % 64)
  else if 0x40000 ≤ a && a < 0x40800 then tget 0 s.groups ((a - 0x40000) / 8)
  else if 0x41000 ≤ a && a < 0x42000 then s.readQueue (a - 0x41000)
  else if 0x50000 ≤ a && a < 0x52000 then
    BitVec.ofNat 64 ((tget 0 s.mismatch ((a - 0x50000) / 4)).toNat + (tget 0 s.mismatch ((a - 0x50000) / 4 + 1)).toNat * 2 ^ 32)
  else if 0x100000 ≤ a && a < 0x800000 then s.readPlan (a - 0x100000)
  else if 0x800000 ≤ a then s.readLink (a - 0x800000)
  else 0

/-- A mailbox as BAR2 shows it (19 R356, 15 R303). -/
def State.readBar2 (s : State) (off : Nat) : Word := tget 0 (s.mbShown (off / 128)) (off % 128 / 8)

end Sys2Proof.Machine
end

