-- ==== Sys2Proof/Safety.lean ====
section
/-! DEFINITION. What counts as a safe run: a step that goes on. Nothing in the manual stops the module, so no step
ends in a fault, and no instruction refuses. Every memory stays in its canonical form. -/

namespace Sys2Proof.Machine

/-- The outcome is a next state. -/
def goesOn (o : Out) : Bool := match o with | .next _ => true | _ => false

end Sys2Proof.Machine

namespace Sys2Proof.Claims

open Sys2Proof.Machine

/-- Every memory of the module is in its canonical form: addresses rising, and no entry equal to what an unlisted address reads
as. -/
def canonicalModule (m : Module) : Prop :=
  Memory.wf m.hbm = true ∧ Memory.wf m.hostMem = true ∧
    ∀ c, Memory.wf (tget Core.reset m.cores c).ring = true ∧ Memory.wf (tget Core.reset m.cores c).pocket = true

/-- The memories as they are, and as they stood when the clock edge in hand began. -/
def canonical (s : State) : Prop := canonicalModule s.toModule ∧ ∀ m, s.undo = some m → canonicalModule m

end Sys2Proof.Claims
end

