-- ==== Sys2Proof/Certificates/Slice0/Obligations.lean ====
section
/-! DEFINITION. The statements for the provers. A word completes where its guard is true and no trap of an earlier check
skipped it: `Claims.Issues` and `Claims.Runs` say so, `Claims.Executes` for an engine word, `Claims.Runs32` for a portable
instruction. Each statement gives the next state as the rules give it. -/

namespace Sys2Proof.Claims

open Sys2Proof.Machine

/-- A native word of cluster `cl` issues at context `x`: the agenda asks for it, its guard is true (05 R93) and no trap of
its check skipped it. `t` is the state at its issue, with the cluster moved past the word (05 R92). -/
inductive Issues (s : State) (f : Frame) (cl : Cluster) : Ctx → State → Prop where
  | intro (p c : Nat) (l : List Item) : s.agenda = .issue p c cl :: l → s.guardTrue p c f = true →
      (s.part p).voids.contains (c, cl) = false →
      Issues s f cl (s.ctx p c cl) (s.popItem.advance p c cl f.w.val)

/-- An S word runs: it issues, or it is a word of a handler run (18 R340). -/
inductive Runs (s : State) (f : Frame) : Ctx → State → Prop where
  | issue (x : Ctx) (t : State) : Issues s f .s x t → Runs s f x t
  | handler (p c : Nat) (l : List Item) : s.agenda = .handler p c :: l → s.guardTrue p c f = true →
      Runs s f (s.handlerCtx p c) (s.popItem.modCore c fun k => { k with handler := k.handler + 1 })

/-- A result lands `n` ticks after the issue tick; in a handler run at once (06 R131, 18 R340). -/
def lands (t : State) (x : Ctx) (n : Nat) (a : Act) : Out := .next (t.later x (x.t + n) a)

/-- An engine executes its word: it runs, and a launch word finds its datapath free (12 R249, R250). -/
inductive Executes (s : State) (launch : Bool) : Nat → EngineId → Ctx → Engine → Prop where
  | intro (p c : Nat) (e : EngineId) (l : List Item) : s.agenda = .engine p c e :: l →
      ((s.core c).getEng (engNum e)).running = true →
      (launch = true → ((s.core c).getEng (engNum e)).busy ≤ (s.part p).tick) →
      Executes s launch c e (s.engCtx p c e) ((s.core c).getEng (engNum e))

/-- The engine after a word: its operands dropped, at `pc`, and a repetition counted down. -/
def engineAt (g : Engine) (stack : List Word) (pc : Nat) : Engine :=
  { g with stack := stack, pc := pc, rep := match g.rep with | some (n + 2) => some (n + 1) | _ => none }

/-- The next word, or the same one while a repetition is left (12 R249). -/
def following (g : Engine) : Nat := match g.rep with | some (_ + 2) => g.pc | _ => g.pc + 1

/-- The engine of core `c` moved on, and nothing else changed. -/
def moved (s : State) (c : Nat) (e : EngineId) (g : Engine) : State :=
  s.popItem.modCore c fun k => k.setEng (engNum e) g

/-- A portable instruction runs: the agenda asks for it and no trap skipped it. -/
inductive Runs32 (s : State) (u : HwUnit) : Ctx → State → Prop where
  | intro (p c : Nat) (l : List Item) : s.agenda = .portable p c :: l → (s.part p).voids.contains (c, .s) = false →
      Runs32 s u (s.portCtx p c u) s.popItem

/-- A portable instruction ends on its core, which says where it goes (21 R382, R384): INSTRET counts it where the core goes on,
and one that switches when every core has switched; the registers it names stand for no sum any more (21 R396, log entry 74). -/
def retires (x : Ctx) (t : State) (n : Next) : Out :=
  let u := t.modCore x.c fun k => k.kvUse (t.threadNames x.p)
  .next ((match n with
    | .on _ => u.modCore x.c fun k => { k with instret := k.instret + 1 }
    | _ => u).portVote x.p x.c n)

/-- A check raises a condition. -/
def raised (t : State) (p : Nat) (c : TrapCond) : State := t.modPart p fun k => { k with conds := k.conds ++ [c] }

/-- The value and poison of an x register. -/
def xr (t : State) (x : Ctx) (r : XReg) : PWord := (t.core x.c).getX r.val

end Sys2Proof.Claims

open Sys2Proof Sys2Proof.Machine Sys2Proof.Claims

/-! ### Encodings -/

/-- Words that the manual writes out, each with its instruction (03 R46 to R56, 12 R252, 21 R381). -/
def Obligations.DecodesWorkedEncodings : Prop :=
  decodeNative .s 0x0008021FFFFFFFFF = .ok (.addi ⟨false, 0, 0, false⟩ 1 1 0xFFFFFFFFF) ∧
  decodeNative .s 0x0810420200000000 = .ok (.decide ⟨false, 2, 0, false⟩ 1 1) ∧
  decodeNative .s 0x0414C76000000000 = .ok (.qpop ⟨false, 1, 0, false⟩ 3 11) ∧
  decodeNative .s 0x001180E200000000 = .ok (.bar ⟨false, 0, 0, false⟩ 3 .pk .align) ∧
  decodeNative .a 0x0008808200000000 = .ok (.lds ⟨false, 0, 0, false⟩ 0 2 .rlx .co .a1) ∧
  decodeNative .a 0x000C000104000000 = .ok (.eng ⟨false, 0, 0, false⟩ .ce 0 4 1 none) ∧
  decodeNative .v 0x100E8A1080000000 = .ok (.vsel ⟨false, 4, 0, false⟩ 5 1 1 0) ∧
  decodeNative .m 0x000104C000000001 = .ok (.mma ⟨false, 0, 0, false⟩ 1 3 1) ∧
  decodeEngine .ce 0x9145 = .ok (.copy 4 5) ∧
  decodeEngine .tie 0xA119 = .ok (.trun 1 9) ∧
  decodeEngine .fx 0xB0F2 = .ok (.send 15 2) ∧
  decodeEngine .fx 0x1FFD = .ok (.litn 0xFFD)

/-- Encoding and then decoding gives the instruction back, for every well-formed native instruction and every value of
every operand (03 R46 to R55). -/
def Obligations.NativeWordsDecodeBack : Prop :=
  ∀ (cl : Cluster) (i : Instr) (w : Word), i.wellFormed = true → encodeNative cl i = some w → decodeNative cl w = .ok i

/-- Each native word has one meaning: a word that decodes is the encoding of the well-formed instruction it decodes to. -/
def Obligations.NativeWordsEncodeBack : Prop :=
  ∀ (cl : Cluster) (i : Instr) (w : Word), decodeNative cl w = .ok i → i.wellFormed = true ∧ encodeNative cl i = some w

/-- Engine words: both directions, and a launch word of another engine is refused by name (12 R249, R252). -/
def Obligations.EngineWordsRoundTrip : Prop :=
  (∀ (i : Instr) (w : BitVec 16), i.wellFormed = true → encodeEngine i = some w →
    decodeEngine (engineOfWord w.toNat) w = .ok i) ∧
  (∀ (e : EngineId) (i : Instr) (w : BitVec 16), decodeEngine e w = .ok i → i.wellFormed = true ∧ encodeEngine i = some w) ∧
  (∀ (e : EngineId) (w : BitVec 16), (9 ≤ w.toNat / 2 ^ 12 ∧ w.toNat / 2 ^ 12 ≤ 11) → e ≠ engineOfWord w.toNat →
    decodeEngine e w = .wrongEngine)

/-- Portable words: encoding and then decoding gives every well-formed instruction back, and a word that decodes is the encoding
of the well-formed instruction it decodes to (21 R381 to R389). -/
def Obligations.PortableWordsRoundTrip : Prop :=
  (∀ (i : Instr) (w : BitVec 32), i.wellFormed = true → encodePortable i = some w → decodePortable w = .ok i) ∧
  (∀ (i : Instr) (w : BitVec 32), decodePortable w = .ok i → i.wellFormed = true ∧ encodePortable i = some w)

/-! ### Steps -/

/-- A step runs the instruction that the words named by the head of the agenda decode to: a native word at its check, at
its issue or in a handler run, an engine word, a portable instruction, an event. A word at its check, and one of a handler run whose
guard is false, runs only where it names no missing entry (03 R50, R51). -/
def Obligations.StepRunsDecodedWord : Prop :=
  ∀ (s : State) (i : Instr) (p c : Nat) (l : List Item),
    (∀ (cl : Cluster) (w : Word), s.wordAt p cl ((s.core c).cursor cl) = some w → decodeNative cl w = .ok i →
      (s.agenda = .issue p c cl :: l → step s = exec i s) ∧
      (s.agenda = .check p c cl :: l → s.indexBad p i = false → step s = exec i s)) ∧
    (∀ w : Word, s.agenda = .handler p c :: l → s.handlerWord p c = some w → decodeNative .s w = .ok i →
      (s.indexBad p i = false ∨ s.guardTrue p c (wordFrame w) = true) → step s = exec i s) ∧
    (∀ (e : EngineId) (g : Engine), (s.core c).getEng (engNum e) = g → decodeEngine e (g.word g.pc) = .ok i → (s.agenda = .engine p c e :: l ∨ s.agenda = .checkEngine p c e :: l) →
      step s = exec i s) ∧
    (∀ w : BitVec 32, s.portableAt p = some w → decodePortable w = .ok i →
      (s.agenda = .portable p c :: l ∨ s.agenda = .checkPortable p c :: l) → step s = exec i s) ∧
    (s.agenda = .event i :: l → step s = exec i s)

/-- What a word that does not decode raises at its check, whatever its guard: the class of the first check that fails, the
word in TREC3, and its slot skipped on resumption (03 R50, R51, 18 R335). In a handler run a word that names no entry traps even where
its guard is false (18 R340). -/
def Obligations.WordsThatDoNotDecodeTrap : Prop :=
  (∀ (s : State) (p c : Nat) (w : Word) (i : Instr) (l : List Item), s.agenda = .handler p c :: l →
    s.handlerWord p c = some w → decodeNative .s w = .ok i → s.indexBad p i = true → s.guardTrue p c (wordFrame w) = false →
    step s = .next (s.popItem.handlerTrap (s.handlerCtx p c) .reservedField w)) ∧
  ∀ (s : State) (p c : Nat) (cl : Cluster) (w : Word) (l : List Item), s.agenda = .check p c cl :: l →
    s.wordAt p cl ((s.core c).cursor cl) = some w →
    let raises := fun (k : Cls) => step s =
      .next (raised s.popItem p ⟨(s.part p).tick, k, (s.ctx p c cl).who, w, .void c cl⟩)
    (decodeNative cl w = .illegal → raises .illegalEncoding) ∧
    (decodeNative cl w = .reserved → raises .reservedField) ∧
    (decodeNative cl w = .format → raises .illegalFormat) ∧
    (decodeNative cl w = .combination → raises .formatCombination) ∧
    (∀ i : Instr, decodeNative cl w = .ok i → s.indexBad p i = true → raises .reservedField)

/-! ### The S cluster -/

/-- The register words (06 R140): each lands f(a, b) in xd, both operands read at the issue tick, poisoned if either is. -/
def Obligations.ScalarRegisterWords : Prop :=
  ∀ (s : State) (f : Frame) (x : Ctx) (t : State) (d a b : XReg), Runs s f x t →
    let u := (xr t x a).v
    let v := (xr t x b).v
    let p := (xr t x a).p || (xr t x b).p
    let n := v.toNat % 64
    exec (.add f d a b) s = lands t x 1 (.x d.val ⟨u + v, p⟩) ∧
    exec (.sub f d a b) s = lands t x 1 (.x d.val ⟨u - v, p⟩) ∧
    exec (.and f d a b) s = lands t x 1 (.x d.val ⟨u &&& v, p⟩) ∧
    exec (.or f d a b) s = lands t x 1 (.x d.val ⟨u ||| v, p⟩) ∧
    exec (.xor f d a b) s = lands t x 1 (.x d.val ⟨u ^^^ v, p⟩) ∧
    exec (.sll f d a b) s = lands t x 1 (.x d.val ⟨u <<< n, p⟩) ∧
    exec (.srl f d a b) s = lands t x 1 (.x d.val ⟨u >>> n, p⟩) ∧
    exec (.sra f d a b) s = lands t x 1 (.x d.val ⟨u.sshiftRight n, p⟩) ∧
    exec (.slt f d a b) s = lands t x 1 (.x d.val ⟨if u.toInt < v.toInt then 1 else 0, p⟩) ∧
    exec (.sltu f d a b) s = lands t x 1 (.x d.val ⟨if u.toNat < v.toNat then 1 else 0, p⟩) ∧
    exec (.mul f d a b) s = lands t x 3 (.x d.val ⟨BitVec.ofNat 64 (u.toNat * v.toNat % 2 ^ 64), p⟩) ∧
    exec (.mulh f d a b) s = lands t x 3 (.x d.val ⟨BitVec.ofInt 64 (u.toInt * v.toInt / 2 ^ 64), p⟩) ∧
    exec (.min f d a b) s = lands t x 1 (.x d.val ⟨BitVec.ofInt 64 (min u.toInt v.toInt), p⟩) ∧
    exec (.max f d a b) s = lands t x 1 (.x d.val ⟨BitVec.ofInt 64 (max u.toInt v.toInt), p⟩)

/-- Division takes 18 ticks and raises nothing, whatever its operands (06 R140, R141): quotients truncate toward zero, remainders
have the dividend's sign, and the corners are those of R141. The bit counts (06 R142): leading zeros, trailing zeros and ones; 64
zeros of 0. -/
def Obligations.DivisionAndBitCountWords : Prop :=
  (∀ (s : State) (f : Frame) (x : Ctx) (t : State) (d a b : XReg), Runs s f x t →
     let u := (xr t x a).v
     let v := (xr t x b).v
     let r := fun (w : Word) => lands t x 18 (.x d.val ⟨w, (xr t x a).p || (xr t x b).p⟩)
     (v = 0 → exec (.div f d a b) s = r (-1) ∧ exec (.divu f d a b) s = r 0xFFFFFFFFFFFFFFFF ∧
       exec (.rem f d a b) s = r u ∧ exec (.remu f d a b) s = r u) ∧
     (u.toInt = -2 ^ 63 → v.toInt = -1 → exec (.div f d a b) s = r (BitVec.ofInt 64 (-2 ^ 63)) ∧ exec (.rem f d a b) s = r 0) ∧
     (v ≠ 0 → exec (.divu f d a b) s = r (BitVec.ofNat 64 (u.toNat / v.toNat)) ∧
       exec (.remu f d a b) s = r (BitVec.ofNat 64 (u.toNat % v.toNat))) ∧
     (v ≠ 0 → ¬ (u.toInt = -2 ^ 63 ∧ v.toInt = -1) → ∃ q m : Word, exec (.div f d a b) s = r q ∧ exec (.rem f d a b) s = r m ∧
       q.toInt = Int.tdiv u.toInt v.toInt ∧ m.toInt = Int.tmod u.toInt v.toInt)) ∧
  (∀ (s : State) (f : Frame) (d a b : XReg) (p c : Nat) (l : List Item), s.agenda = .check p c .s :: l →
     ∀ i ∈ [Instr.div f d a b, .divu f d a b, .rem f d a b, .remu f d a b],
       ∃ t : State, exec i s = .next t ∧ (t.part p).conds = (s.part p).conds ∧ (t.part p).waits = (s.part p).waits ∧
         t.agenda = l) ∧
  (∀ (s : State) (f : Frame) (x : Ctx) (t : State) (d a : XReg), Runs s f x t →
    let u := (xr t x a).v
    let r := fun (n : Nat) => lands t x 1 (.x d.val ⟨BitVec.ofNat 64 n, (xr t x a).p⟩)
    (∃ n : Nat, exec (.clz f d a) s = r n ∧ n ≤ 64 ∧ u.toNat < 2 ^ (64 - n) ∧ (n < 64 → 2 ^ (63 - n) ≤ u.toNat)) ∧
    (∃ n : Nat, exec (.ctz f d a) s = r n ∧ n ≤ 64 ∧ (∀ i < n, u.getLsbD i = false) ∧ (n < 64 → u.getLsbD n = true)) ∧
    exec (.popc f d a) s = r ((List.range 64).filter u.getLsbD).length)

/-! ### Numbers -/

/-- Exponent bits, fraction bits, bias and the largest finite pattern of a float format (04 R59, R62, R77). -/
def Sys2Proof.Claims.shapeOf : Fmt → Option (Nat × Nat × Nat × Nat)
  | .fp64 => some (11, 52, 1023, 0x7FEFFFFFFFFFFFFF)
  | .fp32 => some (8, 23, 127, 0x7F7FFFFF)
  | .fp16 => some (5, 10, 15, 0x7BFF)
  | .bf16 => some (8, 7, 127, 0x7F7F)
  | .e4m3 => some (4, 3, 7, 0x7E)
  | .e5m2 => some (5, 2, 15, 0x7B)
  | .e2m1 => some (2, 1, 1, 7)
  | .acc26 => some (8, 17, 127, 0x1FDFFFF)
  | _ => none

/-- The magnitude of a pattern without its sign, in units of the format's smallest subnormal (04 R59, R62). -/
def Sys2Proof.Claims.units (fb n : Nat) : Nat := if n / 2 ^ fb = 0 then n % 2 ^ fb else (2 ^ fb + n % 2 ^ fb) * 2 ^ (n / 2 ^ fb - 1)

/-- What a pattern of a float format stands for: NaN, an infinity, or a number with its sign and its magnitude in units; bf16 and
acc26 read a subnormal as a zero (04 R61, R62, R77). -/
inductive Sys2Proof.Claims.Reads (f : Fmt) (n : Nat) : Machine.Num → Prop where
  | nan (eb fb bias top : Nat) : shapeOf f = some (eb, fb, bias, top) → top < n % 2 ^ (eb + fb) →
      (f ≠ .e4m3 → n % 2 ^ fb ≠ 0) → f ≠ .e2m1 → Reads f n .nan
  | inf (eb fb bias top : Nat) : shapeOf f = some (eb, fb, bias, top) → n % 2 ^ (eb + fb) = (2 ^ eb - 1) * 2 ^ fb →
      f ≠ .e4m3 → f ≠ .e2m1 → Reads f n (.inf (decide (n / 2 ^ (eb + fb) % 2 = 1)))
  | fin (eb fb bias top : Nat) : shapeOf f = some (eb, fb, bias, top) → n % 2 ^ (eb + fb) ≤ top →
      Reads f n (.fin (decide (n / 2 ^ (eb + fb) % 2 = 1))
        (if (f = .bf16 ∨ f = .acc26) ∧ n % 2 ^ (eb + fb) < 2 ^ fb then 0 else units fb (n % 2 ^ (eb + fb))) 0)

/-- Whether a magnitude x between its neighbours lo < x < hi is rounded away from zero (04 R65, R68); `odd` says that the last digit of
lo is odd, and u is the draw. -/
def Sys2Proof.Claims.away (rm : Rm) (u : Nat) (neg odd : Bool) (x lo hi : Nat) : Bool :=
  match rm with
  | .rne => decide (lo + hi < 2 * x) || (decide (lo + hi = 2 * x) && odd)
  | .rtz => false
  | .rdn => neg
  | .rup => !neg
  | .rna => decide (lo + hi ≤ 2 * x)
  | .sto => if neg then !decide ((2 * u + 1) * (hi - lo) < 2 ^ 25 * (hi - x)) else decide ((2 * u + 1) * (hi - lo) < 2 ^ 25 * (x - lo))

/-- `r` is RND of a number with sign `neg` and magnitude x > 0 into the float format `f`, with its flags (04 R65 to R68); `s` is what a
unit of the format counts in the units of x. Between the neighbours n and n + 1 the mode chooses; beyond the largest finite value the
table of R66 holds, and below the smallest normal R67's underflow, with a zero in place of a subnormal for bf16. -/
def Sys2Proof.Claims.Rounded (f : Fmt) (rm : Rm) (u : Nat) (neg : Bool) (x s : Nat) (r : Nat × Flags) : Prop :=
  ∀ eb fb bias top : Nat, shapeOf f = some (eb, fb, bias, top) →
    let v := fun (n : Nat) => units fb n * s
    let sign := if neg then 2 ^ (eb + fb) else 0
    let beyond : Nat × Flags := (sign + (if f = .e4m3 ∨ f = .e2m1 then top else match rm with
      | .rne | .rna | .sto => (2 ^ eb - 1) * 2 ^ fb
      | .rtz => top
      | .rdn => if neg then (2 ^ eb - 1) * 2 ^ fb else top
      | .rup => if neg then top else (2 ^ eb - 1) * 2 ^ fb), 0b00101)
    let reaches : Bool := match rm with
      | .rne | .rna => decide ((4 * 2 ^ fb - 1) * s ≤ 4 * x)
      | .rtz | .sto => false
      | .rdn => neg && decide ((2 * 2 ^ fb - 1) * s < 2 * x)
      | .rup => !neg && decide ((2 * 2 ^ fb - 1) * s < 2 * x)
    let tiny : Bool := decide (x < 2 ^ fb * s) && !reaches
    (v (top + 1) ≤ x → r = beyond) ∧
    (f = .bf16 → x < 2 ^ fb * s → r = if reaches then (sign + 2 ^ fb, 0b00001) else (sign, 0b00011)) ∧
    (∀ n, n ≤ top → v n ≤ x → x < v (n + 1) → (f = .bf16 → 2 ^ fb * s ≤ x) →
      let up := decide (v n < x) && away rm u neg (decide (n % 2 = 1)) x (v n) (v (n + 1))
      let tops := n = top ∧ (up = true ∨ rm = .sto ∧ v n < x)
      (tops → r = beyond) ∧
      (¬ tops → r = (sign + (if up then n + 1 else n),
        if v n < x then (if tiny then 0b00011 else 0b00001) else 0)))

/-- `r` is RND of the number x, in units of which the format's unit counts `s`: a number that is not 0 is rounded, and a zero has the
sign `zero`. -/
def Sys2Proof.Claims.RoundedInt (f : Fmt) (rm : Rm) (u : Nat) (x : Int) (zero : Bool) (s : Nat) (r : Nat × Flags) : Prop :=
  (x ≠ 0 → Rounded f rm u (decide (x < 0)) x.natAbs s r) ∧
  (x = 0 → ∀ eb fb bias top, shapeOf f = some (eb, fb, bias, top) → r = (if zero then 2 ^ (eb + fb) else 0, 0))

/-- The float operations of 04 (R60, R61, R63 to R70) are the rounded exact values: of two numbers the sum, difference and product,
and a × b + c with one rounding; an infinite or NaN operand gives what IEEE 754 gives, with the canonical NaN, and NV for ∞ − ∞ and
0 × ∞. A conversion rounds its source's value, saturating into an integer. That a zero sum of two zeros of one sign keeps that sign is
the model's reading (log entry 68), and so is what a conversion between int8 and uint8 does (log entry 92). -/
def Obligations.FloatResultsAreRounded : Prop :=
  (∀ (f : Fmt) (rm : Rm) (u a b c : Nat) (eb fb bias top : Nat), f.isVecFloat = true → shapeOf f = some (eb, fb, bias, top) →
    let one := bias + fb - 1
    let val := fun (neg : Bool) (m : Nat) => if neg then -(m : Int) else m
    let nan := canonicalNan f
    let inf := fun (neg : Bool) => (if neg then 2 ^ (eb + fb) else 0) + (2 ^ eb - 1) * 2 ^ fb
    nan = 2 ^ (eb + fb) - 2 ^ (fb - 1) ∧
    (∀ p m q n, Reads f a (.fin p m 0) → Reads f b (.fin q n 0) →
      let zero := fun (q : Bool) => if m = 0 ∧ n = 0 ∧ p = q then p else rm == .rdn
      RoundedInt f rm u (val p m + val q n) (zero q) 1 (fAdd f rm u a b) ∧
      RoundedInt f rm u (val p m - val q n) (zero !q) 1 (fSub f rm u a b) ∧
      RoundedInt f rm u (val p m * val q n) (p != q) (2 ^ one) (fMul f rm u a b) ∧
      (∀ o k, Reads f c (.fin o k 0) → RoundedInt f rm u (val p m * val q n + val o k * 2 ^ one)
        (if m * n = 0 ∧ k = 0 ∧ (p != q) = o then o else rm == .rdn) (2 ^ one) (fMa f rm u a b c)) ∧
      (∀ o, Reads f c (.inf o) → fMa f rm u a b c = (inf o, 0)) ∧
      (∀ cond : Cond, fCmp f cond a b = (match cond with
        | .eq => decide (val p m = val q n) | .ne => decide (val p m ≠ val q n) | .lt => decide (val p m < val q n)
        | .le => decide (val p m ≤ val q n) | .gt => decide (val q n < val p m) | .ge => decide (val q n ≤ val p m)
        | .un => false, 0))) ∧
    ((Reads f a .nan ∨ Reads f b .nan) → fAdd f rm u a b = (nan, 0) ∧ fSub f rm u a b = (nan, 0) ∧ fMul f rm u a b = (nan, 0) ∧
      (fMa f rm u a b c).1 = nan ∧ ∀ cond : Cond, fCmp f cond a b =
        (cond == .ne || cond == .un, if cond ∈ [Cond.lt, .le, .gt, .ge] then 0b10000 else 0)) ∧
    (∀ p q, Reads f a (.inf p) → Reads f b (.inf q) →
      fAdd f rm u a b = (if p = q then (inf p, 0) else (nan, 0b10000)) ∧
      fSub f rm u a b = (if p = q then (nan, 0b10000) else (inf p, 0)) ∧ fMul f rm u a b = (inf (p != q), 0)) ∧
    (∀ p q n, Reads f a (.inf p) → Reads f b (.fin q n 0) →
      fAdd f rm u a b = (inf p, 0) ∧ fAdd f rm u b a = (inf p, 0) ∧ fSub f rm u a b = (inf p, 0) ∧
      fSub f rm u b a = (inf (!p), 0) ∧ fMul f rm u a b = (if n = 0 then (nan, 0b10000) else (inf (p != q), 0)) ∧
      fMul f rm u b a = fMul f rm u a b)) ∧
  (∀ (dst src : Fmt) (rm : Rm) (u a : Nat) (eb fb bias top : Nat), dst.isCvtDst = true → src.isCvtSrc = true →
    (∀ sb sf sbias stop, shapeOf src = some (sb, sf, sbias, stop) → shapeOf dst = some (eb, fb, bias, top) →
      (∀ p m, Reads src a (.fin p m 0) → RoundedInt dst rm u ((if p then -(m : Int) else m) * 2 ^ (bias + fb - 1)) p
        (2 ^ (sbias + sf - 1)) (convert dst src rm u a)) ∧
      (∀ p, Reads src a (.inf p) → convert dst src rm u a = ((if p then 2 ^ (eb + fb) else 0) +
        (if dst = .e4m3 ∨ dst = .e2m1 then top else (2 ^ eb - 1) * 2 ^ fb), if dst = .e4m3 ∨ dst = .e2m1 then 0b00100 else 0)) ∧
      (Reads src a .nan → convert dst src rm u a = (canonicalNan dst, if dst = .e2m1 then 0b10000 else 0))) ∧
    (∀ w sg, intFmt src = some (w, sg) → let z : Int := if sg ∧ 2 ^ (w - 1) ≤ a % 2 ^ w then ((a % 2 ^ w : Nat) : Int) - 2 ^ w else (a % 2 ^ w : Nat)
      (shapeOf dst = some (eb, fb, bias, top) → RoundedInt dst rm u (z * 2 ^ (bias + fb - 1)) false 1 (convert dst src rm u a)) ∧
      (∀ b s, intFmt dst = some (b, s) → let lo : Int := if s then -2 ^ (b - 1) else 0
        let hi : Int := if s then 2 ^ (b - 1) - 1 else 2 ^ b - 1
        convert dst src rm u a = (((max lo (min hi z)) % 2 ^ b).toNat, 0))) ∧
    (∀ sb sf sbias stop b s, shapeOf src = some (sb, sf, sbias, stop) → intFmt dst = some (b, s) →
      let lo : Int := if s then -2 ^ (b - 1) else 0
      let hi : Int := if s then 2 ^ (b - 1) - 1 else 2 ^ b - 1
      let limit := fun (neg : Bool) => (((if neg then lo else hi) % 2 ^ b).toNat, (0b10000 : Flags))
      (Reads src a .nan → convert dst src rm u a = (0, 0b10000)) ∧ (∀ p, Reads src a (.inf p) → convert dst src rm u a = limit p) ∧
      (∀ p m n, Reads src a (.fin p m 0) → let one := 2 ^ (sbias + sf - 1)
        n * one ≤ m → m < (n + 1) * one →
        let i := n + if decide (n * one < m) && away rm u p (decide (n % 2 = 1)) m (n * one) ((n + 1) * one) then 1 else 0
        let z : Int := if p then -(i : Int) else i
        convert dst src rm u a = if z < lo ∨ hi < z then limit p else ((z % 2 ^ b).toNat, if n * one < m then 0b00001 else 0))))

/-! ### More of the S cluster -/

/-- SEL, the immediate words and the constants (06 R143 to R145). -/
def Obligations.SelectAndImmediateWords : Prop :=
  ∀ (s : State) (f : Frame) (x : Ctx) (t : State) (d a : XReg), Runs s f x t →
    let u := (xr t x a).v
    let r := fun (w : Word) => lands t x 1 (.x d.val ⟨w, (xr t x a).p⟩)
    (∀ (b : XReg) (g : Num3), exec (.sel f d a b g) s =
      lands t x 1 (.x d.val ⟨if t.guard x.p x.c g.val then u else (xr t x b).v, (xr t x a).p || (xr t x b).p⟩)) ∧
    (∀ imm : BitVec 36, exec (.addi f d a imm) s = r (u + imm.signExtend 64) ∧
      exec (.andi f d a imm) s = r (u &&& imm.signExtend 64) ∧ exec (.ori f d a imm) s = r (u ||| imm.signExtend 64) ∧
      exec (.xori f d a imm) s = r (u ^^^ imm.signExtend 64) ∧
      exec (.slti f d a imm) s = r (if u.toInt < imm.toInt then 1 else 0)) ∧
    (∀ n : BitVec 36, n.toNat < 64 →
      exec (.slli f d a n) s = r (u <<< n.toNat) ∧ exec (.srli f d a n) s = r (u >>> n.toNat) ∧
      exec (.srai f d a n) s = r (u.sshiftRight n.toNat)) ∧
    (∀ imm : BitVec 41, exec (.limm f d imm) s = lands t x 1 (.x d.val ⟨imm.signExtend 64, false⟩)) ∧
    (∀ imm : BitVec 41, exec (.limmh f d imm) s =
      lands t x 1 (.x d.val ⟨imm.setWidth 32 ++ (xr t x d).v.setWidth 32, (xr t x d).p⟩))

/-- A field beyond its limits does not decode: shift amounts, LIMMH immediates and the values of GSETI and FLSET are
refused as reserved (06 R144 to R146, R149). -/
def Obligations.ScalarFieldLimits : Prop :=
  (∀ (f : Frame) (d a : XReg) (n : BitVec 36) (w : Word), 64 ≤ n.toNat →
    (encodeNative .s (.slli f d a n) = some w ∨ encodeNative .s (.srli f d a n) = some w ∨
      encodeNative .s (.srai f d a n) = some w) → decodeNative .s w = .reserved) ∧
  (∀ (f : Frame) (d : XReg) (n : BitVec 41) (w : Word), 2 ^ 32 ≤ n.toNat → encodeNative .s (.limmh f d n) = some w →
    decodeNative .s w = .reserved) ∧
  (∀ (f : Frame) (g : Num3) (b : BitVec 43) (w : Word), 2 ≤ b.toNat → encodeNative .s (.gseti f g b) = some w →
    decodeNative .s w = .reserved) ∧
  (∀ (f : Frame) (fl : Num4) (b : BitVec 42) (w : Word), 2 ≤ b.toNat → encodeNative .s (.flset f fl b) = some w →
    decodeNative .s w = .reserved)

/-- Guards, mailboxes, flags, counters and CSRs (06 R146, R147, R149, R150, R153): what each word lands, and when. TICK delivers
the issue tick, WALL the view of WALL of the core's region, one for all its cores, within 2 ns of any other region's (06 R139, 19 R364).
That the view lies within 2 ns of the module's WALL too is the model's own bound on a free value (DESIGN CHOICE, log entry 1). -/
def Obligations.GuardMailboxFlagCounterWords : Prop :=
  (∀ (s : State) (f : Frame) (x : Ctx) (t : State), Runs s f x t →
     let gd := fun (g : Num3) => t.guard x.p x.c g.val
     (∀ (g : Num3) (a : XReg), (xr t x a).p = false →
       exec (.gset f g a) s = lands t x 2 (.guard g.val ((xr t x a).v != 0))) ∧
     (∀ (g : Num3) (b : BitVec 43), exec (.gseti f g b) s = lands t x 2 (.guard g.val (b != 0))) ∧
     (∀ g ga gb : Num3,
       exec (.glog f g ga gb .and) s = lands t x 2 (.guard g.val (gd ga && gd gb)) ∧
       exec (.glog f g ga gb .or) s = lands t x 2 (.guard g.val (gd ga || gd gb)) ∧
       exec (.glog f g ga gb .xor) s = lands t x 2 (.guard g.val (gd ga != gd gb)) ∧
       exec (.glog f g ga gb .andn) s = lands t x 2 (.guard g.val (gd ga && !gd gb))) ∧
     (∀ (d : XReg) (m : Num4), exec (.mbr f d m) s = lands t x 2 (.x d.val ⟨(t.core x.c).getMb m.val, false⟩)) ∧
     (∀ (m : Num4) (a : XReg), (xr t x a).p = false →
       exec (.mbw f m a) s = lands t x 2 (.mailbox m.val (xr t x a).v)) ∧
     (∀ (n : Num4) (b : BitVec 42), exec (.flset f n b) s = lands t x 2 (.flag n.val (b != 0))) ∧
     (∀ (d : XReg) (n : Num4), exec (.fltst f d n) s =
       lands t x 1 (.x d.val ⟨if (t.core x.c).flags.getLsbD n.val then 1 else 0, false⟩))) ∧
  (∀ (s : State) (f : Frame) (x : Ctx) (t : State), Runs s f x t →
     (∀ d : XReg, exec (.tick f d) s = lands t x 1 (.x d.val ⟨BitVec.ofNat 64 x.t, false⟩)) ∧
     (∀ d : XReg, exec (.wall f d) s = lands t x 1 (.x d.val ⟨t.wallView x.c, false⟩)) ∧
     (∀ a b : Nat, ∃ u v : Int, t.wallView a = BitVec.ofInt 64 u ∧ t.wallView b = BitVec.ofInt 64 v ∧
       (a / 16 = b / 16 → u = v) ∧ u ≤ v + 2 ∧ v ≤ u + 2 ∧ (t.wall : Int) - 2 ≤ u ∧ u ≤ t.wall + 2) ∧
     (∀ (d : XReg) (n : BitVec 41), exec (.csrr f d n) s = lands t x 1 (.x d.val ⟨t.csr x.p x.c n.toNat, false⟩)) ∧
     (∀ (a : XReg) (n : BitVec 41), (xr t x a).p = false →
       exec (.csrw f a n) s = lands t x 1 (.csr n.toNat (xr t x a).v)))

/-- NOP, WAIT, TRAP, TEN and TRET (03 R46, 05 R121, 06 R151, R152, 18 R341). A WAIT adds n to the gap before the next S word and
is a NOP in a handler run. TRAP raises the software trap with freeze tick t + 1 and n in TREC3. TEN clears MSK; TRET clears
HM and MSK of its core, and the partition leaves its trap when no core is in handler mode any more. -/
def Obligations.NopWaitTrapReturnWords : Prop :=
  ((∀ (s : State) (f : Frame) (cl : Cluster) (x : Ctx) (t : State), Issues s f cl x t → exec (.nop f) s = .next t) ∧
   (∀ (s : State) (f : Frame) (x : Ctx) (t : State) (n : BitVec 46), Issues s f .s x t →
     exec (.trap f n) s = .next (t.addCond x.p ⟨x.t + 1, .softwareTrap, x.who, n.setWidth 64, .continue_⟩) ∧
     ∃ t' : State, exec (.wait f n) s = .next t' ∧
       ((t'.core x.c).cursor .s).next = (((t.core x.c).cursor .s).next.map (· + n.toNat)) ∧
       ((t'.core x.c).cursor .a) = ((t.core x.c).cursor .a) ∧ ((t'.core x.c).cursor .v) = ((t.core x.c).cursor .v) ∧
       ((t'.core x.c).cursor .m) = ((t.core x.c).cursor .m) ∧ (∀ c, c ≠ x.c → t'.core c = t.core c) ∧ t'.parts = t.parts) ∧
   (∀ (s : State) (f : Frame) (p c : Nat) (l : List Item) (n : BitVec 46), s.agenda = .handler p c :: l →
     s.guardTrue p c f = true →
     exec (.wait f n) s = .next (s.popItem.modCore c fun k => { k with handler := k.handler + 1 }))) ∧
  (∀ (s : State) (f : Frame) (p c : Nat) (l : List Item), s.agenda = .handler p c :: l → s.guardTrue p c f = true →
     (exec (.ten f) s = .next (s.popItem.modCore c fun k => { k with handler := k.handler + 1, msk := false })) ∧
     (∃ t : State, exec (.tret f) s = .next t ∧ (t.core c).hm = false ∧ (t.core c).msk = false ∧
       ((∃ k ∈ (s.part p).cores, k ≠ c ∧ (s.core k).hm = true) → (t.part p).trap = (s.part p).trap) ∧
       (∀ r, (s.part p).trap = some r → r.localRoute = true → r.kill = false → r.fixes = [] →
         (∀ k ∈ (s.part p).cores, k ≠ c → (s.core k).hm = false) → (t.part p).trap = none)))

/-- TRET and TEN outside a handler run raise the illegal-encoding trap at their check (06 R152). A word that a handler run
refuses (18 R340) is with MSK = 1 a double trap, routed to the host and resumable by nothing but a kill, and with MSK = 0 a
nested trap that starts the handler again. -/
def Obligations.HandlerLimits : Prop :=
  (∀ (s : State) (f : Frame) (p c : Nat) (l : List Item), s.agenda = .check p c .s :: l → s.guardTrue p c f = true →
     ∀ i ∈ [Instr.tret f, .ten f], exec i s = .next (raised s.popItem p
       ⟨(s.part p).tick, .illegalEncoding, (s.ctx p c .s).who, (s.ctx p c .s).who.word, .void c .s⟩)) ∧
  (∀ (s : State) (f : Frame) (p c : Nat) (l : List Item) (i : Instr), s.agenda = .handler p c :: l →
     s.guardTrue p c f = true →
     i ∈ [Instr.ret f, .stop f, .pulse f] ∨
       (∃ (a : XReg) (d : BitVec 8) (q : Num4) (n : BitVec 46) (u v : BitVec 12) (sc : Scope) (j : Join),
         i ∈ [Instr.decide f a d, .loop f a d, .call f u v, .chkp f d, .bar f d sc j, .spawn f n, .qpush f q a, .qpop f a q]) →
     let w := (s.handlerWord p c).getD 0
     ((s.core c).msk = true → ∃ t : State, exec i s = .next t ∧
       (∃ r, (t.part p).trap = some r ∧ r.cls = .doubleTrap ∧ r.localRoute = false ∧ r.kill = true) ∧
       t.irqs = s.irqs ++ [entryVector p] ∧ (t.entry p).cls = 0x16) ∧
     ((s.core c).msk = false → ∃ t : State, exec i s = .next t ∧ (t.core c).msk = true ∧ (t.core c).handler = 0 ∧
       (∃ a b d : Word, (t.core c).trec = ((s.core c).setTrec [a, b, d, w]).trec) ∧ (t.part p) = (s.part p) ∧
       (t.entry p).cls = 0x01))

/-- Decision-class words (05 R122 to R125): the first core's word of a tick makes the operation pending, and the words of
the other cores of that tick add their values in the order they issue. CHKP delivers the poison-seen bit and clears it. -/
def Obligations.DecisionWords : Prop :=
  ∀ (s : State) (f : Frame) (x : Ctx) (t : State), Issues s f .s x t →
    let puts := fun (t : State) (k : DecisionKind) (v : PWord) => (Host.Outcome.next (t.modPart x.p fun q =>
      match q.decision with
      | none => { q with decision := some ⟨k, x.t, x.who, [(x.c, v)]⟩ }
      | some o => if o.issue = x.t then { q with decision := some { o with votes := o.votes ++ [(x.c, v)] } } else q) : Out)
    (∀ (a : XReg) (d : BitVec 8), exec (.decide f a d) s = puts t (.decide d.toNat) (xr t x a) ∧
      exec (.loop f a d) s = puts t (.loop d.toNat) (xr t x a)) ∧
    (∀ u v : BitVec 12, exec (.call f u v) s = puts t (.call u.toNat v.toNat) ⟨0, false⟩) ∧
    exec (.ret f) s = puts t .ret ⟨0, false⟩ ∧
    (∀ d : BitVec 8, exec (.chkp f d) s = puts (t.modCore x.c fun k => { k with poisonSeen := false }) (.chkp d.toNat)
      ⟨if (t.core x.c).poisonSeen then 1 else 0, false⟩)

/-- STOP, PULSE, SPAWN and BAR (05 R118, R126 to R129): STOP ends issue after its tick and abandons a pending decision; PULSE
restarts the pulse interval; SPAWN arms its entry at t + 2, once for all the cores that name it on one tick. The first
BAR of a member is its arrival, which holds the partition; one whose join code differs from the first member's diverges with
freeze tick t + 1 and does not arrive. -/
def Obligations.StopPulseSpawnBarrierWords : Prop :=
  (∀ (s : State) (f : Frame) (x : Ctx) (t : State), Issues s f .s x t →
     exec (.stop f) s = .next (t.modPart x.p fun k => { k with stop := some x.t, decision := none }) ∧
     exec (.pulse f) s = .next (t.modPart x.p fun k => { k with pulseAt := x.t }) ∧
     (∀ n : BitVec 46, (∀ d ∈ (t.part x.p).pend, ¬ (d.tick = x.t + 2 ∧ d.act = .arm n.toNat)) →
       exec (.spawn f n) s = lands t x 2 (.arm n.toNat)) ∧
     (∀ n : BitVec 46, (∃ d ∈ (t.part x.p).pend, d.tick = x.t + 2 ∧ d.act = .arm n.toNat) → exec (.spawn f n) s = .next t)) ∧
  (∀ (s : State) (f : Frame) (x : Ctx) (t : State) (id : BitVec 8) (sc : Scope) (j : Join), Issues s f .s x t →
     (∀ a ∈ tget [] t.arrivals id.toNat, a.part ≠ some x.p) →
     let first := (tget [] t.arrivals id.toNat).find? fun a => a.part.isSome
     ((first = none ∨ ∃ a, first = some a ∧ a.join = j) → ∃ t' : State, exec (.bar f id sc j) s = .next t' ∧
       tget [] t'.arrivals id.toNat = tget [] t.arrivals id.toNat ++
         [⟨some x.p, t.modNum, (t.part x.p).base, t.wall, t.wall, j⟩] ∧
       (t'.part x.p).waits = (t.part x.p).waits ++ [.barrier id.toNat] ∧ t'.cores = t.cores) ∧
     (∀ a, first = some a → a.join ≠ j → exec (.bar f id sc j) s =
       .next (t.addCond x.p ⟨x.t + 1, .divergence, x.who, x.who.word, .continue_⟩)))

/-- Queue words of S, A and V (06 R136, R148, 07 R190, 08 R206): a pop takes the oldest entry and delivers it two ticks
later; a push claims the place behind the entries that stand in the queue and delivers its value to it two ticks later. -/
def Obligations.QueueWords : Prop :=
  (∀ (s : State) (f : Frame) (x : Ctx) (t : State) (d : XReg) (q : Num4) (e : QEntry) (l : List QEntry),
    Issues s f .s x t → (t.core x.c).getQueue q.val = e :: l →
    exec (.qpop f d q) s = lands (t.modCore x.c fun k => k.setQueue q.val l) x 2 (.x d.val ⟨e.v.setWidth 64, e.p⟩)) ∧
  (∀ (s : State) (f : Frame) (x : Ctx) (t : State) (d : Num4) (q : Num4) (e : QEntry) (l : List QEntry),
    Issues s f .a x t → (t.core x.c).getQueue q.val = e :: l →
    exec (.cqpop f d q) s = lands (t.modCore x.c fun k => k.setQueue q.val l) x 2 (.c d.val ⟨e.v.setWidth 64, e.p⟩)) ∧
  (∀ (s : State) (f : Frame) (x : Ctx) (t : State) (d : VReg) (q : Num4) (e : QEntry) (l : List QEntry),
    Issues s f .v x t → (t.core x.c).getQueue q.val = e :: l →
    let w := e.v.setWidth 64
    exec (.vqpop f d q) s = lands (t.modCore x.c fun k => k.setQueue q.val l) x 2
      (.v d.val (if q.val = 10 then w ++ w ++ w ++ w ++ w ++ w ++ w ++ w else e.v) (BitVec.allOnes 512) e.p)) ∧
  (∀ (s : State) (f : Frame) (x : Ctx) (t : State) (q : Num4),
    let k := t.core x.c
    let claimed := t.setCore x.c { k.setQueue q.val (k.getQueue q.val ++ [⟨k.nextId, 0, false, false, x.t⟩]) with
      nextId := k.nextId + 1 }
    (∀ a : XReg, Issues s f .s x t → exec (.qpush f q a) s =
      lands claimed x 2 (.queue q.val k.nextId ((k.getX a.val).v.setWidth 512) (k.getX a.val).p)) ∧
    (∀ a : Num4, Issues s f .a x t → exec (.cqpush f q a) s =
      lands claimed x 2 (.queue q.val k.nextId ((k.getC a.val).v.setWidth 512) (k.getC a.val).p)) ∧
    (∀ a : VReg, Issues s f .v x t → exec (.vqpush f q a) s = lands claimed x 2 (.queue q.val k.nextId
      (if q.val = 11 then (k.getV a.val).v.setWidth 64 |>.setWidth 512 else (k.getV a.val).v) (k.getV a.val).p)))

/-! ### The A cluster -/

/-- A word with a false guard only moves its cluster past itself, at its check it raises nothing, and a word that a trap
skipped does as much (05 R93, 18 R335). For every native word of every cluster but NOP, which has no effect anyway. That the limits of
07 R183, 08 R212 and R213 and 10 R237 to R242, and the scope of a BAR, are looked at under a true guard only, so that a word outside them
raises nothing under a false one, is the model's choice (DESIGN CHOICE, log entry 80), not a sentence of R93. -/
def Obligations.FalseGuardOnlyMovesOn : Prop :=
  ∀ (s : State) (i : Instr) (r : NativeForm) (p c : Nat) (l : List Item), i.native = some r →
    (s.agenda = .check p c r.cluster :: l → s.guardTrue p c r.frame = false → exec i s = .next s.popItem) ∧
    (s.agenda = .issue p c r.cluster :: l →
      (s.guardTrue p c r.frame = false ∨ (s.part p).voids.contains (c, r.cluster) = true) →
      exec i s = .next (s.popItem.advance p c r.cluster r.frame.w.val))

/-- The first byte past a layout's space (07 R156). -/
def Sys2Proof.Claims.spaceEnd (l : Lay) : Int :=
  if l.space = 0 then 4194304 else if l.space = 1 ∨ l.space = 3 then 327680 else 2 ^ 52

/-- Coordinate `j` of element `i` of the access at a cursor: dimension 0 moves with the element, wrapping to 32 bits (07 R161, R162). -/
def Sys2Proof.Claims.coordOf (st : Str) (i j : Nat) : Int :=
  if j = 0 then (BitVec.ofInt 32 (st.cur.getD 0 0 + i)).toInt else st.cur.getD j 0

/-- Coordinate `j` of element `i` lies inside its extent (07 R161). -/
def Sys2Proof.Claims.insideAt (st : Str) (l : Lay) (i j : Nat) : Prop :=
  0 ≤ coordOf st i j ∧ coordOf st i j < (l.ext.getD j 0 : Nat)

/-- Dimension `d` is the first whose coordinate of element `i` lies outside its extent. -/
def Sys2Proof.Claims.outsideAt (st : Str) (l : Lay) (i d : Nat) : Prop :=
  d < 4 ∧ (∀ j < d, insideAt st l i j) ∧ ¬ insideAt st l i d

/-- A word that fails a check of its own raises one trap at its check, and is skipped on resumption (18 R335). A poisoned source of a
word that may not read one raises the poison-store trap (05 R116; 06 R146, R147, R153; 07 R181, R182, R184, R187). An order that a word
does not take is a reserved field (07 R183). A layout that breaks R159 or R156 is a reserved field too, and a format that the word does
not take an illegal one (07 R182, R187). Then an element outside an extent of an edge = 1 layout, a place outside its space's range, a
row that is not 64-aligned and an offset of a table word raise the layout-bound trap, with TREC3 by cause 0 to 3 (07 R160 to R162, R180,
R404); that a row of a packed format that begins inside a byte is not aligned either is the model's reading (log entry 86). -/
def Obligations.AccessChecksTrap : Prop :=
  ∀ (s : State) (f : Frame) (p c : Nat) (l : List Item), s.guardTrue p c f = true →
    let k := s.core c
    let traps := fun (cl : Cluster) (i : Instr) (cls : Cls) (v : Word) =>
      exec i s = .next (raised s.popItem p ⟨(s.part p).tick, cls, (s.ctx p c cl).who, v, .void c cl⟩)
    (s.agenda = .check p c .s :: l → ∀ (a : XReg) (g : Num3) (m : Num4) (n : BitVec 41), (k.getX a.val).p = true →
      ∀ i ∈ [Instr.gset f g a, .mbw f m a, .csrw f a n], traps .s i .poisonStore (s.ctx p c .s).who.word) ∧
    (s.agenda = .check p c .a :: l → ∀ (n a b q : Num4) (o : Order) (sc : Scope) (adv : Adv) (op : Aop),
      let word := (s.ctx p c .a).who.word
      let st := (k.stream n.val).1
      let ly := (k.stream n.val).2
      let at_ := ly.byteOf (elemOffset ly st.cur)
      let place := fun (cause : Nat) =>
        BitVec.ofNat 64 (n.val * 2 ^ 60 + cause * 2 ^ 56 + ly.space * 2 ^ 52 + (at_ % 2 ^ 52).toNat)
      let edge := fun (i d : Nat) => BitVec.ofNat 64 (d * 2 ^ 62 + (coordOf st i d % 2 ^ 32).toNat)
      let ld := Instr.ld f a n o sc adv
      let st_ := Instr.st f n a o sc adv
      let lds := Instr.lds f q n o sc adv
      let sts := Instr.sts f n q o sc adv
      let atomics := [(Instr.amo f a n b o sc op, some op), (.amocas f a n b q o sc, none)]
      let poisoned := fun (r : Num4) => (k.getC r.val).p = true
      let front := ∃ (e : QEntry) (rest : List QEntry), k.getQueue q.val = e :: rest ∧ e.landed = true ∧ e.p = true
      let clean := ∃ (e : QEntry) (rest : List QEntry), k.getQueue q.val = e :: rest ∧ e.landed = true ∧ e.p = false
      let loads := loadOrder o = true ∧ s.farPeer ly = false
      let stores := storeOrder o = true
      let elem := layReserved st ly .element = false
      let row := layReserved st ly .row = false ∧ ly.fmt.isSome = true
      let scalar := ∃ m : Fmt, ly.fmt = some m ∧
        m ∉ [Fmt.mxfp8e4m3, .mxfp8e5m2, .mxfp4, .mxint8, .kc2, .int4, .e2m1]
      let atomic := fun (z : Option Aop) => layReserved st ly .element = false ∧ ly.space ≠ 0 ∧ s.farPeer ly = false ∧
        ∃ m : Fmt, ly.fmt = some m ∧ (m ∈ [Fmt.int32, .int64] ∧ z ≠ some .fadd32 ∨
          m ∈ [Fmt.fp32, .fp64] ∧ (z = none ∨ z = some .swap) ∨ m = .fp32 ∧ z = some .fadd32)
      let operands := fun (z : Option Aop) => poisoned b ∨ (z = none ∧ poisoned q)
      -- the order field
      ((o = .rel ∨ o = .ar) → traps .a ld .reservedField word ∧ traps .a lds .reservedField word) ∧
      ((o = .acq ∨ o = .ar) → traps .a st_ .reservedField word ∧ traps .a sts .reservedField word) ∧
      -- the layout and the format
      (∀ kind : AccessKind, layReserved st ly kind = true ↔ st.reserved = true ∨ ly.reserved = true ∨ 4 < ly.space ∨
        (ly.skew ≠ 0 ∧ ly.space ≠ 0) ∨ (ly.home = true ∧ ly.space ≠ 2) ∨ (ly.pm = true ∧ ∃ m, ly.fmt = some m ∧ m.isPlane = false) ∨
        (kind = .element ∧ (ly.pm = true ∨ ly.space = 4)) ∨
        (kind = .row ∧ ((ly.pm = false ∧ ly.str.getD 0 0 ≠ 1) ∨ ly.space = 4))) ∧
      (loadOrder o = true → (layReserved st ly .element = true ∨ s.farPeer ly = true) → traps .a ld .reservedField word) ∧
      (stores → layReserved st ly .element = true → traps .a st_ .reservedField word) ∧
      (loadOrder o = true → (layReserved st ly .row = true ∨ s.farPeer ly = true) → traps .a lds .reservedField word) ∧
      (stores → layReserved st ly .row = true → traps .a sts .reservedField word) ∧
      ((layReserved st ly .element = true ∨ ly.space = 0 ∨ s.farPeer ly = true) →
        ∀ i z, (i, z) ∈ atomics → traps .a i .reservedField word) ∧
      (elem → ¬ scalar → (loads → traps .a ld .illegalFormat word) ∧ (stores → traps .a st_ .illegalFormat word)) ∧
      (elem → ly.space ≠ 0 → s.farPeer ly = false → ∀ i z, (i, z) ∈ atomics → ¬ atomic z → traps .a i .illegalFormat word) ∧
      -- poison
      (elem → stores → scalar → poisoned a → traps .a st_ .poisonStore word) ∧
      (row → stores → front → traps .a sts .poisonStore word) ∧
      (∀ m : Num4, s.gatherProbe (s.ctx p c .a) m.val n.val false = .ok → front → traps .a (.scat f m n q adv) .poisonStore word) ∧
      (∀ i z, (i, z) ∈ atomics → atomic z → operands z → traps .a i .poisonStore word) ∧
      -- an element outside an extent, or outside the space
      (∀ (cls : Cls) (v : Word), elem → ((∃ d, outsideAt st ly 0 d ∧ ly.edge = true ∧ cls = .layoutBound ∧ v = edge 0 d) ∨
          ((∀ j < 4, insideAt st ly 0 j) ∧ (at_ < 0 ∨ spaceEnd ly < at_ + elemBytes ly) ∧ cls = .layoutBound ∧ v = place 1)) →
        (loads → scalar → traps .a ld cls v) ∧
        (stores → scalar → ¬ poisoned a → traps .a st_ cls v) ∧
        (∀ i z, (i, z) ∈ atomics → atomic z → ¬ operands z → traps .a i cls v)) ∧
      -- a row that is not aligned, with an element outside an extent, or outside the space
      (let split := at_ % 64 ≠ 0 ∨ (ly.pm = false ∧ ((ly.fmt = some .kc2 ∧ elemOffset ly st.cur % 8 ≠ 0) ∨
          (ly.format.bits = 4 ∧ elemOffset ly st.cur % 2 ≠ 0)))
       let inside := fun (i : Nat) => ∀ j < 4, insideAt st ly i j
       ∀ v : Word, row →
        ((split ∧ v = place 2) ∨
         (¬ split ∧ ∃ i d, i < rowElems ly ∧ (∀ h < i, inside h) ∧ outsideAt st ly i d ∧ ly.edge = true ∧ v = edge i d) ∨
         (¬ split ∧ (∃ i < rowElems ly, inside i) ∧ (ly.edge = false ∨ ∀ i < rowElems ly, inside i) ∧
           (at_ < 0 ∨ spaceEnd ly < at_ + 64) ∧ v = place 1)) →
        (loads → traps .a lds .layoutBound v) ∧ (stores → clean → traps .a sts .layoutBound v)) ∧
      -- offsets of table words
      (∀ (t : Fin 64) (i : Instr) (size : Nat),
        (i, size) ∈ [(Instr.layset f t a, 64), (.layget f t a, 64), (.stset f n a, 32), (.stget f n a, 32)] →
        let v := (k.getC a.val).v
        (poisoned a → traps .a i .poisonStore word) ∧
        (¬ poisoned a → (v.toNat % size ≠ 0 ∨ 327680 < v.toNat + size) →
          traps .a i .layoutBound (BitVec.ofNat 64 (3 * 2 ^ 56 + v.toNat % 2 ^ 52)))))

/-- Coordinate arithmetic (07 R179): cd ← f(a, b), with the landing ticks of 07 R155. -/
def Obligations.CoordinateWords : Prop :=
  ∀ (s : State) (f : Frame) (x : Ctx) (t : State) (d a b : Num4), Issues s f .a x t →
    let u := ((t.core x.c).getC a.val).v
    let v := ((t.core x.c).getC b.val).v
    let pa := ((t.core x.c).getC a.val).p
    let p := pa || ((t.core x.c).getC b.val).p
    exec (.cadd f d a b) s = lands t x 1 (.c d.val ⟨u + v, p⟩) ∧
    exec (.csub f d a b) s = lands t x 1 (.c d.val ⟨u - v, p⟩) ∧
    exec (.cmul f d a b) s = lands t x 3 (.c d.val ⟨BitVec.ofNat 64 (u.toNat * v.toNat % 2 ^ 64), p⟩) ∧
    exec (.cand f d a b) s = lands t x 1 (.c d.val ⟨u &&& v, p⟩) ∧
    exec (.cor f d a b) s = lands t x 1 (.c d.val ⟨u ||| v, p⟩) ∧
    exec (.cshl f d a b) s = lands t x 1 (.c d.val ⟨u <<< (v.toNat % 64), p⟩) ∧
    exec (.cshr f d a b) s = lands t x 1 (.c d.val ⟨u >>> (v.toNat % 64), p⟩) ∧
    exec (.cmin f d a b) s = lands t x 1 (.c d.val ⟨BitVec.ofInt 64 (min u.toInt v.toInt), p⟩) ∧
    exec (.cmax f d a b) s = lands t x 1 (.c d.val ⟨BitVec.ofInt 64 (max u.toInt v.toInt), p⟩) ∧
    (∀ imm : BitVec 38, exec (.caddi f d a imm) s = lands t x 1 (.c d.val ⟨u + imm.signExtend 64, pa⟩)) ∧
    (∀ imm : BitVec 42, exec (.climm f d imm) s = lands t x 1 (.c d.val ⟨imm.signExtend 64, false⟩))

/-- Table words (07 R155, R180, R181): LAYSET and STSET sample at t + 7 of strict mode, t + 5 of loose mode, and land at
t + 14 or t + 10; LAYGET and STGET write the entry's bytes at the sampling tick, its reserved bits as 0 (00 R8, 07 R158, R164); STADV adds c[a] times the steps to the
cursor and STRST clears it, both landing at t + 1. -/
def Obligations.TableWords : Prop :=
  ∀ (s : State) (f : Frame) (x : Ctx) (t : State) (a : Num4), Issues s f .a x t →
    let k := t.core x.c
    let off := (k.getC a.val).v.toNat
    let l := if (t.part x.p).loose then 10 else 14
    let put := fun (v m : Row) => (Host.Outcome.next ((t.modPart x.p fun q => { q with seq := q.seq + 1 }).later x (x.t + l / 2)
      (.write ⟨.pocket x.c off, 0xF, (t.part x.p).seq + 1, false, x.t + l / 2, [], false⟩ v m false)) : Out)
    let sampled := fun (isLt : Bool) (n : Nat) => (Host.Outcome.next ((t.modPart x.p fun q => { q with seq := q.seq + 1 }).sampleAt x
      (x.t + l / 2) (.sampleTable ⟨.pocket x.c off, 0xF, (t.part x.p).seq + 1, false, x.t + l, [], false⟩ isLt n)) : Out)
    (∀ n : Fin 64, exec (.layset f n a) s = sampled true n.val ∧
      exec (.layget f n a) s = put (readLt (k.getLt n.val)) (BitVec.ofNat 512 (2 ^ 512 - 1)) ∧
      ∀ i : Nat, i < 512 → (readLt (k.getLt n.val)).getLsbD i = ((k.getLt n.val).getLsbD i &&
        !(decide (416 ≤ i) || decide (103 ≤ i ∧ i ≤ 127) || decide (81 ≤ i ∧ i ≤ 83) || decide (52 ≤ i ∧ i ≤ 63)))) ∧
    (∀ n : Num4, exec (.stset f n a) s = sampled false n.val ∧
      exec (.stget f n a) s = put ((readSt (k.getSt n.val)).setWidth 512) (BitVec.ofNat 512 (2 ^ 256 - 1)) ∧
      (∀ i : Nat, i < 256 → (readSt (k.getSt n.val)).getLsbD i = ((k.getSt n.val).getLsbD i && decide (i < 220))) ∧
      exec (.strst f n) s = lands t x 1 (.cursor n.val 0) ∧
      exec (.stadv f n a) s = lands t x 1 (.cursor n.val (packCursor (advanceBy (k.stream n.val).1 (k.stream n.val).2
        ((k.stream n.val).1.step.map fun z => sgn 32 (unsgn 32 ((k.getC a.val).v.toInt * z)))))))

/-- An access touches no data at its issue: memory, pockets, ring and the registers stay as they are. -/
def Sys2Proof.Claims.sameData (t u : State) : Prop :=
  u.hbm = t.hbm ∧ u.hostMem = t.hostMem ∧ ∀ c : Nat, (u.core c).ring = (t.core c).ring ∧
    (u.core c).pocket = (t.core c).pocket ∧ (u.core c).x = (t.core c).x ∧ (u.core c).c = (t.core c).c ∧
    (u.core c).v = (t.core c).v ∧ (u.core c).k = (t.core c).k ∧ (u.core c).st = (t.core c).st ∧ (u.core c).lt = (t.core c).lt

/-- The tick an access is timed from (07 R183, R188, R189): its issue tick, or where they are later the completion tick of the fences
and acquires that hold accesses of its kind, and for a store with a release of its own the latest tick of the core's earlier accesses
or the fence time, whichever is later; a load that would sample, `h` ticks on, before the latest store that a QMARK marks is timed
from that store's landing tick. -/
def Sys2Proof.Claims.timedFrom (t : State) (x : Ctx) (h : Nat) (o : Order) (sc : Scope) (ld st : Bool) : Nat :=
  let k := t.core x.c
  let release := if o = .rel ∨ o = .ar then max (x.t + fenceTime (t.part x.p).loose sc) (max k.lastL k.lastS) else 0
  let held := max x.t (max (if ld then k.afterL else 0) (if st then max k.afterS release else 0))
  if ld = true ∧ held + h < k.qmark then k.qmark else held

/-- Element loads and stores (07 R165, R167, R182): on a path of latency L, a load samples its element ⌊L/2⌋ ticks after
the tick `b` it is timed from (07 R183, R188, R189) and lands L ticks after it; a store writes at b + ⌊L/2⌋; the cursor lands at
t + 1. An element outside its layout reads 0 and a store of one is dropped. -/
def Obligations.ElementLoadsAndStores : Prop :=
  ∀ (s : State) (f : Frame) (x : Ctx) (t : State) (n r : Num4) (o : Order) (sc : Scope) (adv : Adv), Issues s f .a x t →
    let k := t.core x.c
    let st := (k.stream n.val).1
    let l := (k.stream n.val).2
    let lat := pathLatency (t.part x.p).loose x.c l
    (∃ (u : State) (b q : Nat), exec (.ld f r n o sc adv) s = .next u ∧ sameData t u ∧
      b = timedFrom t x (lat / 2) o sc true false ∧
      (∀ loc, t.element x.c l st.cur = .at loc → ⟨b + lat / 2, samplePlace, x.who, .sampleC
        ⟨loc, n.val, q, l.promise, b + lat, [packCursor st.cur], l.erc⟩ r.val (elemBytes l) (isSignedFmt l.format)⟩ ∈ (u.part x.p).pend) ∧
      (∀ d, t.element x.c l st.cur = .drop d → ⟨b + lat, 2, x.who, .c r.val ⟨0, false⟩⟩ ∈ (u.part x.p).pend) ∧
      (∀ c, cursorAfter st l adv 1 = some c → ⟨x.t + 1, 2, x.who, .cursor n.val c⟩ ∈ (u.part x.p).pend)) ∧
    (∃ (u : State) (b q : Nat), exec (.st f n r o sc adv) s = .next u ∧ sameData t u ∧
      b = timedFrom t x (lat / 2) o sc false true ∧
      (∀ loc, t.element x.c l st.cur = .at loc → ⟨b + lat / 2, 2, x.who, .write
        ⟨loc, n.val, q, l.promise, b + lat / 2, [packCursor st.cur], l.erc⟩ ((k.getC r.val).v.setWidth 512)
        (BitVec.ofNat 512 (2 ^ (8 * elemBytes l) - 1)) false⟩ ∈ (u.part x.p).pend) ∧
      (∀ d, t.element x.c l st.cur = .drop d → ∀ e ∈ (u.part x.p).pend, ∀ a v m p, e.act = .write a v m p → e ∈ (t.part x.p).pend) ∧
      (∀ c, cursorAfter st l adv 1 = some c → ⟨x.t + 1, 2, x.who, .cursor n.val c⟩ ∈ (u.part x.p).pend))

/-- Row loads and stores (07 R165, R167, R184), timed from the tick `b` of R183, R188 and R189: LDS claims a place in its queue at t and lands the row there, its elements
outside the layout as 0; STS pops its entry and writes the row's elements that lie inside. -/
def Obligations.RowLoadsAndStores : Prop :=
  ∀ (s : State) (f : Frame) (x : Ctx) (t : State) (n q : Num4) (o : Order) (sc : Scope) (adv : Adv), Issues s f .a x t →
    let k := t.core x.c
    let st := (k.stream n.val).1
    let l := (k.stream n.val).2
    let row := t.rowAt x.c l n.val st.cur
    let lat := pathLatency (t.part x.p).loose x.c l
    (∃ (u : State) (b i : Nat), exec (.lds f q n o sc adv) s = .next u ∧ sameData t u ∧
      b = timedFrom t x (lat / 2) o sc true false ∧
      (u.core x.c).getQueue q.val = k.getQueue q.val ++ [⟨k.nextId, 0, false, false, b + lat / 2⟩] ∧
      (∀ loc, row.loc = some loc → ⟨b + lat / 2, samplePlace, x.who,
        .sampleQ ⟨loc, n.val, i, l.promise, b + lat, [packCursor st.cur], l.erc⟩ q.val k.nextId row.mask⟩ ∈ (u.part x.p).pend) ∧
      (row.loc = none → ⟨b + lat, 2, x.who, .queue q.val k.nextId 0 false⟩ ∈ (u.part x.p).pend) ∧
      (∀ c, cursorAfter st l adv (rowElems l) = some c → ⟨x.t + 1, 2, x.who, .cursor n.val c⟩ ∈ (u.part x.p).pend)) ∧
    (∀ (e : QEntry) (rest : List QEntry), k.getQueue q.val = e :: rest →
      ∃ (u : State) (b i : Nat), exec (.sts f n q o sc adv) s = .next u ∧ sameData t u ∧
      b = timedFrom t x (lat / 2) o sc false true ∧
      (u.core x.c).queues = (k.setQueue q.val rest).queues ∧
      (∀ loc, row.loc = some loc → ⟨b + lat / 2, 2, x.who,
        .write ⟨loc, n.val, i, l.promise, b + lat / 2, [packCursor st.cur], l.erc⟩ e.v row.mask e.p⟩ ∈ (u.part x.p).pend) ∧
      (row.loc = none → ∀ d ∈ (u.part x.p).pend, ∀ a v m p, d.act = .write a v m p → d ∈ (t.part x.p).pend) ∧
      (∀ c, cursorAfter st l adv (rowElems l) = some c → ⟨x.t + 1, 2, x.who, .cursor n.val c⟩ ∈ (u.part x.p).pend))

/-- GATH, SCAT and TOUCH (07 R185, R186): the index row is sampled ⌊L/2⌋ ticks after the tick b (07 R188, R189) on the index path,
the elements ⌊L/2⌋ of the element path after the index latency; the index stream moves by 16 elements. An index row with no element
inside its extents is not read. TOUCH looks its address up; that one outside its range raises nothing and does nothing is the model's
reading (log entry 33). -/
def Obligations.GatherScatterTouch : Prop :=
  ∀ (s : State) (f : Frame) (x : Ctx) (t : State) (q sa sb : Num4) (adv : Adv), Issues s f .a x t →
    let k := t.core x.c
    let st := (k.stream sb.val).1
    let l := (k.stream sb.val).2
    let row := t.rowAt x.c l sb.val st.cur
    let li := pathLatency (t.part x.p).loose x.c l
    let le := pathLatency (t.part x.p).loose x.c (k.stream sa.val).2
    let at_ := row.loc.getD (.pocket x.c 0)
    let mask := row.loc.map fun _ => row.mask
    (∃ (u : State) (b i : Nat), exec (.gath f q sa sb adv) s = .next u ∧ sameData t u ∧
      b = timedFrom t x (li / 2) .rlx .co true false ∧
      (u.core x.c).getQueue q.val = k.getQueue q.val ++ [⟨k.nextId, 0, false, false, b + li + le / 2⟩] ∧
      ⟨b + li / 2, samplePlace, x.who, .gatherIndex ⟨at_, sa.val, i, false, b + li + le, [], l.erc⟩ mask q.val k.nextId
        (k.getSt sa.val) (k.getLt (strOf (k.getSt sa.val)).lt) (b + li + le / 2)⟩ ∈ (u.part x.p).pend ∧
      (∀ c, cursorAfter st l adv 16 = some c → ⟨x.t + 1, 2, x.who, .cursor sb.val c⟩ ∈ (u.part x.p).pend)) ∧
    (∀ (e : QEntry) (rest : List QEntry), k.getQueue q.val = e :: rest →
      ∃ (u : State) (b i : Nat), exec (.scat f sa sb q adv) s = .next u ∧ sameData t u ∧
      b = timedFrom t x (li / 2) .rlx .co false true ∧ (u.core x.c).queues = (k.setQueue q.val rest).queues ∧
      ⟨b + li / 2, samplePlace, x.who, .scatterIndex ⟨at_, sa.val, i, (k.stream sa.val).2.promise, b + li + le / 2, [], l.erc⟩ mask
        e.v (k.getSt sa.val) (k.getLt (strOf (k.getSt sa.val)).lt) (b + li + le / 2)⟩ ∈ (u.part x.p).pend ∧
      (∀ c, cursorAfter st l adv 16 = some c → ⟨x.t + 1, 2, x.who, .cursor sb.val c⟩ ∈ (u.part x.p).pend)) ∧
    (exec (.touch f sb) s = .next (if l.space = 2 ∧ inRange l (l.byteOf (elemOffset l st.cur)) 1 = true then
      t.sampleAt x (x.t + li / 2) (.touch (l.byteOf (elemOffset l st.cur)).toNat) else t))

/-- Atomics (07 R187): read and write together ⌊L/2⌋ ticks after the tick `e` they are timed from (07 R183, R188, R189); the old value
lands at e + L. An element outside its extents under the ZERO rule reads 0, which lands at that tick, and writes nothing (07 R161). The
operations of the table. -/
def Obligations.AtomicWords : Prop :=
  (∀ (s : State) (f : Frame) (x : Ctx) (t : State) (d st a b : Num4) (o : Order) (sc : Scope) (op : Aop),
    Issues s f .a x t →
    let k := t.core x.c
    let l := (k.stream st.val).2
    let aims := [packCursor (k.stream st.val).1.cur]
    let lat := pathLatency (t.part x.p).loose x.c l
    let e := timedFrom t x (lat / 2) o sc true true
    (∀ dim, t.element x.c l (k.stream st.val).1.cur = .drop dim → ∀ i ∈ [Instr.amo f d st a o sc op, .amocas f d st a b o sc],
      ∃ u : State, exec i s = .next u ∧ sameData t u ∧ ⟨e + lat, 2, x.who, .c d.val ⟨0, false⟩⟩ ∈ (u.part x.p).pend ∧
        ∀ w ∈ (u.part x.p).pend, w.act.isAtomic = true → w ∈ (t.part x.p).pend) ∧
    ∀ loc, t.element x.c l (k.stream st.val).1.cur = .at loc →
    (∃ (u : State) (i : Nat), exec (.amo f d st a o sc op) s = .next u ∧ sameData t u ∧
      ⟨e + lat / 2, 2, x.who, .atomic ⟨loc, st.val, i, l.promise, e + lat, aims, l.erc⟩ (some d.val) (some op) (k.getC a.val).v 0 l.format⟩
        ∈ (u.part x.p).pend) ∧
    (∃ (u : State) (i : Nat), exec (.amocas f d st a b o sc) s = .next u ∧ sameData t u ∧
      ⟨e + lat / 2, 2, x.who, .atomic ⟨loc, st.val, i, l.promise, e + lat, aims, l.erc⟩ (some d.val) none (k.getC a.val).v
        (k.getC b.val).v l.format⟩ ∈ (u.part x.p).pend)) ∧
  (∀ (n : Nat) (old v w : BitVec n),
    let r := fun (op : Option Aop) => atomicNew op n old.toNat v.toNat w.toNat
    r (some .add) = some (old + v).toNat ∧ r (some .and) = some (old &&& v).toNat ∧ r (some .or) = some (old ||| v).toNat ∧
    r (some .xor) = some (old ^^^ v).toNat ∧ r (some .minu) = some (min old.toNat v.toNat) ∧
    r (some .maxu) = some (max old.toNat v.toNat) ∧ r (some .swap) = some v.toNat ∧
    r (some .min) = some (if v.toInt < old.toInt then v else old).toNat ∧
    r (some .max) = some (if old.toInt < v.toInt then v else old).toNat ∧
    r (some .fadd32) = some (fAdd .fp32 .rne 0 old.toNat v.toNat).1 ∧
    r none = if old = v then some w.toNat else none)

/-- FENCE, QMARK and the noise-slot words (07 R188, R189, R191). A fence with bit xy puts later accesses of kind y behind the
fence time and behind the latest tick of the earlier accesses of kind x, with bit eng behind the latest engine word too; a kind
that no bit names is not delayed, and only bit eng delays later engine words. At its completion tick the partition freezes while an
earlier access of a kind it covers is not performed, at scope pd also while a posted store is not acknowledged; that it looks once,
after the landings of the tick, is the model's choice (log entries 32 and 65). A QMARK puts later loads behind the latest store.
Noise words take the pair c[a+1] and c[a] and land at t + 2; NGET samples the slot after the changes of its tick. -/
def Obligations.FenceMarkAndNoiseWords : Prop :=
  (∀ (s : State) (f : Frame) (x : Ctx) (t : State), Issues s f .a x t →
     let k := t.core x.c
     (∀ (m : BitVec 5) (sc : Scope), ∃ u : State, exec (.fence f m sc) s = .next u ∧ sameData t u ∧
       let eng := if m.getLsbD 0 then k.lastE else 0
       let ft := x.t + fenceTime (t.part x.p).loose sc
       let behindL := max ft (max k.lastL eng)
       let behindS := max ft (max k.lastS eng)
       let on := fun (i n : Nat) => if m.getLsbD i then n else 0
       (u.core x.c) = { k with
         afterL := max k.afterL (max (on 4 behindL) (on 2 behindS))
         afterS := max k.afterS (max (on 3 behindL) (on 1 behindS))
         afterE := max k.afterE (on 0 (max (max (on 4 behindL) (on 2 behindS)) (max (on 3 behindL) (on 1 behindS)))) } ∧
       (∀ c, c ≠ x.c → u.core c = t.core c) ∧
       ((m.getLsbD 4 = true ∨ m.getLsbD 3 = true) →
         ⟨max behindL (x.t + 1), 10, x.who, .fenceWait (sc == .pd) true false x.t⟩ ∈ (u.part x.p).pend) ∧
       ((m.getLsbD 2 = true ∨ m.getLsbD 1 = true) →
         ⟨max behindS (x.t + 1), 10, x.who, .fenceWait (sc == .pd) false true x.t⟩ ∈ (u.part x.p).pend) ∧
       (m.toNat < 2 → u.parts = t.parts)) ∧
     exec (.qmark f) s = .next (t.modCore x.c fun k => { k with qmark := max k.qmark k.lastS })) ∧
  (∀ (s : State) (f : Frame) (x : Ctx) (t : State) (n : Num3) (a b d : Num4), Issues s f .a x t →
     a.val % 2 = 0 →
     let k := t.core x.c
     let pair : BitVec 128 := (k.getC (a.val + 1)).v ++ (k.getC a.val).v
     exec (.nkey f n a) s = lands t x 2 (.noise n.val (.key pair)) ∧
     exec (.nctr f n a b) s = lands t x 2 (.noise n.val (.ctr pair (k.getC b.val).v)) ∧
     exec (.nskip f n a) s = lands t x 2 (.noise n.val (.skip pair)) ∧
     (∀ part : Sys2Proof.Part, exec (.nget f d n part) s = .next (t.addDue x.p ⟨x.t + 1, 0, x.who, .nget d.val n.val part⟩)) ∧
     (∀ slot : NoiseSlot,
       noiseApply slot (.key pair) = { slot with key := pair } ∧
       noiseApply slot (.ctr pair (k.getC b.val).v) = { slot with ctr := pair, stride := (k.getC b.val).v } ∧
       noiseApply slot (.skip pair) = { slot with ctr := BitVec.ofNat 128 ((slot.ctr.toNat + pair.toNat) % 2 ^ 128) }))

/-- ENG, EPUSH and EPOP (12 R253 to R255), timed from the tick `b`: the issue tick, or the completion tick of the fences with bit eng
that hold them back where that is later (07 R188). A command is claimed at t and lands at b + 2; EPUSH repeats the latest ENG with a
new parameter 0; EPOP takes the oldest result at b, landing at b + 2. A command releases the core's earlier stores (15 R301): it
carries its issue tick, up to which its launches' reads see those still in flight, and at the latest landing tick of them, or where the
command lands, the partition freezes while one of them is not performed. That no launch word waits for them, and that the freeze comes at
that tick, is the model's choice (log entries 83, 32 and 65). -/
def Obligations.EngineCommandWords : Prop :=
  ∀ (s : State) (f : Frame) (x : Ctx) (t : State) (e : EngineId), Issues s f .a x t →
    let k := t.core x.c
    let g := k.getEng (engNum e)
    let b := max x.t k.afterE
    let released := t.addDue x.p ⟨max (max (b + 2) k.lastS) (x.t + 1), 10, x.who, .fenceWait true false true x.t⟩
    (∀ (en : BitVec 10) (a n : Num4) (ch : Option (BitVec 10)), ∃ u : State, exec (.eng f e en a n ch) s = .next u ∧
      let cmd : EngCmd := ⟨en.toNat, (List.range n.val).map fun i => (k.getC (a.val + i)).v, ch.map (·.toNat), b + 2, x.t⟩
      (u.core x.c).getEng (engNum e) = { g with cmds := g.cmds ++ [cmd], last := some cmd } ∧
      u.part x.p = released.part x.p ∧ (∀ c, c ≠ x.c → u.core c = t.core c) ∧ sameData t u) ∧
    (∀ (a : Num4) (c : EngCmd), g.last = some c → ∃ u : State, exec (.epush f e a) s = .next u ∧
      (u.core x.c).getEng (engNum e) = { g with cmds := g.cmds ++
        [⟨c.entry, (k.getC a.val).v :: c.params.drop 1, c.chain, b + 2, x.t⟩] } ∧ u.part x.p = released.part x.p ∧
      sameData t u) ∧
    (∀ d : Num4, x.t < k.afterE → ∃ u : State, exec (.epop f d e) s = .next u ∧ sameData t u ∧
      (u.core x.c).getEng (engNum e) = g ∧ ⟨b, samplePlace, x.who, .epop (engNum e) d.val⟩ ∈ (u.part x.p).pend) ∧
    (∀ (d : Num4) (r : ResEntry) (l : List ResEntry), g.results = r :: l → k.afterE ≤ x.t → ∃ u : State,
      exec (.epop f d e) s = .next u ∧
      (u.core x.c).getEng (engNum e) = { g with results := l } ∧ sameData t u ∧
      ⟨x.t + 2, 2, x.who, .c d.val ⟨r.v, false⟩⟩ ∈ (u.part x.p).pend)

/-- Grid words (14 R277, R283 to R291): GDEF samples its first row ⌊L/2⌋ ticks after t, GBC and GADV take effect at t + 1, with the
step that GADV makes counted at its issue, GSTAT delivers the status at t + 2, GLD claims a queue place and reads ⌊L/2⌋ ticks after the
tick `b` it is timed from (07 R188, R189), GST pops its entry and writes there; L is the own-pocket latency. The cursor of GLD and GST
moves along dimension 0 by one row, or by its steps, and never wraps (R288, R289). -/
def Obligations.GridWords : Prop :=
  ∀ (s : State) (f : Frame) (x : Ctx) (t : State) (gr : Num3) (a q st : Num4) (adv : Adv), Issues s f .a x t →
    let k := t.core x.c
    let g := k.getGrid gr.val
    let l := if (t.part x.p).loose then 10 else 14
    let stream := strOf (k.getSt st.val)
    let moves := fun (u : State) =>
      let moved := fun (by_ : List Int) => (⟨x.t + 1, 2, x.who,
        .cursor st.val (packCursor (List.zipWith (fun c z => c + z) stream.cur by_))⟩ : Due) ∈ (u.part x.p).pend
      (adv = .a1 → moved [(64 / dEsize g.desc : Nat), 0, 0, 0]) ∧
      (adv = .as → moved [stream.step.getD 0 0, stream.step.getD 1 0, stream.step.getD 2 0, 0]) ∧
      (adv = .a0 → ∀ d ∈ (u.part x.p).pend, ∀ n c, d.act = .cursor n c → d ∈ (t.part x.p).pend)
    exec (.gdef f gr a) s = .next ((t.modPart x.p fun q => { q with seq := q.seq + 2 }).sampleAt x (x.t + l / 2)
      (.gridRow gr.val (k.getC a.val).v.toNat 0 ((t.part x.p).seq + 1) [])) ∧
    (∀ (face : Fin 6) (r : Rule), exec (.gbc f gr face a r) s = lands t x 1 (.gridRule gr.val face.val r
      (if r = .const then some (k.getC a.val).v else none))) ∧
    exec (.gadv f gr) s = lands t x 1 (.gridAdvance gr.val (g.step + 1)) ∧
    exec (.gstat f a gr) s = lands t x 2 (.c a.val ⟨g.status, false⟩) ∧
    (∃ (u : State) (b i : Nat), exec (.gld f q gr st a adv) s = .next u ∧ sameData t u ∧
      b = timedFrom t x (l / 2) .rlx .co true false ∧ moves u ∧
      (u.core x.c).getQueue q.val = k.getQueue q.val ++ [⟨k.nextId, 0, false, false, b + l / 2⟩] ∧
      ⟨b + l / 2, samplePlace, x.who, .gridLoad gr.val (.queue q.val k.nextId) (gridCursor (k.getSt st.val))
        (tagOf (k.getC a.val)) true (b + l) i⟩ ∈ (u.part x.p).pend) ∧
    (∀ (e : QEntry) (rest : List QEntry), k.getQueue q.val = e :: rest →
      ∃ (u : State) (b i : Nat), exec (.gst f gr st a q adv) s = .next u ∧ sameData t u ∧
      b = timedFrom t x (l / 2) .rlx .co false true ∧ moves u ∧ (u.core x.c).queues = (k.setQueue q.val rest).queues ∧
      ⟨b + l / 2, 2, x.who, .gridStore ⟨.pocket x.c 0, 0xF, i, false, b + l / 2, [], false⟩ (g.storeCells
        ((tagOf (k.getC a.val)).toNat % 2) (gridCursor (k.getSt st.val)) e.v)⟩ ∈ (u.part x.p).pend)

/-! ### The V cluster -/

/-- An operand register of a V word. -/
def Sys2Proof.Claims.vr (t : State) (x : Ctx) (r : VReg) : PRow := (t.core x.c).getV r.val

/-- The mask operand: k0 stands for a mask without poison that makes every element active (08 R200). -/
def Sys2Proof.Claims.maskPoison (t : State) (x : Ctx) (k : Num3) : Bool := k.val ≠ 0 && ((t.core x.c).getK k.val).p

/-- Element i of a format is active under mask register k (08 R200), for formats of 8 bits and more. -/
def Sys2Proof.Claims.active (t : State) (x : Ctx) (k : Num3) (i : Nat) : Bool :=
  k.val = 0 || ((t.core x.c).getK k.val).v.getLsbD i

/-- A result in the active elements of register d, n ticks after the issue tick: element i is g i to the
element width, and the other elements
keep what they hold. -/
def Sys2Proof.Claims.landsLanes (o : Out) (t : State) (x : Ctx) (n : Nat) (d : VReg) (f : Fmt) (k : Num3) (p : Bool) (g : Nat → Nat) : Prop :=
  ∃ val mask : Row, o = lands t x n (.v d.val val mask p) ∧ ∀ i < f.lanes, elemOf f.bits val i = g i % 2 ^ f.bits ∧
    elemOf f.bits mask i = if active t x k i then 2 ^ f.bits - 1 else 0

/-- Integer lane words (08 R207): element by element, wrapping to the element width, signed but for uint8, landing at t + 2;
a poisoned operand or mask poisons the result. -/
def Obligations.VectorIntegerWords : Prop :=
  ∀ (s : State) (f : Frame) (x : Ctx) (t : State) (d a b : VReg) (k : Num3) (fmt : Fmt), Issues s f .v x t →
    fmt.isVecInt = true →
    let n := fmt.bits
    let u := fun (i : Nat) => elemOf n (vr t x a).v i
    let v := fun (i : Nat) => elemOf n (vr t x b).v i
    let int := fun (e : Nat) => if fmt = .uint8 then (e : Int) else if e < 2 ^ (n - 1) then (e : Int) else (e : Int) - 2 ^ n
    let wrap := fun (z : Int) => (z % 2 ^ n).toNat
    let r := fun (i : Instr) (g : Nat → Nat) =>
      landsLanes (exec i s) t x 2 d fmt k ((vr t x a).p || (vr t x b).p || maskPoison t x k) g
    r (.vadd f d a b k fmt) (fun i => wrap (u i + v i)) ∧
    r (.vsub f d a b k fmt) (fun i => wrap ((u i : Int) - v i)) ∧
    r (.vmul f d a b k fmt) (fun i => wrap (int (u i) * int (v i))) ∧
    r (.vmulh f d a b k fmt) (fun i => wrap (int (u i) * int (v i) / 2 ^ n)) ∧
    r (.vmin f d a b k fmt) (fun i => wrap (min (int (u i)) (int (v i)))) ∧
    r (.vmax f d a b k fmt) (fun i => wrap (max (int (u i)) (int (v i)))) ∧
    r (.vand f d a b k fmt) (fun i => u i &&& v i) ∧
    r (.vor f d a b k fmt) (fun i => u i ||| v i) ∧
    r (.vxor f d a b k fmt) (fun i => u i ^^^ v i) ∧
    r (.vshl f d a b k fmt) (fun i => u i * 2 ^ (v i % n) % 2 ^ n) ∧
    r (.vshr f d a b k fmt) (fun i => wrap (int (u i) / 2 ^ (v i % n)))

/-- Float lane words (08 R209): the operation of 04 on each element with the word's rounding mode, the flags of the active
elements landing with the result, and a draw for every element where the mode is sto, which moves the noise slot on at
issue. -/
def Obligations.VectorFloatWords : Prop :=
  ∀ (s : State) (f : Frame) (x : Ctx) (t : State) (d a b c : VReg) (k : Num3) (fmt : Fmt) (rm : Rm) (ns : Num3),
    Issues s f .v x t → fmt.isVecFloat = true →
    let slot := (t.core x.c).getNs ns.val
    let t1 := if rm = .sto then t.modCore x.c fun q => q.setNs ns.val (slotAfter slot fmt.lanes) else t
    let draw := fun (i : Nat) => if rm = .sto then uniDraw (slotBlock slot i) else 0
    let u := fun (r : VReg) (i : Nat) => elemOf fmt.bits (vr t x r).v i
    let r := fun (i : Instr) (t : State) (n : Nat) (p : Bool) (g : Nat → Nat × Flags) =>
      ∃ fl : Flags, landsLanes (exec i s) (t.laterFlags x (x.t + n) fl (p || maskPoison t x k)) x n d fmt k
        (p || maskPoison t x k) (fun i => (g i).1) ∧
      ∀ j < 5, fl.getLsbD j = (List.range fmt.lanes).any fun i => active t x k i && (g i).2.getLsbD j
    r (.vfadd f d a b k fmt rm ns) t1 4 ((vr t x a).p || (vr t x b).p) (fun i => fAdd fmt rm (draw i) (u a i) (u b i)) ∧
    r (.vfsub f d a b k fmt rm ns) t1 4 ((vr t x a).p || (vr t x b).p) (fun i => fSub fmt rm (draw i) (u a i) (u b i)) ∧
    r (.vfmul f d a b k fmt rm ns) t1 4 ((vr t x a).p || (vr t x b).p) (fun i => fMul fmt rm (draw i) (u a i) (u b i)) ∧
    r (.vfma f d a b c k fmt rm ns) t1 5 ((vr t x a).p || (vr t x b).p || (vr t x c).p)
      (fun i => fMa fmt rm (draw i) (u a i) (u b i) (u c i)) ∧
    r (.vfmin f d a b k fmt) t 2 ((vr t x a).p || (vr t x b).p) (fun i => (fMin fmt (u a i) (u b i), 0)) ∧
    r (.vfmax f d a b k fmt) t 2 ((vr t x a).p || (vr t x b).p) (fun i => (fMax fmt (u a i) (u b i), 0)) ∧
    r (.vfabs f d a k fmt) t 2 (vr t x a).p (fun i => (fAbs fmt (u a i), 0)) ∧
    r (.vfneg f d a k fmt) t 2 (vr t x a).p (fun i => (fNeg fmt (u a i), 0))

/-- Compares and mask words (08 R208, R210, R216): bit i of kd is 1 where element i is active and the condition holds, and
every other bit is 0; VFCMP raises NV, and nothing else, where an active element has a NaN operand under lt, le, gt or ge; KSET, KLOG
and KCNT. -/
def Obligations.MaskWords : Prop :=
  (∀ (s : State) (f : Frame) (x : Ctx) (t : State) (kd : Num3) (a b : VReg) (k : Num3) (fmt : Fmt) (cond : Cond),
    Issues s f .v x t →
    let u := fun (i : Nat) => elemOf fmt.bits (vr t x a).v i
    let v := fun (i : Nat) => elemOf fmt.bits (vr t x b).v i
    let p := (vr t x a).p || (vr t x b).p || maskPoison t x k
    (fmt.isVecInt = true → ∃ m : Word, exec (.vcmpi f kd a b k fmt cond) s = lands t x 2 (.k kd.val ⟨m, p⟩) ∧
      ∀ i < 64, m.getLsbD i = (decide (i < fmt.lanes) && active t x k i && iCmp cond (laneInt fmt (u i)) (laneInt fmt (v i)))) ∧
    (fmt.isVecFloat = true → ∃ (m : Word) (fl : Flags), exec (.vfcmp f kd a b k fmt cond) s =
      lands (if p = true ∨ fl = 0 then t else t.later x (x.t + 2) (.fflags fl)) x 2 (.k kd.val ⟨m, p⟩) ∧
      (let invalid := cond ∈ [Cond.lt, .le, .gt, .ge] ∧
         ∃ i < fmt.lanes, active t x k i = true ∧ (Reads fmt (u i) .nan ∨ Reads fmt (v i) .nan)
       (invalid → fl = 0b10000) ∧ (¬ invalid → fl = 0)) ∧
      ∀ i < 64, m.getLsbD i = (decide (i < fmt.lanes) && active t x k i && (fCmp fmt cond (u i) (v i)).1))) ∧
  (∀ (s : State) (f : Frame) (x : Ctx) (t : State) (kd ka kb : Num3) (d : VReg), Issues s f .v x t →
    let u := (t.core x.c).getK ka.val
    let v := (t.core x.c).getK kb.val
    (∀ n : BitVec 43, n.toNat ≤ 64 → ∃ m : Word, exec (.kset f kd n) s = lands t x 1 (.k kd.val ⟨m, false⟩) ∧
      ∀ i < 64, m.getLsbD i = decide (i < n.toNat)) ∧
    exec (.klog f kd ka kb .and) s = lands t x 1 (.k kd.val ⟨u.v &&& v.v, u.p || v.p⟩) ∧
    exec (.klog f kd ka kb .or) s = lands t x 1 (.k kd.val ⟨u.v ||| v.v, u.p || v.p⟩) ∧
    exec (.klog f kd ka kb .xor) s = lands t x 1 (.k kd.val ⟨u.v ^^^ v.v, u.p || v.p⟩) ∧
    exec (.klog f kd ka kb .andn) s = lands t x 1 (.k kd.val ⟨u.v &&& ~~~v.v, u.p || v.p⟩) ∧
    exec (.kcnt f d ka) s = lands t x 2 (.v d.val (BitVec.ofNat 512 ((List.range 64).filter u.v.getLsbD).length)
      (BitVec.allOnes 512) u.p))

/-- Ring words (08 R203 to R205), for a row in the ring store, whether its elements lie inside their extents or not: VRD reads
its bank row at t, its elements outside as 0, puts it on the track at the bank's stop at t + 2 and takes it
at stop 1; VWR puts v[a] on the track at stop 1 at t + 1 and the bank takes it; VTAP takes what stands at stop 1 at t, or 64
zero bytes, which it reports; VINJ injects at t + 1. A row that lies in no row of the store, all of whose elements are
outside, reads as 0 and takes nothing. -/
def Obligations.RingWords : Prop :=
  ∀ (s : State) (f : Frame) (x : Ctx) (t : State) (d : VReg) (n tk : Num4) (adv : Adv), Issues s f .v x t →
    let k := t.core x.c
    let row := t.rowAt x.c (k.stream n.val).2 n.val (k.stream n.val).1.cur
    (∀ c off, row.own = some (.ring c off) → off / 64 % 8 = row.bank ∧
      let stop := 2 * row.bank
      (∃ u : State, exec (.vrd f d n tk adv) s = .next u ∧ sameData t u ∧
        ⟨x.t + 2, 0, x.who, .inject tk.val stop (rowOfBytes (Memory.readBytes (t.core c).ring off 64) &&& row.mask)
          (t.readBank x.p x.c row.own row.mask).p⟩ ∈ (u.part x.p).pend ∧
        ⟨x.t + 2 + transit stop 1 tk.val, samplePlace, x.who, .tapV d.val tk.val⟩ ∈ (u.part x.p).pend) ∧
      (∃ u : State, exec (.vwr f n d tk adv) s = .next u ∧ sameData t u ∧
        ⟨x.t + 1, 0, x.who, .inject tk.val 1 (vr t x d).v (vr t x d).p⟩ ∈ (u.part x.p).pend ∧
        ⟨x.t + 1 + transit 1 stop tk.val, samplePlace, x.who, .bankTake tk.val stop off row.mask⟩ ∈ (u.part x.p).pend)) ∧
    (row.own = none →
      (∃ u : State, exec (.vrd f d n tk adv) s = .next u ∧ sameData t u ∧
        ⟨x.t + 2, 0, x.who, .inject tk.val (2 * row.bank) 0 false⟩ ∈ (u.part x.p).pend) ∧
      (∃ u : State, exec (.vwr f n d tk adv) s = .next u ∧ sameData t u ∧
        ⟨x.t + 1 + transit 1 (2 * row.bank) tk.val, samplePlace, x.who, .bankTake tk.val (2 * row.bank) none row.mask⟩
          ∈ (u.part x.p).pend)) ∧
    (∀ w : TrackWord, k.trackAt tk.val 1 x.t = some w → ∃ u : State, exec (.vtap f d tk) s = .next u ∧ sameData t u ∧
      ⟨x.t + 1, 3, x.who, .v d.val w.v (BitVec.allOnes 512) w.p⟩ ∈ (u.part x.p).pend ∧ (u.core x.c).vstat = k.vstat) ∧
    (k.trackAt tk.val 1 x.t = none → ∃ u : State, exec (.vtap f d tk) s = .next u ∧ sameData t u ∧
      ⟨x.t + 1, 3, x.who, .v d.val 0 (BitVec.allOnes 512) false⟩ ∈ (u.part x.p).pend ∧
      (u.core x.c).vstat.getLsbD 0 = true) ∧
    exec (.vinj f tk d) s = .next (t.addDue x.p ⟨x.t + 1, 0, x.who, .inject tk.val 1 (vr t x d).v (vr t x d).p⟩)

/-- Element moves and permutes (08 R215): bit patterns only, landing at t + 3. -/
def Obligations.VectorMoves : Prop :=
  ∀ (s : State) (f : Frame) (x : Ctx) (t : State) (d a b : VReg) (k : Num3) (fmt : Fmt), Issues s f .v x t →
    fmt.isMove = true →
    let u := fun (i : Nat) => elemOf fmt.bits (vr t x a).v i
    let whole := fun (i : Instr) (g : Nat → Nat) => ∃ val : Row,
      exec i s = lands t x 3 (.v d.val val (BitVec.allOnes 512) (vr t x a).p) ∧ ∀ j < fmt.lanes, elemOf fmt.bits val j = g j
    landsLanes (exec (.vperm f d a b k fmt) s) t x 3 d fmt k ((vr t x a).p || (vr t x b).p || maskPoison t x k)
      (fun i => u (elemOf fmt.bits (vr t x b).v i % fmt.lanes)) ∧
    (∀ n : BitVec 31, whole (.vslide f d a fmt n) fun i =>
      if 0 ≤ (i : Int) - n.toInt ∧ (i : Int) - n.toInt < fmt.lanes then u ((i : Int) - n.toInt).toNat else 0) ∧
    (∀ n : BitVec 31, whole (.vbcst f d a fmt n) fun _ => u n.toNat) ∧
    (∀ n : BitVec 31, whole (.vext f d a fmt n) fun i => if i = 0 then u n.toNat else 0) ∧
    (∀ n : BitVec 31, n.toNat < fmt.lanes → ∃ val mask : Row,
      exec (.vins f d a fmt n) s = lands t x 3 (.v d.val val mask (vr t x a).p) ∧
      ∀ i < fmt.lanes, elemOf fmt.bits mask i = (if i = n.toNat then 2 ^ fmt.bits - 1 else 0) ∧
        (i = n.toNat → elemOf fmt.bits val i = u 0)) ∧
    (∃ val : Row, exec (.vsel f d a b k) s = lands t x 3 (.v d.val val (BitVec.allOnes 512)
        ((vr t x a).p || (vr t x b).p || ((t.core x.c).getK k.val).p)) ∧
      ∀ i < 64, rowByte val i = if active t x k i then rowByte (vr t x a).v i else rowByte (vr t x b).v i)

/-- Element i of a format is active under mask register k; a bit governs the two elements of a byte of a 4-bit format (08 R200).
For VCVT the format is the destination's: the model's choice (log entry 22). -/
def Sys2Proof.Claims.activeIn (t : State) (x : Ctx) (k : Num3) (f : Fmt) (i : Nat) : Bool :=
  k.val = 0 || ((t.core x.c).getK k.val).v.getLsbD (if f.bits = 4 then i / 2 else i)

/-- Conversion, quantisation, decoding, reduction and draws (08 R211 to R214, R219, R220). VCVT converts the low elements both
formats have, by mask, and writes 0 above them whatever the mask; a mode `sto` draws for each element it converts, and VQMX for
each of its 32, and the slot moves on at issue. Flags are those of the active elements. A sequential VRNG draws for the active slots
in order, keeps the others and moves the counter on at issue; an indexed one draws the block its index names and the counter stays;
`raw` has four slots of a block each. Which mask bit governs an element of a VCVT between a 4-bit format and a wider one, that of the
destination, is the model's choice (DESIGN CHOICE, log entry 22). -/
def Obligations.VectorConversionsAndDraws : Prop :=
  (∀ (s : State) (f : Frame) (x : Ctx) (t : State) (d a : VReg) (k ns : Num3) (dst src : Fmt) (rm : Rm), Issues s f .v x t →
     let u := (vr t x a).v
     let p := (vr t x a).p
     let slot := (t.core x.c).getNs ns.val
     let draw := fun (i : Nat) => if rm = .sto then uniDraw (slotBlock slot i) else 0
     let drawn := fun (m : Nat) => if rm = .sto then t.modCore x.c fun c => c.setNs ns.val (slotAfter slot m) else t
     let any := fun (n j : Nat) (g : Nat → Flags) => (List.range n).any fun i => (g i).getLsbD j
     let n := min src.lanes dst.lanes
     (dst.isCvtDst = true → src.isCvtSrc = true → ∃ (val mask : Row) (fl : Flags),
       exec (.vcvt f d a k dst src rm ns) s = lands ((drawn n).laterFlags x (x.t + 4) fl (p || maskPoison t x k)) x 4
         (.v d.val val mask (p || maskPoison t x k)) ∧
       (∀ i < dst.lanes,
         elemOf dst.bits val i = (if i < n then (convert dst src rm (draw i) (elemOf src.bits u i)).1 % 2 ^ dst.bits else 0) ∧
         elemOf dst.bits mask i = if n ≤ i ∨ activeIn t x k dst i = true then 2 ^ dst.bits - 1 else 0) ∧
       ∀ j < 5, fl.getLsbD j =
         any n j fun i => if activeIn t x k dst i then (convert dst src rm (draw i) (elemOf src.bits u i)).2 else 0) ∧
     (let w := (t.core x.c).getV ((a.val + 1) % 32)
       let planes := fld (t.core x.c).vstat.toNat 8 4
       let r := quantMx dst ((elemsOf 32 u ++ elemsOf 32 w.v).map (vIn .fp32)) rm (if planes = 0 then 8 else planes)
         ((List.range 32).map draw)
       exec (.vqmx f d a dst rm ns) s = lands ((drawn 32).laterFlags x (x.t + 4) r.2.2 (p || w.p)) x 4
         (.v d.val (BitVec.ofNat 512 (rowOfElems dst.bits r.2.1 + r.1 * 2 ^ 256)) (BitVec.allOnes 512) (p || w.p))) ∧
     (src.isDqSrc = true → let q := (dqValues src u).map fun q => vOut .bf16 q .rne 0
       ∃ (val : Row) (fl : Flags), exec (.vdq f d a .bf16 src) s =
         lands (t.laterFlags x (x.t + 4) fl p) x 4 (.v d.val val (BitVec.allOnes 512) p) ∧
       (∀ i < 32, elemOf 16 val i = ((q.map (·.1)).getD i 0) % 2 ^ 16) ∧
       ∀ j < 5, fl.getLsbD j = q.any fun e => e.2.getLsbD j) ∧
     (src.isDqSrc = true → let q := (dqValues src u).map fun q => vOut .fp32 q .rne 0
       ∃ (v1 v2 : Row) (fl : Flags), exec (.vdq f d a .fp32 src) s =
         lands ((t.laterFlags x (x.t + 4) fl p).later x (x.t + 4) (.v d.val v1 (BitVec.allOnes 512) p)) x 4
           (.v ((d.val + 1) % 32) v2 (BitVec.allOnes 512) p) ∧
       (∀ i < 16, elemOf 32 v1 i = ((q.map (·.1)).getD i 0) % 2 ^ 32 ∧ elemOf 32 v2 i = ((q.map (·.1)).getD (i + 16) 0) % 2 ^ 32) ∧
       ∀ j < 5, fl.getLsbD j = q.any fun e => e.2.getLsbD j) ∧
     (∀ red : Red, let r := reduce dst red ((elemsOf dst.bits u).zipIdx.map fun (e, i) => (e, activeIn t x k dst i))
       exec (.vred f d a k dst red) s = lands (t.laterFlags x (x.t + 6) r.2 (p || maskPoison t x k)) x 6
         (.v d.val (BitVec.ofNat 512 r.1) (BitVec.allOnes 512) (p || maskPoison t x k)))) ∧
  (∀ (s : State) (f : Frame) (x : Ctx) (t : State) (d a : VReg) (ns k : Num3) (fmt : Fmt) (dist : Dist), Issues s f .v x t →
     let slot := (t.core x.c).getNs ns.val
     let before := fun (i : Nat) => ((List.range i).filter (active t x k)).length
     let m := if dist = .raw then 4 else 16
     let b := if dist = .raw then 128 else 32
     let index := fun (i : Nat) => let v := elemOf 32 (vr t x a).v i
       if dist = .raw ∧ 2 ^ 31 ≤ v then (v : Int) - 2 ^ 32 else (v : Int)
     let holds := fun (val mask : Row) (block : Nat → Nat) => ∀ i < m,
       elemOf b mask i = (if active t x k i then 2 ^ b - 1 else 0) ∧
       (active t x k i = true → elemOf b val i = drawValue dist (block i) % 2 ^ b)
     (∃ (val mask : Row), exec (.vrng f d a ns k fmt dist false) s =
       lands (t.modCore x.c fun c => c.setNs ns.val { slot with
         ctr := slot.ctr + BitVec.ofNat 128 (before m * slot.stride.toNat) }) x 6 (.v d.val val mask (maskPoison t x k)) ∧
       holds val mask fun i => slotBlock slot (before i : Nat)) ∧
     (∃ (val mask : Row), exec (.vrng f d a ns k fmt dist true) s =
       lands t x 6 (.v d.val val mask ((vr t x a).p || maskPoison t x k)) ∧ holds val mask fun i => slotBlock slot (index i)))

/-- Plane transposition (08 R217, R218): both words land their four registers together at t + 5, poisoned if any source is. Bit i of
plane q of group g is a bit of element i of that group: bit q of an integer, the bits from the sign down of a float (04 R84); VUNPL puts
every bit back, so that transposing back gives the elements again. -/
def Obligations.PlaneTransposition : Prop :=
  (∀ (s : State) (f : Frame) (x : Ctx) (t : State) (d a : VReg) (fmt : Fmt), Issues s f .v x t → a.val % 4 = 0 → d.val % 4 = 0 →
    let n := (vr t x a).v.toNat + 2 ^ 512 * (((t.core x.c).getV (a.val + 1)).v.toNat +
      2 ^ 512 * (((t.core x.c).getV (a.val + 2)).v.toNat + 2 ^ 512 * ((t.core x.c).getV (a.val + 3)).v.toNat))
    let p := (vr t x a).p || ((t.core x.c).getV (a.val + 1)).p || ((t.core x.c).getV (a.val + 2)).p ||
      ((t.core x.c).getV (a.val + 3)).p
    let four := fun (m : Nat) => ((((t.later x (x.t + 5) (.v d.val (BitVec.ofNat 512 m) (BitVec.allOnes 512) p)).later x (x.t + 5)
      (.v (d.val + 1) (BitVec.ofNat 512 (m / 2 ^ 512)) (BitVec.allOnes 512) p)).later x (x.t + 5)
      (.v (d.val + 2) (BitVec.ofNat 512 (m / 2 ^ 1024)) (BitVec.allOnes 512) p)).later x (x.t + 5)
      (.v (d.val + 3) (BitVec.ofNat 512 (m / 2 ^ 1536)) (BitVec.allOnes 512) p))
    exec (.vpln f d a fmt) s = .next (four (transposed fmt n)) ∧ exec (.vunpl f d a fmt) s = .next (four (untransposed fmt n))) ∧
  (∀ (fmt : Fmt) (n g i q : Nat), fmt.isPlane = true → g < 16 / fmt.bits → i < 128 → q < fmt.bits →
    let plane := 128 * (fmt.bits * g) + (128 * q + i)
    let element := fmt.bits * (128 * g + i) + (if fmt ∈ [Fmt.int8, .int4, .mxint8] then q else fmt.bits - 1 - q)
    (transposed fmt n).testBit plane = n.testBit element ∧ (untransposed fmt n).testBit element = n.testBit plane) ∧
  (∀ (fmt : Fmt) (n : Nat), fmt.isPlane = true → n < 2 ^ 2048 → untransposed fmt (transposed fmt n) = n)

/-! ### The M cluster -/

/-- Configuration, clears, power words and status (10 R236, R237, R241 to R244): what each selected sub-array does at t + 1,
what the power words do at t, and that no other sub-array is touched. MSTAT delivers to q13 at t + 2. -/
def Obligations.MatrixControlWords : Prop :=
  ∀ (s : State) (f : Frame) (x : Ctx) (t : State) (sa : SaMask), Issues s f .m x t →
    let sub := fun (u : State) (i : Nat) => (u.core x.c).getSa i
    let each := fun (i : Instr) (act : Nat → Act) => ∃ u : State, exec i s = .next u ∧ sameData t u ∧
      (∀ i < 4, sa.getLsbD i = true → ⟨x.t + 1, 4, x.who, act i⟩ ∈ (u.part x.p).pend ∧
        sub u i = { sub t i with used := x.t, idle := 0 }) ∧
      (∀ i < 4, sa.getLsbD i = false → sub u i = sub t i)
    (∀ (fa fb : Fmt) (p : BitVec 4) (ac : Acc) (pro : BitVec 7),
      each (.mcfg f sa fa fb p ac pro) fun i => .mcfg i ⟨fa, fb, p.toNat, ac, pro.toNat⟩) ∧
    each (.macz f sa) (fun i => .clearRows i (isIntPair (sub t i).cfg.fmtA)) ∧
    each (.mpro f sa) (fun i => .promote i) ∧
    (∃ u : State, exec (.mwake f sa) s = .next u ∧ sameData t u ∧ u.parts = t.parts ∧
      (∀ i < 4, sa.getLsbD i = true → (sub t i).power = .gated → (sub u i).power = .waking ∧ (sub u i).wakeAt = x.t + 48) ∧
      (∀ i < 4, sa.getLsbD i = true → (sub t i).power ≠ .gated → (sub u i).power = (sub t i).power) ∧
      (∀ i < 4, sa.getLsbD i = false → sub u i = sub t i)) ∧
    (∃ u : State, exec (.msleep f sa) s = .next u ∧ sameData t u ∧ u.parts = t.parts ∧
      (∀ i < 4, sa.getLsbD i = true → sub u i = { sub t i with used := x.t, idle := 0, sleepAt := some (x.t + 1) }) ∧
      (∀ i < 4, sa.getLsbD i = false → sub u i = sub t i)) ∧
    (∀ i < 4, sa = BitVec.ofNat 4 (2 ^ i) → ∃ (u : State) (n : Nat), exec (.mstat f sa) s = .next u ∧ sameData t u ∧
      (u.core x.c).getQueue 13 = (t.core x.c).getQueue 13 ++ [⟨n, 0, false, false, x.t⟩] ∧
      ⟨x.t + 2, 4, x.who, .queue 13 n (((sub t i).status x.t).setWidth 512) false⟩ ∈ (u.part x.p).pend)

/-- Loads, passes and drains of the sub-arrays that a word names (10 R227 to R234, R238 to R242): for each of them which ticks its
port is busy, when the first word is taken or the first row read, each offset by its distance from the lead sub-array (R228), and,
for a load, its swap, which for a sub-array with an offset is the model's choice (log entry 21). No other sub-array changes. -/
def Obligations.MatrixPortWords : Prop :=
  ∀ (s : State) (f : Frame) (x : Ctx) (t : State) (sa : SaMask) (tk tkb : Num4), Issues s f .m x t →
    let sub := fun (u : State) (i : Nat) => (u.core x.c).getSa i
    let off := fun (k : Num4) (i : Nat) => transit (saStop (leadOf (selected sa) k.val)) (saStop i) k.val
    let does := fun (w : Instr) (g : State → Nat → Prop) => ∃ u : State, exec w s = .next u ∧ sameData t u ∧
      (∀ i < 4, sa.getLsbD i = false → sub u i = sub t i) ∧ ∀ i < 4, sa.getLsbD i = true → g u i
    does (.mlw f sa tk) (fun u i => let n := x.t + weightWords (sub t i).cfg.fmtB + off tk i
      ∃ r : LoadRun, (sub u i).weightBusy = n + 1 ∧ (sub u i).active = (sub t i).active ∧
        r.sa = i ∧ r.fmt = (sub t i).cfg.fmtB ∧ r.tkA = tk.val ∧ r.stop = saStop i ∧ r.noise = none ∧
        (sub u i).swap = some (n + 1, r) ∧ ⟨x.t + 1 + off tk i, samplePlace, x.who, .weightTake r 0⟩ ∈ (u.part x.p).pend ∧
        ⟨n + 1, 4, x.who, .event (.weightSetSwap x.c i)⟩ ∈ (u.part x.p).pend) ∧
    (∀ (ns : Num3) (b l : QEntry) (rest : List QEntry), (t.core x.c).getQueue 12 = b :: l :: rest →
      does (.mlwp f sa tk tkb ns) fun u i => let n := max (x.t + 256 + off tk i) (x.t + 255 + off tkb i)
        ∃ r : LoadRun, (u.core x.c).queues = ((t.core x.c).setQueue 12 rest).queues ∧ (sub u i).weightBusy = n + 1 ∧
        r.sa = i ∧ r.fmt = (sub t i).cfg.fmtB ∧ r.tkA = tk.val ∧ r.tkB = tkb.val ∧ (sub u i).swap = some (n + 1, r) ∧
        r.noise = some (((t.core x.c).getNs ns.val).key, (((t.core x.c).getNs ns.val).ctr >>> 80).setWidth 48,
          b.v.setWidth 64, l.v.setWidth 64) ∧
        ⟨x.t + 1 + off tk i, samplePlace, x.who, .weightTake r 0⟩ ∈ (u.part x.p).pend ∧
        ⟨x.t + 1 + off tkb i, samplePlace, x.who, .weightTake r devWord⟩ ∈ (u.part x.p).pend) ∧
    (∀ rows : BitVec 38, 1 ≤ rows.toNat → does (.mma f sa tk rows) fun u i => let cfg := (sub t i).cfg
      ∃ r : MmaRun, (sub u i).rowBusy =
          x.t + 1 + (rows.toNat - 1) * cfg.planes + (packetWords cfg.fmtA cfg.planes - 1) + off tk i + 1 ∧
        r.sa = i ∧ r.cfg = cfg ∧ r.set = (sub t i).active ∧ r.rows = rows.toNat ∧ r.tk = tk.val ∧ r.first = x.t + 1 + off tk i ∧
        ⟨x.t + 1 + off tk i, samplePlace, x.who, .mmaTake r 0 0 []⟩ ∈ (u.part x.p).pend) ∧
    (∀ (fmt : Fmt) (rm : Rm) (rows : BitVec 30), does (.mrd f sa tk fmt rm rows) fun u i =>
      ∃ r : DrainRun, (sub u i).drainBusy = x.t + 2 + rows.toNat ∧ r.sa = i ∧ r.fmt = fmt ∧ r.rm = rm ∧ r.rows = rows.toNat ∧
        r.tk = tk.val ∧ ⟨x.t + 1, samplePlace, x.who, .drainRow r 0⟩ ∈ (u.part x.p).pend)

/-- The start checks of MLW, MLWP, MMA and MRD over the sub-arrays a word names (10 R235, R236): a port of its kind that is busy on
one of them raises the schedule-miss trap with cause 1 and changes no core, a load not yet swapped being no conflict for a load;
where none is and one is not awake, each gated one starts its wake at the check, a strict partition stands still for every one that
is not awake, and a loose one raises cause 2; MRD wakes nothing. With all awake, a poisoned operand raises cause 0 in a loose
partition only. No other sub-array changes, and a word that none of this stops raises nothing. -/
def Obligations.MatrixStartChecks : Prop :=
  ∀ (s : State) (f : Frame) (p c : Nat) (sa : SaMask) (tk tkb : Num4) (ns : Num3) (rows : BitVec 38) (fmt : Fmt) (rm : Rm)
    (n : BitVec 30) (l : List Item), s.agenda = .check p c .m :: l → s.guardTrue p c f = true →
    let k := s.core c
    let t := (s.part p).tick
    let some_ := fun (g : SubArray → Prop) => ∃ i < 4, sa.getLsbD i = true ∧ g (k.getSa i)
    let asleep := (List.range 4).filter fun i => sa.getLsbD i && !(k.getSa i).awakeAt t
    let miss := fun (u : State) (cause : Nat) => (u.part p).conds = (s.part p).conds ++
      [⟨t, .scheduleMiss, (s.ctx p c .m).who, BitVec.ofNat 64 (sa.toNat + 16 * cause), .void c .m⟩] ∧
      (u.part p).waits = (s.part p).waits
    let quiet := fun (u : State) => (u.part p).conds = (s.part p).conds ∧ (u.part p).waits = (s.part p).waits
    let same := fun (u : State) => ∀ i, (u.core c).getSa i = k.getSa i
    let busy := fun (w : Instr) => ∃ u : State, exec w s = .next u ∧ miss u 1 ∧ u.cores = s.cores
    let wakes := fun (w : Instr) => asleep ≠ [] → ∃ u : State, exec w s = .next u ∧
      (∀ i < 4, sa.getLsbD i = true → (k.getSa i).power = .gated →
        ((u.core c).getSa i).power = .waking ∧ ((u.core c).getSa i).wakeAt = t + 48) ∧
      (∀ i < 4, sa.getLsbD i = false ∨ (k.getSa i).power ≠ .gated → (u.core c).getSa i = k.getSa i) ∧
      ((s.part p).loose = false → (u.part p).conds = (s.part p).conds ∧
        (u.part p).waits = (s.part p).waits ++ asleep.map fun i => .wake c i) ∧
      ((s.part p).loose = true → miss u 2)
    let starts := fun (w : Instr) (poison : Bool) => asleep = [] → ∃ u : State, exec w s = .next u ∧ same u ∧
      (((s.part p).loose && poison) = true → miss u 0) ∧ (((s.part p).loose && poison) = false → quiet u)
    ((Instr.mma f sa tk rows).entryLimits = true → let w := Instr.mma f sa tk rows
      (some_ (fun a => t < a.rowBusy) → busy w) ∧
      (¬ some_ (fun a => t < a.rowBusy) → wakes w ∧ starts w (k.mmaPoison sa rows.toNat))) ∧
    ((Instr.mlw f sa tk).entryLimits = true → let w := Instr.mlw f sa tk
      (some_ (fun a => t < a.weightBusy ∧ a.swap = none) → busy w) ∧
      (¬ some_ (fun a => t < a.weightBusy ∧ a.swap = none) → wakes w ∧ starts w false)) ∧
    (∀ (b m : QEntry) (rest : List QEntry), (Instr.mlwp f sa tk tkb ns).entryLimits = true → let w := Instr.mlwp f sa tk tkb ns
      (∀ i < 4, sa.getLsbD i = true → (k.getSa i).cfg.fmtB = .bf16 ∨ (k.getSa i).cfg.fmtB = .e4m3) →
      k.getQueue 12 = b :: m :: rest → b.landed = true → m.landed = true →
      (some_ (fun a => t < a.weightBusy ∧ a.swap = none) → busy w) ∧
      (¬ some_ (fun a => t < a.weightBusy ∧ a.swap = none) → wakes w ∧ starts w (b.p || m.p))) ∧
    ((Instr.mrd f sa tk fmt rm n).entryLimits = true → let w := Instr.mrd f sa tk fmt rm n
      (∀ i < 4, sa.getLsbD i = true → fmt = .fp32 ∨ fmt = .bf16 ∨
        if isIntPair (k.getSa i).cfg.fmtA then fmt = .int32 ∨ fmt = .int8 else fmt = .acc26) →
      (some_ (fun a => t < a.drainBusy) → busy w) ∧
      (¬ some_ (fun a => t < a.drainBusy) → ∃ u : State, exec w s = .next u ∧ quiet u ∧ u.cores = s.cores))

/-- The events of a sub-array (10 R229, R230, R236): the swap makes the loaded set active at its tick, an MLWP's with its noise,
or where a pass still uses the old set at the tick at which it ends; an awake sub-array with no busy port gates where its idle count
stands at or above a nonzero MGATE, or where the tick that an MSLEEP left has come; a wake that the partition waits for completes. That a
sub-array that wakes gates only once it is awake is the model's reading (log entry 36). -/
def Obligations.SubArrayEvents : Prop :=
  ∀ (s : State) (p c i : Nat), let t := s.popEvent
    t.partOf c = some p →
    let a := (t.core c).getSa i
    (∀ (r : LoadRun), a.swap = some ((t.part p).tick, r) → r.noise = none → a.rowBusy ≤ (t.part p).tick →
      ∃ u : State, exec (.weightSetSwap c i) s = .next u ∧
        (u.core c).getSa i = { a with active := a.back, back := a.active, swap := none } ∧ u.parts = t.parts) ∧
    (∀ (r : LoadRun) (key : BitVec 128) (hi : BitVec 48) (base len : Word), a.swap = some ((t.part p).tick, r) →
      r.noise = some (key, hi, base, len) → a.rowBusy ≤ (t.part p).tick → ∃ u : State, exec (.weightSetSwap c i) s = .next u ∧
        (u.core c).getSa i = { a with active := (perturbSet a.back key hi base len).1, back := a.active, swap := none } ∧
        u.parts = t.parts) ∧
    (∀ (r : LoadRun), a.swap = some ((t.part p).tick, r) → (t.part p).tick < a.rowBusy →
      ∃ u : State, exec (.weightSetSwap c i) s = .next u ∧ (u.core c).getSa i = { a with swap := some (a.rowBusy, r) } ∧
        ∃ w : Who, ⟨a.rowBusy, 4, w, .event (.weightSetSwap c i)⟩ ∈ (u.part p).pend) ∧
    (let now := (t.part p).tick
     let mgate := (t.core c).mgate.toNat
     let gates := a.power = .awake ∧ (a.weightBusy ≤ now ∧ a.rowBusy ≤ now ∧ a.drainBusy ≤ now) ∧
       ((mgate ≠ 0 ∧ mgate ≤ a.idle) ∨ ∃ u, a.sleepAt = some u ∧ u ≤ now)
     (gates → exec (.subarrayGate c i) s = .next (t.modCore c fun k => k.setSa i { a with power := .gated, sleepAt := none })) ∧
     (¬ gates → exec (.subarrayGate c i) s = .next t)) ∧
    ((t.part p).waits.contains (.wake c i) = true → a.power = .waking → ∃ u : State,
      exec (.subarrayWakeDone c i) s = .next u ∧ ((u.core c).getSa i).power = .awake ∧
      (u.part p).waits = (t.part p).waits.filter (· != .wake c i))

/-! ### Engines -/

/-- Stack and arithmetic words (12 R250): operands come off the top, results go on the top, and the engine moves on. Nothing
but the engine changes. -/
def Obligations.EngineStackWords : Prop :=
  ∀ (s : State) (c : Nat) (e : EngineId) (x : Ctx) (g : Engine), Executes s false c e x g →
    let goes := fun (i : Instr) (l : List Word) => exec i s = .next (moved s c e (engineAt g l (following g)))
    (∀ v : BitVec 12, goes (.lit v) (v.setWidth 64 :: g.stack) ∧ goes (.litn v) (v.signExtend 64 :: g.stack)) ∧
    (∀ n : Num3, goes (.param n) (tget 0 g.block n.val :: g.stack)) ∧
    (∀ (a : Word) (l : List Word), g.stack = a :: l → goes .dup (a :: a :: l) ∧ goes .drop l ∧
      (∀ v : BitVec 12, goes (.lith v) (((a <<< 12) ||| v.setWidth 64) :: l))) ∧
    (∀ (a b : Word) (l : List Word), g.stack = b :: a :: l → goes .swap (a :: b :: l) ∧ goes .over (a :: b :: a :: l) ∧
      goes .engAdd ((a + b) :: l) ∧ goes .engSub ((a - b) :: l) ∧ goes .engMul ((a * b) :: l) ∧
      goes .engAnd ((a &&& b) :: l) ∧ goes .engOr ((a ||| b) :: l) ∧ goes .engXor ((a ^^^ b) :: l) ∧
      goes .engShl ((a <<< (b.toNat % 64)) :: l) ∧ goes .engShr ((a >>> (b.toNat % 64)) :: l)) ∧
    (∀ (a b d : Word) (l : List Word), g.stack = d :: b :: a :: l → goes .rot (a :: d :: b :: l))

/-- Control words of a microprogram (12 R248 to R251): JMP, JZ, REPW, CHAIN, RESULT and END. -/
def Obligations.EngineControlWords : Prop :=
  ∀ (s : State) (c : Nat) (e : EngineId) (x : Ctx) (g : Engine), Executes s false c e x g →
    let becomes := fun (i : Instr) (h : Engine) => exec i s = .next (moved s c e h)
    (∀ i : BitVec 12, becomes (.jmp i) (engineAt g g.stack i.toNat)) ∧
    (∀ (o : BitVec 12) (a : Word) (l : List Word), g.stack = a :: l →
      becomes (.jz o) (engineAt g l (if a = 0 then (g.pc + o.toInt).toNat else following g))) ∧
    (∀ (a : Word) (l : List Word), g.stack = a :: l → becomes .repw { engineAt g l (if a = 0 then g.pc + 2 else following g) with
      rep := if a = 0 then none else some a.toNat }) ∧
    (∀ i : BitVec 12, becomes (.chain i) { engineAt g g.stack (following g) with chain := some i.toNat }) ∧
    (∀ (a : Word) (l : List Word), g.stack = a :: l → becomes .result { engineAt g l (following g) with
      results := g.results ++ [⟨a, false, max (x.t + 1) (g.lastLand + 1), g.untimed, g.prog, x.t⟩] }) ∧
    becomes .endE { engineAt g [] 0 with running := false, rep := none
                                         endAt := g.chain.map fun _ => max (x.t + 1) (g.lastLand + 1) }

/-- The checks of an engine word (12 R249, R250): too few operands, or a result that would not fit in eight entries, raise the
parameter-stack trap with causes 2 and 1, and the microprogram is abandoned when ticks resume. A launch word is checked where its
datapath is free. The words that are not named take no operand and push nothing. -/
def Obligations.EngineStackLimits : Prop :=
  ∀ (s : State) (p c : Nat) (e : EngineId) (l : List Item) (g : Engine), s.agenda = .checkEngine p c e :: l →
    (s.core c).getEng (engNum e) = g → g.running = true →
    let traps := fun (i : Instr) (cause : Nat) => exec i s = .next (raised s.popItem p ⟨(s.part p).tick, .parameterStack,
      (s.engCtx p c e).who, engStatus g.stack.length (engNum e) g.pc + BitVec.ofNat 64 (cause * 2 ^ 32),
      .abandon c (engNum e) g.prog⟩)
    (g.stack = [] → traps .dup 2 ∧ traps .drop 2 ∧ traps .result 2 ∧ traps .repw 2 ∧
      (∀ v : BitVec 12, traps (.lith v) 2 ∧ traps (.jz v) 2) ∧ (g.busy ≤ (s.part p).tick →
        (∀ n : Num3, traps (.tload n) 2 ∧ traps (.nestCount n) 2) ∧ ∀ a b : Num4, traps (.send a b) 2)) ∧
    (g.stack.length < 2 → ∀ i ∈ [Instr.swap, .over, .engAdd, .engSub, .engMul, .engAnd, .engOr, .engXor, .engShl, .engShr],
      traps i 2) ∧
    (g.stack.length < 3 → traps .rot 2) ∧
    (g.busy ≤ (s.part p).tick → ∀ (a b : Num4) (n : Num3) (op : CombOp),
      (g.stack.length < 4 → ∀ i ∈ [Instr.nestSrc n, .nestDst n, .copy a b, .plane a b, .trun a b], traps i 2) ∧
      (g.stack.length < 5 → traps (.fill a) 2 ∧ traps (.comb op a) 2)) ∧
    (g.stack.length = 8 → traps .dup 1 ∧ traps .over 1 ∧ (∀ v : BitVec 12, traps (.lit v) 1 ∧ traps (.litn v) 1) ∧
      ∀ n : Num3, traps (.param n) 1)

/-- The work that a copy, plane or fill launch of the extents `ext` leaves in flight (12 R256, R258 to R261). B is the slower
side's bytes per tick; write m of the launch, of copy k, has the slot s = t + 4 (k + 1) + ⌈64 (m + 1) / B⌉. A beat reads at
s + ⌊L_src/2⌋ and writes at s + L_src + ⌊L_dst/2⌋; a fill reads nothing. The datapath is busy until the last slot, or until
t + 4 I where there is no beat. Which beats a launch has, above all those of PLANE, is `State.rawBeats`, with the model's choices of
log entry 45. -/
def Sys2Proof.Claims.copies (s u : State) (x : Ctx) (kind : CopyKind) (a b : Side) (ext : List Nat) (v : Word) : Prop :=
  let raw := s.rawBeats x.c kind a b ext
  let un := (kind != .fill && s.untimedSide a.l) || s.untimedSide b.l
  let bw := if kind = .fill then s.sideBytes x.c b.l else min (s.sideBytes x.c a.l) (s.sideBytes x.c b.l)
  let ls := if kind = .fill then 0 else s.sideLatency x.p x.c a.l
  let ld := s.sideLatency x.p x.c b.l
  let slot := fun (k m : Nat) => x.t + 4 * (k + 1) + (64 * (m + 1) + bw - 1) / bw
  let writes := fun (l : List RawBeat) => (l.map fun z => z.outs.length).sum
  let busy := ((u.core x.c).getEng 0).busy
  (raw = [] → busy = x.t + 4 * (s.core x.c).iterationCount + 1) ∧
  (∀ l z, raw = l ++ [z] → busy = slot z.k (writes raw - 1) + 1) ∧
  (∀ l z r, raw = l ++ z :: r →
    let m := writes l
    let read := slot z.k m + ls / 2
    let out := fun (o : BeatOut) (j : Nat) (p : List Placed) => o.spots = p.map (·.spot) ∧ o.bits = z.obits ∧
      o.land = max (slot z.k (m + j) + ls + ld / 2) (read + 1)
    (kind ≠ .fill → ∃ beat : Beat, beat.src = z.src.map (·.spot) ∧ beat.bits = z.bits ∧ beat.outs.length = z.outs.length ∧
      (∀ j o p, beat.outs[j]? = some o → z.outs[j]? = some p → out o j p) ∧
      ⟨read, samplePlace, x.who, .beatSample beat⟩ ∈ (u.part x.p).pend) ∧
    (kind = .fill → ∀ j p, z.outs[j]? = some p → ∃ (beat : Beat) (o : BeatOut), out o j p ∧
      ⟨o.land, if un then 9 else 5, x.who, .beatLand beat o (p.map fun _ => v) false⟩ ∈ (u.part x.p).pend))

/-- Launch words (12 R256 to R268): each waits for its datapath, takes its operands and hands the work to the engine. The loop
nest is written at once; a copy, plane or fill launch leaves every beat in flight at its slot; a table load, a table run and an
exchange leave their first reads in flight and keep their engine busy. No launch touches data at its launch tick. -/
def Obligations.EngineLaunchWords : Prop :=
  (∀ (s : State) (c : Nat) (e : EngineId) (x : Ctx) (g : Engine), Executes s true c e x g →
     let k := s.core c
     let runs := fun (i : Instr) (l : List Word) (r : State → Prop) => ∃ u : State, exec i s = .next u ∧ r u ∧
       sameData s u ∧ ((u.core c).getEng (engNum e)).stack = l ∧ ((u.core c).getEng (engNum e)).pc = following g
     (∀ (n : Num3) (a : Word) (l : List Word), g.stack = a :: l → runs (.nestCount n) l fun u =>
       (u.core c).nest = tset NestLevel.cleared k.nest n.val { k.level n.val with count := a.toNat }) ∧
     (∀ (n : Num3) (a0 a1 a2 a3 : Word) (l : List Word), g.stack = a0 :: a1 :: a2 :: a3 :: l →
       let v := [a0.toInt, a1.toInt, a2.toInt, a3.toInt]
       runs (.nestSrc n) l (fun u => (u.core c).nest = tset NestLevel.cleared k.nest n.val { k.level n.val with src := v }) ∧
       runs (.nestDst n) l (fun u => (u.core c).nest = tset NestLevel.cleared k.nest n.val { k.level n.val with dst := v })) ∧
     runs .nestClear g.stack (fun u => (u.core c).nest = []) ∧
     (∀ (td : Num3) (a : Word) (l : List Word), g.stack = a :: l → runs (.tload td) l fun u =>
       let lat := if (s.part x.p).loose then 10 else 14
       ((u.core c).getEng (engNum e)).busy = x.t + lat + 1 ∧
       ⟨x.t + lat / 2, samplePlace, x.who, .tload td.val a.toNat 0 0 0 g.prog ((s.part x.p).seq + 1) g.gate⟩ ∈ (u.part x.p).pend) ∧
     (∀ (rows st : Num4) (a : Word) (l : List Word), g.stack = a :: l → engNum e = 2 → runs (.send rows st) l fun u =>
       ((u.core c).getEng (engNum e)).busy = x.t + pathLatency (s.part x.p).loose c (k.stream st.val).2 / 2 + (rows.val + 1) + 1 ∧
       ∃ r : FxRun, r.total = rows.val + 1 ∧ r.dest = a ∧ r.comb = none ∧
         r.rows = (s.sideRows c (k.side st.val) (rows.val + 1)).map (fun w => (w.loc, w.mask)) ∧
         ⟨x.t + pathLatency (s.part x.p).loose c (k.stream st.val).2 / 2, samplePlace, x.who, .fxRow r [] false⟩
           ∈ (u.part x.p).pend) ∧
     (∀ (op : CombOp) (st : Num4) (dst tag n idx rows : Word) (l : List Word), g.stack = dst :: tag :: n :: idx :: rows :: l →
       engNum e = 2 → runs (.comb op st) l fun u =>
       ((u.core c).getEng (engNum e)).busy = x.t + pathLatency (s.part x.p).loose c (k.stream st.val).2 / 2 + rows.toNat + 1 ∧
       ∃ r : FxRun, r.total = rows.toNat ∧ r.dest = dst ∧ r.comb = some ⟨op, tag.toNat, n.toNat, idx.toNat⟩ ∧
         r.rows = (s.sideRows c (k.side st.val) rows.toNat).map (fun w => (w.loc, w.mask)) ∧
         ⟨x.t + pathLatency (s.part x.p).loose c (k.stream st.val).2 / 2, samplePlace, x.who, .fxRow r [] false⟩
           ∈ (u.part x.p).pend)) ∧
  (∀ (s : State) (c : Nat) (e : EngineId) (x : Ctx) (g : Engine), Executes s true c e x g →
     let runs := fun (i : Instr) (l : List Word) (r : State → Prop) => ∃ u : State, exec i s = .next u ∧ r u ∧
       sameData s u ∧ ((u.core c).getEng (engNum e)).stack = l ∧ ((u.core c).getEng (engNum e)).pc = following g
     let k := s.core c
     (∀ (a b : Num4) (a0 a1 a2 a3 : Word) (l : List Word), g.stack = a0 :: a1 :: a2 :: a3 :: l → engNum e = 0 →
       let ext := [a0.toNat, a1.toNat, a2.toNat, a3.toNat]
       runs (.copy a b) l (fun u => copies s u x .copy (k.side a.val) (k.side b.val) ext 0) ∧
       runs (.plane a b) l (fun u => copies s u x .plane (k.side a.val) (k.side b.val) ext 0)) ∧
     (∀ (b : Num4) (a0 a1 a2 a3 v : Word) (l : List Word), g.stack = a0 :: a1 :: a2 :: a3 :: v :: l → engNum e = 0 →
       runs (.fill b) l (fun u =>
         copies s u x .fill (k.side b.val) (k.side b.val) [a0.toNat, a1.toNat, a2.toNat, a3.toNat] v)) ∧
     (∀ (tki tko : Num4) (n dst src td : Word) (l : List Word), g.stack = n :: dst :: src :: td :: l → engNum e = 1 →
       runs (.trun tki tko) l fun u => ∀ m < n.toNat, ∃ (i o : RowAccess) (r : TrunRow),
         (s.sideRows c (k.side src.toNat) n.toNat)[m]? = some i ∧ (s.sideRows c (k.side dst.toNat) n.toNat)[m]? = some o ∧
         let takes := x.t + 3 + m + transit (2 * i.bank) 7 tki.val
         let puts := takes + 6 + transit 7 (2 * o.bank) tko.val
         r.td = tget 0 k.tds td.toNat ∧ r.src = i.own ∧ r.mask = i.mask ∧ r.stop = 2 * i.bank ∧ r.tki = tki.val ∧
         r.tko = tko.val ∧ r.land = puts + 1 ∧
         ⟨x.t + 1 + m, samplePlace, x.who, .trunRead r⟩ ∈ (u.part x.p).pend ∧
         ⟨takes, samplePlace, x.who, .trunTake r⟩ ∈ (u.part x.p).pend ∧
         ⟨puts, samplePlace, x.who, .bankTake tko.val (2 * o.bank) (ringOff o.own) o.mask⟩ ∈ (u.part x.p).pend ∧
         takes + 7 ≤ ((u.core c).getEng (engNum e)).busy))

/-- An engine that starts a microprogram at `pc` (12 R248). -/
def Sys2Proof.Claims.started (g : Engine) (pc : Nat) : Engine :=
  { g with pc := pc, stack := [], running := true, rep := none, endAt := none, lastLand := 0, untimed := [], prog := g.prog + 1 }

/-- The events of an engine (12 R248, R251, R257): an idle engine starts its oldest landed command with an empty stack, the
command's parameters and chain, and the tick of the stores it releases (log entry 83); a chained microprogram starts at the completion
tick; a microprogram of the copy engine begins with the loop nest as cleared; the oldest result that nothing holds back lands at its
tick, and one that an EPOP waits for ends that wait (R255). -/
def Obligations.EngineEvents : Prop :=
  ∀ (s : State) (p c : Nat) (e : EngineId), let t := s.popEvent
    t.partOf c = some p →
    let g := (t.core c).getEng (engNum e)
    let now := (t.part p).tick
    (∀ (cmd : EngCmd) (l : List EngCmd), g.cmds = cmd :: l → g.running = false → g.endAt = none → cmd.land ≤ now →
      ∃ u : State, exec (.engineCommandStart c e) s = .next u ∧ u.parts = t.parts ∧
        (u.core c).nest = (if engNum e = 0 then [] else (t.core c).nest) ∧ (u.core c).getEng (engNum e) =
          started { g with cmds := l, block := blockOf cmd.params, chain := cmd.chain, gate := cmd.gate } cmd.entry) ∧
    (∀ (i due : Nat), g.chain = some i → g.running = false → g.endAt = some due → due ≤ now →
      ∃ u : State, exec (.engineChainStart c e) s = .next u ∧ u.parts = t.parts ∧
        (u.core c).nest = (if engNum e = 0 then [] else (t.core c).nest) ∧ (u.core c).getEng (engNum e) = started { g with chain := none } i) ∧
    let awaited := (t.part p).waits.contains (.epop c (engNum e) true)
    (awaited = true → exec (.resultEntryLand c e) s = .next (t.modPart p fun k =>
      { k with waits := k.waits.filter (· != .epop c (engNum e) true), served := k.served ++ [.epop c (engNum e) true] })) ∧
    (∀ (l : List ResEntry) (r : ResEntry) (rest : List ResEntry), awaited = false → g.results = l ++ r :: rest →
      (∀ q ∈ l, q.landed = true) → r.landed = false → r.wait = [] → (engNum e = 0 → t.lateBeat p c r = false) → r.due ≤ now →
      ∃ u : State, exec (.resultEntryLand c e) s = .next u ∧ u.parts = t.parts ∧
        (u.core c).getEng (engNum e) = { g with results := l ++ { r with landed := true } :: rest })

/-! ### Portable code -/

/-- The integer instructions (21 R381): f of the two operands, the immediate sign-extended, in xd one tick later, or 18 ticks
later for multiplication and division; the low-word forms sign-extend 32 bits. No division traps. The landing ticks are the
model's choice (21 R395 gives no rule; log entry 34). -/
def Obligations.PortableIntegerWords : Prop :=
  ∀ (s t : State) (x : Ctx) (d a : XReg), Runs32 s .s x t →
    let lands := fun (n : Nat) (w : Word) (p : Bool) => retires x (t.later x (x.t + n) (.x d.val ⟨w, p⟩)) (.on n)
    let u := (xr t x a).v
    let pu := (xr t x a).p
    let low := fun (w : BitVec 32) => w.signExtend 64
    let op := fun (o : RvOp) (g : Word → Word) (h : Word → Word → Word) =>
      (∀ b : XReg, exec (.rvIntegerOp o d a (.reg b)) s = lands 1 (h u (xr t x b).v) (pu || (xr t x b).p)) ∧
      (∀ v : BitVec 12, exec (.rvIntegerOp o d a (.imm v)) s = lands 1 (h u (g (v.signExtend 64))) (pu || false))
    let wop := fun (o : RvWordOp) (h : BitVec 32 → Word → BitVec 32) =>
      (∀ b : XReg, exec (.rvWordOp o d a (.reg b)) s = lands 1 (low (h (u.setWidth 32) (xr t x b).v)) (pu || (xr t x b).p)) ∧
      (∀ v : BitVec 12, exec (.rvWordOp o d a (.imm v)) s = lands 1 (low (h (u.setWidth 32) (v.signExtend 64))) (pu || false))
    op .add id (fun u v => u + v) ∧ op .sub id (fun u v => u - v) ∧ op .sll id (fun u v => u <<< (v.toNat % 64)) ∧
    op .slt id (fun u v => if u.toInt < v.toInt then 1 else 0) ∧ op .sltu id (fun u v => if u.toNat < v.toNat then 1 else 0) ∧
    op .xor id (fun u v => u ^^^ v) ∧ op .srl id (fun u v => u >>> (v.toNat % 64)) ∧
    op .sra id (fun u v => u.sshiftRight (v.toNat % 64)) ∧ op .or id (fun u v => u ||| v) ∧ op .and id (fun u v => u &&& v) ∧
    wop .addw (fun u v => u + v.setWidth 32) ∧ wop .subw (fun u v => u - v.setWidth 32) ∧
    wop .sllw (fun u v => u <<< (v.toNat % 32)) ∧ wop .srlw (fun u v => u >>> (v.toNat % 32)) ∧
    wop .sraw (fun u v => u.sshiftRight (v.toNat % 32)) ∧
    (∀ b : XReg,
      let v := (xr t x b).v
      let m := fun (o : RvMulOp) (w : Word) => exec (.rvMuldiv o d a b) s = lands 18 w (pu || (xr t x b).p)
      m .mul (BitVec.ofNat 64 (u.toNat * v.toNat)) ∧ m .mulh (BitVec.ofInt 64 (u.toInt * v.toInt / 2 ^ 64)) ∧
      m .mulhsu (BitVec.ofInt 64 (u.toInt * (v.toNat : Int) / 2 ^ 64)) ∧ m .mulhu (BitVec.ofNat 64 (u.toNat * v.toNat / 2 ^ 64)) ∧
      m .mulw (low ((u * v).setWidth 32)) ∧
      (v = 0 → m .div (-1) ∧ m .divu (-1) ∧ m .rem u ∧ m .remu u) ∧
      (v ≠ 0 → m .div (BitVec.ofInt 64 (Int.tdiv u.toInt v.toInt)) ∧ m .rem (BitVec.ofInt 64 (Int.tmod u.toInt v.toInt)) ∧
        m .divu (BitVec.ofNat 64 (u.toNat / v.toNat)) ∧ m .remu (BitVec.ofNat 64 (u.toNat % v.toNat))) ∧
      (v.setWidth 32 = (0 : BitVec 32) → m .divw (-1) ∧ m .divuw (-1) ∧ m .remw (low (u.setWidth 32)) ∧
        m .remuw (low (u.setWidth 32))) ∧
      (v.setWidth 32 ≠ (0 : BitVec 32) →
        m .divw (low (BitVec.ofInt 32 (Int.tdiv (u.setWidth 32).toInt (v.setWidth 32).toInt))) ∧
        m .remw (low (BitVec.ofInt 32 (Int.tmod (u.setWidth 32).toInt (v.setWidth 32).toInt))) ∧
        m .divuw (low (u.setWidth 32 / v.setWidth 32)) ∧ m .remuw (low (u.setWidth 32 % v.setWidth 32)))) ∧
    (∀ v : BitVec 20, exec (.lui d v) s = lands 1 (low (v ++ (0 : BitVec 12))) false ∧
      exec (.auipc d v) s = lands 1 (t.threadVa x.p 0 + low (v ++ (0 : BitVec 12))) false)

/-- Branches, jumps, counters, fences and software traps of portable code (21 R380 to R384): each core says where it would go,
the link value and the counters land at t + 1, which is the model's choice (log entry 34), ECALL and EBREAK raise the software trap
with 0xEC and 0xEB. At the switch tick t + Δ the votes of all cores decide: a branch that no core takes falls through, one that every core
takes goes to its target, and any other raises the decision miss with the number of cores that take it, and is made again; an indirect
JALR enters the address-taken function at its address, or raises the decision miss. A region's view of WALL differs from another's by at
most 2 ns (06 R139, R150); that it lies within 2 ns of the module's WALL is the model's own bound on a free value (DESIGN CHOICE, log
entry 1). -/
def Obligations.PortableControlWords : Prop :=
  (∀ (s t : State) (x : Ctx) (d a b : XReg) (o : BitVec 12), Runs32 s .s x t →
    let u := (xr t x a).v
    let v := (xr t x b).v
    let br := fun (c : RvCond) (k : Bool) => exec (.rvBranch c a b o) s =
      retires x t (.branch k (((t.thread x.p).off : Int) + 2 * o.toInt).toNat)
    let reads := fun (i : Instr) (u : State) (w : Word) => exec i s =
      retires x (u.later x (x.t + 1) (.x d.val ⟨w, false⟩)) (.on 1)
    br .beq (u == v) ∧ br .bne (u != v) ∧ br .blt (decide (u.toInt < v.toInt)) ∧ br .bge (decide (v.toInt ≤ u.toInt)) ∧
    br .bltu (decide (u.toNat < v.toNat)) ∧ br .bgeu (decide (v.toNat ≤ u.toNat)) ∧
    (∀ o20 : BitVec 20, exec (.jal d o20) s =
      retires x (t.later x (x.t + 1) (.x d.val ⟨t.threadVa x.p 4, false⟩))
        (match t.jalKind x.p d (((t.thread x.p).off : Int) + 2 * o20.toInt) with
          | .call g => .call g | .hop n => .jump n | .none => .on 1)) ∧
    (¬ (d.val = 0 ∧ a.val = 1 ∧ o = 0) → exec (.jalr d a o) s =
      retires x (t.later x (x.t + 1) (.x d.val ⟨t.threadVa x.p 4, false⟩))
        (.indirect ((u + o.signExtend 64) &&& ~~~(1 : Word)) (d.val == 1))) ∧
    exec (.jalr 0 1 0) s = retires x t .back ∧
    exec .ecall s = retires x (t.addCond x.p ⟨x.t + 1, .softwareTrap, x.who, 0xEC, .continue_⟩) (.on 1) ∧
    exec .ebreak s = retires x (t.addCond x.p ⟨x.t + 1, .softwareTrap, x.who, 0xEB, .continue_⟩) (.on 1) ∧
    (reads (.csrrs d .cycle) t (BitVec.ofNat 64 x.t) ∧ reads (.csrrsi d .cycle) t (BitVec.ofNat 64 x.t) ∧
      reads (.csrrs d .instret) t (BitVec.ofNat 64 (t.core x.c).instret) ∧
      reads (.csrrsi d .instret) t (BitVec.ofNat 64 (t.core x.c).instret) ∧
      ∃ v : Int, (t.wall : Int) - 2 ≤ v ∧ v ≤ t.wall + 2 ∧
        reads (.csrrs d .time) t (BitVec.ofInt 64 v) ∧ reads (.csrrsi d .time) t (BitVec.ofInt 64 v))) ∧
  (∀ (s t : State) (x : Ctx) (d a : XReg) (fm pr su : BitVec 4), Runs32 s .a x t →
    let set := fun (b : BitVec 5) => ∀ i < 5, b.getLsbD i =
      (i == 4 && pr.getLsbD 1 && su.getLsbD 1 || i == 3 && pr.getLsbD 1 && su.getLsbD 0 ||
        i == 2 && pr.getLsbD 0 && su.getLsbD 1 || i == 1 && pr.getLsbD 0 && su.getLsbD 0)
    (∀ b, set b → exec (.rvFence fm pr su d a) s = retires x (if b = 0 then t else t.fence x b .pd) (.on 1)) ∧
    exec (.fenceTso d a) s = retires x (t.fence x 0x1E .pd) (.on 1)) ∧
  (∀ (s : State) (p c : Nat) (n : Next) (th : Thread), (s.part p).thread = some th →
    (s.portVote p c n).part p = { s.part p with thread := some { th with votes := th.votes ++ [(c, n)] } }) ∧
  (∀ (s : State) (p : Nat) (l : List Item) (th : Thread), s.agenda = .portableEnd p :: l → (s.part p).thread = some th →
    let t := s.popItem
    let k := s.part p
    let who := (t.portCtx p k.base .s).who
    let on := fun (u : State) (off : Nat) => u.modPart p fun q =>
      { q with thread := some { th with off := off, votes := [], issue := none, ready := k.tick } }
    let done := t.modCores k.cores fun x => { x with instret := x.instret + 1, kvSums := [] }
    let misses := fun (u : State) (w : Word) => step s = .next (u.addCond p ⟨k.tick, .decisionMiss, who, w, .continue_⟩)
    (∀ c n r, th.issue = none → th.votes = (c, n) :: r → (∀ m, n ≠ .on m) → (n = .back → th.launch = false) →
      step s = .next (t.modPart p fun q => { q with thread := some { th with issue := some k.tick } })) ∧
    (∀ i : Nat, th.issue = some i → k.tick = i + delta k.n →
      (∀ (target : Nat) (v : Nat × Next) (r : List (Nat × Next)), th.votes = v :: r →
        (∀ w ∈ th.votes, ∃ b : Bool, w.2 = .branch b target) →
        let takes := (th.votes.filter fun w => w.2 == .branch true target).length
        (takes = 0 → step s = .next (on done (th.off + 4))) ∧
        (takes = th.votes.length → step s = .next (on done target)) ∧
        (0 < takes → takes < th.votes.length → misses (on t th.off) (BitVec.ofNat 64 takes))) ∧
      (∀ (va : Word) (push : Bool) (c : Nat) (r : List (Nat × Next)) (o : Loaded), th.votes = (c, .indirect va push) :: r →
        t.loadedOf p = some o →
        let at_ := fun (j : Nat) => ∃ f, o.obj.functions[j]? = some f ∧ f.taken = true ∧ o.entryVa j = va
        ((∀ j, ¬ at_ j) → misses (on done (th.off + 4)) va) ∧
        (∀ fn, at_ fn → (∀ j < fn, ¬ at_ j) → t.untranslated p fn = false → (push = true → k.rets.length < 16) →
          step s = .next ((done.useFn p fn).modPart p fun q => { q with
            rets := if push then .portable th.fn (th.off + 4) th.launch :: k.rets else k.rets
            thread := some ⟨fn, 0, false, [], none, k.tick⟩ })))))

/-- Scalar loads and stores of portable code (21 R383, R385): a misaligned address or one past the end of GLOBAL (07 R156, R160), and
a poisoned value to store (05 R116), raise their trap at the check; otherwise the load reads and the store writes their bytes ⌊L/2⌋
ticks after the tick `e` they are timed from (07 R188, R189), L being the latency of a stack of the other side of the package; that latency and these ticks are the model's choice (log entry 34). -/
def Obligations.PortableAccessWords : Prop :=
  ∀ (a b d : XReg) (o : BitVec 12) (o1 : RvLoadOp) (n : Nat) (sg : Bool) (o2 : RvStoreOp) (m : Nat),
    (o1, n, sg) ∈ [(RvLoadOp.lb, 1, true), (.lh, 2, true), (.lw, 4, true), (.ld, 8, true), (.lbu, 1, false), (.lhu, 2, false),
      (.lwu, 4, false)] →
    (o2, m) ∈ [(RvStoreOp.sb, 1), (.sh, 2), (.sw, 4), (.sd, 8)] →
    (∀ (s : State) (p c : Nat) (l : List Item), s.agenda = .checkPortable p c :: l →
      let w := (s.portCtx p c .a).who
      let va := ((s.core c).getX a.val).v + o.signExtend 64
      let trap := fun (k : Cls) (v : Word) => Host.Outcome.next (raised s.popItem p ⟨(s.part p).tick, k, w, v, .void c .s⟩)
      let passes := fun (i : Instr) => ∃ u : State, exec i s = .next u ∧ (u.part p).conds = (s.part p).conds ∧
        (u.part p).waits = (s.part p).waits ∧ u.cores = s.cores
      (va.toNat % n ≠ 0 → exec (.rvLoad o1 d a o) s = (trap .layoutBound va : Out)) ∧
      (((s.core c).getX b.val).p = true → exec (.rvStore o2 a b o) s = (trap .poisonStore w.word : Out)) ∧
      (((s.core c).getX b.val).p = false → va.toNat % m ≠ 0 → exec (.rvStore o2 a b o) s = (trap .layoutBound va : Out)) ∧
      (va.toNat % n = 0 → 2 ^ 52 < va.toNat + n →
        exec (.rvLoad o1 d a o) s = (trap .layoutBound (boundPlace 1 0xF 2 va.toNat) : Out)) ∧
      (((s.core c).getX b.val).p = false → va.toNat % m = 0 → 2 ^ 52 < va.toNat + m →
        exec (.rvStore o2 a b o) s = (trap .layoutBound (boundPlace 1 0xF 2 va.toNat) : Out)) ∧
      (va.toNat % n = 0 → va.toNat + n ≤ 2 ^ 52 → passes (.rvLoad o1 d a o)) ∧
      (((s.core c).getX b.val).p = false → va.toNat % m = 0 → va.toNat + m ≤ 2 ^ 52 →
        passes (.rvStore o2 a b o))) ∧
    (∀ (s t : State) (x : Ctx), Runs32 s .a x t →
      let va := ((xr t x a).v + o.signExtend 64).toNat
      let lat := farLatency (t.part x.p).loose
      (∃ (u : State) (e i : Nat), exec (.rvLoad o1 d a o) s = .next u ∧ sameData t u ∧
        e = timedFrom t x (lat / 2) .rlx .co true false ∧
        ⟨e + lat / 2, samplePlace, x.who, .loadX ⟨.global va, 0xF, i, false, e + lat, [], false⟩ d.val n sg⟩ ∈ (u.part x.p).pend) ∧
      (∃ (u : State) (e i : Nat), exec (.rvStore o2 a b o) s = .next u ∧ sameData t u ∧
        e = timedFrom t x (lat / 2) .rlx .co false true ∧
        ⟨e + lat / 2, 2, x.who, .storeEls ⟨.global va, 0xF, i, false, e + lat / 2, [], false⟩ [some (.global va)]
          ((xr t x b).v.setWidth 512) (8 * m)⟩ ∈ (u.part x.p).pend))

/-- The active elements of a portable vector result, `n` ticks later: the low elements up to vl. -/
def Sys2Proof.Claims.landsLow (o : Out) (t : State) (x : Ctx) (n : Nat) (d : VReg) (f : Fmt) (p : Bool) (g : Nat → Nat) : Prop :=
  ∃ val mask : Row, o = retires x (t.later x (x.t + n) (.v d.val val mask p)) (.on n) ∧
    ∀ i < f.lanes, elemOf f.bits val i = g i % 2 ^ f.bits ∧
      elemOf f.bits mask i = if i < min (t.core x.c).vl f.lanes then 2 ^ f.bits - 1 else 0

/-- KV1 (21 R387): each instruction is the element operation of 04 and 08 on the elements below vl, with the latency of its
native word, which is the model's choice (21 R395 gives no rule; log entry 34). That the elements that KV.CVT has no source for
become 0 is log entry 22. A float KV.ADD whose sources stand for a KV.MUL or KV.ADD may be regrouped where the object is not exact (21
R396, log entry 74): its value is stated where they do not, and elsewhere that it completes. A KV.MUL that may be contracted with its
only use is remembered as a product, and like a KV.ADD that a later one takes into its chain it raises no flag of its own. The flags
are else those of the elements below vl. -/
def Obligations.PortableVectorWords : Prop :=
  ∀ (s t : State) (x : Ctx) (pt : Pt) (d a b : VReg) (rm : Fin 4), Runs32 s .v x t →
    let f := Pt.fmt pt
    let u := fun (r : VReg) (i : Nat) => elemOf f.bits (vr t x r).v i
    let p := (vr t x a).p || (vr t x b).p
    let m := rmOf rm
    let flAt := fun (t : State) (i : Instr) (n : Nat) (p : Bool) (g : Nat → Nat) =>
      ∃ e : Flags, landsLow (exec i s) (t.laterFlags x (x.t + n) e p) x n d f p g
    let raises := fun (t : State) (i : Instr) (n : Nat) (p : Bool) (g : Nat → Nat × Flags) =>
      ∃ e : Flags, landsLow (exec i s) (t.laterFlags x (x.t + n) e p) x n d f p (fun i => (g i).1) ∧
        ∀ j < 5, e.getLsbD j = (List.range (min (t.core x.c).vl f.lanes)).any fun i => (g i).2.getLsbD j
    let quiet := fun (b : Bool) (r : Nat × Flags) => if b then (r.1, 0) else r
    let fl := flAt t
    (Pt.isFloat pt = true → ∃ terms : List KvTerm,
      (∃ g, flAt (t.noteSum x f m d a b terms) (.kvAdd pt rm d a b) 4 p g) ∧
      (t.mayRegroup x.p = false ∨ (∀ e ∈ (t.core x.c).kvSums, e.reg ≠ a.val ∧ e.reg ≠ b.val) →
        raises (t.noteSum x f m d a b terms) (.kvAdd pt rm d a b) 4 p (fun i =>
          quiet (t.kvContracts x.p pt (some rm) d) (fAdd f m 0 (u a i) (u b i))))) ∧
    (Pt.isFloat pt = true → raises t (.kvSub pt rm d a b) 4 p (fun i => fSub f m 0 (u a i) (u b i)) ∧
      raises (t.noteSum x f m d a b (if t.kvContracts x.p pt none d then [.prod m (vr t x a).v (vr t x b).v] else []))
        (.kvMul pt rm d a b) 4 p
        (fun i => quiet (t.kvContracts x.p pt none d) (fMul f m 0 (u a i) (u b i))) ∧
      fl (.kvMin pt d a b) 2 p (fun i => fMin f (u a i) (u b i)) ∧ fl (.kvMax pt d a b) 2 p (fun i => fMax f (u a i) (u b i))) ∧
    (Pt.isFloat pt = false → fl (.kvAdd pt rm d a b) 2 p (fun i => u a i + u b i) ∧
      fl (.kvSub pt rm d a b) 2 p (fun i => (((u a i : Int) - u b i) % 2 ^ f.bits).toNat) ∧
      fl (.kvMul pt rm d a b) 2 p (fun i => u a i * u b i) ∧
      fl (.kvMin pt d a b) 2 p (fun i => (min (laneInt f (u a i)) (laneInt f (u b i)) % 2 ^ f.bits).toNat) ∧
      fl (.kvMax pt d a b) 2 p (fun i => (max (laneInt f (u a i)) (laneInt f (u b i)) % 2 ^ f.bits).toNat)) ∧
    raises t (.kvFma pt rm d a b) 5 (p || (vr t x d).p) (fun i => fMa f m 0 (u a i) (u b i) (u d i)) ∧
    fl (.kvSel pt d a b) 3 (p || (vr t x d).p) (fun i => if u d i ≠ 0 then u a i else u b i) ∧
    (∀ c : Cond, fl (.kvCmp pt c d a b) 2 p (fun i => if (if Pt.isFloat pt then (fCmp f c (u a i) (u b i)).1
      else iCmp c (laneInt f (u a i)) (laneInt f (u b i))) then 2 ^ f.bits - 1 else 0)) ∧
    (∀ r : XReg, fl (.kvBcst pt d r) 3 (xr t x r).p (fun _ => (xr t x r).v.toNat)) ∧
    (∀ (un : Bool) (r : XReg), fl (.kvRng pt un d r) 6 (xr t x r).p (fun i =>
      drawValue (if un then .unif else .norm) (slotBlock ((t.core x.c).getNs 7) ((xr t x r).v.toNat + i : Nat)))) ∧
    (∀ red : Red, ∃ e : Flags, exec (.kvRed pt red d a) s = retires x ((t.laterFlags x (x.t + 6) e (vr t x a).p).later x (x.t + 6)
      (.v d.val (BitVec.ofNat 512 (reduce f red ((elemsOf f.bits (vr t x a).v).zipIdx.map fun (e, i) =>
        (e, decide (i < min (t.core x.c).vl f.lanes)))).1) (BitVec.allOnes 512) (vr t x a).p)) (.on 6)) ∧
    (∀ src : Pt, let g := Pt.fmt src
      ∃ (e : Flags) (val mask : Row), exec (.kvCvt pt rm src d a) s = retires x ((t.laterFlags x (x.t + 4) e (vr t x a).p).later x
        (x.t + 4) (.v d.val val mask (vr t x a).p)) (.on 4) ∧
      ∀ i < f.lanes, elemOf f.bits val i =
        (if i < min g.lanes f.lanes then (convert f g m 0 (elemOf g.bits (vr t x a).v i)).1 % 2 ^ f.bits else 0) ∧
        elemOf f.bits mask i = if min g.lanes f.lanes ≤ i ∨ i < min (t.core x.c).vl f.lanes then 2 ^ f.bits - 1 else 0)

/-- What the accesses of a profile leave in flight: the memory work `a` of the access, `h` ticks after the tick `e` it is timed
from; a read where its place is that of the sampling. -/
def Sys2Proof.Claims.inFlight (o : Out) (t : State) (x : Ctx) (place h : Nat) (a : Nat → Nat → Act) : Prop :=
  ∃ (u : State) (e i : Nat), o = .next u ∧ sameData t u ∧
    e = timedFrom t x h .rlx .co (place == samplePlace) (place != samplePlace) ∧
    ⟨e + h, place, x.who, a e i⟩ ∈ (u.part x.p).pend

/-- Vector accesses, vector length, and the words of KM1 and KG1 (21 R387 to R389). An access of GLOBAL reads or writes ⌊L/2⌋
ticks after the tick it is timed from (07 R188, R189), L the other-stack latency; a grid word does in its own pocket what its native word
does. The A word of a KM1 access brings its data (01 R19). KM.CFG, KM.ZERO and KG.ADV take effect at t + 1. The ticks are the
model's choice (21 R395 gives no rule; log entry 34), and so are the checks of the VAs and of 10 R235 that go before (log entries 26,
75). -/
def Obligations.PortableProfileWords : Prop :=
  (∀ (s t : State) (x : Ctx) (pt : Pt) (d a : XReg), Runs32 s .s x t →
    let n := min (xr t x a).v.toNat (Pt.fmt pt).lanes
    exec (.kvSetvl pt d a) s = retires x ((t.modCore x.c fun k => { k with vl := n, kvSums := [] }).later x (x.t + 1)
      (.x d.val ⟨BitVec.ofNat 64 n, (xr t x a).p⟩)) (.on 1)) ∧
  (∀ (s t : State) (x : Ctx) (pt : Pt) (h3 : BitVec 3) (h4 : BitVec 4) (d : VReg) (a b : XReg) (g : Num3), Runs32 s .a x t →
    let f := Pt.fmt pt
    let n := min (t.core x.c).vl f.lanes
    let h := farLatency (t.part x.p).loose / 2
    let own := if (t.part x.p).loose then 10 else 14
    let va := fun (st : Word) (i : Nat) => some (Loc.global ((xr t x a).v + BitVec.ofNat 64 i * st).toNat)
    let grid := (t.core x.c).getGrid g.val
    let xyz := fun (w : Word) => [sfld w.toNat 0 32, sfld w.toNat 32 16, sfld w.toNat 48 16]
    inFlight (exec (.kvLd pt h3 d a) s) t x samplePlace h (fun e i => .loadV ⟨.global (xr t x a).v.toNat, 0xF, i, false,
      e + farLatency (t.part x.p).loose, [], false⟩ d.val ((List.range n).map (va (BitVec.ofNat 64 (f.bits / 8)))) f.bits n) ∧
    inFlight (exec (.kvLds pt h3 d a b) s) t x samplePlace h (fun e i => .loadV ⟨.global (xr t x a).v.toNat, 0xF, i, false,
      e + farLatency (t.part x.p).loose, [], false⟩ d.val ((List.range n).map (va (xr t x b).v)) f.bits n) ∧
    inFlight (exec (.kvSt pt h3 d a) s) t x 2 h (fun e i => .storeEls ⟨.global (xr t x a).v.toNat, 0xF, i, false, e + h, [], false⟩
      ((List.range n).map (va (BitVec.ofNat 64 (f.bits / 8)))) (vr t x d).v f.bits) ∧
    exec (.kgDef g h4 a) s = retires x ((t.modPart x.p fun k => { k with seq := k.seq + 2 }).sampleAt x (x.t + own / 2)
      (.gridRow g.val (xr t x a).v.toNat 0 ((t.part x.p).seq + 1) [])) (.on (own + 1)) ∧
    exec (.kgAdv g h4) s = retires x (t.later x (x.t + 1) (.gridAdvance g.val (grid.step + 1))) (.on 1) ∧
    inFlight (exec (.kgLd g h4 d a b) s) t x samplePlace (own / 2) (fun e i => .gridLoad g.val (.reg d.val) (xyz (xr t x a).v)
      (tagOf (xr t x b)) true (e + own) i) ∧
    inFlight (exec (.kgSt g h4 d a b) s) t x 2 (own / 2) (fun e i => .gridStore ⟨.pocket x.c 0, 0xF, i, false, e + own / 2, [], false⟩
      (grid.storeCells ((tagOf (xr t x b)).toNat % 2) (xyz (xr t x a).v) (vr t x d).v))) ∧
  (∀ (s t : State) (x : Ctx) (sa : SaMask) (hint : BitVec 3) (a b : XReg), Runs32 s .m x t →
    let h := farLatency (t.part x.p).loose / 2
    let va := (xr t x a).v.toNat
    let w := (xr t x a).v
    let acc := fun (e i : Nat) => (⟨.global va, 0xF, i, false, e + farLatency (t.part x.p).loose, [], false⟩ : Access)
    inFlight (exec (.kmLw sa hint a) s) t x.access samplePlace h (fun e i => .kmWeights (acc e i) sa false) ∧
    inFlight (exec (.kmLwp sa hint a) s) t x.access samplePlace h (fun e i => .kmWeights (acc e i) sa true) ∧
    inFlight (exec (.kmMma sa hint a b) s) t x.access samplePlace h (fun e i => .kmPass (acc e i) sa (xr t x b).v.toNat) ∧
    (∀ j < 4, sa = BitVec.ofNat 4 (2 ^ j) → ∀ fmt : DrainFmt,
      inFlight (exec (.kmRd sa fmt a b) s) t x.access 2 h (fun e i => .storeRows ⟨.global va, 0xF, i, false, e + h, [], false⟩
        (((t.core x.c).getSa j).drained (DrainFmt.fmt fmt) (xr t x b).v.toNat).1)) ∧
    (∃ u : State, exec (.kmZero sa hint) s = .next u ∧ sameData t u ∧ ∀ i < 4, sa.getLsbD i = true →
      ⟨x.t + 1, 4, x.who, .clearRows i (isIntPair ((t.core x.c).getSa i).cfg.fmtA)⟩ ∈ (u.part x.p).pend) ∧
    (∀ (fr : Frame) (s2 : SaMask) (fa fb : Fmt) (p : BitVec 4) (ac : Acc) (pro : BitVec 7),
      decodeNative .m (BitVec.ofNat 64 (2 ^ 46 + sa.toNat * 2 ^ 42 + w.toNat % 32 * 2 ^ 37 + w.toNat / 2 ^ 5 % 32 * 2 ^ 32 +
        w.toNat / 2 ^ 10 % 16 * 2 ^ 28 + w.toNat / 2 ^ 14 % 4 * 2 ^ 26 + w.toNat / 2 ^ 16 % 128 * 2 ^ 19)) =
        .ok (.mcfg fr s2 fa fb p ac pro) →
      ∃ u : State, exec (.kmCfg sa hint a) s = .next u ∧ sameData t u ∧ ∀ i < 4, sa.getLsbD i = true →
        ⟨x.t + 1, 4, x.who, .mcfg i ⟨fa, fb, p.toNat, ac, pro.toNat⟩⟩ ∈ (u.part x.p).pend))

/-! ### Switches, barriers and freezes -/

/-- The control events (05 R97 to R111, R122 to R125): a decision-class operation is carried out at its switch tick, a period of a
loop begins and a loop ends at their boundaries, a decision that would switch there is an overlap, after which no word of the old
streams issues, and a switch starts every cluster of every core of the partition at offset 0 of the block, or the portable
function that the continuation stands for; a return to portable code goes on behind the call, and a loop begins with its
period 0. -/
def Obligations.SwitchEvents : Prop :=
  (∀ (s : State) (p : Nat) (d : Pending), let t := s.popEvent
    (t.part p).decision = some d → (t.part p).tick = d.issue + delta (t.part p).n →
    let k := t.part p
    let u := t.modPart p fun k => { k with decision := none }
    let does := fun (r : State) => exec (.decisionSwitch p) s = .next r
    let raises := fun (c : Cls) (v : Word) => does (u.addCond p ⟨k.tick, c, d.who, v, .continue_⟩)
    let goes := fun (u : State) (c : Nat) => t.pendingStub p c = none →
      (t.stub p c = none → does (u.startBlock p (.cont c))) ∧
      (∀ fn, t.stub p c = some fn → does (((u.idleCursors p).useFn p fn).modPart p fun q =>
        { q with thread := some ⟨fn, 0, false, [], none, q.tick⟩ }))
    let entry := fun (i : Nat) => (t.objOf p).bind fun o => lookupId o.decisions i
    let clean := ∀ v ∈ d.votes, v.2.p = false
    let chooses := fun (i : Nat) =>
      (entry i = none → raises .decisionMiss 0) ∧
      (∀ e, entry i = some e →
        (chooseCase e (combineVotes e.comb (d.votes.map fun v => v.2.v)) = none →
          raises .decisionMiss (combineVotes e.comb (d.votes.map fun v => v.2.v))) ∧
        ∀ c, chooseCase e (combineVotes e.comb (d.votes.map fun v => v.2.v)) = some c → goes u c ∧
          ∀ fn, t.pendingStub p c = some fn →
            does (t.addCond p ⟨k.tick, .translationPending, d.who, BitVec.ofNat 64 fn, .continue_⟩))
    (∀ i, d.kind = .decide i →
      (∀ v, d.votes.find? (fun v => v.2.p) = some v → raises .scheduleMiss (BitVec.ofNat 64 v.1)) ∧ (clean → chooses i)) ∧
    (∀ i, d.kind = .chkp i → chooses i) ∧
    (∀ a b, d.kind = .call a b →
      (16 ≤ k.rets.length → raises .returnStack 0) ∧
      (k.rets.length < 16 → goes (u.modPart p fun q => { q with rets := .cont b :: k.rets }) a)) ∧
    (d.kind = .ret → (k.rets = [] → raises .returnStack 1) ∧
      (∀ i l, k.rets = .cont i :: l → goes (u.modPart p fun q => { q with rets := l }) i) ∧
      ∀ fn off ln l, k.rets = .portable fn off ln :: l → does ((((u.modPart p fun q => { q with rets := l }).idleCursors p).useFn
        p fn).modPart p fun q => { q with thread := some ⟨fn, off, ln, [], none, q.tick⟩ })) ∧
    (∀ (l c : Nat) (v : PWord) (rest : List (Nat × PWord)), d.kind = .loop l → d.votes = (c, v) :: rest → clean →
      (∀ w, d.votes.find? (fun w => w.2.v != v.v) = some w → raises .divergence (BitVec.ofNat 64 w.1)) ∧
      ((∀ w ∈ d.votes, w.2.v = v.v) → v.v ≠ 0 → 8 ≤ k.loops.length → raises .returnStack 2) ∧
      ((∀ w ∈ d.votes, w.2.v = v.v) → v.v ≠ 0 → k.loops.length < 8 → does (u.enterLoop p l v.v) ∧
        ∀ e, (t.objOf p).bind (fun o => lookupId o.loops l) = some e → k.preempt = none →
          does ((u.modPart p fun q => { q with
            loops := ⟨l, e, v.v, 0, 0, k.rets.length, captureBody k.loops e.body, 0, true, []⟩ :: k.loops }).startBlock p
              (.body l))) ∧
      ((∀ w ∈ d.votes, w.2.v = v.v) → v.v = 0 → ∀ e, (t.objOf p).bind (fun o => lookupId o.loops l) = some e → goes u e.skip))) ∧
  (∀ (s : State) (p : Nat) (l : Level) (outer : List Level), let t := s.popEvent
    (t.part p).loops = l :: outer → l.begun = true →
    let k := t.part p
    let periods := l.count.toNat + l.entry.stages - 1
    (l.clock = (l.period + 1) * l.entry.period → l.period + 1 < periods →
      (k.decision = none → k.preempt = none → ∃ m : Level, m.id = l.id ∧ m.entry = l.entry ∧ m.count = l.count ∧
        m.clock = l.clock ∧ m.period = l.period + 1 ∧ exec (.iterationBoundary p) s =
          .next ((t.modPart p fun q => { q with loops := m :: outer, rets := cutStack q.rets l.depth }).startBlock p
            (.body l.id))) ∧
      (∀ d, k.decision = some d → exec (.iterationBoundary p) s = .next (((t.modPart p fun q =>
        { q with decision := none, thread := none }).idleCursors p).addCond p ⟨k.tick, .decisionOverlap, d.who, d.who.word, .continue_⟩))) ∧
    (l.clock = periods * l.entry.period → l.period + 1 = periods →
      (k.decision = none → k.preempt = none → t.pendingStub p l.entry.exit = none →
        t.stub p l.entry.exit = none → exec (.loopExit p) s =
          .next ((t.modPart p fun q => { q with loops := outer, rets := cutStack q.rets l.depth }).startBlock p
            (.cont l.entry.exit))) ∧
      (∀ d, k.decision = some d → exec (.loopExit p) s = .next (((t.modPart p fun q =>
        { q with decision := none, thread := none }).idleCursors p).addCond p ⟨k.tick, .decisionOverlap, d.who, d.who.word, .continue_⟩)))) ∧
  (∀ (s : State) (p c : Nat) (b : BlockRef) (cl : Cluster), c ∈ (s.part p).cores →
    (((s.startBlock p b).core c).cursor cl) =
      ⟨b, 0, if (blockStream (s.block p b) cl).isEmpty then none else some (s.part p).tick⟩)

/-- Barriers, watchdogs, hem waits and the freezes that clear by themselves (01 R27, 05 R118, R120, R128, 14 R284, 16 R329, 18
R338, 19 R370): a full group releases every member that arrived, one of a pod under Y2.0 at the first alignment edge at
or after its largest arrival plus 2 µs, or late where the last was seen after that edge, and under Y1.2 at the first edge after the last
was seen; the pulse and freeze limits and an overlong hem wait raise
their traps, and what a freeze waited for takes that cause away: an instruction-cache fill changes nothing else but the caches (01 R16).
Keeping an arrival for the next release, and the late release of a pod group, are the model's choice (log entry 31), and how the
freeze limit counts is its reading (log entry 39). -/
def Obligations.BarrierAndFreezeEvents : Prop :=
  (∀ (s : State) (g : Nat), let t := s.popEvent
    let l : List Arrival := tget [] t.arrivals g
    let frees := fun (r : Host.Outcome State Fault Refusal) => ∃ u : State, r = .next u ∧
      u.arrivals = tset [] t.arrivals g (roundOf l).2 ∧ (∀ a ∈ l, ∃ b ∈ (roundOf l).1, b.sameMember a = true) ∧
      ∀ a ∈ (roundOf l).1, ∀ p, a.part = some p → Wait.barrier g ∉ (u.part p).waits
    let w := t.groupWord g
    let late := fun (r : Host.Outcome State Fault Refusal) (b : Bool) => ∃ u : State, r = .next u ∧
      ∀ a ∈ (roundOf l).1, ∀ p, a.part = some p → (u.entry p).late = (b || (t.entry p).late)
    (w % 4 = 1 → l ≠ [] → w / 4 % 2 ^ 16 ≤ l.length → frees (exec (.barrierRelease g) s)) ∧
    (w % 4 = 3 → 0 < w / 2 ^ 18 % 2 ^ 16 → w / 2 ^ 18 % 2 ^ 16 ≤ (roundOf l).1.length →
      ∀ first last seen edge : Nat,
      (∃ a ∈ (roundOf l).1, a.wall = last) → (∀ a ∈ (roundOf l).1, a.wall ≤ last) →
      (∃ a ∈ (roundOf l).1, a.seen = seen) → (∀ a ∈ (roundOf l).1, a.seen ≤ seen) → edge % 1000 = 0 →
      let two := ∃ q ∈ t.ports, q.2.up = true ∧ q.2.version = some (2, 0)
      let release := exec (.podBarrierRelease g) s
      (two → last + 2000 ≤ edge → edge < last + 3000 → first = max edge seen →
        (t.wall < first → release = .next t) ∧ (first ≤ t.wall → frees release ∧ late release (decide (edge < seen)))) ∧
      (¬ two → seen < edge → edge ≤ seen + 1000 →
        (t.wall < edge → release = .next t) ∧ (edge ≤ t.wall → frees release ∧ late release false)))) ∧
  (∀ (s : State) (p : Nat), let t := s.popEvent
    let k := t.part p
    let first := fun (f : Wait → Bool) (w : Wait) => k.waits.find? f = some w
    let cleared := fun (t : State) (w : Wait) => t.modPart p fun k =>
      { k with waits := k.waits.filter (· != w), served := k.served ++ [w] }
    (k.pulse ≠ 0 → k.pulseAt + k.pulse ≤ k.tick → k.stop = none → exec (.pulseIntervalExpiry p) s =
      .next (t.addCond p ⟨k.tick, .watchdogPulse, t.hubWho p, BitVec.ofNat 64 k.pulse, .pulse p⟩)) ∧
    (∀ w, t.limitAt p = some w → w ≤ t.wall →
      let trap := fun (r : Trap) (u : State) => (u.part (t.memberWith p (t.hubWho p).core)).trap = some r ∧
        r.cls = .watchdogFreeze ∧ r.localRoute = false
      (t.condsNow p = [] → ∃ (u : State) (r : Trap), exec (.freezeLimitExpiry p) s = .next u ∧ trap r u ∧
        r.tick = (t.part (t.memberWith p (t.hubWho p).core)).tick ∧
        u.irqs = t.irqs ++ [entryVector (t.memberWith p (t.hubWho p).core)]) ∧
      (t.condsNow p ≠ [] → ∃ (st : Word) (fixes : TrapCond → List Fix), exec (.freezeLimitExpiry p) s =
        .next (t.trapOf p (⟨k.tick, .watchdogFreeze, t.hubWho p, st, .continue_⟩ :: t.condsNow p) fixes))) ∧
    (∀ (d : Due) (v : Word) (g : Nat) (q : RowDest) (cur : List Int) (tg : BitVec 32) (chk : Bool) (land seq : Nat),
      t.hemOver p = some (d, v) → d.act = .gridLoad g q cur tg chk land seq → exec (.hemTimeout p) s =
        .next (t.trapOf p (⟨k.tick, .staleHem, d.who, v, .again d { d with act := .gridLoad g q cur tg false land seq }⟩ ::
          t.condsNow p) fun e => [e.fix])) ∧
    (∀ (w : Nat) (d : Due) (v : Word) (c g tmo : Nat) (l : List Wait), k.frozenAt = some w → k.waits = .hem c g tmo v d :: l →
      w + tmo * 1000 < t.wall → t.hemOver p = some (d, v)) ∧
    (∀ l, first (fun w => match w with | .icache _ => true | _ => false) (.icache l) →
      ∃ u : State, exec (.icacheFillDone p) s = .next u ∧ u.part p = (cleared t (.icache l)).part p ∧
        (∀ c, { u.core c with icache := (t.core c).icache } = t.core c) ∧
        (∀ c cl x, l = [(c, cl, x)] → risingFrom none (t.core c).icache = true →
          (tget [] (u.core c).icache (clNum cl)).contains x = true)) ∧
    (∀ c i, first (fun w => match w with | .late _ _ => true | _ => false) (.late c i) →
      exec (.lateDataArrival p) s = .next (cleared t (.late c i))) ∧
    (first (fun w => match w with | .bank => true | _ => false) .bank →
      exec (.bankPortServiceDone p) s = .next (cleared t .bank)) ∧
    (∀ c st, first (fun w => match w with | .lsq _ _ => true | _ => false) (.lsq c st) → exec (.lsqEntryRetire p) s =
      .next (cleared (t.modCore c fun k => { k with lsq := k.lsq.eraseP fun e => e.store == st }) (.lsq c st))) ∧
    (∀ c q, first (fun w => match w with | .queue _ _ => true | _ => false) (.queue c q) →
      exec (.queueEntryDelivered p) s = .next (cleared t (.queue c q))) ∧
    (k.lateWrites ≠ [] → ∃ (l r : List Due) (d : Due), k.lateWrites = l ++ d :: r ∧ (∀ e ∈ l, d.meets e = false) ∧
      exec (.lateWritePerform p) s = .next (({ t with free := t.free + 1 }.modPart p fun k =>
        { k with lateWrites := k.lateWrites.erase d }).addDue p { d with place := 9 }))) ∧
  (∀ (s : State) (c gr face : Nat) (n : BitVec 32), let t := s.popEvent
    (t.partOf c = none → exec (.hemStampArrival c gr face n) s = .next (t.stampFace c gr face n)) ∧
    (∀ p, t.partOf c = some p → t.arrivedExchange p c gr face n = none →
      exec (.hemStampArrival c gr face n) s = .next ((t.stampFace c gr face n).modPart p fun k => { k with
        waits := k.waits.filter fun w => match w with | .hem a b _ _ _ => !(a == c && b == gr) | _ => true })))

/-! ### The host interface -/

/-- The launch table (19 R359 to R363, 21 R394 to R399): writes to an entry, SUBMIT with its refusals, WITHDRAW, loading,
start and completion, and the code heap: room is made of functions that are not in use, a load that fails changes nothing but what
the host reads back, and a translation stays in the heap. A refusal leaves the entry's state and raises its interrupt. An entry starts at
the first alignment point after its wall time, or where that has passed when loading ends, at the first one after, with late set. The
checks of a submission come in code order, 0x12 where there is an object to compare with; that those of READY and of the grant come
first is the model's reading (log entry 27); where the handle and the codes above 2^63 are read back
(log entry 7), and the sizes of code in the heap and which functions go (log entry 48), are its choices. -/
def Obligations.LaunchTableEvents : Prop :=
  (∀ (s : State) (e : Fin 1024), let t := s.popEvent
    let k := t.entry e.val
    let refuses := fun (i : Instr) (c : Nat) => ∃ u : State, exec i s = .next u ∧ u.irqs = t.irqs ++ [entryVector e.val] ∧
      u.entry e.val = { k with refusal := BitVec.ofNat 8 c } ∧ u.cores = t.cores ∧ u.parts = t.parts
    (k.busy = true → refuses (.submit e) 0x19) ∧
    (k.busy = false → t.ready ≠ 1 → refuses (.submit e) 0x1A) ∧
    (k.busy = false → t.ready = 1 → t.hivgnt.getLsbD 16 = false → refuses (.submit e) 0x1B) ∧
    (k.busy = false → t.ready = 1 → t.hivgnt.getLsbD 16 = true → (k.base % k.size ≠ 0 ∨ 2048 < k.base + k.size) →
      refuses (.submit e) 0x10) ∧
    (k.busy = false → t.ready = 1 → t.hivgnt.getLsbD 16 = true → k.base % k.size = 0 → k.base + k.size ≤ 2048 →
      let overlaps := ∃ x ∈ t.entries, x.1 ≠ e.val ∧ x.2.busy = true ∧ k.base < x.2.base + x.2.size ∧ x.2.base < k.base + k.size
      (overlaps → refuses (.submit e) 0x11) ∧
      (¬ overlaps → t.loaded k.handle = none → refuses (.submit e) 0x13) ∧
      ∀ l, ¬ overlaps → t.loaded k.handle = some l →
        let slots := overlaySlots t.slots (objectSlots l.obj k.base k.size)
        let checks : List (Prop × Nat) := [(l.obj.loose ≠ k.loose, 0x12),
          (∀ b, l.obj.conts[if k.cont = 0xFFF then l.obj.entry else k.cont]? = some b →
            b.stub = none ∧ (l.obj.partSize ≠ k.size ∨ l.obj.generation ≠ 9), 0x14),
          (∃ a b, (k.base ≤ a ∧ a < k.base + k.size) ∧ (k.base ≤ b ∧ b < k.base + k.size) ∧ a ≠ b ∧
            transitBudget k.loose a b < transitBound t.plan slots (pathHops a b), 0x15),
          (k.gv = true ∧ (t.groupWord k.groupId) % 2 = 0, 0x16),
          (k.pers = true ∧ k.pulse = 0, 0x17),
          (k.word 1 / 2 ^ 40 ≠ 0 ∨ k.word 12 / 2 ^ 16 ≠ 0 ∨ k.word 13 / 2 ^ 52 ≠ 0 ∨ k.word 13 % 2 ^ 15 ≠ 0, 0x18)]
        (∀ (i : Nat) (a : Prop × Nat), checks[i]? = some a → a.1 → (∀ j < i, ∀ b, checks[j]? = some b → ¬ b.1) →
          refuses (.submit e) a.2) ∧
        ((∀ a ∈ checks, ¬ a.1) → t.submitRefusal e.val = none)) ∧
    (k.busy = false → t.submitRefusal e.val = none → ∃ u : State, exec (.submit e) s = .next u ∧
      (u.entry e.val).state = (if k.held then 1 else 3) ∧ (u.entry e.val).words = k.words ∧ u.cores = t.cores) ∧
    (t.granted = false → ∀ w, ∀ i ∈ [Instr.withdraw e, .launchEntryWrite e 0 w, .trouteWrite e w], exec i s = .next t) ∧
    (t.granted = true →
      ((k.state = 1 ∨ k.state = 2) → exec (.withdraw e) s = .next (t.modEntry e.val fun k => { k with state := 0 })) ∧
      (¬ (k.state = 1 ∨ k.state = 2) → refuses (.withdraw e) 0x19) ∧
      (∀ (j : Fin 14) (w : Word), (k.busy = true → refuses (.launchEntryWrite e j w) 0x19) ∧
        (k.busy = false → exec (.launchEntryWrite e j w) s =
          .next (t.modEntry e.val fun k => { k with words := tset 0 k.words j.val w }))) ∧
      (∀ w : Word, ∃ u : State, exec (.trouteWrite e w) s = .next u ∧
        (u.entry e.val).words = tset 0 k.words 14 (w &&& ~~~(0x4C0000 : Word)) ∧ u.cores = t.cores)) ∧
    (∀ l, t.loadReady e.val = true → t.loaded k.handle = some l → k.restore = none →
      (globalRuns t.hbm k.asid k.l1pa l.obj = none → ∃ u : State, exec (.loadingDone e) s = .next u ∧
        (u.entry e.val).state = 0 ∧ (u.entry e.val).refusal = 0x1D ∧ u.cores = (t.loadCores k l.obj).cores ∧ u.hbm = t.hbm ∧
        u.irqs = t.irqs ++ [entryVector e.val]) ∧
      (∀ runs, globalRuns t.hbm k.asid k.l1pa l.obj = some runs → ∃ u : State, exec (.loadingDone e) s = .next u ∧
        (u.entry e.val).loaded = true ∧
        let after := fun (a b : Nat) => a % 1000 = 0 ∧ b < a ∧ a ≤ b + 1000
        ∃ point, after point (k.word 0) ∧ (t.wall ≤ point → (u.entry e.val).start = point ∧ (u.entry e.val).late = false) ∧
          (point < t.wall → after (u.entry e.val).start t.wall ∧ (u.entry e.val).late = true))) ∧
    (∀ l, k.state = 3 → k.loaded = true → k.start ≤ t.wall → t.loaded k.handle = some l → k.restore = none →
      ∃ u : State, exec (.partitionStart e) s = .next u ∧ (u.entry e.val).state = 4 ∧ (u.part e.val).run = true ∧
        (u.part e.val).tick = 0 ∧ (u.part e.val).base = k.base ∧ (u.part e.val).handle = k.handle)) ∧
  (∀ (s : State) (p : Nat), let t := s.popEvent
    (t.partFinished p = true → exec (.partitionComplete p) s =
      .next ((t.dropSlots p).modPart p fun k => { k with complete := true })) ∧
    (t.entryFinished p = true → ∃ u : State, exec (.entryDone p) s = .next u ∧ (u.entry p).state = 5 ∧ (u.entry p).done = true ∧
      u.irqs = t.irqs ++ [entryVector p])) ∧
  (∀ (s : State) (o : Object) (h : Word) (fn : Nat), let t := s.popEvent
    let room := t.heapRoom (loadBytes o)
    (∀ x ∈ t.heap, t.fnInUse x = true → x ∈ room.1.heap) ∧ (∀ x ∈ room.1.heap, x ∈ t.heap) ∧
    ((t.heap.map HeapFn.bytes).sum + loadBytes o ≤ 2 ^ 30 → room = (t, true)) ∧
    (room.2 = true → (room.1.heap.map HeapFn.bytes).sum + loadBytes o ≤ 2 ^ 30) ∧
    (∀ c, loadFailure o (!room.2) = some c → exec (.objectLoad o) s = .next { t with readback := leBytes 8 (2 ^ 63 + c) }) ∧
    (loadFailure o (!room.2) = none → ∃ (u : State) (l : Loaded), exec (.objectLoad o) s = .next u ∧
      u.readback = leBytes 8 t.nextHandle ∧ l.obj = o ∧ u.objects = t.objects ++ [(BitVec.ofNat 64 t.nextHandle, l)]) ∧
    (∀ p : Nat, let size := (t.part p).size
      let u := t.endTranslation h fn p
      ((t.translated h fn size).2 = true → (u.part p).trap = none ∧ (u.heap.any fun x => x.is h fn size) = true) ∧
      ((t.translated h fn size).2 = false → u.parts = t.parts ∧ u.irqs = t.irqs ++ [entryVector p])) ∧
    exec (.chasonTranslationDone h fn true) s = .next ((t.awaiting h fn).foldl (fun u p => u.endTranslation h fn p) t) ∧
    (∃ u : State, exec (.chasonTranslationDone h fn false) s = .next u ∧ u.parts = t.parts ∧
      u.irqs = t.irqs ++ (t.awaiting h fn).map entryVector)) ∧
  (∀ (s : State) (g : Fin 256) (w : Word), let t := s.popEvent
    (t.granted = false → exec (.barrierGroupWrite g w) s = .next t) ∧
    (t.granted = true → (∀ x ∈ t.entries, x.2.inGroup g.val = true → x.2.state.toNat < 2) →
      exec (.barrierGroupWrite g w) s = .next { t with groups := tset 0 t.groups g.val (w &&& 0x3FFFFFFFF) }) ∧
    (t.granted = true → (∃ x ∈ t.entries, x.2.inGroup g.val = true ∧ 2 ≤ x.2.state.toNat) →
      ∃ u : State, exec (.barrierGroupWrite g w) s = .next u ∧ u.groups = t.groups))

/-- Control-block commands (18 R342 to R353): nothing before a grant, malformed words, reserved commands and refused commands only
set the result field, and an accepted command does what its rule says. RESUME and STEP take a trap of a running entry that is not kill
only, with no core in handler mode; PREEMPT a running entry that is not joined and has no request pending, with its save area inside one
stack (18 R343). That RESTORE tests READY before the entry's state is the
model's reading (19 R372; log entry 52), and so is the freeze at the drain's end (log entry 59). -/
def Obligations.ControlBlockCommands : Prop :=
  ∀ (s : State) (e : Fin 1024) (w : Word), let t := s.popEvent
    let k := t.entry e.val
    let all := [Instr.resume e w, .kill e w, .step e w, .preempt e w, .restore e w, .freeze e w]
    let accepts := fun (i : Instr) (u : State) => exec i s = .next (u.modEntry e.val fun k => { k with res := 0 })
    let refuses := fun (i : Instr) => exec i s = .next (t.modEntry e.val fun k => { k with res := 1 })
    let bad := w.toNat / 2 ^ 52 ≠ 0 ∨ w.toNat / 2 ^ 4 % 2 ^ 12 ≠ 0
    (t.granted = false → ∀ i ∈ all, exec i s = .next t) ∧
    (t.granted = true → bad → ∀ i ∈ all, exec i s = .next (t.modEntry e.val fun k => { k with res := 2 })) ∧
    (t.granted = true → (w.toNat % 16 = 0 ∨ 7 ≤ w.toNat % 16) →
      exec (.bar0RegisterWrite (BitVec.ofNat 24 (0x30000 + 64 * e.val)) w) s =
        .next (t.modEntry e.val fun k => { k with res := 2 })) ∧
    (t.granted = true → ¬ bad →
      let q := t.part e.val
      let pa := w.toNat / 2 ^ 16 % 2 ^ 36 * 65536
      let runs := k.state = 4 ∧ q.run = true ∧ (q.complete = false ∨ q.trap ≠ none)
      let resumes := runs ∧ (∃ r, q.trap = some r ∧ r.kill = false) ∧ ∀ c ∈ q.cores, (t.core c).hm = false
      let preempts := runs ∧ q.join = none ∧ q.preempt = none ∧
        ∃ o, t.objOf e.val = some o ∧ pa < 2 ^ 40 ∧ pa % 2 ^ 36 + areaSize o q.size ≤ 48 * 2 ^ 30
      (¬ resumes → refuses (.resume e w) ∧ refuses (.step e w)) ∧
      (resumes → accepts (.resume e w) (t.resumeTicks e.val) ∧
        accepts (.step e w) ((t.modPart e.val fun q => { q with stepping := true }).resumeTicks e.val)) ∧
      (¬ runs → refuses (.freeze e w)) ∧
      (runs → accepts (.freeze e w) (t.addCond e.val ⟨q.tick, .debugStep, t.hubWho e.val, 1, .continue_⟩)) ∧
      (¬ preempts → refuses (.preempt e w)) ∧
      (preempts → accepts (.preempt e w) (t.modPart e.val fun q =>
        { q with preempt := some ⟨pa, false, 0, 0, false, false⟩ })) ∧
      (¬ (k.state = 4 ∧ (t.part e.val).run = true) → refuses (.kill e w)) ∧
      (k.state = 4 → (t.part e.val).run = true → ∃ u : State, exec (.kill e w) s = .next u ∧ (u.part e.val).run = false ∧
        (u.part e.val).trap = none ∧ (u.part e.val).pend = [] ∧ (u.entry e.val).res = 0) ∧
      (t.ready ≠ 1 → ∃ u : State, exec (.restore e w) s = .next u ∧ (u.entry e.val).refusal = 0x1A ∧ (u.entry e.val).res = 1 ∧
        (u.entry e.val).state = k.state) ∧
      (t.ready = 1 → k.busy = true → ∃ u : State, exec (.restore e w) s = .next u ∧ (u.entry e.val).refusal = 0x19 ∧
        (u.entry e.val).res = 1 ∧ (u.entry e.val).state = k.state) ∧
      (∀ l, k.busy = false → t.loaded k.handle = some l → t.restoreRefusal e.val (w.toNat / 2 ^ 16 % 2 ^ 36 * 65536) = none →
        insideStack (w.toNat / 2 ^ 16 % 2 ^ 36 * 65536) (areaSize l.obj k.size) = true →
        ∃ u : State, exec (.restore e w) s = .next u ∧ (u.entry e.val).state = 3 ∧ (u.entry e.val).res = 0 ∧
          (u.entry e.val).restore = some (w.toNat / 2 ^ 16 % 2 ^ 36 * 65536))) ∧
    (∀ p : Nat, let q := t.part p
      (q.run = false → (t.entry p).state = 4 → t.postedNone p = true → ∃ u : State, exec (.killQuiesced p) s = .next u ∧
        (u.entry p).state = 7 ∧ (u.entry p).quiesced = true) ∧
      (∀ r, q.preempt = some r → r.drain = true → r.done = false → t.drained p = true → q.run = true →
        exec (.preemptDrainDone p) s = .next (t.modPart p fun q =>
          { q.freeze t.wall with preempt := some { r with done := true } })) ∧
      (∀ r o, q.preempt = some r → r.done = true → t.objOf p = some o → ∃ u : State, exec (.saveComplete p) s = .next u ∧
        (u.entry p).state = 6 ∧ (u.entry p).saved = true))

/-- Registers of the host interface (07 R176 to R178, 19 R355 to R358, R364 to R366, R373): nothing but HIVREQ and the windows of
BAR2 and BAR4 acts before a grant; values are clamped or masked as their rows say. An invalidation is broadcast to every TLB, and its
acknowledgement waits for the work that translated under a removed entry; which work that is, is the model's reading (log entry 99).
The places of the diagnostic counters and of WBASE's window are the model's choice (log entries 28, 47), that the host may write any
value to WALL is its reading (log entry 50), and so is the landing of a mailbox arrival (log entry 38). -/
def Obligations.HostRegisterWrites : Prop :=
  ∀ (s : State) (w : Word), let t := s.popEvent
    ((∀ x ∈ t.entries, x.2.state ≠ 3 ∧ x.2.state ≠ 4) → exec (.hivreq w) s = .next { t with
      hivreq := w.setWidth 16
      hivgnt := if w.toNat / 2 ^ 8 % 2 ^ 8 = 1 then BitVec.ofNat 17 (2 ^ 16 + 256 + min (w.toNat % 2 ^ 8) 3) else 0 }) ∧
    ((∃ x ∈ t.entries, x.2.state = 3 ∨ x.2.state = 4) → exec (.hivreq w) s = .next t) ∧
    (t.granted = false → ∀ i ∈ [Instr.wallWrite w, .plimitWrite w, .tjlimitWrite w, .fcapWrite w, .invalidateSubmit w,
      .iqackPop, .bar0RegisterWrite 0x2008 w, .mismatchCounterWrite 0 0], exec i s = .next t) ∧
    (t.granted = true →
      ((∀ x ∈ t.entries, x.2.state.toNat < 2 ∨ 4 < x.2.state.toNat) → exec (.wallWrite w) s = .next { t with wall := w.toNat }) ∧
      exec (.plimitWrite w) s = .next { t with plimit := BitVec.ofNat 16 (max 5000 (min 15000 (w.toNat % 2 ^ 16))) } ∧
      exec (.tjlimitWrite w) s = .next { t with tjlimit := BitVec.ofNat 8 (max 85 (min 105 (w.toNat % 2 ^ 8))) } ∧
      (∃ u : State, exec (.fcapWrite w) s = .next u ∧ u.fcap = w.setWidth 4 ∧ u.cores = t.cores) ∧
      (t.iq.length < 64 → exec (.invalidateSubmit w) s = .next { t with
        iq := t.iq ++ [⟨tget 0 t.iqWords 0, tget 0 t.iqWords 1, tget 0 t.iqWords 2, w, none, []⟩] }) ∧
      (64 ≤ t.iq.length → exec (.invalidateSubmit w) s = .next { t with iqDrop := true }) ∧
      exec .iqackPop s = .next { t with iqAcks := t.iqAcks.drop 1 } ∧
      (∀ c : Fin 2048, exec (.mismatchCounterWrite c 0) s = .next { t with mismatch := tset 0 t.mismatch c.val 0 }) ∧
      exec (.bar0RegisterWrite 0x2008 w) s = .next { t with
        tsrc := if w.toNat % 4 = 3 then 0 else w.setWidth 2, tport := BitVec.ofNat 6 (w.toNat / 4 % 64) } ∧
      exec (.bar0RegisterWrite 0x2020 w) s = .next { t with wbase := w &&& 0x000FFFFFC0000000 } ∧
      exec (.bar0RegisterWrite 0x3000 w) s = .next t) ∧
    (∀ i : Fin 3, exec (.diagCounterWrite (BitVec.ofNat 12 (8 * (i.val + 1))) 0) s = .next (if tget 0 t.diagCount i.val = 0 then t
      else { t with diagCount := tset 0 t.diagCount i.val 0, irqs := t.irqs ++ [0] })) ∧
    (∀ (c : InvalidateCmd) (l : List InvalidateCmd), t.iq = c :: l →
      let since := c.since.getD (if c.malformed then [] else t.parts.map fun e => (e.1, e.2.tick + 1))
      let gone := c.gone ++ t.entriesGone c
      let c' := { c with since := some since, gone := gone }
      let v := { t.removeEntries c with iq := c' :: l }
      (c.malformed = false → (∀ x ∈ v.cores, ∀ y ∈ x.2.tlb, c.removes y = false) ∧
        ∀ x ∈ v.dieTlb, ∀ y ∈ x.2, c.removes y = false) ∧
      (c.malformed = false → (∀ x ∈ t.cores, ∀ y ∈ x.2.tlb, c.removes y = true → y ∈ gone) ∧
        ∀ x ∈ t.dieTlb, ∀ y ∈ x.2, c.removes y = true → y ∈ gone) ∧
      (t.iqAcks.length < 64 → (∀ e ∈ since, v.underRemoved c' e.1 e.2 = false) → exec .invalidateAck s = .next
        { v with iq := l, iqAcks := t.iqAcks ++ [(c.cookie, c.malformed)], irqs := t.irqs ++ [0] }) ∧
      ((64 ≤ t.iqAcks.length ∨ ∃ e ∈ since, v.underRemoved c' e.1 e.2 = true) → exec .invalidateAck s = .next v)) ∧
    (∀ off : BitVec 18, off.toNat % 8 = 0 → exec (.hostMailboxWrite off 8 w) s =
      .next (t.mailboxArrive (off.toNat / 128) (off.toNat / 8 % 16) w)) ∧
    (∀ (off : BitVec 18) (n : Nat), (n ≠ 8 ∨ off.toNat % 8 ≠ 0) → exec (.hostMailboxWrite off n w) s = .next (t.countDiag 0)) ∧
    (∀ (off n : Nat), let pa := t.wbase.toNat / 2 ^ t.bar4Log * 2 ^ t.bar4Log + off % 2 ^ t.bar4Log
      (hbmMapped pa = true → hbmMapped (pa + n - 1) = true →
        exec (.bar4Read off n) s = .next { t with readback := Memory.readBytes t.hbm pa n }) ∧
      (∀ b l, hbmMapped pa = true → hbmMapped (pa + l.length) = true → ∃ u : State, exec (.bar4Write off (b :: l)) s = .next u ∧
        u.hbm = Memory.writeCells t.hbm (writtenCells pa (Memory.readBytes t.hbm pa (l.length + 1)) (b :: l)
          (2 ^ (8 * (l.length + 1)) - 1)) ∧ u.cores = t.cores ∧ u.hostMem = t.hostMem)) ∧
    (∀ req : List Byte, ∃ u : State, exec (.doeSpdmRequest req) s = .next u ∧ u.hbm = t.hbm ∧ u.cores = t.cores ∧
      u.parts = t.parts)

/-- What an arrival covers: the first index and how many, a prefix of k from 0 on (16 R326). -/
def Sys2Proof.Claims.covers (f : Packet) : Nat × Nat := if f.kind.toNat = 3 then (0, f.idx.toNat) else (f.idx.toNat, 1)

/-- SITE at the hub switch of the destination core (16 R325, R326): an arrival that is next is combined, and the whole tile sent on as a
prefix; one that is not is forwarded, and then the slot's prefix; index 0 takes a free slot of the 4,096. One that differs from its tile
is discarded and counted, up to 2^32 - 1. -/
def Sys2Proof.Claims.combinesAtSite (s : State) (f : Packet) : Prop :=
  let i := (covers f).1
  let n := (covers f).2
  let rows := frameRows f
  let mine := fun (x : SiteSlot) => x.tag = f.tag.toNat ∧ x.dcore = f.dcore.toNat ∧ x.doff = f.doff.toNat
  let after := fun (l : List SiteSlot) => ({ s with sites := l } : State)
  (∀ (l r : List SiteSlot) (x : SiteSlot), s.sites = l ++ x :: r → mine x → (∀ y ∈ l ++ r, ¬ mine y) →
    let fits := x.n = f.n.toNat ∧ x.op = f.op.toNat ∧ x.rows = rows.length ∧ x.e ≤ i ∧ i + n ≤ x.n
    let y : SiteSlot := { x with acc := combRows (combOf x.op) x.acc rows, e := x.e + n, wall := s.wall }
    (¬ fits → s.siteArrive f = s.mismatchAt f) ∧
    (fits → i = x.e → i + n < x.n → s.siteArrive f = after (l ++ r ++ [y])) ∧
    (fits → i = x.e → i + n = x.n → s.siteArrive f = (after (l ++ r)).fxArrive (y.packet s.modNum)) ∧
    (fits → x.e < i → s.siteArrive f = ((after (l ++ r)).fxArrive f).fxArrive (x.packet s.modNum))) ∧
  ((∀ x ∈ s.sites, ¬ mine x) →
    let free := (s.sites.filter fun x => x.dcore / 1024 == f.dcore.toNat / 1024).length < 4096
    (f.n.toNat < i + n → s.siteArrive f = s.mismatchAt f) ∧
    (i + n ≤ f.n.toNat → i = 0 → free → s.siteArrive f = after (s.sites ++
      [⟨s.wall, f.tag.toNat, f.dcore.toNat, f.n.toNat, f.op.toNat, rows.length, f.doff.toNat, n, rows⟩])) ∧
    (i + n ≤ f.n.toNat → (i ≠ 0 ∨ ¬ free) → s.siteArrive f = s.fxArrive f)) ∧
  (∀ (x : SiteSlot) (m : Nat), let p := x.packet m
    p.kind = 3 ∧ p.tag = BitVec.ofNat 16 x.tag ∧ p.dcore = BitVec.ofNat 11 x.dcore ∧ p.doff = BitVec.ofNat 19 x.doff ∧
    p.idx = BitVec.ofNat 16 x.e ∧ p.n = BitVec.ofNat 16 x.n ∧ p.op = BitVec.ofNat 2 x.op ∧ p.dmod = BitVec.ofNat 8 m ∧ p.flits = x.acc) ∧
  (risingFrom none s.mismatch = true → ∀ c : Nat, tget 0 (s.mismatchAt f).mismatch c =
    if c = f.dcore.toNat ∧ tget 0 s.mismatch c ≠ BitVec.allOnes 32 then tget 0 s.mismatch c + 1 else tget 0 s.mismatch c) ∧
  ((s.mismatchAt f).outbox = s.outbox ∧ ((s.mismatchAt f).core f.dcore.toNat).pocket = (s.core f.dcore.toNat).pocket) ∧
  (∀ (launch seq : Nat) (pois lost : Bool), s.contribute f launch seq pois lost = ({ s with contribs := s.contribs ++
    [⟨f.dcore.toNat, f.doff.toNat, f.tag.toNat, f.idx.toNat, f.smod.toNat, f.score.toNat, launch, seq, pois, lost⟩] } : State).siteArrive f)

/-- The destination core's FX (12 R267, 16 R327), where the hub holds nothing back: what is next is folded element by element, and then
every held arrival that has become next; what is not is held, and by the hub where 64 other tiles are. A tile of which every index has
been folded is written at its offset, and its result entry follows, on the next tick by the model's choice (log entry 112). A contribution
is acknowledged when it is folded, which is the model's choice too (log entry 43). -/
def Sys2Proof.Claims.foldsAtCore (s : State) (f : Packet) : Prop :=
  let i := (covers f).1
  let n := (covers f).2
  let rows := frameRows f
  let c := f.dcore.toNat
  let mine := fun (x : FxTile) => x.tag = f.tag.toNat ∧ x.doff = f.doff.toNat
  let tiles := (s.core c).fxTiles
  let others := tiles.filter fun x => !(x.tag == f.tag.toNat && x.doff == f.doff.toNat)
  let put := fun (u : State) (l : List FxTile) => u.modCore c fun k => { k with fxTiles := l }
  (∀ x : FxTile, s.heldBack = [] →
    (tiles.find? (fun x => x.tag == f.tag.toNat && x.doff == f.doff.toNat) = some x ∨ (∀ y ∈ tiles, ¬ mine y) ∧
      x = ⟨f.tag.toNat, f.n.toNat, combOf f.op.toNat, rows.length, f.doff.toNat, 0, [], [], false, false⟩) →
    let fits := x.n = f.n.toNat ∧ x.op = combOf f.op.toNat ∧ x.rows = rows.length ∧ x.e ≤ i ∧ i + n ≤ x.n ∧
      ∀ h ∈ x.held, h.1 + h.2.1 ≤ i ∨ i + n ≤ h.1
    (¬ fits → s.fxArrive f = s.mismatchAt f) ∧
    (fits → i = x.e →
      let y := foldHeld x.held.length { x with acc := if x.e = 0 then rows else combRows x.op x.acc rows, e := x.e + n }
      let folded := fun (k : Contrib) => k.core = c ∧ k.off = y.doff ∧ k.tag = y.tag ∧ k.idx < y.e
      let got := s.contribs.filter fun k => decide (folded k)
      let z := { y with p := y.p || got.any (·.pois), lost := y.lost || got.any (·.lost) }
      let u := got.foldl State.ackContrib { s with contribs := s.contribs.filter fun k => !decide (folded k) }
      let left := (u.core c).fxTiles.filter fun x => !(x.tag == y.tag && x.doff == y.doff)
      let done := y.e = y.n ∧ (y.tag, y.doff) ∉ (u.core c).fxDead
      (¬ done → s.fxArrive f = put u (left ++ [z])) ∧
      (done → s.fxArrive f = (put u left).tileDone c y.doff y.tag z.p z.lost z.acc)) ∧
    (fits → x.e < i →
      let full := x.held = [] ∧ 64 ≤ (others.filter fun y => !y.held.isEmpty).length
      (full → s.fxArrive f = { s with heldBack := [f] }) ∧
      (¬ full → s.fxArrive f = put s (others ++ [{ x with held := x.held ++ [(i, n, rows)] }])))) ∧
  (∀ (m : Nat) (x : FxTile), (∀ h, x.held.find? (fun h => h.1 == x.e) = some h →
      foldHeld (m + 1) x = foldHeld m { x with acc := combRows x.op x.acc h.2.2, e := x.e + h.2.1, held := x.held.erase h }) ∧
    ((∀ h ∈ x.held, h.1 ≠ x.e) → foldHeld m x = x)) ∧
  (∀ (op : CombOp) (a b : List Row) (j l : Nat) (v w : Row), a[j]? = some v → b[j]? = some w → l < 16 →
    ∃ r : Row, (combRows op a b)[j]? = some r ∧ elemOf 32 r l = (match op with
      | .fadd => (fAdd .fp32 .rne 0 (elemOf 32 v l) (elemOf 32 w l)).1
      | .fmax => fMax .fp32 (elemOf 32 v l) (elemOf 32 w l)
      | .fmin => fMin .fp32 (elemOf 32 v l) (elemOf 32 w l)
      | .iadd => elemOf 32 v l + elemOf 32 w l) % 2 ^ 32) ∧
  (∀ (off tag : Nat) (pois lost : Bool) (l : List Row), Memory.wf (s.core c).pocket = true →
    let u := s.tileDone c off tag pois lost l
    (∀ (j b : Nat) (r : Row), l[j]? = some r → b < 64 → Memory.read (u.core c).pocket (off + 64 * j + b) = rowByte r b) ∧
    (∀ a, a < off ∨ off + 64 * l.length ≤ a → Memory.read (u.core c).pocket a = Memory.read (s.core c).pocket a) ∧
    ∃ due, ((u.core c).getEng 2).results = ((s.core c).getEng 2).results ++ [⟨BitVec.ofNat 64 tag, false, due, [], 0, 0⟩] ∧
      ∀ p, s.partOf c = some p → due = (s.part p).tick + 1)

/-- Frames that arrive on a link (16 R320 to R329) and time messages (19 R364): a link that is down delivers nothing; every frame
of a live link is counted, 8 flits for each; a frame with a reserved kind or bit counts as an error and delivers nothing; the
others are carried out, and every kind that the sender waits for is acknowledged, a contribution when it has been folded (12
R268). Each direction of a link has its own key: an inbound one waits for the other end's announcement, an outbound one for the
frame that announces it, which waits where the link is down. A combining site and the FX of a destination do what R326 and R327 say with
every arrival. The model's own choices in it: which write an acknowledgement answers (log
entry 16), the place of a mailbox word (17), how a grid exchange reads (15), how WALL follows a time message (18), that a repeated
barrier frame is dropped (31), that a contribution is acknowledged when it is folded (43), the counters and announcements of link keys
(46), that a packet of 9 to 16 rows stands for two frames (73) and the tick of a tile's result entry (112). -/
def Obligations.ReceivedFrames : Prop :=
  (∀ (s : State) (f : Packet), combinesAtSite s f ∧ foldsAtCore s f) ∧
  ∀ (s : State) (n : Fin 32) (f : Packet), let t := s.popEvent
    let up := (t.port n.val).up
    let counted := fun (m : Nat) => t.modPort n.val fun q => { q with count := q.count + 8 * m, failures := 0 }
    let v := counted (max 1 ((f.flits.length + 7) / 8))
    let all := [Instr.postedWrite n f, .acknowledgement n f, .combiningContribution n f, .combinedPrefix n f,
      .peerMailboxWrite n f, .gridExchange n f, .barrierFrame n f, .linkControl n f, .reservedKindFrame n f]
    let core := f.dcore.toNat
    let far := f.smod.toNat * 2048 + f.score.toNat
    (up = false → ∀ i ∈ all, exec i s = .next t) ∧
    (up = true → (f.rsv ≠ 0 ∨ 9 ≤ f.kind.toNat) → ∀ i ∈ all, exec i s =
      .next (v.modPort n.val fun q => { q with errors := q.errors + 1 })) ∧
    (up = true → f.rsv = 0 → f.dmod.toNat = t.modNum →
      (f.kind = 0 → exec (.postedWrite n f) s = .next (((postedBytes f).foldl
        (fun u r => u.outsideWrite core false r.1 r.2) v).send (ackOf f))) ∧
      (f.kind = 1 → (∀ r, (v.core core).posted.find? (fun r => r.target == far) = some r →
          exec (.acknowledgement n f) s = .next (v.writeDone core r)) ∧
        ((∀ r ∈ (v.core core).posted, r.target ≠ far) → exec (.acknowledgement n f) s = .next v)) ∧
      (f.kind = 2 → exec (.combiningContribution n f) s =
        .next (if (v.port n.val).version = some (2, 0) then v.contribute f 0 0 false false else v.contributeDirect f)) ∧
      (f.kind = 3 → exec (.combinedPrefix n f) s =
        .next (if (v.port n.val).version = some (2, 0) then v.siteArrive f else v.fxArrive f)) ∧
      (f.kind = 4 → exec (.peerMailboxWrite n f) s =
        .next ((v.mailboxArrive core (f.doff.toNat / 8 % 16) ((f.flits.headD 0).setWidth 64)).send (ackOf f))) ∧
      (f.kind = 5 → exec (.gridExchange n f) s = .next ((v.exchangeFrame f).send (ackOf f)))) ∧
    (up = true → f.rsv = 0 → f.kind = 6 → let g := f.tag.toNat % 256
      let l : List Arrival := tget [] v.arrivals g
      let a : Arrival := ⟨none, (f.flits.headD 0).toNat % 2 ^ 64, (f.flits.headD 0).toNat / 2 ^ 64 % 2 ^ 64,
        (f.flits.headD 0).toNat / 2 ^ 128 % 2 ^ 64, t.wall, .none⟩
      (a.mod ≠ t.modNum → (∀ b ∈ l, ¬ (b.mod = a.mod ∧ b.base = a.base ∧ b.wall = a.wall)) →
        exec (.barrierFrame n f) s = .next { v with arrivals := tput v.arrivals g (l ++ [a]) }) ∧
      ((a.mod = t.modNum ∨ ∃ b ∈ l, b.mod = a.mod ∧ b.base = a.base ∧ b.wall = a.wall) →
        exec (.barrierFrame n f) s = .next v)) ∧
    (∀ c : Contrib, c.mod ≠ t.modNum → t.ackContrib c = t.send (ackPacket (BitVec.ofNat 8 c.mod) (BitVec.ofNat 11 c.src)
      (BitVec.ofNat 8 t.modNum) (BitVec.ofNat 11 c.core))) ∧
    (up = true → f.rsv = 0 → f.kind = 8 → ∀ k, (v.port n.val).newIn = some k → exec (.linkControl n f) s =
      .next (v.modPort n.val fun q => { q with keyIn := k, newIn := none, count := 0 })) ∧
    (∀ id : BitVec 32, let frame : Packet := { ackPacket 0 0 (BitVec.ofNat 8 t.modNum) 0 with kind := 8 }
      (t.granted = false → ∀ b, exec (.linkKeyReplace n ⟨b, id⟩) s = .next t) ∧
      (t.granted = true →
        exec (.linkKeyReplace n ⟨false, id⟩) s = .next (t.modPort n.val fun q => { q with newIn := some id }) ∧
        (up = true → exec (.linkKeyReplace n ⟨true, id⟩) s = .next { t.modPort n.val fun q =>
          { q with keyOut := id, newOut := none, sent := 0 } with outbox := t.outbox ++ [frame] }) ∧
        (up = false → exec (.linkKeyReplace n ⟨true, id⟩) s = .next (t.modPort n.val fun q =>
          { q with newOut := some id, waiting := q.waiting ++ [frame] })))) ∧
    (up = true → ∃ u : State, exec (.frameTagFailure n) s = .next u ∧
      (u.port n.val).failures = (t.port n.val).failures + 1 ∧
      ((t.port n.val).failures < 7 → (u.port n.val).up = true ∧ u.irqs = t.irqs) ∧
      (7 ≤ (t.port n.val).failures → (u.port n.val).up = false ∧ u.irqs = t.irqs ++ [0])) ∧
    (∀ l : List (Nat × Nat), ∃ u : State, exec (.linkTraining n l) s = .next u ∧
      (u.port n.val).version = (if (2, 0) ∈ l then some (2, 0) else if (1, 2) ∈ l then some (1, 2) else none) ∧
      ((u.port n.val).up = true ↔ (2, 0) ∈ l ∨ (1, 2) ∈ l) ∧
      ((u.port n.val).up = true → u.outbox = t.outbox ++ (t.port n.val).waiting ∧ (u.port n.val).waiting = [])) ∧
    exec (.fxCombineArrival f) s = .next (t.fxArrive f) ∧
    (∀ (tag : BitVec 16) (dc : BitVec 11) (sl : SiteSlot), t.idleSlot tag.toNat dc.toNat = some sl →
      exec (.combiningSlotTimeout tag dc) s = .next (({ t with sites := t.sites.erase sl }).fxArrive (sl.packet t.modNum))) ∧
    (∀ (c : Nat) (ring : Bool) (off : Nat) (l : List Byte), exec (.externalWriteArrival c ring off l) s =
      .next (t.outsideWrite c ring off l)) ∧
    (∀ m : TimeMessage, let heard := fun (u : State) => { u with toff := m.offset, lock := decide (m.offset.natAbs ≤ 100) }
      (t.tsrc ≠ 1 → exec (.ethernetPtpMessage m) s = .next t) ∧
      (t.tsrc = 1 → exec (.ethernetPtpMessage m) s = .next (heard t)) ∧
      (up = false → exec (.timeFrame n m) s = .next t) ∧
      (up = true → ¬ (t.tsrc = 2 ∧ t.tport.toNat = n.val) → exec (.timeFrame n m) s = .next (counted 1)) ∧
      (up = true → t.tsrc = 2 → t.tport.toNat = n.val → exec (.timeFrame n m) s = .next (heard (counted 1))))

/-- From state `t` to `u`, the throttle set `l` changes to step `f`: its regions relock, its window begins anew, and every partition of the
set freezes until they have (19 R367). -/
def Sys2Proof.Claims.stepsTo (t u : State) (l : List Nat) (f : Nat) : Prop :=
  (∀ r ∈ l, tget 0 u.freq r = BitVec.ofNat 10 (512 + f) ∧ tfind u.stepAt r = some t.wall) ∧
  ∀ e ∈ t.parts, (∃ r ∈ l, r ∈ e.2.regions) → Wait.pll ∈ (u.part e.1).waits ∧ (u.part e.1).tick = e.2.tick ∧
    (Wait.pll ∉ e.2.waits → (u.part e.1).frozenAt ≠ none)

/-- A change of step of the sets for which `f` names one, of those whose lowest step is `low` and for which `may` holds; every other region
keeps its clock. -/
def Sys2Proof.Claims.changesSteps (t u : State) (may : List Nat → Nat → Prop) (f : Nat → Nat) : Prop :=
  u.cores = t.cores ∧ u.hbm = t.hbm ∧ u.wall = t.wall ∧ u.fcap = t.fcap ∧ u.pnow = t.pnow ∧
  (∀ r, (∀ l ∈ t.throttleSets, r ∉ l) → tget 0 u.freq r = tget 0 t.freq r) ∧
  ∀ l ∈ t.throttleSets, ∀ low, (∃ r ∈ l, (tget 0 t.freq r).toNat % 16 = low) → (∀ r ∈ l, low ≤ (tget 0 t.freq r).toNat % 16) →
    (may l low → stepsTo t u l (f low)) ∧
    (¬ may l low → ∀ r ∈ l, tget 0 u.freq r = tget 0 t.freq r ∧ tfind u.stepAt r = tfind t.stepAt r)

/-- Power-up, self-test, module reset and the clocks (19 R357 to R372). Above the power or temperature limit every throttle set above
step 0 steps down by one, once in any 100 µs; over-current steps every one down by four at once, not below step 0; with headroom for 1 ms
every one below FCAP steps up by one; a set that changes step freezes its partitions until its PLLs have relocked (R367, R369). A droop
stretches wall time only. What reset leaves: READY 0, no grant, PLIMIT 15000, TJLIMIT
105, FCAP 15, TOFF and LOCK 0, every entry empty, every memory in its canonical form (log entry 4). When self-test has passed, READY is
1, and the regions, which host nothing, are gated at step 0 (19 R366; that this is when, is log entry 101). The model's choices: a
module reset keeps host memory and HBM (log entry 29), the size of BAR4 after power-up (47), how far WALL goes on in a droop (61) and
what is measured (57). -/
def Obligations.PowerAndResetEvents : Prop :=
  (canonical State.reset ∧ State.reset.readBar0 0x18 = 0 ∧ State.reset.readBar0 0x10 = 0 ∧ State.reset.readBar0 0x0 = 0x0009 ∧
    State.reset.readBar0 0x2028 = 15000 ∧ State.reset.readBar0 0x2030 = 105 ∧ State.reset.readBar0 0x2038 = 15 ∧
    State.reset.readBar0 0x2010 = 0 ∧ State.reset.readBar0 0x2018 = 0 ∧
    ∀ e : Fin 1024, (State.reset.entry e.val).state = 0 ∧ (State.reset.entry e.val).refusal = 0) ∧
  (∀ (s : State) (w : Word), let t := s.popEvent
    (∃ u : State, exec (.powerUp none) s = .next u ∧ u.ready = 0 ∧ u.parts = [] ∧ u.entries = [] ∧ u.hbm = [] ∧
      30 ≤ u.bar4Log ∧ u.bar4Log ≤ 40) ∧
    (∃ u : State, exec (.powerUp (some w)) s = .next u ∧ u.ready = 2 ∧ u.diagWord = w.setWidth 32 ∧ u.irqs = [0]) ∧
    (t.ready = 0 → ∃ u : State, exec .selfTestComplete s = .next u ∧
      { u with freq := t.freq } = { t with ready := 1, irqs := t.irqs ++ [0] } ∧
      (risingFrom none t.freq = true → ∀ r : Fin 128, tget 0 u.freq r.val =
        if (t.gangs.any fun g => g.contains r.val) = true then tget 0 t.freq r.val else 0x100)) ∧
    (t.ready ≠ 0 → exec .selfTestComplete s = .next t) ∧
    (∃ u : State, exec .moduleReset s = .next u ∧ (u.ready = 0 ∨ u.ready = 2 ∧ u.irqs = [0]) ∧ u.hivgnt = 0 ∧ u.parts = [] ∧
      u.cores = [] ∧ u.entries = [] ∧ u.hbm = s.hbm ∧ u.hostMem = s.hostMem ∧ u.plimit = 15000) ∧
    exec .wallPhaseBroadcast s = .next t ∧
    (risingFrom none t.parts = true → t.throttleSets.Pairwise (fun a b => ∀ r ∈ a, r ∉ b) →
      let window := fun (l : List Nat) => ∀ r ∈ l, ∀ w, tfind t.stepAt r = some w → w + 100000 ≤ t.wall
      (∃ u : State, exec .powerLimitStepdown s = .next u ∧ changesSteps t u
        (fun l low => (t.plimit.toNat < t.pnow.toNat ∨ t.tjlimit.toNat < u.temp) ∧ low ≠ 0 ∧ window l) fun low => low - 1) ∧
      (∃ u : State, exec .overcurrentStepdown s = .next u ∧ changesSteps t u (fun _ low => low ≠ 0) fun low => low - 4) ∧
      (∃ u : State, exec .powerStepup s = .next u ∧ changesSteps t u
        (fun l low => (100 * t.pnow.toNat < 98 * t.plimit.toNat ∧ u.temp + 5 ≤ t.tjlimit.toNat ∧
          ∃ w, t.coolAt = some w ∧ w + 1000000 ≤ t.wall) ∧ low < t.fcap.toNat ∧ window l) fun low => low + 1)) ∧
    (∀ r : Fin 128, (∃ u : State, exec (.supplyDroop r) s = .next u ∧ t.wall ≤ u.wall ∧ u.wall < t.wall + 1000 ∧
        u.cores = t.cores ∧ u.parts = t.parts ∧ u.freq = t.freq ∧
        (u.wall / 1000000 = t.wall / 1000000 → u.pnow = t.pnow ∧ u.temp = t.temp)) ∧
      ((tget 0 t.freq r.val).getLsbD 9 = false → exec (.pllRelockDone r) s = .next t) ∧
      ((tget 0 t.freq r.val).getLsbD 9 = true → ∃ u : State, exec (.pllRelockDone r) s = .next u ∧ u.cores = t.cores ∧
        (risingFrom none t.freq = true → ∀ j ∈ t.throttleSet [r.val], tget 0 u.freq j = tget 0 t.freq j &&& 0x1FF) ∧
        ∀ e ∈ t.parts, (e.2.regions.any fun j => (t.throttleSet [r.val]).contains j) = true → Wait.pll ∉ (u.part e.1).waits)))

/-! ### Traps, landings and memory -/

/-- Taking a trap (18 R333 to R339): the record of its condition goes into every core of the partition, with the class, unit and
core, the frozen tick, the place and the status; LOCAL routing puts every core in handler mode with MSK set, at offset 0 of the
continuation that TVEC names, HOST routing interrupts the host; the cursor of a stream whose access faults holds the faulting
coordinate (07 R175); ticks resume with the trap gone. That no core outside the condition's partition, in a joined group, takes the
record is the model's reading (log entry 19), and so is which coordinate a cursor holds where several fault (log entry 85). -/
def Obligations.TakingATrap : Prop :=
  (∀ (s : State) (p : Nat) (c : TrapCond) (fixes : List Fix),
    let k := s.part p
    let u := s.takeTrap p c fixes
    let rec4 := [trec0 false c.cls c.who, BitVec.ofNat 64 k.tick, trec2 c.who, c.status]
    let loc := k.troute.getLsbD (clsCode c.cls) && !alwaysHost c.cls
    let old := match k.trap with | some r => r.cursors | none => []
    let v := (s.aim ((c.fix :: fixes).filterMap Fix.aimOf) old).1
    (∀ x ∈ k.cores, u.core x = if loc then { (v.core x).setTrec rec4 with
        hm := true, msk := true, handler := 0, hcont := (v.core x).tvec.toNat % 4096 }
      else (v.core x).setTrec rec4) ∧
    (∀ x, x ∉ k.cores → u.core x = v.core x) ∧
    ((∀ f ∈ c.fix :: fixes, Fix.aimOf f = none) → v = s) ∧
    (∀ (d : Due) (x st : Nat) (b : BitVec 128), c.fix = .fault d x st b → (∀ a ∈ old, ¬ (a.core = x ∧ a.st = st)) →
      risingFrom none (s.core x).st = true → (v.core x).getCur st = b) ∧
    (∃ r, (u.part p).trap = some r ∧ r.tick = k.tick ∧ r.cls = c.cls ∧ r.trec = rec4 ∧ r.localRoute = loc ∧ r.fixes = fixes) ∧
    (u.part p).tick = k.tick ∧ (u.entry p).trec = rec4 ∧ u.agenda = [] ∧ u.hbm = s.hbm ∧ u.hostMem = s.hostMem ∧
    (loc = true → u.irqs = s.irqs) ∧ (loc = false → u.irqs = s.irqs ++ [entryVector p])) ∧
  (∀ (cls : Cls) (w : Who), (trec0 false cls w).toNat % 2 ^ 8 = clsCode cls ∧
    (trec0 false cls w).toNat / 2 ^ 8 % 2 ^ 11 = w.core % 2048 ∧ (trec0 false cls w).toNat / 2 ^ 21 % 2 ^ 3 = unitField w.unit ∧
    (trec0 false cls w).toNat / 2 ^ 24 = 0) ∧
  (∀ (s : State) (p : Nat), ((s.resumeTicks p).part p).trap = none ∧ ((s.resumeTicks p).part p).tick = (s.part p).tick)

/-- The memory that a place of this module is in. -/
def Sys2Proof.Claims.storeOf (s : State) : Machine.Bytes → Memory
  | .ring c _ => (s.core c).ring
  | .pocket c _ => (s.core c).pocket
  | .hbm _ => s.hbm
  | .host _ => s.hostMem
  | .remote _ _ | .text _ _ => []

/-- A read of `n` bytes that lie together finds the bytes of its place, and the poison of the rows they lie in; HBM and host memory carry
none (07 R167, 05 R115). A place in a ring store or a pocket needs no translation. -/
def Sys2Proof.Claims.readsItsPlace (s : State) (p c : Nat) : Prop :=
  (∀ (kind : XKind) (r o n : Nat), s.resolveLoc p c kind (.pocket r o) = (s, .ok (.pocket r o)) ∧
    s.resolveLoc p c kind (.ring r o) = (s, .ok (.ring r o)) ∧ (Loc.pocket r o).cut n = (n, none) ∧ (Loc.ring r o).cut n = (n, none)) ∧
  ∀ (kind : XKind) (loc : Loc) (n : Nat) (u : State) (b : Machine.Bytes), s.resolveLoc p c kind loc = (u, .ok b) → loc.cut n = (n, none) →
    u.spoilt b n = false → ((∃ r o, b = .pocket r o ∨ b = .ring r o) ∨ ∃ a, b = .hbm a ∨ b = .host a) →
    ∃ (l : List Byte) (q : Bool), s.readLoc p c kind loc n = (u, .ok (l, q)) ∧ l.length = n ∧
      (∀ i < n, l[i]? = some (Memory.read (storeOf u b) (b.split.2 + i))) ∧
      (∀ r o, b = .pocket r o → q = (tget false (u.core r).pocketP (o / 64) || tget false (u.core r).pocketP ((o + n - 1) / 64))) ∧
      (∀ r o, b = .ring r o → q = (tget false (u.core r).ringP (o / 64) || tget false (u.core r).ringP ((o + n - 1) / 64))) ∧
      (∀ a, b = .hbm a ∨ b = .host a → q = false)

/-- Work that falls due (07 R167, R169, R182, R184; 05 R117; 08 R194 to R196, R203): a sampled load takes the bytes of its place at its tick,
sign- or zero-extended, and lands them at its land tick; one that is late in a loose partition marks its destination poisoned there. An
injection puts the row on its track, where it stands at a later stop after the transit; a tap and a bank take what they injected, and it
lands one tick later, or find an empty tap. A store's bytes land at its tick, or wait aside while it is late in a loose partition. -/
def Sys2Proof.Claims.worksWhenDue (s : State) (p : Nat) (d : Due) : Prop :=
  let c := d.who.core
  let k := s.part p
  let lands := fun (u : State) (a : Access) (act : Act) => u.addDue p { d with tick := a.land, place := 2, act := act }
  let value := fun (n : Nat) (sg : Bool) (l : List Byte) =>
    if sg then (BitVec.ofNat (8 * n) (leNat l)).signExtend 64 else (BitVec.ofNat (8 * n) (leNat l)).setWidth 64
  let timely := fun (u : State) (a : Access) (n : Nat) => u.accessLate p c a = false ∧
    ((u.part p).goesOn = false ∨ u.lateTo p a.loc n = false)
  readsItsPlace s p c ∧
  (∀ (a : Access) (r n : Nat) (sg : Bool) (u : State) (l : List Byte) (q : Bool), 0 < n → n ≤ 8 →
    s.readLoc p c .read a.loc n = (u, .ok (l, q)) →
    (d.act = .sampleC a r n sg → timely u a n → s.applyDue p d = lands u a (.c r ⟨value n sg l, q⟩)) ∧
    (d.act = .sampleC a r n sg → (u.part p).goesOn = true → (u.accessLate p c a = true ∨ u.lateTo p a.loc n = true) →
      s.applyDue p d = lands (u.addDue p { d with tick := a.land, place := 0, act := .poisonMark }) a (.cLost r)) ∧
    (d.act = .loadX a r n sg → u.isLate p a.seq = false → s.applyDue p d = lands u a (.x r ⟨value n sg l, false⟩))) ∧
  (∀ (a : Access) (q i : Nat) (m : Row) (u : State) (l : List Byte) (b : Bool), d.act = .sampleQ a q i m →
    s.readLoc p c .read a.loc 64 = (u, .ok (l, b)) → let drawn : State := { u with free := u.free + 8 }
    timely drawn a 64 → s.applyDue p d = lands drawn a (.queue q i (rowOfBytes l &&& m) b)) ∧
  (∀ (tk stop : Nat) (w : Row) (b : Bool), d.act = .inject tk stop w b → (s.core c).trackAt tk stop d.tick = none →
    (∀ e ∈ k.pend, e.tick = d.tick → e.who.core = c → ∀ v q, e.act ≠ .inject tk stop v q) →
    let u := s.applyDue p d
    let word : TrackWord := ⟨stop, d.tick, w, b, d.who⟩
    ∀ stop' < 16, stop' ≠ stop → stop < 16 → let at_ := d.tick + (if tk < 8 then stop' + 16 - stop else stop + 16 - stop') % 16
      (s.core c).trackAt tk stop' at_ = none → (u.core c).trackAt tk stop' at_ = some word) ∧
  (∀ tk r : Nat, d.act = .tapV r tk → let u := s.applyDue p d
    (∀ w, (s.core c).trackAt tk 1 d.tick = some w → w.who = d.who → u.core c = s.core c ∧
      ⟨d.tick + 1, 3, d.who, .v r w.v (BitVec.allOnes 512) w.p⟩ ∈ (u.part p).pend) ∧
    ((∀ w, (s.core c).trackAt tk 1 d.tick = some w → w.who ≠ d.who) → (u.core c).vstat.getLsbD 0 = true ∧
      ⟨d.tick + 1, 3, d.who, .v r 0 (BitVec.allOnes 512) false⟩ ∈ (u.part p).pend)) ∧
  (∀ (tk stop : Nat) (off : Option Nat) (m : Row), d.act = .bankTake tk stop off m → let u := s.applyDue p d
    (∀ w o, (s.core c).trackAt tk stop d.tick = some w → w.who = d.who → w.stop = (if d.who.unit = .e1 then 7 else 1) → off = some o →
      u.core c = s.core c ∧ ⟨d.tick + 1, unitPlace d.who.unit, d.who, .write ⟨.ring c o, 0xF, 0, false, d.tick + 1, [], false⟩ w.v m w.p⟩ ∈
        (u.part p).pend) ∧
    ((s.core c).trackAt tk stop d.tick = none → (u.core c).vstat.getLsbD 0 = true) ∧ (off = none → u.parts = s.parts)) ∧
  (∀ (a : Access) (v m : Row) (q : Bool) (b : Machine.Bytes), d.act = .write a v m q →
    (∃ r o, (a.loc = .pocket r o ∧ b = .pocket r o) ∨ (a.loc = .ring r o ∧ b = .ring r o)) →
    let l := (bytesOfRow v).take (maskLen m)
    let late := s.accessLate p c a
    m.toNat < 2 ^ (8 * maskLen m) ∧
    (d.place = 9 → s.applyDue p d = (s.performWrite none b l m.toNat q).unitsBack c a.seq) ∧
    (d.place ≠ 9 → late = false → (k.goesOn = true → k.lateWrites = [] ∧ ∀ e ∈ k.pend, e.place ≠ 9) →
      s.applyDue p d = (s.landWrite p b l m.toNat q).unitsBack c a.seq) ∧
    (d.place ≠ 9 → late = true → k.goesOn = true →
      s.applyDue p d = s.modPart p fun k => { k with lateWrites := k.lateWrites ++ [d] }))

/-- GADV as it takes effect (14 R281, R283, R290): the step and the interior's stamp are s', every older stamp of the other buffer is
invalid, an exchanging face sends step s' where d steps have passed since it last sent, and otherwise its recomputed layers carry s'; the
rule-filled faces are filled. Over a grid whose tables are in their canonical form and whose hems have at most 8 layers (14 R276). -/
def Sys2Proof.Claims.advancesGrid (s : State) (p : Nat) (d : Due) : Prop :=
  ∀ (gr : Nat) (step : BitVec 32), d.act = .gridAdvance gr step →
    let g := (s.core d.who.core).getGrid gr
    let u := s.applyDue p d
    let h := (u.core d.who.core).getGrid gr
    let b := step.toNat % 2
    let keeps := fun (a w : Option (BitVec 32)) => a = w.filter fun v => !decide (v < step)
    risingFrom none g.hem = true → risingFrom none g.inner = true → (∀ f < 6, dH g.desc f ≤ 8) →
    h.step = step ∧ h.interior b = some step ∧ keeps (h.interior (1 - b)) (g.interior (1 - b)) ∧
    h.desc = g.desc ∧ h.rules = g.rules ∧ h.const = g.const ∧ h.sigR = g.sigR ∧ u.hbm = s.hbm ∧
    (u.core d.who.core).pocket = (s.core d.who.core).pocket ∧
    ∀ f < 6,
      let sends := g.exchanging f = true ∧ (g.sentAt f).toNat + dD g.desc ≤ step.toNat
      let kept := (dH g.desc f : Int) - ((step.toNat : Int) - (g.gotAt f).toNat) * dR g.desc
      h.sentAt f = (if sends then step else g.sentAt f) ∧
      (sends → ∃ tick n out land, ⟨tick, samplePlace, d.who, .gridSend gr f step g.desc n out land⟩ ∈ (u.part p).pend) ∧
      (g.ruleFilled f = true → ∃ n out, ⟨d.tick, samplePlace, d.who, .gridFill gr f (g.rule f) (tget 0 g.const f) step n out⟩ ∈
        (u.part p).pend) ∧
      ∀ j, 1 ≤ j → j ≤ 8 → keeps (h.stamp (1 - b) f j) (g.stamp (1 - b) f j) ∧
        h.stamp b f j = if g.exchanging f = true ∧ ¬ sends ∧ j ≤ dH g.desc f ∧ (j : Int) ≤ kept then some step else g.stamp b f j

/-- What lands where (06 R130, R137, 05 R115, R116, 15 R294): a result lands in its register, in no other of its register file and in
nothing else of its core, x0 keeps its zero, a masked row keeps the bits outside its mask, an entry lands in its own queue place; and a
write changes the bytes it names, in the bits its mask selects, and no other byte of any pocket, ring store, HBM or host memory, nor
any register; every partition that runs, does not move with the writer and is not on the edge of the write has it as an arrival, which
lands after its own writes of that tick (15 R295, R296; log entry 64). Work in flight does what its rule says at the tick it falls due
(05 R117, 07 R167, R182, R184, 08 R194 to R196, R203): a sampled load takes the bytes of its place, an injection stands on its track, a tap
and a bank take what they injected or find an empty tap, a store's bytes are written; and a GADV advances its grid (14 R281, R283, R290).
Over tables and memories in their canonical form. -/
def Obligations.LandingsChangeWhatTheyName : Prop :=
  (∀ (k : Core) (v : PWord), k.land (.x 0 v) = k ∧ k.getX 0 = ⟨0, false⟩) ∧
  (∀ (k : Core) (r j : Nat) (v : PWord), r ≠ 0 → risingFrom none k.x = true →
    (k.land (.x r v)).getX j = if j = r then v else k.getX j) ∧
  (∀ (k : Core) (r j : Nat) (v : PWord), risingFrom none k.c = true → (k.land (.c r v)).getC j = if j = r then v else k.getC j) ∧
  (∀ (k : Core) (r j : Nat) (v : Word), risingFrom none k.mb = true → (k.land (.mailbox r v)).getMb j = if j = r then v else k.getMb j) ∧
  (∀ (k : Core) (r j : Nat) (v : PWord), risingFrom none k.k = true → (k.land (.k r v)).getK j = if j = r then v else k.getK j) ∧
  (∀ (k : Core) (r j : Nat) (val mask : Row) (p : Bool), risingFrom none k.v = true → (∀ i : Nat, i < 512 →
      ((k.land (.v r val mask p)).getV j).v.getLsbD i =
        if j = r && mask.getLsbD i then val.getLsbD i else (k.getV j).v.getLsbD i) ∧
      ((k.land (.v r val mask p)).getV j).p = if j = r then p || ((k.getV r).p && mask != BitVec.allOnes 512) else (k.getV j).p) ∧
  (∀ (k : Core) (g j : Nat) (b : Bool), g < 8 → j < 8 → (k.land (.guard g b)).guards.getLsbD j = if j = g then b else k.guards.getLsbD j) ∧
  (∀ (k : Core) (g j : Nat) (b : Bool), g < 16 → j < 16 → (k.land (.flag g b)).flags.getLsbD j = if j = g then b else k.flags.getLsbD j) ∧
  (∀ (k : Core) (q i : Nat) (v : Row) (p : Bool), risingFrom none k.queues = true → (k.land (.queue q i v p)).getQueue q =
    (k.getQueue q).map fun e => if e.id = i then { e with v := v, p := p, landed := true } else e) ∧
  (∀ (k : Core) (r : Nat) (v : PWord) (w : Word) (b : Bool) (val mask : Row) (i : Nat),
    { k.land (.x r v) with x := k.x } = k ∧ { k.land (.c r v) with c := k.c } = k ∧ { k.land (.mailbox r w) with mb := k.mb } = k ∧
    { k.land (.k r v) with k := k.k } = k ∧ { k.land (.v r val mask b) with v := k.v } = k ∧
    { k.land (.guard r b) with guards := k.guards } = k ∧ { k.land (.flag r b) with flags := k.flags } = k ∧
    { k.land (.queue r i val b) with queues := k.queues } = k) ∧
  (∀ (k : Core) (r j : Nat) (v : BitVec 128) (i : Nat), risingFrom none k.st = true → i < 256 →
    ((k.land (.cursor r v)).getSt j).getLsbD i = (if j = r ∧ i < 128 then v.getLsbD i else (k.getSt j).getLsbD i) ∧
    { k.land (.cursor r v) with st := k.st } = k) ∧
  (∀ (k : Core) (v : Word) (n : Nat), k.land (.csr 0x001 v) = { k with fflags := v &&& 31 } ∧
    k.land (.csr 0x020 v) = { k with tvec := v &&& 0xFFF } ∧ k.land (.csr 0x040 v) = { k with mgate := v } ∧
    k.land (.csr 0x030 v) = { k with vstat := (v &&& 0xFF0) ||| (k.vstat &&& 5 &&& ~~~v) } ∧
    (n ∉ [0x001, 0x020, 0x030, 0x040] → k.land (.csr n v) = k)) ∧
  (∀ (s : State) (p : Nat) (d : Due), worksWhenDue s p d ∧ advancesGrid s p d) ∧
  (∀ (s : State) (p : Nat) (b : Machine.Bytes) (l : List Byte) (mask : Nat) (q : Bool), (s.part p).fresh = [] →
    s.landWrite p b l mask q = s.performWrite (some p) b l mask q) ∧
  (∀ (s : State) (p : Option Nat) (b : Machine.Bytes) (l : List Byte) (mask : Nat) (q : Bool),
    ((∃ c o, b = .pocket c o ∨ b = .ring c o) ∨ ∃ a, b = .hbm a ∨ b = .host a) → Memory.wf (storeOf s b) = true →
    let u := s.performWrite p b l mask q
    let o := b.split.2
    (∀ a, a < o ∨ o + l.length ≤ a → Memory.read (storeOf u b) a = Memory.read (storeOf s b) a) ∧
    (∀ i < l.length, Memory.read (storeOf u b) (o + i) =
      ((l.getD i 0) &&& BitVec.ofNat 8 (mask / 2 ^ (8 * i))) |||
        (Memory.read (storeOf s b) (o + i) &&& ~~~(BitVec.ofNat 8 (mask / 2 ^ (8 * i))))) ∧
    (∀ e : Machine.Bytes, e.split.1 ≠ b.split.1 → storeOf u e = storeOf s e) ∧
    (∀ d, { u.core d with pocket := (s.core d).pocket, ring := (s.core d).ring, pocketP := (s.core d).pocketP,
                          ringP := (s.core d).ringP } = s.core d) ∧
    (∀ r, { u.part r with fresh := (s.part r).fresh } = s.part r) ∧
    { u with cores := s.cores, parts := s.parts, hbm := s.hbm, hostMem := s.hostMem, marks := s.marks } = s ∧
    (∀ (r : Nat) (k : Machine.Part), tfind s.parts r = some k → k.live = true → (∀ m, p = some m → s.sameGroup m r = false) →
      (∀ e ∈ s.edge, s.sameGroup e r = false) → (u.part r).fresh = k.fresh ++ [⟨b, mask % 2 ^ (8 * l.length), q⟩])) ∧
  (∀ (s : State) (p c o : Nat) (l : List Byte) (mask : Nat) (q r : Bool), (s.part p).live = true → mask ≠ 0 →
    mask < 2 ^ (8 * l.length) → (⟨.pocket c o, 2 ^ (8 * l.length) - 1, r⟩ : Arrived) ∈ (s.part p).fresh →
    s.landWrite p (.pocket c o) l mask q = s)

/-- THE INVARIANT. Every step keeps every memory in its canonical form, so that equal contents are equal data.
The form is the model's (log entry 4). -/
def Obligations.MemoriesStayCanonical : Prop :=
  ∀ s t : State, canonical s → step s = .next t → canonical t
end

