-- ==== Sys2Proof/Laws/Tables.lean ====
section
/-! SUPPORT. The laws of tables and memories: reading after writing, and the canonical form that every write keeps. -/

namespace Sys2Proof.Machine

/-! ### Tables -/

variable {α : Type}

theorem tfind_tput (t : Tbl α) (k k' : Nat) (v : α) :
    tfind (tput t k v) k' = if k' = k then some v else tfind t k' := by
  induction t with
  | nil => simp [tput, tfind]
  | cons e t ih =>
    obtain ⟨a, w⟩ := e
    simp only [tput]
    by_cases h1 : k = a
    · subst h1; by_cases h : k' = k <;> simp [tfind, h]
    · by_cases h2 : k < a
      · simp only [h1, h2, if_false, if_true, tfind]
        by_cases h : k' = k
        · simp [h]
        · by_cases h3 : k' < k
          · have : k' ≠ a := by omega
            have : k' < a := by omega
            simp [*]
          · simp [h, h3]
      · simp only [h1, h2, if_false, tfind, ih]
        by_cases h : k' = k
        · have : k' ≠ a := by omega
          have : ¬ k' < a := by omega
          simp [*]
        · simp [h]

theorem tget_tput (d : α) (t : Tbl α) (k k' : Nat) (v : α) :
    tget d (tput t k v) k' = if k' = k then v else tget d t k' := by
  unfold tget; rw [tfind_tput]; by_cases h : k' = k <;> simp [h]

@[simp] theorem tget_tput_self (d : α) (t : Tbl α) (k : Nat) (v : α) : tget d (tput t k v) k = v := by
  simp [tget_tput]

theorem tget_tput_ne (d : α) (t : Tbl α) {k k' : Nat} (v : α) (h : k' ≠ k) : tget d (tput t k v) k' = tget d t k' := by
  simp [tget_tput, h]

@[simp] theorem tput_tput (t : Tbl α) (k : Nat) (v w : α) : tput (tput t k v) k w = tput t k w := by
  induction t with
  | nil => simp [tput]
  | cons e t ih =>
    obtain ⟨a, u⟩ := e
    by_cases h1 : k = a
    · subst h1; simp [tput]
    · by_cases h2 : k < a <;> simp [tput, h1, h2, ih]

@[simp] theorem tget_nil (d : α) (k : Nat) : tget d ([] : Tbl α) k = d := rfl

/-! ### Rising indexes -/

theorem risingFrom_weaken (t : Tbl α) {a b : Nat} (h : risingFrom (some b) t = true) (hab : a ≤ b) :
    risingFrom (some a) t = true := by
  cases t with
  | nil => rfl
  | cons e t =>
    simp only [risingFrom, Bool.and_eq_true, decide_eq_true_eq] at h ⊢
    exact ⟨by omega, h.2⟩

theorem risingFrom_none_of_some (t : Tbl α) {a : Nat} (h : risingFrom (some a) t = true) : risingFrom none t = true := by
  cases t with
  | nil => rfl
  | cons e t =>
    simp only [risingFrom, Bool.and_eq_true] at h ⊢
    exact h.2

/-- Below the first index of a rising table nothing is listed. -/
theorem tfind_eq_none (t : Tbl α) {k : Nat} (h : risingFrom (some k) t = true) : tfind t k = none := by
  cases t with
  | nil => rfl
  | cons e t =>
    obtain ⟨a, v⟩ := e
    simp only [risingFrom, Bool.and_eq_true, decide_eq_true_eq] at h
    have h1 : ¬ k = a := by omega
    simp [tfind, h1, h.1]

theorem risingFrom_tput (t : Tbl α) (lo k : Nat) (v : α) (h : risingFrom (some lo) t = true) (hk : lo < k) :
    risingFrom (some lo) (tput t k v) = true := by
  induction t generalizing lo with
  | nil => simp [tput, risingFrom, hk]
  | cons e t ih =>
    obtain ⟨a, w⟩ := e
    simp only [risingFrom, Bool.and_eq_true, decide_eq_true_eq] at h
    by_cases h1 : k = a
    · subst h1; simp [tput, risingFrom, h.1, h.2]
    · by_cases h2 : k < a
      · simp [tput, h1, h2, risingFrom, hk, h.2]
      · simp only [tput, h1, h2, if_false, risingFrom, Bool.and_eq_true, decide_eq_true_eq]
        exact ⟨h.1, ih a h.2 (by omega)⟩

theorem risingFrom_none_tput (t : Tbl α) (k : Nat) (v : α) (h : risingFrom none t = true) :
    risingFrom none (tput t k v) = true := by
  cases t with
  | nil => rfl
  | cons e t =>
    obtain ⟨a, w⟩ := e
    simp only [risingFrom] at h
    by_cases h1 : k = a
    · subst h1; simpa [tput, risingFrom] using h
    · by_cases h2 : k < a
      · simp [tput, h1, h2, risingFrom, h]
      · simp only [tput, h1, h2, if_false, risingFrom]
        exact risingFrom_tput t a k v h (by omega)

theorem risingFrom_tdel (t : Tbl α) (lo k : Nat) (h : risingFrom (some lo) t = true) :
    risingFrom (some lo) (tdel t k) = true := by
  induction t generalizing lo with
  | nil => rfl
  | cons e t ih =>
    obtain ⟨a, w⟩ := e
    have h' := h
    simp only [risingFrom, Bool.and_eq_true, decide_eq_true_eq] at h
    by_cases h1 : k = a
    · simp only [tdel, h1, if_true]; exact risingFrom_weaken t h.2 (by omega)
    · by_cases h2 : k < a
      · simpa [tdel, h1, h2] using h'
      · simp only [tdel, h1, h2, if_false, risingFrom, Bool.and_eq_true, decide_eq_true_eq]
        exact ⟨h.1, ih a h.2⟩

theorem risingFrom_none_tdel (t : Tbl α) (k : Nat) (h : risingFrom none t = true) : risingFrom none (tdel t k) = true := by
  cases t with
  | nil => rfl
  | cons e t =>
    obtain ⟨a, w⟩ := e
    have h' := h
    simp only [risingFrom] at h
    by_cases h1 : k = a
    · simp only [tdel, h1, if_true]; exact risingFrom_none_of_some t h
    · by_cases h2 : k < a
      · simpa [tdel, h1, h2] using h'
      · simp only [tdel, h1, h2, if_false, risingFrom]
        exact risingFrom_tdel t a k h

/-- Unlisting an index of a rising table. -/
theorem tfind_tdel_from (t : Tbl α) (lo k k' : Nat) (h : risingFrom (some lo) t = true) :
    tfind (tdel t k) k' = if k' = k then none else tfind t k' := by
  induction t generalizing lo with
  | nil => simp [tdel, tfind]
  | cons e t ih =>
    obtain ⟨a, w⟩ := e
    simp only [risingFrom, Bool.and_eq_true, decide_eq_true_eq] at h
    by_cases h1 : k = a
    · subst h1
      simp only [tdel, if_true]
      by_cases hk : k' = k
      · simp [hk, tfind_eq_none t h.2]
      · simp only [hk, if_false, tfind]
        by_cases h3 : k' < k
        · simp [h3, tfind_eq_none t (risingFrom_weaken t h.2 (by omega : k' ≤ k))]
        · simp [h3]
    · by_cases h2 : k < a
      · simp only [tdel, h1, h2, if_true, if_false]
        by_cases hk : k' = k
        · have : ¬ k' = a := by omega
          have : k' < a := by omega
          simp [tfind, *]
        · simp [hk]
      · simp only [tdel, h1, h2, if_false, tfind, ih a h.2]
        by_cases hk : k' = k
        · have : ¬ k' = a := by omega
          have : ¬ k' < a := by omega
          simp [*]
        · simp [hk]

theorem tfind_tdel (t : Tbl α) (k k' : Nat) (h : risingFrom none t = true) :
    tfind (tdel t k) k' = if k' = k then none else tfind t k' := by
  cases t with
  | nil => simp [tdel, tfind]
  | cons e t =>
    obtain ⟨a, w⟩ := e
    simp only [risingFrom] at h
    by_cases ha : a = 0
    · subst ha
      by_cases h1 : k = 0
      · subst h1
        simp only [tdel, if_true]
        by_cases hk : k' = 0
        · simp [hk, tfind_eq_none t h]
        · simp [hk, tfind]
      · simp only [tdel, h1, Nat.not_lt_zero, if_false, tfind, tfind_tdel_from t 0 k k' h]
        by_cases hk : k' = k
        · subst hk; simp [h1]
        · simp [hk]
    · exact tfind_tdel_from ((a, w) :: t) 0 k k' (by simp only [risingFrom, Bool.and_eq_true, decide_eq_true_eq]; exact ⟨by omega, h⟩)

theorem tget_tset [DecidableEq α] (d : α) (t : Tbl α) (k k' : Nat) (v : α) (h : risingFrom none t = true) :
    tget d (tset d t k v) k' = if k' = k then v else tget d t k' := by
  unfold tset
  by_cases hv : v = d
  · simp only [hv, if_true, tget, tfind_tdel t k k' h]
    by_cases hk : k' = k <;> simp [hk]
  · simp [hv, tget_tput]

/-! ### Memories -/

theorem Memory.read_write (m : Memory) (a a' : Nat) (b : Byte) (h : Memory.wf m = true) :
    Memory.read (Memory.write m a b) a' = if a' = a then b else Memory.read m a' := by
  simp only [Memory.wf, Bool.and_eq_true] at h
  exact tget_tset 0 m a a' b h.1

theorem all_tput (t : Tbl α) (q : Nat × α → Bool) (k : Nat) (v : α) (h : t.all q = true) (hv : q (k, v) = true) :
    (tput t k v).all q = true := by
  induction t with
  | nil => simp [tput, hv]
  | cons e t ih =>
    obtain ⟨a, w⟩ := e
    simp only [List.all_cons, Bool.and_eq_true] at h
    by_cases h1 : k = a
    · simp only [tput, h1, if_true, List.all_cons, Bool.and_eq_true]; exact ⟨h1 ▸ hv, h.2⟩
    · by_cases h2 : k < a
      · simp [tput, h1, h2, hv, h.1, h.2]
      · simp only [tput, h1, h2, if_false, List.all_cons, Bool.and_eq_true]; exact ⟨h.1, ih h.2⟩

theorem all_tdel (t : Tbl α) (q : Nat × α → Bool) (k : Nat) (h : t.all q = true) : (tdel t k).all q = true := by
  induction t with
  | nil => rfl
  | cons e t ih =>
    obtain ⟨a, w⟩ := e
    have h' := h
    simp only [List.all_cons, Bool.and_eq_true] at h
    by_cases h1 : k = a
    · simp [tdel, h1, h.2]
    · by_cases h2 : k < a
      · simpa [tdel, h1, h2] using h'
      · simp only [tdel, h1, h2, if_false, List.all_cons, Bool.and_eq_true]; exact ⟨h.1, ih h.2⟩

/-- A write keeps the canonical form. -/
theorem Memory.wf_write (m : Memory) (a : Nat) (b : Byte) (h : Memory.wf m = true) : Memory.wf (Memory.write m a b) = true := by
  simp only [Memory.wf, Bool.and_eq_true] at h ⊢
  unfold Memory.write tset
  by_cases hb : b = 0
  · simp only [hb, if_true]; exact ⟨risingFrom_none_tdel m a h.1, all_tdel m _ a h.2⟩
  · simp only [hb, if_false]
    exact ⟨risingFrom_none_tput m a b h.1, all_tput m _ a b h.2 (by simpa using hb)⟩

theorem Memory.wf_writeBytes (m : Memory) (a : Nat) (l : List Byte) (h : Memory.wf m = true) :
    Memory.wf (Memory.writeBytes m a l) = true := by
  induction l generalizing m a with
  | nil => exact h
  | cons b l ih => exact ih _ _ (Memory.wf_write m a b h)

theorem Memory.wf_writeCells (m : Memory) (l : List (Nat × Byte)) (h : Memory.wf m = true) :
    Memory.wf (Memory.writeCells m l) = true := by
  induction l generalizing m with
  | nil => exact h
  | cons e l ih => exact ih _ (Memory.wf_write m e.1 e.2 h)

/-- A run of writes leaves every byte outside it alone. -/
theorem Memory.read_writeBytes_outside (m : Memory) (a : Nat) (l : List Byte) (x : Nat) (h : Memory.wf m = true)
    (hx : x < a ∨ a + l.length ≤ x) : Memory.read (Memory.writeBytes m a l) x = Memory.read m x := by
  induction l generalizing m a with
  | nil => rfl
  | cons b l ih =>
    simp only [List.length_cons] at hx
    have hne : ¬ x = a := by omega
    simp only [Memory.writeBytes]
    rw [ih _ _ (Memory.wf_write m a b h) (by omega), Memory.read_write m a x b h, if_neg hne]

/-- Reading back a run that was just written. -/
theorem Memory.readBytes_writeBytes (m : Memory) (a : Nat) (l : List Byte) (h : Memory.wf m = true) :
    Memory.readBytes (Memory.writeBytes m a l) a l.length = l := by
  induction l generalizing m a with
  | nil => rfl
  | cons b l ih =>
    simp only [Memory.writeBytes, List.length_cons, Memory.readBytes]
    rw [ih _ _ (Memory.wf_write m a b h), Memory.read_writeBytes_outside _ _ _ _ (Memory.wf_write m a b h) (by omega),
      Memory.read_write m a a b h, if_pos rfl]

theorem Memory.read_writeCells_outside (m : Memory) (l : List (Nat × Byte)) (x : Nat) (h : Memory.wf m = true)
    (hx : ∀ e ∈ l, x ≠ e.1) : Memory.read (Memory.writeCells m l) x = Memory.read m x := by
  induction l generalizing m with
  | nil => rfl
  | cons e l ih =>
    simp only [Memory.writeCells]
    rw [ih _ (Memory.wf_write m e.1 e.2 h) (fun y hy => hx y (List.mem_cons_of_mem _ hy)), Memory.read_write m _ x _ h,
      if_neg (hx e (List.mem_cons_self))]

end Sys2Proof.Machine
end

