-- ==== Sys2Proof/Laws/State.lean ====
section
/-! SUPPORT. What each update of the state leaves alone, one lemma for each field and update, and what reading a core, a
partition or an entry gives after each update. -/

namespace Sys2Proof.Machine

/-! ### popItem -/

@[simp] theorem State.popItem_cores (s : State) : (s.popItem).cores = s.cores := rfl
@[simp] theorem State.popItem_parts (s : State) : (s.popItem).parts = s.parts := rfl
@[simp] theorem State.popItem_hbm (s : State) : (s.popItem).hbm = s.hbm := rfl
@[simp] theorem State.popItem_hostMem (s : State) : (s.popItem).hostMem = s.hostMem := rfl
@[simp] theorem State.popItem_dieTlb (s : State) : (s.popItem).dieTlb = s.dieTlb := rfl
@[simp] theorem State.popItem_wall (s : State) : (s.popItem).wall = s.wall := rfl
@[simp] theorem State.popItem_tsrc (s : State) : (s.popItem).tsrc = s.tsrc := rfl
@[simp] theorem State.popItem_tport (s : State) : (s.popItem).tport = s.tport := rfl
@[simp] theorem State.popItem_toff (s : State) : (s.popItem).toff = s.toff := rfl
@[simp] theorem State.popItem_lock (s : State) : (s.popItem).lock = s.lock := rfl
@[simp] theorem State.popItem_wbase (s : State) : (s.popItem).wbase = s.wbase := rfl
@[simp] theorem State.popItem_plimit (s : State) : (s.popItem).plimit = s.plimit := rfl
@[simp] theorem State.popItem_tjlimit (s : State) : (s.popItem).tjlimit = s.tjlimit := rfl
@[simp] theorem State.popItem_fcap (s : State) : (s.popItem).fcap = s.fcap := rfl
@[simp] theorem State.popItem_pnow (s : State) : (s.popItem).pnow = s.pnow := rfl
@[simp] theorem State.popItem_temp (s : State) : (s.popItem).temp = s.temp := rfl
@[simp] theorem State.popItem_coolAt (s : State) : (s.popItem).coolAt = s.coolAt := rfl
@[simp] theorem State.popItem_freq (s : State) : (s.popItem).freq = s.freq := rfl
@[simp] theorem State.popItem_stepAt (s : State) : (s.popItem).stepAt = s.stepAt := rfl
@[simp] theorem State.popItem_bar4Log (s : State) : (s.popItem).bar4Log = s.bar4Log := rfl
@[simp] theorem State.popItem_ready (s : State) : (s.popItem).ready = s.ready := rfl
@[simp] theorem State.popItem_hivreq (s : State) : (s.popItem).hivreq = s.hivreq := rfl
@[simp] theorem State.popItem_hivgnt (s : State) : (s.popItem).hivgnt = s.hivgnt := rfl
@[simp] theorem State.popItem_diagWord (s : State) : (s.popItem).diagWord = s.diagWord := rfl
@[simp] theorem State.popItem_diagCount (s : State) : (s.popItem).diagCount = s.diagCount := rfl
@[simp] theorem State.popItem_entries (s : State) : (s.popItem).entries = s.entries := rfl
@[simp] theorem State.popItem_groups (s : State) : (s.popItem).groups = s.groups := rfl
@[simp] theorem State.popItem_arrivals (s : State) : (s.popItem).arrivals = s.arrivals := rfl
@[simp] theorem State.popItem_iqWords (s : State) : (s.popItem).iqWords = s.iqWords := rfl
@[simp] theorem State.popItem_iq (s : State) : (s.popItem).iq = s.iq := rfl
@[simp] theorem State.popItem_iqDrop (s : State) : (s.popItem).iqDrop = s.iqDrop := rfl
@[simp] theorem State.popItem_iqAcks (s : State) : (s.popItem).iqAcks = s.iqAcks := rfl
@[simp] theorem State.popItem_mismatch (s : State) : (s.popItem).mismatch = s.mismatch := rfl
@[simp] theorem State.popItem_objects (s : State) : (s.popItem).objects = s.objects := rfl
@[simp] theorem State.popItem_nextHandle (s : State) : (s.popItem).nextHandle = s.nextHandle := rfl
@[simp] theorem State.popItem_heap (s : State) : (s.popItem).heap = s.heap := rfl
@[simp] theorem State.popItem_plan (s : State) : (s.popItem).plan = s.plan := rfl
@[simp] theorem State.popItem_slots (s : State) : (s.popItem).slots = s.slots := rfl
@[simp] theorem State.popItem_ports (s : State) : (s.popItem).ports = s.ports := rfl
@[simp] theorem State.popItem_sites (s : State) : (s.popItem).sites = s.sites := rfl
@[simp] theorem State.popItem_contribs (s : State) : (s.popItem).contribs = s.contribs := rfl
@[simp] theorem State.popItem_heldBack (s : State) : (s.popItem).heldBack = s.heldBack := rfl
@[simp] theorem State.popItem_modNum (s : State) : (s.popItem).modNum = s.modNum := rfl
@[simp] theorem State.popItem_irqs (s : State) : (s.popItem).irqs = s.irqs := rfl
@[simp] theorem State.popItem_outbox (s : State) : (s.popItem).outbox = s.outbox := rfl
@[simp] theorem State.popItem_readback (s : State) : (s.popItem).readback = s.readback := rfl
@[simp] theorem State.popItem_inbox (s : State) : (s.popItem).inbox = s.inbox := rfl
@[simp] theorem State.popItem_marks (s : State) : (s.popItem).marks = s.marks := rfl
@[simp] theorem State.popItem_edge (s : State) : (s.popItem).edge = s.edge := rfl
@[simp] theorem State.popItem_free (s : State) : (s.popItem).free = s.free := rfl
@[simp] theorem State.popItem_turn (s : State) : (s.popItem).turn = s.turn := rfl
@[simp] theorem State.popItem_undo (s : State) : (s.popItem).undo = s.undo := rfl

/-! ### setCore -/

@[simp] theorem State.setCore_parts (s : State) (c : Nat) (k : Core) : (s.setCore c k).parts = s.parts := rfl
@[simp] theorem State.setCore_hbm (s : State) (c : Nat) (k : Core) : (s.setCore c k).hbm = s.hbm := rfl
@[simp] theorem State.setCore_hostMem (s : State) (c : Nat) (k : Core) : (s.setCore c k).hostMem = s.hostMem := rfl
@[simp] theorem State.setCore_dieTlb (s : State) (c : Nat) (k : Core) : (s.setCore c k).dieTlb = s.dieTlb := rfl
@[simp] theorem State.setCore_wall (s : State) (c : Nat) (k : Core) : (s.setCore c k).wall = s.wall := rfl
@[simp] theorem State.setCore_tsrc (s : State) (c : Nat) (k : Core) : (s.setCore c k).tsrc = s.tsrc := rfl
@[simp] theorem State.setCore_tport (s : State) (c : Nat) (k : Core) : (s.setCore c k).tport = s.tport := rfl
@[simp] theorem State.setCore_toff (s : State) (c : Nat) (k : Core) : (s.setCore c k).toff = s.toff := rfl
@[simp] theorem State.setCore_lock (s : State) (c : Nat) (k : Core) : (s.setCore c k).lock = s.lock := rfl
@[simp] theorem State.setCore_wbase (s : State) (c : Nat) (k : Core) : (s.setCore c k).wbase = s.wbase := rfl
@[simp] theorem State.setCore_plimit (s : State) (c : Nat) (k : Core) : (s.setCore c k).plimit = s.plimit := rfl
@[simp] theorem State.setCore_tjlimit (s : State) (c : Nat) (k : Core) : (s.setCore c k).tjlimit = s.tjlimit := rfl
@[simp] theorem State.setCore_fcap (s : State) (c : Nat) (k : Core) : (s.setCore c k).fcap = s.fcap := rfl
@[simp] theorem State.setCore_pnow (s : State) (c : Nat) (k : Core) : (s.setCore c k).pnow = s.pnow := rfl
@[simp] theorem State.setCore_temp (s : State) (c : Nat) (k : Core) : (s.setCore c k).temp = s.temp := rfl
@[simp] theorem State.setCore_coolAt (s : State) (c : Nat) (k : Core) : (s.setCore c k).coolAt = s.coolAt := rfl
@[simp] theorem State.setCore_freq (s : State) (c : Nat) (k : Core) : (s.setCore c k).freq = s.freq := rfl
@[simp] theorem State.setCore_stepAt (s : State) (c : Nat) (k : Core) : (s.setCore c k).stepAt = s.stepAt := rfl
@[simp] theorem State.setCore_bar4Log (s : State) (c : Nat) (k : Core) : (s.setCore c k).bar4Log = s.bar4Log := rfl
@[simp] theorem State.setCore_ready (s : State) (c : Nat) (k : Core) : (s.setCore c k).ready = s.ready := rfl
@[simp] theorem State.setCore_hivreq (s : State) (c : Nat) (k : Core) : (s.setCore c k).hivreq = s.hivreq := rfl
@[simp] theorem State.setCore_hivgnt (s : State) (c : Nat) (k : Core) : (s.setCore c k).hivgnt = s.hivgnt := rfl
@[simp] theorem State.setCore_diagWord (s : State) (c : Nat) (k : Core) : (s.setCore c k).diagWord = s.diagWord := rfl
@[simp] theorem State.setCore_diagCount (s : State) (c : Nat) (k : Core) : (s.setCore c k).diagCount = s.diagCount := rfl
@[simp] theorem State.setCore_entries (s : State) (c : Nat) (k : Core) : (s.setCore c k).entries = s.entries := rfl
@[simp] theorem State.setCore_groups (s : State) (c : Nat) (k : Core) : (s.setCore c k).groups = s.groups := rfl
@[simp] theorem State.setCore_arrivals (s : State) (c : Nat) (k : Core) : (s.setCore c k).arrivals = s.arrivals := rfl
@[simp] theorem State.setCore_iqWords (s : State) (c : Nat) (k : Core) : (s.setCore c k).iqWords = s.iqWords := rfl
@[simp] theorem State.setCore_iq (s : State) (c : Nat) (k : Core) : (s.setCore c k).iq = s.iq := rfl
@[simp] theorem State.setCore_iqDrop (s : State) (c : Nat) (k : Core) : (s.setCore c k).iqDrop = s.iqDrop := rfl
@[simp] theorem State.setCore_iqAcks (s : State) (c : Nat) (k : Core) : (s.setCore c k).iqAcks = s.iqAcks := rfl
@[simp] theorem State.setCore_mismatch (s : State) (c : Nat) (k : Core) : (s.setCore c k).mismatch = s.mismatch := rfl
@[simp] theorem State.setCore_objects (s : State) (c : Nat) (k : Core) : (s.setCore c k).objects = s.objects := rfl
@[simp] theorem State.setCore_nextHandle (s : State) (c : Nat) (k : Core) : (s.setCore c k).nextHandle = s.nextHandle := rfl
@[simp] theorem State.setCore_heap (s : State) (c : Nat) (k : Core) : (s.setCore c k).heap = s.heap := rfl
@[simp] theorem State.setCore_plan (s : State) (c : Nat) (k : Core) : (s.setCore c k).plan = s.plan := rfl
@[simp] theorem State.setCore_slots (s : State) (c : Nat) (k : Core) : (s.setCore c k).slots = s.slots := rfl
@[simp] theorem State.setCore_ports (s : State) (c : Nat) (k : Core) : (s.setCore c k).ports = s.ports := rfl
@[simp] theorem State.setCore_sites (s : State) (c : Nat) (k : Core) : (s.setCore c k).sites = s.sites := rfl
@[simp] theorem State.setCore_contribs (s : State) (c : Nat) (k : Core) : (s.setCore c k).contribs = s.contribs := rfl
@[simp] theorem State.setCore_heldBack (s : State) (c : Nat) (k : Core) : (s.setCore c k).heldBack = s.heldBack := rfl
@[simp] theorem State.setCore_modNum (s : State) (c : Nat) (k : Core) : (s.setCore c k).modNum = s.modNum := rfl
@[simp] theorem State.setCore_irqs (s : State) (c : Nat) (k : Core) : (s.setCore c k).irqs = s.irqs := rfl
@[simp] theorem State.setCore_outbox (s : State) (c : Nat) (k : Core) : (s.setCore c k).outbox = s.outbox := rfl
@[simp] theorem State.setCore_readback (s : State) (c : Nat) (k : Core) : (s.setCore c k).readback = s.readback := rfl
@[simp] theorem State.setCore_agenda (s : State) (c : Nat) (k : Core) : (s.setCore c k).agenda = s.agenda := rfl
@[simp] theorem State.setCore_inbox (s : State) (c : Nat) (k : Core) : (s.setCore c k).inbox = s.inbox := rfl
@[simp] theorem State.setCore_marks (s : State) (c : Nat) (k : Core) : (s.setCore c k).marks = s.marks := rfl
@[simp] theorem State.setCore_edge (s : State) (c : Nat) (k : Core) : (s.setCore c k).edge = s.edge := rfl
@[simp] theorem State.setCore_free (s : State) (c : Nat) (k : Core) : (s.setCore c k).free = s.free := rfl
@[simp] theorem State.setCore_turn (s : State) (c : Nat) (k : Core) : (s.setCore c k).turn = s.turn := rfl
@[simp] theorem State.setCore_undo (s : State) (c : Nat) (k : Core) : (s.setCore c k).undo = s.undo := rfl

/-! ### modCore -/

@[simp] theorem State.modCore_parts (s : State) (c : Nat) (f : Core → Core) : (s.modCore c f).parts = s.parts := rfl
@[simp] theorem State.modCore_hbm (s : State) (c : Nat) (f : Core → Core) : (s.modCore c f).hbm = s.hbm := rfl
@[simp] theorem State.modCore_hostMem (s : State) (c : Nat) (f : Core → Core) : (s.modCore c f).hostMem = s.hostMem := rfl
@[simp] theorem State.modCore_dieTlb (s : State) (c : Nat) (f : Core → Core) : (s.modCore c f).dieTlb = s.dieTlb := rfl
@[simp] theorem State.modCore_wall (s : State) (c : Nat) (f : Core → Core) : (s.modCore c f).wall = s.wall := rfl
@[simp] theorem State.modCore_tsrc (s : State) (c : Nat) (f : Core → Core) : (s.modCore c f).tsrc = s.tsrc := rfl
@[simp] theorem State.modCore_tport (s : State) (c : Nat) (f : Core → Core) : (s.modCore c f).tport = s.tport := rfl
@[simp] theorem State.modCore_toff (s : State) (c : Nat) (f : Core → Core) : (s.modCore c f).toff = s.toff := rfl
@[simp] theorem State.modCore_lock (s : State) (c : Nat) (f : Core → Core) : (s.modCore c f).lock = s.lock := rfl
@[simp] theorem State.modCore_wbase (s : State) (c : Nat) (f : Core → Core) : (s.modCore c f).wbase = s.wbase := rfl
@[simp] theorem State.modCore_plimit (s : State) (c : Nat) (f : Core → Core) : (s.modCore c f).plimit = s.plimit := rfl
@[simp] theorem State.modCore_tjlimit (s : State) (c : Nat) (f : Core → Core) : (s.modCore c f).tjlimit = s.tjlimit := rfl
@[simp] theorem State.modCore_fcap (s : State) (c : Nat) (f : Core → Core) : (s.modCore c f).fcap = s.fcap := rfl
@[simp] theorem State.modCore_pnow (s : State) (c : Nat) (f : Core → Core) : (s.modCore c f).pnow = s.pnow := rfl
@[simp] theorem State.modCore_temp (s : State) (c : Nat) (f : Core → Core) : (s.modCore c f).temp = s.temp := rfl
@[simp] theorem State.modCore_coolAt (s : State) (c : Nat) (f : Core → Core) : (s.modCore c f).coolAt = s.coolAt := rfl
@[simp] theorem State.modCore_freq (s : State) (c : Nat) (f : Core → Core) : (s.modCore c f).freq = s.freq := rfl
@[simp] theorem State.modCore_stepAt (s : State) (c : Nat) (f : Core → Core) : (s.modCore c f).stepAt = s.stepAt := rfl
@[simp] theorem State.modCore_bar4Log (s : State) (c : Nat) (f : Core → Core) : (s.modCore c f).bar4Log = s.bar4Log := rfl
@[simp] theorem State.modCore_ready (s : State) (c : Nat) (f : Core → Core) : (s.modCore c f).ready = s.ready := rfl
@[simp] theorem State.modCore_hivreq (s : State) (c : Nat) (f : Core → Core) : (s.modCore c f).hivreq = s.hivreq := rfl
@[simp] theorem State.modCore_hivgnt (s : State) (c : Nat) (f : Core → Core) : (s.modCore c f).hivgnt = s.hivgnt := rfl
@[simp] theorem State.modCore_diagWord (s : State) (c : Nat) (f : Core → Core) : (s.modCore c f).diagWord = s.diagWord := rfl
@[simp] theorem State.modCore_diagCount (s : State) (c : Nat) (f : Core → Core) : (s.modCore c f).diagCount = s.diagCount := rfl
@[simp] theorem State.modCore_entries (s : State) (c : Nat) (f : Core → Core) : (s.modCore c f).entries = s.entries := rfl
@[simp] theorem State.modCore_groups (s : State) (c : Nat) (f : Core → Core) : (s.modCore c f).groups = s.groups := rfl
@[simp] theorem State.modCore_arrivals (s : State) (c : Nat) (f : Core → Core) : (s.modCore c f).arrivals = s.arrivals := rfl
@[simp] theorem State.modCore_iqWords (s : State) (c : Nat) (f : Core → Core) : (s.modCore c f).iqWords = s.iqWords := rfl
@[simp] theorem State.modCore_iq (s : State) (c : Nat) (f : Core → Core) : (s.modCore c f).iq = s.iq := rfl
@[simp] theorem State.modCore_iqDrop (s : State) (c : Nat) (f : Core → Core) : (s.modCore c f).iqDrop = s.iqDrop := rfl
@[simp] theorem State.modCore_iqAcks (s : State) (c : Nat) (f : Core → Core) : (s.modCore c f).iqAcks = s.iqAcks := rfl
@[simp] theorem State.modCore_mismatch (s : State) (c : Nat) (f : Core → Core) : (s.modCore c f).mismatch = s.mismatch := rfl
@[simp] theorem State.modCore_objects (s : State) (c : Nat) (f : Core → Core) : (s.modCore c f).objects = s.objects := rfl
@[simp] theorem State.modCore_nextHandle (s : State) (c : Nat) (f : Core → Core) : (s.modCore c f).nextHandle = s.nextHandle := rfl
@[simp] theorem State.modCore_heap (s : State) (c : Nat) (f : Core → Core) : (s.modCore c f).heap = s.heap := rfl
@[simp] theorem State.modCore_plan (s : State) (c : Nat) (f : Core → Core) : (s.modCore c f).plan = s.plan := rfl
@[simp] theorem State.modCore_slots (s : State) (c : Nat) (f : Core → Core) : (s.modCore c f).slots = s.slots := rfl
@[simp] theorem State.modCore_ports (s : State) (c : Nat) (f : Core → Core) : (s.modCore c f).ports = s.ports := rfl
@[simp] theorem State.modCore_sites (s : State) (c : Nat) (f : Core → Core) : (s.modCore c f).sites = s.sites := rfl
@[simp] theorem State.modCore_contribs (s : State) (c : Nat) (f : Core → Core) : (s.modCore c f).contribs = s.contribs := rfl
@[simp] theorem State.modCore_heldBack (s : State) (c : Nat) (f : Core → Core) : (s.modCore c f).heldBack = s.heldBack := rfl
@[simp] theorem State.modCore_modNum (s : State) (c : Nat) (f : Core → Core) : (s.modCore c f).modNum = s.modNum := rfl
@[simp] theorem State.modCore_irqs (s : State) (c : Nat) (f : Core → Core) : (s.modCore c f).irqs = s.irqs := rfl
@[simp] theorem State.modCore_outbox (s : State) (c : Nat) (f : Core → Core) : (s.modCore c f).outbox = s.outbox := rfl
@[simp] theorem State.modCore_readback (s : State) (c : Nat) (f : Core → Core) : (s.modCore c f).readback = s.readback := rfl
@[simp] theorem State.modCore_agenda (s : State) (c : Nat) (f : Core → Core) : (s.modCore c f).agenda = s.agenda := rfl
@[simp] theorem State.modCore_inbox (s : State) (c : Nat) (f : Core → Core) : (s.modCore c f).inbox = s.inbox := rfl
@[simp] theorem State.modCore_marks (s : State) (c : Nat) (f : Core → Core) : (s.modCore c f).marks = s.marks := rfl
@[simp] theorem State.modCore_edge (s : State) (c : Nat) (f : Core → Core) : (s.modCore c f).edge = s.edge := rfl
@[simp] theorem State.modCore_free (s : State) (c : Nat) (f : Core → Core) : (s.modCore c f).free = s.free := rfl
@[simp] theorem State.modCore_turn (s : State) (c : Nat) (f : Core → Core) : (s.modCore c f).turn = s.turn := rfl
@[simp] theorem State.modCore_undo (s : State) (c : Nat) (f : Core → Core) : (s.modCore c f).undo = s.undo := rfl

/-! ### setPart -/

@[simp] theorem State.setPart_cores (s : State) (p : Nat) (k : Part) : (s.setPart p k).cores = s.cores := rfl
@[simp] theorem State.setPart_hbm (s : State) (p : Nat) (k : Part) : (s.setPart p k).hbm = s.hbm := rfl
@[simp] theorem State.setPart_hostMem (s : State) (p : Nat) (k : Part) : (s.setPart p k).hostMem = s.hostMem := rfl
@[simp] theorem State.setPart_dieTlb (s : State) (p : Nat) (k : Part) : (s.setPart p k).dieTlb = s.dieTlb := rfl
@[simp] theorem State.setPart_wall (s : State) (p : Nat) (k : Part) : (s.setPart p k).wall = s.wall := rfl
@[simp] theorem State.setPart_tsrc (s : State) (p : Nat) (k : Part) : (s.setPart p k).tsrc = s.tsrc := rfl
@[simp] theorem State.setPart_tport (s : State) (p : Nat) (k : Part) : (s.setPart p k).tport = s.tport := rfl
@[simp] theorem State.setPart_toff (s : State) (p : Nat) (k : Part) : (s.setPart p k).toff = s.toff := rfl
@[simp] theorem State.setPart_lock (s : State) (p : Nat) (k : Part) : (s.setPart p k).lock = s.lock := rfl
@[simp] theorem State.setPart_wbase (s : State) (p : Nat) (k : Part) : (s.setPart p k).wbase = s.wbase := rfl
@[simp] theorem State.setPart_plimit (s : State) (p : Nat) (k : Part) : (s.setPart p k).plimit = s.plimit := rfl
@[simp] theorem State.setPart_tjlimit (s : State) (p : Nat) (k : Part) : (s.setPart p k).tjlimit = s.tjlimit := rfl
@[simp] theorem State.setPart_fcap (s : State) (p : Nat) (k : Part) : (s.setPart p k).fcap = s.fcap := rfl
@[simp] theorem State.setPart_pnow (s : State) (p : Nat) (k : Part) : (s.setPart p k).pnow = s.pnow := rfl
@[simp] theorem State.setPart_temp (s : State) (p : Nat) (k : Part) : (s.setPart p k).temp = s.temp := rfl
@[simp] theorem State.setPart_coolAt (s : State) (p : Nat) (k : Part) : (s.setPart p k).coolAt = s.coolAt := rfl
@[simp] theorem State.setPart_freq (s : State) (p : Nat) (k : Part) : (s.setPart p k).freq = s.freq := rfl
@[simp] theorem State.setPart_stepAt (s : State) (p : Nat) (k : Part) : (s.setPart p k).stepAt = s.stepAt := rfl
@[simp] theorem State.setPart_bar4Log (s : State) (p : Nat) (k : Part) : (s.setPart p k).bar4Log = s.bar4Log := rfl
@[simp] theorem State.setPart_ready (s : State) (p : Nat) (k : Part) : (s.setPart p k).ready = s.ready := rfl
@[simp] theorem State.setPart_hivreq (s : State) (p : Nat) (k : Part) : (s.setPart p k).hivreq = s.hivreq := rfl
@[simp] theorem State.setPart_hivgnt (s : State) (p : Nat) (k : Part) : (s.setPart p k).hivgnt = s.hivgnt := rfl
@[simp] theorem State.setPart_diagWord (s : State) (p : Nat) (k : Part) : (s.setPart p k).diagWord = s.diagWord := rfl
@[simp] theorem State.setPart_diagCount (s : State) (p : Nat) (k : Part) : (s.setPart p k).diagCount = s.diagCount := rfl
@[simp] theorem State.setPart_entries (s : State) (p : Nat) (k : Part) : (s.setPart p k).entries = s.entries := rfl
@[simp] theorem State.setPart_groups (s : State) (p : Nat) (k : Part) : (s.setPart p k).groups = s.groups := rfl
@[simp] theorem State.setPart_arrivals (s : State) (p : Nat) (k : Part) : (s.setPart p k).arrivals = s.arrivals := rfl
@[simp] theorem State.setPart_iqWords (s : State) (p : Nat) (k : Part) : (s.setPart p k).iqWords = s.iqWords := rfl
@[simp] theorem State.setPart_iq (s : State) (p : Nat) (k : Part) : (s.setPart p k).iq = s.iq := rfl
@[simp] theorem State.setPart_iqDrop (s : State) (p : Nat) (k : Part) : (s.setPart p k).iqDrop = s.iqDrop := rfl
@[simp] theorem State.setPart_iqAcks (s : State) (p : Nat) (k : Part) : (s.setPart p k).iqAcks = s.iqAcks := rfl
@[simp] theorem State.setPart_mismatch (s : State) (p : Nat) (k : Part) : (s.setPart p k).mismatch = s.mismatch := rfl
@[simp] theorem State.setPart_objects (s : State) (p : Nat) (k : Part) : (s.setPart p k).objects = s.objects := rfl
@[simp] theorem State.setPart_nextHandle (s : State) (p : Nat) (k : Part) : (s.setPart p k).nextHandle = s.nextHandle := rfl
@[simp] theorem State.setPart_heap (s : State) (p : Nat) (k : Part) : (s.setPart p k).heap = s.heap := rfl
@[simp] theorem State.setPart_plan (s : State) (p : Nat) (k : Part) : (s.setPart p k).plan = s.plan := rfl
@[simp] theorem State.setPart_slots (s : State) (p : Nat) (k : Part) : (s.setPart p k).slots = s.slots := rfl
@[simp] theorem State.setPart_ports (s : State) (p : Nat) (k : Part) : (s.setPart p k).ports = s.ports := rfl
@[simp] theorem State.setPart_sites (s : State) (p : Nat) (k : Part) : (s.setPart p k).sites = s.sites := rfl
@[simp] theorem State.setPart_contribs (s : State) (p : Nat) (k : Part) : (s.setPart p k).contribs = s.contribs := rfl
@[simp] theorem State.setPart_heldBack (s : State) (p : Nat) (k : Part) : (s.setPart p k).heldBack = s.heldBack := rfl
@[simp] theorem State.setPart_modNum (s : State) (p : Nat) (k : Part) : (s.setPart p k).modNum = s.modNum := rfl
@[simp] theorem State.setPart_irqs (s : State) (p : Nat) (k : Part) : (s.setPart p k).irqs = s.irqs := rfl
@[simp] theorem State.setPart_outbox (s : State) (p : Nat) (k : Part) : (s.setPart p k).outbox = s.outbox := rfl
@[simp] theorem State.setPart_readback (s : State) (p : Nat) (k : Part) : (s.setPart p k).readback = s.readback := rfl
@[simp] theorem State.setPart_agenda (s : State) (p : Nat) (k : Part) : (s.setPart p k).agenda = s.agenda := rfl
@[simp] theorem State.setPart_inbox (s : State) (p : Nat) (k : Part) : (s.setPart p k).inbox = s.inbox := rfl
@[simp] theorem State.setPart_marks (s : State) (p : Nat) (k : Part) : (s.setPart p k).marks = s.marks := rfl
@[simp] theorem State.setPart_edge (s : State) (p : Nat) (k : Part) : (s.setPart p k).edge = s.edge := rfl
@[simp] theorem State.setPart_free (s : State) (p : Nat) (k : Part) : (s.setPart p k).free = s.free := rfl
@[simp] theorem State.setPart_turn (s : State) (p : Nat) (k : Part) : (s.setPart p k).turn = s.turn := rfl
@[simp] theorem State.setPart_undo (s : State) (p : Nat) (k : Part) : (s.setPart p k).undo = s.undo := rfl

/-! ### modPart -/

@[simp] theorem State.modPart_cores (s : State) (p : Nat) (f : Part → Part) : (s.modPart p f).cores = s.cores := rfl
@[simp] theorem State.modPart_hbm (s : State) (p : Nat) (f : Part → Part) : (s.modPart p f).hbm = s.hbm := rfl
@[simp] theorem State.modPart_hostMem (s : State) (p : Nat) (f : Part → Part) : (s.modPart p f).hostMem = s.hostMem := rfl
@[simp] theorem State.modPart_dieTlb (s : State) (p : Nat) (f : Part → Part) : (s.modPart p f).dieTlb = s.dieTlb := rfl
@[simp] theorem State.modPart_wall (s : State) (p : Nat) (f : Part → Part) : (s.modPart p f).wall = s.wall := rfl
@[simp] theorem State.modPart_tsrc (s : State) (p : Nat) (f : Part → Part) : (s.modPart p f).tsrc = s.tsrc := rfl
@[simp] theorem State.modPart_tport (s : State) (p : Nat) (f : Part → Part) : (s.modPart p f).tport = s.tport := rfl
@[simp] theorem State.modPart_toff (s : State) (p : Nat) (f : Part → Part) : (s.modPart p f).toff = s.toff := rfl
@[simp] theorem State.modPart_lock (s : State) (p : Nat) (f : Part → Part) : (s.modPart p f).lock = s.lock := rfl
@[simp] theorem State.modPart_wbase (s : State) (p : Nat) (f : Part → Part) : (s.modPart p f).wbase = s.wbase := rfl
@[simp] theorem State.modPart_plimit (s : State) (p : Nat) (f : Part → Part) : (s.modPart p f).plimit = s.plimit := rfl
@[simp] theorem State.modPart_tjlimit (s : State) (p : Nat) (f : Part → Part) : (s.modPart p f).tjlimit = s.tjlimit := rfl
@[simp] theorem State.modPart_fcap (s : State) (p : Nat) (f : Part → Part) : (s.modPart p f).fcap = s.fcap := rfl
@[simp] theorem State.modPart_pnow (s : State) (p : Nat) (f : Part → Part) : (s.modPart p f).pnow = s.pnow := rfl
@[simp] theorem State.modPart_temp (s : State) (p : Nat) (f : Part → Part) : (s.modPart p f).temp = s.temp := rfl
@[simp] theorem State.modPart_coolAt (s : State) (p : Nat) (f : Part → Part) : (s.modPart p f).coolAt = s.coolAt := rfl
@[simp] theorem State.modPart_freq (s : State) (p : Nat) (f : Part → Part) : (s.modPart p f).freq = s.freq := rfl
@[simp] theorem State.modPart_stepAt (s : State) (p : Nat) (f : Part → Part) : (s.modPart p f).stepAt = s.stepAt := rfl
@[simp] theorem State.modPart_bar4Log (s : State) (p : Nat) (f : Part → Part) : (s.modPart p f).bar4Log = s.bar4Log := rfl
@[simp] theorem State.modPart_ready (s : State) (p : Nat) (f : Part → Part) : (s.modPart p f).ready = s.ready := rfl
@[simp] theorem State.modPart_hivreq (s : State) (p : Nat) (f : Part → Part) : (s.modPart p f).hivreq = s.hivreq := rfl
@[simp] theorem State.modPart_hivgnt (s : State) (p : Nat) (f : Part → Part) : (s.modPart p f).hivgnt = s.hivgnt := rfl
@[simp] theorem State.modPart_diagWord (s : State) (p : Nat) (f : Part → Part) : (s.modPart p f).diagWord = s.diagWord := rfl
@[simp] theorem State.modPart_diagCount (s : State) (p : Nat) (f : Part → Part) : (s.modPart p f).diagCount = s.diagCount := rfl
@[simp] theorem State.modPart_entries (s : State) (p : Nat) (f : Part → Part) : (s.modPart p f).entries = s.entries := rfl
@[simp] theorem State.modPart_groups (s : State) (p : Nat) (f : Part → Part) : (s.modPart p f).groups = s.groups := rfl
@[simp] theorem State.modPart_arrivals (s : State) (p : Nat) (f : Part → Part) : (s.modPart p f).arrivals = s.arrivals := rfl
@[simp] theorem State.modPart_iqWords (s : State) (p : Nat) (f : Part → Part) : (s.modPart p f).iqWords = s.iqWords := rfl
@[simp] theorem State.modPart_iq (s : State) (p : Nat) (f : Part → Part) : (s.modPart p f).iq = s.iq := rfl
@[simp] theorem State.modPart_iqDrop (s : State) (p : Nat) (f : Part → Part) : (s.modPart p f).iqDrop = s.iqDrop := rfl
@[simp] theorem State.modPart_iqAcks (s : State) (p : Nat) (f : Part → Part) : (s.modPart p f).iqAcks = s.iqAcks := rfl
@[simp] theorem State.modPart_mismatch (s : State) (p : Nat) (f : Part → Part) : (s.modPart p f).mismatch = s.mismatch := rfl
@[simp] theorem State.modPart_objects (s : State) (p : Nat) (f : Part → Part) : (s.modPart p f).objects = s.objects := rfl
@[simp] theorem State.modPart_nextHandle (s : State) (p : Nat) (f : Part → Part) : (s.modPart p f).nextHandle = s.nextHandle := rfl
@[simp] theorem State.modPart_heap (s : State) (p : Nat) (f : Part → Part) : (s.modPart p f).heap = s.heap := rfl
@[simp] theorem State.modPart_plan (s : State) (p : Nat) (f : Part → Part) : (s.modPart p f).plan = s.plan := rfl
@[simp] theorem State.modPart_slots (s : State) (p : Nat) (f : Part → Part) : (s.modPart p f).slots = s.slots := rfl
@[simp] theorem State.modPart_ports (s : State) (p : Nat) (f : Part → Part) : (s.modPart p f).ports = s.ports := rfl
@[simp] theorem State.modPart_sites (s : State) (p : Nat) (f : Part → Part) : (s.modPart p f).sites = s.sites := rfl
@[simp] theorem State.modPart_contribs (s : State) (p : Nat) (f : Part → Part) : (s.modPart p f).contribs = s.contribs := rfl
@[simp] theorem State.modPart_heldBack (s : State) (p : Nat) (f : Part → Part) : (s.modPart p f).heldBack = s.heldBack := rfl
@[simp] theorem State.modPart_modNum (s : State) (p : Nat) (f : Part → Part) : (s.modPart p f).modNum = s.modNum := rfl
@[simp] theorem State.modPart_irqs (s : State) (p : Nat) (f : Part → Part) : (s.modPart p f).irqs = s.irqs := rfl
@[simp] theorem State.modPart_outbox (s : State) (p : Nat) (f : Part → Part) : (s.modPart p f).outbox = s.outbox := rfl
@[simp] theorem State.modPart_readback (s : State) (p : Nat) (f : Part → Part) : (s.modPart p f).readback = s.readback := rfl
@[simp] theorem State.modPart_agenda (s : State) (p : Nat) (f : Part → Part) : (s.modPart p f).agenda = s.agenda := rfl
@[simp] theorem State.modPart_inbox (s : State) (p : Nat) (f : Part → Part) : (s.modPart p f).inbox = s.inbox := rfl
@[simp] theorem State.modPart_marks (s : State) (p : Nat) (f : Part → Part) : (s.modPart p f).marks = s.marks := rfl
@[simp] theorem State.modPart_edge (s : State) (p : Nat) (f : Part → Part) : (s.modPart p f).edge = s.edge := rfl
@[simp] theorem State.modPart_free (s : State) (p : Nat) (f : Part → Part) : (s.modPart p f).free = s.free := rfl
@[simp] theorem State.modPart_turn (s : State) (p : Nat) (f : Part → Part) : (s.modPart p f).turn = s.turn := rfl
@[simp] theorem State.modPart_undo (s : State) (p : Nat) (f : Part → Part) : (s.modPart p f).undo = s.undo := rfl

/-! ### setEntry -/

@[simp] theorem State.setEntry_cores (s : State) (e : Nat) (k : Entry) : (s.setEntry e k).cores = s.cores := rfl
@[simp] theorem State.setEntry_parts (s : State) (e : Nat) (k : Entry) : (s.setEntry e k).parts = s.parts := rfl
@[simp] theorem State.setEntry_hbm (s : State) (e : Nat) (k : Entry) : (s.setEntry e k).hbm = s.hbm := rfl
@[simp] theorem State.setEntry_hostMem (s : State) (e : Nat) (k : Entry) : (s.setEntry e k).hostMem = s.hostMem := rfl
@[simp] theorem State.setEntry_dieTlb (s : State) (e : Nat) (k : Entry) : (s.setEntry e k).dieTlb = s.dieTlb := rfl
@[simp] theorem State.setEntry_wall (s : State) (e : Nat) (k : Entry) : (s.setEntry e k).wall = s.wall := rfl
@[simp] theorem State.setEntry_tsrc (s : State) (e : Nat) (k : Entry) : (s.setEntry e k).tsrc = s.tsrc := rfl
@[simp] theorem State.setEntry_tport (s : State) (e : Nat) (k : Entry) : (s.setEntry e k).tport = s.tport := rfl
@[simp] theorem State.setEntry_toff (s : State) (e : Nat) (k : Entry) : (s.setEntry e k).toff = s.toff := rfl
@[simp] theorem State.setEntry_lock (s : State) (e : Nat) (k : Entry) : (s.setEntry e k).lock = s.lock := rfl
@[simp] theorem State.setEntry_wbase (s : State) (e : Nat) (k : Entry) : (s.setEntry e k).wbase = s.wbase := rfl
@[simp] theorem State.setEntry_plimit (s : State) (e : Nat) (k : Entry) : (s.setEntry e k).plimit = s.plimit := rfl
@[simp] theorem State.setEntry_tjlimit (s : State) (e : Nat) (k : Entry) : (s.setEntry e k).tjlimit = s.tjlimit := rfl
@[simp] theorem State.setEntry_fcap (s : State) (e : Nat) (k : Entry) : (s.setEntry e k).fcap = s.fcap := rfl
@[simp] theorem State.setEntry_pnow (s : State) (e : Nat) (k : Entry) : (s.setEntry e k).pnow = s.pnow := rfl
@[simp] theorem State.setEntry_temp (s : State) (e : Nat) (k : Entry) : (s.setEntry e k).temp = s.temp := rfl
@[simp] theorem State.setEntry_coolAt (s : State) (e : Nat) (k : Entry) : (s.setEntry e k).coolAt = s.coolAt := rfl
@[simp] theorem State.setEntry_freq (s : State) (e : Nat) (k : Entry) : (s.setEntry e k).freq = s.freq := rfl
@[simp] theorem State.setEntry_stepAt (s : State) (e : Nat) (k : Entry) : (s.setEntry e k).stepAt = s.stepAt := rfl
@[simp] theorem State.setEntry_bar4Log (s : State) (e : Nat) (k : Entry) : (s.setEntry e k).bar4Log = s.bar4Log := rfl
@[simp] theorem State.setEntry_ready (s : State) (e : Nat) (k : Entry) : (s.setEntry e k).ready = s.ready := rfl
@[simp] theorem State.setEntry_hivreq (s : State) (e : Nat) (k : Entry) : (s.setEntry e k).hivreq = s.hivreq := rfl
@[simp] theorem State.setEntry_hivgnt (s : State) (e : Nat) (k : Entry) : (s.setEntry e k).hivgnt = s.hivgnt := rfl
@[simp] theorem State.setEntry_diagWord (s : State) (e : Nat) (k : Entry) : (s.setEntry e k).diagWord = s.diagWord := rfl
@[simp] theorem State.setEntry_diagCount (s : State) (e : Nat) (k : Entry) : (s.setEntry e k).diagCount = s.diagCount := rfl
@[simp] theorem State.setEntry_groups (s : State) (e : Nat) (k : Entry) : (s.setEntry e k).groups = s.groups := rfl
@[simp] theorem State.setEntry_arrivals (s : State) (e : Nat) (k : Entry) : (s.setEntry e k).arrivals = s.arrivals := rfl
@[simp] theorem State.setEntry_iqWords (s : State) (e : Nat) (k : Entry) : (s.setEntry e k).iqWords = s.iqWords := rfl
@[simp] theorem State.setEntry_iq (s : State) (e : Nat) (k : Entry) : (s.setEntry e k).iq = s.iq := rfl
@[simp] theorem State.setEntry_iqDrop (s : State) (e : Nat) (k : Entry) : (s.setEntry e k).iqDrop = s.iqDrop := rfl
@[simp] theorem State.setEntry_iqAcks (s : State) (e : Nat) (k : Entry) : (s.setEntry e k).iqAcks = s.iqAcks := rfl
@[simp] theorem State.setEntry_mismatch (s : State) (e : Nat) (k : Entry) : (s.setEntry e k).mismatch = s.mismatch := rfl
@[simp] theorem State.setEntry_objects (s : State) (e : Nat) (k : Entry) : (s.setEntry e k).objects = s.objects := rfl
@[simp] theorem State.setEntry_nextHandle (s : State) (e : Nat) (k : Entry) : (s.setEntry e k).nextHandle = s.nextHandle := rfl
@[simp] theorem State.setEntry_heap (s : State) (e : Nat) (k : Entry) : (s.setEntry e k).heap = s.heap := rfl
@[simp] theorem State.setEntry_plan (s : State) (e : Nat) (k : Entry) : (s.setEntry e k).plan = s.plan := rfl
@[simp] theorem State.setEntry_slots (s : State) (e : Nat) (k : Entry) : (s.setEntry e k).slots = s.slots := rfl
@[simp] theorem State.setEntry_ports (s : State) (e : Nat) (k : Entry) : (s.setEntry e k).ports = s.ports := rfl
@[simp] theorem State.setEntry_sites (s : State) (e : Nat) (k : Entry) : (s.setEntry e k).sites = s.sites := rfl
@[simp] theorem State.setEntry_contribs (s : State) (e : Nat) (k : Entry) : (s.setEntry e k).contribs = s.contribs := rfl
@[simp] theorem State.setEntry_heldBack (s : State) (e : Nat) (k : Entry) : (s.setEntry e k).heldBack = s.heldBack := rfl
@[simp] theorem State.setEntry_modNum (s : State) (e : Nat) (k : Entry) : (s.setEntry e k).modNum = s.modNum := rfl
@[simp] theorem State.setEntry_irqs (s : State) (e : Nat) (k : Entry) : (s.setEntry e k).irqs = s.irqs := rfl
@[simp] theorem State.setEntry_outbox (s : State) (e : Nat) (k : Entry) : (s.setEntry e k).outbox = s.outbox := rfl
@[simp] theorem State.setEntry_readback (s : State) (e : Nat) (k : Entry) : (s.setEntry e k).readback = s.readback := rfl
@[simp] theorem State.setEntry_agenda (s : State) (e : Nat) (k : Entry) : (s.setEntry e k).agenda = s.agenda := rfl
@[simp] theorem State.setEntry_inbox (s : State) (e : Nat) (k : Entry) : (s.setEntry e k).inbox = s.inbox := rfl
@[simp] theorem State.setEntry_marks (s : State) (e : Nat) (k : Entry) : (s.setEntry e k).marks = s.marks := rfl
@[simp] theorem State.setEntry_edge (s : State) (e : Nat) (k : Entry) : (s.setEntry e k).edge = s.edge := rfl
@[simp] theorem State.setEntry_free (s : State) (e : Nat) (k : Entry) : (s.setEntry e k).free = s.free := rfl
@[simp] theorem State.setEntry_turn (s : State) (e : Nat) (k : Entry) : (s.setEntry e k).turn = s.turn := rfl
@[simp] theorem State.setEntry_undo (s : State) (e : Nat) (k : Entry) : (s.setEntry e k).undo = s.undo := rfl

/-! ### modEntry -/

@[simp] theorem State.modEntry_cores (s : State) (e : Nat) (f : Entry → Entry) : (s.modEntry e f).cores = s.cores := rfl
@[simp] theorem State.modEntry_parts (s : State) (e : Nat) (f : Entry → Entry) : (s.modEntry e f).parts = s.parts := rfl
@[simp] theorem State.modEntry_hbm (s : State) (e : Nat) (f : Entry → Entry) : (s.modEntry e f).hbm = s.hbm := rfl
@[simp] theorem State.modEntry_hostMem (s : State) (e : Nat) (f : Entry → Entry) : (s.modEntry e f).hostMem = s.hostMem := rfl
@[simp] theorem State.modEntry_dieTlb (s : State) (e : Nat) (f : Entry → Entry) : (s.modEntry e f).dieTlb = s.dieTlb := rfl
@[simp] theorem State.modEntry_wall (s : State) (e : Nat) (f : Entry → Entry) : (s.modEntry e f).wall = s.wall := rfl
@[simp] theorem State.modEntry_tsrc (s : State) (e : Nat) (f : Entry → Entry) : (s.modEntry e f).tsrc = s.tsrc := rfl
@[simp] theorem State.modEntry_tport (s : State) (e : Nat) (f : Entry → Entry) : (s.modEntry e f).tport = s.tport := rfl
@[simp] theorem State.modEntry_toff (s : State) (e : Nat) (f : Entry → Entry) : (s.modEntry e f).toff = s.toff := rfl
@[simp] theorem State.modEntry_lock (s : State) (e : Nat) (f : Entry → Entry) : (s.modEntry e f).lock = s.lock := rfl
@[simp] theorem State.modEntry_wbase (s : State) (e : Nat) (f : Entry → Entry) : (s.modEntry e f).wbase = s.wbase := rfl
@[simp] theorem State.modEntry_plimit (s : State) (e : Nat) (f : Entry → Entry) : (s.modEntry e f).plimit = s.plimit := rfl
@[simp] theorem State.modEntry_tjlimit (s : State) (e : Nat) (f : Entry → Entry) : (s.modEntry e f).tjlimit = s.tjlimit := rfl
@[simp] theorem State.modEntry_fcap (s : State) (e : Nat) (f : Entry → Entry) : (s.modEntry e f).fcap = s.fcap := rfl
@[simp] theorem State.modEntry_pnow (s : State) (e : Nat) (f : Entry → Entry) : (s.modEntry e f).pnow = s.pnow := rfl
@[simp] theorem State.modEntry_temp (s : State) (e : Nat) (f : Entry → Entry) : (s.modEntry e f).temp = s.temp := rfl
@[simp] theorem State.modEntry_coolAt (s : State) (e : Nat) (f : Entry → Entry) : (s.modEntry e f).coolAt = s.coolAt := rfl
@[simp] theorem State.modEntry_freq (s : State) (e : Nat) (f : Entry → Entry) : (s.modEntry e f).freq = s.freq := rfl
@[simp] theorem State.modEntry_stepAt (s : State) (e : Nat) (f : Entry → Entry) : (s.modEntry e f).stepAt = s.stepAt := rfl
@[simp] theorem State.modEntry_bar4Log (s : State) (e : Nat) (f : Entry → Entry) : (s.modEntry e f).bar4Log = s.bar4Log := rfl
@[simp] theorem State.modEntry_ready (s : State) (e : Nat) (f : Entry → Entry) : (s.modEntry e f).ready = s.ready := rfl
@[simp] theorem State.modEntry_hivreq (s : State) (e : Nat) (f : Entry → Entry) : (s.modEntry e f).hivreq = s.hivreq := rfl
@[simp] theorem State.modEntry_hivgnt (s : State) (e : Nat) (f : Entry → Entry) : (s.modEntry e f).hivgnt = s.hivgnt := rfl
@[simp] theorem State.modEntry_diagWord (s : State) (e : Nat) (f : Entry → Entry) : (s.modEntry e f).diagWord = s.diagWord := rfl
@[simp] theorem State.modEntry_diagCount (s : State) (e : Nat) (f : Entry → Entry) : (s.modEntry e f).diagCount = s.diagCount := rfl
@[simp] theorem State.modEntry_groups (s : State) (e : Nat) (f : Entry → Entry) : (s.modEntry e f).groups = s.groups := rfl
@[simp] theorem State.modEntry_arrivals (s : State) (e : Nat) (f : Entry → Entry) : (s.modEntry e f).arrivals = s.arrivals := rfl
@[simp] theorem State.modEntry_iqWords (s : State) (e : Nat) (f : Entry → Entry) : (s.modEntry e f).iqWords = s.iqWords := rfl
@[simp] theorem State.modEntry_iq (s : State) (e : Nat) (f : Entry → Entry) : (s.modEntry e f).iq = s.iq := rfl
@[simp] theorem State.modEntry_iqDrop (s : State) (e : Nat) (f : Entry → Entry) : (s.modEntry e f).iqDrop = s.iqDrop := rfl
@[simp] theorem State.modEntry_iqAcks (s : State) (e : Nat) (f : Entry → Entry) : (s.modEntry e f).iqAcks = s.iqAcks := rfl
@[simp] theorem State.modEntry_mismatch (s : State) (e : Nat) (f : Entry → Entry) : (s.modEntry e f).mismatch = s.mismatch := rfl
@[simp] theorem State.modEntry_objects (s : State) (e : Nat) (f : Entry → Entry) : (s.modEntry e f).objects = s.objects := rfl
@[simp] theorem State.modEntry_nextHandle (s : State) (e : Nat) (f : Entry → Entry) : (s.modEntry e f).nextHandle = s.nextHandle := rfl
@[simp] theorem State.modEntry_heap (s : State) (e : Nat) (f : Entry → Entry) : (s.modEntry e f).heap = s.heap := rfl
@[simp] theorem State.modEntry_plan (s : State) (e : Nat) (f : Entry → Entry) : (s.modEntry e f).plan = s.plan := rfl
@[simp] theorem State.modEntry_slots (s : State) (e : Nat) (f : Entry → Entry) : (s.modEntry e f).slots = s.slots := rfl
@[simp] theorem State.modEntry_ports (s : State) (e : Nat) (f : Entry → Entry) : (s.modEntry e f).ports = s.ports := rfl
@[simp] theorem State.modEntry_sites (s : State) (e : Nat) (f : Entry → Entry) : (s.modEntry e f).sites = s.sites := rfl
@[simp] theorem State.modEntry_contribs (s : State) (e : Nat) (f : Entry → Entry) : (s.modEntry e f).contribs = s.contribs := rfl
@[simp] theorem State.modEntry_heldBack (s : State) (e : Nat) (f : Entry → Entry) : (s.modEntry e f).heldBack = s.heldBack := rfl
@[simp] theorem State.modEntry_modNum (s : State) (e : Nat) (f : Entry → Entry) : (s.modEntry e f).modNum = s.modNum := rfl
@[simp] theorem State.modEntry_irqs (s : State) (e : Nat) (f : Entry → Entry) : (s.modEntry e f).irqs = s.irqs := rfl
@[simp] theorem State.modEntry_outbox (s : State) (e : Nat) (f : Entry → Entry) : (s.modEntry e f).outbox = s.outbox := rfl
@[simp] theorem State.modEntry_readback (s : State) (e : Nat) (f : Entry → Entry) : (s.modEntry e f).readback = s.readback := rfl
@[simp] theorem State.modEntry_agenda (s : State) (e : Nat) (f : Entry → Entry) : (s.modEntry e f).agenda = s.agenda := rfl
@[simp] theorem State.modEntry_inbox (s : State) (e : Nat) (f : Entry → Entry) : (s.modEntry e f).inbox = s.inbox := rfl
@[simp] theorem State.modEntry_marks (s : State) (e : Nat) (f : Entry → Entry) : (s.modEntry e f).marks = s.marks := rfl
@[simp] theorem State.modEntry_edge (s : State) (e : Nat) (f : Entry → Entry) : (s.modEntry e f).edge = s.edge := rfl
@[simp] theorem State.modEntry_free (s : State) (e : Nat) (f : Entry → Entry) : (s.modEntry e f).free = s.free := rfl
@[simp] theorem State.modEntry_turn (s : State) (e : Nat) (f : Entry → Entry) : (s.modEntry e f).turn = s.turn := rfl
@[simp] theorem State.modEntry_undo (s : State) (e : Nat) (f : Entry → Entry) : (s.modEntry e f).undo = s.undo := rfl

/-! ### addDue -/

@[simp] theorem State.addDue_cores (s : State) (p : Nat) (d : Due) : (s.addDue p d).cores = s.cores := rfl
@[simp] theorem State.addDue_hbm (s : State) (p : Nat) (d : Due) : (s.addDue p d).hbm = s.hbm := rfl
@[simp] theorem State.addDue_hostMem (s : State) (p : Nat) (d : Due) : (s.addDue p d).hostMem = s.hostMem := rfl
@[simp] theorem State.addDue_dieTlb (s : State) (p : Nat) (d : Due) : (s.addDue p d).dieTlb = s.dieTlb := rfl
@[simp] theorem State.addDue_wall (s : State) (p : Nat) (d : Due) : (s.addDue p d).wall = s.wall := rfl
@[simp] theorem State.addDue_tsrc (s : State) (p : Nat) (d : Due) : (s.addDue p d).tsrc = s.tsrc := rfl
@[simp] theorem State.addDue_tport (s : State) (p : Nat) (d : Due) : (s.addDue p d).tport = s.tport := rfl
@[simp] theorem State.addDue_toff (s : State) (p : Nat) (d : Due) : (s.addDue p d).toff = s.toff := rfl
@[simp] theorem State.addDue_lock (s : State) (p : Nat) (d : Due) : (s.addDue p d).lock = s.lock := rfl
@[simp] theorem State.addDue_wbase (s : State) (p : Nat) (d : Due) : (s.addDue p d).wbase = s.wbase := rfl
@[simp] theorem State.addDue_plimit (s : State) (p : Nat) (d : Due) : (s.addDue p d).plimit = s.plimit := rfl
@[simp] theorem State.addDue_tjlimit (s : State) (p : Nat) (d : Due) : (s.addDue p d).tjlimit = s.tjlimit := rfl
@[simp] theorem State.addDue_fcap (s : State) (p : Nat) (d : Due) : (s.addDue p d).fcap = s.fcap := rfl
@[simp] theorem State.addDue_pnow (s : State) (p : Nat) (d : Due) : (s.addDue p d).pnow = s.pnow := rfl
@[simp] theorem State.addDue_temp (s : State) (p : Nat) (d : Due) : (s.addDue p d).temp = s.temp := rfl
@[simp] theorem State.addDue_coolAt (s : State) (p : Nat) (d : Due) : (s.addDue p d).coolAt = s.coolAt := rfl
@[simp] theorem State.addDue_freq (s : State) (p : Nat) (d : Due) : (s.addDue p d).freq = s.freq := rfl
@[simp] theorem State.addDue_stepAt (s : State) (p : Nat) (d : Due) : (s.addDue p d).stepAt = s.stepAt := rfl
@[simp] theorem State.addDue_bar4Log (s : State) (p : Nat) (d : Due) : (s.addDue p d).bar4Log = s.bar4Log := rfl
@[simp] theorem State.addDue_ready (s : State) (p : Nat) (d : Due) : (s.addDue p d).ready = s.ready := rfl
@[simp] theorem State.addDue_hivreq (s : State) (p : Nat) (d : Due) : (s.addDue p d).hivreq = s.hivreq := rfl
@[simp] theorem State.addDue_hivgnt (s : State) (p : Nat) (d : Due) : (s.addDue p d).hivgnt = s.hivgnt := rfl
@[simp] theorem State.addDue_diagWord (s : State) (p : Nat) (d : Due) : (s.addDue p d).diagWord = s.diagWord := rfl
@[simp] theorem State.addDue_diagCount (s : State) (p : Nat) (d : Due) : (s.addDue p d).diagCount = s.diagCount := rfl
@[simp] theorem State.addDue_entries (s : State) (p : Nat) (d : Due) : (s.addDue p d).entries = s.entries := rfl
@[simp] theorem State.addDue_groups (s : State) (p : Nat) (d : Due) : (s.addDue p d).groups = s.groups := rfl
@[simp] theorem State.addDue_arrivals (s : State) (p : Nat) (d : Due) : (s.addDue p d).arrivals = s.arrivals := rfl
@[simp] theorem State.addDue_iqWords (s : State) (p : Nat) (d : Due) : (s.addDue p d).iqWords = s.iqWords := rfl
@[simp] theorem State.addDue_iq (s : State) (p : Nat) (d : Due) : (s.addDue p d).iq = s.iq := rfl
@[simp] theorem State.addDue_iqDrop (s : State) (p : Nat) (d : Due) : (s.addDue p d).iqDrop = s.iqDrop := rfl
@[simp] theorem State.addDue_iqAcks (s : State) (p : Nat) (d : Due) : (s.addDue p d).iqAcks = s.iqAcks := rfl
@[simp] theorem State.addDue_mismatch (s : State) (p : Nat) (d : Due) : (s.addDue p d).mismatch = s.mismatch := rfl
@[simp] theorem State.addDue_objects (s : State) (p : Nat) (d : Due) : (s.addDue p d).objects = s.objects := rfl
@[simp] theorem State.addDue_nextHandle (s : State) (p : Nat) (d : Due) : (s.addDue p d).nextHandle = s.nextHandle := rfl
@[simp] theorem State.addDue_heap (s : State) (p : Nat) (d : Due) : (s.addDue p d).heap = s.heap := rfl
@[simp] theorem State.addDue_plan (s : State) (p : Nat) (d : Due) : (s.addDue p d).plan = s.plan := rfl
@[simp] theorem State.addDue_slots (s : State) (p : Nat) (d : Due) : (s.addDue p d).slots = s.slots := rfl
@[simp] theorem State.addDue_ports (s : State) (p : Nat) (d : Due) : (s.addDue p d).ports = s.ports := rfl
@[simp] theorem State.addDue_sites (s : State) (p : Nat) (d : Due) : (s.addDue p d).sites = s.sites := rfl
@[simp] theorem State.addDue_contribs (s : State) (p : Nat) (d : Due) : (s.addDue p d).contribs = s.contribs := rfl
@[simp] theorem State.addDue_heldBack (s : State) (p : Nat) (d : Due) : (s.addDue p d).heldBack = s.heldBack := rfl
@[simp] theorem State.addDue_modNum (s : State) (p : Nat) (d : Due) : (s.addDue p d).modNum = s.modNum := rfl
@[simp] theorem State.addDue_irqs (s : State) (p : Nat) (d : Due) : (s.addDue p d).irqs = s.irqs := rfl
@[simp] theorem State.addDue_outbox (s : State) (p : Nat) (d : Due) : (s.addDue p d).outbox = s.outbox := rfl
@[simp] theorem State.addDue_readback (s : State) (p : Nat) (d : Due) : (s.addDue p d).readback = s.readback := rfl
@[simp] theorem State.addDue_agenda (s : State) (p : Nat) (d : Due) : (s.addDue p d).agenda = s.agenda := rfl
@[simp] theorem State.addDue_inbox (s : State) (p : Nat) (d : Due) : (s.addDue p d).inbox = s.inbox := rfl
@[simp] theorem State.addDue_marks (s : State) (p : Nat) (d : Due) : (s.addDue p d).marks = s.marks := rfl
@[simp] theorem State.addDue_edge (s : State) (p : Nat) (d : Due) : (s.addDue p d).edge = s.edge := rfl
@[simp] theorem State.addDue_free (s : State) (p : Nat) (d : Due) : (s.addDue p d).free = s.free := rfl
@[simp] theorem State.addDue_turn (s : State) (p : Nat) (d : Due) : (s.addDue p d).turn = s.turn := rfl
@[simp] theorem State.addDue_undo (s : State) (p : Nat) (d : Due) : (s.addDue p d).undo = s.undo := rfl

/-! ### addCond -/

@[simp] theorem State.addCond_cores (s : State) (p : Nat) (c : TrapCond) : (s.addCond p c).cores = s.cores := rfl
@[simp] theorem State.addCond_hbm (s : State) (p : Nat) (c : TrapCond) : (s.addCond p c).hbm = s.hbm := rfl
@[simp] theorem State.addCond_hostMem (s : State) (p : Nat) (c : TrapCond) : (s.addCond p c).hostMem = s.hostMem := rfl
@[simp] theorem State.addCond_dieTlb (s : State) (p : Nat) (c : TrapCond) : (s.addCond p c).dieTlb = s.dieTlb := rfl
@[simp] theorem State.addCond_wall (s : State) (p : Nat) (c : TrapCond) : (s.addCond p c).wall = s.wall := rfl
@[simp] theorem State.addCond_tsrc (s : State) (p : Nat) (c : TrapCond) : (s.addCond p c).tsrc = s.tsrc := rfl
@[simp] theorem State.addCond_tport (s : State) (p : Nat) (c : TrapCond) : (s.addCond p c).tport = s.tport := rfl
@[simp] theorem State.addCond_toff (s : State) (p : Nat) (c : TrapCond) : (s.addCond p c).toff = s.toff := rfl
@[simp] theorem State.addCond_lock (s : State) (p : Nat) (c : TrapCond) : (s.addCond p c).lock = s.lock := rfl
@[simp] theorem State.addCond_wbase (s : State) (p : Nat) (c : TrapCond) : (s.addCond p c).wbase = s.wbase := rfl
@[simp] theorem State.addCond_plimit (s : State) (p : Nat) (c : TrapCond) : (s.addCond p c).plimit = s.plimit := rfl
@[simp] theorem State.addCond_tjlimit (s : State) (p : Nat) (c : TrapCond) : (s.addCond p c).tjlimit = s.tjlimit := rfl
@[simp] theorem State.addCond_fcap (s : State) (p : Nat) (c : TrapCond) : (s.addCond p c).fcap = s.fcap := rfl
@[simp] theorem State.addCond_pnow (s : State) (p : Nat) (c : TrapCond) : (s.addCond p c).pnow = s.pnow := rfl
@[simp] theorem State.addCond_temp (s : State) (p : Nat) (c : TrapCond) : (s.addCond p c).temp = s.temp := rfl
@[simp] theorem State.addCond_coolAt (s : State) (p : Nat) (c : TrapCond) : (s.addCond p c).coolAt = s.coolAt := rfl
@[simp] theorem State.addCond_freq (s : State) (p : Nat) (c : TrapCond) : (s.addCond p c).freq = s.freq := rfl
@[simp] theorem State.addCond_stepAt (s : State) (p : Nat) (c : TrapCond) : (s.addCond p c).stepAt = s.stepAt := rfl
@[simp] theorem State.addCond_bar4Log (s : State) (p : Nat) (c : TrapCond) : (s.addCond p c).bar4Log = s.bar4Log := rfl
@[simp] theorem State.addCond_ready (s : State) (p : Nat) (c : TrapCond) : (s.addCond p c).ready = s.ready := rfl
@[simp] theorem State.addCond_hivreq (s : State) (p : Nat) (c : TrapCond) : (s.addCond p c).hivreq = s.hivreq := rfl
@[simp] theorem State.addCond_hivgnt (s : State) (p : Nat) (c : TrapCond) : (s.addCond p c).hivgnt = s.hivgnt := rfl
@[simp] theorem State.addCond_diagWord (s : State) (p : Nat) (c : TrapCond) : (s.addCond p c).diagWord = s.diagWord := rfl
@[simp] theorem State.addCond_diagCount (s : State) (p : Nat) (c : TrapCond) : (s.addCond p c).diagCount = s.diagCount := rfl
@[simp] theorem State.addCond_entries (s : State) (p : Nat) (c : TrapCond) : (s.addCond p c).entries = s.entries := rfl
@[simp] theorem State.addCond_groups (s : State) (p : Nat) (c : TrapCond) : (s.addCond p c).groups = s.groups := rfl
@[simp] theorem State.addCond_arrivals (s : State) (p : Nat) (c : TrapCond) : (s.addCond p c).arrivals = s.arrivals := rfl
@[simp] theorem State.addCond_iqWords (s : State) (p : Nat) (c : TrapCond) : (s.addCond p c).iqWords = s.iqWords := rfl
@[simp] theorem State.addCond_iq (s : State) (p : Nat) (c : TrapCond) : (s.addCond p c).iq = s.iq := rfl
@[simp] theorem State.addCond_iqDrop (s : State) (p : Nat) (c : TrapCond) : (s.addCond p c).iqDrop = s.iqDrop := rfl
@[simp] theorem State.addCond_iqAcks (s : State) (p : Nat) (c : TrapCond) : (s.addCond p c).iqAcks = s.iqAcks := rfl
@[simp] theorem State.addCond_mismatch (s : State) (p : Nat) (c : TrapCond) : (s.addCond p c).mismatch = s.mismatch := rfl
@[simp] theorem State.addCond_objects (s : State) (p : Nat) (c : TrapCond) : (s.addCond p c).objects = s.objects := rfl
@[simp] theorem State.addCond_nextHandle (s : State) (p : Nat) (c : TrapCond) : (s.addCond p c).nextHandle = s.nextHandle := rfl
@[simp] theorem State.addCond_heap (s : State) (p : Nat) (c : TrapCond) : (s.addCond p c).heap = s.heap := rfl
@[simp] theorem State.addCond_plan (s : State) (p : Nat) (c : TrapCond) : (s.addCond p c).plan = s.plan := rfl
@[simp] theorem State.addCond_slots (s : State) (p : Nat) (c : TrapCond) : (s.addCond p c).slots = s.slots := rfl
@[simp] theorem State.addCond_ports (s : State) (p : Nat) (c : TrapCond) : (s.addCond p c).ports = s.ports := rfl
@[simp] theorem State.addCond_sites (s : State) (p : Nat) (c : TrapCond) : (s.addCond p c).sites = s.sites := rfl
@[simp] theorem State.addCond_contribs (s : State) (p : Nat) (c : TrapCond) : (s.addCond p c).contribs = s.contribs := rfl
@[simp] theorem State.addCond_heldBack (s : State) (p : Nat) (c : TrapCond) : (s.addCond p c).heldBack = s.heldBack := rfl
@[simp] theorem State.addCond_modNum (s : State) (p : Nat) (c : TrapCond) : (s.addCond p c).modNum = s.modNum := rfl
@[simp] theorem State.addCond_irqs (s : State) (p : Nat) (c : TrapCond) : (s.addCond p c).irqs = s.irqs := rfl
@[simp] theorem State.addCond_outbox (s : State) (p : Nat) (c : TrapCond) : (s.addCond p c).outbox = s.outbox := rfl
@[simp] theorem State.addCond_readback (s : State) (p : Nat) (c : TrapCond) : (s.addCond p c).readback = s.readback := rfl
@[simp] theorem State.addCond_agenda (s : State) (p : Nat) (c : TrapCond) : (s.addCond p c).agenda = s.agenda := rfl
@[simp] theorem State.addCond_inbox (s : State) (p : Nat) (c : TrapCond) : (s.addCond p c).inbox = s.inbox := rfl
@[simp] theorem State.addCond_marks (s : State) (p : Nat) (c : TrapCond) : (s.addCond p c).marks = s.marks := rfl
@[simp] theorem State.addCond_edge (s : State) (p : Nat) (c : TrapCond) : (s.addCond p c).edge = s.edge := rfl
@[simp] theorem State.addCond_free (s : State) (p : Nat) (c : TrapCond) : (s.addCond p c).free = s.free := rfl
@[simp] theorem State.addCond_turn (s : State) (p : Nat) (c : TrapCond) : (s.addCond p c).turn = s.turn := rfl
@[simp] theorem State.addCond_undo (s : State) (p : Nat) (c : TrapCond) : (s.addCond p c).undo = s.undo := rfl

/-! ### addWait -/

@[simp] theorem State.addWait_cores (s : State) (p : Nat) (w : Wait) : (s.addWait p w).cores = s.cores := rfl
@[simp] theorem State.addWait_hbm (s : State) (p : Nat) (w : Wait) : (s.addWait p w).hbm = s.hbm := rfl
@[simp] theorem State.addWait_hostMem (s : State) (p : Nat) (w : Wait) : (s.addWait p w).hostMem = s.hostMem := rfl
@[simp] theorem State.addWait_dieTlb (s : State) (p : Nat) (w : Wait) : (s.addWait p w).dieTlb = s.dieTlb := rfl
@[simp] theorem State.addWait_wall (s : State) (p : Nat) (w : Wait) : (s.addWait p w).wall = s.wall := rfl
@[simp] theorem State.addWait_tsrc (s : State) (p : Nat) (w : Wait) : (s.addWait p w).tsrc = s.tsrc := rfl
@[simp] theorem State.addWait_tport (s : State) (p : Nat) (w : Wait) : (s.addWait p w).tport = s.tport := rfl
@[simp] theorem State.addWait_toff (s : State) (p : Nat) (w : Wait) : (s.addWait p w).toff = s.toff := rfl
@[simp] theorem State.addWait_lock (s : State) (p : Nat) (w : Wait) : (s.addWait p w).lock = s.lock := rfl
@[simp] theorem State.addWait_wbase (s : State) (p : Nat) (w : Wait) : (s.addWait p w).wbase = s.wbase := rfl
@[simp] theorem State.addWait_plimit (s : State) (p : Nat) (w : Wait) : (s.addWait p w).plimit = s.plimit := rfl
@[simp] theorem State.addWait_tjlimit (s : State) (p : Nat) (w : Wait) : (s.addWait p w).tjlimit = s.tjlimit := rfl
@[simp] theorem State.addWait_fcap (s : State) (p : Nat) (w : Wait) : (s.addWait p w).fcap = s.fcap := rfl
@[simp] theorem State.addWait_pnow (s : State) (p : Nat) (w : Wait) : (s.addWait p w).pnow = s.pnow := rfl
@[simp] theorem State.addWait_temp (s : State) (p : Nat) (w : Wait) : (s.addWait p w).temp = s.temp := rfl
@[simp] theorem State.addWait_coolAt (s : State) (p : Nat) (w : Wait) : (s.addWait p w).coolAt = s.coolAt := rfl
@[simp] theorem State.addWait_freq (s : State) (p : Nat) (w : Wait) : (s.addWait p w).freq = s.freq := rfl
@[simp] theorem State.addWait_stepAt (s : State) (p : Nat) (w : Wait) : (s.addWait p w).stepAt = s.stepAt := rfl
@[simp] theorem State.addWait_bar4Log (s : State) (p : Nat) (w : Wait) : (s.addWait p w).bar4Log = s.bar4Log := rfl
@[simp] theorem State.addWait_ready (s : State) (p : Nat) (w : Wait) : (s.addWait p w).ready = s.ready := rfl
@[simp] theorem State.addWait_hivreq (s : State) (p : Nat) (w : Wait) : (s.addWait p w).hivreq = s.hivreq := rfl
@[simp] theorem State.addWait_hivgnt (s : State) (p : Nat) (w : Wait) : (s.addWait p w).hivgnt = s.hivgnt := rfl
@[simp] theorem State.addWait_diagWord (s : State) (p : Nat) (w : Wait) : (s.addWait p w).diagWord = s.diagWord := rfl
@[simp] theorem State.addWait_diagCount (s : State) (p : Nat) (w : Wait) : (s.addWait p w).diagCount = s.diagCount := rfl
@[simp] theorem State.addWait_entries (s : State) (p : Nat) (w : Wait) : (s.addWait p w).entries = s.entries := rfl
@[simp] theorem State.addWait_groups (s : State) (p : Nat) (w : Wait) : (s.addWait p w).groups = s.groups := rfl
@[simp] theorem State.addWait_arrivals (s : State) (p : Nat) (w : Wait) : (s.addWait p w).arrivals = s.arrivals := rfl
@[simp] theorem State.addWait_iqWords (s : State) (p : Nat) (w : Wait) : (s.addWait p w).iqWords = s.iqWords := rfl
@[simp] theorem State.addWait_iq (s : State) (p : Nat) (w : Wait) : (s.addWait p w).iq = s.iq := rfl
@[simp] theorem State.addWait_iqDrop (s : State) (p : Nat) (w : Wait) : (s.addWait p w).iqDrop = s.iqDrop := rfl
@[simp] theorem State.addWait_iqAcks (s : State) (p : Nat) (w : Wait) : (s.addWait p w).iqAcks = s.iqAcks := rfl
@[simp] theorem State.addWait_mismatch (s : State) (p : Nat) (w : Wait) : (s.addWait p w).mismatch = s.mismatch := rfl
@[simp] theorem State.addWait_objects (s : State) (p : Nat) (w : Wait) : (s.addWait p w).objects = s.objects := rfl
@[simp] theorem State.addWait_nextHandle (s : State) (p : Nat) (w : Wait) : (s.addWait p w).nextHandle = s.nextHandle := rfl
@[simp] theorem State.addWait_heap (s : State) (p : Nat) (w : Wait) : (s.addWait p w).heap = s.heap := rfl
@[simp] theorem State.addWait_plan (s : State) (p : Nat) (w : Wait) : (s.addWait p w).plan = s.plan := rfl
@[simp] theorem State.addWait_slots (s : State) (p : Nat) (w : Wait) : (s.addWait p w).slots = s.slots := rfl
@[simp] theorem State.addWait_ports (s : State) (p : Nat) (w : Wait) : (s.addWait p w).ports = s.ports := rfl
@[simp] theorem State.addWait_sites (s : State) (p : Nat) (w : Wait) : (s.addWait p w).sites = s.sites := rfl
@[simp] theorem State.addWait_contribs (s : State) (p : Nat) (w : Wait) : (s.addWait p w).contribs = s.contribs := rfl
@[simp] theorem State.addWait_heldBack (s : State) (p : Nat) (w : Wait) : (s.addWait p w).heldBack = s.heldBack := rfl
@[simp] theorem State.addWait_modNum (s : State) (p : Nat) (w : Wait) : (s.addWait p w).modNum = s.modNum := rfl
@[simp] theorem State.addWait_irqs (s : State) (p : Nat) (w : Wait) : (s.addWait p w).irqs = s.irqs := rfl
@[simp] theorem State.addWait_outbox (s : State) (p : Nat) (w : Wait) : (s.addWait p w).outbox = s.outbox := rfl
@[simp] theorem State.addWait_readback (s : State) (p : Nat) (w : Wait) : (s.addWait p w).readback = s.readback := rfl
@[simp] theorem State.addWait_agenda (s : State) (p : Nat) (w : Wait) : (s.addWait p w).agenda = s.agenda := rfl
@[simp] theorem State.addWait_inbox (s : State) (p : Nat) (w : Wait) : (s.addWait p w).inbox = s.inbox := rfl
@[simp] theorem State.addWait_marks (s : State) (p : Nat) (w : Wait) : (s.addWait p w).marks = s.marks := rfl
@[simp] theorem State.addWait_edge (s : State) (p : Nat) (w : Wait) : (s.addWait p w).edge = s.edge := rfl
@[simp] theorem State.addWait_free (s : State) (p : Nat) (w : Wait) : (s.addWait p w).free = s.free := rfl
@[simp] theorem State.addWait_turn (s : State) (p : Nat) (w : Wait) : (s.addWait p w).turn = s.turn := rfl
@[simp] theorem State.addWait_undo (s : State) (p : Nat) (w : Wait) : (s.addWait p w).undo = s.undo := rfl

/-! ### interrupt -/

@[simp] theorem State.interrupt_cores (s : State) (v : Nat) : (s.interrupt v).cores = s.cores := rfl
@[simp] theorem State.interrupt_parts (s : State) (v : Nat) : (s.interrupt v).parts = s.parts := rfl
@[simp] theorem State.interrupt_hbm (s : State) (v : Nat) : (s.interrupt v).hbm = s.hbm := rfl
@[simp] theorem State.interrupt_hostMem (s : State) (v : Nat) : (s.interrupt v).hostMem = s.hostMem := rfl
@[simp] theorem State.interrupt_dieTlb (s : State) (v : Nat) : (s.interrupt v).dieTlb = s.dieTlb := rfl
@[simp] theorem State.interrupt_wall (s : State) (v : Nat) : (s.interrupt v).wall = s.wall := rfl
@[simp] theorem State.interrupt_tsrc (s : State) (v : Nat) : (s.interrupt v).tsrc = s.tsrc := rfl
@[simp] theorem State.interrupt_tport (s : State) (v : Nat) : (s.interrupt v).tport = s.tport := rfl
@[simp] theorem State.interrupt_toff (s : State) (v : Nat) : (s.interrupt v).toff = s.toff := rfl
@[simp] theorem State.interrupt_lock (s : State) (v : Nat) : (s.interrupt v).lock = s.lock := rfl
@[simp] theorem State.interrupt_wbase (s : State) (v : Nat) : (s.interrupt v).wbase = s.wbase := rfl
@[simp] theorem State.interrupt_plimit (s : State) (v : Nat) : (s.interrupt v).plimit = s.plimit := rfl
@[simp] theorem State.interrupt_tjlimit (s : State) (v : Nat) : (s.interrupt v).tjlimit = s.tjlimit := rfl
@[simp] theorem State.interrupt_fcap (s : State) (v : Nat) : (s.interrupt v).fcap = s.fcap := rfl
@[simp] theorem State.interrupt_pnow (s : State) (v : Nat) : (s.interrupt v).pnow = s.pnow := rfl
@[simp] theorem State.interrupt_temp (s : State) (v : Nat) : (s.interrupt v).temp = s.temp := rfl
@[simp] theorem State.interrupt_coolAt (s : State) (v : Nat) : (s.interrupt v).coolAt = s.coolAt := rfl
@[simp] theorem State.interrupt_freq (s : State) (v : Nat) : (s.interrupt v).freq = s.freq := rfl
@[simp] theorem State.interrupt_stepAt (s : State) (v : Nat) : (s.interrupt v).stepAt = s.stepAt := rfl
@[simp] theorem State.interrupt_bar4Log (s : State) (v : Nat) : (s.interrupt v).bar4Log = s.bar4Log := rfl
@[simp] theorem State.interrupt_ready (s : State) (v : Nat) : (s.interrupt v).ready = s.ready := rfl
@[simp] theorem State.interrupt_hivreq (s : State) (v : Nat) : (s.interrupt v).hivreq = s.hivreq := rfl
@[simp] theorem State.interrupt_hivgnt (s : State) (v : Nat) : (s.interrupt v).hivgnt = s.hivgnt := rfl
@[simp] theorem State.interrupt_diagWord (s : State) (v : Nat) : (s.interrupt v).diagWord = s.diagWord := rfl
@[simp] theorem State.interrupt_diagCount (s : State) (v : Nat) : (s.interrupt v).diagCount = s.diagCount := rfl
@[simp] theorem State.interrupt_entries (s : State) (v : Nat) : (s.interrupt v).entries = s.entries := rfl
@[simp] theorem State.interrupt_groups (s : State) (v : Nat) : (s.interrupt v).groups = s.groups := rfl
@[simp] theorem State.interrupt_arrivals (s : State) (v : Nat) : (s.interrupt v).arrivals = s.arrivals := rfl
@[simp] theorem State.interrupt_iqWords (s : State) (v : Nat) : (s.interrupt v).iqWords = s.iqWords := rfl
@[simp] theorem State.interrupt_iq (s : State) (v : Nat) : (s.interrupt v).iq = s.iq := rfl
@[simp] theorem State.interrupt_iqDrop (s : State) (v : Nat) : (s.interrupt v).iqDrop = s.iqDrop := rfl
@[simp] theorem State.interrupt_iqAcks (s : State) (v : Nat) : (s.interrupt v).iqAcks = s.iqAcks := rfl
@[simp] theorem State.interrupt_mismatch (s : State) (v : Nat) : (s.interrupt v).mismatch = s.mismatch := rfl
@[simp] theorem State.interrupt_objects (s : State) (v : Nat) : (s.interrupt v).objects = s.objects := rfl
@[simp] theorem State.interrupt_nextHandle (s : State) (v : Nat) : (s.interrupt v).nextHandle = s.nextHandle := rfl
@[simp] theorem State.interrupt_heap (s : State) (v : Nat) : (s.interrupt v).heap = s.heap := rfl
@[simp] theorem State.interrupt_plan (s : State) (v : Nat) : (s.interrupt v).plan = s.plan := rfl
@[simp] theorem State.interrupt_slots (s : State) (v : Nat) : (s.interrupt v).slots = s.slots := rfl
@[simp] theorem State.interrupt_ports (s : State) (v : Nat) : (s.interrupt v).ports = s.ports := rfl
@[simp] theorem State.interrupt_sites (s : State) (v : Nat) : (s.interrupt v).sites = s.sites := rfl
@[simp] theorem State.interrupt_contribs (s : State) (v : Nat) : (s.interrupt v).contribs = s.contribs := rfl
@[simp] theorem State.interrupt_heldBack (s : State) (v : Nat) : (s.interrupt v).heldBack = s.heldBack := rfl
@[simp] theorem State.interrupt_modNum (s : State) (v : Nat) : (s.interrupt v).modNum = s.modNum := rfl
@[simp] theorem State.interrupt_outbox (s : State) (v : Nat) : (s.interrupt v).outbox = s.outbox := rfl
@[simp] theorem State.interrupt_readback (s : State) (v : Nat) : (s.interrupt v).readback = s.readback := rfl
@[simp] theorem State.interrupt_agenda (s : State) (v : Nat) : (s.interrupt v).agenda = s.agenda := rfl
@[simp] theorem State.interrupt_inbox (s : State) (v : Nat) : (s.interrupt v).inbox = s.inbox := rfl
@[simp] theorem State.interrupt_marks (s : State) (v : Nat) : (s.interrupt v).marks = s.marks := rfl
@[simp] theorem State.interrupt_edge (s : State) (v : Nat) : (s.interrupt v).edge = s.edge := rfl
@[simp] theorem State.interrupt_free (s : State) (v : Nat) : (s.interrupt v).free = s.free := rfl
@[simp] theorem State.interrupt_turn (s : State) (v : Nat) : (s.interrupt v).turn = s.turn := rfl
@[simp] theorem State.interrupt_undo (s : State) (v : Nat) : (s.interrupt v).undo = s.undo := rfl

/-! ### Reading back -/

@[simp] theorem State.core_setCore (s : State) (c : Nat) (k : Core) : (s.setCore c k).core c = k := tget_tput_self _ _ _ _
theorem State.core_setCore_ne (s : State) {c d : Nat} (k : Core) (h : d ≠ c) : (s.setCore c k).core d = s.core d :=
  tget_tput_ne _ _ _ h
@[simp] theorem State.core_modCore (s : State) (c : Nat) (f : Core → Core) : (s.modCore c f).core c = f (s.core c) :=
  State.core_setCore s c _
theorem State.core_modCore_ne (s : State) {c d : Nat} (f : Core → Core) (h : d ≠ c) : (s.modCore c f).core d = s.core d :=
  State.core_setCore_ne s _ h
@[simp] theorem State.setCore_setCore (s : State) (c : Nat) (k l : Core) : (s.setCore c k).setCore c l = s.setCore c l := by
  simp [State.setCore]
@[simp] theorem State.modCore_modCore (s : State) (c : Nat) (f g : Core → Core) :
    (s.modCore c f).modCore c g = s.modCore c fun k => g (f k) := by simp [State.modCore]

@[simp] theorem State.part_setPart (s : State) (p : Nat) (k : Part) : (s.setPart p k).part p = k := tget_tput_self _ _ _ _
theorem State.part_setPart_ne (s : State) {p q : Nat} (k : Part) (h : q ≠ p) : (s.setPart p k).part q = s.part q :=
  tget_tput_ne _ _ _ h
@[simp] theorem State.part_modPart (s : State) (p : Nat) (f : Part → Part) : (s.modPart p f).part p = f (s.part p) :=
  State.part_setPart s p _
theorem State.part_modPart_ne (s : State) {p q : Nat} (f : Part → Part) (h : q ≠ p) : (s.modPart p f).part q = s.part q :=
  State.part_setPart_ne s _ h

@[simp] theorem State.entry_setEntry (s : State) (e : Nat) (k : Entry) : (s.setEntry e k).entry e = k := tget_tput_self _ _ _ _
theorem State.entry_setEntry_ne (s : State) {e i : Nat} (k : Entry) (h : i ≠ e) : (s.setEntry e k).entry i = s.entry i :=
  tget_tput_ne _ _ _ h
@[simp] theorem State.entry_modEntry (s : State) (e : Nat) (f : Entry → Entry) : (s.modEntry e f).entry e = f (s.entry e) :=
  State.entry_setEntry s e _

@[simp] theorem State.core_popItem (s : State) (c : Nat) : s.popItem.core c = s.core c := rfl
@[simp] theorem State.part_popItem (s : State) (p : Nat) : s.popItem.part p = s.part p := rfl
@[simp] theorem State.entry_popItem (s : State) (e : Nat) : s.popItem.entry e = s.entry e := rfl
@[simp] theorem State.core_setPart (s : State) (p : Nat) (k : Part) (c : Nat) : (s.setPart p k).core c = s.core c := rfl
@[simp] theorem State.core_modPart (s : State) (p : Nat) (f : Part → Part) (c : Nat) : (s.modPart p f).core c = s.core c := rfl
@[simp] theorem State.part_setCore (s : State) (c : Nat) (k : Core) (p : Nat) : (s.setCore c k).part p = s.part p := rfl
@[simp] theorem State.part_modCore (s : State) (c : Nat) (f : Core → Core) (p : Nat) : (s.modCore c f).part p = s.part p := rfl
@[simp] theorem State.core_addDue (s : State) (p : Nat) (d : Due) (c : Nat) : (s.addDue p d).core c = s.core c := rfl
@[simp] theorem State.entry_setCore (s : State) (c : Nat) (k : Core) (e : Nat) : (s.setCore c k).entry e = s.entry e := rfl
@[simp] theorem State.entry_setPart (s : State) (p : Nat) (k : Part) (e : Nat) : (s.setPart p k).entry e = s.entry e := rfl

/-! ### Every core of a list -/

/-- What holds of the state and survives an update of one core holds after an update of many. -/
theorem State.modCores_keeps (P : State → Prop) (f : Core → Core) (h : ∀ s c, P s → P (s.modCore c f)) (l : List Nat)
    (s : State) (hs : P s) : P (s.modCores l f) := by
  induction l generalizing s with
  | nil => exact hs
  | cons c l ih => exact ih _ (h s c hs)

@[simp] theorem State.modCores_parts (s : State) (l : List Nat) (f : Core → Core) : (s.modCores l f).parts = s.parts :=
  State.modCores_keeps (fun t => t.parts = s.parts) f (fun _ _ h => h) l s rfl
@[simp] theorem State.modCores_entries (s : State) (l : List Nat) (f : Core → Core) : (s.modCores l f).entries = s.entries :=
  State.modCores_keeps (fun t => t.entries = s.entries) f (fun _ _ h => h) l s rfl
@[simp] theorem State.modCores_irqs (s : State) (l : List Nat) (f : Core → Core) : (s.modCores l f).irqs = s.irqs :=
  State.modCores_keeps (fun t => t.irqs = s.irqs) f (fun _ _ h => h) l s rfl
@[simp] theorem State.modCores_wall (s : State) (l : List Nat) (f : Core → Core) : (s.modCores l f).wall = s.wall :=
  State.modCores_keeps (fun t => t.wall = s.wall) f (fun _ _ h => h) l s rfl

/-- A core outside the list is left alone. -/
theorem State.core_modCores_ne (s : State) (l : List Nat) (f : Core → Core) (c : Nat) (h : c ∉ l) :
    (s.modCores l f).core c = s.core c := by
  induction l generalizing s with
  | nil => rfl
  | cons a l ih =>
    simp only [List.mem_cons, not_or] at h
    exact (ih (s.modCore a f) h.2).trans (State.core_modCore_ne s f h.1)

/-- A core of the list is updated once when the list names it once. -/
theorem State.core_modCores (s : State) (l : List Nat) (f : Core → Core) (c : Nat) (h : c ∈ l) (hn : l.Nodup) :
    (s.modCores l f).core c = f (s.core c) := by
  induction l generalizing s with
  | nil => cases h
  | cons a l ih =>
    simp only [List.nodup_cons] at hn
    rcases List.mem_cons.mp h with rfl | h
    · exact (State.core_modCores_ne (s.modCore c f) l f c hn.1).trans (State.core_modCore s c f)
    · have hne : c ≠ a := fun e => hn.1 (e ▸ h)
      exact (ih (s.modCore a f) h hn.2).trans (by rw [State.core_modCore_ne s f hne])

/-! ### Delayed work -/

theorem mem_insertDue (d e : Due) (l : List Due) : e ∈ insertDue d l ↔ e = d ∨ e ∈ l := by
  induction l with
  | nil => simp [insertDue]
  | cons a l ih =>
    simp only [insertDue]
    split
    · simp
    · simp only [List.mem_cons, ih]
      constructor
      · rintro (h | h | h) <;> simp [h]
      · rintro (h | h | h) <;> simp [h]

/-- Adding a piece of work adds it and takes none away. -/
theorem State.mem_addDue (s : State) (p : Nat) (d e : Due) :
    e ∈ ((s.addDue p d).part p).pend ↔ e = d ∨ e ∈ (s.part p).pend := by
  simp [State.addDue, mem_insertDue]

/-- What `later` does: outside a handler run it adds the landing, in one it lands at once (18 R340). -/
theorem State.later_word (s : State) (x : Ctx) (n : Nat) (a : Act) (h : x.handler = false) :
    s.later x n a = s.addDue x.p ⟨n, unitPlace x.who.unit, x.who, a⟩ := by simp [State.later, h]

theorem State.later_handler (s : State) (x : Ctx) (n : Nat) (a : Act) (h : x.handler = true) :
    s.later x n a = s.modCore x.c fun k => k.landNow a := by simp [State.later, h]

theorem Core.landNow_eq (k : Core) (a : Act) (h : ∀ i v, a ≠ .mailbox i v) : k.landNow a = k.land a := by
  unfold Core.landNow
  split
  · exact absurd rfl (h _ _)
  · rfl

/-- Of the acts only MBW's keeps account of what BAR2 shows. -/
theorem Core.mbwLand_eq (k : Core) (t : Nat) (a : Act) (h : ∀ i v, a ≠ .mailbox i v) : k.mbwLand t a = k.land a := by
  unfold Core.mbwLand
  split
  · exact absurd rfl (h _ _)
  · rfl

/-! ### The freeze count of a partition (19 R370) -/

@[simp] theorem Part.freeze_countFrom (k : Part) (w : Nat) : (k.freeze w).countFrom = some (k.countFrom.getD w) := rfl
@[simp] theorem Part.freeze_counted (k : Part) (w : Nat) : (k.freeze w).counted = k.counted := rfl
@[simp] theorem Part.freeze_tick (k : Part) (w : Nat) : (k.freeze w).tick = k.tick := rfl
@[simp] theorem Part.freeze_pend (k : Part) (w : Nat) : (k.freeze w).pend = k.pend := rfl
@[simp] theorem Part.stopCount_countFrom (k : Part) (w : Nat) : (k.stopCount w).countFrom = none := rfl
@[simp] theorem Part.stopCount_frozenAt (k : Part) (w : Nat) : (k.stopCount w).frozenAt = k.frozenAt := rfl
@[simp] theorem Part.stopCount_tick (k : Part) (w : Nat) : (k.stopCount w).tick = k.tick := rfl
@[simp] theorem Part.stopCount_pend (k : Part) (w : Nat) : (k.stopCount w).pend = k.pend := rfl

/-- Stopping the count twice keeps what the first stop kept. -/
@[simp] theorem Part.stopCount_stopCount (k : Part) (v w : Nat) : (k.stopCount v).stopCount w = k.stopCount v := by
  simp [Part.stopCount]

/-! ### The loop buffers that a trap empties (05 R112) -/

@[simp] theorem Part.release_loops (k : Part) : k.release.loops =
    k.loops.map fun l => { l with captured := [], released := l.released ++ l.captured } := rfl
@[simp] theorem Part.release_tick (k : Part) : k.release.tick = k.tick := rfl
@[simp] theorem Part.release_pend (k : Part) : k.release.pend = k.pend := rfl
@[simp] theorem Part.release_waits (k : Part) : k.release.waits = k.waits := rfl
@[simp] theorem Part.release_trap (k : Part) : k.release.trap = k.trap := rfl

/-- No loop buffer holds a body after a trap, until its level has captured it again. -/
theorem Part.release_captured (k : Part) (l : Level) (h : l ∈ k.release.loops) : l.captured = [] := by
  simp only [Part.release_loops, List.mem_map] at h
  obtain ⟨a, -, rfl⟩ := h
  rfl

/-! ### The cursors of faulting streams (07 R175) -/

/-- A stream that nothing has written since it was pointed at its fault goes on from its own cursor. -/
theorem State.unaim_shown (s : State) (a : Aimed) (h : (s.core a.core).getCur a.st = a.shown) :
    (s.unaim a).core a.core = (s.core a.core).setCur a.st a.own := by simp [State.unaim, h]

/-- A cursor that a handler has written stays as it is. -/
theorem State.unaim_written (s : State) (a : Aimed) (h : (s.core a.core).getCur a.st ≠ a.shown) :
    (s.unaim a).core a.core = s.core a.core := by simp [State.unaim, h]

end Sys2Proof.Machine
end

