-- ==== Sys2Proof/Laws/Words.lean ====
section
/-! SUPPORT. What the common part of the three kinds of words can do, once for each: a native word at its check, at its
issue and in a handler run; an engine word; a portable instruction. -/

namespace Sys2Proof.Machine

/-! ### Native words -/

theorem nativeWord_issue {cl cl' : Cluster} {i : Instr} {f : Frame} {pr : Ctx → State → Probe} {e : Ctx → State → State}
    {s : State} {p c : Nat} {l : List Item} (ha : s.agenda = .issue p c cl' :: l) (hg : s.guardTrue p c f = true)
    (hv : (s.part p).voids.contains (c, cl) = false) :
    nativeWord cl i f pr e s = e (s.ctx p c cl) (s.popItem.advance p c cl f.w.val) := by
  have h2 : s.popItem.guardTrue p c f = true := hg
  have h3 : (s.popItem.part p).voids.contains (c, cl) = false := hv
  simp only [nativeWord, ha, h2, h3]; rfl

/-- A word with a false guard, or one that a trap skipped, only moves its cluster past itself. -/
theorem nativeWord_skip {cl cl' : Cluster} {i : Instr} {f : Frame} {pr : Ctx → State → Probe} {e : Ctx → State → State}
    {s : State} {p c : Nat} {l : List Item} (ha : s.agenda = .issue p c cl' :: l)
    (h : (s.guardTrue p c f && !(s.part p).voids.contains (c, cl)) = false) :
    nativeWord cl i f pr e s = s.popItem.advance p c cl f.w.val := by
  have h2 : (s.popItem.guardTrue p c f && !(s.popItem.part p).voids.contains (c, cl)) = false := h
  simp only [nativeWord, ha, h2]; rfl

theorem nativeWord_handler {cl : Cluster} {i : Instr} {f : Frame} {pr : Ctx → State → Probe} {e : Ctx → State → State}
    {s : State} {p c : Nat} {l : List Item} (ha : s.agenda = .handler p c :: l) (hg : s.guardTrue p c f = true)
    (hi : handlerIllegal i = false) (hp : (wordProbe i (s.handlerCtx p c) (pr (s.handlerCtx p c) s.popItem)).conds = []) :
    nativeWord cl i f pr e s =
      e (s.handlerCtx p c) (s.popItem.modCore c fun k => { k with handler := k.handler + 1 }) := by
  have h2 : s.popItem.guardTrue p c f = true := hg
  have h3 : (wordProbe i (s.popItem.handlerCtx p c) (pr (s.popItem.handlerCtx p c) s.popItem)).conds = [] := hp
  simp only [nativeWord, ha, h2, hi, h3]; rfl

theorem nativeWord_handler_skip {cl : Cluster} {i : Instr} {f : Frame} {pr : Ctx → State → Probe}
    {e : Ctx → State → State} {s : State} {p c : Nat} {l : List Item} (ha : s.agenda = .handler p c :: l)
    (hg : s.guardTrue p c f = false) :
    nativeWord cl i f pr e s = s.popItem.modCore c fun k => { k with handler := k.handler + 1 } := by
  have h2 : s.popItem.guardTrue p c f = false := hg
  simp only [nativeWord, ha, h2]; rfl

/-- A condition of a handler word goes to the handler's own trap rules. -/
theorem nativeWord_handler_trap {cl : Cluster} {i : Instr} {f : Frame} {pr : Ctx → State → Probe}
    {e : Ctx → State → State} {s : State} {p c : Nat} {l : List Item} {k : Cls} {v : Word} {b : Bool}
    {r : List (Cls × Word × Bool)} (ha : s.agenda = .handler p c :: l)
    (hg : s.guardTrue p c f = true) (hi : handlerIllegal i = false)
    (hp : (wordProbe i (s.handlerCtx p c) (pr (s.handlerCtx p c) s.popItem)).conds = (k, v, b) :: r) :
    nativeWord cl i f pr e s = s.popItem.handlerTrap (s.handlerCtx p c) k v := by
  have h2 : s.popItem.guardTrue p c f = true := hg
  have h3 : (wordProbe i (s.popItem.handlerCtx p c) (pr (s.popItem.handlerCtx p c) s.popItem)).conds = (k, v, b) :: r := hp
  simp only [nativeWord, ha, h2, hi, h3]; rfl

theorem nativeWord_handler_illegal {cl : Cluster} {i : Instr} {f : Frame} {pr : Ctx → State → Probe}
    {e : Ctx → State → State} {s : State} {p c : Nat} {l : List Item} (ha : s.agenda = .handler p c :: l)
    (hg : s.guardTrue p c f = true) (hi : handlerIllegal i = true) :
    nativeWord cl i f pr e s =
      s.popItem.handlerTrap (s.handlerCtx p c) .illegalEncoding (s.handlerCtx p c).who.word := by
  have h2 : s.popItem.guardTrue p c f = true := hg
  simp only [nativeWord, ha, h2, hi]; rfl

/-- A word at its check raises what its probe finds, and nothing with a false guard. -/
theorem nativeWord_check {cl cl' : Cluster} {i : Instr} {f : Frame} {pr : Ctx → State → Probe} {e : Ctx → State → State}
    {s : State} {p c : Nat} {l : List Item} (ha : s.agenda = .check p c cl' :: l) :
    nativeWord cl i f pr e s =
      if s.guardTrue p c f then raiseProbe (s.ctx p c cl) cl s.popItem (wordProbe i (s.ctx p c cl) (pr (s.ctx p c cl) s.popItem))
      else s.popItem := by
  simp only [nativeWord, ha]; rfl

/-! ### What moving past a word leaves alone -/

theorem State.core_advance (s : State) (p c : Nat) (cl : Cluster) (w d : Nat) :
    ∃ cur, (s.advance p c cl w).core d = if d = c then (s.core c).setCursor cl cur else s.core d := by
  by_cases h : d = c
  · subst h
    simp only [if_true]
    exact ⟨_, State.core_modCore s d fun k => k.setCursor cl _⟩
  · refine ⟨Cursor.idle, ?_⟩
    simp only [State.advance, h, if_false]
    exact State.core_modCore_ne s _ h

@[simp] theorem State.advance_x (s : State) (p c : Nat) (cl : Cluster) (w d : Nat) :
    ((s.advance p c cl w).core d).x = (s.core d).x := by
  obtain ⟨cur, h⟩ := State.core_advance s p c cl w d
  rw [h]; by_cases hd : d = c <;> simp [hd, Core.setCursor]

@[simp] theorem State.advance_c (s : State) (p c : Nat) (cl : Cluster) (w d : Nat) :
    ((s.advance p c cl w).core d).c = (s.core d).c := by
  obtain ⟨cur, h⟩ := State.core_advance s p c cl w d
  rw [h]; by_cases hd : d = c <;> simp [hd, Core.setCursor]

@[simp] theorem State.advance_v (s : State) (p c : Nat) (cl : Cluster) (w d : Nat) :
    ((s.advance p c cl w).core d).v = (s.core d).v := by
  obtain ⟨cur, h⟩ := State.core_advance s p c cl w d
  rw [h]; by_cases hd : d = c <;> simp [hd, Core.setCursor]

@[simp] theorem State.advance_parts (s : State) (p c : Nat) (cl : Cluster) (w : Nat) :
    (s.advance p c cl w).parts = s.parts := rfl

/-- Moving past a word changes the cluster's own cursor and nothing else of its core. -/
theorem State.advance_cursor_ne (s : State) (p c : Nat) {cl cl' : Cluster} (w d : Nat) (h : cl' ≠ cl) :
    ((s.advance p c cl w).core d).cursor cl' = (s.core d).cursor cl' := by
  obtain ⟨cur, hc⟩ := State.core_advance s p c cl w d
  rw [hc]
  by_cases hd : d = c
  · subst hd
    have hn : clNum cl' ≠ clNum cl := by cases cl <;> cases cl' <;> simp_all [clNum]
    simp [Core.setCursor, Core.cursor, tget_tput_ne _ _ _ hn]
  · simp [hd]

/-! ### Engine words -/

theorem engineWord_runs {pops pushes : Nat} {launch : Bool} {tg : Engine → List Word → Option Int}
    {pr : Ctx → EngineId → List Word → State → EngProbe} {ef : Ctx → EngineId → List Word → State → State}
    {s : State} {p c : Nat} {e : EngineId} {l : List Item} (ha : s.agenda = .engine p c e :: l)
    (hr : ((s.core c).getEng (engNum e)).ready launch (s.part p).tick = true) :
    engineWord pops pushes launch tg pr ef s =
      ef (s.engCtx p c e) e (((s.core c).getEng (engNum e)).stack.take pops)
        (s.popItem.modCore c fun k => k.modEng (engNum e) fun g =>
          { g with stack := g.stack.drop pops
                   pc := (((s.core c).getEng (engNum e)).nextIndex
                     (tg ((s.core c).getEng (engNum e)) (((s.core c).getEng (engNum e)).stack.take pops))).toNat
                   rep := match g.rep with | some (n + 2) => some (n + 1) | _ => none }) := by
  have h : ((s.popItem.core c).getEng (engNum e)).ready launch (s.popItem.engCtx p c e).t = true := hr
  simp only [engineWord, ha, h]; rfl

/-- A launch word waits while its datapath is busy. -/
theorem engineWord_waits {pops pushes : Nat} {launch : Bool} {tg : Engine → List Word → Option Int}
    {pr : Ctx → EngineId → List Word → State → EngProbe} {ef : Ctx → EngineId → List Word → State → State}
    {s : State} {p c : Nat} {e : EngineId} {l : List Item} (ha : s.agenda = .engine p c e :: l)
    (hr : ((s.core c).getEng (engNum e)).ready launch (s.part p).tick = false) :
    engineWord pops pushes launch tg pr ef s = s.popItem := by
  have h : ((s.popItem.core c).getEng (engNum e)).ready launch (s.popItem.engCtx p c e).t = false := hr
  simp only [engineWord, ha, h]; rfl

@[simp] theorem Core.getEng_setEng (k : Core) (i : Nat) (g : Engine) : (k.setEng i g).getEng i = g := tget_tput_self _ _ _ _
@[simp] theorem Core.getEng_modEng (k : Core) (i : Nat) (f : Engine → Engine) : (k.modEng i f).getEng i = f (k.getEng i) :=
  Core.getEng_setEng k i _
@[simp] theorem Core.modEng_modEng (k : Core) (i : Nat) (f g : Engine → Engine) :
    (k.modEng i f).modEng i g = k.modEng i fun e => g (f e) := by
  simp [Core.modEng, Core.setEng, Core.getEng]
@[simp] theorem Core.getSa_setSa (k : Core) (i : Nat) (a : SubArray) : (k.setSa i a).getSa i = a := tget_tput_self _ _ _ _
@[simp] theorem Core.getSa_modSa (k : Core) (i : Nat) (f : SubArray → SubArray) : (k.modSa i f).getSa i = f (k.getSa i) :=
  Core.getSa_setSa k i _
@[simp] theorem Core.getGrid_setGrid (k : Core) (i : Nat) (g : Grid) : (k.setGrid i g).getGrid i = g := tget_tput_self _ _ _ _

/-! ### Portable instructions -/

theorem portableWord_runs {u : HwUnit} {pr : Ctx → State → Probe} {e : Ctx → State → State × Next} {s : State}
    {p c : Nat} {l : List Item} (ha : s.agenda = .portable p c :: l) (hv : (s.part p).voids.contains (c, .s) = false) :
    portableWord u pr e s = (e (s.portCtx p c u) s.popItem).1.portDone p c (e (s.portCtx p c u) s.popItem).2 := by
  have h : (s.popItem.part p).voids.contains (c, .s) = false := hv
  simp only [portableWord, ha, h]; rfl

/-- An instruction that a trap skipped lets its core go on. -/
theorem portableWord_skip {u : HwUnit} {pr : Ctx → State → Probe} {e : Ctx → State → State × Next} {s : State}
    {p c : Nat} {l : List Item} (ha : s.agenda = .portable p c :: l) (hv : (s.part p).voids.contains (c, .s) = true) :
    portableWord u pr e s = s.popItem.portVote p c (.on 1) := by
  have h : (s.popItem.part p).voids.contains (c, .s) = true := hv
  simp only [portableWord, ha, h]; rfl

end Sys2Proof.Machine
end

