-- ==== Sys2Proof/Laws/Access.lean ====
section
/-! SUPPORT. What the pieces of a memory access change: each of them adds delayed work and takes none away, and none
touches memory or a register before its landing. -/

namespace Sys2Proof.Machine

/-- `u` holds the data and registers of `t`; only work in flight, queues and bookkeeping may differ. -/
structure DataKept (t u : State) : Prop where
  hbm : u.hbm = t.hbm
  hostMem : u.hostMem = t.hostMem
  ring : ∀ c, (u.core c).ring = (t.core c).ring
  pocket : ∀ c, (u.core c).pocket = (t.core c).pocket
  x : ∀ c, (u.core c).x = (t.core c).x
  c : ∀ c, (u.core c).c = (t.core c).c
  v : ∀ c, (u.core c).v = (t.core c).v
  k : ∀ c, (u.core c).k = (t.core c).k
  st : ∀ c, (u.core c).st = (t.core c).st
  lt : ∀ c, (u.core c).lt = (t.core c).lt

theorem DataKept.refl (t : State) : DataKept t t :=
  ⟨rfl, rfl, fun _ => rfl, fun _ => rfl, fun _ => rfl, fun _ => rfl, fun _ => rfl, fun _ => rfl, fun _ => rfl, fun _ => rfl⟩

theorem DataKept.trans {a b c : State} (h : DataKept a b) (i : DataKept b c) : DataKept a c :=
  ⟨i.hbm.trans h.hbm, i.hostMem.trans h.hostMem, fun n => (i.ring n).trans (h.ring n), fun n => (i.pocket n).trans (h.pocket n),
    fun n => (i.x n).trans (h.x n), fun n => (i.c n).trans (h.c n), fun n => (i.v n).trans (h.v n),
    fun n => (i.k n).trans (h.k n), fun n => (i.st n).trans (h.st n), fun n => (i.lt n).trans (h.lt n)⟩

/-- A change of anything but the cores and the memories. -/
theorem DataKept.of_cores {t u : State} (h1 : u.hbm = t.hbm) (h2 : u.hostMem = t.hostMem) (h3 : u.cores = t.cores) :
    DataKept t u := by
  have h : ∀ c, u.core c = t.core c := fun c => by unfold State.core; rw [h3]
  constructor <;> first | assumption | (intro c; rw [h])

theorem DataKept.modPart (s : State) (p : Nat) (f : Part → Part) : DataKept s (s.modPart p f) := .of_cores rfl rfl rfl
theorem DataKept.addDue (s : State) (p : Nat) (d : Due) : DataKept s (s.addDue p d) := .of_cores rfl rfl rfl
theorem DataKept.nextSeq (s : State) (p : Nat) : DataKept s (s.nextSeq p).1 := .of_cores rfl rfl rfl

/-- An update of one core that keeps its data. -/
theorem DataKept.setCore (s : State) (c : Nat) (k : Core)
    (h : k.ring = (s.core c).ring ∧ k.pocket = (s.core c).pocket ∧ k.x = (s.core c).x ∧ k.c = (s.core c).c ∧
      k.v = (s.core c).v ∧ k.k = (s.core c).k ∧ k.st = (s.core c).st ∧ k.lt = (s.core c).lt) : DataKept s (s.setCore c k) := by
  obtain ⟨h1, h2, h3, h4, h5, h6, h7, h8⟩ := h
  constructor <;> try rfl
  all_goals
    intro d
    by_cases hd : d = c
    · subst hd; simp [*]
    · rw [State.core_setCore_ne s k hd]

theorem DataKept.modCore (s : State) (c : Nat) (f : Core → Core)
    (h : ∀ k, (f k).ring = k.ring ∧ (f k).pocket = k.pocket ∧ (f k).x = k.x ∧ (f k).c = k.c ∧ (f k).v = k.v ∧
      (f k).k = k.k ∧ (f k).st = k.st ∧ (f k).lt = k.lt) : DataKept s (s.modCore c f) :=
  DataKept.setCore s c _ (h (s.core c))

/-- Outside a handler run a landing is delayed work and no more. -/
theorem DataKept.later (s : State) (x : Ctx) (n : Nat) (a : Act) (h : x.handler = false) : DataKept s (s.later x n a) := by
  rw [State.later_word s x n a h]; exact DataKept.addDue s _ _

theorem DataKept.sampleAt (s : State) (x : Ctx) (n : Nat) (a : Act) : DataKept s (s.sampleAt x n a) := .of_cores rfl rfl rfl

theorem DataKept.pop (s : State) (c q : Nat) : DataKept s (s.pop c q).1 := by
  unfold State.pop
  split
  · exact DataKept.refl s
  · rename_i l _
    exact DataKept.modCore s c (fun k => k.setQueue q l) fun k => ⟨rfl, rfl, rfl, rfl, rfl, rfl, rfl, rfl⟩

theorem DataKept.claim (s : State) (c q n : Nat) : DataKept s (s.claim c q n).1 :=
  DataKept.setCore s c _ ⟨rfl, rfl, rfl, rfl, rfl, rfl, rfl, rfl⟩

theorem DataKept.claimUnits (s : State) (c target n seq : Nat) : DataKept s (s.claimUnits c target n seq) := by
  unfold State.claimUnits
  split
  · exact DataKept.refl s
  · split
    · exact DataKept.refl s
    · split <;> exact DataKept.modCore s c _ fun k => ⟨rfl, rfl, rfl, rfl, rfl, rfl, rfl, rfl⟩

theorem DataKept.claimWindow (s : State) (c : Nat) (l : Lay) (n seq : Nat) : DataKept s (s.claimWindow c l n seq) := by
  unfold State.claimWindow
  split
  · exact DataKept.claimUnits s c _ _ _
  · exact DataKept.refl s

theorem DataKept.fenceWait (s : State) (x : Ctx) (sc : Scope) (t u : Nat) (ld st : Bool) :
    DataKept s (s.fenceWait x sc t u ld st) := DataKept.addDue s _ _

theorem DataKept.orderWait (s : State) (x : Ctx) (o : Order) (sc : Scope) (tm : Timing) :
    DataKept s (s.orderWait x o sc tm) := by
  have rel : DataKept s (if o == .rel || o == .ar then
      (s.fenceWait x sc tm.relL x.t true false).fenceWait x sc tm.relS x.t false true else s) := by
    split
    · exact (DataKept.fenceWait s x sc _ _ _ _).trans (DataKept.fenceWait _ x sc _ _ _ _)
    · exact DataKept.refl s
  unfold State.orderWait
  dsimp only
  split
  · exact rel.trans (DataKept.fenceWait _ x sc _ _ _ _)
  · exact rel

theorem DataKept.advanceStream (s : State) (x : Ctx) (n : Nat) (adv : Adv) (m : Nat) (h : x.handler = false) :
    DataKept s (s.advanceStream x n adv m) := by
  unfold State.advanceStream
  dsimp only
  split
  · exact DataKept.later s x _ _ h
  · exact DataKept.refl s

/-- The delayed work of partition `p` in `t` is still there in `u`. -/
def WorkKept (p : Nat) (t u : State) : Prop := ∀ d ∈ (t.part p).pend, d ∈ (u.part p).pend

theorem WorkKept.refl (p : Nat) (t : State) : WorkKept p t t := fun _ h => h
theorem WorkKept.trans {p : Nat} {a b c : State} (h : WorkKept p a b) (i : WorkKept p b c) : WorkKept p a c :=
  fun d hd => i d (h d hd)
theorem WorkKept.of_parts {p : Nat} {a b : State} (h : b.parts = a.parts) : WorkKept p a b := by
  intro d hd; unfold State.part at hd ⊢; rw [h]; exact hd

theorem WorkKept.addDue (s : State) (p : Nat) (d : Due) : WorkKept p s (s.addDue p d) :=
  fun e he => (State.mem_addDue s p d e).mpr (Or.inr he)

theorem WorkKept.later (s : State) (x : Ctx) (n : Nat) (a : Act) (h : x.handler = false) : WorkKept x.p s (s.later x n a) := by
  rw [State.later_word s x n a h]; exact WorkKept.addDue s _ _

theorem WorkKept.nextSeq (s : State) (p q : Nat) : WorkKept p s (s.nextSeq q).1 := by
  intro d hd
  by_cases h : p = q
  · subst h; simpa [State.nextSeq] using hd
  · simpa [State.nextSeq, State.part_modPart_ne s _ h] using hd

theorem WorkKept.fenceWait (s : State) (x : Ctx) (sc : Scope) (t u : Nat) (ld st : Bool) :
    WorkKept x.p s (s.fenceWait x sc t u ld st) := WorkKept.addDue s _ _

theorem WorkKept.orderWait (s : State) (x : Ctx) (o : Order) (sc : Scope) (tm : Timing) :
    WorkKept x.p s (s.orderWait x o sc tm) := by
  have rel : WorkKept x.p s (if o == .rel || o == .ar then
      (s.fenceWait x sc tm.relL x.t true false).fenceWait x sc tm.relS x.t false true else s) := by
    split
    · exact (WorkKept.fenceWait s x sc _ _ _ _).trans (WorkKept.fenceWait _ x sc _ _ _ _)
    · exact WorkKept.refl _ s
  unfold State.orderWait
  dsimp only
  split
  · exact rel.trans (WorkKept.fenceWait _ x sc _ _ _ _)
  · exact rel

theorem WorkKept.advanceStream (s : State) (x : Ctx) (n : Nat) (adv : Adv) (m : Nat) (h : x.handler = false) :
    WorkKept x.p s (s.advanceStream x n adv m) := by
  unfold State.advanceStream
  dsimp only
  split
  · exact WorkKept.later s x _ _ h
  · exact WorkKept.refl _ s

theorem State.pop_parts (s : State) (c q : Nat) : (s.pop c q).1.parts = s.parts := by
  unfold State.pop; split <;> rfl
theorem State.claimUnits_parts (s : State) (c target n seq : Nat) : (s.claimUnits c target n seq).parts = s.parts := by
  unfold State.claimUnits
  split
  · rfl
  · split
    · rfl
    · split <;> rfl
theorem State.claimWindow_parts (s : State) (c : Nat) (l : Lay) (n seq : Nat) : (s.claimWindow c l n seq).parts = s.parts := by
  unfold State.claimWindow
  split
  · exact State.claimUnits_parts s c _ _ _
  · rfl

/-- What the stream's advance adds. -/
theorem State.mem_advanceStream (s : State) (x : Ctx) (n : Nat) (adv : Adv) (m : Nat) (c : BitVec 128) (h : x.handler = false)
    (hc : cursorAfter ((s.core x.c).stream n).1 ((s.core x.c).stream n).2 adv m = some c) :
    ⟨x.t + 1, unitPlace x.who.unit, x.who, .cursor n c⟩ ∈ ((s.advanceStream x n adv m).part x.p).pend := by
  unfold State.advanceStream
  simp only [hc, State.later_word _ _ _ _ h]
  exact (State.mem_addDue s x.p _ _).mpr (Or.inl rfl)

end Sys2Proof.Machine
end

