-- ==== Sys2Proof/Laws/Canonical.lean ====
section
/-! SUPPORT. The canonical form of memory: what keeps it. A step that leaves the four memories alone keeps it
(`canonical.of_same`), and so does every write of the model: to a place, by its own tick, as an arrival or as an atomic's value, of
a save area and of an object's data. -/

namespace Sys2Proof.Machine

/-! ### Memories -/

theorem risingFrom_filter {α : Type} (t : Tbl α) (q : Nat × α → Bool) (lo : Option Nat) (h : risingFrom lo t = true) :
    risingFrom lo (t.filter q) = true := by
  induction t generalizing lo with
  | nil => rfl
  | cons e t ih =>
    have hs : risingFrom (some e.1) t = true := by
      cases lo with
      | none => exact h
      | some a => simp only [risingFrom, Bool.and_eq_true] at h; exact h.2
    by_cases hq : q e = true
    · rw [List.filter_cons_of_pos hq]
      cases lo with
      | none => exact ih (some e.1) hs
      | some a =>
        simp only [risingFrom, Bool.and_eq_true] at h ⊢
        exact ⟨h.1, ih (some e.1) hs⟩
    · rw [List.filter_cons_of_neg hq]
      cases lo with
      | none =>
        cases t with
        | nil => rfl
        | cons f t => exact ih none (by simp only [risingFrom, Bool.and_eq_true] at hs; exact hs.2)
      | some a =>
        simp only [risingFrom, Bool.and_eq_true, decide_eq_true_eq] at h
        exact ih (some a) (risingFrom_weaken t hs (by omega))

theorem Memory.wf_nil : Memory.wf [] = true := rfl

/-- Leaving entries out keeps the canonical form. -/
theorem Memory.wf_filter (m : Memory) (q : Nat × Byte → Bool) (h : Memory.wf m = true) : Memory.wf (m.filter q) = true := by
  simp only [Memory.wf, Bool.and_eq_true] at h ⊢
  exact ⟨risingFrom_filter m q none h.1, List.all_eq_true.mpr fun e he =>
    List.all_eq_true.mp h.2 e (List.mem_filter.mp he).1⟩

theorem Memory.wf_clear (m : Memory) (a n : Nat) (h : Memory.wf m = true) : Memory.wf (Memory.clear m a n) = true :=
  Memory.wf_filter m _ h

/-- The data of an object over a memory. -/
theorem wf_fillMemory (m : Memory) (l : List DataBlock) (h : Memory.wf m = true) : Memory.wf (fillMemory m l) = true := by
  unfold fillMemory
  induction l generalizing m with
  | nil => exact h
  | cons d l ih => exact ih _ (Memory.wf_writeBytes m _ _ h)

/-- The memories of a core as an object loads it. -/
theorem Core.wf_ofObject (o : Object) (m : Nat) :
    Memory.wf (Core.ofObject o m).ring = true ∧ Memory.wf (Core.ofObject o m).pocket = true :=
  ⟨wf_fillMemory _ _ rfl, wf_fillMemory _ _ rfl⟩

end Sys2Proof.Machine

namespace Sys2Proof.Claims

open Sys2Proof.Machine

/-! ### States -/

/-- What leaves the memories alone keeps their form. -/
theorem canonical.of_same {s t : State} (h : canonical s) (hb : t.hbm = s.hbm) (hh : t.hostMem = s.hostMem)
    (hc : ∀ c, (t.core c).ring = (s.core c).ring ∧ (t.core c).pocket = (s.core c).pocket) (hu : t.undo = s.undo) :
    canonical t := by
  refine ⟨⟨hb ▸ h.1.1, hh ▸ h.1.2.1, fun c => ?_⟩, hu ▸ h.2⟩
  have := hc c
  unfold State.core at this
  rw [this.1, this.2]; exact h.1.2.2 c

/-- What stands for the edge in hand changes for a module whose memories have the form. -/
theorem canonical.ofUndo {s : State} {m : Module} (h : canonical s) (hm : s.undo = some m) : canonical ⟨m, none⟩ :=
  ⟨h.2 m hm, fun _ hn => nomatch hn⟩

/-- The edge begins: the module as it is stands for it. -/
theorem canonical.mark {s : State} (h : canonical s) : canonical { s with undo := some s.toModule } :=
  ⟨h.1, fun _ hn => by cases hn; exact h.1⟩

/-- The same, where no core changes at all. -/
theorem canonical.of_cores {s t : State} (h : canonical s) (hb : t.hbm = s.hbm) (hh : t.hostMem = s.hostMem)
    (hc : t.cores = s.cores) (hu : t.undo = s.undo) : canonical t :=
  h.of_same hb hh (fun c => by unfold State.core; rw [hc]; exact ⟨rfl, rfl⟩) hu

/-- A core replaced by one whose memories have the form. -/
theorem canonical.setCore {s : State} (h : canonical s) (c : Nat) (k : Core) (hr : Memory.wf k.ring = true)
    (hp : Memory.wf k.pocket = true) : canonical (s.setCore c k) := by
  refine ⟨⟨h.1.1, h.1.2.1, fun d => ?_⟩, h.2⟩
  show Memory.wf ((s.setCore c k).core d).ring = true ∧ Memory.wf ((s.setCore c k).core d).pocket = true
  by_cases hd : d = c
  · subst hd; rw [State.core_setCore]; exact ⟨hr, hp⟩
  · rw [State.core_setCore_ne s k hd]; exact h.1.2.2 d

theorem canonical.modCore {s : State} (h : canonical s) (c : Nat) (f : Core → Core)
    (hr : Memory.wf (f (s.core c)).ring = true) (hp : Memory.wf (f (s.core c)).pocket = true) : canonical (s.modCore c f) :=
  h.setCore c _ hr hp

/-- A core whose registers change and whose memories do not. -/
theorem canonical.modCore_same {s : State} (h : canonical s) (c : Nat) (f : Core → Core)
    (hr : (f (s.core c)).ring = (s.core c).ring) (hp : (f (s.core c)).pocket = (s.core c).pocket) :
    canonical (s.modCore c f) :=
  h.modCore c f (hr ▸ (h.1.2.2 c).1) (hp ▸ (h.1.2.2 c).2)

theorem canonical.modPart {s : State} (h : canonical s) (p : Nat) (f : Machine.Part → Machine.Part) : canonical (s.modPart p f) :=
  h.of_cores rfl rfl rfl rfl

theorem canonical.popItem {s : State} (h : canonical s) : canonical s.popItem := h.of_cores rfl rfl rfl rfl

theorem canonical.addDue {s : State} (h : canonical s) (p : Nat) (d : Due) : canonical (s.addDue p d) := h.of_cores rfl rfl rfl rfl

theorem canonical.addCond {s : State} (h : canonical s) (p : Nat) (c : TrapCond) : canonical (s.addCond p c) :=
  h.of_cores rfl rfl rfl rfl

theorem canonical.addWait {s : State} (h : canonical s) (p : Nat) (w : Wait) : canonical (s.addWait p w) :=
  h.of_cores rfl rfl rfl rfl

/-- A fold of steps each of which keeps the form. -/
theorem canonical.foldl {α : Type} (f : State → α → State) (hf : ∀ s a, canonical s → canonical (f s a)) (l : List α)
    {s : State} (h : canonical s) : canonical (l.foldl f s) := by
  induction l generalizing s with
  | nil => exact h
  | cons a l ih => exact ih (hf s a h)

/-! ### Clock edges -/

/-- A clock edge begins, or ends where no group is left on it. -/
theorem canonical.beginEdge {s : State} (h : canonical s) (l : List Nat) : canonical (s.beginEdge l) := by
  cases l with
  | nil => exact ⟨h.1, fun _ hn => nomatch hn⟩
  | cons g l => exact canonical.mark (s := { s with agenda := [.landings g], edge := g :: l }) ⟨h.1, h.2⟩

/-- Wakes that go on change a core's sub-arrays and nothing else. -/
theorem Core.keepWakes_data (k old : Core) : (k.keepWakes old).ring = k.ring ∧ (k.keepWakes old).pocket = k.pocket := by
  unfold Core.keepWakes
  induction old.sa generalizing k with
  | nil => exact ⟨rfl, rfl⟩
  | cons e l ih => simp only [List.foldl_cons]; split <;> exact ih _

/-- A tick taken back leaves memories that have the form. -/
theorem canonical.takeBack {s : State} (h : canonical s) (g : Nat) : canonical (s.takeBack g) := by
  unfold State.takeBack
  split
  · rename_i b hb
    refine canonical.foldl _ (fun t c ht => ?_) _ (h.ofUndo hb)
    exact ht.modCore_same c _ (Core.keepWakes_data _ _).1 (Core.keepWakes_data _ _).2
  · exact h

/-! ### Writes -/

theorem canonical.mended {s : State} (h : canonical s) (b : Bytes) (l : List Byte) (mask : Nat) : canonical (s.mended b l mask) := by
  unfold State.mended
  split
  · exact h
  · exact h.of_cores rfl rfl rfl rfl

/-- A write to a place of this module. -/
theorem canonical.writePlace {s : State} (h : canonical s) (b : Bytes) (l : List Byte) (mask : Nat) (p : Bool) :
    canonical (s.writePlace b l mask p) := by
  have hm := h.mended b l mask
  unfold State.writePlace
  cases b with
  | ring c o => exact hm.modCore c _ (Memory.wf_writeCells _ _ (hm.1.2.2 c).1) (hm.1.2.2 c).2
  | pocket c o => exact hm.modCore c _ (hm.1.2.2 c).1 (Memory.wf_writeCells _ _ (hm.1.2.2 c).2)
  | hbm pa => exact ⟨⟨Memory.wf_writeCells _ _ hm.1.1, hm.1.2.1, hm.1.2.2⟩, hm.2⟩
  | host pa => exact ⟨⟨hm.1.1, Memory.wf_writeCells _ _ hm.1.2.1, hm.1.2.2⟩, hm.2⟩
  | remote t o => exact hm
  | text h o => exact hm

theorem canonical.arrive {s : State} (h : canonical s) (q : Nat) (who : Who) (a : Act) : canonical (s.arrive q who a) :=
  h.addDue q _

theorem canonical.tellOthers {s : State} (h : canonical s) (p : Option Nat) (a : Arrived) : canonical (s.tellOthers p a) :=
  h.of_cores rfl rfl rfl rfl

/-- A write of a partition or of another agent. -/
theorem canonical.performWrite {s : State} (h : canonical s) (p : Option Nat) (b : Bytes) (l : List Byte) (mask : Nat)
    (pois : Bool) : canonical (s.performWrite p b l mask pois) :=
  (h.writePlace b l mask pois).tellOthers p _

theorem canonical.setPoison {s : State} (h : canonical s) (b : Bytes) (p : Bool) : canonical (s.setPoison b p) := by
  unfold State.setPoison
  split
  · exact h.modCore_same _ _ rfl rfl
  · exact h.modCore_same _ _ rfl rfl
  · exact h

/-- A write that lands by its own tick. -/
theorem canonical.landWrite {s : State} (h : canonical s) (p : Nat) (b : Bytes) (l : List Byte) (mask : Nat) (pois : Bool) :
    canonical (s.landWrite p b l mask pois) := by
  unfold State.landWrite
  dsimp only
  split
  · exact h.performWrite _ _ _ _ _
  · split
    · exact h
    · split
      · exact (h.performWrite _ _ _ _ _).setPoison _ _
      · exact h.performWrite _ _ _ _ _

theorem canonical.landAtomic {s : State} (h : canonical s) (p : Nat) (b : Bytes) (l : List Byte) :
    canonical (s.landAtomic p b l) := by
  unfold State.landAtomic
  exact canonical.foldl _ (fun _ _ ht => ht.modPart _ _) _ (h.performWrite (some p) b l _ _)

/-- A write of a partition, however it takes effect. -/
theorem canonical.writeAt {s : State} (h : canonical s) (p : Nat) (how : Landing) (b : Bytes) (l : List Byte) (mask : Nat)
    (pois : Bool) : canonical (s.writeAt p how b l mask pois) := by
  cases how with
  | own => exact h.landWrite p b l mask pois
  | arrival => exact h.performWrite (some p) b l mask pois
  | atomic => exact h.landAtomic p b l

theorem canonical.pinSave {s : State} (h : canonical s) (p pa : Nat) : canonical (s.pinSave p pa) := h.of_cores rfl rfl rfl rfl

/-- A save area written. -/
theorem canonical.writeSave {s : State} (h : canonical s) (o : Object) (p pa : Nat) : canonical (s.writeSave o p pa) := by
  unfold State.writeSave
  refine canonical.pinSave (canonical.foldl _ (fun _ _ ht => ht.tellOthers _ _) _ ?_) p pa
  exact canonical.tellOthers (s := { s with hbm := _ })
    ⟨⟨Memory.wf_writeCells _ _ (Memory.wf_clear _ _ _ h.1.1), h.1.2.1, h.1.2.2⟩, h.2⟩ _ _

end Sys2Proof.Claims
end

