-- ==== Sys2Proof/Laws/Elements.lean ====
section
/-! SUPPORT. Elements of rows: reading an element of a row that was made from a list of elements. -/

namespace Sys2Proof.Machine

theorem rowOfElems_lt (b : Nat) (l : List Nat) : rowOfElems b l < 2 ^ (b * l.length) := by
  induction l with
  | nil => simp [rowOfElems]
  | cons e l ih =>
    have h : e % 2 ^ b < 2 ^ b := Nat.mod_lt _ (by positivity)
    have h2 : 2 ^ (b * (l.length + 1)) = 2 ^ b * 2 ^ (b * l.length) := by rw [← pow_add]; congr 1; ring
    simp only [rowOfElems, List.length_cons, h2]
    nlinarith [Nat.mul_le_mul_left (2 ^ b) ih]

theorem rowOfElems_div (b : Nat) (l : List Nat) (i : Nat) :
    rowOfElems b l / 2 ^ (b * i) % 2 ^ b = (l.getD i 0) % 2 ^ b := by
  induction l generalizing i with
  | nil => simp [rowOfElems]
  | cons e l ih =>
    have hpos : 0 < 2 ^ b := by positivity
    cases i with
    | zero => simp [rowOfElems, Nat.add_mul_mod_self_left]
    | succ i =>
      have h2 : 2 ^ (b * (i + 1)) = 2 ^ b * 2 ^ (b * i) := by rw [← pow_add]; congr 1; ring
      simp only [rowOfElems, h2, List.getD_cons_succ, ← Nat.div_div_eq_div_mul]
      rw [Nat.add_mul_div_left _ _ hpos, Nat.div_eq_of_lt (Nat.mod_lt _ hpos), Nat.zero_add, ih i]

/-- An element of a row of whole elements. -/
theorem elemOf_rowOfElems (b : Nat) (l : List Nat) (i : Nat) (h : b * l.length ≤ 512) :
    elemOf b (BitVec.ofNat 512 (rowOfElems b l)) i = (l.getD i 0) % 2 ^ b := by
  have hlt : rowOfElems b l < 2 ^ 512 := lt_of_lt_of_le (rowOfElems_lt b l) (Nat.pow_le_pow_right (by norm_num) h)
  rw [elemOf, BitVec.toNat_ofNat, Nat.mod_eq_of_lt hlt, rowOfElems_div]

theorem length_elemsOf (b : Nat) (r : Row) : (elemsOf b r).length = 512 / b := by simp [elemsOf]

theorem getElem?_elemsOf (b : Nat) (r : Row) (i : Nat) (h : i < 512 / b) : (elemsOf b r)[i]? = some (elemOf b r i) := by
  simp [elemsOf, h]

end Sys2Proof.Machine
end

