-- ==== Sys2Proof/Tests/Slice0.lean ====
section
/-! SUPPORT. Small tests: words written out from the encoding tables of the spec, an ill-formed term for each check of
WellFormed, one step of each kind, and for every statement with hypotheses a state and operands that meet them. -/

namespace Sys2Proof.Tests

open Sys2Proof Sys2Proof.Machine Sys2Proof.Claims

/-! ### Words, from the tables of 03 R46 to R56, 12 R252 and 21 R381 to R389 -/

/-- Each word decodes to its instruction, and the instruction encodes to the word. -/
def nativeAgrees (cl : Cluster) (l : List (Word × Instr)) : Bool :=
  l.all fun r => decide (decodeNative cl r.1 = .ok r.2) && decide (encodeNative cl r.2 = some r.1)

def engineAgrees (l : List (BitVec 16 × List EngineId × Instr)) : Bool :=
  l.all fun r => (r.2.1.all fun e => decide (decodeEngine e r.1 = .ok r.2.2)) && decide (encodeEngine r.2.2 = some r.1)

def portableAgrees (l : List (BitVec 32 × Instr)) : Bool :=
  l.all fun r => decide (decodePortable r.1 = .ok r.2) && decide (encodePortable r.2 = some r.1)

theorem test_decode_s1 : nativeAgrees .s [
    (0x0000000000000000, .nop ⟨false, 0, 0, false⟩),
    (0xFFC07E1800000000, .add ⟨true, 31, 7, true⟩ 31 1 16),
    (0x0980BE2800000000, .sub ⟨false, 2, 3, false⟩ 31 2 16),
    (0x8040FE3800000000, .and ⟨true, 0, 0, true⟩ 31 3 16),
    (0x00013E4800000000, .or ⟨false, 0, 0, false⟩ 31 4 16),
    (0xFFC17E5800000000, .xor ⟨true, 31, 7, true⟩ 31 5 16),
    (0x0981BE6800000000, .sll ⟨false, 2, 3, false⟩ 31 6 16),
    (0x8041FE7800000000, .srl ⟨true, 0, 0, true⟩ 31 7 16),
    (0x00023E8800000000, .sra ⟨false, 0, 0, false⟩ 31 8 16),
    (0xFFC27E9800000000, .slt ⟨true, 31, 7, true⟩ 31 9 16),
    (0x0982BEA800000000, .sltu ⟨false, 2, 3, false⟩ 31 10 16),
    (0x8042FEB800000000, .mul ⟨true, 0, 0, true⟩ 31 11 16)] = true := by decide

theorem test_decode_s2 : nativeAgrees .s [
    (0x00033EC800000000, .mulh ⟨false, 0, 0, false⟩ 31 12 16),
    (0xFFC37ED800000000, .div ⟨true, 31, 7, true⟩ 31 13 16),
    (0x0983BEE800000000, .divu ⟨false, 2, 3, false⟩ 31 14 16),
    (0x8043FEF800000000, .rem ⟨true, 0, 0, true⟩ 31 15 16),
    (0x00043F0800000000, .remu ⟨false, 0, 0, false⟩ 31 16 16),
    (0xFFC47F1800000000, .min ⟨true, 31, 7, true⟩ 31 17 16),
    (0x0984BF2800000000, .max ⟨false, 2, 3, false⟩ 31 18 16),
    (0x8044E29000000000, .clz ⟨true, 0, 0, true⟩ 17 9),
    (0x0005229000000000, .ctz ⟨false, 0, 0, false⟩ 17 9),
    (0xFFC5629000000000, .popc ⟨true, 31, 7, true⟩ 17 9),
    (0x09858221F0000000, .sel ⟨false, 2, 3, false⟩ 1 2 3 7),
    (0x80480A6923456789, .addi ⟨true, 0, 0, true⟩ 5 6 39246456713)] = true := by decide

theorem test_decode_s3 : nativeAgrees .s [
    (0x00084A6923456789, .andi ⟨false, 0, 0, false⟩ 5 6 39246456713),
    (0xFFC88A6923456789, .ori ⟨true, 31, 7, true⟩ 5 6 39246456713),
    (0x0988CA6923456789, .xori ⟨false, 2, 3, false⟩ 5 6 39246456713),
    (0x8049CA6923456789, .slti ⟨true, 0, 0, true⟩ 5 6 39246456713),
    (0x00090A600000003F, .slli ⟨false, 0, 0, false⟩ 5 6 63),
    (0xFFC94A600000003F, .srli ⟨true, 31, 7, true⟩ 5 6 63),
    (0x09898A600000003F, .srai ⟨false, 2, 3, false⟩ 5 6 63),
    (0x804A0F23456789AB, .limm ⟨true, 0, 0, true⟩ 7 1250999896491),
    (0x000A4E00FEDCBA98, .limmh ⟨false, 0, 0, false⟩ 7 4275878552),
    (0xFFCC124000000000, .gset ⟨true, 31, 7, true⟩ 2 9),
    (0x098C580000000001, .gseti ⟨false, 2, 3, false⟩ 3 1),
    (0x804C8CE000000000, .glog ⟨true, 0, 0, true⟩ 1 4 7 .and)] = true := by decide

theorem test_decode_s4 : nativeAgrees .s [
    (0x000C8CE800000000, .glog ⟨false, 0, 0, false⟩ 1 4 7 .or),
    (0xFFCC8CF000000000, .glog ⟨true, 31, 7, true⟩ 1 4 7 .xor),
    (0x098C8CF800000000, .glog ⟨false, 2, 3, false⟩ 1 4 7 .andn),
    (0x80503FFFFFFFFFFF, .wait ⟨true, 0, 0, true⟩ 70368744177663),
    (0x0010499000000000, .decide ⟨false, 0, 0, false⟩ 4 200),
    (0xFFD0899200000000, .loop ⟨true, 31, 7, true⟩ 4 201),
    (0x0990FFFC00400000, .call ⟨false, 2, 3, false⟩ 4095 1),
    (0x8051000000000000, .ret ⟨true, 0, 0, true⟩),
    (0x0011400000000000, .stop ⟨false, 0, 0, false⟩),
    (0xFFD1BF8A00000000, .bar ⟨true, 31, 7, true⟩ 254 .co .align),
    (0x0991BF5400000000, .bar ⟨false, 2, 3, false⟩ 253 .qd .unjoin),
    (0x8051BF1800000000, .bar ⟨true, 0, 0, true⟩ 252 .di .none)] = true := by decide

theorem test_decode_s5 : nativeAgrees .s [
    (0x0011BEE200000000, .bar ⟨false, 0, 0, false⟩ 251 .pk .align),
    (0xFFD1BEAC00000000, .bar ⟨true, 31, 7, true⟩ 250 .pd .unjoin),
    (0x0991C1C000000000, .chkp ⟨false, 2, 3, false⟩ 7),
    (0x8052000000000000, .pulse ⟨true, 0, 0, true⟩),
    (0x00124000000003FF, .spawn ⟨false, 0, 0, false⟩ 1023),
    (0xFFD409E000000000, .mbr ⟨true, 31, 7, true⟩ 4 15),
    (0x09947C8000000000, .mbw ⟨false, 2, 3, false⟩ 15 4),
    (0x8054B08000000000, .qpush ⟨true, 0, 0, true⟩ 12 4),
    (0x0014C9A000000000, .qpop ⟨false, 0, 0, false⟩ 4 13),
    (0xFFD5380000000001, .flset ⟨true, 31, 7, true⟩ 14 1),
    (0x099549C000000000, .fltst ⟨false, 2, 3, false⟩ 4 14),
    (0x8055A60000000000, .tick ⟨true, 0, 0, true⟩ 19)] = true := by decide

theorem test_decode_s6 : nativeAgrees .s [
    (0x0015E80000000000, .wall ⟨false, 0, 0, false⟩ 20),
    (0xFFD8000000000123, .trap ⟨true, 31, 7, true⟩ 291),
    (0x0998400000000000, .tret ⟨false, 2, 3, false⟩),
    (0x8058800000000000, .ten ⟨true, 0, 0, true⟩),
    (0x0018C60000000028, .csrr ⟨false, 0, 0, false⟩ 3 40),
    (0xFFD9060000000020, .csrw ⟨true, 31, 7, true⟩ 3 32)] = true := by decide

theorem test_decode_a1 : nativeAgrees .a [
    (0x098044BC00000000, .cadd ⟨false, 2, 3, false⟩ 1 2 15),
    (0x804084FC00000000, .csub ⟨true, 0, 0, true⟩ 1 3 15),
    (0x0000C53C00000000, .cmul ⟨false, 0, 0, false⟩ 1 4 15),
    (0xFFC1057C00000000, .cand ⟨true, 31, 7, true⟩ 1 5 15),
    (0x098145BC00000000, .cor ⟨false, 2, 3, false⟩ 1 6 15),
    (0x804185FC00000000, .cshl ⟨true, 0, 0, true⟩ 1 7 15),
    (0x0001C63C00000000, .cshr ⟨false, 0, 0, false⟩ 1 8 15),
    (0xFFC2067C00000000, .cmin ⟨true, 31, 7, true⟩ 1 9 15),
    (0x098246BC00000000, .cmax ⟨false, 2, 3, false⟩ 1 10 15),
    (0x80428D2123456789, .caddi ⟨true, 0, 0, true⟩ 3 4 142325671817),
    (0x0002CE123456789A, .climm ⟨false, 0, 0, false⟩ 3 2277210749082),
    (0xFFC43F2000000000, .layset ⟨true, 31, 7, true⟩ 63 2)] = true := by decide

theorem test_decode_a2 : nativeAgrees .a [
    (0x0984412000000000, .layget ⟨false, 2, 3, false⟩ 1 2),
    (0x8044A58000000000, .stset ⟨true, 0, 0, true⟩ 9 6),
    (0x0004E58000000000, .stget ⟨false, 0, 0, false⟩ 9 6),
    (0xFFC5258000000000, .stadv ⟨true, 31, 7, true⟩ 9 6),
    (0x0985640000000000, .strst ⟨false, 2, 3, false⟩ 9),
    (0x80480D5B00000000, .ld ⟨true, 0, 0, true⟩ 3 5 .acq .pd .as),
    (0x00084D6000000000, .st ⟨false, 0, 0, false⟩ 3 5 .rel .cl .a1),
    (0xFFC88D5280000000, .lds ⟨true, 31, 7, true⟩ 3 5 .acq .co .a0),
    (0x0988D52500000000, .sts ⟨false, 2, 3, false⟩ 5 4 .rel .qd .as),
    (0x8049095A00000000, .gath ⟨true, 0, 0, true⟩ 2 5 6 .as),
    (0x0009559100000000, .scat ⟨false, 0, 0, false⟩ 5 6 4 .a0),
    (0xFFC9A00000000000, .touch ⟨true, 31, 7, true⟩ 8)] = true := by decide

theorem test_decode_a3 : nativeAgrees .a [
    (0x098A105400000000, .amo ⟨false, 2, 3, false⟩ 4 1 5 .rlx .cl .add),
    (0x804A105522000000, .amo ⟨true, 0, 0, true⟩ 4 1 5 .acq .co .and),
    (0x000A105644000000, .amo ⟨false, 0, 0, false⟩ 4 1 5 .rel .qd .or),
    (0xFFCA105766000000, .amo ⟨true, 31, 7, true⟩ 4 1 5 .ar .di .xor),
    (0x098A105488000000, .amo ⟨false, 2, 3, false⟩ 4 1 5 .rlx .pk .min),
    (0x804A1055AA000000, .amo ⟨true, 0, 0, true⟩ 4 1 5 .acq .pd .max),
    (0x000A10560C000000, .amo ⟨false, 0, 0, false⟩ 4 1 5 .rel .cl .minu),
    (0xFFCA10572E000000, .amo ⟨true, 31, 7, true⟩ 4 1 5 .ar .co .maxu),
    (0x098A105450000000, .amo ⟨false, 2, 3, false⟩ 4 1 5 .rlx .qd .swap),
    (0x804A105572000000, .amo ⟨true, 0, 0, true⟩ 4 1 5 .acq .di .fadd32),
    (0x000A5055B4000000, .amocas ⟨false, 0, 0, false⟩ 4 1 5 6 .ar .qd),
    (0xFFCB1B0000000000, .fence ⟨true, 31, 7, true⟩ 13 .pk)] = true := by decide

theorem test_decode_a4 : nativeAgrees .a [
    (0x098B400000000000, .qmark ⟨false, 2, 3, false⟩),
    (0x804C0FFE20000000, .eng ⟨true, 0, 0, true⟩ .ce 1023 8 8 none),
    (0x000C17FCC8008000, .eng ⟨false, 0, 0, false⟩ .tie 511 3 2 (some 0)),
    (0xFFCC630000000000, .epush ⟨true, 31, 7, true⟩ .fx 3),
    (0x098C8D0000000000, .epop ⟨false, 2, 3, false⟩ 3 .tie),
    (0x804E310000000000, .gdef ⟨true, 0, 0, true⟩ 6 2),
    (0x000E559000000000, .gbc ⟨false, 0, 0, false⟩ 2 5 9 .periodic),
    (0xFFCE549200000000, .gbc ⟨true, 31, 7, true⟩ 2 4 9 .clamp),
    (0x098E539400000000, .gbc ⟨false, 2, 3, false⟩ 2 3 9 .reflect),
    (0x804E529600000000, .gbc ⟨true, 0, 0, true⟩ 2 2 9 .odd),
    (0x000E519800000000, .gbc ⟨false, 0, 0, false⟩ 2 1 9 .const),
    (0xFFCE509A00000000, .gbc ⟨true, 31, 7, true⟩ 2 0 9 .none)] = true := by decide

theorem test_decode_a5 : nativeAgrees .a [
    (0x098E8F94A0000000, .gld ⟨false, 2, 3, false⟩ 3 7 2 9 .a0),
    (0x804EF94AC0000000, .gst ⟨true, 0, 0, true⟩ 7 2 9 5 .as),
    (0x000F280000000000, .gadv ⟨false, 0, 0, false⟩ 5),
    (0xFFCF6E8000000000, .gstat ⟨true, 31, 7, true⟩ 11 5),
    (0x0990370000000000, .nkey ⟨false, 2, 3, false⟩ 6 14),
    (0x8050770800000000, .nctr ⟨true, 0, 0, true⟩ 6 14 1),
    (0x0010B60000000000, .nskip ⟨false, 0, 0, false⟩ 6 12),
    (0xFFD0CD0000000000, .nget ⟨true, 31, 7, true⟩ 3 2 .keylo),
    (0x0990CD1000000000, .nget ⟨false, 2, 3, false⟩ 3 2 .keyhi),
    (0x8050CD2000000000, .nget ⟨true, 0, 0, true⟩ 3 2 .ctrlo),
    (0x0010CD3000000000, .nget ⟨false, 0, 0, false⟩ 3 2 .ctrhi),
    (0xFFD0CD4000000000, .nget ⟨true, 31, 7, true⟩ 3 2 .stride)] = true := by decide

theorem test_decode_a6 : nativeAgrees .a [
    (0x099224C000000000, .cqpush ⟨false, 2, 3, false⟩ 9 3),
    (0x80524E0000000000, .cqpop ⟨true, 0, 0, true⟩ 3 8)] = true := by decide

theorem test_decode_v1 : nativeAgrees .v [
    (0x00007D3880000000, .vrd ⟨false, 0, 0, false⟩ 30 9 12 .a0),
    (0xFFC0A7D900000000, .vwr ⟨true, 31, 7, true⟩ 9 30 12 .as),
    (0x0980FD8000000000, .vtap ⟨false, 2, 3, false⟩ 30 12),
    (0x804133C000000000, .vinj ⟨true, 0, 0, true⟩ 12 30),
    (0x00017B4000000000, .vqpop ⟨false, 0, 0, false⟩ 29 10),
    (0xFFC1AFA000000000, .vqpush ⟨true, 31, 7, true⟩ 11 29),
    (0x0984022FD0000000, .vadd ⟨false, 2, 3, false⟩ 1 2 31 5 .int8),
    (0x8044422FD0800000, .vsub ⟨true, 0, 0, true⟩ 1 2 31 5 .uint8),
    (0x0004822FD1000000, .vmul ⟨false, 0, 0, false⟩ 1 2 31 5 .int16),
    (0xFFC4C22FD1800000, .vmulh ⟨true, 31, 7, true⟩ 1 2 31 5 .int32),
    (0x0985022FD2000000, .vmin ⟨false, 2, 3, false⟩ 1 2 31 5 .int64),
    (0x8045422FD0000000, .vmax ⟨true, 0, 0, true⟩ 1 2 31 5 .int8)] = true := by decide

theorem test_decode_v2 : nativeAgrees .v [
    (0x0005822FD0800000, .vand ⟨false, 0, 0, false⟩ 1 2 31 5 .uint8),
    (0xFFC5C22FD1000000, .vor ⟨true, 31, 7, true⟩ 1 2 31 5 .int16),
    (0x0986022FD1800000, .vxor ⟨false, 2, 3, false⟩ 1 2 31 5 .int32),
    (0x8046422FD2000000, .vshl ⟨true, 0, 0, true⟩ 1 2 31 5 .int64),
    (0x0006822FD0000000, .vshr ⟨false, 0, 0, false⟩ 1 2 31 5 .int8),
    (0xFFC6F0C840000000, .vcmpi ⟨true, 31, 7, true⟩ 6 3 4 1 .int8 .eq),
    (0x0986F0C842400000, .vcmpi ⟨false, 2, 3, false⟩ 6 3 4 1 .uint8 .ne),
    (0x8046F0C844800000, .vcmpi ⟨true, 0, 0, true⟩ 6 3 4 1 .int16 .lt),
    (0x0006F0C846C00000, .vcmpi ⟨false, 0, 0, false⟩ 6 3 4 1 .int32 .le),
    (0xFFC6F0C849000000, .vcmpi ⟨true, 31, 7, true⟩ 6 3 4 1 .int64 .gt),
    (0x0986F0C841400000, .vcmpi ⟨false, 2, 3, false⟩ 6 3 4 1 .int8 .ge),
    (0x80480221C4000000, .vfadd ⟨true, 0, 0, true⟩ 1 2 3 4 .fp64 .rne 0)] = true := by decide

theorem test_decode_v3 : nativeAgrees .v [
    (0x00084221C4900000, .vfsub ⟨false, 0, 0, false⟩ 1 2 3 4 .fp32 .rtz 0),
    (0xFFC88221C5200000, .vfmul ⟨true, 31, 7, true⟩ 1 2 3 4 .fp16 .rdn 0),
    (0x0988C221932EB000, .vfma ⟨false, 2, 3, false⟩ 1 2 3 4 6 .bf16 .sto 3),
    (0x8048C22193298000, .vfma ⟨true, 0, 0, true⟩ 1 2 3 4 6 .fp16 .rup 0),
    (0x00090221C4000000, .vfmin ⟨false, 0, 0, false⟩ 1 2 3 4 .fp64),
    (0xFFC94221C4800000, .vfmax ⟨true, 31, 7, true⟩ 1 2 3 4 .fp32),
    (0x09898228A0000000, .vfabs ⟨false, 2, 3, false⟩ 1 2 4 .fp16),
    (0x8049C228B0000000, .vfneg ⟨true, 0, 0, true⟩ 1 2 4 .bf16),
    (0x000A30C853800000, .vfcmp ⟨false, 0, 0, false⟩ 6 3 4 1 .fp32 .un),
    (0xFFCC0226B4C00000, .vcvt ⟨true, 31, 7, true⟩ 1 2 3 .bf16 .fp32 .rna 0),
    (0x098C422980000000, .vqmx ⟨false, 2, 3, false⟩ 1 2 .mxint8 .rne 0),
    (0x804CBC24D0000000, .vdq ⟨true, 0, 0, true⟩ 30 2 .fp32 .kc2)] = true := by decide

theorem test_decode_v4 : nativeAgrees .v [
    (0x000D0A4490000000, .vred ⟨false, 0, 0, false⟩ 5 4 2 .fp32 .sum),
    (0xFFCD0A4494000000, .vred ⟨true, 31, 7, true⟩ 5 4 2 .fp32 .max),
    (0x098D0A4498000000, .vred ⟨false, 2, 3, false⟩ 5 4 2 .fp32 .min),
    (0x804D0A449C000000, .vred ⟨true, 0, 0, true⟩ 5 4 2 .fp32 .maxabs),
    (0x000E0221C4800000, .vperm ⟨false, 0, 0, false⟩ 1 2 3 4 .fp32),
    (0xFFCE4224FFFFFFF1, .vslide ⟨true, 31, 7, true⟩ 1 2 .fp32 0x7FFFFFF1),
    (0x098E8A1130000000, .vsel ⟨false, 2, 3, false⟩ 5 1 2 3),
    (0x804ECA100000003F, .vbcst ⟨true, 0, 0, true⟩ 5 1 .int8 63),
    (0x000F104580000000, .vpln ⟨false, 0, 0, false⟩ 8 4 .bf16),
    (0xFFCF59C000000000, .vunpl ⟨true, 31, 7, true⟩ 12 28 .int8),
    (0x0990380000000040, .kset ⟨false, 2, 3, false⟩ 7 64),
    (0x8050795800000000, .klog ⟨true, 0, 0, true⟩ 7 1 2 .andn)] = true := by decide

theorem test_decode_v5 : nativeAgrees .v [
    (0x00108E8000000000, .kcnt ⟨false, 0, 0, false⟩ 7 2),
    (0xFFD10A148000000F, .vext ⟨true, 31, 7, true⟩ 5 1 .fp32 15),
    (0x09914A110000001F, .vins ⟨false, 2, 3, false⟩ 5 1 .int16 31),
    (0x80520C0452000000, .vrng ⟨true, 0, 0, true⟩ 6 0 2 1 .fp32 .norm false),
    (0x00120C9452C00000, .vrng ⟨false, 0, 0, false⟩ 6 9 2 1 .fp32 .unif true)] = true := by decide

theorem test_decode_m1 : nativeAgrees .m [
    (0xFFC07D6B80000000, .mcfg ⟨true, 31, 7, true⟩ 15 .bf16 .bf16 8 .accum 0),
    (0x0980540086000000, .mcfg ⟨false, 2, 3, false⟩ 5 .int8 .int8 8 .repl 64),
    (0x8040A74000000000, .mlw ⟨true, 0, 0, true⟩ 9 13),
    (0x0000C44B80000000, .mlwp ⟨false, 0, 0, false⟩ 1 1 2 7),
    (0xFFC118C000000400, .mma ⟨true, 31, 7, true⟩ 6 3 1024),
    (0x09816C0000000000, .macz ⟨false, 2, 3, false⟩ 11),
    (0x8041AC0000000000, .mpro ⟨true, 0, 0, true⟩ 11),
    (0x00022C0000000000, .mwake ⟨false, 0, 0, false⟩ 11),
    (0xFFC26C0000000000, .msleep ⟨true, 31, 7, true⟩ 11),
    (0x0981D11280000400, .mrd ⟨false, 2, 3, false⟩ 4 4 .fp32 .rdn 1024),
    (0x8041D11680000400, .mrd ⟨true, 0, 0, true⟩ 4 4 .bf16 .rdn 1024),
    (0x0001D11E80000400, .mrd ⟨false, 0, 0, false⟩ 4 4 .acc26 .rdn 1024)] = true := by decide

theorem test_decode_m2 : nativeAgrees .m [
    (0xFFC2A00000000000, .mstat ⟨true, 31, 7, true⟩ 8)] = true := by decide

theorem test_decode_engine1 : engineAgrees [
    (0x0064, [.ce, .tie, .fx], .lit 100),
    (0x1FFD, [.ce, .tie, .fx], .litn 0xFFD),
    (0x2ABC, [.ce, .tie, .fx], .lith 0xABC),
    (0x3000, [.ce, .tie, .fx], .dup),
    (0x3001, [.ce, .tie, .fx], .drop),
    (0x3002, [.ce, .tie, .fx], .swap),
    (0x3003, [.ce, .tie, .fx], .over),
    (0x3004, [.ce, .tie, .fx], .rot),
    (0x3005, [.ce, .tie, .fx], .engAdd),
    (0x3006, [.ce, .tie, .fx], .engSub),
    (0x3007, [.ce, .tie, .fx], .engMul),
    (0x3008, [.ce, .tie, .fx], .engAnd),
    (0x3009, [.ce, .tie, .fx], .engOr),
    (0x300A, [.ce, .tie, .fx], .engXor)] = true := by decide

theorem test_decode_engine2 : engineAgrees [
    (0x300B, [.ce, .tie, .fx], .engShl),
    (0x300C, [.ce, .tie, .fx], .engShr),
    (0x4007, [.ce, .tie, .fx], .param 7),
    (0x51FF, [.ce, .tie, .fx], .jmp 0x1FF),
    (0x6FFD, [.ce, .tie, .fx], .jz 0xFFD),
    (0x7000, [.ce, .tie, .fx], .repw),
    (0x8000, [.ce, .tie, .fx], .endE),
    (0xC0AA, [.ce, .tie, .fx], .chain 0xAA),
    (0xD000, [.ce, .tie, .fx], .result),
    (0x9003, [.ce], .nestCount 3),
    (0x9008, [.ce], .nestSrc 0),
    (0x9015, [.ce], .nestDst 5),
    (0x9018, [.ce], .nestClear),
    (0x9145, [.ce], .copy 4 5)] = true := by decide

theorem test_decode_engine3 : engineAgrees [
    (0x9245, [.ce], .plane 4 5),
    (0x930E, [.ce], .fill 14),
    (0xA005, [.tie], .tload 5),
    (0xA119, [.tie], .trun 1 9),
    (0xB0F2, [.fx], .send 15 2),
    (0xB102, [.fx], .comb .fadd 2),
    (0xB113, [.fx], .comb .fmax 3),
    (0xB124, [.fx], .comb .fmin 4),
    (0xB135, [.fx], .comb .iadd 5)] = true := by decide

theorem test_decode_portable1 : portableAgrees [
    (0x01F302B3, .rvIntegerOp .add 5 6 (.reg 31)),
    (0x41F302B3, .rvIntegerOp .sub 5 6 (.reg 31)),
    (0x01F312B3, .rvIntegerOp .sll 5 6 (.reg 31)),
    (0x01F322B3, .rvIntegerOp .slt 5 6 (.reg 31)),
    (0x01F332B3, .rvIntegerOp .sltu 5 6 (.reg 31)),
    (0x01F342B3, .rvIntegerOp .xor 5 6 (.reg 31)),
    (0x01F352B3, .rvIntegerOp .srl 5 6 (.reg 31)),
    (0x41F352B3, .rvIntegerOp .sra 5 6 (.reg 31)),
    (0x01F362B3, .rvIntegerOp .or 5 6 (.reg 31)),
    (0x01F372B3, .rvIntegerOp .and 5 6 (.reg 31)),
    (0xFFE30293, .rvIntegerOp .add 5 6 (.imm 0xFFE)),
    (0xFFE32293, .rvIntegerOp .slt 5 6 (.imm 0xFFE))] = true := by decide

theorem test_decode_portable2 : portableAgrees [
    (0xFFE33293, .rvIntegerOp .sltu 5 6 (.imm 0xFFE)),
    (0xFFE34293, .rvIntegerOp .xor 5 6 (.imm 0xFFE)),
    (0xFFE36293, .rvIntegerOp .or 5 6 (.imm 0xFFE)),
    (0xFFE37293, .rvIntegerOp .and 5 6 (.imm 0xFFE)),
    (0x03F31293, .rvIntegerOp .sll 5 6 (.imm 63)),
    (0x03F35293, .rvIntegerOp .srl 5 6 (.imm 63)),
    (0x43F35293, .rvIntegerOp .sra 5 6 (.imm 63)),
    (0x01F302BB, .rvWordOp .addw 5 6 (.reg 31)),
    (0x41F302BB, .rvWordOp .subw 5 6 (.reg 31)),
    (0x01F312BB, .rvWordOp .sllw 5 6 (.reg 31)),
    (0x01F352BB, .rvWordOp .srlw 5 6 (.reg 31)),
    (0x41F352BB, .rvWordOp .sraw 5 6 (.reg 31))] = true := by decide

theorem test_decode_portable3 : portableAgrees [
    (0xFFE3029B, .rvWordOp .addw 5 6 (.imm 0xFFE)),
    (0x01F3129B, .rvWordOp .sllw 5 6 (.imm 31)),
    (0x01F3529B, .rvWordOp .srlw 5 6 (.imm 31)),
    (0x41F3529B, .rvWordOp .sraw 5 6 (.imm 31)),
    (0x03F302B3, .rvMuldiv .mul 5 6 31),
    (0x03F312B3, .rvMuldiv .mulh 5 6 31),
    (0x03F322B3, .rvMuldiv .mulhsu 5 6 31),
    (0x03F332B3, .rvMuldiv .mulhu 5 6 31),
    (0x03F342B3, .rvMuldiv .div 5 6 31),
    (0x03F352B3, .rvMuldiv .divu 5 6 31),
    (0x03F362B3, .rvMuldiv .rem 5 6 31),
    (0x03F372B3, .rvMuldiv .remu 5 6 31)] = true := by decide

theorem test_decode_portable4 : portableAgrees [
    (0x03F302BB, .rvMuldiv .mulw 5 6 31),
    (0x03F342BB, .rvMuldiv .divw 5 6 31),
    (0x03F352BB, .rvMuldiv .divuw 5 6 31),
    (0x03F362BB, .rvMuldiv .remw 5 6 31),
    (0x03F372BB, .rvMuldiv .remuw 5 6 31),
    (0xABCDE2B7, .lui 5 0xABCDE),
    (0xABCDE297, .auipc 5 0xABCDE),
    (0x81F30163, .rvBranch .beq 6 31 0x801),
    (0x81F31163, .rvBranch .bne 6 31 0x801),
    (0x81F34163, .rvBranch .blt 6 31 0x801),
    (0x81F35163, .rvBranch .bge 6 31 0x801),
    (0x81F36163, .rvBranch .bltu 6 31 0x801)] = true := by decide

theorem test_decode_portable5 : portableAgrees [
    (0x81F37163, .rvBranch .bgeu 6 31 0x801),
    (0xCBBED0EF, .jal 1 0xF6E5D),
    (0xFFE300E7, .jalr 1 6 0xFFE),
    (0xFF830283, .rvLoad .lb 5 6 0xFF8),
    (0xFF831283, .rvLoad .lh 5 6 0xFF8),
    (0xFF832283, .rvLoad .lw 5 6 0xFF8),
    (0xFF833283, .rvLoad .ld 5 6 0xFF8),
    (0xFF834283, .rvLoad .lbu 5 6 0xFF8),
    (0xFF835283, .rvLoad .lhu 5 6 0xFF8),
    (0xFF836283, .rvLoad .lwu 5 6 0xFF8),
    (0xFFF30C23, .rvStore .sb 6 31 0xFF8),
    (0xFFF31C23, .rvStore .sh 6 31 0xFF8)] = true := by decide

theorem test_decode_portable6 : portableAgrees [
    (0xFFF32C23, .rvStore .sw 6 31 0xFF8),
    (0xFFF33C23, .rvStore .sd 6 31 0xFF8),
    (0x0310000F, .rvFence 0 3 1 0 0),
    (0x8330000F, .fenceTso 0 0),
    (0x00000073, .ecall),
    (0x00100073, .ebreak),
    (0xC00022F3, .csrrs 5 .cycle),
    (0xC00062F3, .csrrsi 5 .cycle),
    (0xC01022F3, .csrrs 5 .time),
    (0xC01062F3, .csrrsi 5 .time),
    (0xC02022F3, .csrrs 5 .instret),
    (0xC02062F3, .csrrsi 5 .instret)] = true := by decide

theorem test_decode_portable7 : portableAgrees [
    (0x5002018B, .kvSetvl .f32 3 4),
    (0x0A02118B, .kvLd .i8 5 3 4),
    (0x1492200B, .kvSt .i16 2 9 4),
    (0x3E92318B, .kvLds .i64 7 3 4 9),
    (0x5492418B, .kvAdd .f32 2 3 4 9),
    (0x7692518B, .kvSub .bf16 3 3 4 9),
    (0x2092618B, .kvMul .i32 0 3 4 9),
    (0x6292718B, .kvFma .f16 1 3 4 9),
    (0xC092018B, .kvMin .f64 3 4 9),
    (0x9092118B, .kvMax .i16 3 4 9),
    (0xF052218B, .kvCvt .bf16 0 .f32 3 4),
    (0xD032318B, .kvRed .f32 .maxabs 3 4)] = true := by decide

theorem test_decode_portable8 : portableAgrees [
    (0xDC92418B, .kvCmp .f32 .un 3 4 9),
    (0xD092518B, .kvSel .f32 3 4 9),
    (0xA002618B, .kvBcst .i32 3 4),
    (0xD202718B, .kvRng .f32 true 3 4),
    (0xBE02002B, .kmCfg 15 5 4),
    (0x0202102B, .kmLw 1 0 4),
    (0xE402202B, .kmLwp 2 7 4),
    (0x3292302B, .kmMma 9 1 4 9),
    (0x7E00502B, .kmZero 15 3),
    (0x0892402B, .kmRd 4 .fp32 4 9),
    (0x2892402B, .kmRd 4 .bf16 4 9),
    (0x4892402B, .kmRd 4 .acc26 4 9)] = true := by decide

theorem test_decode_portable9 : portableAgrees [
    (0x6892402B, .kmRd 4 .int32 4 9),
    (0x8892402B, .kmRd 4 .int8 4 9),
    (0x9C02005B, .kgDef 6 9 4),
    (0x0C9211DB, .kgLd 6 0 3 4 9),
    (0xFC9221DB, .kgSt 6 15 3 4 9),
    (0x1C00305B, .kgAdv 6 1)] = true := by decide

/-! ### Worked encodings of the manual (03 R46 to R56, 05 R122 to R127, 06, 07, 08, 10, 12, 14) -/

theorem test_worked_s : nativeAgrees .s [
    (0x0810420200000000, .decide ⟨false, 2, 0, false⟩ 1 1),
    (0x0008021FFFFFFFFF, .addi ⟨false, 0, 0, false⟩ 1 1 0xFFFFFFFFF),
    (0x000A48003FF00000, .limmh ⟨false, 0, 0, false⟩ 4 0x3FF00000),
    (0x000C124000000000, .gset ⟨false, 0, 0, false⟩ 2 9),
    (0x0014CB6000000000, .qpop ⟨false, 0, 0, false⟩ 5 11),
    (0x00108E0000000000, .loop ⟨false, 0, 0, false⟩ 7 0),
    (0x001180E200000000, .bar ⟨false, 0, 0, false⟩ 3 .pk .align),
    (0x0018000000000007, .trap ⟨false, 0, 0, false⟩ 7),
    (0x0608063000000001, .addi ⟨false, 1, 4, false⟩ 3 3 1)] = true := by decide

theorem test_worked_a : nativeAgrees .a [
    (0x00080D5800000000, .ld ⟨false, 0, 0, false⟩ 3 5 .acq .pk .a1),
    (0x0008808200000000, .lds ⟨false, 0, 0, false⟩ 0 2 .rlx .co .a1),
    (0x000A105660000000, .amo ⟨false, 0, 0, false⟩ 4 1 5 .rel .di .add),
    (0x000B0D0000000000, .fence ⟨false, 0, 0, false⟩ 6 .pk),
    (0x000C000104000000, .eng ⟨false, 0, 0, false⟩ .ce 0 4 1 none),
    (0x000C530000000000, .epush ⟨false, 0, 0, false⟩ .tie 3),
    (0x000C980000000000, .epop ⟨false, 0, 0, false⟩ 6 .ce),
    (0x000E010000000000, .gdef ⟨false, 0, 0, false⟩ 0 2),
    (0x000E800080000000, .gld ⟨false, 0, 0, false⟩ 0 0 0 1 .a1),
    (0x000EC08A00000000, .gst ⟨false, 0, 0, false⟩ 0 1 1 4 .a1),
    (0x0010423000000000, .nctr ⟨false, 0, 0, false⟩ 0 4 6)] = true := by decide

theorem test_worked_v : nativeAgrees .v [
    (0x0000465000000000, .vrd ⟨false, 0, 0, false⟩ 3 2 8 .a1),
    (0x0008081134900000, .vfadd ⟨false, 0, 0, false⟩ 4 1 2 3 .fp32 .rtz 0),
    (0x0008C221902EB000, .vfma ⟨false, 0, 0, false⟩ 1 2 3 4 0 .bf16 .sto 3),
    (0x000D0A409C000000, .vred ⟨false, 0, 0, false⟩ 5 4 0 .fp32 .maxabs),
    (0x000F104580000000, .vpln ⟨false, 0, 0, false⟩ 8 4 .bf16),
    (0x00120C0452000000, .vrng ⟨false, 0, 0, false⟩ 6 0 2 1 .fp32 .norm false),
    (0x0006C94C04800000, .vcmpi ⟨false, 0, 0, false⟩ 1 5 6 0 .int16 .lt)] = true := by decide

theorem test_worked_m : nativeAgrees .m [
    (0x00007D6B80000000, .mcfg ⟨false, 0, 0, false⟩ 15 .bf16 .bf16 8 .accum 0),
    (0x0000844000000000, .mlw ⟨false, 0, 0, false⟩ 1 1),
    (0x0000C44800000000, .mlwp ⟨false, 0, 0, false⟩ 1 1 2 0),
    (0x000104C000000001, .mma ⟨false, 0, 0, false⟩ 1 3 1),
    (0x00017C0000000000, .macz ⟨false, 0, 0, false⟩ 15),
    (0x0001C51200000001, .mrd ⟨false, 0, 0, false⟩ 1 4 .fp32 .rne 1)] = true := by decide

/-! ### One ill-formed term for each check of WellFormed: refused, and its word does not decode (03 R50) -/

/-- The term is not well-formed, and the word with its fields is refused. -/
def refused (cl : Cluster) (i : Instr) (d : NativeDecode) : Bool :=
  !i.wellFormed && (match encodeNative cl i with | some w => decide (decodeNative cl w = d) | none => false)

def f0 : Frame := ⟨false, 0, 0, false⟩

theorem test_ill_formed_s : ([
    (Instr.slli f0 1 2 64, NativeDecode.reserved), (.srli f0 1 2 64, .reserved), (.srai f0 1 2 64, .reserved),
    (.limmh f0 1 0x100000000, .reserved), (.gset f0 4 1, .reserved), (.gset f0 0 1, .reserved), (.gseti f0 1 2, .reserved),
    (.glog f0 4 1 1 .or, .reserved), (.spawn f0 1024, .reserved),
    (.qpush f0 9 1, .reserved), (.qpop f0 1 8, .reserved), (.flset f0 1 2, .reserved), (.csrr f0 1 0x123, .reserved),
    (.csrw f0 1 0x123, .reserved)].all fun r => refused .s r.1 r.2) = true := by decide

theorem test_ill_formed_a : ([
    (Instr.lds f0 4 1 .rlx .co .a1, NativeDecode.reserved), (.sts f0 1 3 .rlx .co .a1, .reserved),
    (.gath f0 4 1 2 .a1, .reserved), (.scat f0 1 2 3 .a1, .reserved), (.fence f0 0 .co, .reserved), (.cqpush f0 8 1, .reserved),
    (.cqpop f0 1 9, .reserved), (.nkey f0 1 3, .reserved), (.nctr f0 1 3 1, .reserved), (.nskip f0 1 3, .reserved),
    (.eng f0 .ce 0 8 9 none, .reserved), (.eng f0 .tie 512 0 0 none, .reserved), (.eng f0 .fx 0 0 0 (some 512), .reserved),
    (.gld f0 4 1 1 1 .a1, .reserved), (.gst f0 1 1 1 3 .a1, .reserved)].all fun r => refused .a r.1 r.2) = true := by decide

theorem test_ill_formed_v : ([
    (Instr.vqpop f0 1 4, NativeDecode.reserved), (.vqpush f0 3 1, .reserved), (.vcmpi f0 1 2 3 0 .int8 .un, .reserved),
    (.vfadd f0 1 2 3 0 .fp32 .rne 1, .reserved), (.vfma f0 1 2 3 4 0 .fp32 .rne 1, .reserved), (.vqmx f0 1 2 .mxint8 .rne 3, .reserved),
    (.vslide f0 1 2 .fp32 16, .reserved), (.vbcst f0 1 2 .fp32 16, .reserved),
    (.vext f0 1 2 .int8 64, .reserved), (.vins f0 1 2 .fp64 8, .reserved), (.vpln f0 1 4 .bf16, .reserved),
    (.vunpl f0 4 2 .bf16, .reserved), (.kset f0 1 65, .reserved), (.vrng f0 1 1 0 0 .fp32 .norm false, .reserved),
    (.vadd f0 1 2 3 0 .fp32, .format), (.vfadd f0 1 2 3 0 .int8 .rne 0, .format), (.vred f0 1 2 0 .int8 .sum, .format),
    (.vcvt f0 1 2 0 .kc2 .fp32 .rne 0, .format), (.vqmx f0 1 2 .fp32 .rne 0, .format), (.vdq f0 2 2 .fp16 .kc2, .format),
    (.vpln f0 4 8 .fp64, .format), (.vrng f0 1 0 0 0 .bf16 .norm false, .format)].all fun r => refused .v r.1 r.2) = true := by decide

theorem test_ill_formed_m : ([
    (Instr.mcfg f0 1 .bf16 .bf16 0 .accum 0, NativeDecode.reserved), (.mcfg f0 1 .bf16 .bf16 9 .accum 0, .reserved),
    (.mcfg f0 1 .bf16 .bf16 8 .accum 65, .reserved), (.mma f0 1 1 0, .reserved),
    (.mma f0 1 1 1025, .reserved), (.mrd f0 3 1 .fp32 .rne 1, .reserved), (.mrd f0 1 1 .fp32 .sto 1, .reserved),
    (.mrd f0 1 1 .fp32 .rne 0, .reserved), (.mstat f0 3, .reserved), (.mcfg f0 1 .fp64 .bf16 8 .accum 0, .format),
    (.mrd f0 1 1 .fp64 .rne 1, .format),
    (.mcfg f0 1 .int8 .bf16 8 .accum 0, .combination)].all fun r => refused .m r.1 r.2) = true := by decide

/-- Limits that only the word's entry gives: the word decodes, and raises 0x02 under a true guard (05 R93, 07 R183, 08 R212, 10
R238 to R242). -/
theorem test_entry_limits : ([
    (Cluster.a, Instr.ld f0 1 2 .rel .co .a1), (.a, .st f0 2 1 .acq .co .a1), (.a, .lds f0 0 1 .ar .co .a1), (.a, .sts f0 1 4 .ar .co .a1),
    (.v, .vqmx f0 1 3 .mxint8 .rne 0), (.v, .vdq f0 1 2 .fp32 .kc2), (.m, .mlw f0 0 1), (.m, .mlwp f0 1 2 2 0), (.m, .mma f0 0 1 1),
    (.m, .macz f0 0), (.m, .mrd f0 1 7 .fp32 .rne 1)].all fun r => !r.2.entryLimits && r.2.wellFormed &&
      (match encodeNative r.1 r.2 with | some w => decide (decodeNative r.1 w = .ok r.2) | none => false)) = true := by decide

/-- Engine and portable words out of their ranges. -/
theorem test_ill_formed_others :
    (decodeEngine .ce 0x9006 = .badArgument ∧ decodeEngine .ce 0x300D = .illegal ∧ decodeEngine .tie 0x9145 = .wrongEngine) ∧
    (Instr.kvAdd .i8 1 0 0 0).wellFormed = false ∧
    (Instr.nestSrc 6).wellFormed = false ∧ (Instr.kvCmp .i8 .un 1 2 3).wellFormed = false ∧
    (Instr.kvRng .f16 false 1 2).wellFormed = false ∧ (Instr.kvFma .i8 0 1 2 3).wellFormed = false ∧
    (Instr.rvIntegerOp .sub 1 2 (.imm 0)).wellFormed = false ∧ (Instr.rvWordOp .sllw 1 2 (.imm 32)).wellFormed = false ∧
    (Instr.rvFence 8 3 3 0 0).wellFormed = false := by decide

/-- `kv.add.f32.h4 pv1, pv1, pv2` of the worked example has a reserved-zero bit set (22); without it the word decodes. -/
theorem test_worked_portable : decodePortable 0x5820C08B = .reserved ∧ decodePortable 0x5020C08B = .ok (.kvAdd .f32 0 1 1 2) := by
  decide

/-! ### Small states -/

/-- Partition 0 on core 0, with nothing in flight, about to do `l`. -/
def at0 (l : List Item) (k : Core := Core.reset) (q : Machine.Part := Machine.Part.absent) : State :=
  { State.reset with cores := [(0, k)], parts := [(0, { q with run := true })], agenda := l }

/-- A layout of one dimension (07 R158): space, format, extent and stride. -/
def layOne (space fmt ext str : Nat) : BitVec 512 :=
  BitVec.ofNat 512 (space * 2 ^ 64 + fmt * 2 ^ 67 + ext * 2 ^ 128 + str * 2 ^ 256)

/-- A core whose layout entry 0, which every stream names, is `l`. -/
def withLay (l : BitVec 512) : Core := { Core.reset with lt := [(0, l)] }

def entry1 : QEntry := ⟨0, 5, false, true, 0⟩
def who0 : Who := ⟨0, .s, .cont 0, 0, 0, 0⟩

/-- The state after a step, where there is one. -/
def after (o : Out) : State := match o with | .next t => t | _ => State.reset

/-- Whether a step answers a next state with a property. -/
def answers (o : Out) (q : State → Bool) : Bool := match o with | .next t => q t | _ => false

theorem issues_s (f : Frame) (h : f.g = 0 ∧ f.n = false) (k : Core) :
    Issues (at0 [.issue 0 0 .s] k) f .s ((at0 [.issue 0 0 .s] k).ctx 0 0 .s)
      ((at0 [.issue 0 0 .s] k).popItem.advance 0 0 .s f.w.val) :=
  .intro 0 0 [] rfl (by simp [State.guardTrue, State.guard, h.1, h.2]) rfl

theorem issues_a (f : Frame) (h : f.g = 0 ∧ f.n = false) (k : Core) :
    Issues (at0 [.issue 0 0 .a] k) f .a ((at0 [.issue 0 0 .a] k).ctx 0 0 .a)
      ((at0 [.issue 0 0 .a] k).popItem.advance 0 0 .a f.w.val) :=
  .intro 0 0 [] rfl (by simp [State.guardTrue, State.guard, h.1, h.2]) rfl

theorem issues_v (f : Frame) (h : f.g = 0 ∧ f.n = false) (k : Core) :
    Issues (at0 [.issue 0 0 .v] k) f .v ((at0 [.issue 0 0 .v] k).ctx 0 0 .v)
      ((at0 [.issue 0 0 .v] k).popItem.advance 0 0 .v f.w.val) :=
  .intro 0 0 [] rfl (by simp [State.guardTrue, State.guard, h.1, h.2]) rfl

theorem issues_m (f : Frame) (h : f.g = 0 ∧ f.n = false) (k : Core) :
    Issues (at0 [.issue 0 0 .m] k) f .m ((at0 [.issue 0 0 .m] k).ctx 0 0 .m)
      ((at0 [.issue 0 0 .m] k).popItem.advance 0 0 .m f.w.val) :=
  .intro 0 0 [] rfl (by simp [State.guardTrue, State.guard, h.1, h.2]) rfl

/-- The issue state of a word of each cluster, and of an S word of a handler run. -/
def tS (k : Core := Core.reset) : State := (at0 [.issue 0 0 .s] k).popItem.advance 0 0 .s 0
def tA (k : Core := Core.reset) : State := (at0 [.issue 0 0 .a] k).popItem.advance 0 0 .a 0
def tV (k : Core := Core.reset) : State := (at0 [.issue 0 0 .v] k).popItem.advance 0 0 .v 0
def xA (k : Core := Core.reset) : Ctx := (at0 [.issue 0 0 .a] k).ctx 0 0 .a

/-! ### Witnesses: encodings and steps -/

theorem witness_NativeWordsDecodeBack : (Instr.mma f0 1 3 1024).wellFormed = true ∧
    encodeNative .m (.mma f0 1 3 1024) = some 0x000104C000000400 := by decide

theorem witness_NativeWordsEncodeBack : decodeNative .s 0x0008021FFFFFFFFF = .ok (.addi f0 1 1 0xFFFFFFFFF) := by decide

theorem witness_EngineWordsRoundTrip : (Instr.send 15 2).wellFormed = true ∧ encodeEngine (.send 15 2) = some 0xB0F2 ∧
    decodeEngine .ce 0x0064 = .ok (.lit 100) ∧ (9 ≤ 0x9018 / 2 ^ 12 ∧ 0x9018 / 2 ^ 12 ≤ 11 ∧ EngineId.fx ≠ engineOfWord 0x9018) ∧
    (0xBFFF / 2 ^ 12 ≤ 11 ∧ EngineId.ce ≠ engineOfWord 0xBFFF) := by decide

theorem witness_PortableWordsRoundTrip : (Instr.lui 5 0xFFFFF).wellFormed = true ∧ encodePortable (.lui 5 0xFFFFF) = some 0xFFFFF2B7 ∧
    decodePortable 0x00100073 = .ok .ebreak := by decide

/-- A module in which each kind of word stands where its item names it. -/
def fetchS : State := State.reset.placeNative 0x0008021FFFFFFFFF
def fetchE : State := State.reset.placeEngine .ce 0x0064
def fetchP : State := State.reset.placePortable 0x00100073

theorem witness_StepRunsDecodedWord :
    (fetchS.wordAt 0 .s ((fetchS.core 0).cursor .s) = some 0x0008021FFFFFFFFF ∧ fetchS.agenda = [.issue 0 0 .s]) ∧
    (let s := { fetchS with agenda := [.check 0 0 .s] };
      s.wordAt 0 .s ((s.core 0).cursor .s) = some 0x0008021FFFFFFFFF ∧ s.indexBad 0 (.addi f0 1 1 0xFFFFFFFFF) = false) ∧
    (let s := { fetchS with agenda := [.handler 0 0] };
      s.handlerWord 0 0 = some 0x0008021FFFFFFFFF) ∧
    (let g := (fetchE.core 0).getEng 0;
      decodeEngine .ce (g.word g.pc) = .ok (.lit 100) ∧ fetchE.agenda = [.engine 0 0 .ce]) ∧
    (fetchP.portableAt 0 = some 0x00100073 ∧ fetchP.agenda = [.portable 0 0]) := by decide +kernel

/-- A partition whose only S word, to be checked now, is `w`. -/
def checkS (w : Word) : State := { State.reset.placeNative w with agenda := [.check 0 0 .s] }

theorem witness_WordsThatDoNotDecodeTrap :
    (decodeNative .s 0x0005C00000000000 = .illegal ∧ decodeNative .s 1 = .reserved ∧
      decodeNative .v 0x0004000004800000 = .format ∧ decodeNative .m 0x0000440B80000000 = .combination) ∧
    (∀ w : Word, (checkS w).wordAt 0 .s (((checkS w).core 0).cursor .s) = some w) ∧
    decodeNative .s 0x0010400000000000 = .ok (.decide f0 0 0) ∧
    (checkS 0x0010400000000000).indexBad 0 (.decide f0 0 0) = true :=
  ⟨by decide, fun _ => rfl, by decide, by decide⟩

/-! ### Witnesses: the S cluster -/

/-- An S word at its issue, with any registers. -/
theorem witness_Runs : Runs (at0 [.issue 0 0 .s]) f0 ((at0 [.issue 0 0 .s]).ctx 0 0 .s) (tS) := .issue _ _ (issues_s f0 ⟨rfl, rfl⟩ _)

/-- An S word of a handler run. -/
theorem witness_Runs_handler : Runs (at0 [.handler 0 0]) f0 ((at0 [.handler 0 0]).handlerCtx 0 0)
    ((at0 [.handler 0 0]).popItem.modCore 0 fun k => { k with handler := k.handler + 1 }) := .handler 0 0 [] rfl rfl

/-- The statements about register words, bit counts, immediates, CSRs: every register content is met, with a context as above. -/
def regs (a b : Word) : Core := { Core.reset with x := [(1, ⟨a, false⟩), (2, ⟨b, false⟩)] }

theorem witness_ScalarRegisterWords : ∃ s f x t, Runs s f x t ∧ (xr t x 1).v = 5 := ⟨_, f0, _, _,
  .issue _ _ (issues_s f0 ⟨rfl, rfl⟩ (regs 5 6)), by decide⟩

theorem witness_DivisionAndBitCountWords : (∃ s f x t, Runs s f x t ∧ (xr t x 2).v = 0) ∧
    (∃ s f x t, Runs s f x t ∧ (xr t x 1).v.toInt = -2 ^ 63 ∧ (xr t x 2).v.toInt = -1) ∧
    (∃ s f x t, Runs s f x t ∧ (xr t x 2).v ≠ 0 ∧ ¬((xr t x 1).v.toInt = -2 ^ 63 ∧ (xr t x 2).v.toInt = -1)) ∧
    (at0 [.check 0 0 .s]).agenda = [.check 0 0 .s] :=
  ⟨⟨_, f0, _, _, .issue _ _ (issues_s f0 ⟨rfl, rfl⟩ (regs 5 0)), by decide⟩,
   ⟨_, f0, _, _, .issue _ _ (issues_s f0 ⟨rfl, rfl⟩ (regs 0x8000000000000000 0xFFFFFFFFFFFFFFFF)), by decide⟩,
   ⟨_, f0, _, _, .issue _ _ (issues_s f0 ⟨rfl, rfl⟩ (regs 0x8000000000000000 1)), by decide⟩, rfl⟩

theorem witness_DivisionAndBitCountWords_bits : (∃ s f x t, Runs s f x t ∧ (xr t x 1).v = 0) ∧ ∃ s f x t, Runs s f x t ∧ (xr t x 1).v = 1 :=
  ⟨⟨_, f0, _, _, .issue _ _ (issues_s f0 ⟨rfl, rfl⟩ (regs 0 0)), by decide⟩,
   ⟨_, f0, _, _, .issue _ _ (issues_s f0 ⟨rfl, rfl⟩ (regs 1 0)), by decide⟩⟩

/-- Numbers of fp32 of every kind, an int8 and an int32 destination, and a number between two integers. -/
theorem witness_FloatResultsAreRounded : Fmt.fp32.isVecFloat = true ∧ shapeOf .fp32 = some (8, 23, 127, 0x7F7FFFFF) ∧
    (∃ p m, Reads .fp32 0x3F800000 (.fin p m 0)) ∧ (∃ p m, Reads .fp32 0x80000000 (.fin p m 0)) ∧
    (∃ p, Reads .fp32 0xFF800000 (.inf p)) ∧ Reads .fp32 0x7FC00000 .nan ∧
    (Fmt.bf16.isCvtDst = true ∧ Fmt.acc26.isCvtSrc = true ∧ shapeOf .bf16 = some (8, 7, 127, 0x7F7F)) ∧
    (∃ p m, Reads .acc26 0x1FC0000 (.fin p m 0)) ∧ (∃ p, Reads .acc26 0x1FE0000 (.inf p)) ∧ Reads .acc26 0x1FF0000 .nan ∧
    intFmt .int8 = some (8, true) ∧ intFmt .int32 = some (32, true) ∧
    (0 * 2 ^ 149 ≤ 2 ^ 148 ∧ 2 ^ 148 < (0 + 1) * 2 ^ 149) :=
  ⟨by decide, rfl, ⟨_, _, .fin 8 23 127 _ rfl (by decide)⟩, ⟨_, _, .fin 8 23 127 _ rfl (by decide)⟩,
   ⟨_, .inf 8 23 127 _ rfl (by decide) (by decide) (by decide)⟩,
   .nan 8 23 127 _ rfl (by decide) (by decide) (by decide), by decide,
   ⟨_, _, .fin 8 17 127 _ rfl (by decide)⟩, ⟨_, .inf 8 17 127 _ rfl (by decide) (by decide) (by decide)⟩,
   .nan 8 17 127 _ rfl (by decide) (by decide) (by decide), by decide, by decide, by decide⟩

/-- Every rule of RND has an operand: exact, between two neighbours, beyond the largest finite value and below the smallest normal. -/
theorem witness_FloatResultsAreRounded_ranges : units 23 0x3F800000 * 1 ≤ units 23 0x3F800000 ∧
    units 23 0x3F800000 < units 23 0x3F800001 * 1 ∧ units 7 (0x7F7F + 1) ≤ units 7 0x7F80 ∧ 1 < 2 ^ 7 * 1 ∧ 0x3F800000 ≤ 0x7F7FFFFF := by
  decide +kernel

theorem witness_SelectAndImmediateWords : (∃ s f x t, Runs s f x t ∧ t.guard x.p x.c 0 = true ∧ t.guard x.p x.c 1 = false) ∧
    (63 : BitVec 36).toNat < 64 := ⟨⟨_, f0, _, _, .issue _ _ (issues_s f0 ⟨rfl, rfl⟩ (regs 0 0)), by decide⟩, by decide⟩

theorem witness_ScalarFieldLimits : 64 ≤ (64 : BitVec 36).toNat ∧ encodeNative .s (.slli f0 1 2 64) = some 0x0009022000000040 ∧
    encodeNative .s (.limmh f0 1 0x100000000) = some 0x000A420100000000 ∧
    encodeNative .s (.gseti f0 1 2) = some 0x000C480000000002 ∧ encodeNative .s (.flset f0 1 2) = some 0x0015040000000002 := by decide

theorem witness_GuardMailboxFlagCounterWords : ∃ s f x t, Runs s f x t ∧ (xr t x 1).p = false :=
  ⟨_, f0, _, _, .issue _ _ (issues_s f0 ⟨rfl, rfl⟩ (regs 7 0)), by decide⟩

/-- A partition frozen by a trap of LOCAL routing, with core 0 in handler mode. -/
def trapped : Machine.Part := { Machine.Part.absent with trap := some ⟨0, .softwareTrap, 0, [0, 0, 0, 0], true, false, [], []⟩ }
def handlerCore (msk : Bool) : Core := { Core.reset with hm := true, msk := msk }

theorem witness_NopWaitTrapReturnWords :
    (∃ s f x t, Issues s f .s x t) ∧
    (let s := at0 [.handler 0 0] (handlerCore true) trapped;
      s.agenda = [.handler 0 0] ∧ s.guardTrue 0 0 f0 = true ∧
      (∃ r, (s.part 0).trap = some r ∧ r.localRoute = true ∧ r.kill = false ∧ r.fixes = []) ∧
      ∀ k ∈ (s.part 0).cores, k ≠ 0 → (s.core k).hm = false) ∧
    (let s := { at0 [.handler 0 0] (handlerCore true) { trapped with n := 1 } with cores := [(0, handlerCore true), (1, handlerCore true)] };
      ∃ k ∈ (s.part 0).cores, k ≠ 0 ∧ (s.core k).hm = true) :=
  ⟨⟨_, f0, _, _, issues_s f0 ⟨rfl, rfl⟩ Core.reset⟩, ⟨rfl, rfl, ⟨_, rfl, rfl, rfl, rfl⟩, by decide⟩, by decide⟩

theorem witness_HandlerLimits : (at0 [.check 0 0 .s]).guardTrue 0 0 f0 = true ∧
    ((at0 [.handler 0 0] (handlerCore true) trapped).core 0).msk = true ∧
    ((at0 [.handler 0 0] (handlerCore false) trapped).core 0).msk = false ∧
    (at0 [.handler 0 0] (handlerCore false) trapped).guardTrue 0 0 f0 = true := by decide

theorem witness_DecisionWords : ∃ s f x t, Issues s f .s x t := ⟨_, f0, _, _, issues_s f0 ⟨rfl, rfl⟩ Core.reset⟩

theorem witness_StopPulseSpawnBarrierWords :
    (∃ s f x t, Issues s f .s x t ∧ (∀ d ∈ (t.part x.p).pend, ¬ (d.tick = x.t + 2 ∧ d.act = .arm 3)) ∧
      groupPod (t.groupWord 3) = false ∧ (∀ a ∈ tget [] t.arrivals 3, a.part ≠ some x.p) ∧
      (tget [] t.arrivals 3).find? (fun a => a.part.isSome) = none) ∧
    (∃ s f x t, Issues s f .s x t ∧ (∃ d ∈ (t.part x.p).pend, d.tick = x.t + 2 ∧ d.act = .arm 3)) ∧
    (∃ (s : State) (f : Frame) (x : Ctx) (t : State) (a : Arrival), Issues s f .s x t ∧
      groupPod (t.groupWord 3) = false ∧ (∀ b ∈ tget [] t.arrivals 3, b.part ≠ some x.p) ∧
      (tget [] t.arrivals 3).find? (fun a => a.part.isSome) = some a ∧ a.join = .align ∧ a.join ≠ .none) := by
  refine ⟨⟨_, f0, _, _, issues_s f0 ⟨rfl, rfl⟩ Core.reset, by decide⟩,
    ⟨at0 [.issue 0 0 .s] Core.reset { Machine.Part.absent with pend := [⟨2, 1, who0, .arm 3⟩] }, f0, _, _, .intro 0 0 [] rfl rfl rfl, by decide⟩,
    ⟨{ at0 [.issue 0 0 .s] with arrivals := [(3, [⟨some 5, 0, 8, 0, 0, .align⟩])] }, f0, _, _, ⟨some 5, 0, 8, 0, 0, .align⟩,
      .intro 0 0 [] rfl rfl rfl, by decide⟩⟩

theorem witness_QueueWords :
    (∃ s f x t, Issues s f .s x t ∧ (t.core x.c).getQueue 11 = [entry1]) ∧
    (∃ s f x t, Issues s f .a x t ∧ (t.core x.c).getQueue 8 = [entry1]) ∧
    (∃ s f x t, Issues s f .v x t ∧ (t.core x.c).getQueue 10 = [entry1]) ∧
    (∃ s f x t, Issues s f .v x t ∧ (t.core x.c).getQueue 0 = [entry1]) :=
  ⟨⟨_, f0, _, _, issues_s f0 ⟨rfl, rfl⟩ { Core.reset with queues := [(11, [entry1])] }, rfl⟩,
   ⟨_, f0, _, _, issues_a f0 ⟨rfl, rfl⟩ { Core.reset with queues := [(8, [entry1])] }, rfl⟩,
   ⟨_, f0, _, _, issues_v f0 ⟨rfl, rfl⟩ { Core.reset with queues := [(10, [entry1])] }, rfl⟩,
   ⟨_, f0, _, _, issues_v f0 ⟨rfl, rfl⟩ { Core.reset with queues := [(0, [entry1])] }, rfl⟩⟩

theorem witness_FalseGuardOnlyMovesOn : (at0 [.check 0 0 .s]).guardTrue 0 0 ⟨false, 0, 1, false⟩ = false ∧
    (at0 [.issue 0 0 .s]).guardTrue 0 0 ⟨false, 0, 0, true⟩ = false ∧
    ((at0 [.issue 0 0 .a] Core.reset { Machine.Part.absent with voids := [(0, .a)] }).part 0).voids.contains (0, .a) = true ∧
    (Instr.qmark f0).native.isSome = true := by decide

theorem witness_AccessChecksTrap : (let s := at0 [.check 0 0 .s] { Core.reset with x := [(4, ⟨1, true⟩)] };
    s.guardTrue 0 0 f0 = true ∧ ((s.core 0).getX 4).p = true) := by decide

/-! ### Witnesses: the A cluster -/

theorem witness_CoordinateWords : ∃ s f x t, Issues s f .a x t := ⟨_, f0, _, _, issues_a f0 ⟨rfl, rfl⟩ Core.reset⟩

theorem witness_TableWords : ∃ s f x t, Issues s f .a x t ∧ (t.part x.p).loose = true :=
  ⟨at0 [.issue 0 0 .a] Core.reset { Machine.Part.absent with loose := true }, f0, _, _, .intro 0 0 [] rfl rfl rfl, rfl⟩

/-- An int32 layout of 100 elements in the pocket, and one of no element. -/
def pocket100 : Core := withLay (layOne 1 3 100 1)

/-- Layouts of stream 0 that an access meets: a good one, one with a reserved bit and one of a far module, a packed format, an element
outside an extent with edge = 1, a place past the pocket, a row that is not aligned and one that begins inside a byte. -/
theorem witness_AccessChecksTrap_layouts :
    let s := fun (l : BitVec 512) => at0 [.check 0 0 .a] (withLay l)
    let at_ := fun (l : BitVec 512) => ((s l).core 0).stream 0
    let good := layOne 1 3 100 1
    let edge := layOne 1 3 0 1 + BitVec.ofNat 512 (2 ^ 75)
    let far := layOne 3 3 100 1 + BitVec.ofNat 512 (2048 * 2 ^ 84)
    let past := layOne 1 3 100 1 + 327680
    (s good).guardTrue 0 0 f0 = true ∧ layReserved (at_ good).1 (at_ good).2 .element = false ∧
    layReserved (at_ good).1 (at_ good).2 .row = false ∧ (at_ good).2.fmt = some .int32 ∧
    layReserved (at_ (layOne 1 3 100 2)).1 (at_ (layOne 1 3 100 2)).2 .row = true ∧
    layReserved (at_ (layOne 4 3 100 1)).1 (at_ (layOne 4 3 100 1)).2 .element = true ∧
    (s far).farPeer (at_ far).2 = true ∧ (at_ (layOne 1 5 100 1)).2.fmt = some .int4 ∧ (at_ (layOne 1 0x1F 100 1)).2.fmt = none ∧
    (¬ insideAt (at_ edge).1 (at_ edge).2 0 0) ∧ (at_ edge).2.edge = true ∧
    ((∀ j < 4, insideAt (at_ past).1 (at_ past).2 0 j) ∧ spaceEnd (at_ past).2 <
      (at_ past).2.byteOf (elemOffset (at_ past).2 (at_ past).1.cur) + elemBytes (at_ past).2) ∧
    (at_ (good + 4)).2.byteOf (elemOffset (at_ (good + 4)).2 (at_ (good + 4)).1.cur) % 64 ≠ 0 ∧
    (¬ insideAt (at_ good).1 (at_ good).2 100 0 ∧ ∀ h < 16, ∀ j < 4, insideAt (at_ good).1 (at_ good).2 h j) := by
  unfold insideAt; decide +kernel

/-- Poisoned operands, a poisoned entry and one that is clean, and offsets of table words. -/
theorem witness_AccessChecksTrap_values :
    let k := { pocket100 with c := [(1, ⟨0, true⟩), (2, ⟨32, false⟩)], queues := [(4, [{ entry1 with p := true }]), (5, [entry1])]
                              lt := [(0, layOne 1 3 100 1)] }
    let s := at0 [.check 0 0 .a] k
    (k.getC 1).p = true ∧ (k.getC 2).p = false ∧ (k.getC 2).v.toNat % 64 ≠ 0 ∧ k.getQueue 4 = [{ entry1 with p := true }] ∧
    k.getQueue 5 = [entry1] ∧ entry1.landed = true ∧ entry1.p = false ∧
    s.gatherProbe (s.ctx 0 0 .a) 0 1 false = .ok := by decide +kernel

theorem witness_ElementLoadsAndStores :
    (∃ s f x t, Issues s f .a x t ∧ ∃ loc, t.element x.c ((t.core x.c).stream 2).2 ((t.core x.c).stream 2).1.cur = .at loc) ∧
    (∃ s f x t, Issues s f .a x t ∧ ∃ d, t.element x.c ((t.core x.c).stream 2).2 ((t.core x.c).stream 2).1.cur = .drop d) ∧
    cursorAfter (pocket100.stream 2).1 (pocket100.stream 2).2 .a1 1 = some 1 ∧ pocket100.afterL ≤ 0 ∧ pocket100.qmark ≤ 0 + 7 :=
  ⟨⟨_, f0, _, _, issues_a f0 ⟨rfl, rfl⟩ pocket100, .pocket 0 0, by decide +kernel⟩,
   ⟨_, f0, _, _, issues_a f0 ⟨rfl, rfl⟩ (withLay (layOne 1 3 0 1)), 0, by decide +kernel⟩, by decide +kernel⟩

theorem witness_RowLoadsAndStores :
    (∃ s f x t, Issues s f .a x t ∧ ∃ loc,
      (t.rowAt x.c ((t.core x.c).stream 2).2 2 ((t.core x.c).stream 2).1.cur).loc = some loc) ∧
    (∃ s f x t, Issues s f .a x t ∧
      (t.rowAt x.c ((t.core x.c).stream 2).2 2 ((t.core x.c).stream 2).1.cur).loc = none) ∧
    (∃ s f x t, Issues s f .a x t ∧ (t.core x.c).getQueue 4 = [entry1]) :=
  ⟨⟨_, f0, _, _, issues_a f0 ⟨rfl, rfl⟩ pocket100, .pocket 0 0, by decide +kernel⟩,
   ⟨_, f0, _, _, issues_a f0 ⟨rfl, rfl⟩ (withLay (layOne 1 3 0 1)), by decide +kernel⟩,
   ⟨_, f0, _, _, issues_a f0 ⟨rfl, rfl⟩ { pocket100 with queues := [(4, [entry1])] }, rfl⟩⟩

theorem witness_GatherScatterTouch : (∃ s f x t, Issues s f .a x t ∧ (t.core x.c).getQueue 4 = [entry1] ∧ ∃ loc,
      (t.rowAt x.c ((t.core x.c).stream 6).2 6 ((t.core x.c).stream 6).1.cur).loc = some loc) ∧
    (∃ s f x t, Issues s f .a x t ∧ (t.rowAt x.c ((t.core x.c).stream 6).2 6 ((t.core x.c).stream 6).1.cur).loc = none) ∧
    cursorAfter (pocket100.stream 6).1 (pocket100.stream 6).2 .a1 16 = some 16 :=
  ⟨⟨_, f0, _, _, issues_a f0 ⟨rfl, rfl⟩ { pocket100 with queues := [(4, [entry1])] }, rfl, .pocket 0 0, by decide +kernel⟩,
   ⟨_, f0, _, _, issues_a f0 ⟨rfl, rfl⟩ (withLay (layOne 1 3 0 1)), by decide +kernel⟩, by decide +kernel⟩

theorem witness_AtomicWords : (∃ s f x t, Issues s f .a x t ∧
    t.element x.c ((t.core x.c).stream 1).2 ((t.core x.c).stream 1).1.cur = .at (.pocket 0 0)) ∧
    (∃ s f x t, Issues s f .a x t ∧ t.element x.c ((t.core x.c).stream 1).2 ((t.core x.c).stream 1).1.cur = .drop 0) :=
  ⟨⟨_, f0, _, _, issues_a f0 ⟨rfl, rfl⟩ pocket100, by decide +kernel⟩,
   ⟨_, f0, _, _, issues_a f0 ⟨rfl, rfl⟩ (withLay (layOne 1 3 0 1)), by decide +kernel⟩⟩

theorem witness_FenceMarkAndNoiseWords : (∃ s f x t, Issues s f .a x t) ∧ (1 : BitVec 5).toNat < 2 ∧ (0x1E : BitVec 5).getLsbD 4 = true ∧
    (0x1E : BitVec 5).getLsbD 1 = true ∧ (14 : Num4).val % 2 = 0 :=
  ⟨⟨_, f0, _, _, issues_a f0 ⟨rfl, rfl⟩ Core.reset⟩, by decide⟩

/-- An engine with a command pushed before and two results. -/
def engBusy : Engine := { Engine.reset with last := some ⟨3, [1], none, 0, 0⟩, results := [⟨5, true, 0, [], 0, 0⟩, ⟨6, true, 0, [], 0, 0⟩] }

theorem witness_EngineCommandWords : ∃ s f x t, Issues s f .a x t ∧ (t.core x.c).afterE ≤ x.t ∧
    ((t.core x.c).getEng (engNum .tie)).last = some ⟨3, [1], none, 0, 0⟩ ∧
    ((t.core x.c).getEng (engNum .tie)).results = [⟨5, true, 0, [], 0, 0⟩, ⟨6, true, 0, [], 0, 0⟩] :=
  ⟨_, f0, _, _, issues_a f0 ⟨rfl, rfl⟩ { Core.reset with engines := [(1, engBusy)] }, Nat.le_refl 0, rfl, rfl⟩

/-- An EPOP behind a fence that completes at tick 9. -/
theorem witness_EngineCommandWords_fence : ∃ s f x t, Issues s f .a x t ∧ x.t < (t.core x.c).afterE :=
  ⟨_, f0, _, _, issues_a f0 ⟨rfl, rfl⟩ { Core.reset with afterE := 9 }, by decide⟩

theorem witness_GridWords : ∃ s f x t, Issues s f .a x t ∧ (t.core x.c).getQueue 4 = [entry1] ∧ (t.core x.c).afterL ≤ x.t :=
  ⟨_, f0, _, _, issues_a f0 ⟨rfl, rfl⟩ { Core.reset with queues := [(4, [entry1])] }, rfl, Nat.le_refl 0⟩

/-! ### Witnesses: the V cluster -/

theorem witness_VectorIntegerWords : (∃ s f x t, Issues s f .v x t) ∧ Fmt.int8.isVecInt = true ∧ Fmt.uint8.isVecInt = true ∧
    Fmt.int64.isVecInt = true := ⟨⟨_, f0, _, _, issues_v f0 ⟨rfl, rfl⟩ Core.reset⟩, by decide⟩

theorem witness_VectorFloatWords : (∃ s f x t, Issues s f .v x t) ∧ Fmt.fp64.isVecFloat = true ∧ Fmt.bf16.isVecFloat = true :=
  ⟨⟨_, f0, _, _, issues_v f0 ⟨rfl, rfl⟩ Core.reset⟩, by decide⟩

theorem witness_MaskWords : (∃ s f x t, Issues s f .v x t) ∧ Fmt.int16.isVecInt = true ∧ Fmt.fp32.isVecFloat = true ∧
    (64 : BitVec 43).toNat ≤ 64 ∧
    (∃ s f x t, Issues s f .v x t ∧ ∃ i < Fmt.fp32.lanes, active t x 0 i = true ∧ Reads .fp32 (elemOf 32 (vr t x 1).v i) .nan) :=
  ⟨⟨_, f0, _, _, issues_v f0 ⟨rfl, rfl⟩ Core.reset⟩, by decide, by decide, by decide,
   ⟨_, f0, _, _, issues_v f0 ⟨rfl, rfl⟩ { Core.reset with v := [(1, ⟨0x7FC00000, false⟩)] }, 0, by decide, rfl,
     .nan 8 23 127 _ rfl (by decide +kernel) (by decide +kernel) (by decide +kernel)⟩⟩

/-- A word on track 3 that was injected at stop 3 at tick 0 and stands at stop 1 at tick 14. -/
def trackWord : TrackWord := ⟨3, 0, 7, false, who0⟩

def tracked : Core := { Core.reset with tracks := [(3, [trackWord])] }

theorem witness_RingWords :
    (∃ s f x t, Issues s f .v x t ∧ ∃ c off,
      (t.rowAt x.c ((t.core x.c).stream 2).2 2 ((t.core x.c).stream 2).1.cur).own = some (.ring c off)) ∧
    (∃ s f x t, Issues s f .v x t ∧
      (t.rowAt x.c ((t.core x.c).stream 2).2 2 ((t.core x.c).stream 2).1.cur).loc = none ∧
      (t.rowAt x.c ((t.core x.c).stream 2).2 2 ((t.core x.c).stream 2).1.cur).own = some (.ring 0 0)) ∧
    (∃ s f x t, Issues s f .v x t ∧ (t.rowAt x.c ((t.core x.c).stream 2).2 2 ((t.core x.c).stream 2).1.cur).own = none ∧
      (t.rowAt x.c ((t.core x.c).stream 2).2 2 ((t.core x.c).stream 2).1.cur).probe.conds = []) ∧
    (∃ s f x t, Issues s f .v x t ∧ (t.core x.c).trackAt 3 1 x.t = some trackWord) ∧
    (∃ s f x t, Issues s f .v x t ∧ (t.core x.c).trackAt 3 1 x.t = none) :=
  ⟨⟨_, f0, _, _, issues_v f0 ⟨rfl, rfl⟩ (withLay (layOne 0 3 100 1)), 0, 0, by decide +kernel⟩,
   ⟨_, f0, _, _, issues_v f0 ⟨rfl, rfl⟩ (withLay (layOne 0 3 0 1)), by decide +kernel⟩,
   ⟨_, f0, _, _, issues_v f0 ⟨rfl, rfl⟩ (withLay (layOne 0 3 0 1 + 2 ^ 22)), by decide +kernel⟩,
   ⟨at0 [.issue 0 0 .v] tracked { Machine.Part.absent with tick := 14 }, f0, _, _, .intro 0 0 [] rfl rfl rfl, rfl⟩,
   ⟨_, f0, _, _, issues_v f0 ⟨rfl, rfl⟩ Core.reset, rfl⟩⟩

theorem witness_VectorMoves : (∃ s f x t, Issues s f .v x t) ∧ Fmt.fp32.isMove = true ∧ Fmt.int8.isMove = true ∧
    (63 : BitVec 31).toNat < Fmt.int8.lanes := ⟨⟨_, f0, _, _, issues_v f0 ⟨rfl, rfl⟩ Core.reset⟩, by decide⟩

theorem witness_VectorConversionsAndDraws : (∃ s f x t, Issues s f .v x t) ∧ Rm.rne ≠ .sto ∧ Fmt.bf16.isCvtDst = true ∧
    Fmt.fp32.isCvtSrc = true ∧ Fmt.e2m1.isCvtDst = true ∧ Fmt.e2m1.bits = 4 ∧ Fmt.kc2.isDqSrc = true ∧ Fmt.mxint8.isDqSrc = true :=
  ⟨⟨_, f0, _, _, issues_v f0 ⟨rfl, rfl⟩ Core.reset⟩, by decide⟩

theorem witness_PlaneTransposition : (∃ s f x t, Issues s f .v x t) ∧ (28 : VReg).val % 4 = 0 ∧ Fmt.int8.isPlane = true ∧
    Fmt.bf16.isPlane = true ∧ 0 < 2 ^ 2048 ∧ (3 < 16 / Fmt.int4.bits ∧ 127 < 128 ∧ 15 < Fmt.bf16.bits) :=
  ⟨⟨_, f0, _, _, issues_v f0 ⟨rfl, rfl⟩ Core.reset⟩, by decide, by decide, by decide, Nat.two_pow_pos 2048, by decide⟩

/-! ### Witnesses: the M cluster -/

theorem witness_MatrixControlWords : (∃ s f x t, Issues s f .m x t ∧ ((t.core x.c).getSa 0).power = .gated) ∧
    (∃ s f x t, Issues s f .m x t ∧ ((t.core x.c).getSa 0).power = .awake) ∧ (8 : SaMask) = BitVec.ofNat 4 (2 ^ 3) :=
  ⟨⟨_, f0, _, _, issues_m f0 ⟨rfl, rfl⟩ Core.reset, rfl⟩,
   ⟨_, f0, _, _, issues_m f0 ⟨rfl, rfl⟩ { Core.reset with sa := [(0, { SubArray.reset with power := .awake })] }, rfl⟩, by decide⟩

theorem witness_MatrixPortWords : (∃ s f x t, Issues s f .m x t ∧ (t.core x.c).getQueue 12 = [entry1, entry1]) ∧
    1 ≤ (1 : BitVec 38).toNat ∧ ((10 : SaMask).getLsbD 3 = true ∧ (10 : SaMask).getLsbD 2 = false) :=
  ⟨⟨_, f0, _, _, issues_m f0 ⟨rfl, rfl⟩ { Core.reset with queues := [(12, [entry1, entry1])] }, rfl⟩, by decide⟩

theorem witness_MatrixStartChecks :
    ((at0 [.check 0 0 .m] { Core.reset with sa := [(3, { SubArray.reset with rowBusy := 1 })] }).core 0).getSa 3 =
      { SubArray.reset with rowBusy := 1 } ∧
    (at0 [.check 0 0 .m]).guardTrue 0 0 f0 = true ∧ (((at0 [.check 0 0 .m]).core 0).getSa 3).rowBusy ≤ 0 ∧
    (((at0 [.check 0 0 .m]).core 0).getSa 3).power = .gated ∧
    ((at0 [.check 0 0 .m] Core.reset { Machine.Part.absent with loose := true }).part 0).loose = true := by decide

/-- Masks of several sub-arrays: a busy port of each kind, a load that has a swap before it, gated ones, and all awake. -/
theorem witness_MatrixStartChecks_masks :
    let a := { SubArray.reset with power := .awake }
    let s := at0 [.check 0 0 .m] { Core.reset with
      queues := [(12, [entry1, entry1])]
      sa := [(0, a), (1, { a with rowBusy := 1, weightBusy := 1, drainBusy := 1 }), (2, { a with weightBusy := 1, swap := some (1, ⟨2, 0, .bf16, 1, 0, 4, none⟩) })] }
    (Instr.mma f0 3 1 2).entryLimits = true ∧ (Instr.mlw f0 3 1).entryLimits = true ∧ (Instr.mlwp f0 3 1 2 0).entryLimits = true ∧
    (Instr.mrd f0 2 1 .fp32 .rne 1).entryLimits = true ∧ entry1.landed = true ∧
    (∀ i < 4, (3 : SaMask).getLsbD i = true → (((s.core 0).getSa i).cfg.fmtB = .bf16 ∨ ((s.core 0).getSa i).cfg.fmtB = .e4m3)) ∧
    (∃ i < 4, (3 : SaMask).getLsbD i = true ∧ 0 < ((s.core 0).getSa i).rowBusy ∧ 0 < ((s.core 0).getSa i).drainBusy ∧
      0 < ((s.core 0).getSa i).weightBusy ∧ ((s.core 0).getSa i).swap = none) ∧
    (¬ ∃ i < 4, (5 : SaMask).getLsbD i = true ∧ (0 < ((s.core 0).getSa i).weightBusy ∧ ((s.core 0).getSa i).swap = none)) ∧
    ((List.range 4).filter fun i => (5 : SaMask).getLsbD i && !((s.core 0).getSa i).awakeAt 0) = [] ∧
    ((List.range 4).filter fun i => (9 : SaMask).getLsbD i && !((s.core 0).getSa i).awakeAt 0) ≠ [] := by decide

def loadRun : LoadRun := ⟨2, 0, .bf16, 1, 0, 4, none⟩

theorem witness_SubArrayEvents :
    (let s := at0 [] { Core.reset with sa := [(2, { SubArray.reset with swap := some (0, loadRun) })] };
      s.popEvent.partOf 0 = some 0 ∧ ((s.popEvent.core 0).getSa 2).swap = some ((s.popEvent.part 0).tick, loadRun) ∧
      loadRun.noise = none ∧ ((s.popEvent.core 0).getSa 2).rowBusy ≤ (s.popEvent.part 0).tick) ∧
    (let s := at0 [] { Core.reset with sa := [(2, { SubArray.reset with swap := some (0, { loadRun with noise := some (1, 2, 3, 4) }) }),
        (3, { SubArray.reset with swap := some (0, loadRun), rowBusy := 9 })] };
      ((s.popEvent.core 0).getSa 2).swap = some ((s.popEvent.part 0).tick, { loadRun with noise := some (1, 2, 3, 4) }) ∧
      ((s.popEvent.core 0).getSa 3).swap = some ((s.popEvent.part 0).tick, loadRun) ∧
      (s.popEvent.part 0).tick < ((s.popEvent.core 0).getSa 3).rowBusy) ∧
    (let a := { SubArray.reset with power := .awake, idle := 4096 }
     a.power = .awake ∧ (a.weightBusy ≤ 0 ∧ a.rowBusy ≤ 0 ∧ a.drainBusy ≤ 0) ∧ (Core.reset.mgate.toNat ≠ 0 ∧ Core.reset.mgate.toNat ≤ a.idle)) ∧
    ({ SubArray.reset with power := .awake, sleepAt := some 0 }.sleepAt = some 0 ∧ SubArray.reset.power ≠ .awake) ∧
    (let s := at0 [] { Core.reset with sa := [(2, { SubArray.reset with power := .waking })] } { Machine.Part.absent with waits := [.wake 0 2] };
      (s.popEvent.part 0).waits.contains (.wake 0 2) = true ∧ ((s.popEvent.core 0).getSa 2).power = .waking) := by decide

/-! ### Witnesses: engines -/

/-- An engine that stands at a word, with a stack. -/
def engWith (stack : List Word) : Core :=
  let g := { Engine.reset with running := true, stack := stack }
  { Core.reset with engines := [(0, g), (1, g), (2, g)] }

theorem executes (launch : Bool) (e : EngineId) (l : List Word) :
    ∃ x g, Executes (at0 [.engine 0 0 e] (engWith l)) launch 0 e x g ∧ g.stack = l := by
  cases e <;> exact ⟨_, _, .intro 0 0 _ [] rfl rfl (fun _ => Nat.le_refl 0), rfl⟩

theorem witness_EngineStackWords : ∃ s c e x g, Executes s false c e x g ∧ g.stack = [3, 2, 1] :=
  let ⟨x, g, h⟩ := executes false .ce [3, 2, 1]; ⟨_, 0, .ce, x, g, h⟩

theorem witness_EngineControlWords : ∃ s c e x g, Executes s false c e x g ∧ g.stack = [0] :=
  let ⟨x, g, h⟩ := executes false .fx [0]; ⟨_, 0, .fx, x, g, h⟩

theorem witness_EngineStackLimits :
    let s := fun l => at0 [.checkEngine 0 0 .ce] (engWith l)
    (((s []).core 0).getEng 0).stack = [] ∧ (((s []).core 0).getEng 0).running = true ∧ (((s [1]).core 0).getEng 0).stack.length < 2 ∧
      (((s [1, 2]).core 0).getEng 0).stack.length < 3 ∧ (((s [1, 2, 3, 4, 5, 6, 7, 8]).core 0).getEng 0).stack.length = 8 ∧
      (((s [1, 2, 3]).core 0).getEng 0).stack.length < 4 ∧ (((s [1, 2, 3, 4]).core 0).getEng 0).stack.length < 5 ∧
      (((s []).core 0).getEng 0).busy ≤ ((s []).part 0).tick := by decide

theorem witness_EngineLaunchWords : (∃ s c x g, Executes s true c .ce x g ∧ g.stack = [1, 2, 3, 4, 5] ∧ engNum .ce = 0) ∧
    (∃ s c x g, Executes s true c .tie x g ∧ g.stack = [1, 2, 3, 4] ∧ engNum .tie = 1) ∧
    (∃ s c x g, Executes s true c .fx x g ∧ g.stack = [1, 2, 3, 4, 5] ∧ engNum .fx = 2) :=
  let ⟨x1, g1, h1, k1⟩ := executes true .ce [1, 2, 3, 4, 5]
  let ⟨x2, g2, h2, k2⟩ := executes true .tie [1, 2, 3, 4]
  let ⟨x3, g3, h3, k3⟩ := executes true .fx [1, 2, 3, 4, 5]
  ⟨⟨_, 0, x1, g1, h1, k1, rfl⟩, ⟨_, 0, x2, g2, h2, k2, rfl⟩, ⟨_, 0, x3, g3, h3, k3, rfl⟩⟩

/-- A copy, a plane or a fill of 128 elements of the own pocket to itself has beats. -/
theorem witness_EngineLaunchWords_copies :
    let s := at0 [.engine 0 0 .ce] { withLay (layOne 1 3 100 1) with engines := [(0, { Engine.reset with running := true })] };
    let a := (s.core 0).side 0;
    ∀ kind ∈ [CopyKind.copy, .plane, .fill], (∃ z r, s.rawBeats 0 kind a a [128, 1, 1, 1] = [] ++ z :: r) ∧
      ∃ l z, s.rawBeats 0 kind a a [128, 1, 1, 1] = l ++ [z] := by
  intro s a
  have h : ∀ kind ∈ [CopyKind.copy, .plane, .fill], (s.rawBeats 0 kind a a [128, 1, 1, 1]).isEmpty = false := by decide +kernel
  intro kind m
  have e : s.rawBeats 0 kind a a [128, 1, 1, 1] ≠ [] := fun n => by simpa [n] using h kind m
  exact ⟨List.exists_cons_of_ne_nil e, _, _, (List.dropLast_concat_getLast e).symm⟩

theorem witness_EngineEvents :
    (let s := at0 [] { Core.reset with engines := [(0, { Engine.reset with cmds := [⟨3, [], none, 0, 0⟩] })] };
      s.popEvent.partOf 0 = some 0 ∧ ((s.popEvent.core 0).getEng 0).cmds = [⟨3, [], none, 0, 0⟩] ∧
      ((s.popEvent.core 0).getEng 0).running = false ∧ ((s.popEvent.core 0).getEng 0).endAt = none) ∧
    (let g := { Engine.reset with chain := some 5, endAt := some 0 }; g.running = false ∧ g.endAt = some 0 ∧ g.chain = some 5) ∧
    (let r : ResEntry := ⟨5, false, 0, [], 0, 0⟩
     let s := at0 [] { Core.reset with engines := [(0, { Engine.reset with results := [⟨4, true, 0, [], 0, 0⟩, r] })] };
     ((s.popEvent.core 0).getEng 0).results = [⟨4, true, 0, [], 0, 0⟩] ++ r :: [] ∧ s.popEvent.lateBeat 0 0 r = false ∧
      (s.popEvent.part 0).waits.contains (.epop 0 0 true) = false) ∧
    ((at0 [] Core.reset { Machine.Part.absent with waits := [.epop 0 0 true] }).popEvent.part 0).waits.contains (.epop 0 0 true) = true := by
  decide

/-! ### Witnesses: portable code -/

theorem runs32 (u : HwUnit) (k : Core) : Runs32 (at0 [.portable 0 0] k) u ((at0 [.portable 0 0] k).portCtx 0 0 u)
    (at0 [.portable 0 0] k).popItem := .intro 0 0 [] rfl rfl

theorem witness_PortableIntegerWords : (∃ s t x, Runs32 s .s x t ∧ (xr t x 2).v = 0 ∧ (xr t x 2).v.setWidth 32 = (0 : BitVec 32)) ∧
    (∃ s t x, Runs32 s .s x t ∧ (xr t x 2).v ≠ 0 ∧ (xr t x 2).v.setWidth 32 ≠ (0 : BitVec 32)) :=
  ⟨⟨_, _, _, runs32 .s (regs 5 0), by decide⟩, ⟨_, _, _, runs32 .s (regs 5 1), by decide⟩⟩

theorem witness_PortableControlWords : (∃ s t x, Runs32 s .s x t) ∧ (∃ s t x, Runs32 s .a x t) ∧
    ¬((5 : XReg).val = 0 ∧ (1 : XReg).val = 1 ∧ (0 : BitVec 12) = 0) ∧
    (∀ i < 5, (0x10 : BitVec 5).getLsbD i = (i == 4 && (2 : BitVec 4).getLsbD 1 && (2 : BitVec 4).getLsbD 1 ||
      i == 3 && (2 : BitVec 4).getLsbD 1 && (2 : BitVec 4).getLsbD 0 || i == 2 && (2 : BitVec 4).getLsbD 0 && (2 : BitVec 4).getLsbD 1 ||
      i == 1 && (2 : BitVec 4).getLsbD 0 && (2 : BitVec 4).getLsbD 0)) :=
  ⟨⟨_, _, _, runs32 .s Core.reset⟩, ⟨_, _, _, runs32 .a Core.reset⟩, by decide, by decide⟩

theorem witness_PortableAccessWords :
    (RvLoadOp.ld, 8, true) ∈ [(RvLoadOp.lb, 1, true), (.lh, 2, true), (.lw, 4, true), (.ld, 8, true), (.lbu, 1, false),
      (.lhu, 2, false), (.lwu, 4, false)] ∧ (RvStoreOp.sd, 8) ∈ [(RvStoreOp.sb, 1), (.sh, 2), (.sw, 4), (.sd, 8)] ∧
    (∃ s t x, Runs32 s .a x t) ∧
    (let s := at0 [.checkPortable 0 0] { Core.reset with x := [(1, ⟨0xFFFFFFFFFFFF8, false⟩), (2, ⟨4, false⟩), (3, ⟨0, true⟩)] };
      ((s.core 0).getX 1).v.toNat % 8 = 0 ∧ ((s.core 0).getX 1).v.toNat + 8 ≤ 2 ^ 52 ∧ ((s.core 0).getX 2).v.toNat % 8 ≠ 0 ∧
      ((s.core 0).getX 2).p = false ∧ ((s.core 0).getX 3).p = true ∧ 2 ^ 52 < (((s.core 0).getX 1).v + (8 : Word)).toNat + 8) :=
  ⟨by decide, by decide, ⟨_, _, _, runs32 .a Core.reset⟩, by decide⟩

/-- A launch's function of some instructions, in an object whose flags are `flags`: 1 declares it exact. -/
def ofFunction (flags : Nat) (l : List Instr) : State :=
  { at0 [.portable 0 0] Core.reset { Machine.Part.absent with handle := 1, thread := some ⟨0, 0, true, [], none, 0⟩ } with
    objects := [(1, ⟨{ emptyObject with image := objectHeader flags 0 0 2 0 ++
      (textImage (l.flatMap fun i => leBytes 4 ((encodePortable i).getD 0).toNat)).drop 64 }, 0⟩)] }

/-- 21 R396: a KV.MUL whose product the next KV.ADD alone reads may be contracted; one whose product is read again may not, and
none in an object that declares exact. -/
theorem test_contraction :
    (ofFunction 0 [.kvMul .f32 0 4 1 2, .kvAdd .f32 0 5 4 3, .jalr 0 1 0]).kvContracts 0 .f32 none 4 = true ∧
    (ofFunction 0 [.kvMul .f32 0 4 1 2, .kvAdd .f32 0 5 4 3, .kvSub .f32 0 6 4 3, .jalr 0 1 0]).kvContracts 0 .f32 none 4 = false ∧
    (ofFunction 1 [.kvMul .f32 0 4 1 2, .kvAdd .f32 0 5 4 3, .jalr 0 1 0]).kvContracts 0 .f32 none 4 = false := by decide +kernel

theorem witness_PortableVectorWords : (∃ s t x, Runs32 s .v x t ∧ t.mayRegroup x.p = false) ∧
    (∃ s t x, Runs32 s .v x t ∧ t.mayRegroup x.p = true ∧ ∀ e ∈ (t.core x.c).kvSums, e.reg ≠ 1 ∧ e.reg ≠ 2) ∧
    Pt.isFloat .f32 = true ∧ Pt.isFloat .i8 = false :=
  ⟨⟨_, _, _, runs32 .v Core.reset, rfl⟩,
   ⟨{ at0 [.portable 0 0] { Core.reset with kvSums := [⟨3, .fp32, .rne, []⟩] } { Machine.Part.absent with handle := 1 } with
      objects := [(1, ⟨{ emptyObject with image := objectHeader 0 0 0 0 0 }, 0⟩)] }, _, _, .intro 0 0 [] rfl rfl, by decide⟩, by decide⟩

/-- A configuration word of KM.CFG: bf16 by bf16 with eight planes. -/
theorem witness_PortableProfileWords : (∃ s t x, Runs32 s .s x t) ∧ (∃ s t x, Runs32 s .a x t) ∧ (∃ s t x, Runs32 s .m x t) ∧
    (let w : Word := 11 + 11 * 2 ^ 5 + 8 * 2 ^ 10;
      decodeNative .m (BitVec.ofNat 64 (2 ^ 46 + (15 : SaMask).toNat * 2 ^ 42 + w.toNat % 32 * 2 ^ 37 + w.toNat / 2 ^ 5 % 32 * 2 ^ 32 +
        w.toNat / 2 ^ 10 % 16 * 2 ^ 28 + w.toNat / 2 ^ 14 % 4 * 2 ^ 26 + w.toNat / 2 ^ 16 % 128 * 2 ^ 19)) =
        .ok (.mcfg f0 15 .bf16 .bf16 8 .accum 0)) :=
  ⟨⟨_, _, _, runs32 .s Core.reset⟩, ⟨_, _, _, runs32 .a Core.reset⟩, ⟨_, _, _, runs32 .m Core.reset⟩, by decide⟩

/-! ### Witnesses: control events -/

/-- An object with one continuation, one decision, one loop and a stub. -/
def obj1 : Object := { emptyObject with
  image := objectHeader 1 1 9 0 0
  conts := [⟨[0], [], [], [], none⟩, ⟨[], [], [], [], some 0⟩]
  decisions := [(0, ⟨0, [⟨0, 5, 5, 0⟩, ⟨0, 6, 6, 1⟩], none⟩)]
  loops := [(0, ⟨10, 1, false, 0, 0, ⟨[0], [], [], [], none⟩⟩)] }

def loop0 : LoopEntry := ⟨10, 1, false, 0, 0, ⟨[0], [], [], [], none⟩⟩

/-- Partition 0 running obj1. -/
def running1 (q : Machine.Part) : State := { at0 [] Core.reset { q with handle := 1 } with objects := [(1, ⟨obj1, 0⟩)] }

/-- A decision that issued at tick 0, at its switch tick. -/
def deciding (k : DecisionKind) (v : PWord) (rets : List RetEntry) (loops : List Level) : State :=
  running1 { Machine.Part.absent with tick := 8, rets := rets, loops := loops, decision := some ⟨k, 0, who0, [(0, v)]⟩ }

def level0 (period clock : Nat) : Level := ⟨0, loop0, 2, period, clock, 0, [], 0, true, []⟩

theorem witness_SwitchEvents_decide :
    (let s := deciding (.decide 0) ⟨5, false⟩ [] [];
      (s.popEvent.part 0).tick = 0 + delta (s.popEvent.part 0).n ∧
      (s.popEvent.objOf 0).bind (fun o => lookupId o.decisions 0) = some ⟨0, [⟨0, 5, 5, 0⟩, ⟨0, 6, 6, 1⟩], none⟩ ∧
      (s.popEvent.objOf 0).bind (fun o => lookupId o.decisions 1) = none ∧
      chooseCase ⟨0, [⟨0, 5, 5, 0⟩, ⟨0, 6, 6, 1⟩], none⟩ (combineVotes 0 [5]) = some 0 ∧
      chooseCase ⟨0, [⟨0, 5, 5, 0⟩, ⟨0, 6, 6, 1⟩], none⟩ (combineVotes 0 [7]) = none ∧
      s.popEvent.pendingStub 0 0 = none ∧ s.popEvent.stub 0 0 = none ∧ s.popEvent.pendingStub 0 1 = some 0 ∧
      (let u := { s.popEvent with heap := [⟨1, 0, (s.part 0).size, 64, []⟩] }; u.pendingStub 0 1 = none ∧ u.stub 0 1 = some 0)) ∧
    ([((0 : Nat), (⟨5, true⟩ : PWord))].find? (fun v => v.2.p) = some (0, ⟨5, true⟩)) := by decide

theorem witness_SwitchEvents_others :
    16 ≤ (List.replicate 16 (RetEntry.cont 0)).length ∧ ([] : List RetEntry).length < 16 ∧
    ((deciding .ret ⟨0, false⟩ [.cont 0] []).popEvent.part 0).rets = [.cont 0] ∧
    ((deciding .ret ⟨0, false⟩ [.portable 0 8 true] []).popEvent.part 0).rets = [.portable 0 8 true] ∧
    ((deciding (.loop 0) ⟨3, false⟩ [] []).popEvent.part 0).preempt = none ∧
    8 ≤ (List.replicate 8 (level0 0 0)).length ∧
    ((deciding (.loop 0) ⟨3, false⟩ [] []).popEvent.objOf 0).bind (fun o => lookupId o.loops 0) = some loop0 ∧
    (level0 0 10).clock = ((level0 0 10).period + 1) * (level0 0 10).entry.period ∧
    (level0 0 10).period + 1 < (level0 0 10).count.toNat + (level0 0 10).entry.stages - 1 ∧
    (level0 1 20).clock = ((level0 1 20).count.toNat + (level0 1 20).entry.stages - 1) * (level0 1 20).entry.period ∧
    (level0 1 20).period + 1 = (level0 1 20).count.toNat + (level0 1 20).entry.stages - 1 ∧
    ((running1 { Machine.Part.absent with loops := [level0 1 20] }).popEvent.part 0).loops = [level0 1 20] ∧
    0 ∈ ((running1 Machine.Part.absent).part 0).cores := by decide

/-- A group of two local members, and one of the pod with two members. -/
def groupState (w : Word) (l : List Arrival) (q : Machine.Part) : State :=
  { at0 [] Core.reset q with groups := [(3, w)], arrivals := [(3, l)] }

/-- A word that issues now with the instruction caches empty misses in one line. -/
theorem witness_BarrierAndFreezeEvents_icache : ∃ l, { fetchS with agenda := [] }.popEvent.missing 0 = [(0, .s, l)] ∧
    risingFrom none ({ fetchS with agenda := [] }.popEvent.core 0).icache = true := ⟨_, rfl, by decide⟩

theorem witness_BarrierAndFreezeEvents :
    (let s := groupState 9 [⟨some 0, 0, 0, 0, 0, .none⟩, ⟨some 1, 0, 8, 0, 0, .none⟩] Machine.Part.absent;
      s.popEvent.groupWord 3 % 4 = 1 ∧ s.popEvent.groupWord 3 / 4 % 2 ^ 16 ≤ (tget [] s.popEvent.arrivals 3).length) ∧
    (let s := { groupState 0x80003 [⟨some 0, 0, 0, 1500, 1500, .none⟩, ⟨none, 7, 8, 1000, 5000, .none⟩] Machine.Part.absent with wall := 5000 };
      s.popEvent.groupWord 3 % 4 = 3 ∧ s.popEvent.groupWord 3 / 2 ^ 18 % 2 ^ 16 = 2 ∧ (roundOf (tget [] s.popEvent.arrivals 3)).1.length = 2 ∧
      (∀ a ∈ (roundOf (tget [] s.popEvent.arrivals 3)).1, a.wall ≤ 1500 ∧ a.seen ≤ 5000) ∧
      (1500 + 2000 ≤ 4000 ∧ 4000 < 1500 + 3000 ∧ max 4000 5000 ≤ s.popEvent.wall) ∧ s.popEvent.wall < 6000) ∧
    (let k := { Machine.Part.absent with pulse := 100, pulseAt := 0, tick := 100 }; k.pulse ≠ 0 ∧ k.pulseAt + k.pulse ≤ k.tick ∧ k.stop = none) ∧
    (let k := { Machine.Part.absent with countFrom := some 0, waits := [.queueNever], flim := 1 };
      (groupState 9 [] k).popEvent.limitAt 0 = some 1000) := by decide

/-- A grid of 16 fp32 elements in one dimension whose high face exchanges one layer with core 5, its interior at step 2. -/
def gridEdge : Grid := { Grid.reset with
  defined := true
  desc := BitVec.ofNat 1024 (16 * 2 ^ 64 + 2 ^ 96 + 2 ^ 128 + 32 * 2 ^ 160 + 2 * 2 ^ 256 + 9 * 2 ^ 416 + 2 ^ 426 + 2 ^ 430 + (5 + 2 ^ 22) * 2 ^ 544)
  inner := [(0, 2)] }

theorem witness_freezes_that_clear :
    (let s := at0 [] Core.reset { Machine.Part.absent with waits := [.icache [], .late 0 1, .bank, .lsq 0 true, .queue 0 1] };
      (s.popEvent.part 0).waits.find? (fun w => match w with | .bank => true | _ => false) = some .bank ∧
      (s.popEvent.part 0).waits.find? (fun w => match w with | .late _ _ => true | _ => false) = some (.late 0 1) ∧
      (s.popEvent.part 0).waits.find? (fun w => match w with | .lsq _ _ => true | _ => false) = some (.lsq 0 true) ∧
      (s.popEvent.part 0).waits.find? (fun w => match w with | .queue _ _ => true | _ => false) = some (.queue 0 1) ∧
      (s.popEvent.part 0).waits.find? (fun w => match w with | .icache _ => true | _ => false) = some (.icache [])) ∧
    (let d : Due := ⟨0, heldPlace, who0, .gridLoad 2 (.reg 0) [1, 0, 0] 2 true 0 0⟩;
     let s := { at0 [] { Core.reset with grids := [(2, gridEdge)] } { Machine.Part.absent with
       waits := [.hem 0 2 1 7 d], frozenAt := some 0, pend := [d] } with wall := 1001 };
      s.popEvent.hemOver 0 = some (d, 7) ∧ (0 : Nat) + 1 * 1000 < s.popEvent.wall ∧ s.popEvent.partOf 0 = some 0 ∧
      s.popEvent.arrivedExchange 0 0 2 1 5 = none) ∧ State.reset.popEvent.partOf 5 = none ∧
    (let d : Due := ⟨0, 2, who0, .x 1 ⟨0, false⟩⟩;
      ((at0 [] Core.reset { Machine.Part.absent with lateWrites := [d] }).popEvent.part 0).lateWrites = [] ++ d :: []) := by decide +kernel

/-! ### Witnesses: the host interface -/

/-- A module after a grant, with obj1 loaded and entry 0. -/
def hosted (e : Entry) : State :=
  { State.reset with ready := 1, hivgnt := 0x10100, entries := [(0, e)], objects := [(1, ⟨obj1, 0⟩)], wall := 10 }

def entryWith (state : BitVec 8) (word1 : Word) : Entry := { Entry.reset with words := [(1, word1), (2, 1)], state := state }

theorem witness_LaunchTableEvents_submit :
    ((hosted (entryWith 3 0)).entry 0).busy = true ∧ ((hosted (entryWith 0 0)).entry 0).busy = false ∧ State.reset.ready ≠ 1 ∧
    { State.reset with ready := 1 }.hivgnt.getLsbD 16 = false ∧ (hosted (entryWith 0 0)).hivgnt.getLsbD 16 = true ∧
    (entryWith 0 0x801).base % (entryWith 0 0x801).size ≠ 0 ∧ 2048 < (entryWith 0 0x6000).base + (entryWith 0 0x6000).size ∧
    (hosted (entryWith 0 0)).submitRefusal 0 = none ∧ State.reset.granted = false ∧ (hosted (entryWith 0 0)).granted = true := by
  decide

/-- An entry that fails each check of a submission: overlapping cores, no object, another timing, no continuation, no group, no pulse, and
a reserved bit. -/
theorem witness_LaunchTableEvents_checks :
    (let s := { hosted (entryWith 0 0) with entries := [(0, entryWith 0 0), (1, entryWith 4 0)] };
      ∃ x ∈ s.popEvent.entries, x.1 ≠ 0 ∧ x.2.busy = true ∧ (entryWith 0 0).base < x.2.base + x.2.size ∧
        x.2.base < (entryWith 0 0).base + (entryWith 0 0).size) ∧
    ({ hosted (entryWith 0 0) with objects := [] } : State).popEvent.loaded 1 = none ∧
    ((hosted (entryWith 0 0)).popEvent.loaded 1 = some ⟨obj1, 0⟩ ∧ obj1.loose ≠ (entryWith 0 0x8000).loose) ∧
    obj1.conts[(entryWith 0 0x50000000).cont]? = none ∧
    ((entryWith 0 0x80000).gv = true ∧ (hosted (entryWith 0 0x80000)).popEvent.groupWord 0 % 2 = 0) ∧
    ((entryWith 0 0x10000).pers = true ∧ (entryWith 0 0x10000).pulse = 0) ∧ (entryWith 0 0x10000000000).word 1 / 2 ^ 40 ≠ 0 ∧
    ((0 / 1000 + 1) * 1000 % 1000 = 0 ∧ (hosted (entryWith 3 0)).popEvent.wall ≤ 1000) ∧
    1000 < ({ hosted (entryWith 3 0) with wall := 5000 } : State).popEvent.wall :=
  ⟨⟨_, .tail _ (.head _), by decide⟩, by decide, by decide, by decide, by decide, by decide, by decide, by decide, by decide⟩

/-- A path of more slots than its budget: no slot of the plan serves it. -/
theorem witness_LaunchTableEvents_budget : (0 ≠ 4 ∧ (0 < 8 ∧ 4 < 8)) ∧ transitBudget false 0 4 < transitBound [] [] (pathHops 0 4) := by decide +kernel

theorem witness_LaunchTableEvents_load :
    (let s := (hosted (entryWith 3 0)).popEvent; s.loadReady 0 = true ∧ (s.loaded (s.entry 0).handle).isSome = true ∧
      (s.entry 0).restore = none ∧ globalRuns s.hbm (s.entry 0).asid (s.entry 0).l1pa obj1 = some []) ∧
    globalRuns [] 0 0 { obj1 with data := [⟨.global, 0, [1]⟩] } = none ∧
    (let e := { entryWith 3 0 with loaded := true, start := 10 }; e.start ≤ (hosted e).wall ∧ e.loaded = true) := by decide

theorem witness_LaunchTableEvents_end :
    (let s := at0 [] Core.reset { Machine.Part.absent with stop := some 3 }; s.popEvent.partFinished 0 = true) ∧
    (let s := at0 [] Core.reset { Machine.Part.absent with complete := true }; s.popEvent.entryFinished 0 = true) ∧
    (∀ b : Bool, loadFailure { obj1 with conts := [⟨[0], [], [], [], none⟩], decisions := [] } b = none) ∧
    (∀ b : Bool, loadFailure { emptyObject with image := [] } b = some 1) ∧
    (∀ x ∈ (hosted (entryWith 0 0)).popEvent.entries, x.2.inGroup 3 = true → x.2.state.toNat < 2) ∧
    (∃ x ∈ (hosted (entryWith 4 0x380000)).popEvent.entries, x.2.inGroup 3 = true ∧ 2 ≤ x.2.state.toNat) := by
  refine ⟨by decide, by decide, by decide, by decide, by decide, ⟨_, List.Mem.head _, by decide⟩⟩

/-- A heap that holds the function asked for, and one that a save area's code fills. -/
theorem witness_LaunchTableEvents_heap :
    ([] : List HeapFn).map HeapFn.bytes = [] ∧ loadBytes emptyObject = 0 ∧
    (let s := { State.reset with heap := [⟨1, 0, 2048, 64, []⟩, ⟨1, 1, 2048, 64, [0]⟩] };
      (s.popEvent.translated 1 0 2048).2 = true ∧ (∃ x ∈ s.popEvent.heap, s.popEvent.fnInUse x = true)) ∧
    (let s := { State.reset with heap := [⟨1, 1, 1, 2 ^ 30 + 1, [0]⟩] };
      (s.popEvent.translated 1 0 1).2 = false ∧ (s.popEvent.heapRoom 0).2 = false ∧
      loadFailure { emptyObject with image := [] } (!(s.popEvent.heapRoom 0).2) = some 1) := by
  have h : (({ State.reset with heap := [⟨1, 1, 1, 2 ^ 30 + 1, [0]⟩] } : State).popEvent.heapRoom 0).2 = false := by
    simp [State.heapRoom, State.heapFits, State.evict, State.fnInUse, State.popEvent, State.reset, State.draw, heapSize]
  exact ⟨rfl, by decide, ⟨by decide, ⟨_, List.Mem.tail _ (List.Mem.head _), by decide⟩⟩, h, h, by rw [h]; decide⟩

/-- An object of one portable function and one note for KV, followed by a section of some type and flags. -/
def notedObject (note : Nat) (type flags : Nat) : Object := { emptyObject with
  image := objectHeader 1 0 0 3 1 ++ leBytes 8 1 ++ leBytes 8 160 ++ leBytes 8 4 ++ leBytes 8 2 ++ leBytes 8 144 ++ leBytes 8 16 ++
    leBytes 4 type ++ leBytes 4 flags ++ leBytes 8 0 ++ leBytes 8 0 ++ leBytes 8 note ++ leBytes 4 0 ++ leBytes 4 4 ++ leBytes 8 1 ++
    leBytes 4 0x0B }

/-- 21 R391's example: on this K9 an object that requires KV1.4 with floor 1.2 loads, and one with floor 1.4 fails with code 2.
21 R393: a section of a type that is not known fails with code 4 unless it is optional. -/
theorem test_object_load :
    loadFailure (notedObject 0x0201040100 0x0E 0) false = none ∧ loadFailure (notedObject 0x0401040100 0x0E 0) false = some 2 ∧
    loadFailure (notedObject 0x0201040100 0x12 0) false = some 4 ∧ loadFailure (notedObject 0x0201040100 0x12 1) false = none ∧
    (notedObject 0 0x0E 0).functions = [⟨0, [0x0B, 0, 0, 0], true⟩] := by decide +kernel

/-- Votes at the switch tick: taken by some cores, by all or by none, and an indirect JALR whose address is that of a function that is
address-taken, or of none. -/
theorem witness_PortableControlWords_votes :
    let voted := fun (l : List (Nat × Next)) (o : Option Nat) (t : Nat) =>
      at0 [.portableEnd 0] Core.reset { Machine.Part.absent with handle := 1, n := 1, tick := t, thread := some ⟨0, 0, false, l, o, 0⟩ }
    let mixed := [(0, Next.branch true 8), (1, .branch false 8)]
    ((voted mixed none 0).part 0).thread = some ⟨0, 0, false, mixed, none, 0⟩ ∧
    delta ((voted mixed (some 0) (delta 1)).part 0).n = ((voted mixed (some 0) (delta 1)).part 0).tick ∧
    (mixed.filter fun w => w.2 == .branch true 8).length = 1 ∧
    ([(0, Next.branch false 8)].filter fun w => w.2 == .branch true 8).length = 0 ∧
    (∀ w ∈ mixed, w.2 = .branch true 8 ∨ w.2 = .branch false 8) ∧
    (notedObject 0 0x0E 0).functions = [⟨0, [0x0B, 0, 0, 0], true⟩] ∧
    (let o : Loaded := ⟨notedObject 0 0x0E 0, 0⟩
     let s := { at0 [] Core.reset { Machine.Part.absent with handle := 1 } with objects := [(1, o)] };
      s.loadedOf 0 = some o ∧ o.entryVa 0 ≠ o.entryVa 0 + 4 ∧
      { s with heap := [⟨1, 0, (s.part 0).size, 64, []⟩] }.untranslated 0 0 = false) := by decide +kernel

/-- Entry 0 running partition 0, after a grant. -/
def commanded (q : Machine.Part) : State :=
  { hosted (entryWith 4 0) with cores := [(0, Core.reset)], parts := [(0, { q with run := true, handle := 1 })] }

def heldTrap : Trap := ⟨0, .softwareTrap, 0, [0, 0, 0, 0], false, false, [], []⟩

theorem witness_ControlBlockCommands :
    (¬ ((0x10001 : Word).toNat / 2 ^ 52 ≠ 0 ∨ (0x10001 : Word).toNat / 2 ^ 4 % 2 ^ 12 ≠ 0)) ∧
    ((0x11 : Word).toNat / 2 ^ 4 % 2 ^ 12 ≠ 0) ∧
    (let s := (commanded { Machine.Part.absent with trap := some heldTrap }).popEvent;
      (s.entry 0).state = 4 ∧ (s.part 0).run = true ∧ (s.part 0).complete = false ∧ (s.part 0).trap = some heldTrap ∧ heldTrap.kill = false ∧
      (∀ c ∈ (s.part 0).cores, (s.core c).hm = false) ∧ (s.part 0).join = none ∧ (s.part 0).preempt = none ∧ s.objOf 0 = some obj1 ∧
      65536 < 2 ^ 40 ∧ 65536 % 2 ^ 36 + areaSize obj1 (s.part 0).size ≤ 48 * 2 ^ 30) ∧
    ((commanded Machine.Part.absent).popEvent.part 0).trap = none ∧ ((hosted (entryWith 0 0)).popEvent.entry 0).state ≠ 4 ∧
    (let s := (hosted { entryWith 4 0 with quiesced := false }).popEvent; (s.part 0).run = false ∧ s.postedNone 0 = true) ∧
    (let s := commanded { Machine.Part.absent with preempt := some ⟨65536, true, 0, 0, true, false⟩ }; s.popEvent.drained 0 = true) ∧
    (commanded Machine.Part.absent).popEvent.objOf 0 = some obj1 ∧ (0 : Word).toNat % 16 = 0 ∧ 7 ≤ (0x10007 : Word).toNat % 16 ∧
    State.reset.popEvent.ready ≠ 1 ∧ { hosted (entryWith 0 0) with ready := 2 }.granted = true := by decide

/-- A save area of obj1's partition of one core, of format version 1, for handle 1. -/
theorem witness_ControlBlockCommands_restore :
    let s := { hosted (entryWith 0 0) with hbm := [⟨65536, 1⟩, ⟨65544, 1⟩, ⟨65560, 1⟩] };
    s.popEvent.restoreRefusal 0 65536 = none ∧ insideStack 65536 (areaSize obj1 1) = true ∧ (s.popEvent.entry 0).busy = false := by decide

theorem witness_HostRegisterWrites :
    (∀ x ∈ State.reset.popEvent.entries, x.2.state ≠ 3 ∧ x.2.state ≠ 4) ∧
    (∃ x ∈ (hosted (entryWith 4 0)).popEvent.entries, x.2.state = 3 ∨ x.2.state = 4) ∧
    (∀ x ∈ (hosted (entryWith 5 0)).popEvent.entries, x.2.state.toNat < 2 ∨ 4 < x.2.state.toNat) ∧
    (hosted (entryWith 0 0)).popEvent.iq.length < 64 ∧ 64 ≤ (List.replicate 64 (⟨0, 0, 0, 0, none, []⟩ : InvalidateCmd)).length ∧
    hbmMapped 0 = true ∧ hbmMapped (48 * 2 ^ 30 - 1) = true ∧ hbmMapped (0 + 8 - 1) = true ∧ (262136 : BitVec 18).toNat % 8 = 0 :=
  ⟨by decide, ⟨_, List.Mem.head _, by decide⟩, by decide, by decide, by decide, by decide, by decide, by decide, by decide⟩

/-- An invalidation of everything, which a late store of ASID 0 to GLOBAL issued before holds back. -/
theorem witness_HostRegisterWrites_ack :
    let c : InvalidateCmd := ⟨0x80000, 0, 0, 7, none, []⟩
    let d : Due := ⟨0, 2, { who0 with unit := .a }, .storeEls ⟨.global 0, 0xF, 0, false, 0, [], false⟩ [some (.global 0)] 0 64⟩
    let s := at0 [] Core.reset { Machine.Part.absent with tick := 4, lateWrites := [d] }
    c.malformed = false ∧ s.underRemoved c 0 5 = true ∧ State.reset.underRemoved c 0 5 = false ∧
      State.reset.popEvent.iqAcks.length < 64 := by decide +kernel

/-- A frame of a kind from module 0 to itself. -/
def frame (kind : BitVec 4) (rsv : BitVec 8) : Packet := ⟨kind, 0, 0, 0, 0, 0, 0, 0, 0, 0, 1, 0, rsv, []⟩
def linked (p : Port) : State := { State.reset with ports := [(0, { p with up := true })] }

theorem witness_ReceivedFrames :
    (State.reset.popEvent.port 5).up = false ∧
    (∀ q : Port, ((linked q).popEvent.port 0).up = true) ∧ (frame 0 1).rsv ≠ 0 ∧ 9 ≤ (frame 9 0).kind.toNat ∧
    (frame 8 0).dmod.toNat = State.reset.popEvent.modNum ∧
    (let s := { State.reset with cores := [(0, { Core.reset with posted := [⟨0, none, 1, .word, 0⟩] })] };
      (s.popEvent.core 0).posted.find? (fun r => r.target == 0) = some ⟨0, none, 1, .word, 0⟩) ∧
    (let s := { State.reset with tsrc := 2, tport := 5 }; s.popEvent.tsrc = 2 ∧ s.popEvent.tport.toNat = 5) ∧
    (let a : Arrival := ⟨none, 3, 8, 700, 0, .none⟩;
      (∀ b ∈ ([⟨none, 3, 8, 600, 0, .none⟩] : List Arrival), ¬ (b.mod = a.mod ∧ b.base = a.base ∧ b.wall = a.wall)) ∧
      (∃ b ∈ [a], b.mod = a.mod ∧ b.base = a.base ∧ b.wall = a.wall) ∧ a.mod ≠ State.reset.modNum) :=
  ⟨by decide, fun _ => rfl, by decide, by decide, by decide, by decide, by decide, by decide⟩

theorem witness_ReceivedFrames_failures : (6 : Nat) < 7 ∧ 7 ≤ (7 : Nat) ∧
    (let sl : SiteSlot := ⟨0, 1, 2, 4, 0, 1, 0, 1, []⟩;
     let s := { State.reset with sites := [sl], wall := 2000 }; s.popEvent.idleSlot 1 2 = some sl) ∧
    (let p : Port := { Port.reset with newIn := some 7 }; p.newIn = some 7) ∧
    (let s := { linked Port.reset with hivgnt := 0x10100 }; s.popEvent.granted = true ∧ (s.popEvent.port 0).up = true ∧
      (s.popEvent.port 1).up = false) := by decide

/-- An arrival for tag 7 at offset 64 of core 0, of a tile of four indexes of one row under iadd. -/
def arrival (kind : BitVec 4) (idx : BitVec 16) : Packet := { frame kind 0 with tag := 7, doff := 64, idx := idx, n := 4, op := 3, flits := [5] }
def slot (e : Nat) : SiteSlot := ⟨0, 7, 0, 4, 3, 1, 64, e, [1]⟩
def tile (e : Nat) (held : List (Nat × Nat × List Row)) : FxTile := ⟨7, 4, .iadd, 1, 64, e, [1], held, false, false⟩

/-- At a site: an arrival that is next, one that makes the tile whole, one out of order, one already covered, and those that find no slot. -/
theorem witness_ReceivedFrames_site :
    let s := fun (l : List SiteSlot) => { State.reset with sites := l, wall := 9 }
    let x := slot 2
    let f := arrival 2
    (s [x]).sites = [] ++ x :: [] ∧ (x.tag = (f 2).tag.toNat ∧ x.dcore = (f 2).dcore.toNat ∧ x.doff = (f 2).doff.toNat) ∧
    (x.n = (f 2).n.toNat ∧ x.op = (f 2).op.toNat ∧ x.rows = (frameRows (f 2)).length) ∧
    (covers (f 2) = (2, 1) ∧ covers (f 3) = (3, 1) ∧ covers (f 1) = (1, 1) ∧ covers (f 4) = (4, 1) ∧ covers (arrival 3 3) = (0, 3)) ∧
    ((slot 3).e = 3 ∧ 3 + 1 = (slot 3).n) ∧ risingFrom none (s [x]).mismatch = true ∧
    ((s []).sites.filter fun y => y.dcore / 1024 == (f 0).dcore.toNat / 1024).length < 4096 := by decide +kernel

/-- At the destination: a tile with and without arrivals held, none yet, and a reorder store that 64 other tiles fill. -/
theorem witness_ReceivedFrames_fold :
    let find := fun (l : List FxTile) => l.find? fun x => x.tag == (arrival 2 2).tag.toNat && x.doff == (arrival 2 2).doff.toNat
    let x := tile 1 [(2, 1, [9])]
    let other : FxTile := { tile 0 [(2, 1, [9])] with tag := 8 }
    State.reset.heldBack = [] ∧ find [x] = some x ∧ (∀ y ∈ [other], ¬ (y.tag = 7 ∧ y.doff = 64)) ∧
    (x.n = 4 ∧ x.op = combOf 3 ∧ x.rows = (frameRows (arrival 2 1)).length ∧ (∀ h ∈ x.held, h.1 + h.2.1 ≤ 1 ∨ 1 + 1 ≤ h.1) ∧
      (∀ h ∈ x.held, h.1 + h.2.1 ≤ 3 ∨ 3 + 1 ≤ h.1) ∧ ¬ ∀ h ∈ x.held, h.1 + h.2.1 ≤ 2 ∨ 2 + 1 ≤ h.1) ∧
    64 ≤ ((List.replicate 64 other).filter fun y => !y.held.isEmpty).length ∧
    (tile 2 [(2, 1, [9])]).held.find? (fun h => h.1 == 2) = some (2, 1, [9]) ∧ (∀ h ∈ x.held, h.1 ≠ x.e) ∧
    Memory.wf (State.reset.core 0).pocket = true ∧ (at0 []).partOf 0 = some 0 := by decide +kernel

theorem witness_PowerAndResetEvents : State.reset.popEvent.ready = 0 ∧ { State.reset with ready := 1 }.popEvent.ready ≠ 0 ∧
    (tget (0 : BitVec 10) [(3, (0x200 : BitVec 10))] 3).getLsbD 9 = true ∧ (tget (0 : BitVec 10) State.reset.popEvent.freq 3).getLsbD 9 = false := by decide

theorem witness_PowerAndResetEvents_regions : risingFrom none State.reset.popEvent.freq = true ∧
    (State.reset.popEvent.gangs.any fun g => g.contains 5) = false ∧ ((at0 []).popEvent.gangs.any fun g => g.contains 0) = true := by decide

/-- A partition over regions 0 and 1, whose lowest step is 5, at 5 ms and over its power limit. -/
def powered : State := { at0 [] Core.reset { Machine.Part.absent with handle := 1, n := 5 } with
  freq := [(0, 5), (1, 6)], wall := 5000000, pnow := 20000, fcap := 9, stepAt := [(0, 100)] }

/-- Over the limit, with headroom, in and out of the window. -/
theorem witness_PowerAndResetEvents_steps :
    let t := powered.popEvent
    let window := fun (t : State) (l : List Nat) => l.all fun r => (tfind t.stepAt r).all fun w => decide (w + 100000 ≤ t.wall)
    risingFrom none t.parts = true ∧ t.throttleSets = [[0, 1]] ∧ t.throttleSets.Pairwise (fun a b => ∀ r ∈ a, r ∉ b) ∧
    (tget 0 t.freq 0).toNat % 16 = 5 ∧ (∀ r ∈ [0, 1], 5 ≤ (tget 0 t.freq r).toNat % 16) ∧ 5 < t.fcap.toNat ∧
    t.plimit.toNat < t.pnow.toNat ∧ 100 * (100 : Word).toNat < 98 * t.plimit.toNat ∧ window t [0, 1] = true ∧
    window { t with stepAt := [(1, 4999999)] } [0, 1] = false ∧ ∀ l ∈ t.throttleSets, 2 ∉ l := by decide

/-- A faulting access of stream 3, whose cursor is not aimed yet, and one that aims nothing. -/
theorem witness_TakingATrap_cursor :
    (∀ a ∈ ([] : List Aimed), ¬ (a.core = 0 ∧ a.st = 3)) ∧ risingFrom none ((at0 []).core 0).st = true ∧
    (∀ f ∈ [Fix.continue_, .retry], Fix.aimOf f = none) := by decide

theorem witness_TakingATrap : (0 ∈ (at0 []).popEvent.parts.map (·.1)) ∧ (((at0 []).part 0).cores = [0]) ∧ 1 ∉ ((at0 []).part 0).cores := by decide

theorem witness_LandingsChangeWhatTheyName : risingFrom none (regs 1 2).x = true ∧ risingFrom none Core.reset.queues = true ∧
    (∀ b ∈ [Machine.Bytes.pocket 0 327679, .ring 5 0, .hbm 0, .host 7], Memory.wf (storeOf State.reset b) = true) ∧
    (∃ k, tfind (at0 []).parts 0 = some k ∧ k.live = true ∧ (∀ m, (none : Option Nat) = some m → (at0 []).sameGroup m 0 = false) ∧
      ∀ e ∈ (at0 []).edge, (at0 []).sameGroup e 0 = false) ∧
    (let s := at0 [] Core.reset { Machine.Part.absent with fresh := [⟨.pocket 0 8, 2 ^ 16 - 1, false⟩] };
      (s.part 0).live = true ∧ (⟨.pocket 0 8, 2 ^ (8 * [(1 : Byte), 2].length) - 1, false⟩ : Arrived) ∈ (s.part 0).fresh) :=
  ⟨by decide, by decide, by decide, ⟨_, rfl, by decide, nofun, by decide⟩, by decide⟩

/-- An access to eight bytes from pocket byte 8, in a loose partition or a strict one at tick 14. -/
def acc8 : Access := ⟨.pocket 0 8, 0, 0, false, 12, [], false⟩
def dueS (loose : Bool) (l : List Due := []) : State :=
  at0 [] { Core.reset with pocket := [⟨8, 0x80⟩], tracks := [(3, [trackWord])], st := [(0, 1)] }
    { Machine.Part.absent with loose := loose, tick := 14, lateWrites := l }

/-- Work that falls due: a read that lies together, late and not; a word that its tap finds and one that it does not. -/
theorem witness_LandingsChangeWhatTheyName_due :
    (dueS true).resolveLoc 0 0 .read (.ring 0 60) = (dueS true, .ok (.ring 0 60)) ∧
    (dueS true).readLoc 0 0 .read acc8.loc 1 = (dueS true, .ok ([0x80], false)) ∧
    ((Loc.ring 0 60).cut 4 = (4, none) ∧ (dueS true).spoilt (.ring 0 60) 4 = false ∧
      (dueS true).accessLate 0 0 acc8 = false ∧ { dueS true with marks := [.late 0 0] }.accessLate 0 0 acc8 = true ∧
      ((dueS true).part 0).goesOn = true ∧ ((dueS false).part 0).goesOn = false ∧ (dueS true).lateTo 0 acc8.loc 1 = false ∧
      (dueS true [⟨4, 2, who0, .write acc8 0 0xFF false⟩]).lateTo 0 acc8.loc 1 = true ∧ ((dueS true).part 0).lateWrites = [] ∧
      ((dueS true).core 0).trackAt 3 1 14 = some trackWord ∧ ((dueS true).core 0).trackAt 3 1 13 = none ∧
      trackWord.who ≠ { who0 with unit := .v } ∧ risingFrom none ((dueS true).core 0).st = true) :=
  ⟨rfl, rfl, by decide +kernel⟩

theorem witness_LandingsChangeWhatTheyName_bank :
    let w := { who0 with unit := .v }
    let k := { Core.reset with tracks := [(3, [⟨1, 0, 7, false, w⟩])] }
    k.trackAt 3 8 7 = some ⟨1, 0, 7, false, w⟩ ∧ (1 : Nat) = (if w.unit = .e1 then 7 else 1) ∧ k.trackAt 3 8 8 = none := by decide +kernel

theorem witness_LandingsChangeWhatTheyName_grid : risingFrom none gridEdge.hem = true ∧ risingFrom none gridEdge.inner = true ∧
    (∀ f < 6, dH gridEdge.desc f ≤ 8) ∧ gridEdge.exchanging 1 = true ∧ (gridEdge.sentAt 1).toNat + dD gridEdge.desc ≤ 3 ∧
    ({ gridEdge with rules := [.clamp] } : Grid).ruleFilled 0 = true ∧
    (let g := { gridEdge with desc := gridEdge.desc + BitVec.ofNat 1024 (3 * 2 ^ 426), sigS := [(1, 3)], sigR := [(1, 3)] };
      ¬ ((g.sentAt 1).toNat + dD g.desc ≤ 3) ∧ 1 ≤ dH g.desc 1 ∧ (1 : Int) ≤ dH g.desc 1 - ((3 : Int) - (g.gotAt 1).toNat) * dR g.desc) := by
  decide +kernel

/-- The invariant holds at reset, and a step from there answers a next state. -/
theorem witness_MemoriesStayCanonical : canonical (at0 [.issue 0 0 .s]) ∧ answers (step (at0 [.issue 0 0 .s])) (fun _ => true) = true := by
  refine ⟨⟨⟨rfl, rfl, fun c => ?_⟩, nofun⟩, rfl⟩
  by_cases h : c = 0
  · subst h; exact ⟨rfl, rfl⟩
  · have e : tget Core.reset (at0 [.issue 0 0 .s]).cores c = Core.reset := by simp [at0, tget, tfind, h]
    rw [e]; exact ⟨rfl, rfl⟩

/-! ### One step on a small state; expected values calculated from the rules named -/

/-- The acts that an S, A or V word leaves in flight. -/
def leaves (cl : Cluster) (i : Instr) (k : Core) (a : Act) : Bool :=
  answers (exec i (at0 [.issue 0 0 cl] k)) fun t => (t.part 0).pend.any fun d => d.act == a

/-- 06 R140, R141: wrapping, the sign of a right shift, the two orders, the high word of (−1)(−1), the division corners. -/
theorem test_scalar_results :
    let m : Word := 0x8000000000000000
    let o : Word := 0xFFFFFFFFFFFFFFFF
    leaves .s (.add f0 3 1 2) (regs m m) (.x 3 ⟨0, false⟩) = true ∧ leaves .s (.sub f0 3 1 2) (regs 0 1) (.x 3 ⟨o, false⟩) = true ∧
    leaves .s (.sra f0 3 1 2) (regs m 63) (.x 3 ⟨o, false⟩) = true ∧ leaves .s (.srl f0 3 1 2) (regs m 127) (.x 3 ⟨1, false⟩) = true ∧
    leaves .s (.slt f0 3 1 2) (regs 0 o) (.x 3 ⟨0, false⟩) = true ∧ leaves .s (.sltu f0 3 1 2) (regs 0 o) (.x 3 ⟨1, false⟩) = true ∧
    leaves .s (.mulh f0 3 1 2) (regs o o) (.x 3 ⟨0, false⟩) = true ∧ leaves .s (.mulh f0 3 1 2) (regs m 2) (.x 3 ⟨o, false⟩) = true ∧
    leaves .s (.div f0 3 1 2) (regs m o) (.x 3 ⟨m, false⟩) = true ∧ leaves .s (.rem f0 3 1 2) (regs m o) (.x 3 ⟨0, false⟩) = true ∧
    leaves .s (.div f0 3 1 2) (regs (-7) 2) (.x 3 ⟨-3, false⟩) = true ∧ leaves .s (.rem f0 3 1 2) (regs (-7) 2) (.x 3 ⟨-1, false⟩) = true ∧
    leaves .s (.divu f0 3 1 2) (regs 5 0) (.x 3 ⟨o, false⟩) = true ∧ leaves .s (.remu f0 3 1 2) (regs 5 0) (.x 3 ⟨5, false⟩) = true := by
  decide

/-- 06 R142 to R145: the pair `limm x4, 0` and `limmh x4, 0x3FF00000` leaves fp64 1.0. -/
theorem test_scalar_counts : leaves .s (.clz f0 3 1) (regs 0 0) (.x 3 ⟨64, false⟩) = true ∧
    leaves .s (.ctz f0 3 1) (regs 8 0) (.x 3 ⟨3, false⟩) = true ∧ leaves .s (.popc f0 3 1) (regs 0xFF 0) (.x 3 ⟨8, false⟩) = true ∧
    leaves .s (.limmh f0 4 0x3FF00000) (regs 0 0) (.x 4 ⟨0x3FF0000000000000, false⟩) = true ∧
    leaves .s (.limm f0 4 0x1FFFFFFFFFF) (regs 0 0) (.x 4 ⟨-1, false⟩) = true ∧
    leaves .s (.addi f0 4 1 0xFFFFFFFFF) (regs 0 0) (.x 4 ⟨-1, false⟩) = true := by decide

/-- 06 R138: DDLY, MWAKEL and the reset value of MGATE, read by CSRR. -/
theorem test_csr_reads : leaves .s (.csrr f0 3 0x010) Core.reset (.x 3 ⟨0x24140C08, false⟩) = true ∧
    leaves .s (.csrr f0 3 0x041) Core.reset (.x 3 ⟨48, false⟩) = true ∧ leaves .s (.csrr f0 3 0x040) Core.reset (.x 3 ⟨4096, false⟩) = true ∧
    leaves .s (.csrr f0 3 0x019) Core.reset (.x 3 ⟨1, false⟩) = true := by decide

/-- 06 R130: x0 keeps its zero. -/
theorem test_x0 : (Core.reset.land (.x 0 ⟨5, true⟩)).getX 0 = ⟨0, false⟩ ∧ (Core.reset.land (.x 1 ⟨5, true⟩)).getX 1 = ⟨5, true⟩ := by decide

/-- 04 R60: 1 + 1, 3 × 0.5, 1 + 2⁻²⁴ to even, and its rounding up; −0 minimum; fp32 to bf16. -/
theorem test_floats : fAdd .fp32 .rne 0 0x3F800000 0x3F800000 = (0x40000000, 0) ∧ (fMul .fp32 .rne 0 0x40400000 0x3F000000).1 = 0x3FC00000 ∧
    (fAdd .fp32 .rne 0 0x3F800000 0x33800000).1 = 0x3F800000 ∧ (fAdd .fp32 .rup 0 0x3F800000 0x33800000).1 = 0x3F800001 ∧
    fMin .fp32 0x80000000 0 = 0x80000000 ∧ (convert .bf16 .fp32 .rne 0 0x3F808000).1 = 0x3F80 ∧
    (convert .bf16 .fp32 .rne 0 0x3F818000).1 = 0x3F82 := by decide +kernel

/-- 07 R187: an int32 sum wraps, and a compare-and-swap writes on equality only. -/
theorem test_atomics : atomicNew (some .add) 32 0xFFFFFFFF 1 0 = some 0 ∧ atomicNew (some .max) 32 0xFFFFFFFF 1 0 = some 1 ∧
    atomicNew (some .maxu) 32 0xFFFFFFFF 1 0 = some 0xFFFFFFFF ∧ atomicNew none 64 5 5 9 = some 9 ∧ atomicNew none 64 5 6 9 = none := by decide

/-- 12 R250: `shr` and `rot`. -/
theorem test_engine_stack :
    (answers (exec .engShr (at0 [.engine 0 0 .ce] (engWith [4, 0x100]))) fun t => ((t.core 0).getEng 0).stack == [0x10]) = true ∧
    (answers (exec .rot (at0 [.engine 0 0 .ce] (engWith [3, 2, 1]))) fun t => ((t.core 0).getEng 0).stack == [1, 3, 2]) = true := by decide

/-- 21 R381: SRAW of a negative word, and DIVW by 0. -/
theorem test_portable_results :
    (answers (exec (.rvWordOp .sraw 3 1 (.imm 4)) (at0 [.portable 0 0] (regs 0x80000000 0))) fun t =>
      (t.part 0).pend.any fun d => d.act == .x 3 ⟨0xFFFFFFFFF8000000, false⟩) = true ∧
    (answers (exec (.rvMuldiv .divw 3 1 2) (at0 [.portable 0 0] (regs 7 0))) fun t =>
      (t.part 0).pend.any fun d => d.act == .x 3 ⟨-1, false⟩) = true := by decide

/-- 18 R336: TREC0 of a software trap of core 3, unit S. -/
theorem test_trec0 : trec0 false .softwareTrap ⟨3, .s, .cont 0, 2, 0, 0⟩ = 0x314 ∧ trec2 ⟨3, .s, .cont 5, 2, 0, 0⟩ = 0x500000002 := by decide

/-- 19 R358, R365: what reset leaves in BAR0. -/
theorem test_reset : State.reset.readBar0 0x18 = 0 ∧ State.reset.readBar0 0x2028 = 15000 := by decide

/-- A word placed where the next step fetches it is the one that runs (03 R46). -/
theorem test_step_runs_placed_word :
    (answers (step (State.reset.withFetchWord 64 0x000A020000000005)) fun t => (t.part 0).pend.any fun d => d.act == .x 1 ⟨5, false⟩) = true ∧
    (answers (step (State.reset.withFetchWord 16 0x0064)) fun t => ((t.core 0).getEng 0).stack == [100]) = true := by decide

end Sys2Proof.Tests
end

section
/-! PROOF. Barrier releases, watchdogs, hem waits and the freezes that clear by themselves: what a round counts, what a release does
to its members, when a pod group releases, what taking a trap of a class that is always HOST leaves, and what each end of a freeze
changes. -/

namespace Sys2Proof.Machine

/-! ### Folds -/

/-- What one step establishes for its own element, and every later step keeps, holds of every element in the end. -/
theorem foldl_establishes {σ α : Type} (f : σ → α → σ) (P : α → σ → Prop) (own : ∀ s a, P a (f s a))
    (kept : ∀ s a b, P a s → P a (f s b)) (l : List α) (s : σ) : ∀ a ∈ l, P a (l.foldl f s) := by
  induction l generalizing s with
  | nil => exact fun a ha => nomatch ha
  | cons b l ih =>
    intro a ha
    rcases List.mem_cons.mp ha with rfl | ha
    · exact List.foldlRecOn l f (motive := P a) (own s a) fun t ht b _ => kept t a b ht
    · exact ih _ a ha

/-- The running maximum is the largest value, where one is reached and bounds the others. -/
theorem foldl_max_eq {α : Type} (v : α → Nat) (l : List α) (m : Nat) (reached : ∃ a ∈ l, v a = m) (bound : ∀ a ∈ l, v a ≤ m) :
    l.foldl (fun n a => max n (v a)) 0 = m := by
  obtain ⟨a, ha, rfl⟩ := reached
  have upper : l.foldl (fun n b => max n (v b)) 0 ≤ v a :=
    List.foldlRecOn l _ (motive := (· ≤ v a)) (Nat.zero_le _) fun n hn b hb => max_le hn (bound b hb)
  have lower : v a ≤ l.foldl (fun n b => max n (v b)) 0 :=
    foldl_establishes _ (fun b n => v b ≤ n) (fun n b => le_max_right _ _) (fun n b c h => h.trans (le_max_left _ _)) l 0 a ha
  exact le_antisymm upper lower

/-! ### Partitions and entries after an update of one of them -/

theorem State.part_congr {s t : State} (h : s.parts = t.parts) (p : Nat) : s.part p = t.part p := by
  rw [State.part, h, State.part]

theorem State.part_modPart_if (s : State) (p q : Nat) (f : Part → Part) :
    (s.modPart q f).part p = if p = q then f (s.part q) else s.part p := tget_tput _ _ _ _ _

theorem State.entry_modEntry_if (s : State) (p q : Nat) (f : Entry → Entry) :
    (s.modEntry q f).entry p = if p = q then f (s.entry q) else s.entry p := tget_tput _ _ _ _ _

/-! ### The arrivals a release counts (16 R329) -/

theorem Arrival.sameMember_self (a : Arrival) : a.sameMember a = true := by simp [Arrival.sameMember]

theorem Arrival.sameMember_comm (a b : Arrival) : a.sameMember b = b.sameMember a := by
  simp only [Arrival.sameMember, BEq.comm]

theorem roundOf_concat (l : List Arrival) (a : Arrival) : roundOf (l ++ [a]) =
    if (roundOf l).1.any a.sameMember then ((roundOf l).1, (roundOf l).2 ++ [a]) else ((roundOf l).1 ++ [a], (roundOf l).2) := by
  simp [roundOf, List.foldl_append]

/-- Every member that arrived is counted. -/
theorem mem_roundOf (l : List Arrival) : ∀ a ∈ l, ∃ b ∈ (roundOf l).1, b.sameMember a = true := by
  induction l using List.reverseRecOn with
  | nil => exact fun a ha => nomatch ha
  | append_singleton l x ih =>
    intro a ha
    rw [roundOf_concat]
    rcases List.mem_append.mp ha with ha | ha
    · obtain ⟨b, hb, hs⟩ := ih a ha
      split
      · exact ⟨b, hb, hs⟩
      · exact ⟨b, List.mem_append_left _ hb, hs⟩
    · obtain rfl := List.mem_singleton.mp ha
      split
      next seen =>
        obtain ⟨b, hb, hs⟩ := List.any_eq_true.mp seen
        exact ⟨b, hb, by rw [Arrival.sameMember_comm]; exact hs⟩
      next => exact ⟨a, by simp, a.sameMember_self⟩

/-! ### A group releases (05 R118, R120) -/

/-- What a release does to the partition of a member. -/
def Part.releaseFrom (g : Nat) (join : Join) (k : Part) : Part :=
  let k := k.clearWait (.barrier g)
  match join with
  | .align => { k with join := some g }
  | .unjoin => { k with join := none }
  | .none => k

/-- What a release does where one arrival is counted. -/
def State.releaseMember (g : Nat) (join : Join) (late : Bool) (s : State) (a : Arrival) : State :=
  match a.part with
  | none => s
  | some p =>
    let s := s.modPart p (Part.releaseFrom g join)
    if late then s.modEntry p fun e => { e with late := true } else s

/-- A release goes through the arrivals of the round, and keeps those of a later one. -/
theorem State.releaseGroup_eq (s : State) (g : Nat) (late : Bool) : ∃ join : Join,
    let t := (roundOf (tget [] s.arrivals g)).1.foldl (State.releaseMember g join late) s
    s.releaseGroup g late = { t with arrivals := tset [] t.arrivals g (roundOf (tget [] s.arrivals g)).2 } := ⟨_, rfl⟩

@[simp] theorem Part.releaseFrom_waits (g : Nat) (join : Join) (k : Part) :
    (k.releaseFrom g join).waits = k.waits.filter (· != .barrier g) := by cases join <;> rfl

section
variable (g : Nat) (join : Join) (late : Bool) (s : State) (a : Arrival)

@[simp] theorem State.releaseMember_arrivals : (s.releaseMember g join late a).arrivals = s.arrivals := by
  unfold State.releaseMember
  split
  · rfl
  · cases late <;> rfl

theorem State.part_releaseMember (p : Nat) : (s.releaseMember g join late a).part p =
    if a.part = some p then (s.part p).releaseFrom g join else s.part p := by
  unfold State.releaseMember
  split
  next h => simp [h]
  next q h =>
    have hq : (s.modPart q (Part.releaseFrom g join)).part p =
        if a.part = some p then (s.part p).releaseFrom g join else s.part p := by
      rw [State.part_modPart_if, h]
      by_cases hp : p = q
      · subst hp; simp
      · simp [hp, Ne.symm hp]
    cases late <;> exact hq

theorem State.entry_releaseMember (p : Nat) : (s.releaseMember g join late a).entry p =
    if late = true ∧ a.part = some p then { s.entry p with late := true } else s.entry p := by
  unfold State.releaseMember
  split
  next h => simp [h]
  next q h =>
    cases late with
    | false => simp [State.modPart]
    | true =>
      simp only [if_true, State.entry_modEntry_if, h]
      by_cases hp : p = q
      · subst hp; simp [State.modPart]
      · simp [hp, Ne.symm hp, State.modPart]

end

/-- State `u` follows `t` where group `g` lets its members go: the arrivals of a later release stay, every member that arrived is
counted, and none of those counted waits for the group any more. -/
def State.LetsGo (t : State) (g : Nat) (u : State) : Prop :=
  let l : List Arrival := tget [] t.arrivals g
  u.arrivals = tset [] t.arrivals g (roundOf l).2 ∧ (∀ a ∈ l, ∃ b ∈ (roundOf l).1, b.sameMember a = true) ∧
  ∀ a ∈ (roundOf l).1, ∀ p, a.part = some p → Wait.barrier g ∉ (u.part p).waits

theorem State.letsGo_releaseGroup (t : State) (g : Nat) (late : Bool) : t.LetsGo g (t.releaseGroup g late) := by
  obtain ⟨join, h⟩ := t.releaseGroup_eq g late
  rw [h]
  refine ⟨?_, mem_roundOf _, ?_⟩
  · have same : ∀ l : List Arrival, (l.foldl (State.releaseMember g join late) t).arrivals = t.arrivals := fun l =>
      List.foldlRecOn l _ (motive := fun u : State => u.arrivals = t.arrivals) rfl fun u hu a _ => by simp [hu]
    simp only [same]
  · refine foldl_establishes (State.releaseMember g join late)
      (fun a u => ∀ p, a.part = some p → Wait.barrier g ∉ (u.part p).waits) (fun u a p hp => ?_) (fun u a b hu p hp => ?_) _ t
    · simp [State.part_releaseMember, hp]
    · rw [State.part_releaseMember]
      split
      · simp
      · exact hu p hp

/-- A late release marks the entries of the members it counts, and another release leaves every entry's mark as it is. -/
theorem State.late_releaseGroup (t : State) (g : Nat) (late : Bool) :
    ∀ a ∈ (roundOf (tget [] t.arrivals g)).1, ∀ p, a.part = some p →
      ((t.releaseGroup g late).entry p).late = (late || (t.entry p).late) := by
  obtain ⟨join, h⟩ := t.releaseGroup_eq g late
  rw [h]
  cases late with
  | true =>
    refine foldl_establishes (State.releaseMember g join true)
      (fun a u => ∀ p, a.part = some p → (u.entry p).late = true) (fun u a p hp => ?_) (fun u a b hu p hp => ?_) _ t
    · simp [State.entry_releaseMember, hp]
    · rw [State.entry_releaseMember]
      split
      · rfl
      · exact hu p hp
  | false =>
    intro a _ p _
    exact List.foldlRecOn _ (State.releaseMember g join false) (motive := fun u => (u.entry p).late = (t.entry p).late) rfl
      fun u hu b _ => by simp [State.entry_releaseMember, hu]

/-! ### The regions of a group that joins step together (01 R26) -/

/-- A change of step adds PLL waits alone. -/
theorem State.LetsGo.changeStep {t u : State} {g : Nat} (h : t.LetsGo g u) (l : List Nat) (f : Nat) :
    t.LetsGo g (u.changeStep l f) := by
  unfold State.changeStep
  refine List.foldlRecOn _ _ (motive := t.LetsGo g) h fun v hv e _ => ?_
  obtain ⟨arrivals, counted, free⟩ := hv
  split
  · refine ⟨arrivals, counted, fun a ha p hp => ?_⟩
    rw [State.part_modPart_if]
    split
    next hq => rw [← hq]; simpa using free a ha p hp
    next => exact free a ha p hp
  · exact ⟨arrivals, counted, free⟩

theorem State.LetsGo.joinSteps {t u : State} {g : Nat} (h : t.LetsGo g u) (p : Nat) : t.LetsGo g (u.joinSteps p) := by
  unfold State.joinSteps
  dsimp only
  split
  · exact h.changeStep _ _
  · exact h

/-- A full group of this module lets its members go. -/
theorem exec_barrierRelease_full (s : State) (g : Nat) (h : s.popEvent.barrierFull g = true) :
    ∃ u, exec (.barrierRelease g) s = .next u ∧ s.popEvent.LetsGo g u := by
  let ms := (roundOf (tget [] s.popEvent.arrivals g)).1.filterMap fun a => a.part
  refine ⟨ms.foldl State.joinSteps (s.popEvent.releaseGroup g false), ?_, ?_⟩
  · show execBarrierRelease g s = _
    simp only [execBarrierRelease, h]
    rfl
  · exact List.foldlRecOn ms _ (State.letsGo_releaseGroup _ g false) fun u hu p _ => hu.joinSteps p

theorem State.barrierFull_of_word (s : State) (g : Nat) (word : s.groupWord g % 4 = 1) (arrived : tget [] s.arrivals g ≠ [])
    (count : s.groupWord g / 4 % 2 ^ 16 ≤ (tget [] s.arrivals g).length) : s.barrierFull g = true := by
  have valid : s.groupWord g % 2 = 1 := by omega
  have pod : s.groupWord g / 2 % 2 = 0 := by omega
  simp only [State.barrierFull, groupValid, groupPod, groupLocal, bitAt, fld, pow_zero, Nat.div_one, pow_one, valid, pod,
    List.length_pos_iff, arrived, ne_eq, not_false_eq_true, decide_true, BEq.rfl, Bool.and_true]
  exact decide_eq_true count

/-! ### The release of a pod group (16 R329) -/

/-- The first alignment edge at or after a WALL value. -/
theorem alignUp_eq {w edge : Nat} (edge_aligned : edge % 1000 = 0) (after : w ≤ edge) (first : edge < w + 1000) :
    alignUp w = edge := by
  unfold alignUp; omega

theorem State.podFull_of_word (s : State) (g : Nat) (word : s.groupWord g % 4 = 3) (total : 0 < s.groupWord g / 2 ^ 18 % 2 ^ 16)
    (count : s.groupWord g / 2 ^ 18 % 2 ^ 16 ≤ (roundOf (tget [] s.arrivals g)).1.length) : s.podFull g = true := by
  have valid : s.groupWord g % 2 = 1 := by omega
  have pod : s.groupWord g / 2 % 2 = 1 := by omega
  simp only [State.podFull, groupValid, groupPod, groupTotal, bitAt, fld, pow_zero, Nat.div_one, pow_one, valid, pod, total, count,
    decide_true, BEq.rfl, Bool.and_true]

theorem State.yelnarTwo_iff (s : State) : s.yelnarTwo = true ↔ ∃ q ∈ s.ports, q.2.up = true ∧ q.2.version = some (2, 0) := by
  simp [State.yelnarTwo, -Prod.exists]

section
variable (s : State) (g last seen edge : Nat)
  (last_reached : ∃ a ∈ (roundOf (tget [] s.arrivals g)).1, a.wall = last)
  (last_bound : ∀ a ∈ (roundOf (tget [] s.arrivals g)).1, a.wall ≤ last)
  (seen_reached : ∃ a ∈ (roundOf (tget [] s.arrivals g)).1, a.seen = seen)
  (seen_bound : ∀ a ∈ (roundOf (tget [] s.arrivals g)).1, a.seen ≤ seen)
  (edge_aligned : edge % 1000 = 0)
include last_reached last_bound seen_reached seen_bound edge_aligned

/-- Under Y2.0 the largest arrival plus 2 µs gives the edge; a member seen after it makes the release late. -/
theorem State.podTarget_two (two : s.yelnarTwo = true) (after : last + 2000 ≤ edge) (first : edge < last + 3000) :
    s.podTarget g = max edge seen ∧ s.podLate g = decide (edge < seen) := by
  simp only [State.podTarget, State.podLate, two, foldl_max_eq Arrival.wall _ last last_reached last_bound,
    foldl_max_eq Arrival.seen _ seen seen_reached seen_bound, alignUp_eq edge_aligned after first, if_true, Bool.true_and, and_self]

omit last_reached last_bound in
/-- Under Y1.2 the edge is the first after the last member was seen, and no release is late. -/
theorem State.podTarget_one (one : s.yelnarTwo = false) (after : seen < edge) (first : edge ≤ seen + 1000) :
    s.podTarget g = edge ∧ s.podLate g = false := by
  simp only [State.podTarget, State.podLate, one, foldl_max_eq Arrival.seen _ seen seen_reached seen_bound,
    alignUp_eq edge_aligned (show seen + 1 ≤ edge by omega) (by omega), Bool.false_eq_true, if_false, Bool.false_and, and_self]

end

/-- A full pod group waits for its release edge, and there lets its members go; their entries are marked where that is late. -/
theorem exec_podBarrierRelease_full (s : State) (g edge : Nat) (late : Bool) (full : s.popEvent.podFull g = true)
    (h : s.popEvent.podTarget g = edge ∧ s.popEvent.podLate g = late) :
    (s.popEvent.wall < edge → exec (.podBarrierRelease g) s = .next s.popEvent) ∧
    (edge ≤ s.popEvent.wall → (∃ u, exec (.podBarrierRelease g) s = .next u ∧ s.popEvent.LetsGo g u) ∧
      ∃ u, exec (.podBarrierRelease g) s = .next u ∧ ∀ a ∈ (roundOf (tget [] s.popEvent.arrivals g)).1, ∀ p, a.part = some p →
        (u.entry p).late = (late || (s.popEvent.entry p).late)) := by
  obtain ⟨rfl, rfl⟩ := h
  have run : exec (.podBarrierRelease g) s = execPodBarrierRelease g s := rfl
  refine ⟨fun early => ?_, fun due => ?_⟩
  · rw [run]
    simp [execPodBarrierRelease, full, Nat.not_le.mpr early]
  · have released : exec (.podBarrierRelease g) s = .next (s.popEvent.releaseGroup g (s.popEvent.podLate g)) := by
      rw [run]
      simp [execPodBarrierRelease, full, due]
    exact ⟨⟨_, released, State.letsGo_releaseGroup _ g _⟩, _, released, State.late_releaseGroup _ g _⟩

/-! ### What taking a trap leaves (18 R333 to R339) -/

/-- Pointing cursors at their faults touches no more than cores. -/
theorem State.aim_frame (s : State) (l : List (Nat × Nat × BitVec 128)) (acc : List Aimed) :
    (s.aim l acc).1.parts = s.parts ∧ (s.aim l acc).1.irqs = s.irqs := by
  induction l generalizing s acc with
  | nil => exact ⟨rfl, rfl⟩
  | cons x l ih =>
    obtain ⟨c, st, v⟩ := x
    unfold State.aim
    split
    · exact ih s acc
    · exact ih _ _

/-- What a trap that the host takes does to each partition of its group (18 R333, 19 R370). -/
def Part.hold (wall : Nat) (k : Part) : Part :=
  let k := ((k.freeze wall).release).stopCount wall
  { k with conds := [], waits := k.waits.filter Wait.lasting }

@[simp] theorem Part.hold_tick (wall : Nat) (k : Part) : (k.hold wall).tick = k.tick := rfl

def State.holdAll (s : State) (l : List Nat) : State := l.foldl (fun t q => t.modPart q (Part.hold t.wall)) s

@[simp] theorem State.holdAll_irqs (s : State) (l : List Nat) : (s.holdAll l).irqs = s.irqs := by
  unfold State.holdAll
  exact List.foldlRecOn l _ (motive := fun t : State => t.irqs = s.irqs) rfl fun _ h _ _ => h

@[simp] theorem State.holdAll_tick (s : State) (l : List Nat) (p : Nat) : ((s.holdAll l).part p).tick = (s.part p).tick := by
  unfold State.holdAll
  refine List.foldlRecOn l _ (motive := fun t : State => (t.part p).tick = (s.part p).tick) rfl fun t h q _ => ?_
  rw [State.part_modPart_if]
  split
  next hq => rw [← hq, Part.hold_tick, h]
  next => exact h

/-- A trap of a class that is always routed HOST: the group is held, the trap is in force, and the host is told. -/
theorem State.takeTrap_parts_irqs (s : State) (p : Nat) (c : TrapCond) (fixes : List Fix) (host : alwaysHost c.cls = true) :
    ∃ (u : State) (kill : Bool) (cursors : List Aimed), u.parts = s.parts ∧ u.irqs = s.irqs ∧
      (s.takeTrap p c fixes).irqs = (u.holdAll (u.members p)).irqs ++ [entryVector p] ∧
      (s.takeTrap p c fixes).parts = ((u.holdAll (u.members p)).modPart p fun k => { k with
        trap := some ⟨k.tick, c.cls, c.who.core, trapRecord false c.cls c.who (s.part p).tick c.status, false, kill, fixes,
          cursors⟩
        stepping := false }).parts := by
  unfold State.takeTrap
  simp only [host, Bool.not_true, Bool.and_false, Bool.false_eq_true, if_false]
  let shown := s.aim ((c.fix :: fixes).filterMap Fix.aimOf) (match (s.part p).trap with | some t => t.cursors | none => [])
  let u := shown.1.modCores (s.part p).cores fun x => x.setTrec (trapRecord false c.cls c.who (s.part p).tick c.status)
  exact ⟨u, fixes.contains .killOnly, shown.2, by simp [u, shown, State.aim_frame], by simp [u, shown, State.aim_frame], rfl, rfl⟩

/-- The trap in force is of its condition's class and of the partition's tick. -/
theorem State.takeTrap_alwaysHost (s : State) (p : Nat) (c : TrapCond) (fixes : List Fix) (host : alwaysHost c.cls = true) :
    (∃ r : Trap, ((s.takeTrap p c fixes).part p).trap = some r ∧ r.cls = c.cls ∧ r.localRoute = false ∧
      r.tick = (s.part p).tick) ∧ (s.takeTrap p c fixes).irqs = s.irqs ++ [entryVector p] := by
  obtain ⟨u, kill, cursors, parts, irqs, told, inForce⟩ := s.takeTrap_parts_irqs p c fixes host
  refine ⟨⟨_, by rw [State.part_congr inForce p, State.part_modPart], rfl, rfl, ?_⟩, ?_⟩
  · exact (u.holdAll_tick _ p).trans (congrArg Part.tick (State.part_congr parts p))
  · rw [told, State.holdAll_irqs, irqs]

theorem State.trapOf_single (s : State) (g : Nat) (c : TrapCond) (fixes : TrapCond → List Fix) :
    s.trapOf g [c] fixes = s.takeTrap (s.memberWith g c.who.core) c ([c].flatMap fixes) := rfl

/-! ### Watchdogs (05 R128, 19 R370, 18 R338) -/

theorem exec_pulseIntervalExpiry_due (s : State) (p : Nat) (on : (s.popEvent.part p).pulse ≠ 0)
    (due : (s.popEvent.part p).pulseAt + (s.popEvent.part p).pulse ≤ (s.popEvent.part p).tick)
    (runs : (s.popEvent.part p).stop = none) : exec (.pulseIntervalExpiry p) s = .next (s.popEvent.addCond p
      ⟨(s.popEvent.part p).tick, .watchdogPulse, s.popEvent.hubWho p, BitVec.ofNat 64 (s.popEvent.part p).pulse, .pulse p⟩) := by
  have h : (s.popEvent.part p).pulseDue = true := by simp [Part.pulseDue, on, due, runs]
  show execPulseIntervalExpiry p s = _
  simp only [execPulseIntervalExpiry, h, if_true]

/-- The freeze limit raises its trap with the conditions of the group's tick. -/
theorem exec_freezeLimitExpiry_due (s : State) (p w : Nat) (limit : s.popEvent.limitAt p = some w) (due : w ≤ s.popEvent.wall) :
    ∃ (st : Word) (fixes : TrapCond → List Fix), exec (.freezeLimitExpiry p) s = .next (s.popEvent.trapOf p
      (⟨(s.popEvent.part p).tick, .watchdogFreeze, s.popEvent.hubWho p, st, .continue_⟩ :: s.popEvent.condsNow p) fixes) := by
  have run : exec (.freezeLimitExpiry p) s = execFreezeLimitExpiry p s := rfl
  rw [run]
  simp only [execFreezeLimitExpiry, limit, due, if_true]
  exact ⟨_, _, rfl⟩

/-- Where no other condition is in force the host gets the trap of the freeze limit. -/
theorem exec_freezeLimitExpiry_alone (s : State) (p w : Nat) (limit : s.popEvent.limitAt p = some w) (due : w ≤ s.popEvent.wall)
    (alone : s.popEvent.condsNow p = []) : ∃ (u : State) (r : Trap), exec (.freezeLimitExpiry p) s = .next u ∧
      let m := s.popEvent.memberWith p (s.popEvent.hubWho p).core
      (u.part m).trap = some r ∧ r.cls = .watchdogFreeze ∧ r.localRoute = false ∧ r.tick = (s.popEvent.part m).tick ∧
        u.irqs = s.popEvent.irqs ++ [entryVector m] := by
  obtain ⟨st, fixes, run⟩ := exec_freezeLimitExpiry_due s p w limit due
  rw [alone, State.trapOf_single] at run
  obtain ⟨⟨r, inForce, cls, route, tick⟩, told⟩ := s.popEvent.takeTrap_alwaysHost
    (s.popEvent.memberWith p (s.popEvent.hubWho p).core)
    ⟨(s.popEvent.part p).tick, .watchdogFreeze, s.popEvent.hubWho p, st, .continue_⟩ _ rfl
  exact ⟨_, r, run, inForce, cls, route, tick, told⟩

/-! ### Hem waits (14 R284) -/

theorem exec_hemTimeout_over (s : State) (p : Nat) (d : Due) (v : Word) (g : Nat) (q : RowDest) (cur : List Int) (tg : BitVec 32)
    (chk : Bool) (land seq : Nat) (late : s.popEvent.hemOver p = some (d, v)) (act : d.act = .gridLoad g q cur tg chk land seq) :
    exec (.hemTimeout p) s = .next (s.popEvent.trapOf p (⟨(s.popEvent.part p).tick, .staleHem, d.who, v,
      .again d { d with act := .gridLoad g q cur tg false land seq }⟩ :: s.popEvent.condsNow p) fun e => [e.fix]) := by
  show execHemTimeout p s = _
  simp only [execHemTimeout, late, act]

/-- The first freeze cause, where it is a hem wait longer than its time, is the one that is over. -/
theorem State.hemOver_head (s : State) (p w : Nat) (d : Due) (v : Word) (c g tmo : Nat) (l : List Wait)
    (frozen : (s.part p).frozenAt = some w) (waits : (s.part p).waits = .hem c g tmo v d :: l) (long : w + tmo * 1000 < s.wall) :
    s.hemOver p = some (d, v) := by
  simp [State.hemOver, frozen, waits, long]

/-- Stamps for a core of no partition are set. -/
theorem exec_hemStampArrival_free (s : State) (c gr face : Nat) (n : BitVec 32) (free : s.popEvent.partOf c = none) :
    exec (.hemStampArrival c gr face n) s = .next (s.popEvent.stampFace c gr face n) := by
  show execHemStampArrival c gr face n s = _
  simp only [execHemStampArrival, free]

/-- Stamps for a partition, with no exchange under way, are set and end its waits for the grid. -/
theorem exec_hemStampArrival_part (s : State) (c gr face : Nat) (n : BitVec 32) (p : Nat) (part : s.popEvent.partOf c = some p)
    (idle : s.popEvent.arrivedExchange p c gr face n = none) :
    exec (.hemStampArrival c gr face n) s =
      .next ((s.popEvent.stampFace c gr face n).modPart p fun k => k.clearHems c gr) := by
  show execHemStampArrival c gr face n s = _
  simp only [execHemStampArrival, part, idle]

/-! ### The freezes that clear by themselves (01 R27, R405) -/

/-- The first freeze cause of a kind is taken away. -/
theorem State.clearKind_of_find (s : State) (p : Nat) (f : Wait → Bool) (w : Wait) (h : (s.part p).waits.find? f = some w) :
    s.clearKind p f = s.modPart p fun k => k.clearWait w := by
  simp only [State.clearKind, Part.findWait, h]

/-- A line that arrives goes into one cache, in place of another where that is full. -/
theorem State.icacheFill_core (s : State) (c : Nat) (cl : Cluster) (x : CacheLine) : ∃ old : List CacheLine,
    (s.icacheFill (c, cl, x)).core c = { s.core c with icache := tset [] (s.core c).icache (clNum cl) (old ++ [x]) } :=
  ⟨_, State.core_modCore { s with free := s.free + 1 } c _⟩

theorem State.icacheFill_core_ne (s : State) {c d : Nat} (cl : Cluster) (x : CacheLine) (h : c ≠ d) :
    (s.icacheFill (d, cl, x)).core c = s.core c :=
  State.core_modCore_ne { s with free := s.free + 1 } _ h

/-- A line that arrives changes nothing of a core but a cache, and nothing of the partitions. -/
theorem State.icacheFill_frame (s : State) (e : Nat × Cluster × CacheLine) :
    (s.icacheFill e).parts = s.parts ∧ ∀ c, { (s.icacheFill e).core c with icache := (s.core c).icache } = s.core c := by
  obtain ⟨d, cl, x⟩ := e
  refine ⟨rfl, fun c => ?_⟩
  by_cases h : c = d
  · subst h
    obtain ⟨old, core⟩ := s.icacheFill_core c cl x
    rw [core]
  · rw [s.icacheFill_core_ne cl x h]

/-- The cache that a line arrives in holds it. -/
theorem State.icacheFill_holds (s : State) (c : Nat) (cl : Cluster) (x : CacheLine) (h : risingFrom none (s.core c).icache = true) :
    (tget [] ((s.icacheFill (c, cl, x)).core c).icache (clNum cl)).contains x = true := by
  obtain ⟨old, core⟩ := s.icacheFill_core c cl x
  rw [core]
  show (tget [] (tset [] _ _ _) _).contains x = true
  rw [tget_tset [] _ _ _ _ h]
  simp

/-- Any number of lines change nothing but caches. -/
theorem State.icacheFills_frame (s : State) (l : List (Nat × Cluster × CacheLine)) :
    (l.foldl State.icacheFill s).parts = s.parts ∧
    ∀ c, { (l.foldl State.icacheFill s).core c with icache := (s.core c).icache } = s.core c := by
  refine List.foldlRecOn l _ (motive := fun t : State => t.parts = s.parts ∧
    ∀ c, { t.core c with icache := (s.core c).icache } = s.core c) ⟨rfl, fun _ => rfl⟩ ?_
  rintro t ⟨parts, cores⟩ e -
  obtain ⟨parts', core⟩ := t.icacheFill_frame e
  refine ⟨parts'.trans parts, fun c => ?_⟩
  calc { (t.icacheFill e).core c with icache := (s.core c).icache }
      = { { (t.icacheFill e).core c with icache := (t.core c).icache } with icache := (s.core c).icache } := rfl
    _ = s.core c := by rw [core c, cores c]

theorem exec_icacheFillDone_first (s : State) (p : Nat) (l : List (Nat × Cluster × CacheLine))
    (h : (s.popEvent.part p).waits.find? (fun w => match w with | .icache _ => true | _ => false) = some (.icache l)) :
    exec (.icacheFillDone p) s = .next ((l.foldl State.icacheFill s.popEvent).modPart p fun k => k.clearWait (.icache l)) := by
  show execIcacheFillDone p s = _
  unfold execIcacheFillDone Part.findWait
  dsimp only
  generalize found : List.find? _ _ = o
  obtain rfl := found.symm.trans h
  rfl

/-- The fill ends the freeze and changes nothing else but caches; a cache that a single line is for holds it. -/
theorem exec_icacheFillDone_effect (s : State) (p : Nat) (l : List (Nat × Cluster × CacheLine))
    (h : (s.popEvent.part p).waits.find? (fun w => match w with | .icache _ => true | _ => false) = some (.icache l)) :
    ∃ u : State, exec (.icacheFillDone p) s = .next u ∧
      u.part p = (s.popEvent.modPart p fun k => k.clearWait (.icache l)).part p ∧
      (∀ c, { u.core c with icache := (s.popEvent.core c).icache } = s.popEvent.core c) ∧
      ∀ c cl x, l = [(c, cl, x)] → risingFrom none (s.popEvent.core c).icache = true →
        (tget [] (u.core c).icache (clNum cl)).contains x = true := by
  obtain ⟨parts, cores⟩ := s.popEvent.icacheFills_frame l
  refine ⟨_, exec_icacheFillDone_first s p l h, ?_, cores, ?_⟩
  · rw [State.part_modPart, State.part_modPart, State.part_congr parts p]
  · rintro c cl x rfl rising
    exact s.popEvent.icacheFill_holds c cl x rising

theorem exec_lsqEntryRetire_first (s : State) (p c : Nat) (st : Bool)
    (h : (s.popEvent.part p).waits.find? (fun w => match w with | .lsq _ _ => true | _ => false) = some (.lsq c st)) :
    exec (.lsqEntryRetire p) s = .next ((s.popEvent.modCore c fun k =>
      { k with lsq := k.lsq.eraseP fun e => e.store == st }).modPart p fun k => k.clearWait (.lsq c st)) := by
  show execLsqEntryRetire p s = _
  unfold execLsqEntryRetire Part.findWait
  dsimp only
  generalize found : List.find? _ _ = o
  obtain rfl := found.symm.trans h
  rfl

/-! ### Late writes of a loose partition (07 R169, 15 R308) -/

theorem listNth_eq_getElem? {α : Type} (l : List α) (i : Nat) : listNth l i = l[i]? := by
  induction l generalizing i with
  | nil => rfl
  | cons a l ih =>
    cases i with
    | zero => rfl
    | succ i => exact ih i

/-- The write chosen is `d`, or one of those before it, and it meets none that is older still. -/
theorem oldestLate_spec (d : Due) (l : List Due) :
    (oldestLate d l = d ∧ ∀ e ∈ l, d.meets e = false) ∨
    ∃ a b, l = a ++ oldestLate d l :: b ∧ ∀ e ∈ b, (oldestLate d l).meets e = false := by
  induction l generalizing d with
  | nil => exact .inl ⟨rfl, fun _ he => nomatch he⟩
  | cons e l ih =>
    by_cases h : d.meets e = true
    · simp only [oldestLate, h, if_true]
      rcases ih e with ⟨chosen, free⟩ | ⟨a, b, split, free⟩
      · exact .inr ⟨[], l, by rw [chosen]; rfl, by rw [chosen]; exact free⟩
      · exact .inr ⟨e :: a, b, congrArg (e :: ·) split, free⟩
    · simp only [oldestLate, h, Bool.false_eq_true, if_false]
      rcases ih d with ⟨chosen, free⟩ | ⟨a, b, split, free⟩
      · exact .inl ⟨chosen, List.forall_mem_cons.mpr ⟨by simpa using h, free⟩⟩
      · exact .inr ⟨e :: a, b, congrArg (e :: ·) split, free⟩

/-- Of the writes up to place `i` the one chosen stands in the list, after none that it meets. -/
theorem oldestLate_split (l : List Due) (i : Nat) (d : Due) (h : l[i]? = some d) :
    ∃ a b, l = a ++ oldestLate d (l.take i).reverse :: b ∧ ∀ e ∈ a, (oldestLate d (l.take i).reverse).meets e = false := by
  obtain ⟨hi, rfl⟩ := List.getElem?_eq_some_iff.mp h
  have cut : l = l.take i ++ l[i] :: l.drop (i + 1) := by simp
  rcases oldestLate_spec l[i] (l.take i).reverse with ⟨chosen, free⟩ | ⟨a, b, split, free⟩
  · rw [chosen]
    exact ⟨_, _, cut, fun e he => free e (List.mem_reverse.mpr he)⟩
  · refine ⟨b.reverse, a.reverse ++ l[i] :: l.drop (i + 1), ?_, fun e he => free e (List.mem_reverse.mp he)⟩
    have older := congrArg List.reverse split
    rw [List.reverse_reverse, List.reverse_append, List.reverse_cons] at older
    calc l = l.take i ++ l[i] :: l.drop (i + 1) := cut
      _ = (b.reverse ++ [oldestLate l[i] (l.take i).reverse] ++ a.reverse) ++ l[i] :: l.drop (i + 1) :=
        congrArg (· ++ l[i] :: l.drop (i + 1)) older
      _ = _ := by simp only [List.append_assoc, List.cons_append, List.nil_append]

/-- A late write that meets none before it lands as an arrival. -/
theorem exec_lateWritePerform_some (s : State) (p : Nat) (late : (s.popEvent.part p).lateWrites ≠ []) :
    ∃ (l r : List Due) (d : Due), (s.popEvent.part p).lateWrites = l ++ d :: r ∧ (∀ e ∈ l, d.meets e = false) ∧
      exec (.lateWritePerform p) s = .next (({ s.popEvent with free := s.popEvent.free + 1 }.modPart p fun k =>
        { k with lateWrites := k.lateWrites.erase d }).addDue p { d with place := 9 }) := by
  have inside : Config.nextTurn s.popEvent.free % (s.popEvent.part p).lateWrites.length < (s.popEvent.part p).lateWrites.length :=
    Nat.mod_lt _ (List.length_pos_iff.mpr late)
  obtain ⟨a, b, split, free⟩ := oldestLate_split _ _ _ (List.getElem?_eq_getElem inside)
  refine ⟨a, b, _, split, free, show execLateWritePerform p s = _ from ?_⟩
  simp only [execLateWritePerform, State.draw, listNth_eq_getElem?, List.getElem?_eq_getElem inside]
  rfl

end Sys2Proof.Machine

namespace Sys2Proof.Proofs

open Sys2Proof.Machine

/-- Settles O52: one lemma for each event, of the state in which the event is worked. -/
theorem barrierAndFreezeEvents : Obligations.BarrierAndFreezeEvents := by
  refine ⟨fun s g => ⟨fun word arrived count => ?full, fun word total count first last seen edge last_reached last_bound
      seen_reached seen_bound edge_aligned => ?pod⟩,
    fun s p => ⟨?pulse, fun w limit due => ?limit, ?hemTimeout, ?hemOver, ?icache, ?late, ?bank, ?lsq, ?queue, ?lateWrite⟩,
    fun s c gr face n => ?hem⟩
  case full => exact exec_barrierRelease_full s g (s.popEvent.barrierFull_of_word g word arrived count)
  case pod =>
    have full := s.popEvent.podFull_of_word g word total count
    refine ⟨fun two after before edge_first => ?_, fun one after before => ?_⟩
    · subst edge_first
      exact exec_podBarrierRelease_full s g _ _ full (s.popEvent.podTarget_two g last seen edge last_reached last_bound
        seen_reached seen_bound edge_aligned (s.popEvent.yelnarTwo_iff.mpr two) after before)
    · have not_two : s.popEvent.yelnarTwo = false := Bool.eq_false_iff.mpr (mt s.popEvent.yelnarTwo_iff.mp one)
      exact exec_podBarrierRelease_full s g _ _ full (s.popEvent.podTarget_one g seen edge seen_reached seen_bound edge_aligned
        not_two after before)
  case pulse => exact exec_pulseIntervalExpiry_due s p
  case limit =>
    refine ⟨fun alone => ?_, fun _ => exec_freezeLimitExpiry_due s p w limit due⟩
    obtain ⟨u, r, run, inForce, cls, route, tick, told⟩ := exec_freezeLimitExpiry_alone s p w limit due alone
    exact ⟨u, r, run, ⟨inForce, cls, route⟩, tick, told⟩
  case hemTimeout => exact exec_hemTimeout_over s p
  case hemOver => exact fun w d v c g tmo l frozen waits long => s.popEvent.hemOver_head p w d v c g tmo l frozen waits long
  case icache => exact exec_icacheFillDone_effect s p
  case late => exact fun c i first => congrArg _ (s.popEvent.clearKind_of_find p _ _ first)
  case bank => exact fun first => congrArg _ (s.popEvent.clearKind_of_find p _ _ first)
  case lsq => exact exec_lsqEntryRetire_first s p
  case queue => exact fun c q first => congrArg _ (s.popEvent.clearKind_of_find p _ _ first)
  case lateWrite => exact exec_lateWritePerform_some s p
  case hem => exact ⟨exec_hemStampArrival_free s c gr face n, exec_hemStampArrival_part s c gr face n⟩

end Sys2Proof.Proofs
end

section
/-! PROOF. Native words: the operand fields that a word holds, the codes of the modifiers, and for each of the four maps that a
word holding an instruction's fields decodes to it, and that a word decodes only to an instruction whose fields it holds. -/

namespace Sys2Proof

/-! ### Operand fields (03 R48) -/

/-- The bits of `o` below `top` hold the fields from the top downward, and the bits below the last of them are zero. -/
def HoldsFields (o : Nat) : Nat → List (Nat × Nat) → Prop
  | top, [] => o % 2 ^ top = 0
  | top, (w, v) :: rest => w ≤ top ∧ fld o (top - w) w = v ∧ HoldsFields o (top - w) rest

/-- Each value is within the width of its field, and the fields fit below bit `top`. -/
def FitFields : Nat → List (Nat × Nat) → Prop
  | _, [] => True
  | top, (w, v) :: rest => w ≤ top ∧ v < 2 ^ w ∧ FitFields (top - w) rest

theorem packFrom_lt {top : Nat} {fs : List (Nat × Nat)} (h : FitFields top fs) : packFrom top fs < 2 ^ top := by
  induction fs generalizing top with
  | nil => exact Nat.two_pow_pos top
  | cons e rest ih =>
    obtain ⟨w, v⟩ := e
    obtain ⟨inside, small, fits⟩ := h
    calc v * 2 ^ (top - w) + packFrom (top - w) rest < v * 2 ^ (top - w) + 2 ^ (top - w) := Nat.add_lt_add_left (ih fits) _
      _ = (v + 1) * 2 ^ (top - w) := by ring
      _ ≤ 2 ^ w * 2 ^ (top - w) := Nat.mul_le_mul_right _ small
      _ = 2 ^ top := by rw [← pow_add, Nat.add_sub_cancel' inside]

/-- Packed fields are held, whatever stands above them. -/
theorem holdsFields_packFrom {top : Nat} {fs : List (Nat × Nat)} (h : FitFields top fs) (a : Nat) :
    HoldsFields (a * 2 ^ top + packFrom top fs) top fs := by
  induction fs generalizing top a with
  | nil => simp [HoldsFields, packFrom]
  | cons e rest ih =>
    obtain ⟨w, v⟩ := e
    obtain ⟨inside, small, fits⟩ := h
    have split : a * 2 ^ top + packFrom top ((w, v) :: rest) = (a * 2 ^ w + v) * 2 ^ (top - w) + packFrom (top - w) rest := by
      rw [packFrom, add_mul, mul_assoc, ← pow_add, Nat.add_sub_cancel' inside, add_assoc]
    rw [split]
    refine ⟨inside, ?_, ih fits _⟩
    rw [fld, Nat.add_comm, Nat.add_mul_div_right _ _ (Nat.two_pow_pos _), Nat.div_eq_of_lt (packFrom_lt fits), Nat.zero_add,
      Nat.mul_add_mod_self_right, Nat.mod_eq_of_lt small]

/-- Packing the fields that a number holds gives it back below bit `top`. -/
theorem HoldsFields.packFrom_eq {o top : Nat} {fs : List (Nat × Nat)} (h : HoldsFields o top fs) :
    packFrom top fs = o % 2 ^ top := by
  induction fs generalizing top with
  | nil => exact h.symm
  | cons e rest ih =>
    obtain ⟨w, v⟩ := e
    obtain ⟨inside, rfl, held⟩ := h
    rw [packFrom, ih held, fld, Nat.mul_comm, Nat.add_comm, ← Nat.mod_mul, ← pow_add, Nat.sub_add_cancel inside]

section
variable (o lo : Nat)

@[simp] theorem x5_val : (x5 o lo).val = fld o lo 5 := rfl
@[simp] theorem n6_val : (n6 o lo).val = fld o lo 6 := rfl
@[simp] theorem n4_val : (n4 o lo).val = fld o lo 4 := rfl
@[simp] theorem n3_val : (n3 o lo).val = fld o lo 3 := rfl
@[simp] theorem bits_toNat (n : Nat) : (bits n o lo).toNat = fld o lo n := BitVec.toNat_ofNat _ _

theorem x5_eq : x5 o lo = Fin.ofNat 32 (fld o lo 5) := Fin.ext (Nat.mod_mod _ _).symm
theorem n6_eq : n6 o lo = Fin.ofNat 64 (fld o lo 6) := Fin.ext (Nat.mod_mod _ _).symm
theorem n4_eq : n4 o lo = Fin.ofNat 16 (fld o lo 4) := Fin.ext (Nat.mod_mod _ _).symm
theorem n3_eq : n3 o lo = Fin.ofNat 8 (fld o lo 3) := Fin.ext (Nat.mod_mod _ _).symm
theorem bits_eq (n : Nat) : bits n o lo = BitVec.ofNat n (fld o lo n) := BitVec.eq_of_toNat_eq (by simp [fld])

end

/-! ### Codes (03 R47, 04 R57) -/

/-- `ofCode?` reads the codes that `code` gives, each of them below `2 ^ w`, and no other number. -/
structure Coding {α : Type} (w : Nat) (code : α → Nat) (ofCode? : Nat → Option α) : Prop where
  lt : ∀ m, code m < 2 ^ w
  read : ∀ m, ofCode? (code m) = some m
  only : ∀ n m, ofCode? n = some m → n = code m

theorem Coding.eq_some_iff {α : Type} {w : Nat} {code : α → Nat} {ofCode? : Nat → Option α} (h : Coding w code ofCode?)
    (n : Nat) (m : α) : ofCode? n = some m ↔ n = code m := ⟨h.only n m, fun e => e ▸ h.read m⟩

theorem Rm.coding : Coding 3 Rm.code Rm.ofCode? where
  lt m := by cases m <;> decide
  read m := by cases m <;> rfl
  only n m h := by unfold Rm.ofCode? at h; split at h <;> cases h <;> rfl

theorem Scope.coding : Coding 3 Scope.code Scope.ofCode? where
  lt m := by cases m <;> decide
  read m := by cases m <;> rfl
  only n m h := by unfold Scope.ofCode? at h; split at h <;> cases h <;> rfl

theorem Order.coding : Coding 2 Order.code Order.ofCode? where
  lt m := by cases m <;> decide
  read m := by cases m <;> rfl
  only n m h := by unfold Order.ofCode? at h; split at h <;> cases h <;> rfl

theorem Adv.coding : Coding 2 Adv.code Adv.ofCode? where
  lt m := by cases m <;> decide
  read m := by cases m <;> rfl
  only n m h := by unfold Adv.ofCode? at h; split at h <;> cases h <;> rfl

theorem Lop.coding : Coding 2 Lop.code Lop.ofCode? where
  lt m := by cases m <;> decide
  read m := by cases m <;> rfl
  only n m h := by unfold Lop.ofCode? at h; split at h <;> cases h <;> rfl

theorem Cond.coding : Coding 3 Cond.code Cond.ofCode? where
  lt m := by cases m <;> decide
  read m := by cases m <;> rfl
  only n m h := by unfold Cond.ofCode? at h; split at h <;> cases h <;> rfl

theorem Aop.coding : Coding 4 Aop.code Aop.ofCode? where
  lt m := by cases m <;> decide
  read m := by cases m <;> rfl
  only n m h := by unfold Aop.ofCode? at h; split at h <;> cases h <;> rfl

theorem Join.coding : Coding 2 Join.code Join.ofCode? where
  lt m := by cases m <;> decide
  read m := by cases m <;> rfl
  only n m h := by unfold Join.ofCode? at h; split at h <;> cases h <;> rfl

theorem Red.coding : Coding 2 Red.code Red.ofCode? where
  lt m := by cases m <;> decide
  read m := by cases m <;> rfl
  only n m h := by unfold Red.ofCode? at h; split at h <;> cases h <;> rfl

theorem Dist.coding : Coding 2 Dist.code Dist.ofCode? where
  lt m := by cases m <;> decide
  read m := by cases m <;> rfl
  only n m h := by unfold Dist.ofCode? at h; split at h <;> cases h <;> rfl

theorem Part.coding : Coding 3 Part.code Part.ofCode? where
  lt m := by cases m <;> decide
  read m := by cases m <;> rfl
  only n m h := by unfold Part.ofCode? at h; split at h <;> cases h <;> rfl

theorem Rule.coding : Coding 3 Rule.code Rule.ofCode? where
  lt m := by cases m <;> decide
  read m := by cases m <;> rfl
  only n m h := by unfold Rule.ofCode? at h; split at h <;> cases h <;> rfl

theorem Acc.coding : Coding 2 Acc.code Acc.ofCode? where
  lt m := by cases m <;> decide
  read m := by cases m <;> rfl
  only n m h := by unfold Acc.ofCode? at h; split at h <;> cases h <;> rfl

theorem EngineId.coding : Coding 2 EngineId.code EngineId.ofCode? where
  lt m := by cases m <;> decide
  read m := by cases m <;> rfl
  only n m h := by unfold EngineId.ofCode? at h; split at h <;> cases h <;> rfl

theorem Fmt.coding : Coding 5 Fmt.code Fmt.ofCode? where
  lt m := by cases m <;> decide
  read m := by cases m <;> rfl
  only n m h := by unfold Fmt.ofCode? at h; split at h <;> cases h <;> rfl

@[simp] theorem Fmt.ofField_code (m : Fmt) : Fmt.ofField m.code = m := by simp [Fmt.ofField, Fmt.coding.read]

/-- A format that a word accepts stands under its own code: an undefined code is read as e8m0, which no word accepts (03 R50). -/
theorem Fmt.code_ofField {accepts : Fmt → Bool} (refuses : accepts .e8m0 = false) {n : Nat} (h : accepts (ofField n) = true) :
    (ofField n).code = n := by
  unfold ofField at h ⊢
  cases found : ofCode? n with
  | none => simp [found, refuses] at h
  | some m => exact (coding.only n m found).symm

section
variable {n : Nat}

theorem Fmt.code_of_isVecInt : (ofField n).isVecInt = true → (ofField n).code = n := code_ofField rfl
theorem Fmt.code_of_isVecFloat : (ofField n).isVecFloat = true → (ofField n).code = n := code_ofField rfl
theorem Fmt.code_of_isMove : (ofField n).isMove = true → (ofField n).code = n := code_ofField rfl
theorem Fmt.code_of_isCvtDst : (ofField n).isCvtDst = true → (ofField n).code = n := code_ofField rfl
theorem Fmt.code_of_isCvtSrc : (ofField n).isCvtSrc = true → (ofField n).code = n := code_ofField rfl
theorem Fmt.code_of_isMx : (ofField n).isMx = true → (ofField n).code = n := code_ofField rfl
theorem Fmt.code_of_isDqSrc : (ofField n).isDqSrc = true → (ofField n).code = n := code_ofField rfl
theorem Fmt.code_of_isPlane : (ofField n).isPlane = true → (ofField n).code = n := code_ofField rfl
theorem Fmt.code_of_isMatA : (ofField n).isMatA = true → (ofField n).code = n := code_ofField rfl
theorem Fmt.code_of_isMatB : (ofField n).isMatB = true → (ofField n).code = n := code_ofField rfl
theorem Fmt.code_of_drains : ((ofField n).drainTracks != 0) = true → (ofField n).code = n :=
  code_ofField (accepts := (·.drainTracks != 0)) rfl
theorem Fmt.code_of_isDqDst : (ofField n == .fp32 || ofField n == .bf16) = true → (ofField n).code = n :=
  code_ofField (accepts := fun m => m == .fp32 || m == .bf16) rfl
theorem Fmt.code_of_isDraw {raw : Bool} :
    (if raw = true then ofField n == .int32 else ofField n == .fp32) = true → (ofField n).code = n := by
  cases raw
  · exact code_ofField (accepts := (· == .fp32)) rfl
  · exact code_ofField (accepts := (· == .int32)) rfl

end

/-! ### Fields that are neither a number nor a code -/

theorem chainField_lt (ch : Option (BitVec 10)) : chainField ch < 2 ^ 10 := by
  cases ch with
  | none => exact Nat.two_pow_pos 10
  | some c => exact c.isLt

theorem chainFlag_lt (ch : Option (BitVec 10)) : chainFlag ch < 2 ^ 1 := by cases ch <;> simp [chainFlag]
theorem flag_lt (b : Bool) : (if b then 1 else 0) < 2 ^ 1 := by cases b <;> decide
theorem flag_beq_one (b : Bool) : ((if b then 1 else 0) == 1) = b := by cases b <;> rfl

theorem flag_of_bit (o lo : Nat) : (if fld o lo 1 == 1 then 1 else 0) = fld o lo 1 := by
  rcases Nat.mod_two_eq_zero_or_one (o / 2 ^ lo) with h | h <;> simp [fld, h]

theorem fld_ne_one (o lo : Nat) : ¬ fld o lo 1 = 1 ↔ fld o lo 1 = 0 := Nat.mod_two_ne_one

theorem face_lt (d : Fin 6) : d.val < 2 ^ 3 := d.isLt.trans (by decide)

/-! ### Forms -/

/-- The form of an instruction as a word of cluster `c`, a NOP's with it (03 R46). -/
def Instr.formIn (c : Cluster) : Instr → Option NativeForm
  | .nop f => some ⟨f, c, 0, []⟩
  | i => i.native

theorem Instr.formIn_fits {c : Cluster} {i : Instr} {x : NativeForm} (h : i.formIn c = some x) :
    x.op < 2 ^ 8 ∧ FitFields 46 x.fields := by
  cases i <;> cases h
  all_goals
    simp only [FitFields, BitVec.isLt, chainField_lt, chainFlag_lt, flag_lt, face_lt, Fmt.coding.lt, Rm.coding.lt,
      Scope.coding.lt, Order.coding.lt, Adv.coding.lt, Lop.coding.lt, Cond.coding.lt, Aop.coding.lt, Join.coding.lt,
      Red.coding.lt, Dist.coding.lt, Part.coding.lt, Rule.coding.lt, Acc.coding.lt, EngineId.coding.lt]
    simp

theorem Instr.formIn_of_ne_nop (c : Cluster) {i : Instr} (h : ∀ f, i = .nop f → False) : i.formIn c = i.native := by
  unfold Instr.formIn
  split
  next f => exact (h f rfl).elim
  next => rfl

/-! ### A word that holds an instruction's fields decodes to it -/

section
variable {i : Instr} {f : Frame} {op o : Nat} {fs : List (Nat × Nat)}

/-- The rows of the S map (03 R52); other instructions have no form in the cluster. -/
theorem decodeS_of_holds (h : i.formIn .s = some ⟨f, .s, op, fs⟩) (held : HoldsFields o 46 fs) :
    decodeS f op o = .ok i := by
  cases i <;> cases h
  all_goals
    simp only [HoldsFields, Nat.reduceSub] at held
    unfold decodeS
    simp only [zeroBelow, need, held, if_true, Fin.ofNat_val_eq_self, BitVec.ofNat_toNat, BitVec.setWidth_eq, x5_eq, n4_eq,
      n3_eq, bits_eq, Lop.coding.read, Scope.coding.read, Join.coding.read]

/-- The rows of the A map (03 R53); other instructions have no form in the cluster. -/
theorem decodeA_of_holds (h : i.formIn .a = some ⟨f, .a, op, fs⟩) (held : HoldsFields o 46 fs) :
    decodeA f op o = .ok i := by
  cases i <;> cases h
  -- ENG: its chain is a flag and an index.
  case eng.refl ch =>
    simp only [HoldsFields, Nat.reduceSub] at held
    unfold decodeA
    simp only [zeroBelow, need, held, n4_eq, bits_eq, EngineId.coding.read, Fin.ofNat_val_eq_self, BitVec.ofNat_toNat,
      BitVec.setWidth_eq, if_true]
    cases ch <;> simp [chainField, chainFlag]
  all_goals
    simp only [HoldsFields, Nat.reduceSub] at held
    unfold decodeA
    simp only [zeroBelow, need, held, if_true, Fin.ofNat_val_eq_self, BitVec.ofNat_toNat, BitVec.setWidth_eq, n6_eq, n4_eq,
      n3_eq, bits_eq, Fin.is_lt, dite_true, Order.coding.read, Scope.coding.read, Adv.coding.read, Aop.coding.read,
      Part.coding.read, Rule.coding.read, EngineId.coding.read]

/-- The rows of the V map (03 R54); other instructions have no form in the cluster. -/
theorem decodeV_of_holds (h : i.formIn .v = some ⟨f, .v, op, fs⟩) (held : HoldsFields o 46 fs) :
    decodeV f op o = .ok i := by
  cases i <;> cases h
  all_goals
    simp only [HoldsFields, Nat.reduceSub] at held
    unfold decodeV
    simp only [zeroBelow, need, held, if_true, Fin.ofNat_val_eq_self, BitVec.ofNat_toNat, BitVec.setWidth_eq, x5_eq, n4_eq,
      n3_eq, bits_eq, Fmt.ofField_code, flag_beq_one, Adv.coding.read, Cond.coding.read, Rm.coding.read, Red.coding.read,
      Lop.coding.read, Dist.coding.read]

/-- The rows of the M map (03 R55); other instructions have no form in the cluster. -/
theorem decodeM_of_holds (h : i.formIn .m = some ⟨f, .m, op, fs⟩) (held : HoldsFields o 46 fs) :
    decodeM f op o = .ok i := by
  cases i <;> cases h
  all_goals
    simp only [HoldsFields, Nat.reduceSub] at held
    unfold decodeM
    simp only [zeroBelow, need, held, if_true, Fin.ofNat_val_eq_self, BitVec.ofNat_toNat, BitVec.setWidth_eq, n4_eq, n3_eq,
      bits_eq, Fmt.ofField_code, Acc.coding.read, Rm.coding.read]

end

/-! ### A word decodes only to an instruction whose fields it holds -/

/-- Where the fields of a word give an instruction that accepts its formats, the operand bits `o` hold the fields of its form. -/
def Fields.HeldBy (c : Cluster) (f : Frame) (op o : Nat) : Fields → Prop
  | .ok i => i.formatOk = true → ∃ fs, i.formIn c = some ⟨f, c, op, fs⟩ ∧ HoldsFields o 46 fs
  | _ => True

section
variable {c : Cluster} {f : Frame} {op o : Nat}

theorem heldBy_ok {i : Instr} : (Fields.ok i).HeldBy c f op o ↔
    (i.formatOk = true → ∃ fs, i.formIn c = some ⟨f, c, op, fs⟩ ∧ HoldsFields o 46 fs) := Iff.rfl

theorem heldBy_illegal : Fields.illegal.HeldBy c f op o ↔ True := Iff.rfl
theorem heldBy_reserved : Fields.reserved.HeldBy c f op o ↔ True := Iff.rfl

theorem heldBy_zeroBelow {k : Nat} {r : Fields} :
    (zeroBelow o k r).HeldBy c f op o ↔ (o % 2 ^ k = 0 → r.HeldBy c f op o) := by
  unfold zeroBelow; split <;> simp [heldBy_reserved, *]

theorem heldBy_need {α : Type} {x : Option α} {k : α → Fields} :
    (need x k).HeldBy c f op o ↔ ∀ a, x = some a → (k a).HeldBy c f op o := by
  cases x <;> simp [need, heldBy_reserved]

theorem heldBy_ite {p : Prop} [Decidable p] {a b : Fields} :
    (if p then a else b).HeldBy c f op o ↔ (p → a.HeldBy c f op o) ∧ (¬p → b.HeldBy c f op o) := by
  split <;> simp [*]

theorem heldBy_dite {p : Prop} [Decidable p] {a : p → Fields} {b : ¬p → Fields} :
    (dite p a b).HeldBy c f op o ↔ (∀ h, (a h).HeldBy c f op o) ∧ ∀ h, (b h).HeldBy c f op o := by
  split <;> simp [*]

end

section
variable (f : Frame) (op o : Nat)

/-- The opcodes of the S map (03 R52); an opcode outside it gives no instruction. -/
theorem decodeS_heldBy : (decodeS f op o).HeldBy .s f op o := by
  unfold decodeS
  split
  all_goals simp only [heldBy_zeroBelow, heldBy_need, heldBy_ok, heldBy_illegal, Lop.coding.eq_some_iff,
    Scope.coding.eq_some_iff, Join.coding.eq_some_iff]
  all_goals
    intros
    refine ⟨_, rfl, ?_⟩
    simp only [HoldsFields, Nat.reduceSub, Nat.reduceLeDiff, Nat.sub_self, pow_zero, Nat.mod_one, x5_val, n4_val, n3_val,
      bits_toNat, *, and_true]

/-- The opcodes of the A map (03 R53); an opcode outside it gives no instruction. -/
theorem decodeA_heldBy : (decodeA f op o).HeldBy .a f op o := by
  unfold decodeA
  split
  all_goals simp only [heldBy_zeroBelow, heldBy_need, heldBy_ok, heldBy_illegal, heldBy_reserved,
    heldBy_ite, heldBy_dite, fld_ne_one, implies_true, and_true, Order.coding.eq_some_iff,
    Scope.coding.eq_some_iff, Adv.coding.eq_some_iff, Aop.coding.eq_some_iff, Part.coding.eq_some_iff, Rule.coding.eq_some_iff,
    EngineId.coding.eq_some_iff]
  -- ENG: its chain is a flag and an index.
  case h_30 =>
    intro zero e code
    refine ⟨fun chains _ => ⟨_, rfl, ?_⟩, fun alone unused _ => ⟨_, rfl, ?_⟩⟩
    all_goals
      simp only [HoldsFields, Nat.reduceSub, Nat.reduceLeDiff, n4_val, bits_toNat, chainField, chainFlag, *, and_true]
  all_goals
    intros
    refine ⟨_, rfl, ?_⟩
    simp only [HoldsFields, Nat.reduceSub, Nat.reduceLeDiff, Nat.sub_self, pow_zero, Nat.mod_one, n6_val, n4_val, n3_val,
      bits_toNat, *, and_true]

/-- The opcodes of the V map (03 R54); an opcode outside it gives no instruction. -/
theorem decodeV_heldBy : (decodeV f op o).HeldBy .v f op o := by
  unfold decodeV
  split
  all_goals simp only [heldBy_zeroBelow, heldBy_need, heldBy_ok, heldBy_illegal, Adv.coding.eq_some_iff,
    Cond.coding.eq_some_iff, Rm.coding.eq_some_iff, Red.coding.eq_some_iff, Lop.coding.eq_some_iff, Dist.coding.eq_some_iff]
  -- VRNG: the format that it accepts depends on its distribution.
  case h_44 =>
    intro zero d code accepts
    refine ⟨_, rfl, ?_⟩
    simp only [HoldsFields, Nat.reduceSub, Nat.reduceLeDiff, x5_val, n3_val, flag_of_bit, Fmt.code_of_isDraw accepts, zero, code,
      and_true]
  all_goals
    intros
    refine ⟨_, rfl, ?_⟩
    simp only [Instr.formatOk, Bool.and_eq_true] at *
    simp only [HoldsFields, Nat.reduceSub, Nat.reduceLeDiff, Nat.sub_self, pow_zero, Nat.mod_one, x5_val, n4_val, n3_val,
      bits_toNat, Fmt.code_of_isVecInt, Fmt.code_of_isVecFloat, Fmt.code_of_isMove, Fmt.code_of_isMx,
      Fmt.code_of_isDqSrc, Fmt.code_of_isCvtDst, Fmt.code_of_isCvtSrc, Fmt.code_of_isPlane, Fmt.code_of_isDqDst,
      *, and_true]

/-- The opcodes of the M map (03 R55); an opcode outside it gives no instruction. -/
theorem decodeM_heldBy : (decodeM f op o).HeldBy .m f op o := by
  unfold decodeM
  split
  all_goals simp only [heldBy_zeroBelow, heldBy_need, heldBy_ok, heldBy_illegal, Acc.coding.eq_some_iff, Rm.coding.eq_some_iff]
  all_goals
    intros
    refine ⟨_, rfl, ?_⟩
    simp only [Instr.formatOk, Bool.and_eq_true] at *
    simp only [HoldsFields, Nat.reduceSub, Nat.reduceLeDiff, Nat.sub_self, pow_zero, Nat.mod_one, n4_val, n3_val, bits_toNat,
      Fmt.code_of_isMatA, Fmt.code_of_isMatB, Fmt.code_of_drains, *, and_true]

end

/-! ### Words (03 R46, R50) -/

/-- The map of a cluster (03 R52 to R55). -/
def decodeMap : Cluster → Frame → Nat → Nat → Fields
  | .s => decodeS
  | .a => decodeA
  | .v => decodeV
  | .m => decodeM

theorem decodeFields_eq (c : Cluster) (n : Nat) :
    decodeFields c n = decodeMap c (frameOf n) (fld n 46 8) (n % 2 ^ 46) := by cases c <;> rfl

theorem decodeMap_of_holds {c : Cluster} {i : Instr} {f : Frame} {op o : Nat} {fs : List (Nat × Nat)}
    (h : i.formIn c = some ⟨f, c, op, fs⟩) (held : HoldsFields o 46 fs) : decodeMap c f op o = .ok i := by
  cases c with
  | s => exact decodeS_of_holds h held
  | a => exact decodeA_of_holds h held
  | v => exact decodeV_of_holds h held
  | m => exact decodeM_of_holds h held

theorem decodeMap_heldBy (c : Cluster) (f : Frame) (op o : Nat) : (decodeMap c f op o).HeldBy c f op o := by
  cases c with
  | s => exact decodeS_heldBy f op o
  | a => exact decodeA_heldBy f op o
  | v => exact decodeV_heldBy f op o
  | m => exact decodeM_heldBy f op o

theorem checkFields_eq_ok (r : Fields) (i : Instr) : checkFields r = .ok i ↔ r = .ok i ∧ i.wellFormed = true := by
  cases r with
  | illegal => simp [checkFields]
  | reserved => simp [checkFields]
  | ok j =>
    have accepted : checkFields (.ok j) = .ok i ↔ j.wellFormed = true ∧ j = i := by
      cases limits : j.limitsOk <;> cases formats : j.formatOk <;> cases combo : j.comboOk <;>
        simp [checkFields, Instr.wellFormed, limits, formats, combo]
    rw [accepted, Fields.ok.injEq]
    constructor
    · rintro ⟨wf, rfl⟩; exact ⟨rfl, wf⟩
    · rintro ⟨rfl, wf⟩; exact ⟨wf, rfl⟩

theorem Instr.formatOk_of_wellFormed {i : Instr} (wf : i.wellFormed = true) : i.formatOk = true := by
  simp only [Instr.wellFormed, Bool.and_eq_true] at wf
  obtain ⟨⟨-, formats⟩, -⟩ := wf
  exact formats

theorem decodeNative_eq_ok (c : Cluster) (w : Word) (i : Instr) :
    decodeNative c w = .ok i ↔ decodeFields c w.toNat = .ok i ∧ i.wellFormed = true := checkFields_eq_ok _ _

theorem encodeNative_eq_some (c : Cluster) (i : Instr) (w : Word) : encodeNative c i = some w ↔
    ∃ f op fs, i.formIn c = some ⟨f, c, op, fs⟩ ∧ BitVec.ofNat 64 (NativeForm.mk f c op fs).toNat = w := by
  unfold encodeNative
  split
  next f =>
    have nop : (NativeForm.mk f c 0 []).toNat = frameBits f := by simp [NativeForm.toNat, packFrom]
    simp [Instr.formIn, nop]
  next other =>
    rw [Instr.formIn_of_ne_nop c other]
    cases i.native with
    | none => simp
    | some x =>
      obtain ⟨f, cl, op, fs⟩ := x
      by_cases same : cl = c
      · subst same; simp
      · simp [same]

/-- The parts of a word, above its operand bits (03 R46). -/
theorem word_parts (f : Frame) {op o : Nat} (opcode : op < 2 ^ 8) (operand : o < 2 ^ 46) :
    frameBits f + op * 2 ^ 46 + o < 2 ^ 64 ∧ frameOf (frameBits f + op * 2 ^ 46 + o) = f ∧
      fld (frameBits f + op * 2 ^ 46 + o) 46 8 = op ∧ (frameBits f + op * 2 ^ 46 + o) % 2 ^ 46 = o := by
  obtain ⟨y, w, g, n⟩ := f
  have y_lt := flag_lt y
  have n_lt := flag_lt n
  have w_lt := w.isLt
  have g_lt := g.isLt
  simp only [frameBits, frameOf, fld, Frame.mk.injEq, Fin.ext_iff, Fin.val_ofNat]
  generalize y_bit : (if y = true then 1 else 0) = yb at *
  generalize n_bit : (if n = true then 1 else 0) = nb at *
  refine ⟨by omega, ⟨?_, by omega, by omega, ?_⟩, by omega, by omega⟩
  · rw [← flag_beq_one y, y_bit]; congr 1; omega
  · rw [← flag_beq_one n, n_bit]; congr 1; omega

theorem frameBits_frameOf {n : Nat} (h : n < 2 ^ 64) : frameBits (frameOf n) + fld n 46 8 * 2 ^ 46 + n % 2 ^ 46 = n := by
  have y_bit : (if (frameOf n).y then 1 else 0) = n / 2 ^ 63 % 2 := flag_of_bit n 63
  have n_bit : (if (frameOf n).n then 1 else 0) = n / 2 ^ 54 % 2 := flag_of_bit n 54
  rw [frameBits, y_bit, n_bit]
  simp only [frameOf, fld, Fin.val_ofNat]
  omega

end Sys2Proof

namespace Sys2Proof.Proofs

/-- Settles O2: the word holds the fields of the instruction's form, and the map of the cluster reads the instruction from them. -/
theorem nativeWordsDecodeBack : Obligations.NativeWordsDecodeBack := by
  intro c i w wf encoded
  obtain ⟨f, op, fs, form, rfl⟩ := (encodeNative_eq_some c i w).mp encoded
  obtain ⟨opcode, fits⟩ := Instr.formIn_fits form
  obtain ⟨bound, frame, code, operand⟩ := word_parts f opcode (packFrom_lt fits)
  have held : HoldsFields (packFrom 46 fs) 46 fs := by simpa using holdsFields_packFrom fits 0
  have number : (BitVec.ofNat 64 (NativeForm.mk f c op fs).toNat).toNat = frameBits f + op * 2 ^ 46 + packFrom 46 fs :=
    (BitVec.toNat_ofNat _ _).trans (Nat.mod_eq_of_lt bound)
  rw [decodeNative_eq_ok, decodeFields_eq, number, frame, code, operand]
  exact ⟨decodeMap_of_holds form held, wf⟩

/-- Settles O3: the operand bits of a word that decodes hold the fields of the instruction's form, which pack to the word. -/
theorem nativeWordsEncodeBack : Obligations.NativeWordsEncodeBack := by
  intro c i w decoded
  obtain ⟨fields, wf⟩ := (decodeNative_eq_ok c w i).mp decoded
  rw [decodeFields_eq] at fields
  have heldBy := decodeMap_heldBy c (frameOf w.toNat) (fld w.toNat 46 8) (w.toNat % 2 ^ 46)
  rw [fields] at heldBy
  obtain ⟨fs, form, held⟩ := heldBy (Instr.formatOk_of_wellFormed wf)
  refine ⟨wf, (encodeNative_eq_some c i w).mpr ⟨_, _, fs, form, ?_⟩⟩
  have number : (NativeForm.mk (frameOf w.toNat) c (fld w.toNat 46 8) fs).toNat = w.toNat := by
    rw [NativeForm.toNat, held.packFrom_eq, Nat.mod_mod, frameBits_frameOf w.isLt]
  rw [number, BitVec.ofNat_toNat, BitVec.setWidth_eq]

end Sys2Proof.Proofs
end

section
/-! PROOF. What a step does at a word that is not run: at its check and in a handler run (03 R50, R51, 18 R335, R340). -/

namespace Sys2Proof.Machine

theorem step_of_fetch_next {s t : State} (h : s.fetch = .next t) : step s = .next t := by
  unfold step; rw [h]

section
variable {s : State} {p c : Nat} {l : List Item} {w : Word}

theorem State.fetch_check {cl : Cluster} (ha : s.agenda = .check p c cl :: l) : s.fetch = s.fetchCheck p c cl := by
  unfold State.fetch; rw [ha]

theorem State.fetch_handler (ha : s.agenda = .handler p c :: l) : s.fetch = s.fetchHandler p c := by
  unfold State.fetch; rw [ha]

/-- A word that fails a check of 03 R50 raises the class of that check, and its slot is skipped on resumption. -/
theorem step_check_fault {cl : Cluster} {k : Cls} (ha : s.agenda = .check p c cl :: l)
    (hw : s.wordAt p cl ((s.core c).cursor cl) = some w) (fault : s.wordFault p cl w = some k) :
    step s = .next (Claims.raised s.popItem p ⟨(s.part p).tick, k, (s.ctx p c cl).who, w, .void c cl⟩) := by
  have probed : raiseProbe (s.ctx p c cl) cl s.popItem (.trap k w) =
      Claims.raised s.popItem p ⟨(s.part p).tick, k, (s.ctx p c cl).who, w, .void c cl⟩ :=
    congrArg (s.popItem.modPart p) (funext fun q => by simp [Probe.trap, State.ctx])
  refine step_of_fetch_next ?_
  rw [State.fetch_check ha, ← probed]
  simp only [State.fetchCheck, hw, fault]

/-- A word that does not decode raises the class of what it decodes to. -/
theorem State.wordFault_decode {cl : Cluster} {d : NativeDecode} {k : Cls} (h : decodeNative cl w = d)
    (cls : nativeCls d = some k) : s.wordFault p cl w = some k := by
  subst h
  unfold State.wordFault
  split
  next i found => simp [found, nativeCls] at cls
  next => exact cls

/-- An index that names no entry of the object is a reserved field (03 R50). -/
theorem State.wordFault_index {cl : Cluster} {i : Instr} (h : decodeNative cl w = .ok i) (bad : s.indexBad p i = true) :
    s.wordFault p cl w = some .reservedField := by
  simp [State.wordFault, h, bad]

/-- In a handler run such an index traps also where the word's guard is false. -/
theorem step_handler_index {i : Instr} (ha : s.agenda = .handler p c :: l) (hw : s.handlerWord p c = some w)
    (h : decodeNative .s w = .ok i) (bad : s.indexBad p i = true) (skipped : s.guardTrue p c (wordFrame w) = false) :
    step s = .next (s.popItem.handlerTrap (s.handlerCtx p c) .reservedField w) := by
  refine step_of_fetch_next ?_
  rw [State.fetch_handler ha]
  simp [State.fetchHandler, hw, h, bad, skipped]

end

end Sys2Proof.Machine

namespace Sys2Proof.Proofs

open Sys2Proof.Machine

/-- Settles O1: the decoder runs on each word. -/
theorem decodesWorkedEncodings : Obligations.DecodesWorkedEncodings :=
  ⟨rfl, rfl, rfl, rfl, rfl, rfl, rfl, rfl, rfl, rfl, rfl, rfl⟩

/-- Settles O7: the fault of the word, check by check, is what its step raises. -/
theorem wordsThatDoNotDecodeTrap : Obligations.WordsThatDoNotDecodeTrap := by
  refine ⟨?_, ?_⟩
  · intro s p c w i l ha hw decoded bad skipped
    exact step_handler_index ha hw decoded bad skipped
  · intro s p c cl w l ha hw raises
    have raise : ∀ k, s.wordFault p cl w = some k → raises k := fun k => step_check_fault ha hw
    exact ⟨fun illegal => raise _ (State.wordFault_decode illegal rfl),
      fun reserved => raise _ (State.wordFault_decode reserved rfl),
      fun format => raise _ (State.wordFault_decode format rfl),
      fun combination => raise _ (State.wordFault_decode combination rfl),
      fun i decoded bad => raise _ (State.wordFault_index decoded bad)⟩

end Sys2Proof.Proofs
end

section
/-! PROOF. NOP, WAIT, TRAP, TEN and TRET: a word of the issue slot in the terms of `Claims.Issues`, the cursor that WAIT moves, and
the modes of the cores, which only TRET and TEN change when a handler run ends (05 R121, 06 R152, 18 R341). -/

namespace Sys2Proof.Machine

/-! ### A word that issues -/

theorem nativeWord_of_issues {cl : Cluster} {i : Instr} {f : Frame} {pr : Ctx → State → Probe} {e : Ctx → State → State}
    {s t : State} {x : Ctx} (h : Claims.Issues s f cl x t) : nativeWord cl i f pr e s = e x t := by
  obtain ⟨p, c, l, agenda, guard, kept⟩ := h
  exact nativeWord_issue agenda guard kept

theorem State.cluster_of_issues {cl : Cluster} {f : Frame} {s t : State} {x : Ctx} (h : Claims.Issues s f cl x t) :
    s.cluster = cl := by
  obtain ⟨p, c, l, agenda, -, -⟩ := h
  simp only [State.cluster, agenda]

theorem handler_of_issues {cl : Cluster} {f : Frame} {s t : State} {x : Ctx} (h : Claims.Issues s f cl x t) :
    x.handler = false := by
  obtain ⟨p, c, l, -, -, -⟩ := h
  rfl

theorem exec_nop_issues {cl : Cluster} {f : Frame} {s t : State} {x : Ctx} (h : Claims.Issues s f cl x t) :
    exec (.nop f) s = .next t := by
  show Host.Outcome.next (nativeWord s.cluster (.nop f) f _ _ s) = _
  rw [State.cluster_of_issues h, nativeWord_of_issues h]

theorem exec_trap_issues {f : Frame} {s t : State} {x : Ctx} (n : BitVec 46) (h : Claims.Issues s f .s x t) :
    exec (.trap f n) s = .next (t.addCond x.p ⟨x.t + 1, .softwareTrap, x.who, n.setWidth 64, .continue_⟩) :=
  congrArg Host.Outcome.next (nativeWord_of_issues h)

/-! ### WAIT (05 R121) -/

@[simp] theorem Core.cursor_setCursor (k : Core) (cl : Cluster) (q : Cursor) : (k.setCursor cl q).cursor cl = q :=
  tget_tput_self _ _ _ _

theorem clNum_inj {cl cl' : Cluster} (h : clNum cl = clNum cl') : cl = cl' := by
  cases cl <;> cases cl' <;> simp [clNum] at h ⊢

theorem Core.cursor_setCursor_ne (k : Core) {cl cl' : Cluster} (q : Cursor) (h : cl' ≠ cl) :
    (k.setCursor cl q).cursor cl' = k.cursor cl' :=
  tget_tput_ne _ _ _ (mt clNum_inj h)

/-- The next S word of a core issues `n` ticks later. -/
def Core.delay (n : Nat) (k : Core) : Core :=
  k.setCursor .s { k.cursor .s with next := (k.cursor .s).next.map (· + n) }

theorem exec_wait_issues {f : Frame} {s t : State} {x : Ctx} (n : BitVec 46) (h : Claims.Issues s f .s x t) :
    exec (.wait f n) s = .next (t.modCore x.c (Core.delay n.toNat)) := by
  show Host.Outcome.next (nativeWord .s (.wait f n) f _ _ s) = _
  rw [nativeWord_of_issues h, handler_of_issues h]
  rfl

theorem exec_wait_handler {f : Frame} {s : State} {p c : Nat} {l : List Item} (n : BitVec 46)
    (agenda : s.agenda = .handler p c :: l) (guard : s.guardTrue p c f = true) :
    exec (.wait f n) s = .next (s.popItem.modCore c fun k => { k with handler := k.handler + 1 }) :=
  congrArg Host.Outcome.next (nativeWord_handler agenda guard rfl rfl)

/-! ### What ends a trap keeps the modes of the cores -/

/-- Every core is in handler mode, and masks nested traps, in `t` where it does in `s`. -/
def ModesKept (s t : State) : Prop := ∀ c, (t.core c).hm = (s.core c).hm ∧ (t.core c).msk = (s.core c).msk

theorem ModesKept.refl (s : State) : ModesKept s s := fun _ => ⟨rfl, rfl⟩

theorem ModesKept.trans {s t u : State} (h : ModesKept s t) (i : ModesKept t u) : ModesKept s u :=
  fun c => ⟨(i c).1.trans (h c).1, (i c).2.trans (h c).2⟩

theorem ModesKept.modPart (s : State) (p : Nat) (f : Part → Part) : ModesKept s (s.modPart p f) := fun _ => ⟨rfl, rfl⟩

theorem ModesKept.addDue (s : State) (p : Nat) (d : Due) : ModesKept s (s.addDue p d) := fun _ => ⟨rfl, rfl⟩

theorem ModesKept.modCore (s : State) (c : Nat) (f : Core → Core) (h : ∀ k, (f k).hm = k.hm ∧ (f k).msk = k.msk) :
    ModesKept s (s.modCore c f) := by
  intro d
  by_cases hd : d = c
  · subst hd; rw [State.core_modCore]; exact h _
  · rw [State.core_modCore_ne s f hd]; exact ⟨rfl, rfl⟩

theorem ModesKept.foldl {α : Type} (f : State → α → State) (h : ∀ s a, ModesKept s (f s a)) (l : List α) (s : State) :
    ModesKept s (l.foldl f s) :=
  List.foldlRecOn l f (motive := ModesKept s) (.refl s) fun t kept a _ => kept.trans (h t a)

theorem Core.begin_modes (k : Core) (e : Nat) (f : Engine → Engine) : (k.begin e f).hm = k.hm ∧ (k.begin e f).msk = k.msk := by
  unfold Core.begin
  dsimp only
  split <;> exact ⟨rfl, rfl⟩

theorem Core.startNext_modes (k : Core) (e : Nat) : (k.startNext e).hm = k.hm ∧ (k.startNext e).msk = k.msk := by
  unfold Core.startNext
  dsimp only
  split
  · exact k.begin_modes e _
  · exact k.begin_modes e _
  · exact ⟨rfl, rfl⟩

theorem Core.abandon_modes (k : Core) (e prog : Nat) : (k.abandon e prog).hm = k.hm ∧ (k.abandon e prog).msk = k.msk := by
  unfold Core.abandon
  dsimp only
  split
  · exact k.startNext_modes e
  · exact ⟨rfl, rfl⟩

theorem ModesKept.unaim (s : State) (a : Aimed) : ModesKept s (s.unaim a) := by
  refine ModesKept.modCore s _ _ fun k => ?_
  split <;> exact ⟨rfl, rfl⟩

theorem ModesKept.applyFix (s : State) (p : Nat) (x : Fix) : ModesKept s (s.applyFix p x) := by
  cases x with
  | swap old new =>
    unfold State.applyFix
    dsimp only
    split
    · exact (ModesKept.modPart s _ _).trans (.addDue _ _ _)
    · exact .refl s
  | abandon c e prog => exact .modCore s c _ fun k => k.abandon_modes e prog
  | _ => exact fun _ => ⟨rfl, rfl⟩

theorem ModesKept.resumeTicks (s : State) (p : Nat) : ModesKept s (s.resumeTicks p) := by
  unfold State.resumeTicks
  split
  · exact .refl s
  next r _ =>
    have fixed : ModesKept s (r.fixes.foldl (fun s f => s.applyFix p f) (r.cursors.foldl State.unaim s)) :=
      (ModesKept.foldl _ ModesKept.unaim r.cursors s).trans (.foldl _ (fun t f => .applyFix t p f) r.fixes _)
    dsimp only
    split
    · exact fixed.trans (.modPart _ _ _)
    · exact (fixed.trans (.modPart _ _ _)).trans (.foldl _ (fun t q => .modPart t q _) _ _)

/-! ### TRET (06 R152, 18 R341) -/

/-- A core leaves handler mode. -/
def Core.leave (k : Core) : Core := { k with hm := false, msk := false }

section
variable (s : State) (p c : Nat)

theorem State.trapReturn_eq : s.trapReturn p c =
    if (s.part p).cores.any fun d => ((s.modCore c Core.leave).core d).hm then s.modCore c Core.leave
    else match (s.part p).trap with
      | some r => if r.localRoute && !r.kill then (s.modCore c Core.leave).resumeTicks p else s.modCore c Core.leave
      | none => s.modCore c Core.leave := rfl

/-- The core of the TRET is in handler mode no more, and masks no nested trap. -/
theorem State.trapReturn_modes : ((s.trapReturn p c).core c).hm = false ∧ ((s.trapReturn p c).core c).msk = false := by
  have left : ((s.modCore c Core.leave).core c).hm = false ∧ ((s.modCore c Core.leave).core c).msk = false := by
    rw [State.core_modCore]; exact ⟨rfl, rfl⟩
  rw [State.trapReturn_eq]
  split
  · exact left
  · split
    · split
      · obtain ⟨hm, msk⟩ := ModesKept.resumeTicks (s.modCore c Core.leave) p c
        exact ⟨hm.trans left.1, msk.trans left.2⟩
      · exact left
    · exact left

/-- While another core is in handler mode the trap stays. -/
theorem State.trapReturn_others (others : ∃ k ∈ (s.part p).cores, k ≠ c ∧ (s.core k).hm = true) :
    ((s.trapReturn p c).part p).trap = (s.part p).trap := by
  obtain ⟨k, member, ne, mode⟩ := others
  have stays : (s.part p).cores.any (fun d => ((s.modCore c Core.leave).core d).hm) = true :=
    List.any_eq_true.mpr ⟨k, member, by rw [State.core_modCore_ne s _ ne]; exact mode⟩
  rw [State.trapReturn_eq, if_pos stays]
  rfl

/-- The last core out of handler mode ends a trap that nothing else holds. -/
theorem State.trapReturn_last {r : Trap} (trap : (s.part p).trap = some r) (route : r.localRoute = true) (kill : r.kill = false)
    (fixes : r.fixes = []) (last : ∀ k ∈ (s.part p).cores, k ≠ c → (s.core k).hm = false) :
    ((s.trapReturn p c).part p).trap = none := by
  have left : (s.part p).cores.any (fun d => ((s.modCore c Core.leave).core d).hm) = false := by
    refine List.any_eq_false.mpr fun k member => ?_
    by_cases hk : k = c
    · subst hk; rw [State.core_modCore]; exact Bool.false_ne_true
    · rw [State.core_modCore_ne s _ hk, last k member hk]; exact Bool.false_ne_true
  rw [State.trapReturn_eq, left]
  simp [trap, route, kill, State.resumeTicks, fixes]

end

/-- A handler run goes on to its next word. -/
def Core.nextHandlerWord (k : Core) : Core := { k with handler := k.handler + 1 }

theorem exec_tret_handler {f : Frame} {s : State} {p c : Nat} {l : List Item} (agenda : s.agenda = .handler p c :: l)
    (guard : s.guardTrue p c f = true) : exec (.tret f) s =
      .next ((s.popItem.modCore c Core.nextHandlerWord).trapReturn p c) :=
  congrArg Host.Outcome.next (nativeWord_handler agenda guard rfl rfl)

theorem exec_ten_handler {f : Frame} {s : State} {p c : Nat} {l : List Item} (agenda : s.agenda = .handler p c :: l)
    (guard : s.guardTrue p c f = true) : exec (.ten f) s =
      .next (s.popItem.modCore c fun k => { k with handler := k.handler + 1, msk := false }) := by
  have run : exec (.ten f) s = .next ((s.popItem.modCore c fun k => { k with handler := k.handler + 1 }).modCore c
    fun k => { k with msk := false }) := congrArg Host.Outcome.next (nativeWord_handler agenda guard rfl rfl)
  rw [run, State.modCore_modCore]

end Sys2Proof.Machine

namespace Sys2Proof.Proofs

open Sys2Proof.Machine

/-- Settles O14: WAIT moves the cursor of its own cluster alone, and a TRET ends the trap where it is the last. -/
theorem nopWaitTrapReturnWords : Obligations.NopWaitTrapReturnWords := by
  refine ⟨⟨fun s f cl x t h => exec_nop_issues h, fun s f x t n h => ⟨exec_trap_issues n h, _, exec_wait_issues n h, ?_⟩,
    fun s f p c l n agenda guard => exec_wait_handler n agenda guard⟩, ?_⟩
  · simp only [State.core_modCore, Core.delay, Core.cursor_setCursor]
    refine ⟨trivial, ?_, ?_, ?_, fun c hc => State.core_modCore_ne t _ hc, rfl⟩
    all_goals exact Core.cursor_setCursor_ne _ _ (by decide)
  · intro s f p c l agenda guard
    refine ⟨exec_ten_handler agenda guard, _, exec_tret_handler agenda guard, ?_⟩
    have modes := ModesKept.modCore s.popItem c Core.nextHandlerWord fun _ => ⟨rfl, rfl⟩
    obtain ⟨hm, msk⟩ := State.trapReturn_modes (s.popItem.modCore c Core.nextHandlerWord) p c
    refine ⟨hm, msk, fun ⟨k, member, ne, mode⟩ => ?_, fun r trap route kill fixes last => ?_⟩
    · exact State.trapReturn_others _ p c ⟨k, member, ne, (modes k).1.trans mode⟩
    · exact State.trapReturn_last _ p c trap route kill fixes fun k member ne => (modes k).1.trans (last k member ne)

end Sys2Proof.Proofs
end

section
/-! PROOF. Plane transposition (04 R84, 08 R217, R218): which bit of four registers stands where after VPLN and VUNPL, and what
the two words land. -/

namespace Sys2Proof.Machine

/-! ### Bits of fields and of rows of elements -/

theorem testBit_field {b j : Nat} (n k : Nat) (h : j < b) : (n / 2 ^ k % 2 ^ b).testBit j = n.testBit (k + j) := by
  simp [Nat.testBit_div_two_pow, h, Nat.add_comm]

theorem testBit_bitAt (n i : Nat) : (bitAt n i).testBit 0 = n.testBit i := by
  simp [bitAt, Nat.testBit_eq_decide_div_mod_eq]

/-- Bit j of element i of a row. -/
theorem testBit_rowOfElems {b j : Nat} (l : List Nat) (i : Nat) (h : j < b) :
    (rowOfElems b l).testBit (b * i + j) = (l.getD i 0).testBit j := by
  rw [← testBit_field _ _ h, rowOfElems_div, Nat.testBit_mod_two_pow, decide_eq_true h, Bool.true_and]

theorem testBit_rowOfElems_map {b j i m : Nat} (f : Nat → Nat) (hi : i < m) (hj : j < b) :
    (rowOfElems b ((List.range m).map f)).testBit (b * i + j) = (f i).testBit j := by
  simp [testBit_rowOfElems _ _ hj, List.getD_eq_getElem?_getD, hi]

theorem rowOfElems_one_eq_sum (c : Nat → Nat) (m : Nat) :
    rowOfElems 1 ((List.range m).map c) = ∑ p ∈ Finset.range m, c p % 2 * 2 ^ p := by
  induction m generalizing c with
  | zero => rfl
  | succ m ih =>
    have tail : rowOfElems 1 ((List.range m).map fun p => c (p + 1)) = ∑ p ∈ Finset.range m, c (p + 1) % 2 * 2 ^ p := ih _
    simp only [List.range_succ_eq_map, List.map_cons, List.map_map, Function.comp_def, rowOfElems, tail,
      Finset.sum_range_succ', Finset.mul_sum]
    simp [pow_succ, Nat.add_comm, mul_left_comm, mul_comm]

/-! ### The planes of a group (04 R84) -/

theorem planeBit_eq (f : Fmt) (q : Nat) :
    planeBit f q = if f ∈ [Fmt.int8, .int4, .mxint8] then q else f.bits - 1 - q := by
  cases f <;> rfl

theorem planeBit_lt {f : Fmt} {q : Nat} (h : q < f.bits) : planeBit f q < f.bits := by
  rw [planeBit_eq]; split <;> omega

/-- The plane that holds a bit, and the bit that a plane holds, are found in the same way. -/
theorem planeBit_planeBit {f : Fmt} {q : Nat} (h : q < f.bits) : planeBit f (planeBit f q) = q := by
  simp only [planeBit_eq]; split <;> omega

theorem foldr_bits_eq (l : List Nat) (k : Nat) :
    l.foldr (fun e b => bitAt e k + 2 * b) 0 = rowOfElems 1 (l.map (bitAt · k)) := by
  induction l with
  | nil => rfl
  | cons e l ih => rw [List.foldr_cons, ih, List.map_cons, rowOfElems, pow_one, bitAt, Nat.mod_mod]

theorem planesOf_eq {f : Fmt} {l : List Nat} (h : l.length = 128) :
    planesOf f l = rowOfElems 128 ((List.range f.bits).map fun q => rowOfElems 1 (l.map (bitAt · (planeBit f q)))) := by
  have small (q : Nat) : rowOfElems 1 (l.map (bitAt · (planeBit f q))) % 2 ^ 128 =
      rowOfElems 1 (l.map (bitAt · (planeBit f q))) := by
    refine Nat.mod_eq_of_lt ?_
    simpa [h] using rowOfElems_lt 1 (l.map (bitAt · (planeBit f q)))
  unfold planesOf
  induction List.range f.bits with
  | nil => rfl
  | cons q qs ih => rw [List.foldr_cons, ih, List.map_cons, rowOfElems, small, foldr_bits_eq]

theorem testBit_planesOf {f : Fmt} {l : List Nat} {q i : Nat} (h : l.length = 128) (hq : q < f.bits) (hi : i < 128) :
    (planesOf f l).testBit (128 * q + i) = (l.getD i 0).testBit (planeBit f q) := by
  rw [planesOf_eq h, testBit_rowOfElems_map _ hq hi]
  have bit := testBit_rowOfElems (l.map (bitAt · (planeBit f q))) i Nat.one_pos
  rw [one_mul, Nat.add_zero] at bit
  have getD : (l.map (bitAt · (planeBit f q))).getD i 0 = bitAt (l.getD i 0) (planeBit f q) := by
    simp [List.getD_eq_getElem?_getD, h, hi]
  rw [bit, getD, testBit_bitAt]

theorem planeElem_eq_sum (f : Fmt) (n i : Nat) :
    planeElem f n i = ∑ q ∈ Finset.range f.bits, bitAt n (128 * q + i) * 2 ^ planeBit f q := by
  unfold planeElem
  induction f.bits with
  | zero => rfl
  | succ m ih => rw [List.range_succ, List.foldl_append, ih, Finset.sum_range_succ]; rfl

/-- An element of a group, bit by bit: bit p stands in the plane of p. -/
theorem planeElem_eq (f : Fmt) (n i : Nat) :
    planeElem f n i = rowOfElems 1 ((List.range f.bits).map fun p => bitAt n (128 * planeBit f p + i)) := by
  rw [planeElem_eq_sum, rowOfElems_one_eq_sum]
  refine Finset.sum_nbij' (planeBit f) (planeBit f) ?_ ?_ ?_ ?_ ?_ <;> intro q hq
  · exact Finset.mem_range.2 (planeBit_lt (Finset.mem_range.1 hq))
  · exact Finset.mem_range.2 (planeBit_lt (Finset.mem_range.1 hq))
  · exact planeBit_planeBit (Finset.mem_range.1 hq)
  · exact planeBit_planeBit (Finset.mem_range.1 hq)
  · simp [planeBit_planeBit (Finset.mem_range.1 hq), bitAt]

theorem testBit_planeElem {f : Fmt} {p : Nat} (n i : Nat) (hp : p < f.bits) :
    (planeElem f n i).testBit p = n.testBit (128 * planeBit f p + i) := by
  have bit := testBit_rowOfElems_map (fun p => bitAt n (128 * planeBit f p + i)) hp Nat.one_pos
  rw [one_mul, Nat.add_zero, ← planeElem_eq] at bit
  rw [bit, testBit_bitAt]

/-! ### Four registers (08 R217, R218) -/

theorem testBit_groupElems {f : Fmt} {i p : Nat} (n : Nat) (hi : i < 128) (hp : p < f.bits) :
    ((groupElems f n).getD i 0).testBit p = n.testBit (f.bits * i + p) := by
  rw [← testBit_field n _ hp]
  simp [groupElems, List.getD_eq_getElem?_getD, hi]

/-- A place within a group lies within its 128 elements. -/
theorem mul_add_lt_mul {b m i j : Nat} (hi : i < m) (hj : j < b) : b * i + j < b * m := by
  calc b * i + j < b * i + b := by omega
    _ = b * (i + 1) := by ring
    _ ≤ b * m := Nat.mul_le_mul_left b hi

theorem testBit_transposed {f : Fmt} {g i q : Nat} (n : Nat) (hg : g < 16 / f.bits) (hi : i < 128) (hq : q < f.bits) :
    (transposed f n).testBit (128 * f.bits * g + (128 * q + i)) =
      n.testBit (128 * f.bits * g + (f.bits * i + planeBit f q)) := by
  have inGroup : f.bits * i + planeBit f q < 128 * f.bits := by
    rw [Nat.mul_comm 128]; exact mul_add_lt_mul hi (planeBit_lt hq)
  rw [transposed, quadGroups, List.map_map, testBit_rowOfElems_map _ hg (mul_add_lt_mul hq hi), Function.comp_apply,
    testBit_planesOf (by simp [groupElems]) hq hi, testBit_groupElems _ hi (planeBit_lt hq), testBit_field _ _ inGroup]

theorem testBit_untransposed {f : Fmt} {g i p : Nat} (n : Nat) (hg : g < 16 / f.bits) (hi : i < 128) (hp : p < f.bits) :
    (untransposed f n).testBit (128 * f.bits * g + (f.bits * i + p)) =
      n.testBit (128 * f.bits * g + (128 * planeBit f p + i)) := by
  have inGroup : f.bits * i + p < 128 * f.bits := by
    rw [Nat.mul_comm 128]; exact mul_add_lt_mul hi hp
  rw [untransposed, quadGroups, List.map_map, testBit_rowOfElems_map _ hg inGroup, Function.comp_apply,
    testBit_rowOfElems_map _ hi hp, testBit_planeElem _ _ hp, testBit_field _ _ (mul_add_lt_mul (planeBit_lt hp) hi)]

theorem Fmt.bits_mul_groups {f : Fmt} (h : f.isPlane = true) : f.bits * (16 / f.bits) = 16 := by
  revert h; cases f <;> decide

theorem untransposed_lt {f : Fmt} (h : f.isPlane = true) (n : Nat) : untransposed f n < 2 ^ 2048 := by
  have bound := rowOfElems_lt (128 * f.bits) ((quadGroups f n).map fun g => rowOfElems f.bits ((List.range 128).map (planeElem f g)))
  rw [List.length_map, quadGroups, List.length_map, List.length_range, Nat.mul_assoc, Fmt.bits_mul_groups h] at bound
  exact bound

/-- Every bit of four registers is a bit of one element of one group. -/
theorem exists_place {f : Fmt} {k : Nat} (h : f.isPlane = true) (hk : k < 2048) :
    ∃ g i p, g < 16 / f.bits ∧ i < 128 ∧ p < f.bits ∧ k = 128 * f.bits * g + (f.bits * i + p) := by
  have size := Fmt.bits_mul_groups h
  have pos : 0 < f.bits := Nat.pos_of_ne_zero fun hz => by simp [hz] at size
  refine ⟨k / f.bits / 128, k / f.bits % 128, k % f.bits, ?_, Nat.mod_lt _ (by norm_num), Nat.mod_lt _ pos, ?_⟩
  · rw [Nat.div_div_eq_div_mul, Nat.div_lt_iff_lt_mul (by omega)]
    calc k < 2048 := hk
      _ = f.bits * (16 / f.bits) * 128 := by rw [size]
      _ = 16 / f.bits * (f.bits * 128) := by ring
  · calc k = f.bits * (k / f.bits) + k % f.bits := (Nat.div_add_mod _ _).symm
      _ = f.bits * (128 * (k / f.bits / 128) + k / f.bits % 128) + k % f.bits := by rw [Nat.div_add_mod (k / f.bits)]
      _ = _ := by ring

/-- Transposing and transposing back gives the four registers again. -/
theorem untransposed_transposed {f : Fmt} {n : Nat} (h : f.isPlane = true) (hn : n < 2 ^ 2048) :
    untransposed f (transposed f n) = n := by
  refine Nat.eq_of_testBit_eq fun k => ?_
  by_cases hk : k < 2048
  · obtain ⟨g, i, p, hg, hi, hp, rfl⟩ := exists_place h hk
    rw [testBit_untransposed _ hg hi hp, testBit_transposed _ hg hi (planeBit_lt hp), planeBit_planeBit hp]
  · have big : 2 ^ 2048 ≤ 2 ^ k := Nat.pow_le_pow_right (by norm_num) (by omega)
    rw [Nat.testBit_lt_two_pow (lt_of_lt_of_le (untransposed_lt h _) big), Nat.testBit_lt_two_pow (lt_of_lt_of_le hn big)]

/-- The four registers from an aligned one, in order. -/
theorem map_quad {α : Type} (g : Nat → α) {a : Nat} (h : a % 4 = 0) (ha : a < 32) :
    (List.range 4).map (fun i => g ((a + i) % 32)) = [g a, g (a + 1), g (a + 2), g (a + 3)] := by
  have index (i : Nat) (hi : i < 4) : (a + i) % 32 = a + i := Nat.mod_eq_of_lt (by omega)
  show [g ((a + 0) % 32), g ((a + 1) % 32), g ((a + 2) % 32), g ((a + 3) % 32)] = _
  rw [index 0 (by decide), index 1 (by decide), index 2 (by decide), index 3 (by decide), Nat.add_zero]

theorem Core.quadValue_eq (k : Core) {a : Nat} (h : a % 4 = 0) (ha : a < 32) :
    k.quadValue a = (k.getV a).v.toNat + 2 ^ 512 * ((k.getV (a + 1)).v.toNat +
      2 ^ 512 * ((k.getV (a + 2)).v.toNat + 2 ^ 512 * (k.getV (a + 3)).v.toNat)) := by
  have small (v : Row) : v.toNat % 2 ^ 512 = v.toNat := Nat.mod_eq_of_lt v.isLt
  rw [Core.quadValue, map_quad (fun r => (k.getV r).v.toNat) h ha]
  simp only [rowOfElems, small, Nat.mul_zero, Nat.add_zero]

theorem Core.quadPoison_eq (k : Core) {a : Nat} (h : a % 4 = 0) (ha : a < 32) :
    k.quadPoison a = ((k.getV a).p || (k.getV (a + 1)).p || (k.getV (a + 2)).p || (k.getV (a + 3)).p) := by
  have any : k.quadPoison a = ((List.range 4).map fun i => (k.getV ((a + i) % 32)).p).any id := by
    rw [List.any_map]; rfl
  rw [any, map_quad (fun r => (k.getV r).p) h ha]
  simp [Bool.or_assoc]

/-- Four registers from an aligned one take the parts of a number, all at one tick. -/
def State.laterQuad (t : State) (x : Ctx) (tick d m : Nat) (p : Bool) : State :=
  ((((t.later x tick (.v d (BitVec.ofNat 512 m) fullMask p)).later x tick
    (.v (d + 1) (BitVec.ofNat 512 (m / 2 ^ 512)) fullMask p)).later x tick
    (.v (d + 2) (BitVec.ofNat 512 (m / 2 ^ 1024)) fullMask p)).later x tick
    (.v (d + 3) (BitVec.ofNat 512 (m / 2 ^ 1536)) fullMask p))

theorem vecQuad_of_issues {i : Instr} {f : Frame} {d a : VReg} {g : Nat → Nat} {s t : State} {x : Ctx}
    (h : Claims.Issues s f .v x t) (hd : d.val % 4 = 0) :
    vecQuad i f d a g s =
      t.laterQuad x (x.t + 5) d.val (g ((t.core x.c).quadValue a.val)) ((t.core x.c).quadPoison a.val) := by
  have index (j : Nat) (hj : j < 4) : (d.val + j) % 32 = d.val + j := Nat.mod_eq_of_lt (by omega)
  rw [vecQuad, nativeWord_of_issues h]
  simp only [show List.range 4 = [0, 1, 2, 3] from rfl, List.foldl_cons, List.foldl_nil, index 1 (by decide),
    index 2 (by decide), index 3 (by decide), Nat.add_zero, Nat.mod_eq_of_lt d.isLt, Nat.mul_zero, pow_zero, Nat.div_one,
    Nat.mul_one, State.laterQuad]

end Sys2Proof.Machine

namespace Sys2Proof.Proofs

open Sys2Proof.Machine

/-- Settles O36: both words move the bits of a group's planes to and from its elements, place by place. -/
theorem planeTransposition : Obligations.PlaneTransposition := by
  refine ⟨fun s f x t d a fmt h ha hd => ?_, fun fmt n g i q _ hg hi hq => ?_, fun fmt n h hn => untransposed_transposed h hn⟩
  · have value := (t.core x.c).quadValue_eq ha a.isLt
    have poison := (t.core x.c).quadPoison_eq ha a.isLt
    have run (j : Instr) (g : Nat → Nat) := vecQuad_of_issues (i := j) (a := a) (g := g) h hd
    simp only [value, poison] at run
    exact ⟨congrArg Host.Outcome.next (run _ _), congrArg Host.Outcome.next (run _ _)⟩
  · have element : fmt.bits * (128 * g + i) + planeBit fmt q = 128 * fmt.bits * g + (fmt.bits * i + planeBit fmt q) := by ring
    have plane : 128 * (fmt.bits * g) = 128 * fmt.bits * g := (Nat.mul_assoc ..).symm
    simp only [← planeBit_eq, plane, element]
    refine ⟨testBit_transposed n hg hi hq, ?_⟩
    rw [testBit_untransposed n hg hi (planeBit_lt hq), planeBit_planeBit hq]

end Sys2Proof.Proofs
end

section
/-! PROOF. Rounding (04 R59, R65 to R68): how the patterns of a float format lie in order, the choice between two neighbours, and
that RND of a number into a format is the rounding that the statements speak of. -/

namespace Sys2Proof.Machine

open Sys2Proof.Claims

/-! ### Rounding to an integer (04 R65, R68) -/

/-- The choice between two neighbours does not depend on the unit they are measured in. -/
theorem away_scale {c : Nat} (hc : 0 < c) (rm : Rm) (u : Nat) (neg odd : Bool) (x lo hi : Nat) :
    away rm u neg odd (c * x) (c * lo) (c * hi) = away rm u neg odd x lo hi := by
  have twice : c * lo + c * hi = c * (lo + hi) ∧ 2 * (c * x) = c * (2 * x) := ⟨(Nat.mul_add ..).symm, Nat.mul_left_comm ..⟩
  have nearer : (c * lo + c * hi < 2 * (c * x)) = (lo + hi < 2 * x) := by
    rw [twice.1, twice.2, Nat.mul_lt_mul_left hc]
  have tie : (c * lo + c * hi = 2 * (c * x)) = (lo + hi = 2 * x) := by
    rw [twice.1, twice.2, Nat.mul_right_inj hc.ne']
  have nearest : (c * lo + c * hi ≤ 2 * (c * x)) = (lo + hi ≤ 2 * x) := by
    rw [twice.1, twice.2, Nat.mul_le_mul_left_iff hc]
  have drawn (a b : Nat) : ((2 * u + 1) * (c * hi - c * lo) < 2 ^ 25 * (c * a - c * b)) =
      ((2 * u + 1) * (hi - lo) < 2 ^ 25 * (a - b)) := by
    rw [← Nat.mul_sub, ← Nat.mul_sub, Nat.mul_left_comm _ c, Nat.mul_left_comm _ c, Nat.mul_lt_mul_left hc]
  cases rm <;> simp only [away, nearer, tie, nearest, drawn]

/-- Whether X, in units of D, is rounded up from n: it is not n, and the mode takes it away from zero. -/
def roundsUp (rm : Rm) (u : Nat) (neg : Bool) (n X D : Nat) : Bool :=
  decide (n * D < X) && away rm u neg (decide (n % 2 = 1)) X (n * D) ((n + 1) * D)

theorem roundsUp_scale {c : Nat} (hc : 0 < c) (rm : Rm) (u : Nat) (neg : Bool) (n X D : Nat) :
    roundsUp rm u neg n (c * X) (c * D) = roundsUp rm u neg n X D := by
  rw [roundsUp, Nat.mul_left_comm n c, Nat.mul_left_comm (n + 1) c, away_scale hc]
  simp [roundsUp, Nat.mul_lt_mul_left hc]

theorem roundMag_of_nonneg {s : Int} (hs : 0 ≤ s) (neg : Bool) (m : Nat) (rm : Rm) (u : Nat) :
    roundMag neg m s rm u = (m * 2 ^ s.toNat, false) := if_pos hs

theorem roundMag_of_neg {s : Int} {d : Nat} (hs : s < 0) (hd : 2 ^ (-s).toNat = d) (neg : Bool) (m : Nat) (rm : Rm) (u : Nat) :
    roundMag neg m s rm u = (m / d + (roundsUp rm u neg (m / d) m d).toNat, decide (m / d * d < m)) := by
  have pos : 0 < d := hd ▸ Nat.two_pow_pos _
  have split := Nat.div_add_mod' m d
  have small := Nat.mod_lt m pos
  have next : (m / d + 1) * d = m / d * d + d := Nat.succ_mul ..
  rw [roundMag, if_neg (not_le.2 hs), hd]
  by_cases whole : m % d = 0
  · have same : m / d * d = m := by omega
    simp [whole, roundsUp, same]
  · have between : m / d * d < m := by omega
    have nearer : (m / d * d + (m / d * d + d) < 2 * m) = (d < 2 * (m % d)) := propext (by omega)
    have tie : (m / d * d + (m / d * d + d) = 2 * m) = (2 * (m % d) = d) := propext (by omega)
    have nearest : (m / d * d + (m / d * d + d) ≤ 2 * m) = (d ≤ 2 * (m % d)) := propext (by omega)
    have below : m - m / d * d = m % d := by omega
    have above : m / d * d + d - m = d - m % d := by omega
    have pick {b c : Bool} (h : b = c) : (if b = true then m / d + 1 else m / d, true) = (m / d + c.toNat, true) := by
      subst h; cases b <;> rfl
    simp only [roundsUp, whole, if_false, decide_eq_true between, Bool.true_and, next]
    refine pick ?_
    cases rm with
    | rne => simp only [away, nearer, tie, beq_eq_decide]
    | rna => simp only [away, nearest]
    | sto => simp only [away, below, above, Nat.add_sub_cancel_left, Nat.mul_comm (2 ^ 25)]
    | _ => rfl

/-- m × 2^(k - W), which is X / D, rounded between its neighbours n and n + 1. -/
theorem roundMag_eq {m k W X D n : Nat} (value : m * 2 ^ k * D = X * 2 ^ W) (hD : 0 < D) (lo : n * D ≤ X) (hi : X < (n + 1) * D)
    (neg : Bool) (rm : Rm) (u : Nat) :
    roundMag neg m ((k : Int) - W) rm u = (n + (roundsUp rm u neg n X D).toNat, decide (n * D < X)) := by
  by_cases hk : W ≤ k
  · obtain ⟨j, rfl⟩ := Nat.exists_eq_add_of_le hk
    have whole : m * 2 ^ j * D = X := by
      refine Nat.eq_of_mul_eq_mul_right (Nat.two_pow_pos W) (Eq.trans ?_ value)
      rw [pow_add]; ring
    have quotient : m * 2 ^ j = n := by
      refine Nat.le_antisymm (Nat.lt_succ_iff.1 (Nat.lt_of_mul_lt_mul_right (a := D) ?_)) (Nat.le_of_mul_le_mul_right ?_ hD)
      · rwa [whole]
      · rwa [whole]
    have same : n * D = X := by rw [← quotient, whole]
    rw [roundMag_of_nonneg (by omega), show ((W + j : Nat) : Int) - W = j by omega, Int.toNat_natCast, quotient]
    simp [roundsUp, same]
  · obtain ⟨j, rfl⟩ := Nat.exists_eq_add_of_lt (not_le.1 hk)
    set d := 2 ^ (j + 1) with hd
    have pos : 0 < d := Nat.two_pow_pos _
    have scaled : D * m = d * X := by
      refine Nat.eq_of_mul_eq_mul_right (Nat.two_pow_pos k) ?_
      calc D * m * 2 ^ k = m * 2 ^ k * D := by ring
        _ = X * 2 ^ (k + j + 1) := value
        _ = d * X * 2 ^ k := by rw [hd, Nat.add_assoc, pow_add]; ring
    have quotient : m / d = n := by
      refine Nat.div_eq_of_lt_le (Nat.le_of_mul_le_mul_left ?_ hD) (Nat.lt_of_mul_lt_mul_left (a := D) ?_)
      · calc D * (n * d) = d * (n * D) := by ring
          _ ≤ D * m := scaled ▸ Nat.mul_le_mul_left d lo
      · calc D * m = d * X := scaled
          _ < d * ((n + 1) * D) := Nat.mul_lt_mul_of_pos_left hi pos
          _ = D * ((n + 1) * d) := by ring
    have inexact : (n * d < m) = (n * D < X) := by
      have reach : D * (n * d) = d * (n * D) := by ring
      rw [← Nat.mul_lt_mul_left hD, scaled, reach, Nat.mul_lt_mul_left pos]
    rw [roundMag_of_neg (by omega) (d := d) (by rw [hd]; congr 1; omega), quotient, ← roundsUp_scale hD, scaled, Nat.mul_comm D d,
      roundsUp_scale pos]
    simp only [inexact]

/-! ### Patterns in order (04 R59, R62) -/

/-- The digits of a pattern without its sign, hidden bit included. -/
def significand (fb n : Nat) : Nat := if n / 2 ^ fb = 0 then n % 2 ^ fb else 2 ^ fb + n % 2 ^ fb

/-- The power of two that a digit of a pattern counts, in units. -/
def digitShift (fb n : Nat) : Nat := n / 2 ^ fb - 1

theorem units_eq (fb n : Nat) : units fb n = significand fb n * 2 ^ digitShift fb n := by
  rw [units, significand, digitShift]
  split
  case isTrue h => rw [h, Nat.zero_sub, pow_zero, Nat.mul_one]
  case isFalse => rfl

theorem significand_add_digitShift (fb n : Nat) : significand fb n + digitShift fb n * 2 ^ fb = n := by
  have split := Nat.div_add_mod' n (2 ^ fb)
  rw [significand, digitShift]
  split
  case isTrue h => rw [h] at split ⊢; omega
  case isFalse h =>
    obtain ⟨e, he⟩ := Nat.exists_eq_succ_of_ne_zero h
    rw [he, Nat.succ_mul] at split
    rw [he, Nat.succ_sub_one]
    omega

theorem significand_lt (fb n : Nat) : significand fb n < 2 ^ (fb + 1) := by
  have small := Nat.mod_lt n (Nat.two_pow_pos fb)
  rw [significand, pow_succ]
  split <;> omega

theorem le_significand {fb n : Nat} (h : 2 ^ fb ≤ n) : 2 ^ fb ≤ significand fb n := by
  rw [significand, if_neg (Nat.div_pos h (Nat.two_pow_pos fb)).ne']
  exact Nat.le_add_right ..

theorem digitShift_of_lt {fb n : Nat} (h : n < 2 ^ fb) : digitShift fb n = 0 := by
  rw [digitShift, Nat.div_eq_of_lt h]

theorem significand_of_lt {fb n : Nat} (h : n < 2 ^ fb) : significand fb n = n := by
  rw [significand, if_pos (Nat.div_eq_of_lt h), Nat.mod_eq_of_lt h]

/-- The next pattern counts one digit more. -/
theorem units_succ (fb n : Nat) : units fb (n + 1) = (significand fb n + 1) * 2 ^ digitShift fb n := by
  have split := Nat.div_add_mod' n (2 ^ fb)
  have small := Nat.mod_lt n (Nat.two_pow_pos fb)
  by_cases last : n % 2 ^ fb + 1 = 2 ^ fb
  · have next : n + 1 = (n / 2 ^ fb + 1) * 2 ^ fb := by rw [Nat.succ_mul]; omega
    have fields : (n + 1) / 2 ^ fb = n / 2 ^ fb + 1 ∧ (n + 1) % 2 ^ fb = 0 := by
      rw [next]; exact ⟨Nat.mul_div_cancel _ (Nat.two_pow_pos fb), Nat.mul_mod_left ..⟩
    rw [units, fields.1, fields.2, if_neg (Nat.succ_ne_zero _), significand, digitShift]
    split
    case isTrue h => rw [h, last]; rfl
    case isFalse h =>
      obtain ⟨e, he⟩ := Nat.exists_eq_succ_of_ne_zero h
      rw [Nat.add_assoc (2 ^ fb), last, he, Nat.succ_sub_one, Nat.succ_eq_add_one, Nat.add_sub_cancel, pow_succ]
      ring
  · have fields : (n + 1) / 2 ^ fb = n / 2 ^ fb ∧ (n + 1) % 2 ^ fb = n % 2 ^ fb + 1 := by
      have next : n + 1 = n % 2 ^ fb + 1 + n / 2 ^ fb * 2 ^ fb := by omega
      have fits : n % 2 ^ fb + 1 < 2 ^ fb := by omega
      constructor
      · conv_lhs => rw [next, Nat.add_mul_div_right _ _ (Nat.two_pow_pos fb), Nat.div_eq_of_lt fits, Nat.zero_add]
      · conv_lhs => rw [next, Nat.add_mul_mod_self_right, Nat.mod_eq_of_lt fits]
    rw [units_eq, significand, significand, digitShift, digitShift, fields.1, fields.2]
    split <;> rfl

theorem units_add_toNat (fb n : Nat) (up : Bool) :
    units fb (n + up.toNat) = (significand fb n + up.toNat) * 2 ^ digitShift fb n := by
  cases up
  · exact units_eq fb n
  · exact units_succ fb n

theorem units_strictMono (fb : Nat) : StrictMono (units fb) := by
  refine strictMono_nat_of_lt_succ fun n => ?_
  rw [units_succ, units_eq]
  exact Nat.mul_lt_mul_of_pos_right (Nat.lt_succ_self _) (Nat.two_pow_pos _)

/-- Every magnitude lies at a pattern or between two of them. -/
theorem exists_neighbours (fb x : Nat) {s : Nat} (hs : 0 < s) : ∃ n, units fb n * s ≤ x ∧ x < units fb (n + 1) * s := by
  have grows (n : Nat) : n ≤ units fb n * s := (units_strictMono fb).le_apply.trans (Nat.le_mul_of_pos_right _ hs)
  refine ⟨Nat.findGreatest (fun n => units fb n * s ≤ x) x, ?_, ?_⟩
  · exact Nat.findGreatest_spec (P := fun n => units fb n * s ≤ x) (Nat.zero_le x) (by simp [units])
  · by_contra more
    have greatest := Nat.le_findGreatest (P := fun n => units fb n * s ≤ x) ((grows _).trans (not_lt.1 more)) (not_lt.1 more)
    exact Nat.not_succ_le_self _ greatest

theorem patUnits_eq (eb fb bias : Nat) : patUnits ⟨eb, fb, bias⟩ = units fb := rfl

theorem units_of_normal (fb : Nat) : units fb (2 ^ fb) = 2 ^ fb := by
  simp [units]

theorem packFloat_eq {eb fb bias one q g : Nat} (hone : bias + fb = one + 1) (hq : q ≤ 2 ^ (fb + 1)) (hg : q < 2 ^ fb → g = 0) :
    packFloat ⟨eb, fb, bias⟩ q ((g : Int) - one) = q + g * 2 ^ fb := by
  rw [pow_succ] at hq
  unfold packFloat
  simp only [pow_succ]
  split
  case isTrue h => rw [hg h, Nat.zero_mul, Nat.add_zero]
  case isFalse h =>
    split
    case isTrue top =>
      have exponent : ((g : Int) - one + 1 + fb + bias).toNat = g + 2 := by omega
      rw [exponent, Nat.le_antisymm hq top]; ring
    case isFalse =>
      have exponent : ((g : Int) - one + fb + bias).toNat = g + 1 := by omega
      rw [exponent, Nat.succ_mul]; omega

/-- No flag, in the spelling of the model. -/
theorem Flags.or_zero (a : Flags) : a ||| 0 = a := BitVec.or_zero

theorem Flags.zero_or (a : Flags) : 0 ||| a = a := BitVec.zero_or

theorem roundsUp_of_le {n X D : Nat} (h : X ≤ n * D) (rm : Rm) (u : Nat) (neg : Bool) : roundsUp rm u neg n X D = false := by
  rw [roundsUp, decide_eq_false (not_lt.2 h), Bool.false_and]

theorem lt_of_roundsUp {n X D : Nat} {rm : Rm} {u : Nat} {neg : Bool} (h : roundsUp rm u neg n X D = true) : n * D < X :=
  of_decide_eq_true (Bool.and_eq_true_iff.1 h).1

/-- A pattern below the one that a magnitude is rounded to lies below the magnitude. -/
theorem units_lt_of_roundsUp {fb n t x s : Nat} {rm : Rm} {u : Nat} {neg : Bool} (hs : 0 < s) (lo : units fb n * s ≤ x)
    (h : t < n + (roundsUp rm u neg (significand fb n) x (2 ^ digitShift fb n * s)).toNat) : units fb t * s < x := by
  cases up : roundsUp rm u neg (significand fb n) x (2 ^ digitShift fb n * s) with
  | false =>
    rw [up] at h
    exact (Nat.mul_lt_mul_of_pos_right (units_strictMono fb h) hs).trans_le lo
  | true =>
    rw [up] at h
    have inexact := lt_of_roundsUp up
    rw [← Nat.mul_assoc, ← units_eq] at inexact
    exact (Nat.mul_le_mul_right s ((units_strictMono fb).monotone (Nat.lt_succ_iff.1 h))).trans_lt inexact

theorem packFloat_carry (eb fb bias : Nat) (g : Int) :
    packFloat ⟨eb, fb, bias⟩ (2 ^ (fb + 1)) g = (g + 1 + fb + bias).toNat * 2 ^ fb := by
  have less : ¬ 2 ^ (fb + 1) < 2 ^ fb := not_lt.2 (Nat.pow_le_pow_right (by norm_num) (Nat.le_succ fb))
  simp [packFloat, less]

/-! ### The exponent of a magnitude -/

/-- The exponent of m × 2^(k - W), which is X / D, is at least a where X / D reaches 2^a. -/
theorem le_exponent_iff {m k W X D : Nat} (hm : 0 < m) (value : m * 2 ^ k * D = X * 2 ^ W) (hD : 0 < D) (a : Nat) :
    (a : Int) ≤ (k : Int) - W + bitLen m - 1 ↔ 2 ^ a * D ≤ X := by
  have length : bitLen m = Nat.log2 m + 1 := if_neg hm.ne'
  have low : 2 ^ Nat.log2 m ≤ m := Nat.log2_self_le hm.ne'
  have high : m < 2 ^ (Nat.log2 m + 1) := Nat.lt_log2_self
  have reach : 2 ^ a * D ≤ X ↔ 2 ^ (a + W) ≤ m * 2 ^ k := by
    rw [← Nat.mul_le_mul_right_iff (Nat.two_pow_pos W), ← value, Nat.mul_right_comm, ← pow_add,
      Nat.mul_le_mul_right_iff hD]
  rw [reach, length]
  constructor
  · intro h
    calc 2 ^ (a + W) ≤ 2 ^ (Nat.log2 m + k) := Nat.pow_le_pow_right (by norm_num) (by omega)
      _ = 2 ^ Nat.log2 m * 2 ^ k := pow_add ..
      _ ≤ m * 2 ^ k := Nat.mul_le_mul_right _ low
  · intro h
    have less : 2 ^ (a + W) < 2 ^ (Nat.log2 m + 1 + k) := by
      calc 2 ^ (a + W) ≤ m * 2 ^ k := h
        _ < 2 ^ (Nat.log2 m + 1) * 2 ^ k := Nat.mul_lt_mul_of_pos_right high (Nat.two_pow_pos k)
        _ = _ := (pow_add ..).symm
    have exponents := (Nat.pow_lt_pow_iff_right (by norm_num)).1 less
    omega

theorem exponent_eq {m k W X D : Nat} (hm : 0 < m) (value : m * 2 ^ k * D = X * 2 ^ W) (hD : 0 < D) {a : Nat}
    (lo : 2 ^ a * D ≤ X) (hi : X < 2 ^ (a + 1) * D) : (k : Int) - W + bitLen m - 1 = a := by
  have atLeast := (le_exponent_iff hm value hD a).2 lo
  have below := mt (le_exponent_iff hm value hD (a + 1)).1 (not_le.2 hi)
  omega

/-- Whether t units lie below m × 2^(k - W), as the model asks it of integers. -/
theorem below_iff {m k W X D : Nat} (value : m * 2 ^ k * D = X * 2 ^ W) (hD : 0 < D) (t : Nat) :
    (if 0 ≤ (k : Int) - W then decide (t < m * 2 ^ ((k : Int) - W).toNat) else decide (t * 2 ^ (-((k : Int) - W)).toNat < m)) =
      decide (t * D < X) := by
  have scaled : t * D < X ↔ t * 2 ^ W < m * 2 ^ k := by
    rw [← Nat.mul_lt_mul_right (Nat.two_pow_pos W), ← value, Nat.mul_right_comm, Nat.mul_lt_mul_right hD]
  simp only [scaled]
  by_cases hk : W ≤ k
  · obtain ⟨j, rfl⟩ := Nat.exists_eq_add_of_le hk
    rw [if_pos (by omega), show ((W + j : Nat) : Int) - W = j by omega, Int.toNat_natCast, Nat.add_comm W, pow_add,
      ← Nat.mul_assoc]
    simp only [Nat.mul_lt_mul_right (Nat.two_pow_pos W)]
  · obtain ⟨j, rfl⟩ := Nat.exists_eq_add_of_le (not_le.1 hk).le
    rw [if_neg (by omega), show -((k : Int) - ((k + j : Nat) : Int)) = j by omega, Int.toNat_natCast, Nat.add_comm k, pow_add,
      ← Nat.mul_assoc]
    simp only [Nat.mul_lt_mul_right (Nat.two_pow_pos k)]

/-- Whether a magnitude of x / s units below the smallest normal one reaches it at full precision (04 R67). -/
def reachesNormal (fb : Nat) (rm : Rm) (u : Nat) (neg : Bool) (x s : Nat) : Bool :=
  decide (rm ≠ .sto) && roundsUp rm u neg (2 ^ (fb + 1) - 1) (2 * x) s

/-! ### Rounding into a float format (04 R65 to R68) -/

/-- A significand of fb + 1 digits, each of 2^g units, says what the exponent is. -/
theorem exponent_of_digits {m k W x s fb q g : Nat} (hm : 0 < m) (value : m * 2 ^ k * s = x * 2 ^ W) (hs : 0 < s)
    (digits : 2 ^ fb ≤ q) (digitsLt : q < 2 ^ (fb + 1)) (lo : q * (2 ^ g * s) ≤ x) (hi : x < (q + 1) * (2 ^ g * s)) :
    (k : Int) - W + bitLen m - 1 = (fb + g : Nat) := by
  have reach : 2 ^ (fb + g) * s ≤ x := by
    calc 2 ^ (fb + g) * s = 2 ^ fb * (2 ^ g * s) := by ring
      _ ≤ q * (2 ^ g * s) := Nat.mul_le_mul_right _ digits
      _ ≤ x := lo
  have below : x < 2 ^ (fb + g + 1) * s := by
    calc x < (q + 1) * (2 ^ g * s) := hi
      _ ≤ 2 ^ (fb + 1) * (2 ^ g * s) := Nat.mul_le_mul_right _ digitsLt
      _ = 2 ^ (fb + g + 1) * s := by ring
  exact exponent_eq hm value hs reach below

/-- STO overflows by the magnitude itself, every other mode by the pattern it is rounded to (04 R67). -/
theorem overflow_eq {fb t r x s : Nat} {rm : Rm} (h : t < r → units fb t * s < x) :
    (if (rm == .sto) = true then decide (units fb t * s < x) else decide (t < r)) =
      decide (t < r ∨ rm = .sto ∧ units fb t * s < x) := by
  by_cases sto : rm = .sto
  · simp [sto, or_iff_right_of_imp h]
  · simp [sto]

section

variable {f : Fmt} {eb fb bias one : Nat} (hone : bias + fb = one + 1)
variable {m k W x s : Nat} (hm : 0 < m) (hs : 0 < s) (value : m * 2 ^ (k + one) * s = x * 2 ^ W)
include hone hm hs value

/-- A magnitude of x / s units at or above the smallest normal one goes to a neighbour, or beyond the largest finite value. -/
theorem rndFinite_of_normal {n : Nat} (lo : units fb n * s ≤ x) (hi : x < units fb (n + 1) * s) (normal : 2 ^ fb * s ≤ x)
    (noSub neg : Bool) (rm : Rm) (u : Nat) : rndFinite f ⟨eb, fb, bias⟩ noSub neg m ((k : Int) - W) rm u =
      let top := maxFinite f ⟨eb, fb, bias⟩
      let up := roundsUp rm u neg (significand fb n) x (2 ^ digitShift fb n * s)
      let sign := if neg then 2 ^ (eb + fb) else 0
      if top < n + up.toNat ∨ rm = .sto ∧ units fb top * s < x then
        (sign + overflowPat f ⟨eb, fb, bias⟩ neg rm, flagOF ||| flagNX)
      else (sign + (n + up.toNat), if units fb n * s < x then flagNX else 0) := by
  have atLeast : 2 ^ fb ≤ n := by
    have less : units fb (2 ^ fb) * s < units fb (n + 1) * s := by
      rw [units_of_normal]; exact normal.trans_lt hi
    exact Nat.lt_succ_iff.1 ((units_strictMono fb).lt_iff_lt.1 (Nat.lt_of_mul_lt_mul_right less))
  have digits := le_significand atLeast
  have digitsLt := significand_lt fb n
  have pattern := significand_add_digitShift fb n
  have above (up : Bool) (t : Nat) : (units fb t < (significand fb n + up.toNat) * 2 ^ digitShift fb n) = (t < n + up.toNat) := by
    rw [← units_add_toNat]; exact propext (units_strictMono fb).lt_iff_lt
  have beneath (t : Nat) := units_lt_of_roundsUp (rm := rm) (u := u) (neg := neg) (t := t) hs lo
  rw [units_succ, Nat.mul_assoc] at hi
  rw [units_eq, Nat.mul_assoc] at lo ⊢
  generalize significand fb n = q at *
  generalize digitShift fb n = g at *
  have unitPos : 0 < 2 ^ g * s := Nat.mul_pos (Nat.two_pow_pos g) hs
  have exponent : (k : Int) - W + bitLen m - 1 = ((fb + g : Nat) : Int) - one := by
    have := exponent_of_digits hm value hs digits digitsLt lo hi
    omega
  have round := roundMag_eq (m := m) (k := k + one) (W := W + g) (X := x) (by
    rw [pow_add 2 W g, ← Nat.mul_assoc x, ← value]; ring)
    unitPos lo hi neg rm u
  have position : (k : Int) - W - ((g : Int) - one) = ((k + one : Nat) : Int) - ((W + g : Nat) : Int) := by omega
  have unit : (k : Int) - W - (1 - (bias : Int) - fb) = ((k + one : Nat) : Int) - W := by omega
  have shift : ((g : Int) - one - (1 - (bias : Int) - fb)).toNat = g := by omega
  have isNormal : ¬ ((fb + g : Nat) : Int) - one < 1 - (bias : Int) := by omega
  have digit : ((fb + g : Nat) : Int) - one - fb = g - one := by omega
  have packed := packFloat_eq (eb := eb) (q := q + (roundsUp rm u neg q x (2 ^ g * s)).toNat) (g := g) hone
    (by have := Bool.toNat_le (roundsUp rm u neg q x (2 ^ g * s)); omega) (by omega)
  have delivered (up : Bool) : q + up.toNat + g * 2 ^ fb = n + up.toNat := by omega
  simp only [rndFinite, exponent, digit, position, round, unit, below_iff value hs, isNormal, shift, packed, delivered, patUnits_eq,
    above, overflow_eq (beneath _), if_false, decide_false, Bool.false_and, Bool.and_false, Bool.false_eq_true, decide_eq_true_eq,
    Flags.or_zero, ite_self]

/-- Rounded to full precision with an unbounded exponent, a magnitude below the smallest normal one reaches it (04 R67) where it goes
up from the last digits below. -/
theorem roundMag_reaches (hfb : 1 ≤ fb) (small : x < 2 ^ fb * s) (neg : Bool) (rm : Rm) (u : Nat) :
    let ex := (k : Int) - W + bitLen m - 1
    let full := roundMag neg m ((k : Int) - W - (ex - fb)) rm u
    if roundsUp rm u neg (2 ^ (fb + 1) - 1) (2 * x) s then ex + 1 = 1 - (bias : Int) ∧ full = (2 ^ (fb + 1), true)
    else ¬ (ex + 1 = 1 - (bias : Int) ∧ full.1 = 2 ^ (fb + 1)) := by
  obtain ⟨a, rfl⟩ := Nat.exists_eq_add_of_le' hfb
  intro ex full
  have exponent := le_exponent_iff hm value hs
  have below := mt (exponent (a + 1)).1 (not_le.2 small)
  obtain ⟨N, hN⟩ : ∃ N, 2 ^ (a + 1 + 1) = N + 1 := Nat.exists_eq_add_one.2 (Nat.two_pow_pos _)
  have small2 : 2 * x < (N + 1) * s := by
    rw [← hN, pow_succ, Nat.mul_right_comm]; omega
  rw [hN, Nat.add_sub_cancel]
  by_cases half : 2 ^ a * s ≤ x
  · have place : ex = (a : Int) - one := by
      have := (exponent a).2 half
      omega
    have position : (k : Int) - W - (ex - (a + 1 : Nat)) = ((k + one + 1 : Nat) : Int) - W := by omega
    have round (n : Nat) (lo : n * s ≤ 2 * x) (hi : 2 * x < (n + 1) * s) :
        full = (n + (roundsUp rm u neg n (2 * x) s).toNat, decide (n * s < 2 * x)) :=
      (congrArg (roundMag neg m · rm u) position).trans (roundMag_eq
        (by rw [pow_succ 2 (k + one), ← Nat.mul_assoc m, Nat.mul_right_comm, value]; ring) hs lo hi neg rm u)
    by_cases last : N * s ≤ 2 * x
    · rw [round N last small2]
      cases up : roundsUp rm u neg N (2 * x) s with
      | true => exact ⟨by omega, by rw [decide_eq_true (lt_of_roundsUp up)]; rfl⟩
      | false => simp
    · have less : 2 * x / s < N := (Nat.div_lt_iff_lt_mul hs).2 (not_le.1 last)
      rw [roundsUp_of_le (not_le.1 last).le, round (2 * x / s) (Nat.div_mul_le_self ..)
        (Nat.mul_comm s _ ▸ Nat.lt_mul_div_succ _ hs)]
      have := Bool.toNat_le (roundsUp rm u neg (2 * x / s) (2 * x) s)
      simp only [Bool.false_eq_true, if_false]
      omega
  · have under : 2 * x ≤ N * s := by
      have ones : 2 ^ (a + 1) ≤ N := by
        have := Nat.one_le_two_pow (n := a + 1)
        rw [pow_succ] at hN
        omega
      calc 2 * x ≤ 2 * (2 ^ a * s) := by omega
        _ = 2 ^ (a + 1) * s := by ring
        _ ≤ N * s := Nat.mul_le_mul_right s ones
    have apart : ¬ ex + 1 = 1 - (bias : Int) := by
      have := mt (exponent a).1 half
      omega
    simp [roundsUp_of_le under, apart]

/-- A magnitude of x / s units below the smallest normal one goes to a neighbour, or to a zero where no subnormal is produced. -/
theorem rndFinite_of_subnormal (hfb : 1 ≤ fb) {n : Nat} (lo : n * s ≤ x) (hi : x < (n + 1) * s) (small : x < 2 ^ fb * s)
    (noSub neg : Bool) (rm : Rm) (u : Nat) : rndFinite f ⟨eb, fb, bias⟩ noSub neg m ((k : Int) - W) rm u =
      let sign := if neg then 2 ^ (eb + fb) else 0
      let reach := reachesNormal fb rm u neg x s
      if noSub then (if reach then (sign + 2 ^ fb, flagNX) else (sign, flagUF ||| flagNX))
      else (sign + (n + (roundsUp rm u neg n x s).toNat),
        if n * s < x then (if reach then flagNX else flagUF ||| flagNX) else 0) := by
  have subnormal : (k : Int) - W + bitLen m - 1 < 1 - (bias : Int) := by
    have := mt (le_exponent_iff hm value hs fb).1 (not_le.2 small)
    omega
  have round := roundMag_eq value hs lo hi neg rm u
  have position : (k : Int) - W - (((0 : Nat) : Int) - one) = ((k + one : Nat) : Int) - W := by omega
  have unit : 1 - (bias : Int) - fb = ((0 : Nat) : Int) - one := by omega
  have whole : n < 2 ^ fb := Nat.lt_of_mul_lt_mul_right (lo.trans_lt small)
  have packed := packFloat_eq (eb := eb) (q := n + (roundsUp rm u neg n x s).toNat) (g := 0) hone
    (by have := Bool.toNat_le (roundsUp rm u neg n x s); rw [pow_succ]; omega) fun _ => rfl
  have full := roundMag_reaches hone hm hs value hfb small neg rm u
  rw [Nat.zero_mul, Nat.add_zero] at packed
  simp only at full
  cases reach : reachesNormal fb rm u neg x s with
  | true =>
    obtain ⟨sto, up⟩ := Bool.and_eq_true_iff.1 reach
    have stoEq : (rm == .sto) = false := by simpa using sto
    obtain ⟨edge, full⟩ := (if_pos up).mp full
    have carry : ((k : Int) - W + bitLen m - 1 - fb + 1 + fb + bias).toNat = 1 := by omega
    simp only [rndFinite, subnormal, position, round, unit, packed, full, edge, packFloat_carry, carry, stoEq, beq_self_eq_true,
      decide_true, Bool.and_true, Bool.not_true, Bool.or_self, Bool.and_false, Bool.false_eq_true, if_true, if_false,
      Flags.or_zero, Nat.one_mul, decide_eq_true_eq]
  | false =>
    have tiny : (rm == .sto || !(decide ((k : Int) - W + bitLen m - 1 + 1 = 1 - (bias : Int)) &&
        (roundMag neg m ((k : Int) - W - ((k : Int) - W + bitLen m - 1 - fb)) rm u).1 == 2 ^ (fb + 1))) = true := by
      by_cases sto : rm = .sto
      · simp [sto]
      · have up : ¬ roundsUp rm u neg (2 ^ (fb + 1) - 1) (2 * x) s = true := by
          simpa [reachesNormal, sto] using reach
        simpa [up, sto, imp_iff_not_or] using full
    have flags (inexact : Prop) [Decidable inexact] : ((if inexact then flagNX else 0) ||| if inexact then flagUF else 0) =
        if inexact then flagUF ||| flagNX else 0 := by
      split <;> rfl
    simp only [rndFinite, subnormal, position, round, unit, packed, tiny, decide_true, Bool.and_true, Bool.false_eq_true, if_true,
      if_false, decide_eq_true_eq, flags]

end

/-! ### Rounding as the statement has it -/

theorem floatFmt_of_shapeOf {f : Fmt} {eb fb bias top : Nat} (shape : shapeOf f = some (eb, fb, bias, top)) :
    floatFmt f = some ⟨eb, fb, bias⟩ := by
  cases f <;> cases shape <;> rfl

theorem maxFinite_of_shapeOf {f : Fmt} {eb fb bias top : Nat} (shape : shapeOf f = some (eb, fb, bias, top)) :
    maxFinite f ⟨eb, fb, bias⟩ = top := by
  cases f <;> cases shape <;> rfl

theorem noInf_of_shapeOf {f : Fmt} {eb fb bias top : Nat} (shape : shapeOf f = some (eb, fb, bias, top)) :
    noInf f = decide (f = .e4m3 ∨ f = .e2m1) := by
  cases f <;> cases shape <;> rfl

/-- A float format has a fraction, and its largest finite pattern is that of a normal number. -/
theorem bounds_of_shapeOf {f : Fmt} {eb fb bias top : Nat} (shape : shapeOf f = some (eb, fb, bias, top)) :
    1 ≤ fb ∧ 2 ^ fb ≤ top := by
  cases f <;> cases shape <;> decide

theorem shapeOf_inj {f : Fmt} {eb fb bias top eb' fb' bias' top' : Nat} (shape : shapeOf f = some (eb, fb, bias, top))
    (shape' : shapeOf f = some (eb', fb', bias', top')) : eb = eb' ∧ fb = fb' ∧ bias = bias' ∧ top = top' := by
  simpa using shape.symm.trans shape'

theorem reachesNormal_eq {s : Nat} (hs : 0 < s) (fb : Nat) (rm : Rm) (u : Nat) (neg : Bool) (x : Nat) :
    reachesNormal fb rm u neg x s = match rm with
      | .rne | .rna => decide ((4 * 2 ^ fb - 1) * s ≤ 4 * x)
      | .rtz | .sto => false
      | .rdn => neg && decide ((2 * 2 ^ fb - 1) * s < 2 * x)
      | .rup => !neg && decide ((2 * 2 ^ fb - 1) * s < 2 * x) := by
  obtain ⟨N, hN⟩ : ∃ N, 2 ^ fb = N + 1 := Nat.exists_eq_add_one.2 (Nat.two_pow_pos fb)
  have last : 2 ^ (fb + 1) - 1 = 2 * N + 1 ∧ 2 * 2 ^ fb - 1 = 2 * N + 1 ∧ 4 * 2 ^ fb - 1 = 2 * (2 * N + 1) + 1 := by
    rw [pow_succ, hN]; omega
  have odd : (2 * N + 1) % 2 = 1 := by omega
  have next : (2 * N + 1 + 1) * s = (2 * N + 1) * s + s := Nat.succ_mul ..
  have middle : (2 * (2 * N + 1) + 1) * s = 2 * ((2 * N + 1) * s) + s := by ring
  rw [last.2.1, last.2.2, reachesNormal, roundsUp, last.1, odd, next, middle]
  generalize (2 * N + 1) * s = lo
  cases rm with
  | rne | rna => rw [Bool.eq_iff_iff]; simp [away]; omega
  | rtz | sto => simp [away]
  | rdn | rup => simp [away, Bool.and_comm]

theorem overflowPat_eq {f : Fmt} {eb fb bias top : Nat} (shape : shapeOf f = some (eb, fb, bias, top)) (neg : Bool) (rm : Rm) :
    overflowPat f ⟨eb, fb, bias⟩ neg rm = if f = .e4m3 ∨ f = .e2m1 then top else match rm with
      | .rne | .rna | .sto => (2 ^ eb - 1) * 2 ^ fb
      | .rtz => top
      | .rdn => if neg then (2 ^ eb - 1) * 2 ^ fb else top
      | .rup => if neg then top else (2 ^ eb - 1) * 2 ^ fb := by
  cases rm <;> simp [overflowPat, noInf_of_shapeOf shape, maxFinite_of_shapeOf shape]

theorem significand_parity {fb : Nat} (hfb : 1 ≤ fb) (n : Nat) : significand fb n % 2 = n % 2 := by
  obtain ⟨a, rfl⟩ := Nat.exists_eq_add_of_le' hfb
  have pattern := significand_add_digitShift (a + 1) n
  rw [pow_succ, ← Nat.mul_assoc] at pattern
  omega

/-- Rounding up from a pattern to the next one. -/
theorem roundsUp_eq {fb : Nat} (hfb : 1 ≤ fb) (rm : Rm) (u : Nat) (neg : Bool) (n x s : Nat) :
    roundsUp rm u neg (significand fb n) x (2 ^ digitShift fb n * s) = (decide (units fb n * s < x) &&
      away rm u neg (decide (n % 2 = 1)) x (units fb n * s) (units fb (n + 1) * s)) := by
  rw [roundsUp, significand_parity hfb, ← Nat.mul_assoc, ← Nat.mul_assoc, ← units_eq, ← units_succ]

/-- A magnitude between n and the next pattern goes beyond the largest finite one where n is that one and the mode leaves it. -/
theorem beyond_iff {fb top n x s : Nat} (hn : n ≤ top) (hi : x < units fb (n + 1) * s) (up : Bool) (rm : Rm) :
    (top < n + up.toNat ∨ rm = .sto ∧ units fb top * s < x) ↔ n = top ∧ (up = true ∨ rm = .sto ∧ units fb n * s < x) := by
  have same (h : units fb top * s < x) : n = top :=
    Nat.le_antisymm hn (Nat.lt_succ_iff.1 ((units_strictMono fb).lt_iff_lt.1 (Nat.lt_of_mul_lt_mul_right (h.trans hi))))
  constructor
  · rintro (above | ⟨sto, above⟩)
    · have := Bool.toNat_le up
      exact ⟨by omega, Or.inl (Bool.toNat_eq_one.1 (by omega))⟩
    · exact ⟨same above, Or.inr ⟨sto, same above ▸ above⟩⟩
  · rintro ⟨rfl, carried | ⟨sto, above⟩⟩
    · exact Or.inl (by rw [carried]; exact Nat.lt_succ_self n)
    · exact Or.inr ⟨sto, above⟩

theorem normal_of_units_le {fb n x s : Nat} (hn : 2 ^ fb ≤ n) (h : units fb n * s ≤ x) : 2 ^ fb * s ≤ x := by
  refine le_trans (Nat.mul_le_mul_right s ?_) h
  rw [← units_of_normal]
  exact (units_strictMono fb).monotone hn

/-- Below the smallest normal number the patterns count units. -/
theorem units_of_subnormal {fb n : Nat} (h : n < 2 ^ fb) : units fb n = n ∧ units fb (n + 1) = n + 1 := by
  rw [units_succ, units_eq, significand_of_lt h, digitShift_of_lt h, pow_zero, Nat.mul_one, Nat.mul_one]
  exact ⟨rfl, rfl⟩

theorem add_toNat (n : Nat) (b : Bool) : n + b.toNat = if b = true then n + 1 else n := by
  cases b <;> rfl

section

variable {f : Fmt} {eb fb bias top one m k W x s : Nat} (shape : shapeOf f = some (eb, fb, bias, top))
  (hone : bias + fb = one + 1) (hm : 0 < m) (hs : 0 < s) (value : m * 2 ^ (k + one) * s = x * 2 ^ W)
include shape hone hm hs value

theorem rndFinite_of_beyond (h : units fb (top + 1) * s ≤ x) (noSub neg : Bool) (rm : Rm) (u : Nat) :
    rndFinite f ⟨eb, fb, bias⟩ noSub neg m ((k : Int) - W) rm u =
      ((if neg then 2 ^ (eb + fb) else 0) + overflowPat f ⟨eb, fb, bias⟩ neg rm, flagOF ||| flagNX) := by
  have htop : 2 ^ fb ≤ top + 1 := (bounds_of_shapeOf shape).2.trans (Nat.le_succ top)
  obtain ⟨n, lo, hi⟩ := exists_neighbours fb x hs
  have past : top + 1 < n + 1 := (units_strictMono fb).lt_iff_lt.1 (Nat.lt_of_mul_lt_mul_right (h.trans_lt hi))
  rw [rndFinite_of_normal hone hm hs value lo hi (normal_of_units_le htop h), maxFinite_of_shapeOf shape]
  exact if_pos (Or.inl (by omega))

/-- RND of a magnitude of x / s units that is not 0 is the rounding of the statement. -/
theorem rounded_rndFinite (neg : Bool) (rm : Rm) (u : Nat) :
    Rounded f rm u neg x s (rndFinite f ⟨eb, fb, bias⟩ (f == .bf16) neg m ((k : Int) - W) rm u) := by
  intro eb' fb' bias' top' shape'
  obtain ⟨rfl, rfl, rfl, rfl⟩ := shapeOf_inj shape shape'
  obtain ⟨hfb, htop⟩ := bounds_of_shapeOf shape
  intro v sign beyond reaches tiny
  have beyond_eq : beyond = (sign + overflowPat f ⟨eb, fb, bias⟩ neg rm, flagOF ||| flagNX) := by
    rw [overflowPat_eq shape]; rfl
  have reaches_eq : reaches = reachesNormal fb rm u neg x s := (reachesNormal_eq hs fb rm u neg x).symm
  refine ⟨fun h => (rndFinite_of_beyond shape hone hm hs value h _ neg rm u).trans beyond_eq.symm, fun hbf small => ?_,
    fun n hn lo hi kept => ?_⟩
  · have lo : x / s * s ≤ x := Nat.div_mul_le_self ..
    have hi : x < (x / s + 1) * s := Nat.mul_comm s _ ▸ Nat.lt_mul_div_succ _ hs
    rw [rndFinite_of_subnormal hone hm hs value hfb lo hi small, reaches_eq, hbf]
    rfl
  · intro up tops
    have up_eq : up = roundsUp rm u neg (significand fb n) x (2 ^ digitShift fb n * s) := (roundsUp_eq hfb rm u neg n x s).symm
    by_cases normal : 2 ^ fb * s ≤ x
    · have big : (top < n + up.toNat ∨ rm = .sto ∧ units fb top * s < x) ↔ tops := beyond_iff hn hi up rm
      have tiny_eq : tiny = false := Bool.and_eq_false_imp.2 fun h => absurd (of_decide_eq_true h) (not_lt.2 normal)
      rw [rndFinite_of_normal hone hm hs value lo hi normal, maxFinite_of_shapeOf shape, ← up_eq, beyond_eq, tiny_eq]
      exact ⟨fun h => if_pos (big.2 h), fun h => (if_neg (mt big.1 h)).trans (by rw [add_toNat]; rfl)⟩
    · have small : x < 2 ^ fb * s := not_le.1 normal
      have whole : n < 2 ^ fb := not_le.1 fun h => normal (normal_of_units_le h lo)
      have noFlush : (f == .bf16) = false := beq_eq_false_iff_ne.2 (mt kept normal)
      obtain ⟨here, next⟩ := units_of_subnormal whole
      have tiny_eq : tiny = !reachesNormal fb rm u neg x s := by
        rw [← reaches_eq]; exact (congrArg (· && !reaches) (decide_eq_true small)).trans (Bool.true_and _)
      rw [significand_of_lt whole, digitShift_of_lt whole, pow_zero, Nat.one_mul] at up_eq
      refine ⟨fun h => absurd h.1 (by omega), fun _ => ?_⟩
      rw [rndFinite_of_subnormal hone hm hs value hfb ((congrArg (· * s) here).symm.trans_le lo)
        (hi.trans_eq (congrArg (· * s) next)) small, noFlush, ← up_eq, tiny_eq, add_toNat]
      show (_, _) = (_, if units fb n * s < x then _ else _)
      rw [here]
      cases reachesNormal fb rm u neg x s <;> rfl

end

end Sys2Proof.Machine
end

section
/-! PROOF. Float operations and conversions (04 R60 to R70): what a pattern stands for, exact sums and products over one power of two,
and what V delivers for them. -/

namespace Sys2Proof.Machine

open Sys2Proof.Claims

/-! ### Numbers over a power of two -/

/-- A number of magnitude x × 2^-W, written with an exponent of at least -W. -/
def Stands (W : Nat) (neg : Bool) (x : Nat) (v : Num) : Prop := ∃ m k : Nat, v = .fin neg m ((k : Int) - W) ∧ m * 2 ^ k = x

theorem rndFloat_fin {f : Fmt} {eb fb bias top : Nat} (shape : shapeOf f = some (eb, fb, bias, top)) (noSub neg : Bool) (m : Nat)
    (e : Int) (rm : Rm) (u : Nat) : rndFloat f noSub (.fin neg m e) rm u =
      if m = 0 then (if neg then 2 ^ (eb + fb) else 0, 0) else rndFinite f ⟨eb, fb, bias⟩ noSub neg m e rm u := by
  rw [rndFloat, floatFmt_of_shapeOf shape]

/-- RND of a number in V is the rounding of the statement (04 R65 to R68); a zero keeps its sign. -/
theorem Stands.roundedInt {f : Fmt} {eb fb bias top one W x s : Nat} {neg zero : Bool} {v : Num} {X : Int} (h : Stands W neg x v)
    (shape : shapeOf f = some (eb, fb, bias, top)) (hf : f ≠ .acc26) (hone : bias + fb = one + 1) (hs : 0 < s)
    (value : x * 2 ^ one * s = X.natAbs * 2 ^ W) (sign : neg = if X = 0 then zero else decide (X < 0)) (rm : Rm) (u : Nat) :
    RoundedInt f rm u X zero s (vOut f v rm u) := by
  obtain ⟨m, k, rfl, rfl⟩ := h
  have noSub : (f == .bf16 || f == .acc26) = (f == .bf16) := by simp [hf]
  rw [vOut, noSub, rndFloat_fin shape]
  constructor
  · intro hX
    have hm : m ≠ 0 := by
      rintro rfl
      simp [hX] at value
    rw [if_neg hm, sign, if_neg hX]
    exact rounded_rndFinite shape hone (Nat.pos_of_ne_zero hm) hs (by rw [pow_add, ← Nat.mul_assoc, value]) _ rm u
  · rintro rfl eb' fb' bias' top' shape'
    obtain ⟨rfl, rfl, rfl, rfl⟩ := shapeOf_inj shape shape'
    have hm : m = 0 := by
      simpa [hs.ne'] using value
    rw [if_pos hm, sign, if_pos rfl]

/-! ### What a pattern stands for (04 R59, R61, R62, R77) -/

theorem vIn_of_shapeOf {f : Fmt} {eb fb bias top : Nat} (shape : shapeOf f = some (eb, fb, bias, top)) (n : Nat) :
    vIn f n = floatNum f ⟨eb, fb, bias⟩ (f == .bf16 || f == .acc26) n := by
  rw [vIn, toNum, floatFmt_of_shapeOf shape]

/-- The fields that stand for no number are those above the largest finite pattern. -/
theorem special_eq {f : Fmt} {eb fb bias top E F : Nat} (shape : shapeOf f = some (eb, fb, bias, top)) (hE : E < 2 ^ eb)
    (hF : F < 2 ^ fb) : (E == 2 ^ eb - 1 && !noNan f && (!isE4m3 f || F == 7)) = decide (top < E * 2 ^ fb + F) := by
  rw [Bool.eq_iff_iff]
  cases f <;> cases shape <;> simp [noNan, isE4m3] <;> omega

theorem isE4m3_of_shapeOf {f : Fmt} {eb fb bias top : Nat} (shape : shapeOf f = some (eb, fb, bias, top)) :
    isE4m3 f = decide (f = .e4m3) := by
  cases f <;> cases shape <;> rfl

theorem top_lt_infinity {f : Fmt} {eb fb bias top : Nat} (shape : shapeOf f = some (eb, fb, bias, top)) (h4 : f ≠ .e4m3)
    (h2 : f ≠ .e2m1) : top < (2 ^ eb - 1) * 2 ^ fb := by
  cases f <;> cases shape <;> simp at h4 h2 ⊢

/-- A pattern without its sign, by its two fields. -/
theorem pattern_fields (eb fb n : Nat) : n % 2 ^ (eb + fb) = n / 2 ^ fb % 2 ^ eb * 2 ^ fb + n % 2 ^ fb := by
  have exponent : n % 2 ^ (eb + fb) / 2 ^ fb = n / 2 ^ fb % 2 ^ eb := by
    rw [Nat.add_comm, pow_add, Nat.mod_mul_right_div_self]
  have fraction : n % 2 ^ (eb + fb) % 2 ^ fb = n % 2 ^ fb := Nat.mod_mod_of_dvd n (pow_dvd_pow 2 (Nat.le_add_left ..))
  rw [← exponent, ← fraction, Nat.div_add_mod']

theorem units_fields (eb fb n : Nat) : units fb (n % 2 ^ (eb + fb)) =
    if n / 2 ^ fb % 2 ^ eb = 0 then n % 2 ^ fb else (2 ^ fb + n % 2 ^ fb) * 2 ^ (n / 2 ^ fb % 2 ^ eb - 1) := by
  have small := Nat.mod_lt n (Nat.two_pow_pos fb)
  rw [units, pattern_fields, Nat.mul_add_mod_self_right, Nat.mod_mod, Nat.add_comm, Nat.add_mul_div_right _ _ (Nat.two_pow_pos fb),
    Nat.div_eq_of_lt small, Nat.zero_add]

section

variable {f : Fmt} {eb fb bias top : Nat} (shape : shapeOf f = some (eb, fb, bias, top)) (n : Nat)
include shape

theorem vIn_of_special (h : top < n % 2 ^ (eb + fb)) : vIn f n =
    if f = .e4m3 ∨ n % 2 ^ fb ≠ 0 then .nan else .inf (decide (n / 2 ^ (eb + fb) % 2 = 1)) := by
  have special := special_eq shape (Nat.mod_lt (n / 2 ^ fb) (Nat.two_pow_pos eb)) (Nat.mod_lt n (Nat.two_pow_pos fb))
  rw [← pattern_fields, decide_eq_true h] at special
  rw [vIn_of_shapeOf shape, floatNum]
  simp only [special, if_true]
  by_cases h4 : f = .e4m3
  · simp [h4, isE4m3]
  · by_cases hF : n % 2 ^ fb = 0 <;> simp [h4, hF, isE4m3_of_shapeOf shape, beq_eq_decide]

theorem vIn_of_finite (h : n % 2 ^ (eb + fb) ≤ top) : vIn f n =
    let neg := decide (n / 2 ^ (eb + fb) % 2 = 1)
    if n / 2 ^ fb % 2 ^ eb = 0 then
      if f = .bf16 ∨ f = .acc26 then .fin neg 0 0 else .fin neg (n % 2 ^ fb) (1 - (bias : Int) - fb)
    else .fin neg (2 ^ fb + n % 2 ^ fb) ((n / 2 ^ fb % 2 ^ eb : Nat) - (bias : Int) - fb) := by
  have special := special_eq shape (Nat.mod_lt (n / 2 ^ fb) (Nat.two_pow_pos eb)) (Nat.mod_lt n (Nat.two_pow_pos fb))
  rw [← pattern_fields, decide_eq_false (not_lt.2 h)] at special
  rw [vIn_of_shapeOf shape, floatNum]
  simp only [special, Bool.false_eq_true, if_false]
  simp only [beq_eq_decide, Bool.or_eq_true, decide_eq_true_eq]

end

theorem vIn_of_nan {f : Fmt} {n : Nat} (h : Reads f n .nan) : vIn f n = .nan := by
  obtain ⟨eb, fb, bias, top, shape, above, fraction, -⟩ := h
  rw [vIn_of_special shape n above, if_pos (or_iff_not_imp_left.2 fraction)]

theorem vIn_of_inf {f : Fmt} {n : Nat} {p : Bool} (h : Reads f n (.inf p)) : vIn f n = .inf p := by
  cases h with
  | inf eb fb bias top shape pattern h4 h2 =>
    have fraction : n % 2 ^ fb = 0 := by
      rw [← Nat.mod_mod_of_dvd n (pow_dvd_pow 2 (Nat.le_add_left fb eb)), pattern, Nat.mul_mod_left]
    rw [vIn_of_special shape n (pattern ▸ top_lt_infinity shape h4 h2), if_neg (by simp [h4, fraction])]

theorem stands_vIn {f : Fmt} {eb fb bias top one n m : Nat} {p : Bool} (h : Reads f n (.fin p m 0))
    (shape : shapeOf f = some (eb, fb, bias, top)) (hone : bias + fb = one + 1) : Stands one p m (vIn f n) := by
  cases h with
  | fin eb' fb' bias' top' shape' below =>
    obtain ⟨rfl, rfl, rfl, rfl⟩ := shapeOf_inj shape shape'
    have subnormal : n % 2 ^ (eb + fb) < 2 ^ fb ↔ n / 2 ^ fb % 2 ^ eb = 0 := by
      rw [Nat.add_comm eb, pow_add, ← Nat.div_eq_zero_iff_lt (Nat.two_pow_pos fb), Nat.mod_mul_right_div_self]
    rw [vIn_of_finite shape n below, units_fields]
    simp only [subnormal]
    by_cases zero : n / 2 ^ fb % 2 ^ eb = 0
    · by_cases flush : f = .bf16 ∨ f = .acc26
      · exact ⟨0, one, by simp [zero, flush], by simp [zero, flush]⟩
      · exact ⟨n % 2 ^ fb, 0, by simp [zero, flush]; omega, by simp [zero, flush]⟩
    · refine ⟨2 ^ fb + n % 2 ^ fb, n / 2 ^ fb % 2 ^ eb - 1, ?_, by simp [zero]⟩
      simp only [zero, if_false, Num.fin.injEq, true_and]
      omega

/-! ### Signed magnitudes -/

theorem signedMag_not (p : Bool) (m : Nat) : signedMag (!p) m = -signedMag p m := by
  cases p <;> simp [signedMag]

theorem signedMag_mul_pow (p : Bool) (m k : Nat) : signedMag p (m * 2 ^ k) = signedMag p m * 2 ^ k := by
  cases p <;> simp [signedMag]

theorem signedMag_mul (p q : Bool) (m n : Nat) : signedMag p m * signedMag q n = signedMag (p != q) (m * n) := by
  cases p <;> cases q <;> simp [signedMag]

theorem natAbs_signedMag (p : Bool) (m : Nat) : (signedMag p m).natAbs = m := by
  cases p <;> simp [signedMag]

theorem signedMag_eq_zero {p : Bool} {m : Nat} : signedMag p m = 0 ↔ m = 0 := by
  cases p <;> simp [signedMag]

/-- A signed magnitude has its own sign, and a zero has the sign it is given. -/
theorem sign_signedMag (p : Bool) (m : Nat) : p = if signedMag p m = 0 then p else decide (signedMag p m < 0) := by
  by_cases h : m = 0
  · rw [if_pos (signedMag_eq_zero.2 h)]
  · rw [if_neg (mt signedMag_eq_zero.1 h)]
    cases p <;> simp [signedMag]
    omega

/-! ### Exact arithmetic (04 R60) -/

theorem exists_alignInt (a b : Int) (k l W : Nat) : ∃ (x y : Int) (j : Nat),
    alignInt a ((k : Int) - W) b ((l : Int) - W) = (x, y, (j : Int) - W) ∧ x * 2 ^ j = a * 2 ^ k ∧ y * 2 ^ j = b * 2 ^ l := by
  have shift (c d : Nat) : ((c + d : Nat) : Int) - W - (c - W) = d := by omega
  by_cases h : k ≤ l
  · obtain ⟨d, rfl⟩ := Nat.exists_eq_add_of_le h
    refine ⟨a, b * (2 ^ d : Nat), k, ?_, rfl, by push_cast; ring⟩
    rw [alignInt, if_pos (by omega), shift, Int.toNat_natCast]
  · obtain ⟨d, rfl⟩ := Nat.exists_eq_add_of_le (not_le.1 h).le
    refine ⟨a * (2 ^ d : Nat), b, l, ?_, by push_cast; ring, rfl⟩
    rw [alignInt, if_neg (by omega), shift, Int.toNat_natCast]

theorem Stands.widen {W m : Nat} {p : Bool} {v : Num} (h : Stands W p m v) (c : Nat) : Stands (W + c) p (m * 2 ^ c) v := by
  obtain ⟨m, k, rfl, rfl⟩ := h
  exact ⟨m, k + c, by rw [show ((k + c : Nat) : Int) - (W + c : Nat) = k - W by omega], by ring⟩

section

variable {W m n : Nat} {p q : Bool} {v w : Num} (hv : Stands W p m v)
include hv

theorem Stands.neg : Stands W (!p) m (negNum v) := by
  obtain ⟨m, k, rfl, rfl⟩ := hv
  exact ⟨m, k, rfl, rfl⟩

theorem Stands.isNan_eq : isNan v = false := by
  obtain ⟨m, k, rfl, rfl⟩ := hv
  rfl

theorem Stands.mul {V : Nat} (hw : Stands V q n w) : ∃ z, mulNum v w = (z, 0) ∧ Stands (W + V) (p != q) (m * n) z := by
  obtain ⟨m, k, rfl, rfl⟩ := hv
  obtain ⟨n, l, rfl, rfl⟩ := hw
  exact ⟨_, rfl, m * n, k + l, congrArg (Num.fin (p != q) (m * n)) (by omega), by ring⟩

variable (hw : Stands W q n w)
include hw

/-- A sum; where it is 0, two zeros of one sign keep it, and any other zero is -0 under RDN alone (log entry 68). -/
theorem Stands.add (rm : Rm) : ∃ z, addNum rm v w = (z, 0) ∧
    Stands W (if signedMag p m + signedMag q n = 0 then (if m = 0 ∧ n = 0 ∧ p = q then p else rm == .rdn)
      else decide (signedMag p m + signedMag q n < 0)) (signedMag p m + signedMag q n).natAbs z := by
  obtain ⟨m, k, rfl, rfl⟩ := hv
  obtain ⟨n, l, rfl, rfl⟩ := hw
  obtain ⟨x, y, j, align, hx, hy⟩ := exists_alignInt (signedMag p m) (signedMag q n) k l W
  have sum : (x + y) * 2 ^ j = signedMag p (m * 2 ^ k) + signedMag q (n * 2 ^ l) := by
    rw [add_mul, hx, hy, signedMag_mul_pow, signedMag_mul_pow]
  have pos : (0 : Int) < 2 ^ j := by positivity
  rw [← sum, addNum, align]
  by_cases zero : x + y = 0
  · refine ⟨_, if_pos zero, 0, W, ?_, ?_⟩
    · simp [zero, and_assoc]
    · simp [zero]
  · refine ⟨_, if_neg zero, (x + y).natAbs, j, ?_, ?_⟩
    · rw [if_neg (mul_ne_zero zero pos.ne')]
      simp [mul_neg_iff, pos, pos.not_gt]
    · simp [Int.natAbs_mul, Int.natAbs_pow]

theorem Stands.cmp : cmpNum v w = if signedMag p m < signedMag q n then .lt else
    if signedMag p m = signedMag q n then .eq else .gt := by
  obtain ⟨m, k, rfl, rfl⟩ := hv
  obtain ⟨n, l, rfl, rfl⟩ := hw
  obtain ⟨x, y, j, align, hx, hy⟩ := exists_alignInt (signedMag p m) (signedMag q n) k l W
  have pos : (0 : Int) < 2 ^ j := by positivity
  rw [signedMag_mul_pow, signedMag_mul_pow, ← hx, ← hy, cmpNum, align]
  simp only [mul_lt_mul_iff_left₀ pos, mul_left_inj' pos.ne']

end

/-! ### What RND delivers in V (04 R63, R66, R69) -/

theorem noNan_of_shapeOf {f : Fmt} {eb fb bias top : Nat} (shape : shapeOf f = some (eb, fb, bias, top)) :
    noNan f = decide (f = .e2m1) := by
  cases f <;> cases shape <;> rfl

theorem vOut_nan {f : Fmt} {eb fb bias top : Nat} (shape : shapeOf f = some (eb, fb, bias, top)) (rm : Rm) (u : Nat) :
    vOut f .nan rm u = (canonicalNan f, if f = .e2m1 then flagNV else 0) := by
  simp only [vOut, rndFloat, floatFmt_of_shapeOf shape, noNan_of_shapeOf shape, decide_eq_true_eq]

theorem vOut_inf {f : Fmt} {eb fb bias top : Nat} (shape : shapeOf f = some (eb, fb, bias, top)) (p : Bool) (rm : Rm) (u : Nat) :
    vOut f (.inf p) rm u = ((if p then 2 ^ (eb + fb) else 0) + (if f = .e4m3 ∨ f = .e2m1 then top else (2 ^ eb - 1) * 2 ^ fb),
      if f = .e4m3 ∨ f = .e2m1 then flagOF else 0) := by
  simp only [vOut, rndFloat, floatFmt_of_shapeOf shape, noInf_of_shapeOf shape, maxFinite_of_shapeOf shape, decide_eq_true_eq]
  split <;> rfl

/-- What a float operation delivers for the exact result and the flags that come with it. -/
def delivered (f : Fmt) (rm : Rm) (u : Nat) (r : Num × Flags) : Nat × Flags := ((vOut f r.1 rm u).1, r.2 ||| (vOut f r.1 rm u).2)

section

variable (f : Fmt) (rm : Rm) (u a b c : Nat)

theorem fAdd_eq : fAdd f rm u a b = delivered f rm u (addNum rm (vIn f a) (vIn f b)) := rfl

theorem fSub_eq : fSub f rm u a b = delivered f rm u (addNum rm (vIn f a) (negNum (vIn f b))) := rfl

theorem fMul_eq : fMul f rm u a b = delivered f rm u (mulNum (vIn f a) (vIn f b)) := rfl

theorem fMa_eq : fMa f rm u a b c =
    let p := mulNum (vIn f a) (vIn f b)
    let z := addNum rm p.1 (vIn f c)
    delivered f rm u (z.1, p.2 ||| z.2) := rfl

theorem delivered_number (v : Num) : delivered f rm u (v, 0) = vOut f v rm u := by
  rw [delivered, Flags.zero_or]

end

theorem addNum_nan (rm : Rm) (v : Num) : addNum rm .nan v = (.nan, 0) ∧ addNum rm v .nan = (.nan, 0) := by
  cases v <;> exact ⟨rfl, rfl⟩

theorem addNum_inf_inf (rm : Rm) (p q : Bool) :
    addNum rm (.inf p) (.inf q) = if p = q then (.inf p, 0) else (.nan, flagNV) := by
  simp only [addNum, beq_iff_eq]

theorem mulNum_nan (v : Num) : mulNum .nan v = (.nan, 0) ∧ mulNum v .nan = (.nan, 0) := by
  cases v <;> exact ⟨rfl, rfl⟩

theorem Stands.add_inf {W n : Nat} {q : Bool} {w : Num} (hw : Stands W q n w) (rm : Rm) (p : Bool) :
    addNum rm (.inf p) w = (.inf p, 0) ∧ addNum rm w (.inf p) = (.inf p, 0) := by
  obtain ⟨m, k, rfl, rfl⟩ := hw
  exact ⟨rfl, rfl⟩

theorem Stands.mul_inf {W n : Nat} {q : Bool} {w : Num} (hw : Stands W q n w) (p : Bool) :
    mulNum (.inf p) w = (if n = 0 then (.nan, flagNV) else (.inf (p != q), 0)) ∧ mulNum w (.inf p) = mulNum (.inf p) w := by
  obtain ⟨m, k, rfl, rfl⟩ := hw
  simp [mulNum, bne_comm]

/-! ### The operations of V (04 R60) -/

section

variable {f : Fmt} {eb fb bias top one : Nat} (vec : f.isVecFloat = true) (shape : shapeOf f = some (eb, fb, bias, top))
include vec shape

theorem canonicalNan_eq : canonicalNan f = 2 ^ (eb + fb) - 2 ^ (fb - 1) := by
  cases f <;> cases vec <;> cases shape <;> rfl

theorem delivered_nan (rm : Rm) (u : Nat) (fl : Flags) : delivered f rm u (.nan, fl) = (canonicalNan f, fl) := by
  have h2 : f ≠ .e2m1 := by rintro rfl; cases vec
  rw [delivered, vOut_nan shape, if_neg h2, Flags.or_zero]

theorem delivered_inf (rm : Rm) (u : Nat) (p : Bool) (fl : Flags) :
    delivered f rm u (.inf p, fl) = ((if p then 2 ^ (eb + fb) else 0) + (2 ^ eb - 1) * 2 ^ fb, fl) := by
  have hNarrow : ¬ (f = .e4m3 ∨ f = .e2m1) := by rintro (rfl | rfl) <;> cases vec
  rw [delivered, vOut_inf shape, if_neg hNarrow, if_neg hNarrow, Flags.or_zero]

/-- An exact number is delivered rounded. -/
theorem roundedInt_delivered {c : Nat} {neg zero : Bool} {v : Num} {X : Int} (hone : bias + fb = one + 1)
    (h : Stands (one + c) neg X.natAbs v) (sign : neg = if X = 0 then zero else decide (X < 0)) (rm : Rm) (u : Nat) :
    RoundedInt f rm u X zero (2 ^ c) (delivered f rm u (v, 0)) := by
  have hacc : f ≠ .acc26 := by rintro rfl; cases vec
  rw [delivered_number]
  exact h.roundedInt shape hacc hone (Nat.two_pow_pos c) (by rw [pow_add, Nat.mul_assoc]) sign rm u

variable {a b c m n k : Nat} {p q o : Bool} (hone : bias + fb = one + 1)

section

variable (ha : Reads f a (.fin p m 0)) (hb : Reads f b (.fin q n 0))
include ha hb hone

theorem fAdd_rounded (rm : Rm) (u : Nat) : RoundedInt f rm u (signedMag p m + signedMag q n)
    (if m = 0 ∧ n = 0 ∧ p = q then p else rm == .rdn) 1 (fAdd f rm u a b) := by
  obtain ⟨z, sum, stands⟩ := (stands_vIn ha shape hone).add (stands_vIn hb shape hone) rm
  rw [fAdd_eq, sum]
  exact roundedInt_delivered vec shape (c := 0) hone stands rfl rm u

theorem fSub_rounded (rm : Rm) (u : Nat) : RoundedInt f rm u (signedMag p m - signedMag q n)
    (if m = 0 ∧ n = 0 ∧ p = !q then p else rm == .rdn) 1 (fSub f rm u a b) := by
  obtain ⟨z, sum, stands⟩ := (stands_vIn ha shape hone).add (stands_vIn hb shape hone).neg rm
  rw [fSub_eq, sum, sub_eq_add_neg, ← signedMag_not]
  exact roundedInt_delivered vec shape (c := 0) hone stands rfl rm u

theorem fMul_rounded (rm : Rm) (u : Nat) : RoundedInt f rm u (signedMag p m * signedMag q n) (p != q) (2 ^ one)
    (fMul f rm u a b) := by
  obtain ⟨z, product, stands⟩ := (stands_vIn ha shape hone).mul (stands_vIn hb shape hone)
  rw [fMul_eq, product, signedMag_mul]
  exact roundedInt_delivered vec shape hone (by rwa [natAbs_signedMag]) (sign_signedMag _ _) rm u

theorem fMa_rounded (hc : Reads f c (.fin o k 0)) (rm : Rm) (u : Nat) :
    RoundedInt f rm u (signedMag p m * signedMag q n + signedMag o k * 2 ^ one)
      (if m * n = 0 ∧ k = 0 ∧ (p != q) = o then o else rm == .rdn) (2 ^ one) (fMa f rm u a b c) := by
  obtain ⟨v, product, standsProduct⟩ := (stands_vIn ha shape hone).mul (stands_vIn hb shape hone)
  obtain ⟨z, sum, stands⟩ := standsProduct.add ((stands_vIn hc shape hone).widen one) rm
  simp only [fMa_eq, product, sum, Flags.zero_or]
  rw [signedMag_mul, ← signedMag_mul_pow]
  have zero : (if m * n = 0 ∧ k * 2 ^ one = 0 ∧ (p != q) = o then (p != q) else rm == .rdn) =
      if m * n = 0 ∧ k = 0 ∧ (p != q) = o then o else rm == .rdn := by
    by_cases same : (p != q) = o <;> simp [same]
  exact roundedInt_delivered vec shape hone stands (by rw [zero]) rm u

theorem fMa_inf (hc : Reads f c (.inf o)) (rm : Rm) (u : Nat) :
    fMa f rm u a b c = ((if o then 2 ^ (eb + fb) else 0) + (2 ^ eb - 1) * 2 ^ fb, 0) := by
  obtain ⟨v, product, stands⟩ := (stands_vIn ha shape hone).mul (stands_vIn hb shape hone)
  simp only [fMa_eq, product, vIn_of_inf hc, (stands.add_inf rm o).2, Flags.zero_or]
  exact delivered_inf vec shape rm u o 0

omit vec in
theorem fCmp_numbers (cond : Cond) : fCmp f cond a b = (match cond with
    | .eq => decide (signedMag p m = signedMag q n) | .ne => decide (signedMag p m ≠ signedMag q n)
    | .lt => decide (signedMag p m < signedMag q n) | .le => decide (signedMag p m ≤ signedMag q n)
    | .gt => decide (signedMag q n < signedMag p m) | .ge => decide (signedMag q n ≤ signedMag p m)
    | .un => false, 0) := by
  have sa := stands_vIn ha shape hone
  have sb := stands_vIn hb shape hone
  simp only [fCmp, sa.isNan_eq, sb.isNan_eq, sa.cmp sb]
  rcases lt_trichotomy (signedMag p m) (signedMag q n) with less | same | more
  · cases cond <;> simp [less, less.ne, less.le, less.not_gt, less.not_ge]
  · cases cond <;> simp [same]
  · cases cond <;> simp [more, more.ne', more.le, more.not_gt, more.not_ge]

end

theorem operations_nan (h : Reads f a .nan ∨ Reads f b .nan) (rm : Rm) (u c : Nat) :
    fAdd f rm u a b = (canonicalNan f, 0) ∧ fSub f rm u a b = (canonicalNan f, 0) ∧ fMul f rm u a b = (canonicalNan f, 0) ∧
      (fMa f rm u a b c).1 = canonicalNan f := by
  have nan (fl : Flags) := delivered_nan vec shape rm u fl
  have sum : addNum rm (vIn f a) (vIn f b) = (.nan, 0) ∧ addNum rm (vIn f a) (negNum (vIn f b)) = (.nan, 0) := by
    rcases h with h | h <;> rw [vIn_of_nan h]
    · exact ⟨(addNum_nan rm _).1, (addNum_nan rm _).1⟩
    · exact ⟨(addNum_nan rm _).2, (addNum_nan rm _).2⟩
  have product : mulNum (vIn f a) (vIn f b) = (.nan, 0) := by
    rcases h with h | h <;> rw [vIn_of_nan h]
    · exact (mulNum_nan _).1
    · exact (mulNum_nan _).2
  refine ⟨?_, ?_, ?_, ?_⟩
  · rw [fAdd_eq, sum.1, nan]
  · rw [fSub_eq, sum.2, nan]
  · rw [fMul_eq, product, nan]
  · simp only [fMa_eq, product, (addNum_nan rm _).1, nan]

omit vec shape in
theorem fCmp_nan (h : Reads f a .nan ∨ Reads f b .nan) (cond : Cond) :
    fCmp f cond a b = (cond == .ne || cond == .un, if cond ∈ [Cond.lt, .le, .gt, .ge] then 0b10000 else 0) := by
  have unordered : (isNan (vIn f a) || isNan (vIn f b)) = true := by
    rcases h with h | h <;> simp [vIn_of_nan h, isNan]
  simp only [fCmp, unordered, if_true]
  cases cond <;> rfl

theorem operations_inf_inf (ha : Reads f a (.inf p)) (hb : Reads f b (.inf q)) (rm : Rm) (u : Nat) :
    let inf := fun (neg : Bool) => (if neg then 2 ^ (eb + fb) else 0) + (2 ^ eb - 1) * 2 ^ fb
    fAdd f rm u a b = (if p = q then (inf p, 0) else (canonicalNan f, 0b10000)) ∧
    fSub f rm u a b = (if p = q then (canonicalNan f, 0b10000) else (inf p, 0)) ∧ fMul f rm u a b = (inf (p != q), 0) := by
  rw [fAdd_eq, fSub_eq, fMul_eq, vIn_of_inf ha, vIn_of_inf hb]
  have different (r : Bool) : delivered f rm u (if p = r then (.inf p, 0) else (.nan, flagNV)) =
      if p = r then ((if p then 2 ^ (eb + fb) else 0) + (2 ^ eb - 1) * 2 ^ fb, 0) else (canonicalNan f, 0b10000) := by
    split
    · exact delivered_inf vec shape rm u p 0
    · exact delivered_nan vec shape rm u flagNV
  refine ⟨?_, ?_, delivered_inf vec shape rm u _ 0⟩
  · rw [addNum_inf_inf, different]
  · rw [negNum, addNum_inf_inf, different]
    by_cases same : p = q <;> simp [same]

include hone in
theorem operations_inf_number (ha : Reads f a (.inf p)) (hb : Reads f b (.fin q n 0)) (rm : Rm) (u : Nat) :
    let inf := fun (neg : Bool) => (if neg then 2 ^ (eb + fb) else 0) + (2 ^ eb - 1) * 2 ^ fb
    fAdd f rm u a b = (inf p, 0) ∧ fAdd f rm u b a = (inf p, 0) ∧ fSub f rm u a b = (inf p, 0) ∧
      fSub f rm u b a = (inf (!p), 0) ∧ fMul f rm u a b = (if n = 0 then (canonicalNan f, 0b10000) else (inf (p != q), 0)) ∧
      fMul f rm u b a = fMul f rm u a b := by
  have stands := stands_vIn hb shape hone
  have inf (p : Bool) := delivered_inf vec shape rm u p 0
  simp only [fAdd_eq, fSub_eq, fMul_eq, vIn_of_inf ha]
  refine ⟨?_, ?_, ?_, ?_, ?_, ?_⟩
  · rw [(stands.add_inf rm p).1, inf]
  · rw [(stands.add_inf rm p).2, inf]
  · rw [(stands.neg.add_inf rm p).1, inf]
  · exact (congrArg (delivered f rm u) (stands.add_inf rm (!p)).2).trans (inf _)
  · rw [(stands.mul_inf p).1]
    split
    · exact delivered_nan vec shape rm u flagNV
    · exact inf _
  · rw [(stands.mul_inf p).2]

end

/-! ### Conversions (04 R69, R70) -/

theorem intFmt_of_shapeOf {f : Fmt} {eb fb bias top : Nat} (shape : shapeOf f = some (eb, fb, bias, top)) : intFmt f = none := by
  cases f <;> cases shape <;> rfl

theorem floatFmt_of_intFmt {f : Fmt} {r : Nat × Bool} (h : intFmt f = some r) : floatFmt f = none := by
  cases f <;> cases h <;> rfl

section

variable {dst src : Fmt} (rm : Rm) (u a : Nat)

theorem convert_to_float (h : intFmt dst = none) : convert dst src rm u a = vOut dst (vIn src a) rm u := by
  rw [convert, h]

theorem convert_float_to_int {r : Nat × Bool} (hd : intFmt dst = some r) (hs : intFmt src = none) :
    convert dst src rm u a = rndInt r.1 r.2 (vIn src a) rm u := by
  rw [convert, hd, hs]

/-- The integer that a pattern of an integer format stands for (04 R58). -/
def intOfPattern (w : Nat) (signed : Bool) (a : Nat) : Int := if signed then sgn w a else (a % 2 ^ w : Nat)

theorem intOfPattern_eq (w : Nat) (signed : Bool) (a : Nat) : intOfPattern w signed a =
    if signed ∧ 2 ^ (w - 1) ≤ a % 2 ^ w then ((a % 2 ^ w : Nat) : Int) - 2 ^ w else (a % 2 ^ w : Nat) := by
  cases signed
  · simp [intOfPattern]
  · by_cases h : a % 2 ^ w < 2 ^ (w - 1) <;> simp [intOfPattern, sgn, h]

theorem vIn_of_intFmt {w : Nat} {signed : Bool} (h : intFmt src = some (w, signed)) :
    vIn src a = numOfInt (intOfPattern w signed a) := by
  rw [vIn, toNum, floatFmt_of_intFmt h, h]
  cases signed <;> rfl

theorem stands_numOfInt (i : Int) : Stands 0 (decide (i < 0)) i.natAbs (numOfInt i) := ⟨i.natAbs, 0, rfl, Nat.mul_one _⟩

theorem unsgn_eq (b : Nat) (i : Int) : unsgn b i = (i % 2 ^ b).toNat := by
  rw [unsgn, Nat.cast_pow, Nat.cast_ofNat]

theorem intLimits_eq (b : Nat) (signed : Bool) : intLimits b signed =
    (if signed then -2 ^ (b - 1) else 0, if signed then 2 ^ (b - 1) - 1 else 2 ^ b - 1) := by
  cases signed <;> simp [intLimits]

theorem intLimits_spec (b : Nat) (signed : Bool) : (intLimits b signed).1 ≤ 0 ∧ 0 ≤ (intLimits b signed).2 := by
  have power (k : Nat) : (1 : Int) ≤ 2 ^ k := one_le_pow₀ (by norm_num)
  have half := power (b - 1)
  have whole := power b
  rw [intLimits_eq]
  cases signed <;> simp <;> omega

theorem clampInt_eq {lo hi : Int} (h : lo ≤ hi) (i : Int) : clampInt lo hi i = max lo (min hi i) := by
  rw [clampInt]
  split
  · omega
  · split <;> omega

theorem convert_int {w b : Nat} {signed signed' : Bool} (hs : intFmt src = some (w, signed)) (hd : intFmt dst = some (b, signed')) :
    convert dst src rm u a = (((max (intLimits b signed').1 (min (intLimits b signed').2 (intOfPattern w signed a))) % 2 ^ b).toNat, 0) := by
  obtain ⟨low, high⟩ := intLimits_spec b signed'
  rw [← clampInt_eq (low.trans high), ← unsgn_eq, convert, hd, hs]
  rfl

end

/-- A number between the integers n and n + 1 goes to one of them, or to the limit on its side of the range. -/
theorem Stands.toInt {W m n : Nat} {p : Bool} {v : Num} (h : Stands W p m v) (lo : n * 2 ^ W ≤ m) (hi : m < (n + 1) * 2 ^ W)
    (b : Nat) (signed : Bool) (rm : Rm) (u : Nat) : rndInt b signed v rm u =
      let limits := intLimits b signed
      let z := signedMag p (n + (roundsUp rm u p n m (2 ^ W)).toNat)
      if z < limits.1 ∨ limits.2 < z then (unsgn b (if p then limits.1 else limits.2), flagNV)
      else (unsgn b z, if n * 2 ^ W < m then flagNX else 0) := by
  obtain ⟨m, k, rfl, rfl⟩ := h
  obtain ⟨low, high⟩ := intLimits_spec b signed
  have round := roundMag_eq (m := m) (k := k) (W := W) rfl (Nat.two_pow_pos W) lo hi p rm u
  simp only [rndInt, rndInteger, round]
  change (if (decide (signedMag p _ < _) || decide (_ < signedMag p _)) = true then _ else _) = _
  generalize n + (roundsUp rm u p n (m * 2 ^ k) (2 ^ W)).toNat = i
  simp only [Bool.or_eq_true, decide_eq_true_eq]
  by_cases out : signedMag p i < (intLimits b signed).1 ∨ (intLimits b signed).2 < signedMag p i
  · rw [if_pos out, if_pos out]
    have side : clampInt (intLimits b signed).1 (intLimits b signed).2 (signedMag p i) =
        if p then (intLimits b signed).1 else (intLimits b signed).2 := by
      rw [clampInt]
      cases p with
      | true =>
        have : signedMag true i ≤ 0 := by simp [signedMag]
        rw [if_pos (by omega), if_pos rfl]
      | false =>
        have : 0 ≤ signedMag false i := by simp [signedMag]
        rw [if_neg (by omega), if_pos (by omega), if_neg Bool.false_ne_true]
    exact congrArg (fun z => (unsgn b z, flagNV)) side
  · rw [if_neg out, if_neg out]
    rfl

section

variable {dst src : Fmt} {eb fb bias top : Nat} (shape : shapeOf dst = some (eb, fb, bias, top)) (rm : Rm) (u : Nat) {a : Nat}
include shape

theorem convert_number {sb sf sbias stop m sone one : Nat} {p : Bool} (srcShape : shapeOf src = some (sb, sf, sbias, stop))
    (cvt : dst.isCvtDst = true) (hone : bias + fb = one + 1) (hsone : sbias + sf = sone + 1) (h : Reads src a (.fin p m 0)) :
    RoundedInt dst rm u (signedMag p m * 2 ^ one) p (2 ^ sone) (convert dst src rm u a) := by
  have hacc : dst ≠ .acc26 := by rintro rfl; cases cvt
  rw [convert_to_float rm u a (intFmt_of_shapeOf shape), ← signedMag_mul_pow]
  exact (stands_vIn h srcShape hsone).roundedInt shape hacc hone (Nat.two_pow_pos sone) (by rw [natAbs_signedMag])
    (sign_signedMag _ _) rm u

theorem convert_int_number {w one : Nat} {signed : Bool} (hs : intFmt src = some (w, signed)) (cvt : dst.isCvtDst = true)
    (hone : bias + fb = one + 1) :
    RoundedInt dst rm u (intOfPattern w signed a * 2 ^ one) false 1 (convert dst src rm u a) := by
  have hacc : dst ≠ .acc26 := by rintro rfl; cases cvt
  have pos : (0 : Int) < 2 ^ one := by positivity
  rw [convert_to_float rm u a (intFmt_of_shapeOf shape), vIn_of_intFmt a hs]
  refine (stands_numOfInt _).roundedInt shape hacc hone Nat.one_pos (by simp [Int.natAbs_mul, Int.natAbs_pow]) ?_ rm u
  by_cases zero : intOfPattern w signed a = 0
  · simp [zero]
  · rw [if_neg (mul_ne_zero zero pos.ne')]
    simp [mul_neg_iff, pos, pos.not_gt]

theorem convert_inf {p : Bool} (h : Reads src a (.inf p)) : convert dst src rm u a = ((if p then 2 ^ (eb + fb) else 0) +
    (if dst = .e4m3 ∨ dst = .e2m1 then top else (2 ^ eb - 1) * 2 ^ fb), if dst = .e4m3 ∨ dst = .e2m1 then flagOF else 0) := by
  rw [convert_to_float rm u a (intFmt_of_shapeOf shape), vIn_of_inf h, vOut_inf shape]

theorem convert_nan (h : Reads src a .nan) : convert dst src rm u a = (canonicalNan dst, if dst = .e2m1 then flagNV else 0) := by
  rw [convert_to_float rm u a (intFmt_of_shapeOf shape), vIn_of_nan h, vOut_nan shape]

end

section

variable {dst src : Fmt} {b sb sf sbias stop : Nat} {signed : Bool} (hd : intFmt dst = some (b, signed))
  (srcShape : shapeOf src = some (sb, sf, sbias, stop)) (rm : Rm) (u : Nat) {a : Nat}
include hd srcShape

theorem convert_nan_to_int (h : Reads src a .nan) : convert dst src rm u a = (0, flagNV) := by
  rw [convert_float_to_int rm u a hd (intFmt_of_shapeOf srcShape), vIn_of_nan h]
  rfl

theorem convert_inf_to_int {p : Bool} (h : Reads src a (.inf p)) : convert dst src rm u a =
    (unsgn b (if p then (intLimits b signed).1 else (intLimits b signed).2), flagNV) := by
  rw [convert_float_to_int rm u a hd (intFmt_of_shapeOf srcShape), vIn_of_inf h]
  rfl

theorem convert_number_to_int {p : Bool} {m n sone : Nat} (hsone : sbias + sf = sone + 1) (h : Reads src a (.fin p m 0))
    (lo : n * 2 ^ sone ≤ m) (hi : m < (n + 1) * 2 ^ sone) : convert dst src rm u a =
      let limits := intLimits b signed
      let z := signedMag p (n + (roundsUp rm u p n m (2 ^ sone)).toNat)
      if z < limits.1 ∨ limits.2 < z then (unsgn b (if p then limits.1 else limits.2), flagNV)
      else (unsgn b z, if n * 2 ^ sone < m then flagNX else 0) := by
  rw [convert_float_to_int rm u a hd (intFmt_of_shapeOf srcShape)]
  exact (stands_vIn h srcShape hsone).toInt lo hi b signed rm u

end

/-- The number 1 is 2^(bias + fraction bits - 1) units of a format. -/
theorem ulpExponent_of_shapeOf {f : Fmt} {eb fb bias top : Nat} (shape : shapeOf f = some (eb, fb, bias, top)) :
    bias + fb = bias + fb - 1 + 1 := by
  have := (bounds_of_shapeOf shape).1
  omega

end Sys2Proof.Machine

namespace Sys2Proof.Proofs

open Sys2Proof.Machine Sys2Proof.Claims

/-- Settles O10: an exact value is held over one power of two, and RND of it, whatever its unit, takes the neighbour that the
statement names; what is not a number goes through case by case. -/
theorem floatResultsAreRounded : Obligations.FloatResultsAreRounded := by
  refine ⟨fun f rm u a b c eb fb bias top vec shape => ?_, fun dst src rm u a eb fb bias top cvt _ => ⟨?_, ?_, ?_⟩⟩
  · have hone := ulpExponent_of_shapeOf shape
    refine ⟨canonicalNan_eq vec shape, fun p m q n ha hb => ?_, fun h => ?_, fun p q ha hb => operations_inf_inf vec shape ha hb rm u,
      fun p q n ha hb => operations_inf_number vec shape hone ha hb rm u⟩
    · exact ⟨fAdd_rounded vec shape hone ha hb rm u, fSub_rounded vec shape hone ha hb rm u, fMul_rounded vec shape hone ha hb rm u,
        fun o k hc => fMa_rounded vec shape hone ha hb hc rm u, fun o hc => fMa_inf vec shape hone ha hb hc rm u,
        fun cond => fCmp_numbers shape hone ha hb cond⟩
    · obtain ⟨sum, difference, product, fused⟩ := operations_nan vec shape h rm u c
      exact ⟨sum, difference, product, fused, fun cond => fCmp_nan h cond⟩
  · intro sb sf sbias stop srcShape shape
    exact ⟨fun p m h => convert_number shape rm u srcShape cvt (ulpExponent_of_shapeOf shape) (ulpExponent_of_shapeOf srcShape) h,
      fun p h => convert_inf shape rm u h, fun h => convert_nan shape rm u h⟩
  · intro w signed hs z
    have z_eq : z = intOfPattern w signed a := (intOfPattern_eq w signed a).symm
    rw [z_eq]
    refine ⟨fun shape => convert_int_number shape rm u hs cvt (ulpExponent_of_shapeOf shape), fun b signed' hd => ?_⟩
    rw [convert_int rm u a hs hd, intLimits_eq]
  · intro sb sf sbias stop b signed srcShape hd lo hi limit
    have limit_eq (p : Bool) : limit p = (unsgn b (if p then (intLimits b signed).1 else (intLimits b signed).2), flagNV) := by
      rw [unsgn_eq, intLimits_eq]; rfl
    refine ⟨convert_nan_to_int hd srcShape rm u, fun p h => ?_, fun p m n h => ?_⟩
    · rw [limit_eq, convert_inf_to_int hd srcShape rm u h]
    · intro one below above i z
      have i_eq : i = n + (roundsUp rm u p n m one).toNat := by
        show n + (if roundsUp rm u p n m one = true then 1 else 0) = _
        cases roundsUp rm u p n m one <;> rfl
      have z_eq : z = signedMag p (n + (roundsUp rm u p n m one).toNat) := congrArg (signedMag p) i_eq
      rw [convert_number_to_int hd srcShape rm u (ulpExponent_of_shapeOf srcShape) h below above, limit_eq, z_eq, ← unsgn_eq,
        intLimits_eq]
      rfl

end Sys2Proof.Proofs
end

section
/-! PROOF. What a step runs: the instruction that the word at the head of the agenda decodes to, one lemma for each kind of item
(05 R92, R93, 12 R249, 18 R335, R340, 21 R382). -/

namespace Sys2Proof.Machine

theorem step_of_fetch_run {s : State} {i : Instr} (h : s.fetch = .run i) : step s = exec i s := by
  unfold step; rw [h]

section
variable {s : State} {p c : Nat} {cl : Cluster} {w : Word} {i : Instr} {l : List Item}

theorem State.fetchIssue_run (hw : s.wordAt p cl ((s.core c).cursor cl) = some w) (h : decodeNative cl w = .ok i) :
    s.fetchIssue p c cl = .run i := by
  simp only [State.fetchIssue, hw, h]

/-- A word that decodes, and names no missing entry, has no fault of 03 R50. -/
theorem State.wordFault_none (h : decodeNative cl w = .ok i) (good : s.indexBad p i = false) : s.wordFault p cl w = none := by
  simp [State.wordFault, h, good]

theorem State.fetchCheck_run (hw : s.wordAt p cl ((s.core c).cursor cl) = some w) (h : decodeNative cl w = .ok i)
    (good : s.indexBad p i = false) : s.fetchCheck p c cl = .run i := by
  simp only [State.fetchCheck, hw, State.wordFault_none h good, h]

theorem State.fetchHandler_run (hw : s.handlerWord p c = some w) (h : decodeNative .s w = .ok i)
    (good : s.indexBad p i = false ∨ s.guardTrue p c (wordFrame w) = true) : s.fetchHandler p c = .run i := by
  rcases good with good | good <;> simp [State.fetchHandler, hw, h, good]

theorem State.fetchEngine_run {e : EngineId} {g : Engine} (hg : (s.core c).getEng (engNum e) = g)
    (h : decodeEngine e (g.word g.pc) = .ok i) : s.fetchEngine c e = .run i ∧ s.fetchEngineCheck p c e = .run i := by
  subst hg
  exact ⟨by simp only [State.fetchEngine, State.engineDecode, h], by simp only [State.fetchEngineCheck, State.engineDecode, h]⟩

theorem State.fetchPortable_run {w : BitVec 32} (hw : s.portableAt p = some w) (h : decodePortable w = .ok i) :
    s.fetchPortable p c = .run i ∧ s.fetchPortableCheck p c = .run i :=
  ⟨by simp only [State.fetchPortable, hw, h], by simp only [State.fetchPortableCheck, hw, h, portableCls]⟩

theorem State.fetch_issue (ha : s.agenda = .issue p c cl :: l) : s.fetch = s.fetchIssue p c cl := by
  unfold State.fetch; rw [ha]

theorem State.fetch_engine {e : EngineId} (ha : s.agenda = .engine p c e :: l) : s.fetch = s.fetchEngine c e := by
  unfold State.fetch; rw [ha]

theorem State.fetch_checkEngine {e : EngineId} (ha : s.agenda = .checkEngine p c e :: l) : s.fetch = s.fetchEngineCheck p c e := by
  unfold State.fetch; rw [ha]

theorem State.fetch_portable (ha : s.agenda = .portable p c :: l) : s.fetch = s.fetchPortable p c := by
  unfold State.fetch; rw [ha]

theorem State.fetch_checkPortable (ha : s.agenda = .checkPortable p c :: l) : s.fetch = s.fetchPortableCheck p c := by
  unfold State.fetch; rw [ha]

theorem State.fetch_event (ha : s.agenda = .event i :: l) : s.fetch = .run i := by
  unfold State.fetch; rw [ha]

end

end Sys2Proof.Machine

namespace Sys2Proof.Proofs

open Sys2Proof.Machine

/-- Settles O6: each kind of item fetches the instruction of its word. -/
theorem stepRunsDecodedWord : Obligations.StepRunsDecodedWord := by
  intro s i p c l
  refine ⟨fun cl w hw decoded => ⟨fun issue => ?_, fun check good => ?_⟩, fun w handler hw decoded good => ?_,
    fun e g hg decoded => ?_, fun w hw decoded => ?_, fun event => ?_⟩
  · exact step_of_fetch_run ((State.fetch_issue issue).trans (State.fetchIssue_run hw decoded))
  · exact step_of_fetch_run ((State.fetch_check check).trans (State.fetchCheck_run hw decoded good))
  · exact step_of_fetch_run ((State.fetch_handler handler).trans (State.fetchHandler_run hw decoded good))
  · obtain ⟨runs, checked⟩ := State.fetchEngine_run (p := p) hg decoded
    rintro (ha | ha)
    · exact step_of_fetch_run ((State.fetch_engine ha).trans runs)
    · exact step_of_fetch_run ((State.fetch_checkEngine ha).trans checked)
  · obtain ⟨runs, checked⟩ := State.fetchPortable_run (c := c) hw decoded
    rintro (ha | ha)
    · exact step_of_fetch_run ((State.fetch_portable ha).trans runs)
    · exact step_of_fetch_run ((State.fetch_checkPortable ha).trans checked)
  · exact step_of_fetch_run (State.fetch_event event)

end Sys2Proof.Proofs
end

section
/-! PROOF. Decision-class words, STOP, PULSE, SPAWN and BAR at their issue (05 R118, R122 to R129). -/

namespace Sys2Proof.Machine

/-! ### Votes (05 R99 to R101) -/

/-- What a vote makes of the pending operation: the first word of a tick makes it, and others of that tick add their values. -/
def Part.addVote (x : Ctx) (kind : DecisionKind) (v : PWord) (k : Part) : Part :=
  match k.decision with
  | none => { k with decision := some ⟨kind, x.t, x.who, [(x.c, v)]⟩ }
  | some o => if o.issue = x.t then { k with decision := some { o with votes := o.votes ++ [(x.c, v)] } } else k

theorem State.vote_eq (s : State) (x : Ctx) (kind : DecisionKind) (v : PWord) :
    s.vote x kind v = s.modPart x.p (Part.addVote x kind v) := by
  unfold State.vote
  congr 1
  funext k
  unfold Part.addVote
  cases k.decision <;> rfl

section
variable {s t : State} {f : Frame} {x : Ctx} (h : Claims.Issues s f .s x t)
include h

theorem exec_decide_issues (a : XReg) (d : BitVec 8) : exec (.decide f a d) s =
    .next (t.modPart x.p (Part.addVote x (.decide d.toNat) ((t.core x.c).getX a.val))) :=
  congrArg Host.Outcome.next ((nativeWord_of_issues h).trans (State.vote_eq ..))

theorem exec_loop_issues (a : XReg) (l : BitVec 8) : exec (.loop f a l) s =
    .next (t.modPart x.p (Part.addVote x (.loop l.toNat) ((t.core x.c).getX a.val))) :=
  congrArg Host.Outcome.next ((nativeWord_of_issues h).trans (State.vote_eq ..))

theorem exec_call_issues (target ret : BitVec 12) : exec (.call f target ret) s =
    .next (t.modPart x.p (Part.addVote x (.call target.toNat ret.toNat) Pv.zero)) :=
  congrArg Host.Outcome.next ((nativeWord_of_issues h).trans (State.vote_eq ..))

theorem exec_ret_issues : exec (.ret f) s = .next (t.modPart x.p (Part.addVote x .ret Pv.zero)) :=
  congrArg Host.Outcome.next ((nativeWord_of_issues h).trans (State.vote_eq ..))

theorem exec_chkp_issues (d : BitVec 8) : exec (.chkp f d) s =
    .next ((t.modCore x.c fun k => { k with poisonSeen := false }).modPart x.p
      (Part.addVote x (.chkp d.toNat) ⟨ofBool (t.core x.c).poisonSeen, false⟩)) :=
  congrArg Host.Outcome.next ((nativeWord_of_issues h).trans (State.vote_eq ..))

/-! ### STOP, PULSE and SPAWN (05 R126, R128, R129) -/

theorem exec_stop_issues : exec (.stop f) s =
    .next (t.modPart x.p fun k => { k with stop := some x.t, decision := none }) :=
  congrArg Host.Outcome.next (nativeWord_of_issues h)

theorem exec_pulse_issues : exec (.pulse f) s = .next (t.modPart x.p fun k => { k with pulseAt := x.t }) :=
  congrArg Host.Outcome.next (nativeWord_of_issues h)

theorem exec_spawn_issues (n : BitVec 46) : exec (.spawn f n) s =
    .next (if (t.part x.p).pend.any fun d => d.tick == x.t + 2 && d.act == .arm n.toNat then t
      else t.later x (x.t + 2) (.arm n.toNat)) :=
  congrArg Host.Outcome.next (nativeWord_of_issues h)

theorem exec_bar_issues (id : BitVec 8) (sc : Scope) (j : Join) : exec (.bar f id sc j) s =
    .next (t.barArrive x id.toNat j) :=
  congrArg Host.Outcome.next (nativeWord_of_issues h)

end

/-- An arming of entry `n` at a tick is among the work in flight. -/
theorem any_arm_iff (l : List Due) (tick n : Nat) :
    (l.any fun d => d.tick == tick && d.act == .arm n) = true ↔ ∃ d ∈ l, d.tick = tick ∧ d.act = .arm n := by
  simp

/-! ### BAR (05 R118, R127) -/

/-- A frame that leaves, or waits at its port, changes the ports and the outbox alone. -/
theorem State.send_frame (s : State) (f : Packet) : { s.send f with ports := s.ports, outbox := s.outbox } = s := by
  unfold State.send State.sendOn
  split <;> rfl

/-- Telling the other modules changes the ports and the outbox alone. -/
theorem State.tellModules_frame (s : State) (base g : Nat) :
    { s.tellModules base g with ports := s.ports, outbox := s.outbox } = s := by
  refine List.foldlRecOn _ _ (motive := fun t : State => { t with ports := s.ports, outbox := s.outbox } = s) rfl ?_
  intro t kept m _
  calc { t.send (barrierPacket m t.modNum base t.wall g) with ports := s.ports, outbox := s.outbox }
      = { { t.send (barrierPacket m t.modNum base t.wall g) with ports := t.ports, outbox := t.outbox } with
          ports := s.ports, outbox := s.outbox } := rfl
    _ = s := by rw [State.send_frame, kept]

/-- The join code of the first member of this module that arrived is another. -/
def joinDiffers (l : List Arrival) (j : Join) : Bool :=
  match l.find? fun a => a.part.isSome with
  | some a => a.join != j
  | none => false

section
variable (s : State) (x : Ctx) (g : Nat) (j : Join) (fresh : ∀ a ∈ tget [] s.arrivals g, a.part ≠ some x.p)
include fresh

/-- The first BAR of a member whose join code differs diverges, and does not arrive. -/
theorem State.barArrive_differs (differs : joinDiffers (tget [] s.arrivals g) j = true) : s.barArrive x g j =
    s.addCond x.p ⟨x.t + 1, .divergence, x.who, x.who.word, .continue_⟩ := by
  have new : ((tget [] s.arrivals g).any fun a => a.part == some x.p) = false := by simpa using fresh
  unfold State.barArrive
  simp only [new, Bool.false_eq_true, if_false]
  exact if_pos differs

/-- The first BAR of a member is its arrival, which holds the partition. -/
theorem State.barArrive_arrives (agrees : joinDiffers (tget [] s.arrivals g) j = false) :
    tget [] (s.barArrive x g j).arrivals g = tget [] s.arrivals g ++
      [⟨some x.p, s.modNum, (s.part x.p).base, s.wall, s.wall, j⟩] ∧
    ((s.barArrive x g j).part x.p).waits = (s.part x.p).waits ++ [.barrier g] ∧ (s.barArrive x g j).cores = s.cores := by
  have new : ((tget [] s.arrivals g).any fun a => a.part == some x.p) = false := by simpa using fresh
  let u := ({ s with arrivals := tput s.arrivals g (tget [] s.arrivals g ++
    [⟨some x.p, s.modNum, (s.part x.p).base, s.wall, s.wall, j⟩]) } : State).addWait x.p (.barrier g)
  have run : s.barArrive x g j = if groupPod (u.groupWord g) then u.tellModules (s.part x.p).base g else u := by
    unfold State.barArrive
    simp only [new, Bool.false_eq_true, if_false]
    exact if_neg (Bool.eq_false_iff.mp agrees)
  have told : { s.barArrive x g j with ports := u.ports, outbox := u.outbox } = u := by
    rw [run]
    split
    · exact u.tellModules_frame _ _
    · rfl
  have arrivals : (s.barArrive x g j).arrivals = u.arrivals := congrArg (·.arrivals) told
  have parts : (s.barArrive x g j).parts = u.parts := congrArg (·.parts) told
  have cores : (s.barArrive x g j).cores = u.cores := congrArg (·.cores) told
  refine ⟨?_, ?_, cores⟩
  · rw [arrivals]
    exact tget_tput_self _ _ _ _
  · rw [State.part_congr parts]
    exact congrArg Part.waits (State.part_modPart _ _ _)

end

theorem joinDiffers_eq_false {l : List Arrival} {j : Join}
    (h : (l.find? fun a => a.part.isSome) = none ∨ ∃ a, (l.find? fun a => a.part.isSome) = some a ∧ a.join = j) :
    joinDiffers l j = false := by
  rcases h with h | ⟨a, h, same⟩
  · simp only [joinDiffers, h]
  · simp [joinDiffers, h, same]

theorem joinDiffers_eq_true {l : List Arrival} {j : Join} {a : Arrival} (h : (l.find? fun a => a.part.isSome) = some a)
    (other : a.join ≠ j) : joinDiffers l j = true := by
  simpa [joinDiffers, h] using other

end Sys2Proof.Machine

namespace Sys2Proof.Proofs

open Sys2Proof.Machine Sys2Proof.Claims

/-- Settles O16: each word votes, and CHKP clears the poison-seen bit before it does. -/
theorem decisionWords : Obligations.DecisionWords := by
  intro s f x t h puts
  have vote (u : State) (kind : DecisionKind) (v : PWord) :
      puts u kind v = .next (u.modPart x.p (Part.addVote x kind v)) := by
    refine congrArg (fun g => Host.Outcome.next (u.modPart x.p g)) (funext fun k => ?_)
    unfold Part.addVote
    cases k.decision <;> rfl
  refine ⟨fun a d => ⟨?_, ?_⟩, fun u v => ?_, ?_, fun d => ?_⟩
  · rw [vote, exec_decide_issues h]; rfl
  · rw [vote, exec_loop_issues h]; rfl
  · rw [vote, exec_call_issues h]; rfl
  · rw [vote, exec_ret_issues h]; rfl
  · rw [vote, exec_chkp_issues h]; rfl

/-- Settles O17: what each word does at its issue; a BAR by the join code of the first member that arrived. -/
theorem stopPulseSpawnBarrierWords : Obligations.StopPulseSpawnBarrierWords := by
  refine ⟨fun s f x t h => ⟨exec_stop_issues h, exec_pulse_issues h, fun n free => ?_, fun n armed => ?_⟩,
    fun s f x t id sc j h fresh => ?_⟩
  · rw [exec_spawn_issues h, if_neg (fun any => by
      obtain ⟨d, inFlight, arms⟩ := (any_arm_iff _ _ _).mp any
      exact free d inFlight arms), lands]
  · rw [exec_spawn_issues h, if_pos ((any_arm_iff _ _ _).mpr armed)]
  · refine ⟨fun agrees => ?_, fun a found other => ?_⟩
    · exact ⟨_, exec_bar_issues h id sc j, t.barArrive_arrives x id.toNat j fresh (joinDiffers_eq_false agrees)⟩
    · rw [exec_bar_issues h, t.barArrive_differs x id.toNat j fresh (joinDiffers_eq_true found other)]

end Sys2Proof.Proofs
end

section
/-! PROOF. A word with a false guard, or one that a trap skipped: every native instruction is `nativeWord` of its frame, under
`wakeOnCheck` for the words that may wake sub-arrays, and neither does more than move the cluster on (05 R93, 18 R335). -/

namespace Sys2Proof.Machine

/-- A word whose checks do not run wakes nothing. -/
theorem wakeOnCheck_skipped {sa : SaMask} {f : Frame} {s t : State} {p c : Nat} {cl : Cluster} {l : List Item}
    (ha : s.agenda = .check p c cl :: l) (hg : s.guardTrue p c f = false) : wakeOnCheck sa f s t = t := by
  simp only [wakeOnCheck, ha, hg, Bool.false_and, Bool.false_eq_true, if_false]

theorem wakeOnCheck_issue {sa : SaMask} {f : Frame} {s t : State} {p c : Nat} {cl : Cluster} {l : List Item}
    (ha : s.agenda = .issue p c cl :: l) : wakeOnCheck sa f s t = t := by
  simp only [wakeOnCheck, ha]

/-- What executing a native instruction is: the common part of every native word with the instruction's own checks and effect, under
`wakeOnCheck` for MLW, MLWP and MMA. -/
def runsAsNative (i : Instr) (r : NativeForm) : Prop :=
  ∃ (pr : Ctx → State → Probe) (e : Ctx → State → State),
    (∀ s, exec i s = .next (nativeWord r.cluster i r.frame pr e s)) ∨
    ∃ sa : SaMask, ∀ s, exec i s = .next (wakeOnCheck sa r.frame s (nativeWord r.cluster i r.frame pr e s))

/-- The masked integer operations share one form. -/
theorem vecInt_runs (i : Instr) (f : Frame) (d a b : VReg) (k : Num3) (fmt : Fmt) (g : Fmt → Nat → Nat → Nat) :
    ∃ (pr : Ctx → State → Probe) (e : Ctx → State → State), ∀ s, vecInt i f d a b k fmt g s = nativeWord .v i f pr e s := by
  unfold vecInt
  exact ⟨_, _, fun _ => rfl⟩

theorem runsAsNative_of_native {i : Instr} {r : NativeForm} (h : i.native = some r) : runsAsNative i r := by
  cases i with
  | mlw | mlwp | mma =>
    cases h
    exact ⟨_, _, .inr ⟨_, fun _ => rfl⟩⟩
  | vadd | vsub | vmul | vmulh | vmin | vmax | vand | vor | vxor | vshl | vshr =>
    cases h
    obtain ⟨pr, e, run⟩ := vecInt_runs _ _ _ _ _ _ _ _
    exact ⟨pr, e, .inl fun s => congrArg Host.Outcome.next (run s)⟩
  | _ =>
    cases h <;> exact ⟨_, _, .inl fun _ => rfl⟩

end Sys2Proof.Machine

namespace Sys2Proof.Proofs

open Sys2Proof.Machine

/-- Settles O19: the common part of native words, and the wakes of a check, look at the guard first. -/
theorem falseGuardOnlyMovesOn : Obligations.FalseGuardOnlyMovesOn := by
  intro s i r p c l native
  obtain ⟨pr, e, run | ⟨sa, run⟩⟩ := runsAsNative_of_native native
  · refine ⟨fun ha guard => ?_, fun ha skipped => ?_⟩
    · rw [run, nativeWord_check ha, guard, if_neg Bool.false_ne_true]
    · rw [run, nativeWord_skip ha (by rcases skipped with h | h <;> rw [h] <;> simp)]
  · refine ⟨fun ha guard => ?_, fun ha skipped => ?_⟩
    · rw [run, wakeOnCheck_skipped ha guard, nativeWord_check ha, guard, if_neg Bool.false_ne_true]
    · rw [run, wakeOnCheck_issue ha, nativeWord_skip ha (by rcases skipped with h | h <;> rw [h] <;> simp)]

end Sys2Proof.Proofs
end

section
/-! PROOF. Scalar loads and stores of portable code: what their checks raise, the tick they are timed from, and the work that they
set in flight (21 R383, R385; 07 R183, R188, R189). -/

namespace Sys2Proof.Machine

/-! ### Portable instructions at their check -/

theorem portableWord_check {u : HwUnit} {pr : Ctx → State → Probe} {e : Ctx → State → State × Next} {s : State} {p c : Nat}
    {l : List Item} (ha : s.agenda = .checkPortable p c :: l) : portableWord u pr e s =
      raisePortable (s.portCtx p c u) s.popItem (pr (s.portCtx p c u) s.popItem) := by
  simp only [portableWord, ha]; rfl

theorem raisePortable_trap (x : Ctx) (s : State) (k : Cls) (v : Word) :
    raisePortable x s (.trap k v) = Claims.raised s x.p ⟨x.t, k, x.who, v, .void x.c .s⟩ :=
  congrArg (s.modPart x.p) (funext fun q => by simp [Probe.trap])

/-- A probe that finds nothing raises no condition and freezes nothing. -/
theorem raisePortable_ok (x : Ctx) (s : State) : ((raisePortable x s .ok).part x.p).conds = (s.part x.p).conds ∧
    ((raisePortable x s .ok).part x.p).waits = (s.part x.p).waits ∧ (raisePortable x s .ok).cores = s.cores := by
  simp [raisePortable, Probe.ok, State.modPart]

section
variable {va : Word} {n : Nat}

theorem portableVa_misaligned (h : va.toNat % n ≠ 0) : portableVa va n = .trap .layoutBound va := if_pos h

theorem portableVa_outside (h : va.toNat % n = 0) (past : 2 ^ 52 < va.toNat + n) :
    portableVa va n = .trap .layoutBound (boundPlace 1 0xF 2 va.toNat) := by
  rw [portableVa, if_neg (not_not_intro h), Probe.when, if_pos (decide_eq_true past)]

theorem portableVa_inside (h : va.toNat % n = 0) (fits : va.toNat + n ≤ 2 ^ 52) : portableVa va n = .ok := by
  rw [portableVa, if_neg (not_not_intro h), Probe.when, if_neg (by simpa using fits)]

end

theorem poisonProbe_andThen (x : Ctx) (v : PWord) (pr : Probe) :
    (poisonProbe x v).andThen pr = if v.p then .trap .poisonStore x.who.word else pr := by
  cases h : v.p <;> simp [poisonProbe, h, Probe.when, Probe.andThen, Probe.trap, Probe.ok]

section
variable {s : State} {p c : Nat} {l : List Item} (ha : s.agenda = .checkPortable p c :: l)
include ha

theorem exec_rvLoad_check (op : RvLoadOp) (d a : XReg) (o : BitVec 12) : exec (.rvLoad op d a o) s =
    .next (raisePortable (s.portCtx p c .a) s.popItem
      (portableVa (((s.core c).getX a.val).v + o.signExtend 64) (rvLoadShape op).1)) :=
  congrArg Host.Outcome.next (portableWord_check ha)

theorem exec_rvStore_check (op : RvStoreOp) (a b : XReg) (o : BitVec 12) : exec (.rvStore op a b o) s =
    .next (raisePortable (s.portCtx p c .a) s.popItem
      (if ((s.core c).getX b.val).p then .trap .poisonStore (s.portCtx p c .a).who.word
        else portableVa (((s.core c).getX a.val).v + o.signExtend 64) (rvStoreSize op))) := by
  rw [← poisonProbe_andThen]
  exact congrArg Host.Outcome.next (portableWord_check ha)

end

/-! ### The tick an access is timed from (07 R183, R188, R189) -/

theorem accessTiming_base (t : State) (x : Ctx) (first last : Nat) (o : Order) (sc : Scope) (ld st : Bool) :
    (accessTiming (t.part x.p).loose (t.core x.c) x.t first last o sc ld st).base = Claims.timedFrom t x first o sc ld st := by
  have release : (o == .rel || o == .ar) = decide (o = .rel ∨ o = .ar) := by cases o <;> rfl
  by_cases h : o = .rel ∨ o = .ar
  · simp only [accessTiming, Claims.timedFrom, release, h, decide_true, if_true, Bool.and_eq_true, decide_eq_true_eq]
  · simp only [accessTiming, Claims.timedFrom, release, h, decide_false, Bool.false_eq_true, if_false, Nat.max_zero,
      Bool.and_eq_true, decide_eq_true_eq]

/-- What an access leaves for later ones is no data. -/
theorem DataKept.timing (s : State) (c : Nat) (loose : Bool) (t first last : Nat) (o : Order) (sc : Scope) (ld st : Bool) :
    DataKept s (s.setCore c (accessTiming loose (s.core c) t first last o sc ld st).core) :=
  DataKept.setCore s c _ ⟨rfl, rfl, rfl, rfl, rfl, rfl, rfl, rfl⟩

theorem DataKept.sameData {t u : State} (h : DataKept t u) : Claims.sameData t u :=
  ⟨h.hbm, h.hostMem, fun c => ⟨h.ring c, h.pocket c, h.x c, h.c c, h.v c, h.k c, h.st c, h.lt c⟩⟩

/-! ### The end of a portable instruction -/

theorem Core.kvUse_data (k : Core) (l : List Nat) : (k.kvUse l).ring = k.ring ∧ (k.kvUse l).pocket = k.pocket ∧
    (k.kvUse l).x = k.x ∧ (k.kvUse l).c = k.c ∧ (k.kvUse l).v = k.v ∧ (k.kvUse l).k = k.k ∧ (k.kvUse l).st = k.st ∧
    (k.kvUse l).lt = k.lt := by
  unfold Core.kvUse
  split <;> exact ⟨rfl, rfl, rfl, rfl, rfl, rfl, rfl, rfl⟩

theorem DataKept.portDone {t : State} {r : State × Next} {lat : Nat} (kept : DataKept t r.1) (next : r.2 = .on lat) (p c : Nat) :
    DataKept t (r.1.portDone p c r.2) := by
  rw [next]
  show DataKept t (((r.1.modCore c fun k => k.kvUse (r.1.threadNames p)).counted c).portVote p c (.on lat))
  have used := kept.trans (DataKept.modCore r.1 c _ fun k => k.kvUse_data (r.1.threadNames p))
  have counted := used.trans (DataKept.modCore _ c (fun k => { k with instret := k.instret + 1 })
    fun _ => ⟨rfl, rfl, rfl, rfl, rfl, rfl, rfl, rfl⟩)
  exact counted.trans (DataKept.modPart _ p _)

/-- The end of an instruction takes no work away. -/
theorem WorkKept.portDone (s : State) (p c : Nat) (n : Next) : WorkKept p s (s.portDone p c n) := by
  intro d hd
  unfold State.portDone State.portVote
  rw [State.part_modPart]
  cases n <;> exact hd

/-! ### The work of an access -/

section
variable (s : State) (x : Ctx) (va : Nat) (a : Access → Act)

theorem State.portRead_spec : ∃ i, let e := Claims.timedFrom s x (farLatency (s.part x.p).loose / 2) .rlx .co true false
    let lat := farLatency (s.part x.p).loose
    DataKept s (s.portRead x va a).1 ∧ (s.portRead x va a).2 = .on (e + lat - x.t) ∧
    ⟨e + lat / 2, samplePlace, x.who, a ⟨.global va, 0xF, i, false, e + lat, [], false⟩⟩ ∈ ((s.portRead x va a).1.part x.p).pend := by
  refine ⟨(s.part x.p).seq + 1, ?_⟩
  rw [← accessTiming_base s x _ (farLatency (s.part x.p).loose / 2)]
  refine ⟨?_, rfl, ?_⟩
  · exact ((DataKept.timing s x.c _ _ _ _ _ _ _ _).trans (DataKept.nextSeq _ x.p)).trans (DataKept.sampleAt _ x _ _)
  · exact (State.mem_addDue _ _ _ _).mpr (.inl rfl)

theorem State.portWrite_spec (run : x.handler = false) :
    ∃ i, let e := Claims.timedFrom s x (farLatency (s.part x.p).loose / 2) .rlx .co false true
    let lat := farLatency (s.part x.p).loose
    DataKept s (s.portWrite x va a).1 ∧ (s.portWrite x va a).2 = .on (e + lat / 2 + 1 - x.t) ∧
    ⟨e + lat / 2, unitPlace x.who.unit, x.who, a ⟨.global va, 0xF, i, false, e + lat / 2, [], false⟩⟩ ∈
      ((s.portWrite x va a).1.part x.p).pend := by
  refine ⟨(s.part x.p).seq + 1, ?_⟩
  rw [← accessTiming_base s x _ (farLatency (s.part x.p).loose / 2)]
  refine ⟨?_, rfl, ?_⟩
  · exact ((DataKept.timing s x.c _ _ _ _ _ _ _ _).trans (DataKept.nextSeq _ x.p)).trans (DataKept.later _ x _ _ run)
  · simp only [State.portWrite, State.later_word _ x _ _ run]
    exact (State.mem_addDue _ _ _ _).mpr (.inl rfl)

end

/-- An instruction that runs and goes on leaves the data and the work of its effect. -/
theorem portableWord_of_runs {u : HwUnit} {pr : Ctx → State → Probe} {e : Ctx → State → State × Next} {s t : State} {x : Ctx}
    (h : Claims.Runs32 s u x t) : portableWord u pr e s = (e x t).1.portDone x.p x.c (e x t).2 := by
  obtain ⟨p, c, l, agenda, kept⟩ := h
  exact portableWord_runs agenda kept

theorem unit_of_runs {u : HwUnit} {s t : State} {x : Ctx} (h : Claims.Runs32 s u x t) : x.who.unit = u ∧ x.handler = false := by
  obtain ⟨p, c, l, -, -⟩ := h
  exact ⟨rfl, rfl⟩

section
variable {s t : State} {x : Ctx} (h : Claims.Runs32 s .a x t)
include h

theorem exec_rvLoad_runs (op : RvLoadOp) (d a : XReg) (o : BitVec 12) :
    let va := ((Claims.xr t x a).v + o.signExtend 64).toNat
    let lat := farLatency (t.part x.p).loose
    ∃ (u : State) (e i : Nat), exec (.rvLoad op d a o) s = .next u ∧ Claims.sameData t u ∧
      e = Claims.timedFrom t x (lat / 2) .rlx .co true false ∧
      ⟨e + lat / 2, samplePlace, x.who, .loadX ⟨.global va, 0xF, i, false, e + lat, [], false⟩ d.val (rvLoadShape op).1
        (rvLoadShape op).2⟩ ∈ (u.part x.p).pend := by
  intro va lat
  obtain ⟨i, kept, next, work⟩ := t.portRead_spec x va fun acc => .loadX acc d.val (rvLoadShape op).1 (rvLoadShape op).2
  exact ⟨_, _, i, congrArg Host.Outcome.next (portableWord_of_runs h), (kept.portDone next x.p x.c).sameData, rfl,
    WorkKept.portDone _ x.p x.c _ _ work⟩

theorem exec_rvStore_runs (op : RvStoreOp) (a b : XReg) (o : BitVec 12) :
    let va := ((Claims.xr t x a).v + o.signExtend 64).toNat
    let lat := farLatency (t.part x.p).loose
    ∃ (u : State) (e i : Nat), exec (.rvStore op a b o) s = .next u ∧ Claims.sameData t u ∧
      e = Claims.timedFrom t x (lat / 2) .rlx .co false true ∧
      ⟨e + lat / 2, 2, x.who, .storeEls ⟨.global va, 0xF, i, false, e + lat / 2, [], false⟩ [some (.global va)]
        ((Claims.xr t x b).v.setWidth 512) (8 * rvStoreSize op)⟩ ∈ (u.part x.p).pend := by
  intro va lat
  obtain ⟨unit, run⟩ := unit_of_runs h
  obtain ⟨i, kept, next, work⟩ := t.portWrite_spec x va (fun acc => .storeEls acc [some (.global va)]
    ((Claims.xr t x b).v.setWidth 512) (8 * rvStoreSize op)) run
  rw [unit] at work
  exact ⟨_, _, i, congrArg Host.Outcome.next (portableWord_of_runs h), (kept.portDone next x.p x.c).sameData, rfl,
    WorkKept.portDone _ x.p x.c _ _ work⟩

end

end Sys2Proof.Machine

namespace Sys2Proof.Proofs

open Sys2Proof.Machine Sys2Proof.Claims

/-- Settles O48: at their check the address and the stored value decide, and at their tick one piece of work sets out. -/
theorem portableAccessWords : Obligations.PortableAccessWords := by
  intro a b d o o1 n sg o2 m load store
  have shape : rvLoadShape o1 = (n, sg) := (show ∀ e ∈ _, rvLoadShape e.1 = e.2 by decide) _ load
  have size : rvStoreSize o2 = m := (show ∀ e ∈ _, rvStoreSize e.1 = e.2 by decide) _ store
  refine ⟨fun s p c l ha => ?_, fun s t x h => ⟨?_, ?_⟩⟩
  · intro w va trap passes
    have traps (k : Cls) (v : Word) : Host.Outcome.next (raisePortable (s.portCtx p c .a) s.popItem (.trap k v)) = trap k v :=
      congrArg Host.Outcome.next (raisePortable_trap ..)
    have ok := raisePortable_ok (s.portCtx p c .a) s.popItem
    have loads := exec_rvLoad_check ha o1 d a o
    have stores := exec_rvStore_check ha o2 a b o
    rw [shape] at loads
    rw [size] at stores
    refine ⟨fun misaligned => ?_, fun poisoned => ?_, fun clean misaligned => ?_, fun aligned past => ?_,
      fun clean aligned past => ?_, fun aligned fits => ?_, fun clean aligned fits => ?_⟩
    · rw [loads, portableVa_misaligned misaligned, traps]
    · rw [stores, poisoned, if_pos rfl, traps]
    · rw [stores, clean, if_neg Bool.false_ne_true, portableVa_misaligned misaligned, traps]
    · rw [loads, portableVa_outside aligned past, traps]
    · rw [stores, clean, if_neg Bool.false_ne_true, portableVa_outside aligned past, traps]
    · exact ⟨_, by rw [loads, portableVa_inside aligned fits], ok⟩
    · exact ⟨_, by rw [stores, clean, if_neg Bool.false_ne_true, portableVa_inside aligned fits], ok⟩
  · have runs := exec_rvLoad_runs h o1 d a o
    rw [shape] at runs
    exact runs
  · have runs := exec_rvStore_runs h o2 a b o
    rw [size] at runs
    exact runs

end Sys2Proof.Proofs
end

section
/-! PROOF. A decision that would switch at or after a loop's boundary (05 R107, R108): the overlap that the boundary raises, whose
resumption action drops the decision, where the statement of the control events has it go on. -/

namespace Sys2Proof.Machine

/-- A boundary that meets a pending decision raises its overlap. -/
theorem exec_iterationBoundary_overlap (s : State) (p : Nat) (l : Level) (outer : List Level) (d : Pending)
    (loops : (s.popEvent.part p).loops = l :: outer) (begun : l.begun = true) (due : l.clock = (l.period + 1) * l.entry.period)
    (more : l.period + 1 < l.count.toNat + l.entry.stages - 1) (decision : (s.popEvent.part p).decision = some d) :
    exec (.iterationBoundary p) s = .next (s.popEvent.overlapAt p d) := by
  have within : ¬ l.count.toNat + l.entry.stages - 1 ≤ l.period + 1 := Nat.not_le.mpr more
  show execIterationBoundary p s = _
  simp [execIterationBoundary, State.iterationBoundary, loops, begun, due, within, decision]

/-- What resuming does for each condition that partition `p` has met. -/
def State.resumptions (s : State) (p : Nat) : List Fix := (s.part p).conds.map (·.fix)

/-- Period 0 of a loop of two periods of one tick, at its boundary. -/
def Level.atBoundary : Level := ⟨0, loopEmpty, 2, 0, 1, 0, [], 0, true, []⟩

/-- A RET that has issued on this tick. -/
def Pending.return_ : Pending := ⟨.ret, 0, ⟨0, .s, .body 0, 0, 0, 0⟩, []⟩

/-- Partition 0 at the boundary of its loop, with a decision pending. -/
def State.overlapping : State :=
  { State.reset with parts := [(0, { Part.absent with loops := [Level.atBoundary], decision := some Pending.return_ })] }

/-- The overlap's resumption action drops the decision. -/
theorem State.overlapping_resumptions : (State.overlapping.overlapAt 0 Pending.return_).resumptions 0 = [.undecide 0] := by
  decide

end Sys2Proof.Machine

namespace Sys2Proof.Proofs

open Sys2Proof.Machine

/-- Refutes O51: at a loop's boundary that a pending decision meets, the condition raised resumes by dropping the decision
(`Fix.undecide`), and not by `Fix.continue_`. -/
theorem not_switchEvents : ¬ Obligations.SwitchEvents := by
  intro h
  obtain ⟨-, boundary, -⟩ := h
  obtain ⟨next, -⟩ := boundary State.overlapping 0 Level.atBoundary [] rfl rfl
  obtain ⟨-, overlap⟩ := next rfl (by decide)
  have stated := overlap Pending.return_ rfl
  rw [exec_iterationBoundary_overlap State.overlapping 0 Level.atBoundary [] Pending.return_ rfl rfl rfl (by decide) rfl] at stated
  have resumes := congrArg (State.resumptions · 0) (Host.Outcome.next.inj stated)
  exact absurd (State.overlapping_resumptions.symm.trans resumes) (by decide)

end Sys2Proof.Proofs
end

section
/-! PROOF. Where a word of memory traps at its check (18 R335): the order in which its probes are looked at, what the layout and the
format raise, where an element or a row lies outside, and what each word's check comes to. -/

namespace Sys2Proof.Machine

/-! ### Probes -/

@[simp] theorem Probe.trap_andThen (k : Cls) (v : Word) (b : Probe) : (Probe.trap k v).andThen b = .trap k v := rfl
@[simp] theorem Probe.ok_andThen (b : Probe) : Probe.ok.andThen b = b := rfl
@[simp] theorem Probe.when_true (b : Probe) : Probe.when true b = b := rfl
@[simp] theorem Probe.when_false (b : Probe) : Probe.when false b = .ok := rfl

theorem Probe.andThen_assoc (a b c : Probe) : (a.andThen b).andThen c = a.andThen (b.andThen c) := by
  obtain ⟨_ | ⟨k, ks⟩, wa⟩ := a
  · obtain ⟨_ | ⟨k, ks⟩, wb⟩ := b
    · simp [Probe.andThen]
    · rfl
  · rfl

theorem poisonProbe_poisoned {x : Ctx} {v : PWord} (h : v.p = true) : poisonProbe x v = .trap .poisonStore x.who.word := by
  rw [poisonProbe, h, Probe.when_true]

theorem poisonProbe_clean {x : Ctx} {v : PWord} (h : v.p = false) : poisonProbe x v = .ok := by
  rw [poisonProbe, h, Probe.when_false]

/-- The condition that a word's check raises: the word is skipped on resumption. -/
def State.checkTrap (s : State) (p c : Nat) (cl : Cluster) (k : Cls) (v : Word) : State :=
  Claims.raised s.popItem p ⟨(s.part p).tick, k, (s.ctx p c cl).who, v, .void c cl⟩

theorem raiseProbe_trap (s : State) (p c : Nat) (cl : Cluster) (k : Cls) (v : Word) :
    raiseProbe (s.ctx p c cl) cl s.popItem (.trap k v) = s.checkTrap p c cl k v := by
  unfold State.checkTrap
  exact congrArg (s.popItem.modPart p) (funext fun q => by simp [Probe.trap, State.ctx])

/-- A word whose probe is one trap raises it at its check. -/
theorem nativeWord_check_trap {cl : Cluster} {i : Instr} {f : Frame} {pr : Ctx → State → Probe} {e : Ctx → State → State}
    {s : State} {p c : Nat} {l : List Item} {k : Cls} {v : Word} (ha : s.agenda = .check p c cl :: l)
    (hg : s.guardTrue p c f = true) (found : wordProbe i (s.ctx p c cl) (pr (s.ctx p c cl) s.popItem) = .trap k v) :
    nativeWord cl i f pr e s = s.checkTrap p c cl k v := by
  rw [nativeWord_check ha, if_pos hg, found, raiseProbe_trap]

/-- The common order of the checks of an access: its layout and format, a poisoned source, the window of a write, where it lies, and
the rest. -/
def accessChecks (lay poison window place rest : Probe) : Probe := lay.andThen (poison.andThen (window.andThen (place.andThen rest)))

section
variable {lay poison window place rest : Probe} {k : Cls} {v : Word}

theorem accessChecks_lay (h : lay = .trap k v) : accessChecks lay poison window place rest = .trap k v := by
  rw [h]; rfl

theorem accessChecks_poison (hl : lay = .ok) (h : poison = .trap k v) :
    accessChecks lay poison window place rest = .trap k v := by
  rw [hl, h]; rfl

theorem accessChecks_place (hl : lay = .ok) (hp : poison = .ok) (hw : window = .ok) (h : place = .trap k v) :
    accessChecks lay poison window place rest = .trap k v := by
  rw [hl, hp, hw, h]; rfl

end

/-! ### The layout and the format (07 R156, R159, R182, R187) -/

section
variable {w : Word} {st : Str} {l : Lay} {kind : AccessKind} {space : Bool} {accept : Fmt → Bool}

theorem layProbe_reserved (h : layReserved st l kind = true ∨ space = false) :
    layProbe w st l kind space accept = .trap .reservedField w := by
  rcases h with h | h <;> simp [layProbe, h]

theorem layProbe_format (kept : layReserved st l kind = false) (fits : space = true) (h : ∀ m, l.fmt = some m → accept m = false) :
    layProbe w st l kind space accept = .trap .illegalFormat w := by
  cases hf : l.fmt with
  | none => simp [layProbe, kept, fits, hf]
  | some m => simp [layProbe, kept, fits, hf, h m hf]

theorem layProbe_ok (kept : layReserved st l kind = false) (fits : space = true) {m : Fmt} (hf : l.fmt = some m)
    (h : accept m = true) : layProbe w st l kind space accept = .ok := by
  simp [layProbe, kept, fits, hf, h]

end

/-- What makes the fields of a layout and a stream reserved. -/
theorem layReserved_iff (st : Str) (l : Lay) (kind : AccessKind) : layReserved st l kind = true ↔
    st.reserved = true ∨ l.reserved = true ∨ 4 < l.space ∨ (l.skew ≠ 0 ∧ l.space ≠ 0) ∨ (l.home = true ∧ l.space ≠ 2) ∨
      (l.pm = true ∧ ∃ m, l.fmt = some m ∧ m.isPlane = false) ∨ (kind = .element ∧ (l.pm = true ∨ l.space = 4)) ∨
      (kind = .row ∧ ((l.pm = false ∧ l.str.getD 0 0 ≠ 1) ∨ l.space = 4)) := by
  have head : l.str.headD 0 = l.str.getD 0 0 := by cases l.str <;> rfl
  unfold layReserved
  rw [head]
  cases l.fmt <;> cases kind <;> simp [or_assoc]

theorem isScalarFmt_iff (m : Fmt) :
    isScalarFmt m = true ↔ m ∉ [Fmt.mxfp8e4m3, .mxfp8e5m2, .mxfp4, .mxint8, .kc2, .int4, .e2m1] := by
  cases m <;> decide

theorem atomicFmt_iff (z : Option Aop) (m : Fmt) : atomicFmt z m = true ↔
    (m ∈ [Fmt.int32, .int64] ∧ z ≠ some .fadd32 ∨ m ∈ [Fmt.fp32, .fp64] ∧ (z = none ∨ z = some .swap) ∨
      m = .fp32 ∧ z = some .fadd32) := by
  rcases z with _ | z
  · cases m <;> decide
  · cases z <;> cases m <;> decide

/-! ### Coordinates and extents (07 R161) -/

/-- Coordinate `j` of a list lies inside its extent. -/
def withinExtent (cs : List Int) (es : List Nat) (j : Nat) : Prop := 0 ≤ cs.getD j 0 ∧ cs.getD j 0 < (es.getD j 0 : Nat)

theorem withinExtent_cons_succ (c : Int) (cs : List Int) (e : Nat) (es : List Nat) (j : Nat) :
    withinExtent (c :: cs) (e :: es) (j + 1) ↔ withinExtent cs es j := Iff.rfl

theorem outsideDim_cons (d : Nat) (c : Int) (cs : List Int) (e : Nat) (es : List Nat) : outsideDim d (c :: cs) (e :: es) =
    if 0 ≤ c ∧ c < (e : Int) then outsideDim (d + 1) cs es else some d := by
  simp [outsideDim]

theorem outsideDim_eq_none (d : Nat) (cs : List Int) (es : List Nat) (h : ∀ j < cs.length, withinExtent cs es j) :
    outsideDim d cs es = none := by
  induction cs generalizing d es with
  | nil => rfl
  | cons c cs ih =>
    cases es with
    | nil => rfl
    | cons e es =>
      rw [outsideDim_cons, if_pos (show 0 ≤ c ∧ c < (e : Int) from h 0 (by simp))]
      exact ih (d + 1) es fun j hj => h (j + 1) (by simpa using hj)

theorem outsideDim_eq_some (d k : Nat) (cs : List Int) (es : List Nat) (hc : k < cs.length) (he : k < es.length)
    (before : ∀ j < k, withinExtent cs es j) (out : ¬ withinExtent cs es k) : outsideDim d cs es = some (d + k) := by
  induction k generalizing d cs es with
  | zero =>
    obtain ⟨c, cs, rfl⟩ := List.exists_cons_of_length_pos hc
    obtain ⟨e, es, rfl⟩ := List.exists_cons_of_length_pos he
    rw [outsideDim_cons, if_neg (show ¬ (0 ≤ c ∧ c < (e : Int)) from out), Nat.add_zero]
  | succ k ih =>
    obtain ⟨c, cs, rfl⟩ := List.exists_cons_of_length_pos (Nat.zero_lt_of_lt hc)
    obtain ⟨e, es, rfl⟩ := List.exists_cons_of_length_pos (Nat.zero_lt_of_lt he)
    rw [outsideDim_cons, if_pos (show 0 ≤ c ∧ c < (e : Int) from before 0 (Nat.succ_pos k)),
      ih (d + 1) cs es (by simpa using hc) (by simpa using he)
      (fun j hj => before (j + 1) (Nat.succ_lt_succ hj)) out, Nat.add_assoc, Nat.add_comm 1 k]

/-- A wrapped coordinate is the two's-complement reading of its low 32 bits. -/
theorem sgn_unsgn_32 (i : Int) : sgn 32 (unsgn 32 i) = (BitVec.ofInt 32 i).toInt := by
  rw [unsgn_eq, BitVec.toInt_ofInt, Int.bmod_def, sgn]
  norm_num
  omega

/-- A 32-bit field read as two's complement does not change as it wraps. -/
theorem sgn_unsgn_sfld (n lo : Nat) : sgn 32 (unsgn 32 (sfld n lo 32)) = sfld n lo 32 := by
  rw [unsgn_eq, sfld, sgn, sgn]
  norm_num
  omega

section
variable (v : BitVec 256) (w : BitVec 512)

theorem strOf_cur : (strOf v).cur = [sfld v.toNat 0 32, sfld v.toNat 32 32, sfld v.toNat 64 32, sfld v.toNat 96 32] := rfl

theorem addCoord_zero : addCoord (strOf v).cur 0 = (strOf v).cur := by
  rw [strOf_cur, addCoord, Int.add_zero, sgn_unsgn_sfld]

theorem coordOf_eq (i j : Nat) : Claims.coordOf (strOf v) i j = (addCoord (strOf v).cur i).getD j 0 := by
  cases j with
  | zero => simp [Claims.coordOf, strOf_cur, addCoord, sgn_unsgn_32]
  | succ j => simp [Claims.coordOf, strOf_cur, addCoord]

theorem insideAt_iff (i j : Nat) :
    Claims.insideAt (strOf v) (layOf w) i j ↔ withinExtent (addCoord (strOf v).cur i) (layOf w).ext j := by
  rw [Claims.insideAt, coordOf_eq]; rfl

/-- An element with every coordinate inside its extent. -/
theorem outside_of_inside {i : Nat} (h : ∀ j < 4, Claims.insideAt (strOf v) (layOf w) i j) :
    (layOf w).outside (addCoord (strOf v).cur i) = none :=
  outsideDim_eq_none 0 _ _ fun j hj => (insideAt_iff v w i j).mp (h j hj)

/-- An element whose first coordinate outside its extent is that of dimension `d`. -/
theorem outside_of_outsideAt {i d : Nat} (h : Claims.outsideAt (strOf v) (layOf w) i d) :
    (layOf w).outside (addCoord (strOf v).cur i) = some d := by
  obtain ⟨lt, before, out⟩ := h
  have found := outsideDim_eq_some 0 d (addCoord (strOf v).cur i) (layOf w).ext lt lt
    (fun j hj => (insideAt_iff v w i j).mp (before j hj)) (mt (insideAt_iff v w i d).mpr out)
  rwa [Nat.zero_add] at found

end

/-! ### The status words of the layout-bound trap (07 R404) -/

theorem boundEdge_eq (d : Nat) (c : Int) : boundEdge d c = BitVec.ofNat 64 (d * 2 ^ 62 + (c % 2 ^ 32).toNat) := by
  rw [boundEdge, unsgn_eq]

theorem boundPlace_eq (cause : Nat) (n : Num4) (w : BitVec 512) (b : Int) : boundPlace cause n.val (layOf w).space b =
    BitVec.ofNat 64 (n.val * 2 ^ 60 + cause * 2 ^ 56 + (layOf w).space * 2 ^ 52 + (b % 2 ^ 52).toNat) := by
  have space : (layOf w).space % 8 = (layOf w).space := Nat.mod_mod _ _
  rw [boundPlace, unsgn_eq, Nat.mod_eq_of_lt n.isLt, space]

theorem spaceEnd_eq (l : Lay) : Claims.spaceEnd l = spaceTop l.space := by
  unfold Claims.spaceEnd spaceTop
  split
  · rename_i h; rw [h]; rfl
  · split
    next h => rcases h with h | h <;> rw [h] <;> rfl
    next h0 h =>
      split
      · exact absurd ‹_› h0
      · exact absurd (.inl ‹_›) h
      · exact absurd (.inr ‹_›) h
      · rfl

theorem inRange_eq_false {l : Lay} {b : Int} {n : Nat} (h : b < 0 ∨ Claims.spaceEnd l < b + n) : inRange l b n = false := by
  rw [spaceEnd_eq] at h
  rw [inRange, Bool.and_eq_false_iff, decide_eq_false_iff_not, decide_eq_false_iff_not]
  omega

/-! ### Elements (07 R160, R161) -/

section
variable (s : State) (core : Nat) (n : Num4) (v : BitVec 256) (w : BitVec 512)

theorem element_edge {d : Nat} (out : Claims.outsideAt (strOf v) (layOf w) 0 d) (edge : (layOf w).edge = true) :
    elemProbe (layOf w) n.val (strOf v).cur (s.element core (layOf w) (strOf v).cur) = .trap .layoutBound
      (BitVec.ofNat 64 (d * 2 ^ 62 + (Claims.coordOf (strOf v) 0 d % 2 ^ 32).toNat)) ∧
    elemLoc (s.element core (layOf w) (strOf v).cur) = none := by
  have found := outside_of_outsideAt v w out
  rw [Nat.cast_zero, addCoord_zero] at found
  rw [coordOf_eq, Nat.cast_zero, addCoord_zero, ← boundEdge_eq]
  simp [State.element, found, elemProbe, edge, elemLoc]

theorem element_range (inside : ∀ j < 4, Claims.insideAt (strOf v) (layOf w) 0 j)
    (past : let at_ := (layOf w).byteOf (elemOffset (layOf w) (strOf v).cur)
      at_ < 0 ∨ Claims.spaceEnd (layOf w) < at_ + elemBytes (layOf w)) :
    elemProbe (layOf w) n.val (strOf v).cur (s.element core (layOf w) (strOf v).cur) = .trap .layoutBound
      (boundPlace 1 n.val (layOf w).space ((layOf w).byteOf (elemOffset (layOf w) (strOf v).cur))) ∧
    elemLoc (s.element core (layOf w) (strOf v).cur) = none := by
  have found := outside_of_inside v w inside
  rw [Nat.cast_zero, addCoord_zero] at found
  simp [State.element, found, inRange_eq_false past, elemProbe, elemLoc]

/-! ### Rows (07 R160 to R162) -/

/-- The place at which a row's first byte would not be one of its own: not 64-aligned, or inside a byte of a packed format. -/
def rowSplit (l : Lay) (cur : List Int) : Prop :=
  l.byteOf (elemOffset l cur) % 64 ≠ 0 ∨ (l.pm = false ∧ ((l.fmt = some .kc2 ∧ elemOffset l cur % 8 ≠ 0) ∨
    (l.format.bits = 4 ∧ elemOffset l cur % 2 ≠ 0)))

/-- What the row access looks at for its alignment. -/
def rowMisaligned (l : Lay) (cur : List Int) : Bool :=
  decide (l.byteOf (elemOffset l cur) % 64 ≠ 0) ||
    (!l.pm && decide (elemOffset l cur % (if l.format == .kc2 then 8 else if l.format.bits = 4 then 2 else 1) ≠ 0))

theorem rowMisaligned_iff {l : Lay} {cur : List Int} (format : l.fmt.isSome = true) :
    rowMisaligned l cur = true ↔ rowSplit l cur := by
  obtain ⟨m, hm⟩ := Option.isSome_iff_exists.mp format
  have hf : l.format = m := by rw [Lay.format, hm]; rfl
  rw [rowMisaligned, rowSplit, hf, hm]
  by_cases hk : m = .kc2
  · subst hk; simp [Fmt.bits]
  · by_cases hb : m.bits = 4 <;> simp [hk, hb]

/-- The elements of a row, each with the first dimension in which it lies outside. -/
def rowOuts (l : Lay) (cur : List Int) : List (Nat × Option Nat) :=
  (List.range (rowElems l)).map fun (i : Nat) => (i, l.outside (addCoord cur (i : Int)))

section
variable {s : State} {core stream : Nat} {l : Lay} {cur : List Int}

theorem rowAt_misaligned (h : rowMisaligned l cur = true) :
    (s.rowAt core l stream cur).probe = .trap .layoutBound (boundPlace 2 stream l.space (l.byteOf (elemOffset l cur))) ∧
    (s.rowAt core l stream cur).loc = none := by
  rw [rowMisaligned] at h
  unfold State.rowAt
  dsimp only
  rw [if_pos h]
  exact ⟨rfl, rfl⟩

theorem rowAt_edge {i d : Nat} (h : rowMisaligned l cur = false) (first : (rowOuts l cur).find? (fun e => e.2.isSome) = some (i, some d))
    (edge : l.edge = true) :
    (s.rowAt core l stream cur).probe = .trap .layoutBound (boundEdge d ((addCoord cur i).getD d 0)) ∧
    (s.rowAt core l stream cur).loc = none := by
  rw [rowMisaligned] at h
  unfold State.rowAt
  dsimp only
  rw [if_neg (Bool.eq_false_iff.mp h)]
  rw [rowOuts] at first
  simp only [first, edge, if_true, and_self]

theorem rowAt_range (h : rowMisaligned l cur = false)
    (some_inside : ∃ e ∈ rowOuts l cur, e.2 = none) (edge : l.edge = false ∨ ∀ e ∈ rowOuts l cur, e.2 = none)
    (past : inRange l (l.byteOf (elemOffset l cur)) 64 = false) :
    (s.rowAt core l stream cur).probe = .trap .layoutBound (boundPlace 1 stream l.space (l.byteOf (elemOffset l cur))) ∧
    (s.rowAt core l stream cur).loc = none := by
  have nonempty : ((rowOuts l cur).filter fun e => e.2.isNone).isEmpty = false := by
    obtain ⟨e, he, hn⟩ := some_inside
    simp only [List.isEmpty_eq_false_iff_exists_mem, List.mem_filter]
    exact ⟨e, he, by rw [hn]; rfl⟩
  rw [rowMisaligned] at h
  unfold State.rowAt
  dsimp only
  rw [if_neg (Bool.eq_false_iff.mp h), past]
  rw [rowOuts] at nonempty edge
  split
  · rename_i i d first
    have open_ : l.edge = false := edge.resolve_right fun all => by
      have none := all _ (List.mem_of_find?_eq_some first)
      simp at none
    simp only [open_, nonempty]
    exact ⟨rfl, rfl⟩
  · exact ⟨rfl, rfl⟩

end

end

end Sys2Proof.Machine
end

section
/-! PROOF. What the check of each word of memory comes to, from its layout to the place of its element or row (06 R146, R147, R153;
07 R160 to R162, R180 to R184, R187, R404). -/

namespace Sys2Proof.Machine

theorem wordProbe_of_limits {x : Ctx} {pr : Probe} (i : Instr) (h : i.entryLimits = true) : wordProbe i x pr = pr := by
  rw [wordProbe, h, Bool.not_true, Probe.when_false, Probe.ok_andThen]

theorem wordProbe_of_not_limits {x : Ctx} {pr : Probe} (i : Instr) (h : i.entryLimits = false) :
    wordProbe i x pr = .trap .reservedField x.who.word := by
  rw [wordProbe, h, Bool.not_false, Probe.when_true, Probe.trap_andThen]

/-! ### Queue entries that are stored (07 R184) -/

/-- The oldest entry of a queue has landed and is poisoned, or is not. -/
def State.frontPoison (s : State) (c q : Nat) (b : Bool) : Prop :=
  ∃ (e : QEntry) (rest : List QEntry), (s.core c).getQueue q = e :: rest ∧ e.landed = true ∧ e.p = b

theorem storePopProbe_of_front {s : State} {x : Ctx} {q : Nat} {b : Bool} (h : s.frontPoison x.c q b) :
    s.storePopProbe x q = Probe.when b (.trap .poisonStore x.who.word) := by
  obtain ⟨e, rest, front, landed, poison⟩ := h
  have pops : s.popProbe x.c q x.t = .ok := by
    simp only [State.popProbe, front, listNth, landed, if_true]
  subst poison
  simp only [State.storePopProbe, pops, Probe.ok_andThen, State.peek, front]

/-! ### Operands of atomics (07 R187) -/

/-- The probe of the source registers of an atomic; AMOCAS, whose operation is none, has two. -/
def operandProbe (x : Ctx) (z : Option Aop) (b q : PWord) : Probe :=
  (poisonProbe x b).andThen (poisonProbe x (if z = none then q else Pv.zero))

theorem operandProbe_poisoned {x : Ctx} {z : Option Aop} {b q : PWord} (h : b.p = true ∨ (z = none ∧ q.p = true)) :
    operandProbe x z b q = .trap .poisonStore x.who.word := by
  rw [operandProbe]
  rcases h with h | ⟨none, h⟩
  · rw [poisonProbe_poisoned h, Probe.trap_andThen]
  · rw [if_pos none, poisonProbe_poisoned h]
    cases hb : b.p with
    | true => rw [poisonProbe_poisoned hb, Probe.trap_andThen]
    | false => rw [poisonProbe_clean hb, Probe.ok_andThen]

theorem operandProbe_clean {x : Ctx} {z : Option Aop} {b q : PWord} (h : ¬ (b.p = true ∨ (z = none ∧ q.p = true))) :
    operandProbe x z b q = .ok := by
  obtain ⟨hb, hq⟩ := not_or.mp h
  rw [operandProbe, poisonProbe_clean (Bool.eq_false_iff.mpr hb), Probe.ok_andThen]
  split
  next none => exact poisonProbe_clean (Bool.eq_false_iff.mpr fun poisoned => hq ⟨none, poisoned⟩)
  next => rfl

/-! ### Each word's check -/

section
variable {s : State} {f : Frame} {p c : Nat} {l : List Item} {k : Cls} {v : Word}

/-- The probe of the layout that stream `n` names, for a word of A at its check. -/
def State.layCheck (s : State) (p c : Nat) (n : Num4) (kind : AccessKind) (space : Bool) (accept : Fmt → Bool) : Probe :=
  layProbe (s.ctx p c .a).who.word ((s.core c).stream n.val).1 ((s.core c).stream n.val).2 kind space accept

/-- What the element at the cursor of stream `n` raises. -/
def State.elemCheck (s : State) (c : Nat) (n : Num4) : Probe :=
  elemProbe ((s.core c).stream n.val).2 n.val ((s.core c).stream n.val).1.cur
    (s.element c ((s.core c).stream n.val).2 ((s.core c).stream n.val).1.cur)

/-- The location of the element at the cursor of stream `n`. -/
def State.elemPlace (s : State) (c : Nat) (n : Num4) : Option Loc :=
  elemLoc (s.element c ((s.core c).stream n.val).2 ((s.core c).stream n.val).1.cur)

/-- The row access at the cursor of stream `n`. -/
def State.rowCheck (s : State) (c : Nat) (n : Num4) : RowAccess :=
  s.rowAt c ((s.core c).stream n.val).2 n.val ((s.core c).stream n.val).1.cur

variable (ha : s.agenda = .check p c .a :: l) (hg : s.guardTrue p c f = true)
include ha hg

theorem exec_ld_check {a n : Num4} {o : Order} {sc : Scope} {adv : Adv} (order : loadOrder o = true)
    (found : ∀ rest, accessChecks (s.layCheck p c n .element (!s.farPeer ((s.core c).stream n.val).2) isScalarFmt) .ok .ok
      (s.elemCheck c n) rest = .trap k v) :
    exec (.ld f a n o sc adv) s = .next (s.checkTrap p c .a k v) :=
  congrArg Host.Outcome.next (nativeWord_check_trap ha hg ((wordProbe_of_limits (.ld f a n o sc adv) order).trans (found _)))

theorem exec_st_check {a n : Num4} {o : Order} {sc : Scope} {adv : Adv} (order : storeOrder o = true)
    (found : ∀ window rest, accessChecks (s.layCheck p c n .element true isScalarFmt)
      (poisonProbe (s.ctx p c .a) ((s.core c).getC a.val)) (Probe.when (s.elemPlace c n).isSome window) (s.elemCheck c n) rest =
        .trap k v) :
    exec (.st f n a o sc adv) s = .next (s.checkTrap p c .a k v) :=
  congrArg Host.Outcome.next (nativeWord_check_trap ha hg ((wordProbe_of_limits (.st f n a o sc adv) order).trans (found _ _)))

theorem exec_lds_check {q n : Num4} {o : Order} {sc : Scope} {adv : Adv} (order : loadOrder o = true)
    (found : ∀ rest, accessChecks (s.layCheck p c n .row (!s.farPeer ((s.core c).stream n.val).2) fun _ => true) .ok .ok
      (s.rowCheck c n).probe rest = .trap k v) :
    exec (.lds f q n o sc adv) s = .next (s.checkTrap p c .a k v) :=
  congrArg Host.Outcome.next (nativeWord_check_trap ha hg ((wordProbe_of_limits (.lds f q n o sc adv) order).trans (found _)))

theorem exec_sts_check {q n : Num4} {o : Order} {sc : Scope} {adv : Adv} (order : storeOrder o = true)
    (found : ∀ window rest, accessChecks (s.layCheck p c n .row true fun _ => true) (s.storePopProbe (s.ctx p c .a) q.val)
      (Probe.when (s.rowCheck c n).loc.isSome window) (s.rowCheck c n).probe rest = .trap k v) :
    exec (.sts f n q o sc adv) s = .next (s.checkTrap p c .a k v) :=
  congrArg Host.Outcome.next (nativeWord_check_trap ha hg ((wordProbe_of_limits (.sts f n q o sc adv) order).trans (found _ _)))

theorem exec_atomic_check {a n b q : Num4} {o : Order} {sc : Scope} {op : Aop} {i : Instr} {z : Option Aop}
    (word : (i, z) ∈ [(Instr.amo f a n b o sc op, some op), (.amocas f a n b q o sc, none)])
    (found : ∀ rest, accessChecks (s.layCheck p c n .element
        (((s.core c).stream n.val).2.space != 0 && !s.farPeer ((s.core c).stream n.val).2) (atomicFmt z))
      (operandProbe (s.ctx p c .a) z ((s.core c).getC b.val) ((s.core c).getC q.val)) .ok (s.elemCheck c n) rest = .trap k v) :
    exec i s = .next (s.checkTrap p c .a k v) := by
  simp only [accessChecks, operandProbe, Probe.andThen_assoc, Probe.ok_andThen] at found
  simp only [List.mem_cons, Prod.mk.injEq, List.not_mem_nil, or_false] at word
  rcases word with ⟨rfl, rfl⟩ | ⟨rfl, rfl⟩
  · exact congrArg Host.Outcome.next (nativeWord_check_trap ha hg (found _))
  · exact congrArg Host.Outcome.next (nativeWord_check_trap ha hg (found _))

/-- A scatter whose streams pass stores no poisoned row. -/
theorem exec_scat_poisoned {m n q : Num4} {adv : Adv} (streams : s.gatherProbe (s.ctx p c .a) m.val n.val false = .ok)
    (front : s.frontPoison c q.val true) :
    exec (.scat f m n q adv) s = .next (s.checkTrap p c .a .poisonStore (s.ctx p c .a).who.word) := by
  have pop : s.storePopProbe (s.ctx p c .a) q.val = .trap .poisonStore (s.ctx p c .a).who.word :=
    (storePopProbe_of_front front).trans (Probe.when_true _)
  refine congrArg Host.Outcome.next (nativeWord_check_trap ha hg ((wordProbe_of_limits _ rfl).trans ?_))
  exact accessChecks_poison (window := State.windowProbe _ _ _ _ _) streams pop

/-- The offset of a table word. -/
theorem exec_table_check {a n : Num4} {t : Fin 64} {i : Instr} {size : Nat}
    (word : (i, size) ∈ [(Instr.layset f t a, 64), (.layget f t a, 64), (.stset f n a, 32), (.stget f n a, 32)])
    (found : offsetProbe (s.ctx p c .a) ((s.core c).getC a.val) size = .trap k v) :
    exec i s = .next (s.checkTrap p c .a k v) := by
  simp only [List.mem_cons, Prod.mk.injEq, List.not_mem_nil, or_false] at word
  rcases word with ⟨rfl, rfl⟩ | ⟨rfl, rfl⟩ | ⟨rfl, rfl⟩ | ⟨rfl, rfl⟩
  all_goals exact congrArg Host.Outcome.next (nativeWord_check_trap ha hg ((wordProbe_of_limits _ rfl).trans found))

/-- An order that a word does not take is a limit of its entry. -/
theorem exec_order_check {a b n : Num4} {o : Order} {sc : Scope} {adv : Adv} {i : Instr}
    (word : i ∈ [Instr.ld f a n o sc adv, .lds f b n o sc adv] ∧ loadOrder o = false ∨
      i ∈ [Instr.st f n a o sc adv, .sts f n b o sc adv] ∧ storeOrder o = false) :
    exec i s = .next (s.checkTrap p c .a .reservedField (s.ctx p c .a).who.word) := by
  simp only [List.mem_cons, List.not_mem_nil, or_false] at word
  rcases word with ⟨rfl | rfl, order⟩ | ⟨rfl | rfl, order⟩
  all_goals exact congrArg Host.Outcome.next (nativeWord_check_trap ha hg (wordProbe_of_not_limits _ order))

end

theorem offsetProbe_outside {x : Ctx} {w : PWord} {size : Nat} (clean : w.p = false)
    (bad : w.v.toNat % size ≠ 0 ∨ 327680 < w.v.toNat + size) : offsetProbe x w size = .trap .layoutBound (boundOffset w.v) := by
  have outside : (w.v.toNat % size != 0 || decide (327680 < w.v.toNat + size)) = true := by simpa using bad
  rw [offsetProbe, poisonProbe_clean clean, Probe.ok_andThen, outside, Probe.when_true]

theorem offsetProbe_poisoned {x : Ctx} {w : PWord} {size : Nat} (h : w.p = true) :
    offsetProbe x w size = .trap .poisonStore x.who.word := by
  rw [offsetProbe, poisonProbe_poisoned h, Probe.trap_andThen]

/-- A word of S whose source may not be poisoned. -/
theorem exec_source_check {s : State} {f : Frame} {p c : Nat} {l : List Item} {a : XReg} {g : Num3} {m : Num4} {n : BitVec 41}
    {i : Instr} (ha : s.agenda = .check p c .s :: l) (hg : s.guardTrue p c f = true) (poisoned : ((s.core c).getX a.val).p = true)
    (word : i ∈ [Instr.gset f g a, .mbw f m a, .csrw f a n]) :
    exec i s = .next (s.checkTrap p c .s .poisonStore (s.ctx p c .s).who.word) := by
  have found : poisonProbe (s.ctx p c .s) ((s.core c).getX a.val) = .trap .poisonStore (s.ctx p c .s).who.word :=
    poisonProbe_poisoned poisoned
  simp only [List.mem_cons, List.not_mem_nil, or_false] at word
  rcases word with rfl | rfl | rfl
  all_goals exact congrArg Host.Outcome.next (nativeWord_check_trap ha hg ((wordProbe_of_limits _ rfl).trans found))

/-! ### The place of an access -/

section
variable {s : State} {c : Nat} {n : Num4}

/-- The element at the cursor lies outside an extent of an edge = 1 layout, or outside its space. -/
def State.elemOutside (s : State) (c : Nat) (n : Num4) (v : Word) : Prop :=
  let st := ((s.core c).stream n.val).1
  let ly := ((s.core c).stream n.val).2
  let at_ := ly.byteOf (elemOffset ly st.cur)
  (∃ d, Claims.outsideAt st ly 0 d ∧ ly.edge = true ∧
    v = BitVec.ofNat 64 (d * 2 ^ 62 + (Claims.coordOf st 0 d % 2 ^ 32).toNat)) ∨
  ((∀ j < 4, Claims.insideAt st ly 0 j) ∧ (at_ < 0 ∨ Claims.spaceEnd ly < at_ + elemBytes ly) ∧
    v = BitVec.ofNat 64 (n.val * 2 ^ 60 + 1 * 2 ^ 56 + ly.space * 2 ^ 52 + (at_ % 2 ^ 52).toNat))

theorem elemCheck_of_outside {v : Word} (h : s.elemOutside c n v) :
    s.elemCheck c n = .trap .layoutBound v ∧ s.elemPlace c n = none := by
  rcases h with ⟨d, out, edge, rfl⟩ | ⟨inside, past, rfl⟩
  · exact element_edge s c n _ _ out edge
  · have found := element_range s c n _ _ inside past
    rw [boundPlace_eq] at found
    exact found

/-- The row at the cursor is not aligned, or an element of it lies outside an extent of an edge = 1 layout, or the row outside its
space. -/
def State.rowOutside (s : State) (c : Nat) (n : Num4) (v : Word) : Prop :=
  let st := ((s.core c).stream n.val).1
  let ly := ((s.core c).stream n.val).2
  let at_ := ly.byteOf (elemOffset ly st.cur)
  let inside := fun (i : Nat) => ∀ j < 4, Claims.insideAt st ly i j
  let place := fun (cause : Nat) =>
    BitVec.ofNat 64 (n.val * 2 ^ 60 + cause * 2 ^ 56 + ly.space * 2 ^ 52 + (at_ % 2 ^ 52).toNat)
  (rowSplit ly st.cur ∧ v = place 2) ∨
  (¬ rowSplit ly st.cur ∧ ∃ i d, i < rowElems ly ∧ (∀ h < i, inside h) ∧ Claims.outsideAt st ly i d ∧ ly.edge = true ∧
    v = BitVec.ofNat 64 (d * 2 ^ 62 + (Claims.coordOf st i d % 2 ^ 32).toNat)) ∨
  (¬ rowSplit ly st.cur ∧ (∃ i < rowElems ly, inside i) ∧ (ly.edge = false ∨ ∀ i < rowElems ly, inside i) ∧
    (at_ < 0 ∨ Claims.spaceEnd ly < at_ + 64) ∧ v = place 1)

/-- The first element outside, among those of a row. -/
theorem find_rowOuts {l : Lay} {cur : List Int} {i d : Nat} (lt : i < rowElems l)
    (before : ∀ h < i, l.outside (addCoord cur (h : Nat)) = none) (out : l.outside (addCoord cur (i : Nat)) = some d) :
    (rowOuts l cur).find? (fun e => e.2.isSome) = some (i, some d) := by
  rw [List.find?_eq_some_iff_getElem]
  refine ⟨rfl, i, by simpa [rowOuts] using lt, by simp [rowOuts, out], fun h hh => ?_⟩
  simp [rowOuts, before h hh]

theorem mem_rowOuts {l : Lay} {cur : List Int} {e : Nat × Option Nat} :
    e ∈ rowOuts l cur ↔ ∃ i < rowElems l, (i, l.outside (addCoord cur (i : Nat))) = e := by
  simp [rowOuts]

/-- The status word of a place, of the layout of a stream. -/
theorem rowCheck_place (cause : Nat) (at_ : Int) : boundPlace cause n.val ((s.core c).stream n.val).2.space at_ =
    BitVec.ofNat 64 (n.val * 2 ^ 60 + cause * 2 ^ 56 + ((s.core c).stream n.val).2.space * 2 ^ 52 + (at_ % 2 ^ 52).toNat) :=
  boundPlace_eq cause n _ at_

theorem rowCheck_of_outside {v : Word} (format : ((s.core c).stream n.val).2.fmt.isSome = true) (h : s.rowOutside c n v) :
    (s.rowCheck c n).probe = .trap .layoutBound v ∧ (s.rowCheck c n).loc = none := by
  have aligned (h : ¬ rowSplit ((s.core c).stream n.val).2 ((s.core c).stream n.val).1.cur) :
      rowMisaligned ((s.core c).stream n.val).2 ((s.core c).stream n.val).1.cur = false :=
    Bool.eq_false_iff.mpr (mt (rowMisaligned_iff format).mp h)
  rcases h with ⟨split, rfl⟩ | ⟨whole, i, d, lt, before, out, edge, rfl⟩ | ⟨whole, ⟨i, lt, inside⟩, edge, past, rfl⟩
  · have found := rowAt_misaligned (s := s) (core := c) (stream := n.val) ((rowMisaligned_iff format).mpr split)
    rwa [rowCheck_place] at found
  · have first := find_rowOuts lt (fun h hh => outside_of_inside _ _ (before h hh)) (outside_of_outsideAt _ _ out)
    have found := rowAt_edge (s := s) (core := c) (stream := n.val) (aligned whole) first edge
    have coord : Claims.coordOf ((s.core c).stream n.val).1 i d = (addCoord ((s.core c).stream n.val).1.cur i).getD d 0 :=
      coordOf_eq _ i d
    rw [boundEdge_eq, ← coord] at found
    exact found
  · have found := rowAt_range (s := s) (core := c) (stream := n.val) (aligned whole)
      ⟨_, mem_rowOuts.mpr ⟨i, lt, rfl⟩, outside_of_inside _ _ inside⟩
      (edge.imp_right fun all e he => by
        obtain ⟨i, lt, rfl⟩ := mem_rowOuts.mp he
        exact outside_of_inside _ _ (all i lt))
      (inRange_eq_false past)
    rwa [rowCheck_place] at found

end

end Sys2Proof.Machine

namespace Sys2Proof.Proofs

open Sys2Proof.Machine Sys2Proof.Claims

/-- Settles O20: each word's checks in their order, and the first that finds something is the trap. -/
theorem accessChecksTrap : Obligations.AccessChecksTrap := by
  intro s f p c l hg k traps
  refine ⟨fun ha a g m n poisoned i word => exec_source_check ha hg poisoned word, ?_⟩
  intro ha n a b q o sc adv op word st ly at_ place edge ld st_ lds sts atomics poisoned front clean loads stores elem row scalar
    atomic operands
  have scalarOk (space : Bool) (kept : elem) (fits : space = true) (m : scalar) :
      s.layCheck p c n .element space isScalarFmt = .ok := by
    obtain ⟨m, hm, ok⟩ := m
    exact layProbe_ok kept fits hm ((isScalarFmt_iff m).mpr ok)
  have scalarBad (space : Bool) (kept : elem) (fits : space = true) (none : ¬ scalar) :
      s.layCheck p c n .element space isScalarFmt = .trap .illegalFormat word :=
    layProbe_format kept fits fun m hm => Bool.eq_false_iff.mpr fun ok => none ⟨m, hm, (isScalarFmt_iff m).mp ok⟩
  have rowOk (space : Bool) (r : row) (fits : space = true) : s.layCheck p c n .row space (fun _ => true) = .ok := by
    obtain ⟨kept, format⟩ := r
    obtain ⟨m, hm⟩ := Option.isSome_iff_exists.mp format
    exact layProbe_ok kept fits hm rfl
  have near (h : s.farPeer ly = false) : (!s.farPeer ly) = true := by rw [h]; rfl
  have atomicSpace (h0 : ly.space ≠ 0) (h : s.farPeer ly = false) : (ly.space != 0 && !s.farPeer ly) = true := by simp [h0, h]
  have atomicOk {z : Option Aop} (h : atomic z) :
      s.layCheck p c n .element (ly.space != 0 && !s.farPeer ly) (atomicFmt z) = .ok := by
    obtain ⟨kept, space, far, m, hm, ok⟩ := h
    exact layProbe_ok kept (atomicSpace space far) hm ((atomicFmt_iff z m).mpr ok)
  have storedTrap (h : front) : s.storePopProbe (s.ctx p c .a) q.val = .trap .poisonStore word :=
    storePopProbe_of_front (x := s.ctx p c .a) (b := true) h
  have storedOk (h : clean) : s.storePopProbe (s.ctx p c .a) q.val = .ok :=
    storePopProbe_of_front (x := s.ctx p c .a) (b := false) h
  have orders {i : Instr} := exec_order_check (a := a) (b := q) (n := n) (o := o) (sc := sc) (adv := adv) (i := i) ha hg
  refine ⟨fun h => ⟨orders (.inl ⟨.head _, ?_⟩), orders (.inl ⟨.tail _ (.head _), ?_⟩)⟩,
    fun h => ⟨orders (.inr ⟨.head _, ?_⟩), orders (.inr ⟨.tail _ (.head _), ?_⟩)⟩,
    layReserved_iff st ly, fun order bad => ?_, fun order bad => ?_, fun order bad => ?_, fun order bad => ?_, fun bad i z word => ?_,
    fun kept none => ⟨fun load => ?_, fun store => ?_⟩, fun kept space far i z word none => ?_, fun kept store m poison => ?_,
    fun r store poison => ?_, fun m streams poison => ?_, fun i z word ok poison => ?_, fun cls v kept outside => ?_, ?_,
    fun t i size word => ⟨fun poison => ?_, fun unpoisoned bad => ?_⟩⟩
  · rcases h with rfl | rfl <;> rfl
  · rcases h with rfl | rfl <;> rfl
  · rcases h with rfl | rfl <;> rfl
  · rcases h with rfl | rfl <;> rfl
  · exact exec_ld_check ha hg order fun _ => accessChecks_lay (layProbe_reserved (bad.imp_right fun far => by rw [far]; rfl))
  · exact exec_st_check ha hg order fun _ _ => accessChecks_lay (layProbe_reserved (.inl bad))
  · exact exec_lds_check ha hg order fun _ => accessChecks_lay (layProbe_reserved (bad.imp_right fun far => by rw [far]; rfl))
  · exact exec_sts_check ha hg order fun _ _ => accessChecks_lay (layProbe_reserved (.inl bad))
  · refine exec_atomic_check ha hg word fun _ => accessChecks_lay (layProbe_reserved (bad.imp_right fun h => ?_))
    rcases h with h | h
    · rw [show ((s.core c).stream n.val).2.space = 0 from h]; rfl
    · rw [show s.farPeer ((s.core c).stream n.val).2 = true from h, Bool.not_true, Bool.and_false]
  · exact exec_ld_check ha hg load.1 fun _ => accessChecks_lay (scalarBad _ kept (near load.2) none)
  · exact exec_st_check ha hg store fun _ _ => accessChecks_lay (scalarBad _ kept rfl none)
  · refine exec_atomic_check ha hg word fun _ => accessChecks_lay (layProbe_format kept (atomicSpace space far) fun m hm => ?_)
    exact Bool.eq_false_iff.mpr fun ok => none ⟨kept, space, far, m, hm, (atomicFmt_iff z m).mp ok⟩
  · exact exec_st_check ha hg store fun _ _ => accessChecks_poison (scalarOk _ kept rfl m) (poisonProbe_poisoned poison)
  · exact exec_sts_check ha hg store fun _ _ => accessChecks_poison (rowOk _ r rfl) (storedTrap poison)
  · exact exec_scat_poisoned ha hg streams poison
  · exact exec_atomic_check ha hg word fun _ => accessChecks_poison (atomicOk ok) (operandProbe_poisoned poison)
  · have trap : cls = .layoutBound ∧ s.elemOutside c n v := by
      rcases outside with ⟨d, out, edge, rfl, rfl⟩ | ⟨inside, past, rfl, rfl⟩
      · exact ⟨rfl, .inl ⟨d, out, edge, rfl⟩⟩
      · exact ⟨rfl, .inr ⟨inside, past, rfl⟩⟩
    obtain ⟨rfl, trap⟩ := trap
    obtain ⟨found, nowhere⟩ := elemCheck_of_outside trap
    refine ⟨fun load m => ?_, fun store m unpoisoned => ?_, fun i z word ok unpoisoned => ?_⟩
    · exact exec_ld_check ha hg load.1 fun _ => accessChecks_place (scalarOk _ kept (near load.2) m) rfl rfl found
    · exact exec_st_check ha hg store fun _ _ => accessChecks_place (scalarOk _ kept rfl m)
        (poisonProbe_clean (Bool.eq_false_iff.mpr unpoisoned)) (by rw [nowhere]; rfl) found
    · exact exec_atomic_check ha hg word fun _ => accessChecks_place (atomicOk ok) (operandProbe_clean unpoisoned) rfl found
  · intro split inside v r outside
    obtain ⟨found, nowhere⟩ := rowCheck_of_outside r.2 outside
    refine ⟨fun load => ?_, fun store unpoisoned => ?_⟩
    · exact exec_lds_check ha hg load.1 fun _ => accessChecks_place (rowOk _ r (near load.2)) rfl rfl found
    · exact exec_sts_check ha hg store fun _ _ => accessChecks_place (rowOk _ r rfl)
        (storedOk unpoisoned) (by rw [nowhere]; rfl) found
  · exact exec_table_check ha hg word (offsetProbe_poisoned poison)
  · exact exec_table_check ha hg word (offsetProbe_outside (Bool.eq_false_iff.mpr unpoisoned) bad)

end Sys2Proof.Proofs
end

section
/-! PROOF. Landings in the register files and queues of one core (06 R130, R137, 05 R115, 15 R294): what each changes, and that it
changes nothing else. -/

namespace Sys2Proof.Machine

section
variable {k : Core}

theorem Core.getX_land (r j : Nat) (v : PWord) (hr : r ≠ 0) (h : risingFrom none k.x = true) :
    (k.land (.x r v)).getX j = if j = r then v else k.getX j := by
  simp only [Core.land, Core.setX, if_neg hr, Core.getX, tget_tset _ _ _ _ _ h]
  by_cases hj : j = 0
  · simp [hj, hr.symm]
  · simp [hj]

theorem Core.getC_land (r j : Nat) (v : PWord) (h : risingFrom none k.c = true) :
    (k.land (.c r v)).getC j = if j = r then v else k.getC j :=
  tget_tset _ _ _ _ _ h

theorem Core.getMb_land (r j : Nat) (v : Word) (h : risingFrom none k.mb = true) :
    (k.land (.mailbox r v)).getMb j = if j = r then v else k.getMb j :=
  tget_tset _ _ _ _ _ h

theorem Core.getK_land (r j : Nat) (v : PWord) (h : risingFrom none k.k = true) :
    (k.land (.k r v)).getK j = if j = r then v else k.getK j :=
  tget_tset _ _ _ _ _ h

theorem getLsbD_mergeRow (mask old new : Row) (i : Nat) :
    (mergeRow mask old new).getLsbD i = if mask.getLsbD i then new.getLsbD i else old.getLsbD i := by
  by_cases hi : i < 512
  · simp only [mergeRow, BitVec.getLsbD_or, BitVec.getLsbD_and, BitVec.getLsbD_not, hi, decide_true, Bool.true_and]
    cases mask.getLsbD i <;> simp
  · simp [BitVec.getLsbD_of_ge _ i (Nat.le_of_not_lt hi)]

theorem Core.getV_land (r j : Nat) (val mask : Row) (p : Bool) (h : risingFrom none k.v = true) :
    (k.land (.v r val mask p)).getV j =
      if j = r then ⟨mergeRow mask (k.getV r).v val, p || ((k.getV r).p && mask != BitVec.allOnes 512)⟩ else k.getV j :=
  tget_tset _ _ _ _ _ h

/-- A masked row keeps the bits outside its mask, and the poison of its register unless the mask is full. -/
theorem Core.getV_land_bits (r j : Nat) (val mask : Row) (p : Bool) (h : risingFrom none k.v = true) :
    (∀ i : Nat, i < 512 → ((k.land (.v r val mask p)).getV j).v.getLsbD i =
      if j = r && mask.getLsbD i then val.getLsbD i else (k.getV j).v.getLsbD i) ∧
    ((k.land (.v r val mask p)).getV j).p = if j = r then p || ((k.getV r).p && mask != BitVec.allOnes 512) else (k.getV j).p := by
  rw [Core.getV_land r j val mask p h]
  by_cases hj : j = r
  · subst hj
    simp [getLsbD_mergeRow]
  · simp [hj]

theorem getLsbD_setBit {n : Nat} (v : BitVec n) (i j : Nat) (b : Bool) (hj : j < n) :
    (setBit v i b).getLsbD j = if j = i then b else v.getLsbD j := by
  have one : (BitVec.ofNat n (2 ^ i)).getLsbD j = decide (i = j) := by
    rw [BitVec.getLsbD_ofNat, Nat.testBit_two_pow, decide_eq_true hj, Bool.true_and]
  have set (u : Bool) : (setBit v i u).getLsbD j = if u then v.getLsbD j || decide (i = j) else v.getLsbD j && !decide (i = j) := by
    cases u <;> simp only [setBit, if_true, if_false, Bool.false_eq_true, BitVec.getLsbD_or, BitVec.getLsbD_and, BitVec.getLsbD_not,
      one, hj, decide_true, Bool.true_and]
  rw [set]
  by_cases hij : j = i
  · subst hij
    cases b <;> simp
  · have hji : ¬ i = j := fun h => hij h.symm
    cases b <;> simp [hij, hji]

theorem Core.getQueue_land (q i : Nat) (v : Row) (p : Bool) (h : risingFrom none k.queues = true) :
    (k.land (.queue q i v p)).getQueue q =
      (k.getQueue q).map fun e => if e.id = i then { e with v := v, p := p, landed := true } else e :=
  (tget_tset _ _ _ _ _ h).trans (if_pos rfl)

theorem Core.land_x_frame (r : Nat) (v : PWord) : { k.land (.x r v) with x := k.x } = k := by
  by_cases h : r = 0
  · rw [Core.land, Core.setX, if_pos h]
  · rw [Core.land, Core.setX, if_neg h]

theorem getLsbD_cursorMerge (old : BitVec 256) (v : BitVec 128) (i : Nat) (hi : i < 256) :
    ((old &&& ~~~(BitVec.ofNat 256 (2 ^ 128 - 1))) ||| v.setWidth 256).getLsbD i =
      if i < 128 then v.getLsbD i else old.getLsbD i := by
  have low : (BitVec.ofNat 256 (2 ^ 128 - 1)).getLsbD i = decide (i < 128) := by
    rw [BitVec.getLsbD_ofNat, Nat.testBit_two_pow_sub_one]
    simp [hi]
  simp only [BitVec.getLsbD_or, BitVec.getLsbD_and, BitVec.getLsbD_not, low, BitVec.getLsbD_setWidth, hi]
  by_cases h : i < 128
  · simp [h]
  · simp [h, BitVec.getLsbD_of_ge v i (Nat.le_of_not_lt h)]

/-- A cursor lands in the low half of its stream entry. -/
theorem Core.getSt_land (r j : Nat) (v : BitVec 128) (i : Nat) (h : risingFrom none k.st = true) (hi : i < 256) :
    ((k.land (.cursor r v)).getSt j).getLsbD i = if j = r ∧ i < 128 then v.getLsbD i else (k.getSt j).getLsbD i := by
  have landed : (k.land (.cursor r v)).getSt j =
      if j = r then (k.getSt r &&& ~~~(BitVec.ofNat 256 (2 ^ 128 - 1))) ||| v.setWidth 256 else k.getSt j :=
    tget_tset _ _ _ _ _ h
  rw [landed]
  by_cases hj : j = r
  · rw [if_pos hj, getLsbD_cursorMerge _ _ _ hi, hj]
    simp
  · simp [hj]

theorem Core.land_csr_other (n : Nat) (v : Word) (h : n ∉ [0x001, 0x020, 0x030, 0x040]) : k.land (.csr n v) = k := by
  simp only [List.mem_cons, List.not_mem_nil, or_false, not_or] at h
  obtain ⟨fflags, tvec, vstat, mgate⟩ := h
  rw [Core.land, Core.setCsr, if_neg fflags, if_neg tvec, if_neg vstat, if_neg mgate]

end

end Sys2Proof.Machine
end

section
/-! PROOF. What a write changes: the bytes it names in the bits its mask selects, the poison of the rows they lie in, and the arrivals of
the other partitions (15 R294 to R296, 05 R116; log entry 64). -/

namespace Sys2Proof.Machine

open Sys2Proof.Claims (storeOf)

/-! ### Cells -/

theorem Memory.length_readBytes (m : Memory) (a n : Nat) : (Memory.readBytes m a n).length = n := by
  induction n generalizing a with
  | zero => rfl
  | succ n ih => exact congrArg (· + 1) (ih (a + 1))

theorem Memory.getElem?_readBytes (m : Memory) (a n i : Nat) (h : i < n) :
    (Memory.readBytes m a n)[i]? = some (Memory.read m (a + i)) := by
  induction n generalizing a i with
  | zero => exact absurd h (Nat.not_lt_zero i)
  | succ n ih =>
    cases i with
    | zero => rfl
    | succ i => rw [Memory.readBytes, List.getElem?_cons_succ, ih (a + 1) i (Nat.lt_of_succ_lt_succ h), Nat.add_assoc, Nat.add_comm 1 i]

/-- The cells of a run of bytes from `a + k` on, without those that are left alone. -/
def keptCells (a : Nat) (skip : Nat → Bool) (k : Nat) (l : List Byte) : List (Nat × Byte) :=
  (l.zipIdx k).filterMap fun e => if skip e.2 then none else some (a + e.2, e.1)

theorem keptCells_cons (a : Nat) (skip : Nat → Bool) (k : Nat) (b : Byte) (l : List Byte) : keptCells a skip k (b :: l) =
    (if skip k then [] else [(a + k, b)]) ++ keptCells a skip (k + 1) l := by
  cases h : skip k <;> simp [keptCells, h]

theorem mem_keptCells {a k : Nat} {skip : Nat → Bool} {l : List Byte} {e : Nat × Byte} (h : e ∈ keptCells a skip k l) :
    a + k ≤ e.1 ∧ e.1 < a + k + l.length := by
  obtain ⟨⟨b, j⟩, mem, kept⟩ := List.mem_filterMap.mp h
  obtain ⟨lo, hi, _⟩ := List.mem_zipIdx mem
  split at kept
  · exact absurd kept (by simp)
  · cases kept
    dsimp only
    omega

theorem Memory.read_keptCells_outside (m : Memory) {a k x : Nat} (skip : Nat → Bool) (l : List Byte) (wf : Memory.wf m = true)
    (hx : x < a + k ∨ a + k + l.length ≤ x) : Memory.read (Memory.writeCells m (keptCells a skip k l)) x = Memory.read m x :=
  Memory.read_writeCells_outside m _ x wf fun e he => by
    obtain ⟨lo, hi⟩ := mem_keptCells he
    omega

theorem Memory.read_keptCells (m : Memory) (a k i : Nat) (skip : Nat → Bool) (l : List Byte) (wf : Memory.wf m = true)
    (h : i < l.length) : Memory.read (Memory.writeCells m (keptCells a skip k l)) (a + k + i) =
      if skip (k + i) then Memory.read m (a + k + i) else l[i] := by
  induction l generalizing m k i with
  | nil => exact absurd h (Nat.not_lt_zero i)
  | cons b l ih =>
    have wf' : Memory.wf (Memory.writeCells m (if skip k then [] else [(a + k, b)])) = true := Memory.wf_writeCells m _ wf
    have split : Memory.writeCells m (keptCells a skip k (b :: l)) =
        Memory.writeCells (Memory.writeCells m (if skip k then [] else [(a + k, b)])) (keptCells a skip (k + 1) l) := by
      rw [keptCells_cons]
      split <;> rfl
    have first (x : Nat) : Memory.read (Memory.writeCells m (if skip k then [] else [(a + k, b)])) x =
        if x = a + k ∧ skip k = false then b else Memory.read m x := by
      cases skip k with
      | true => simp [Memory.writeCells]
      | false => simp [Memory.writeCells, Memory.read_write m _ _ _ wf]
    rw [split]
    cases i with
    | zero =>
      rw [Memory.read_keptCells_outside _ skip l wf' (.inl (by omega)), first]
      cases skip k <;> simp
    | succ i =>
      have place : a + k + (i + 1) = a + (k + 1) + i := by omega
      have index : k + (i + 1) = k + 1 + i := by omega
      have behind : ¬ (a + (k + 1) + i = a + k ∧ skip k = false) := fun h => by omega
      rw [place, index, ih _ (k + 1) i wf' (Nat.lt_of_succ_lt_succ h), first, if_neg behind]
      rfl

/-! ### The bytes of a write -/

theorem length_mergeBytes (old l : List Byte) (mask : Nat) (h : old.length = l.length) :
    (mergeBytes old l mask).length = l.length := by
  simp [mergeBytes, h]

theorem writtenCells_eq (a : Nat) (old l : List Byte) (mask : Nat) :
    writtenCells a old l mask = keptCells a (fun i => decide (mask / 2 ^ (8 * i) % 256 = 0)) 0 (mergeBytes old l mask) := by
  simp [writtenCells, keptCells]

theorem ofNat_byte_eq_zero {n : Nat} (h : n % 256 = 0) : BitVec.ofNat 8 n = 0 :=
  BitVec.eq_of_toNat_eq (by simpa using h)

/-- What a write of bytes through a mask leaves in a memory. -/
theorem Memory.read_writtenCells (m : Memory) (o : Nat) (l : List Byte) (mask : Nat) (wf : Memory.wf m = true) :
    let w := Memory.writeCells m (writtenCells o (Memory.readBytes m o l.length) l mask)
    (∀ a, a < o ∨ o + l.length ≤ a → Memory.read w a = Memory.read m a) ∧
    (∀ i < l.length, Memory.read w (o + i) = ((l.getD i 0) &&& BitVec.ofNat 8 (mask / 2 ^ (8 * i))) |||
      (Memory.read m (o + i) &&& ~~~(BitVec.ofNat 8 (mask / 2 ^ (8 * i))))) := by
  have len := length_mergeBytes (Memory.readBytes m o l.length) l mask (Memory.length_readBytes m o l.length)
  refine ⟨fun a ha => ?_, fun i hi => ?_⟩
  · rw [writtenCells_eq]
    exact Memory.read_keptCells_outside m (k := 0) _ _ wf (by rw [len]; exact ha)
  · have merged : (mergeBytes (Memory.readBytes m o l.length) l mask)[i]'(len.symm ▸ hi) =
        (l[i] &&& BitVec.ofNat 8 (mask / 2 ^ (8 * i))) |||
          (Memory.read m (o + i) &&& ~~~(BitVec.ofNat 8 (mask / 2 ^ (8 * i)))) := by
      have old := Memory.getElem?_readBytes m o l.length i hi
      rw [List.getElem?_eq_some_iff] at old
      obtain ⟨_, old⟩ := old
      simp [mergeBytes, old]
    have cell := Memory.read_keptCells m o 0 i (fun i => decide (mask / 2 ^ (8 * i) % 256 = 0)) _ wf (len.symm ▸ hi)
    rw [Nat.add_zero, Nat.zero_add, merged] at cell
    rw [writtenCells_eq, cell, List.getD_eq_getElem?_getD, List.getElem?_eq_getElem hi, Option.getD_some]
    split
    next left_alone =>
      rw [ofNat_byte_eq_zero (of_decide_eq_true left_alone), show (l[i] &&& (0 : Byte)) = 0 from BitVec.and_zero,
        show ((0 : Byte) ||| _) = _ from BitVec.zero_or]
      exact BitVec.and_allOnes.symm
    next => rfl

/-! ### The place of a write -/

theorem State.mended_eq (s : State) (b : Bytes) (l : List Byte) (mask : Nat) : ∃ ms, s.mended b l mask = { s with marks := ms } := by
  unfold State.mended
  split
  · exact ⟨s.marks, rfl⟩
  · exact ⟨_, rfl⟩

/-- A place of this module's stores: a byte of a pocket, of a ring store, of the HBM or of host memory. -/
def Bytes.Held (b : Bytes) : Prop := (∃ c o, b = .pocket c o ∨ b = .ring c o) ∨ ∃ a, b = .hbm a ∨ b = .host a

section
variable (s : State) (b : Bytes) (l : List Byte) (mask : Nat) (q : Bool)

theorem State.storeOf_writePlace (held : b.Held) : storeOf (s.writePlace b l mask q) b =
    Memory.writeCells (storeOf s b) (writtenCells b.split.2 (Memory.readBytes (storeOf s b) b.split.2 l.length) l mask) := by
  obtain ⟨ms, mended⟩ := s.mended_eq b l mask
  rcases held with ⟨c, o, rfl | rfl⟩ | ⟨a, rfl | rfl⟩
  all_goals simp only [State.writePlace, mended, storeOf, State.core_modCore, Bytes.split] <;> rfl

/-- A write leaves every core's fields but its stores and the poison of their rows. -/
theorem State.core_writePlace_frame (d : Nat) :
    { (s.writePlace b l mask q).core d with pocket := (s.core d).pocket, ring := (s.core d).ring, pocketP := (s.core d).pocketP,
                                            ringP := (s.core d).ringP } = s.core d := by
  obtain ⟨ms, mended⟩ := s.mended_eq b l mask
  cases b with
  | ring c o =>
    by_cases h : d = c
    · subst h
      simp only [State.writePlace, mended, State.core_modCore]
      rfl
    · simp only [State.writePlace, mended, State.core_modCore_ne _ _ h]
      rfl
  | pocket c o =>
    by_cases h : d = c
    · subst h
      simp only [State.writePlace, mended, State.core_modCore]
      rfl
    · simp only [State.writePlace, mended, State.core_modCore_ne _ _ h]
      rfl
  | hbm _ | host _ | remote _ _ | text _ _ =>
    simp only [State.writePlace, mended]
    rfl

/-- What an update of a core keeps of every core, it keeps of each. -/
theorem State.modCore_keeps {α : Type} (g : Core → α) (s : State) (c d : Nat) (f : Core → Core) (h : ∀ k, g (f k) = g k) :
    g ((s.modCore c f).core d) = g (s.core d) := by
  by_cases hd : d = c
  · rw [hd, State.core_modCore, h]
  · rw [State.core_modCore_ne _ _ hd]

theorem State.storeOf_writePlace_ne (e : Bytes) (other : e.split.1 ≠ b.split.1) :
    storeOf (s.writePlace b l mask q) e = storeOf s e := by
  obtain ⟨ms, mended⟩ := s.mended_eq b l mask
  cases b with
  | ring c o =>
    cases e with
    | ring d _ =>
      have ne : d ≠ c := fun h => other (congrArg (fun d => ((_, d) : Nat × Nat)) h)
      simp only [State.writePlace, mended, storeOf, State.core_modCore_ne _ _ ne]
      rfl
    | pocket d _ =>
      simp only [State.writePlace, mended, storeOf]
      exact State.modCore_keeps Core.pocket _ c d _ fun _ => rfl
    | hbm _ | host _ | remote _ _ | text _ _ => simp only [State.writePlace, mended, storeOf] <;> rfl
  | pocket c o =>
    cases e with
    | pocket d _ =>
      have ne : d ≠ c := fun h => other (congrArg (fun d => ((_, d) : Nat × Nat)) h)
      simp only [State.writePlace, mended, storeOf, State.core_modCore_ne _ _ ne]
      rfl
    | ring d _ =>
      simp only [State.writePlace, mended, storeOf]
      exact State.modCore_keeps Core.ring _ c d _ fun _ => rfl
    | hbm _ | host _ | remote _ _ | text _ _ => simp only [State.writePlace, mended, storeOf] <;> rfl
  | hbm _ =>
    cases e with
    | hbm _ => exact absurd rfl other
    | ring _ _ | pocket _ _ | host _ | remote _ _ | text _ _ => simp only [State.writePlace, mended, storeOf] <;> rfl
  | host _ =>
    cases e with
    | host _ => exact absurd rfl other
    | ring _ _ | pocket _ _ | hbm _ | remote _ _ | text _ _ => simp only [State.writePlace, mended, storeOf] <;> rfl
  | remote _ _ | text _ _ => cases e <;> simp only [State.writePlace, mended, storeOf] <;> rfl

theorem State.writePlace_parts : (s.writePlace b l mask q).parts = s.parts := by
  obtain ⟨ms, mended⟩ := s.mended_eq b l mask
  cases b <;> simp only [State.writePlace, mended] <;> rfl

theorem State.writePlace_edge : (s.writePlace b l mask q).edge = s.edge := by
  obtain ⟨ms, mended⟩ := s.mended_eq b l mask
  cases b <;> simp only [State.writePlace, mended] <;> rfl

theorem State.writePlace_frame : { s.writePlace b l mask q with
    cores := s.cores, parts := s.parts, hbm := s.hbm, hostMem := s.hostMem, marks := s.marks } = s := by
  obtain ⟨ms, mended⟩ := s.mended_eq b l mask
  cases b <;> simp only [State.writePlace, mended] <;> rfl

end

/-! ### Arrivals of the other partitions -/

theorem tfind_map_snd {α β : Type} (g : Nat × α → β) (t : Tbl α) (k : Nat) :
    tfind (t.map fun e => (e.1, g e)) k = (tfind t k).map fun v => g (k, v) := by
  induction t with
  | nil => rfl
  | cons e t ih =>
    obtain ⟨k', v⟩ := e
    simp only [List.map_cons, tfind, ih]
    split
    next h => subst h; rfl
    next => split <;> rfl

theorem State.members_congr {s t : State} (h : s.parts = t.parts) (g : Nat) : s.members g = t.members g := by
  unfold State.members
  rw [State.part_congr h g, h]

theorem State.sameGroup_congr {s t : State} (h : s.parts = t.parts) (p q : Nat) : s.sameGroup p q = t.sameGroup p q := by
  unfold State.sameGroup
  rw [State.members_congr h]

/-- What an arrival makes of partition `r`. -/
def State.toldPart (s : State) (p : Option Nat) (a : Arrived) (r : Nat) (k : Part) : Part :=
  let mine := match p with | some q => s.sameGroup q r | none => false
  if mine || !k.live || s.edge.any (s.sameGroup · r) then k else { k with fresh := k.fresh ++ [a] }

theorem State.tellOthers_eq (s : State) (p : Option Nat) (a : Arrived) :
    s.tellOthers p a = { s with parts := s.parts.map fun e => (e.1, s.toldPart p a e.1 e.2) } := rfl

theorem State.tfind_tellOthers (s : State) (p : Option Nat) (a : Arrived) (r : Nat) :
    tfind (s.tellOthers p a).parts r = (tfind s.parts r).map (s.toldPart p a r) :=
  tfind_map_snd (fun e => s.toldPart p a e.1 e.2) s.parts r

theorem State.toldPart_cases (s : State) (p : Option Nat) (a : Arrived) (r : Nat) (k : Part) :
    s.toldPart p a r k = k ∨ s.toldPart p a r k = { k with fresh := k.fresh ++ [a] } := ite_eq_or_eq _ _ _

theorem State.toldPart_frame (s : State) (p : Option Nat) (a : Arrived) (r : Nat) (k : Part) :
    { s.toldPart p a r k with fresh := k.fresh } = k := by
  rcases s.toldPart_cases p a r k with told | told <;> rw [told]

theorem State.part_tellOthers_frame (s : State) (p : Option Nat) (a : Arrived) (r : Nat) :
    { (s.tellOthers p a).part r with fresh := (s.part r).fresh } = s.part r := by
  unfold State.part tget
  rw [State.tfind_tellOthers]
  cases tfind s.parts r with
  | none => rfl
  | some k => exact s.toldPart_frame p a r k

/-- A partition that runs, does not move with the writer and is not on the edge of the write has it as an arrival. -/
theorem State.fresh_tellOthers (s : State) (p : Option Nat) (a : Arrived) (r : Nat) (k : Part) (listed : tfind s.parts r = some k)
    (live : k.live = true) (other : ∀ m, p = some m → s.sameGroup m r = false) (off : ∀ e ∈ s.edge, s.sameGroup e r = false) :
    ((s.tellOthers p a).part r).fresh = k.fresh ++ [a] := by
  have edge : s.edge.any (s.sameGroup · r) = false := List.any_eq_false.mpr fun e he => by rw [off e he]; simp
  have told : s.toldPart p a r k = { k with fresh := k.fresh ++ [a] } := by
    cases p with
    | none => simp [State.toldPart, live, edge]
    | some m => simp [State.toldPart, live, edge, other m rfl]
  unfold State.part tget
  rw [State.tfind_tellOthers, listed, Option.map_some, told]
  rfl

/-! ### Writes of a partition -/

theorem State.landWrite_of_no_arrival {s : State} {p : Nat} (h : (s.part p).fresh = []) (b : Bytes) (l : List Byte) (mask : Nat)
    (q : Bool) : s.landWrite p b l mask q = s.performWrite (some p) b l mask q := by
  simp [State.landWrite, h, hiddenBits]

theorem land_foldl_or (l : List Arrived) (b : Bytes) (acc mask : Nat)
    (h : acc &&& mask = mask ∨ ∃ a ∈ l, a.over b &&& mask = mask) : (l.foldl (fun m a => m ||| a.over b) acc) &&& mask = mask := by
  induction l generalizing acc with
  | nil => exact h.resolve_right (by simp)
  | cons x l ih =>
    refine ih _ ?_
    rw [Nat.and_or_distrib_right]
    rcases h with h | ⟨a, mem, h⟩
    · rw [h]
      exact .inl (Nat.eq_of_testBit_eq fun i => by simp)
    · rcases List.mem_cons.mp mem with rfl | mem
      · rw [h]
        exact .inl (Nat.eq_of_testBit_eq fun i => by cases hm : mask.testBit i <;> simp [hm])
      · exact .inr ⟨a, mem, h⟩

/-- A write all of whose bits have been overwritten by an arrival of its tick changes nothing. -/
theorem State.landWrite_hidden (s : State) (p c o : Nat) (l : List Byte) (mask : Nat) (q r : Bool) (live : (s.part p).live = true)
    (nonzero : mask ≠ 0) (short : mask < 2 ^ (8 * l.length))
    (arrived : (⟨.pocket c o, 2 ^ (8 * l.length) - 1, r⟩ : Arrived) ∈ (s.part p).fresh) :
    s.landWrite p (.pocket c o) l mask q = s := by
  have covers : (⟨.pocket c o, 2 ^ (8 * l.length) - 1, r⟩ : Arrived).over (.pocket c o) &&& mask = mask := by
    have whole : (⟨.pocket c o, 2 ^ (8 * l.length) - 1, r⟩ : Arrived).over (.pocket c o) = 2 ^ (8 * l.length) - 1 := by
      simp [Arrived.over, Bytes.split]
    rw [whole, Nat.and_comm, Nat.and_two_pow_sub_one_eq_mod, Nat.mod_eq_of_lt short]
  have hidden : hiddenBits (s.part p).fresh (.pocket c o) mask = mask := land_foldl_or _ _ 0 mask (.inr ⟨_, arrived, covers⟩)
  unfold State.landWrite
  simp only [hidden, live, nonzero, decide_false, Bool.not_true, Bool.or_self, Bool.false_eq_true, if_false, if_true]

end Sys2Proof.Machine
end

section
/-! PROOF. Work that falls due in the registers, memory and ring of a core (07 R167, R169, R182, R184; 05 R117; 08 R194 to R196, R203): what
a read finds, what a sampled load lands, what a track holds, and how a store is performed. -/

namespace Sys2Proof.Machine

open Sys2Proof.Claims (storeOf)

/-! ### Work that reads no store of its own -/

/-- Work that reads nothing without a translated access is carried out as it falls due. -/
theorem State.applyDue_of_no_read {s : State} {p : Nat} {d : Due} {a : Act} (act : d.act = a)
    (reads : (s.storeReads d.who.core a).1 = []) : s.applyDue p d = s.doAct p d := by
  have none : s.storeError p d = none := by
    unfold State.storeError
    rw [act]
    dsimp only
    rw [reads]
    split <;> rfl
  rw [State.applyDue, none]

section
variable {s : State} {p : Nat} {d : Due}

theorem State.applyDue_sampleC {a : Access} {r n : Nat} {sg : Bool} (h : d.act = .sampleC a r n sg) :
    s.applyDue p d = s.doSampleC p d a r n sg := by
  rw [State.applyDue_of_no_read h rfl, State.doAct, h]

theorem State.applyDue_sampleQ {a : Access} {q i : Nat} {m : Row} (h : d.act = .sampleQ a q i m) :
    s.applyDue p d = s.doSampleQ p d a q i m := by
  rw [State.applyDue_of_no_read h rfl, State.doAct, h]

theorem State.applyDue_loadX {a : Access} {r n : Nat} {sg : Bool} (h : d.act = .loadX a r n sg) :
    s.applyDue p d = s.doLoadX p d a r n sg := by
  rw [State.applyDue_of_no_read h rfl, State.doAct, h]

theorem State.applyDue_inject {tk stop : Nat} {w : Row} {b : Bool} (h : d.act = .inject tk stop w b) :
    s.applyDue p d = s.doInject p d tk stop w b := by
  rw [State.applyDue_of_no_read h rfl, State.doAct, h]

theorem State.applyDue_tapV {r tk : Nat} (h : d.act = .tapV r tk) : s.applyDue p d = s.doTapV p d r tk := by
  rw [State.applyDue_of_no_read h rfl, State.doAct, h]

theorem State.applyDue_bankTake {tk stop : Nat} {off : Option Nat} {m : Row} (h : d.act = .bankTake tk stop off m) :
    s.applyDue p d = s.doBankTake p d tk stop off m := by
  rw [State.applyDue_of_no_read h rfl, State.doAct, h]

theorem State.applyDue_write {a : Access} {v m : Row} {q : Bool} (h : d.act = .write a v m q) :
    s.applyDue p d = s.doWrite p d a v m q := by
  rw [State.applyDue_of_no_read h rfl, State.doAct, h]

theorem State.applyDue_gridAdvance {gr : Nat} {step : BitVec 32} (h : d.act = .gridAdvance gr step) :
    s.applyDue p d = s.doGridAdvance p d gr step := by
  rw [State.applyDue_of_no_read h rfl, State.doAct, h]

end

/-! ### What a read finds (07 R167, 05 R115) -/

theorem State.readLoc_whole {s u : State} {p c n : Nat} {kind : XKind} {loc : Loc} {b : Bytes}
    (place : s.resolveLoc p c kind loc = (u, .ok b)) (whole : loc.cut n = (n, none)) (clean : u.spoilt b n = false) :
    s.readLoc p c kind loc n = (u.drawRemote b n, .ok (u.readPlace b n, u.placePoison b n)) := by
  simp only [State.readLoc, whole, place, clean, Bool.false_eq_true, if_false]

theorem State.readPlace_held (s : State) {b : Bytes} (held : b.Held) (n : Nat) :
    s.readPlace b n = Memory.readBytes (storeOf s b) b.split.2 n ∧ s.drawRemote b n = s := by
  rcases held with ⟨c, o, rfl | rfl⟩ | ⟨a, rfl | rfl⟩ <;> exact ⟨rfl, rfl⟩

theorem State.length_readPlace (s : State) (b : Bytes) (n : Nat) : (s.readPlace b n).length = n := by
  cases b with
  | text h o =>
    simp only [State.readPlace]
    split
    · rw [List.length_map, List.length_range]
    · exact List.length_replicate
  | remote t o => simp only [State.readPlace, List.length_map, List.length_range]
  | ring _ _ | pocket _ _ | hbm _ | host _ => exact Memory.length_readBytes _ _ _

/-- An access lies together, or is cut behind fewer bytes than it has. -/
theorem Loc.cut_cases (l : Loc) (n : Nat) : l.cut n = (n, none) ∨ ∃ k l', l.cut n = (k, some l') ∧ k ≤ n := by
  have page (k : Nat) (l' : Loc) :
      (if n ≤ k then (n, none) else (k, some l')) = (n, none) ∨
        ∃ j m, (if n ≤ k then (n, none) else (k, some l')) = (j, some m) ∧ j ≤ n := by
    split
    next => exact .inl rfl
    next h => exact .inr ⟨_, _, rfl, Nat.le_of_not_le h⟩
  cases l with
  | global _ | host _ | ringTwo _ _ _ => exact page _ _
  | ring _ _ | pocket _ _ | remote _ _ => exact .inl rfl

/-- A read finds as many bytes as it names. -/
theorem State.length_readLoc {s u : State} {p c n : Nat} {kind : XKind} {loc : Loc} {l : List Byte} {q : Bool}
    (h : s.readLoc p c kind loc n = (u, .ok (l, q))) : l.length = n := by
  unfold State.readLoc at h
  rcases loc.cut_cases n with cut | ⟨k, loc', cut, hk⟩
  all_goals
    rw [cut] at h
    dsimp only at h
    split at h
    · cases h
    split at h
    · cases h
  · cases h
    exact State.length_readPlace _ _ _
  · split at h
    · cases h
    split at h
    · cases h
    cases h
    rw [List.length_append, State.length_readPlace, State.length_readPlace, Nat.add_sub_cancel' hk]

theorem readsItsPlace_holds (s : State) (p c : Nat) : Claims.readsItsPlace s p c := by
  refine ⟨fun _ _ _ _ => ⟨rfl, rfl, rfl, rfl⟩, fun kind loc n u b place whole clean held => ?_⟩
  have kept : b.Held := held.imp_left fun ⟨r, o, h⟩ => ⟨r, o, h⟩
  obtain ⟨bytes, drawn⟩ := u.readPlace_held kept n
  have read := State.readLoc_whole place whole clean
  rw [bytes, drawn] at read
  refine ⟨_, _, read, Memory.length_readBytes _ _ _, fun i hi => Memory.getElem?_readBytes _ _ _ i hi, ?_, ?_, ?_⟩
  · rintro r o rfl
    rfl
  · rintro r o rfl
    rfl
  · rintro a (rfl | rfl) <;> rfl

/-! ### Values of loads (07 R182) -/

theorem leNat_lt (l : List Byte) : leNat l < 2 ^ (8 * l.length) := by
  induction l with
  | nil => exact Nat.one_pos
  | cons b l ih =>
    have byte := b.isLt
    have split : 2 ^ (8 * (b :: l).length) = 256 * 2 ^ (8 * l.length) := by
      rw [List.length_cons, Nat.mul_succ, Nat.pow_add, Nat.mul_comm]
    rw [leNat, split]
    omega

/-- The value of `n` bytes as a load delivers it. -/
theorem extendElem_eq {n : Nat} (l : List Byte) (sg : Bool) (pos : 0 < n) (len : l.length = n) : extendElem sg (8 * n) (leNat l) =
    if sg then (BitVec.ofNat (8 * n) (leNat l)).signExtend 64 else (BitVec.ofNat (8 * n) (leNat l)).setWidth 64 := by
  have fits : leNat l % 2 ^ (8 * n) = leNat l := Nat.mod_eq_of_lt (len ▸ leNat_lt l)
  cases sg with
  | false => exact BitVec.eq_of_toNat_eq (by simp [extendElem, fits])
  | true =>
    have half : 2 ^ (8 * n) = 2 * 2 ^ (8 * n - 1) := by
      rw [← Nat.pow_succ', Nat.succ_eq_add_one, Nat.sub_add_cancel (by omega)]
    have value : sgn (8 * n) (leNat l) = (BitVec.ofNat (8 * n) (leNat l)).toInt := by
      rw [sgn, BitVec.toInt, BitVec.toNat_ofNat, fits]
      refine if_congr ?_ rfl rfl
      omega
    rw [extendElem, if_pos rfl, if_pos rfl, value]
    rfl

/-! ### Sampled values (07 R167, R169, 05 R117) -/

section
variable {s : State} {p : Nat} {d : Due} {a : Access}

theorem State.landSampled_timely {late old : Bool} (value : Act) (lost : Option Act) (prompt : late = false)
    (fresh : (s.part p).goesOn = false ∨ old = false) :
    s.landSampled p d a late old value lost = s.addDue p { d with tick := a.land, place := 2, act := value } := by
  subst prompt
  rcases fresh with strict | rfl
  · simp [State.landSampled, strict]
  · simp [State.landSampled]

/-- A value that is late in a loose partition is lost there. -/
theorem State.landSampled_lost {late old : Bool} (value lost : Act) (loose : (s.part p).goesOn = true)
    (missed : late = true ∨ old = true) : s.landSampled p d a late old value (some lost) =
      (s.addDue p { d with tick := a.land, place := 0, act := .poisonMark }).addDue p
        { d with tick := a.land, place := 2, act := lost } := by
  have lose : (late || old) = true := by simpa using missed
  simp [State.landSampled, loose, lose]

theorem State.doSampleC_ok {u : State} {r n : Nat} {sg q : Bool} {l : List Byte} (pos : 0 < n)
    (read : s.readLoc p d.who.core .read a.loc n = (u, .ok (l, q))) : s.doSampleC p d a r n sg =
      u.landSampled p d a (u.accessLate p d.who.core a) (u.lateTo p a.loc n) (.c r ⟨if sg then
        (BitVec.ofNat (8 * n) (leNat l)).signExtend 64 else (BitVec.ofNat (8 * n) (leNat l)).setWidth 64, q⟩) (some (.cLost r)) := by
  simp only [State.doSampleC, read, extendElem_eq l sg pos (State.length_readLoc read)]

theorem State.doLoadX_ok {u : State} {r n : Nat} {sg q : Bool} {l : List Byte} (pos : 0 < n)
    (read : s.readLoc p d.who.core .read a.loc n = (u, .ok (l, q))) (prompt : u.isLate p a.seq = false) : s.doLoadX p d a r n sg =
      u.addDue p { d with tick := a.land, place := 2, act := .x r ⟨if sg then
        (BitVec.ofNat (8 * n) (leNat l)).signExtend 64 else (BitVec.ofNat (8 * n) (leNat l)).setWidth 64, false⟩ } := by
  simp only [State.doLoadX, read, State.portLate, prompt, Bool.false_eq_true, if_false,
    extendElem_eq l sg pos (State.length_readLoc read)]

theorem State.doSampleQ_ok {u : State} {q i : Nat} {m : Row} {l : List Byte} {b : Bool}
    (read : s.readLoc p d.who.core .read a.loc 64 = (u, .ok (l, b))) : ∃ lost, s.doSampleQ p d a q i m =
      State.landSampled { u with free := u.free + 8 } p d a (State.accessLate { u with free := u.free + 8 } p d.who.core a)
        (State.lateTo { u with free := u.free + 8 } p a.loc 64) (.queue q i (rowOfBytes l &&& m) b) lost := by
  simp only [State.doSampleQ, read]
  exact ⟨_, rfl⟩

end

/-! ### Tracks (08 R193 to R196) -/

section
variable {s : State} {p : Nat} {d : Due}

/-- An injection that is alone on its track enters it. -/
theorem State.doInject_alone {tk stop : Nat} {w : Row} {b : Bool} (empty : (s.core d.who.core).trackAt tk stop d.tick = none)
    (alone : ∀ e ∈ (s.part p).pend, e.tick = d.tick → e.who.core = d.who.core → ∀ v q, e.act ≠ .inject tk stop v q) :
    s.doInject p d tk stop w b = s.modCore d.who.core fun k => k.putTrack tk d.tick ⟨stop, d.tick, w, b, d.who⟩ := by
  unfold State.doInject
  dsimp only
  rw [if_pos]
  rw [Bool.and_eq_true, List.isEmpty_iff, List.filter_eq_nil_iff, empty]
  refine ⟨fun e he same => ?_, rfl⟩
  rw [Bool.and_eq_true, Bool.and_eq_true, beq_iff_eq, beq_iff_eq] at same
  obtain ⟨⟨tick, core⟩, act⟩ := same
  split at act
  next tk' stop' v q inject =>
    rw [Bool.and_eq_true, beq_iff_eq, beq_iff_eq] at act
    obtain ⟨rfl, rfl⟩ := act
    exact alone e he tick core v q inject
  next => exact absurd act (by simp)

/-- A word stands at every other stop after the transit from its own. -/
theorem Core.trackAt_putTrack {k : Core} {tk t stop : Nat} {w : TrackWord} (other : w.stop ≠ stop)
    (empty : k.trackAt tk stop (w.tick + transit w.stop stop tk) = none) :
    (k.putTrack tk t w).trackAt tk stop (w.tick + transit w.stop stop tk) = some w := by
  have nonempty (l : List TrackWord) : ¬ l ++ [w] = [] := by simp
  have stands : trackHolds tk stop (w.tick + transit w.stop stop tk) w = true := by simp [trackHolds, other]
  have gone : ((tget [] k.tracks tk).filter fun e => decide (t < e.tick + 16)).find?
      (trackHolds tk stop (w.tick + transit w.stop stop tk)) = none :=
    List.find?_eq_none.mpr fun e he => List.find?_eq_none.mp empty e (List.mem_of_mem_filter he)
  simp only [Core.putTrack, Core.trackAt, tset, nonempty, if_false, tget_tput_self, List.find?_append, gone, Option.none_or,
    List.find?_singleton, stands, if_true]

theorem Core.takeOwn_own {k : Core} {tk stop t : Nat} {own : TrackWord → Bool} {w : TrackWord} (found : k.trackAt tk stop t = some w)
    (mine : own w = true) : k.takeOwn tk stop t own = (k, ⟨w.v, w.p⟩) := by
  simp only [Core.takeOwn, found, mine, if_true]

theorem Core.takeOwn_other {k : Core} {tk stop t : Nat} {own : TrackWord → Bool}
    (none : ∀ w, k.trackAt tk stop t = some w → own w = false) : k.takeOwn tk stop t own = (k.emptyTap tk, Pv.zero) := by
  unfold Core.takeOwn
  split
  next w found => rw [none w found]; rfl
  next => rfl

/-- An empty tap sets its bit. -/
theorem Core.emptyTap_bit (k : Core) (tk : Nat) : (k.emptyTap tk).vstat.getLsbD 0 = true := by
  unfold Core.emptyTap
  split
  next h => exact h
  next => simp

theorem mem_pend_addDue (s : State) (p : Nat) (d : Due) : d ∈ ((s.addDue p d).part p).pend :=
  (s.mem_addDue p d d).mpr (.inl rfl)

/-- What a tap of V lands is what it took. -/
theorem State.doTapV_of_take {r tk : Nat} {k : Core} {v : PRow}
    (take : (s.core d.who.core).takeOwn tk 1 d.tick (·.who == d.who) = (k, v)) :
    (s.doTapV p d r tk).core d.who.core = k ∧
    ⟨d.tick + 1, 3, d.who, .v r v.v (BitVec.allOnes 512) v.p⟩ ∈ ((s.doTapV p d r tk).part p).pend := by
  simp only [State.doTapV, take]
  exact ⟨State.core_setCore _ _ _, mem_pend_addDue _ _ _⟩

/-- What a bank lands is what it took; a row beyond the store lands nothing. -/
theorem State.doBankTake_of_take {tk stop : Nat} {off : Option Nat} {m : Row} {k : Core} {v : PRow}
    (take : (s.core d.who.core).takeOwn tk stop d.tick
      (fun w => w.who == d.who && w.stop == if d.who.unit = .e1 then tieStop else 1) = (k, v)) :
    (s.doBankTake p d tk stop off m).core d.who.core = k ∧
    (∀ o, off = some o → ⟨d.tick + 1, unitPlace d.who.unit, d.who,
      .write ⟨.ring d.who.core o, 0xF, 0, false, d.tick + 1, [], false⟩ v.v m v.p⟩ ∈ ((s.doBankTake p d tk stop off m).part p).pend) ∧
    (off = none → (s.doBankTake p d tk stop off m).parts = s.parts) := by
  simp only [State.doBankTake, take]
  cases off with
  | none => exact ⟨State.core_setCore _ _ _, nofun, fun _ => rfl⟩
  | some o =>
    refine ⟨State.core_setCore _ _ _, fun o' h => ?_, nofun⟩
    cases h
    exact mem_pend_addDue _ _ _

end

/-! ### Stores (07 R167, R169) -/

theorem toNat_lt_maskLen (m : Row) : m.toNat < 2 ^ (8 * maskLen m) := by
  have bits : m.toNat < 2 ^ bitLen m.toNat := by
    unfold bitLen
    split
    next h => rw [h]; exact Nat.one_pos
    next => exact Nat.lt_log2_self
  exact bits.trans_le (Nat.pow_le_pow_right (by decide) (by unfold maskLen; omega))

section
variable {s : State} {p : Nat} {d : Due} {a : Access} {v m : Row} {q : Bool} {b : Bytes}

/-- A place in this module's stores, named without translation. -/
def Loc.Direct (l : Loc) (b : Bytes) : Prop := ∃ r o, (l = .pocket r o ∧ b = .pocket r o) ∨ (l = .ring r o ∧ b = .ring r o)

theorem Loc.Direct.writeLoc {l : Loc} (h : l.Direct b) (who : Who) (how : Landing) (bytes : List Byte) (mask : Nat) :
    s.writeLoc p who how .write l bytes mask q = (s.writeAt p how b bytes mask q, none) := by
  obtain ⟨r, o, ⟨rfl, rfl⟩ | ⟨rfl, rfl⟩⟩ := h <;> rfl

/-- A store to this module sets out for no other one. -/
theorem State.postGate_direct (act : d.act = .write a v m q) (h : a.loc.Direct b) (f : State → State) : s.postGate p d f = f s := by
  have near : s.farWrites p d = [] := by
    have home : a.loc.isRemote = false := by obtain ⟨r, o, ⟨h, -⟩ | ⟨h, -⟩⟩ := h <;> rw [h] <;> rfl
    simp [State.farWrites, State.writesOf, act, Act.writes, home]
  simp [State.postGate, near, State.postWaits]

theorem State.doWrite_direct (act : d.act = .write a v m q) (h : a.loc.Direct b) : s.doWrite p d a v m q =
    s.lateGate p d a.seq (s.accessLate p d.who.core a) fun s =>
      (s.writeAt p d.landing b ((bytesOfRow v).take (maskLen m)) m.toNat q).unitsBack d.who.core a.seq := by
  rw [State.doWrite, State.postGate_direct act h]
  refine congrArg (s.lateGate p d a.seq _) (funext fun s => ?_)
  rw [h.writeLoc]

theorem State.lateGate_arrival (seq : Nat) (late : Bool) (f : State → State) (arrival : d.place = 9) :
    s.lateGate p d seq late f = f s := by
  rw [State.lateGate]
  exact if_pos arrival

theorem State.lateGate_timely (seq : Nat) (f : State → State) (own : d.place ≠ 9)
    (first : (s.part p).goesOn = true → (s.part p).lateWrites = [] ∧ ∀ e ∈ (s.part p).pend, e.place ≠ 9) :
    s.lateGate p d seq false f = f s := by
  cases loose : (s.part p).goesOn with
  | false => simp [State.lateGate, own, loose]
  | true =>
    obtain ⟨none, ahead⟩ := first loose
    have arrivals : (s.part p).pend.filter (·.place == 9) = [] := by
      rw [List.filter_eq_nil_iff]
      exact fun e he => by simp [ahead e he]
    simp [State.lateGate, own, loose, none, arrivals, Due.behind]

theorem State.lateGate_late (seq : Nat) (f : State → State) (own : d.place ≠ 9) (loose : (s.part p).goesOn = true) :
    s.lateGate p d seq true f = s.modPart p fun k => { k with lateWrites := k.lateWrites ++ [d] } := by
  simp [State.lateGate, own, loose]

end

end Sys2Proof.Machine
end

section
/-! PROOF. GADV as it takes effect (14 R281, R283, R290): the stamps and send steps of the advanced grid, the fills of its rule-filled faces
and the sends of its exchanging ones. -/

namespace Sys2Proof.Machine

/-! ### Tables and folds -/

theorem filter_always {α : Type} (x : Option α) : x.filter (fun _ => true) = x := by
  cases x <;> rfl

theorem risingFrom_tail {α : Type} {lo : Option Nat} {e : Nat × α} {t : Tbl α} (h : risingFrom lo (e :: t) = true) :
    risingFrom (some e.1) t = true := by
  cases lo with
  | none => exact h
  | some a =>
    rw [risingFrom, Bool.and_eq_true] at h
    exact h.2

/-- An index of a filtered table is listed where it was and passes. -/
theorem tfind_filter {α : Type} (t : Tbl α) (q : Nat × α → Bool) (k : Nat) {lo : Option Nat} (h : risingFrom lo t = true) :
    tfind (t.filter q) k = (tfind t k).filter fun v => q (k, v) := by
  induction t generalizing lo with
  | nil => rfl
  | cons e t ih =>
    obtain ⟨k', v⟩ := e
    have rest : risingFrom (some k') t = true := risingFrom_tail h
    have kept := ih rest
    have gone (below : k ≤ k') : tfind t k = none := tfind_eq_none t (risingFrom_weaken t rest below)
    cases hq : q (k', v) with
    | true =>
      rw [List.filter_cons_of_pos hq, tfind, tfind, kept]
      by_cases same : k = k'
      · rw [if_pos same, if_pos same, Option.filter_some, same, if_pos hq]
      · rw [if_neg same, if_neg same]
        split <;> rfl
    | false =>
      rw [List.filter_cons_of_neg (by rw [hq]; simp), kept, tfind]
      by_cases same : k = k'
      · rw [if_pos same, gone same.le, Option.filter_some, same, if_neg (by rw [hq]; simp), Option.filter_none]
      · rw [if_neg same]
        split
        next below => rw [gone below.le]
        next => rfl

/-- Where each step changes what is read at its own element alone, a fold without repetitions changes each of them once. -/
theorem foldl_each {σ α β : Type} [DecidableEq α] (body : σ → α → σ) (read : α → σ → β) (upd : α → β → β) (P : α → Prop)
    (own : ∀ s a, P a → read a (body s a) = upd a (read a s))
    (other : ∀ s a c, P a → P c → c ≠ a → read c (body s a) = read c s)
    (l : List α) (s : σ) (nodup : l.Nodup) (hl : ∀ a ∈ l, P a) (c : α) (hc : P c) :
    read c (l.foldl body s) = if c ∈ l then upd c (read c s) else read c s := by
  induction l generalizing s with
  | nil => rfl
  | cons a l ih =>
    obtain ⟨fresh, nodup⟩ := List.nodup_cons.mp nodup
    have ha := hl a List.mem_cons_self
    rw [List.foldl_cons, ih _ nodup fun b hb => hl b (List.mem_cons_of_mem _ hb)]
    by_cases h : c = a
    · subst h
      simp [fresh, own _ _ ha]
    · simp [h, other _ _ _ ha hc h]

theorem mem_faces {f : Nat} : f ∈ faces ↔ f < 6 := by
  simp only [faces, List.mem_cons, List.not_mem_nil, or_false]
  omega

theorem nodup_faces : faces.Nodup := by decide

/-! ### Stamps (14 R276, R290) -/

theorem tfind_setStamps (g : Grid) (b f n : Nat) (step : BitVec 32) (i : Nat) : tfind (g.setStamps b f n step).hem i =
    if hemIndex b f 1 ≤ i ∧ i < hemIndex b f 1 + n then some step else tfind g.hem i := by
  unfold Grid.setStamps
  dsimp only
  induction n with
  | zero => rw [if_neg (by omega)]; rfl
  | succ n ih =>
    have last : hemIndex b f (n + 1) = hemIndex b f 1 + n := rfl
    rw [List.range_succ, List.foldl_append, List.foldl_cons, List.foldl_nil, tfind_tput, ih, last]
    by_cases h : i = hemIndex b f 1 + n
    · rw [if_pos h, if_pos (by omega)]
    · rw [if_neg h]
      refine if_congr ?_ rfl rfl
      omega

/-- What a stamp reads after the stamps of a face of either buffer are set. -/
theorem Grid.stamp_setStamps (g : Grid) {b b' f f' n j : Nat} (step : BitVec 32) (hf : f < 6) (hf' : f' < 6)
    (hn : n ≤ 8) (hj : 1 ≤ j) (hj' : j ≤ 8) : (g.setStamps b f n step).stamp b' f' j =
      if b' = b ∧ f' = f ∧ j ≤ n then some step else g.stamp b' f' j := by
  rw [Grid.stamp, tfind_setStamps, Grid.stamp]
  refine if_congr ?_ rfl rfl
  unfold hemIndex
  omega

/-! ### The advanced grid (14 R290) -/

/-- The grid before its faces are looked at: its step, and its stamps without the older ones of the other buffer. -/
def Grid.stepped (g : Grid) (step : BitVec 32) : Grid :=
  let b := step.toNat % 2
  let other := (b + 1) % 2
  { g with
    step := step
    inner := (tput g.inner b step).filter fun e => !(e.1 == other && decide (e.2 < step))
    hem := g.hem.filter fun e => !(e.1 / 48 == other && decide (e.2 < step)) }

/-- What a face makes of a grid that advances. -/
def Grid.advanceFace (g : Grid) (step : BitVec 32) (h : Grid) (f : Nat) : Grid :=
  if g.sendsAt step f then { h with sigS := tput h.sigS f step }
  else if g.exchanging f then h.setStamps (step.toNat % 2) f (g.recomputed step f) step
  else h

theorem Grid.advanced_eq (g : Grid) (step : BitVec 32) : g.advanced step = faces.foldl (g.advanceFace step) (g.stepped step) := rfl

section
variable (g : Grid) (step : BitVec 32)

/-- The faces change send steps and stamps alone. -/
theorem Grid.advanced_frame : { g.advanced step with hem := (g.stepped step).hem, sigS := (g.stepped step).sigS } = g.stepped step := by
  rw [Grid.advanced_eq]
  refine List.foldlRecOn faces (g.advanceFace step)
    (motive := fun h => { h with hem := (g.stepped step).hem, sigS := (g.stepped step).sigS } = g.stepped step)
    (show { g.stepped step with hem := (g.stepped step).hem, sigS := (g.stepped step).sigS } = g.stepped step from rfl)
    fun h same f _ => ?_
  unfold Grid.advanceFace
  split
  · exact same
  · split
    · exact same
    · exact same

theorem Grid.advanced_keeps {α : Type} (f : Grid → α) (hf : ∀ g : Grid, ∀ m n, f { g with hem := m, sigS := n } = f g) :
    f (g.advanced step) = f (g.stepped step) :=
  (hf _ _ _).symm.trans (congrArg f (g.advanced_frame step))

theorem Grid.sentAt_advanced (f : Nat) (hf : f < 6) : (g.advanced step).sentAt f = if g.sendsAt step f then step else g.sentAt f := by
  have each := foldl_each (g.advanceFace step) (fun f h => h.sentAt f) (fun f v => if g.sendsAt step f then step else v) (fun _ => True)
    (fun h f _ => by
      unfold Grid.advanceFace
      split
      · exact tget_tput_self _ _ _ _
      · split <;> rfl)
    (fun h f c _ _ ne => by
      unfold Grid.advanceFace
      split
      · exact tget_tput_ne _ _ _ ne
      · split <;> rfl)
    faces (g.stepped step) nodup_faces (fun _ _ => trivial) f trivial
  rw [Grid.advanced_eq, each, if_pos (mem_faces.mpr hf)]
  rfl

theorem Grid.recomputed_le (f : Nat) : g.recomputed step f ≤ dH g.desc f := Nat.min_le_left _ _

theorem Grid.stamp_advanced (f j b' : Nat) (thin : ∀ f < 6, dH g.desc f ≤ 8) (hf : f < 6) (hj : 1 ≤ j) (hj' : j ≤ 8) :
    (g.advanced step).stamp b' f j =
      if b' = step.toNat % 2 ∧ g.sendsAt step f = false ∧ g.exchanging f = true ∧ j ≤ g.recomputed step f then some step
      else (g.stepped step).stamp b' f j := by
  have few (f : Nat) (hf : f < 6) : g.recomputed step f ≤ 8 := (g.recomputed_le step f).trans (thin f hf)
  have each := foldl_each (g.advanceFace step) (fun f h => h.stamp b' f j)
    (fun f v => if b' = step.toNat % 2 ∧ g.sendsAt step f = false ∧ g.exchanging f = true ∧ j ≤ g.recomputed step f then some step else v)
    (· < 6)
    (fun h f hf => by
      unfold Grid.advanceFace
      cases hs : g.sendsAt step f with
      | true => simp; rfl
      | false =>
        cases he : g.exchanging f with
        | false => simp
        | true =>
          simp [Grid.stamp_setStamps h step hf hf (few f hf) hj hj'])
    (fun h f c hf hc ne => by
      unfold Grid.advanceFace
      split
      · rfl
      · split
        · rw [Grid.stamp_setStamps h step hf hc (few f hf) hj hj', if_neg (fun same => ne same.2.1)]
        · rfl)
    faces (g.stepped step) nodup_faces (fun f hf => mem_faces.mp hf) f hf
  rw [Grid.advanced_eq, each, if_pos (mem_faces.mpr hf)]

/-- A stamp of the buffer that is completed stands; an older one of the other buffer is invalid. -/
theorem Grid.stamp_stepped (b' f j : Nat) (rising : risingFrom none g.hem = true) (hf : f < 6) (hj : 1 ≤ j) (hj' : j ≤ 8) (hb' : b' < 2) :
    (g.stepped step).stamp b' f j =
      if b' = step.toNat % 2 then g.stamp b' f j else (g.stamp b' f j).filter fun v => !decide (v < step) := by
  have block : hemIndex b' f j / 48 = b' := by unfold hemIndex; omega
  have found := tfind_filter g.hem (fun e => !(e.1 / 48 == (step.toNat % 2 + 1) % 2 && decide (e.2 < step))) (hemIndex b' f j) rising
  refine found.trans ?_
  simp only [block]
  split
  next same =>
    have other : (b' == (step.toNat % 2 + 1) % 2) = false := by rw [beq_eq_false_iff_ne]; omega
    simp only [other, Bool.false_and, Bool.not_false]
    exact filter_always _
  next ne =>
    have other : (b' == (step.toNat % 2 + 1) % 2) = true := by rw [beq_iff_eq]; omega
    simp only [other, Bool.true_and]
    rfl

theorem Grid.interior_stepped (b' : Nat) (rising : risingFrom none g.inner = true) (hb' : b' < 2) : (g.stepped step).interior b' =
    if b' = step.toNat % 2 then some step else (g.interior b').filter fun v => !decide (v < step) := by
  have found := tfind_filter (tput g.inner (step.toNat % 2) step)
    (fun e => !(e.1 == (step.toNat % 2 + 1) % 2 && decide (e.2 < step))) b' (risingFrom_none_tput _ _ _ rising)
  refine found.trans ?_
  rw [tfind_tput]
  split
  next same =>
    have other : (b' == (step.toNat % 2 + 1) % 2) = false := by rw [beq_eq_false_iff_ne]; omega
    simp only [other, Bool.false_and, Bool.not_false]
    exact filter_always _
  next ne =>
    have other : (b' == (step.toNat % 2 + 1) % 2) = true := by rw [beq_iff_eq]; omega
    simp only [other, Bool.true_and]
    rfl

theorem Grid.sendsAt_iff (f : Nat) : g.sendsAt step f = true ↔ g.exchanging f = true ∧ (g.sentAt f).toNat + dD g.desc ≤ step.toNat := by
  simp [Grid.sendsAt]

/-- Layer `j` is recomputed where the layers kept of the last receive reach it. -/
theorem Grid.le_recomputed_iff (f j : Nat) (hj : 1 ≤ j) : j ≤ g.recomputed step f ↔ j ≤ dH g.desc f ∧
    (j : Int) ≤ (dH g.desc f : Int) - ((step.toNat : Int) - (g.gotAt f).toNat) * dR g.desc := by
  have reach (x : Int) : j ≤ x.toNat ↔ (j : Int) ≤ x := by omega
  rw [Grid.recomputed, Nat.le_min, reach]

end

/-! ### The work that an advance sets going (14 R281, R283) -/

/-- Between `s` and `t` work of partition `p` was put in flight and sends of grid `gr` were counted; nothing else of the grid, of the
pocket or of the HBM changed. -/
structure GridKept (c gr p : Nat) (s t : State) : Prop where
  grid : { (t.core c).getGrid gr with sending := ((s.core c).getGrid gr).sending } = (s.core c).getGrid gr
  pocket : (t.core c).pocket = (s.core c).pocket
  hbm : t.hbm = s.hbm
  work : WorkKept p s t

section
variable {c gr p : Nat}

theorem GridKept.refl (s : State) : GridKept c gr p s s := ⟨rfl, rfl, rfl, WorkKept.refl p s⟩

theorem GridKept.trans {s t u : State} (h : GridKept c gr p s t) (i : GridKept c gr p t u) : GridKept c gr p s u :=
  ⟨(congrArg (fun g : Grid => { g with sending := ((s.core c).getGrid gr).sending }) i.grid).trans h.grid, i.pocket.trans h.pocket,
    i.hbm.trans h.hbm, h.work.trans i.work⟩

theorem GridKept.desc {s t : State} (h : GridKept c gr p s t) : ((t.core c).getGrid gr).desc = ((s.core c).getGrid gr).desc := by
  have same := congrArg Grid.desc h.grid
  exact same

theorem GridKept.addDue (s : State) (d : Due) : GridKept c gr p s (s.addDue p d) := ⟨rfl, rfl, rfl, WorkKept.addDue s p d⟩

theorem GridKept.nextSeq (s : State) : GridKept c gr p s (s.nextSeq p).1 := ⟨rfl, rfl, rfl, WorkKept.nextSeq s p p⟩

theorem GridKept.sends (s : State) (f : Nat) (n : Int) :
    GridKept c gr p s (s.modCore c fun k => k.modGrid gr fun g => g.sends f n) where
  grid := by rw [State.core_modCore, Core.modGrid, Core.getGrid_setGrid]; rfl
  pocket := by rw [State.core_modCore]; rfl
  hbm := rfl
  work := WorkKept.of_parts rfl

theorem GridKept.haloFree (s : State) (at_ : Nat) : GridKept c gr p s (s.modCore c fun k => { k with haloFree := at_ }) where
  grid := by rw [State.core_modCore]; rfl
  pocket := by rw [State.core_modCore]
  hbm := rfl
  work := WorkKept.of_parts rfl

/-! #### Fills -/

/-- The fill of a face by the rules of `g` is in flight. -/
def State.Filling (t : State) (p : Nat) (d : Due) (gr : Nat) (step : BitVec 32) (g : Grid) (f : Nat) : Prop :=
  ∃ n out, (⟨d.tick, samplePlace, d.who, .gridFill gr f (g.rule f) (tget 0 g.const f) step n out⟩ : Due) ∈ (t.part p).pend

/-- The fill of a face. -/
def State.startFill (p : Nat) (d : Due) (gr : Nat) (step : BitVec 32) (g : Grid) (s : State) (f : Nat) : State :=
  let out := fillOut d.who.core g.desc f (step.toNat % 2)
  (s.nextSeq p).1.addDue p
    { d with place := samplePlace, act := .gridFill gr f (g.rule f) (tget 0 g.const f) step (s.nextSeq p).2 out }

theorem State.startFills_eq (s : State) (p : Nat) (d : Due) (gr : Nat) (step : BitVec 32) : s.startFills p d gr step =
    (faces.filter ((s.core d.who.core).getGrid gr).ruleFilled).foldl (State.startFill p d gr step ((s.core d.who.core).getGrid gr)) s :=
  rfl

theorem GridKept.startFill (d : Due) (step : BitVec 32) (g : Grid) (s : State) (f : Nat) :
    GridKept c gr p s (State.startFill p d gr step g s f) := (GridKept.nextSeq s).trans (GridKept.addDue _ _)

theorem GridKept.startFills (s : State) (d : Due) (step : BitVec 32) : GridKept c gr p s (s.startFills p d gr step) := by
  rw [State.startFills_eq]
  exact List.foldlRecOn _ _ (motive := GridKept c gr p s) (GridKept.refl s) fun t ht f _ => ht.trans (GridKept.startFill d step _ t f)

/-- Every rule-filled face has its fill in flight. -/
theorem State.filling_startFills (s : State) (d : Due) (step : BitVec 32) {f : Nat} (hf : f < 6)
    (filled : ((s.core d.who.core).getGrid gr).ruleFilled f = true) :
    (s.startFills p d gr step).Filling p d gr step ((s.core d.who.core).getGrid gr) f := by
  rw [State.startFills_eq]
  refine foldl_establishes (State.startFill p d gr step _) (fun f t => t.Filling p d gr step _ f)
    (fun t f => ⟨_, _, mem_pend_addDue _ _ _⟩) ?_ _ s f (List.mem_filter.mpr ⟨mem_faces.mpr hf, filled⟩)
  rintro t f f' ⟨n, out, mem⟩
  exact ⟨n, out, (GridKept.startFill (c := 0) d step _ t f').work _ mem⟩

/-! #### Sends -/

/-- The send of a face is in flight. -/
def State.Sending (t : State) (p : Nat) (d : Due) (gr : Nat) (step : BitVec 32) (v : Desc) (f : Nat) : Prop :=
  ∃ tick n out land, (⟨tick, samplePlace, d.who, .gridSend gr f step v n out land⟩ : Due) ∈ (t.part p).pend

/-- The sends of some faces leave the grid as it is but for its count of sends, and each of them is in flight. -/
theorem State.startSends_spec (d : Due) (step : BitVec 32) (l : List Nat) (s : State) (at_ : Nat) :
    GridKept d.who.core gr p s (s.startSends p d gr step at_ l) ∧
    ∀ f ∈ l, (s.startSends p d gr step at_ l).Sending p d gr step ((s.core d.who.core).getGrid gr).desc f := by
  induction l generalizing s at_ with
  | nil => exact ⟨GridKept.haloFree s at_, nofun⟩
  | cons f l ih =>
    have counted := GridKept.sends (c := d.who.core) (gr := gr) (p := p) s f 1
    have numbered := counted.trans (GridKept.nextSeq _)
    rw [State.startSends]
    dsimp only
    generalize placed : State.addDue _ p _ = t
    have first : GridKept d.who.core gr p s t := placed ▸ numbered.trans (GridKept.addDue _ _)
    have sent : t.Sending p d gr step ((s.core d.who.core).getGrid gr).desc f :=
      ⟨_, _, _, _, placed ▸ mem_pend_addDue _ _ _⟩
    obtain ⟨kept, flight⟩ := ih t (at_ + (faceBytes ((s.core d.who.core).getGrid gr).desc f + 63) / 64)
    refine ⟨first.trans kept, fun f' hf' => ?_⟩
    rcases List.mem_cons.mp hf' with rfl | hf'
    · obtain ⟨tick, n, out, land, mem⟩ := sent
      exact ⟨tick, n, out, land, kept.work _ mem⟩
    · have later := flight f' hf'
      rwa [first.desc] at later

theorem State.sendFaces_spec (d : Due) (step : BitVec 32) (l : List Nat) (s : State) :
    GridKept d.who.core gr p s (s.sendFaces p d gr step l) ∧
    ∀ f ∈ l, (s.sendFaces p d gr step l).Sending p d gr step ((s.core d.who.core).getGrid gr).desc f := by
  unfold State.sendFaces
  split
  next none =>
    rw [List.isEmpty_iff.mp none]
    exact ⟨GridKept.refl s, nofun⟩
  next => exact State.startSends_spec d step l s _

end

end Sys2Proof.Machine
end

section
/-! PROOF. What work in flight does as it falls due, and what a landing or a write changes (06 R130, R137, 05 R115 to R117, 07 R167, R169,
R182, R184, 08 R194 to R196, R203, 14 R281, R283, R290, 15 R294 to R296). -/

namespace Sys2Proof.Machine

open Sys2Proof.Claims

theorem worksWhenDue_holds (s : State) (p : Nat) (d : Due) : worksWhenDue s p d := by
  unfold worksWhenDue
  intro c k lands value timely
  refine ⟨readsItsPlace_holds s p c, fun a r n sg u l q pos _ read => ⟨?_, ?_, ?_⟩, ?_, ?_, ?_, ?_, ?_⟩
  · rintro act ⟨prompt, fresh⟩
    rw [State.applyDue_sampleC act, State.doSampleC_ok pos read]
    exact State.landSampled_timely _ _ prompt fresh
  · intro act loose missed
    rw [State.applyDue_sampleC act, State.doSampleC_ok pos read]
    exact State.landSampled_lost _ _ loose missed
  · intro act prompt
    rw [State.applyDue_loadX act, State.doLoadX_ok pos read prompt]
  · rintro a q i m u l b act read drawn ⟨prompt, fresh⟩
    obtain ⟨lost, sampled⟩ := State.doSampleQ_ok (d := d) (q := q) (i := i) (m := m) read
    rw [State.applyDue_sampleQ act, sampled]
    exact State.landSampled_timely _ _ prompt fresh
  · intro tk stop w b act empty alone u word stop' _ ne _ at_ none
    have entered : u = s.modCore c fun k => k.putTrack tk d.tick word :=
      (State.applyDue_inject act).trans (State.doInject_alone empty alone)
    have arrives : at_ = word.tick + transit word.stop stop' tk := congrArg (d.tick + ·) (apply_ite (· % 16) _ _ _)
    rw [arrives] at none ⊢
    rw [entered, State.core_modCore]
    exact Core.trackAt_putTrack (fun same => ne same.symm) none
  · intro tk r act u
    have tapped : u = s.doTapV p d r tk := State.applyDue_tapV act
    refine ⟨fun w found mine => ?_, fun other => ?_⟩
    · have own := State.doTapV_of_take (s := s) (p := p) (r := r) (Core.takeOwn_own (own := (·.who == d.who)) found (by simp [mine]))
      rwa [← tapped] at own
    · have missed := State.doTapV_of_take (s := s) (p := p) (r := r) (tk := tk)
        (Core.takeOwn_other (own := (·.who == d.who)) fun w found => by simp [other w found])
      rw [← tapped] at missed
      obtain ⟨core, landed⟩ := missed
      exact ⟨(congrArg (fun k => k.vstat.getLsbD 0) core).trans (Core.emptyTap_bit _ _), landed⟩
  · intro tk stop off m act u
    have taken : u = s.doBankTake p d tk stop off m := State.applyDue_bankTake act
    rw [taken]
    refine ⟨fun w o found mine source row => ?_, fun none => ?_, fun none => ?_⟩
    · obtain ⟨core, landed, _⟩ := State.doBankTake_of_take (s := s) (p := p) (off := off) (m := m)
        (Core.takeOwn_own (own := fun w => w.who == d.who && w.stop == if d.who.unit = .e1 then tieStop else 1) found
          (by simp [mine, source, tieStop]))
      exact ⟨core, landed o row⟩
    · obtain ⟨core, _⟩ := State.doBankTake_of_take (s := s) (p := p) (tk := tk) (off := off) (m := m)
        (Core.takeOwn_other (own := fun w => w.who == d.who && w.stop == if d.who.unit = .e1 then tieStop else 1)
          fun w found => nomatch none.symm.trans found)
      exact (congrArg (fun k => k.vstat.getLsbD 0) core).trans (Core.emptyTap_bit _ _)
    · obtain ⟨_, _, parts⟩ := State.doBankTake_of_take (s := s) (p := p) (d := d) (tk := tk) (stop := stop) (off := off) (m := m) rfl
      exact parts none
  · intro a v m q b act place l late
    refine ⟨toNat_lt_maskLen m, fun arrival => ?_, fun own prompt first => ?_, fun own missed loose => ?_⟩
    · have landing : d.landing = .arrival := if_pos arrival
      rw [State.applyDue_write act, State.doWrite_direct act place, State.lateGate_arrival _ _ _ arrival, landing]
      rfl
    · have landing : d.landing = .own := if_neg own
      rw [State.applyDue_write act, State.doWrite_direct act place, show s.accessLate p d.who.core a = false from prompt,
        State.lateGate_timely _ _ own first, landing]
      rfl
    · rw [State.applyDue_write act, State.doWrite_direct act place, show s.accessLate p d.who.core a = true from missed,
        State.lateGate_late _ _ own loose]

theorem advancesGrid_holds (s : State) (p : Nat) (d : Due) : advancesGrid s p d := by
  intro gr step act g u h b keeps hem inner thin
  have buffer : b < 2 := Nat.mod_lt _ (by decide)
  let s1 := s.modCore d.who.core fun k => k.modGrid gr fun g => g.advanced step
  have advanced : (s1.core d.who.core).getGrid gr = g.advanced step := by
    rw [State.core_modCore, Core.modGrid, Core.getGrid_setGrid]
  have filled := GridKept.startFills (c := d.who.core) (gr := gr) (p := p) s1 d step
  obtain ⟨sent, flight⟩ := State.sendFaces_spec (gr := gr) (p := p) d step (faces.filter (g.sendsAt step)) (s1.startFills p d gr step)
  have result : u = (s1.startFills p d gr step).sendFaces p d gr step (faces.filter (g.sendsAt step)) :=
    State.applyDue_gridAdvance act
  rw [← result] at sent flight
  have kept := filled.trans sent
  have grid : { h with sending := (g.advanced step).sending } = g.advanced step := advanced ▸ kept.grid
  have same {α : Type} (f : Grid → α) (hs : ∀ g : Grid, ∀ n, f { g with sending := n } = f g) : f h = f (g.advanced step) :=
    (hs h _).symm.trans (congrArg f grid)
  have field {α : Type} (f : Grid → α) (hs : ∀ g : Grid, ∀ n, f { g with sending := n } = f g)
      (hf : ∀ g : Grid, ∀ m n, f { g with hem := m, sigS := n } = f g) : f h = f (g.stepped step) :=
    (same f hs).trans (g.advanced_keeps step f hf)
  have interior (b' : Nat) : h.interior b' = (g.stepped step).interior b' :=
    field (fun g => g.interior b') (fun _ _ => rfl) (fun _ _ _ => rfl)
  have desc : ((s1.startFills p d gr step).core d.who.core |>.getGrid gr).desc = g.desc := by
    rw [filled.desc, advanced]
    exact g.advanced_keeps step Grid.desc fun _ _ _ => rfl
  refine ⟨field Grid.step (fun _ _ => rfl) (fun _ _ _ => rfl), ?_, ?_, field Grid.desc (fun _ _ => rfl) (fun _ _ _ => rfl),
    field Grid.rules (fun _ _ => rfl) (fun _ _ _ => rfl), field Grid.const (fun _ _ => rfl) (fun _ _ _ => rfl),
    field Grid.sigR (fun _ _ => rfl) (fun _ _ _ => rfl), kept.hbm, ?_, fun f hf => ?_⟩
  · rw [interior, Grid.interior_stepped g step b inner buffer, if_pos rfl]
  · show h.interior (1 - b) = _
    rw [interior, Grid.interior_stepped g step (1 - b) inner (by omega), if_neg (show ¬ 1 - b = b by omega)]
  · exact kept.pocket.trans (by rw [State.core_modCore]; rfl)
  · intro sends keptLayers
    have sendsAt : g.sendsAt step f = true ↔ sends := g.sendsAt_iff step f
    refine ⟨?_, fun hs => ?_, fun rule => ?_, fun j hj hj' => ?_⟩
    · rw [same (fun g => g.sentAt f) (fun _ _ => rfl), Grid.sentAt_advanced g step f hf]
      exact if_congr sendsAt rfl rfl
    · have going := flight f (List.mem_filter.mpr ⟨mem_faces.mpr hf, sendsAt.mpr hs⟩)
      rwa [desc] at going
    · have rules : (g.advanced step).ruleFilled f = true := (g.advanced_keeps step (fun g => g.ruleFilled f) fun _ _ _ => rfl).trans rule
      obtain ⟨n, out, mem⟩ := State.filling_startFills (p := p) (gr := gr) s1 d step hf (advanced ▸ rules)
      rw [advanced] at mem
      have asBefore : (g.advanced step).rule f = g.rule f ∧ (g.advanced step).const = g.const :=
        ⟨g.advanced_keeps step (fun g => g.rule f) fun _ _ _ => rfl, g.advanced_keeps step Grid.const fun _ _ _ => rfl⟩
      rw [asBefore.1, asBefore.2] at mem
      exact ⟨n, out, sent.work _ mem⟩
    · have stamp (b' : Nat) : h.stamp b' f j = (g.advanced step).stamp b' f j := same (fun g => g.stamp b' f j) (fun _ _ => rfl)
      refine ⟨?_, ?_⟩
      · show h.stamp (1 - b) f j = _
        rw [stamp, Grid.stamp_advanced g step f j (1 - b) thin hf hj hj', if_neg (fun here => by have := here.1; omega),
          Grid.stamp_stepped g step (1 - b) f j hem hf hj hj' (by omega), if_neg (show ¬ 1 - b = b by omega)]
      · rw [stamp, Grid.stamp_advanced g step f j b thin hf hj hj', Grid.stamp_stepped g step b f j hem hf hj hj' buffer, if_pos rfl]
        refine if_congr ?_ rfl rfl
        rw [Grid.le_recomputed_iff g step f j hj, ← Bool.not_eq_true, sendsAt]
        constructor
        · rintro ⟨_, quiet, exchanging, layers⟩
          exact ⟨exchanging, quiet, layers⟩
        · rintro ⟨exchanging, quiet, layers⟩
          exact ⟨rfl, quiet, exchanging, layers⟩

end Sys2Proof.Machine

namespace Sys2Proof.Proofs

open Sys2Proof.Machine Sys2Proof.Claims

/-- Settles O59: each landing by what its register file or table reads after it, work in flight by the operation it belongs to, and a write
by the cells it changes and the arrivals it leaves. -/
theorem landingsChangeWhatTheyName : Obligations.LandingsChangeWhatTheyName := by
  refine ⟨fun _ _ => ⟨rfl, rfl⟩, fun _ r j v hr h => Core.getX_land r j v hr h, fun _ r j v h => Core.getC_land r j v h,
    fun _ r j v h => Core.getMb_land r j v h, fun _ r j v h => Core.getK_land r j v h,
    fun _ r j val mask p h => Core.getV_land_bits r j val mask p h, fun _ g j b _ hj => getLsbD_setBit _ g j b hj,
    fun _ g j b _ hj => getLsbD_setBit _ g j b hj, fun _ q i v p h => Core.getQueue_land q i v p h,
    fun _ r v _ _ _ _ _ => ⟨Core.land_x_frame r v, rfl, rfl, rfl, rfl, rfl, rfl, rfl⟩,
    fun _ r j v i h hi => ⟨Core.getSt_land r j v i h hi, rfl⟩,
    fun _ v n => ⟨rfl, rfl, rfl, rfl, fun other => Core.land_csr_other n v other⟩,
    fun s p d => ⟨worksWhenDue_holds s p d, advancesGrid_holds s p d⟩,
    fun s p b l mask q none => State.landWrite_of_no_arrival none b l mask q, fun s p b l mask q held wf => ?_,
    fun s p c o l mask q r live nonzero short arrived => State.landWrite_hidden s p c o l mask q r live nonzero short arrived⟩
  intro u o
  have written : storeOf u b = Memory.writeCells (storeOf s b)
      (writtenCells o (Memory.readBytes (storeOf s b) o l.length) l mask) :=
    (by cases b <;> rfl : storeOf u b = storeOf (s.writePlace b l mask q) b).trans (State.storeOf_writePlace s b l mask q held)
  obtain ⟨outside, inside⟩ := Memory.read_writtenCells (storeOf s b) o l mask wf
  rw [← written] at outside inside
  refine ⟨outside, inside, fun e other => ?_, State.core_writePlace_frame s b l mask q, fun r => ?_, State.writePlace_frame s b l mask q,
    fun r k listed live apart off => ?_⟩
  · exact (by cases e <;> rfl : storeOf u e = storeOf (s.writePlace b l mask q) e).trans
      (State.storeOf_writePlace_ne s b l mask q e other)
  · have told := State.part_tellOthers_frame (s.writePlace b l mask q) p ⟨b, mask % 2 ^ (8 * l.length), q⟩ r
    rwa [State.part_congr (s.writePlace_parts b l mask q) r] at told
  · have parts := s.writePlace_parts b l mask q
    refine State.fresh_tellOthers _ p _ r k (by rw [parts]; exact listed) live (fun m hm => ?_) (fun e he => ?_)
    · rw [State.sameGroup_congr parts]
      exact apart m hm
    · rw [State.writePlace_edge] at he
      rw [State.sameGroup_congr parts]
      exact off e he

end Sys2Proof.Proofs
end

section
/-! PROOF. Scalar register words: an S word that runs in the terms of `Claims.Runs`, and the value of each operation (06
R131, R140). -/

namespace Sys2Proof.Machine

open Sys2Proof.Claims (Runs lands xr)

/-! ### An S word that runs -/

/-- A word that a handler run accepts and that has no limit of its entry. -/
def plainWord (i : Instr) : Bool := !handlerIllegal i && i.entryLimits

theorem plainWord_iff (i : Instr) : plainWord i = true ↔ handlerIllegal i = false ∧ i.entryLimits = true := by
  simp [plainWord]

section
variable {s t : State} {f : Frame} {x : Ctx}

/-- A plain word whose own checks find nothing has its effect, at its issue and in a handler run. -/
theorem nativeWord_of_runs (h : Runs s f x t) {i : Instr} {pr : Ctx → State → Probe} {e : Ctx → State → State}
    (plain : plainWord i = true) (clean : pr x s.popItem = .ok) : nativeWord .s i f pr e s = e x t := by
  obtain ⟨accepted, limits⟩ := (plainWord_iff i).mp plain
  cases h with
  | issue _ _ issues => exact nativeWord_of_issues issues
  | handler p c l agenda guard =>
    refine nativeWord_handler agenda guard accepted ?_
    rw [clean, wordProbe_of_limits i limits]
    rfl

/-- Neither moving past a word nor going on in a handler run writes an x register. -/
theorem xr_of_runs (h : Runs s f x t) (a : XReg) : xr t x a = (s.core x.c).getX a.val := by
  cases h with
  | issue _ _ issues =>
    obtain ⟨p, c, l, -, -, -⟩ := issues
    show Core.getX ((s.popItem.advance p c .s f.w.val).core c) a.val = _
    rw [Core.getX, State.advance_x]
    rfl
  | handler p c l =>
    show Core.getX ((s.popItem.modCore c _).core c) a.val = _
    rw [State.core_modCore]
    rfl

variable (h : Runs s f x t)
include h

theorem scalarRR_of_runs (i : Instr) (n : Nat) (d a b : XReg) (g : Word → Word → Word) (plain : plainWord i = true) :
    Host.Outcome.next (scalarRR i f n d a b g s) =
      lands t x n (.x d.val ⟨g (xr t x a).v (xr t x b).v, (xr t x a).p || (xr t x b).p⟩) :=
  congrArg Host.Outcome.next (nativeWord_of_runs h plain rfl)

theorem scalarR_of_runs (i : Instr) (n : Nat) (d a : XReg) (g : Word → Word) (plain : plainWord i = true) :
    Host.Outcome.next (scalarR i f n d a g s) = lands t x n (.x d.val ⟨g (xr t x a).v, (xr t x a).p⟩) :=
  congrArg Host.Outcome.next (nativeWord_of_runs h plain rfl)

theorem scalarPut_of_runs (i : Instr) (n : Nat) (d : XReg) (g : Ctx → State → PWord) (plain : plainWord i = true) :
    Host.Outcome.next (scalarPut i f n d g s) = lands t x n (.x d.val (g x t)) :=
  congrArg Host.Outcome.next (nativeWord_of_runs h plain rfl)

end

/-! ### Values (06 R140) -/

theorem ofBool_eq_ite (b : Bool) : ofBool b = if b = true then 1 else 0 := rfl

theorem ofBool_slt (u v : Word) : ofBool (u.slt v) = if u.toInt < v.toInt then 1 else 0 := by
  simp only [ofBool_eq_ite, BitVec.slt, decide_eq_true_eq]

theorem ofBool_ult (u v : Word) : ofBool (u.ult v) = if u.toNat < v.toNat then 1 else 0 := by
  simp only [ofBool_eq_ite, BitVec.ult, decide_eq_true_eq]

theorem mul_eq_ofNat (u v : Word) : u * v = BitVec.ofNat 64 (u.toNat * v.toNat % 2 ^ 64) :=
  BitVec.eq_of_toNat_eq (by simp)

theorem mulHigh_eq (u v : Word) : mulHigh u v = BitVec.ofInt 64 (u.toInt * v.toInt / 2 ^ 64) :=
  congrArg (BitVec.ofInt 64) (Int.fdiv_eq_ediv_of_nonneg _ (by decide))

theorem min_eq_ofInt (u v : Word) : (if v.slt u then v else u) = BitVec.ofInt 64 (min u.toInt v.toInt) := by
  simp only [BitVec.slt, decide_eq_true_eq]
  split
  next less => rw [min_eq_right less.le, BitVec.ofInt_toInt]
  next notLess => rw [min_eq_left (not_lt.mp notLess), BitVec.ofInt_toInt]

theorem max_eq_ofInt (u v : Word) : (if u.slt v then v else u) = BitVec.ofInt 64 (max u.toInt v.toInt) := by
  simp only [BitVec.slt, decide_eq_true_eq]
  split
  next less => rw [max_eq_right less.le, BitVec.ofInt_toInt]
  next notLess => rw [max_eq_left (not_lt.mp notLess), BitVec.ofInt_toInt]

end Sys2Proof.Machine

namespace Sys2Proof.Proofs

open Sys2Proof.Machine Sys2Proof.Claims

/-- Settles O8: a word of two registers lands its operation, and each operation is the statement's. -/
theorem scalarRegisterWords : Obligations.ScalarRegisterWords := by
  intro s f x t d a b h u v p n
  have run (i : Instr) (n : Nat) (g : Word → Word → Word) (w : Word) (plain : plainWord i = true) (value : g u v = w) :
      Host.Outcome.next (scalarRR i f n d a b g s) = lands t x n (.x d.val ⟨w, p⟩) :=
    value ▸ scalarRR_of_runs h i n d a b g plain
  exact ⟨run _ 1 _ _ rfl rfl, run _ 1 _ _ rfl rfl, run _ 1 _ _ rfl rfl, run _ 1 _ _ rfl rfl, run _ 1 _ _ rfl rfl,
    run _ 1 _ _ rfl rfl, run _ 1 _ _ rfl rfl, run _ 1 _ _ rfl rfl, run _ 1 _ _ rfl (ofBool_slt u v),
    run _ 1 _ _ rfl (ofBool_ult u v), run _ 3 _ _ rfl (mul_eq_ofNat u v), run _ 3 _ _ rfl (mulHigh_eq u v),
    run _ 1 _ _ rfl (min_eq_ofInt u v), run _ 1 _ _ rfl (max_eq_ofInt u v)⟩

end Sys2Proof.Proofs
end

section
/-! PROOF. Division and the bit counts: the corners of a quotient and a remainder, what a division does at its check, and what each
count counts (06 R140 to R142). -/

namespace Sys2Proof.Machine

/-! ### Quotients and remainders (06 R141) -/

section
variable {u v : Word}

theorem divSigned_zero (h : v = 0) : divSigned u v = -1 := (if_pos h).trans (by decide)
theorem divUnsigned_zero (h : v = 0) : divUnsigned u v = 0xFFFFFFFFFFFFFFFF := (if_pos h).trans (by decide)
theorem remSigned_zero (h : v = 0) : remSigned u v = u := if_pos h
theorem remUnsigned_zero (h : v = 0) : remUnsigned u v = u := if_pos h
theorem divSigned_ne_zero (h : v ≠ 0) : divSigned u v = BitVec.ofInt 64 (u.toInt.tdiv v.toInt) := if_neg h
theorem remSigned_ne_zero (h : v ≠ 0) : remSigned u v = BitVec.ofInt 64 (u.toInt.tmod v.toInt) := if_neg h
theorem divUnsigned_ne_zero (h : v ≠ 0) : divUnsigned u v = BitVec.ofNat 64 (u.toNat / v.toNat) := if_neg h
theorem remUnsigned_ne_zero (h : v ≠ 0) : remUnsigned u v = BitVec.ofNat 64 (u.toNat % v.toNat) := if_neg h

theorem ne_zero_of_toInt_neg_one (hv : v.toInt = -1) : v ≠ 0 := by
  rintro rfl
  exact absurd hv (by decide)

/-- The one quotient that is no signed 64-bit number wraps. -/
theorem divSigned_overflow (hu : u.toInt = -2 ^ 63) (hv : v.toInt = -1) : divSigned u v = BitVec.ofInt 64 (-2 ^ 63) := by
  rw [divSigned_ne_zero (ne_zero_of_toInt_neg_one hv), hu, hv]
  decide

theorem remSigned_overflow (hu : u.toInt = -2 ^ 63) (hv : v.toInt = -1) : remSigned u v = 0 := by
  rw [remSigned_ne_zero (ne_zero_of_toInt_neg_one hv), hu, hv]
  decide

/-- Every other quotient is exact. -/
theorem toInt_divSigned (h : v ≠ 0) (fits : ¬ (u.toInt = -2 ^ 63 ∧ v.toInt = -1)) :
    (divSigned u v).toInt = u.toInt.tdiv v.toInt := by
  have operands : u ≠ BitVec.intMin 64 ∨ v ≠ -1#64 := by
    by_contra! both
    obtain ⟨rfl, rfl⟩ := both
    exact fits (by decide)
  rw [divSigned_ne_zero h, ← BitVec.toInt_sdiv_of_ne_or_ne u v operands, BitVec.ofInt_toInt]

theorem toInt_remSigned (h : v ≠ 0) : (remSigned u v).toInt = u.toInt.tmod v.toInt := by
  rw [remSigned_ne_zero h, ← BitVec.toInt_srem, BitVec.ofInt_toInt]

end

/-- A probe that finds nothing raises no condition and freezes nothing. -/
theorem raiseProbe_ok (x : Ctx) (cl : Cluster) (s : State) : ((raiseProbe x cl s .ok).part x.p).conds = (s.part x.p).conds ∧
    ((raiseProbe x cl s .ok).part x.p).waits = (s.part x.p).waits ∧ (raiseProbe x cl s .ok).agenda = s.agenda := by
  simp [raiseProbe, Probe.ok, State.modPart]

/-- A word of two registers without a limit raises nothing at its check. -/
theorem scalarRR_check {s : State} {f : Frame} {p c : Nat} {l : List Item} (ha : s.agenda = .check p c .s :: l) (i : Instr)
    (n : Nat) (d a b : XReg) (g : Word → Word → Word) (limits : i.entryLimits = true) :
    ((scalarRR i f n d a b g s).part p).conds = (s.part p).conds ∧
      ((scalarRR i f n d a b g s).part p).waits = (s.part p).waits ∧ (scalarRR i f n d a b g s).agenda = l := by
  have popped : s.popItem.agenda = l := by rw [State.popItem, ha]; rfl
  rw [scalarRR, nativeWord_check ha, wordProbe_of_limits i limits]
  split
  · obtain ⟨conds, waits, agenda⟩ := raiseProbe_ok (s.ctx p c .s) .s s.popItem
    exact ⟨conds, waits, agenda.trans popped⟩
  · exact ⟨rfl, rfl, popped⟩

/-! ### Bit counts (06 R142) -/

/-- The length of a number in bits. -/
theorem bitLen_le_iff (m n : Nat) : bitLen m ≤ n ↔ m < 2 ^ n := by
  unfold bitLen
  split
  next zero => simp [zero]
  next nonzero => exact Nat.log2_lt nonzero

theorem bitLen_word (u : Word) : bitLen u.toNat ≤ 64 := (bitLen_le_iff _ _).mpr u.isLt

theorem leadingZeros_spec (u : Word) : ∃ n : Nat, leadingZeros u = BitVec.ofNat 64 n ∧ n ≤ 64 ∧ u.toNat < 2 ^ (64 - n) ∧
    (n < 64 → 2 ^ (63 - n) ≤ u.toNat) := by
  have fits := bitLen_word u
  refine ⟨64 - bitLen u.toNat, rfl, Nat.sub_le _ _, (bitLen_le_iff _ _).mp (by omega), fun some => ?_⟩
  refine not_lt.mp fun small => ?_
  have shorter := (bitLen_le_iff _ _).mpr small
  omega

theorem trailingZeros_spec (u : Word) : ∃ n : Nat, trailingZeros u = BitVec.ofNat 64 n ∧ n ≤ 64 ∧
    (∀ i < n, u.getLsbD i = false) ∧ (n < 64 → u.getLsbD n = true) := by
  unfold trailingZeros
  cases found : (List.range 64).find? fun i => u.getLsbD i with
  | none =>
    rw [List.find?_range_eq_none] at found
    exact ⟨64, rfl, le_rfl, fun i hi => by simpa using found i hi, fun h => absurd h (lt_irrefl 64)⟩
  | some n =>
    rw [List.find?_range_eq_some] at found
    obtain ⟨one, inside, zeros⟩ := found
    exact ⟨n, rfl, (List.mem_range.mp inside).le, fun i hi => by simpa using zeros i hi, fun _ => one⟩

theorem popcount_eq_length (n k : Nat) : popcount n k = ((List.range k).filter n.testBit).length := by
  induction k with
  | zero => rfl
  | succ k ih =>
    have bit : bitAt n k = ((List.filter n.testBit [k])).length := by
      cases set : n.testBit k <;> simp_all [bitAt, Nat.testBit_eq_decide_div_mod_eq]
    rw [popcount, ih, bit, List.range_succ, List.filter_append, List.length_append, Nat.add_comm]

theorem countOnes_eq (u : Word) : countOnes u = BitVec.ofNat 64 ((List.range 64).filter u.getLsbD).length :=
  congrArg (BitVec.ofNat 64) (popcount_eq_length u.toNat 64)

end Sys2Proof.Machine

namespace Sys2Proof.Proofs

open Sys2Proof.Machine Sys2Proof.Claims

/-- Settles O9: the value of each division by its corner, its check, and the three counts. -/
theorem divisionAndBitCountWords : Obligations.DivisionAndBitCountWords := by
  refine ⟨?_, ?_, ?_⟩
  · intro s f x t d a b h u v r
    have run (i : Instr) (g : Word → Word → Word) {w : Word} (plain : plainWord i = true) (value : g u v = w) :
        Host.Outcome.next (scalarRR i f 18 d a b g s) = r w :=
      value ▸ scalarRR_of_runs h i 18 d a b g plain
    refine ⟨fun zero => ?_, fun hu hv => ?_, fun nonzero => ?_, fun nonzero fits => ?_⟩
    · exact ⟨run _ _ rfl (divSigned_zero zero), run _ _ rfl (divUnsigned_zero zero), run _ _ rfl (remSigned_zero zero),
        run _ _ rfl (remUnsigned_zero zero)⟩
    · exact ⟨run _ _ rfl (divSigned_overflow hu hv), run _ _ rfl (remSigned_overflow hu hv)⟩
    · exact ⟨run _ _ rfl (divUnsigned_ne_zero nonzero), run _ _ rfl (remUnsigned_ne_zero nonzero)⟩
    · exact ⟨_, _, run _ divSigned rfl rfl, run _ remSigned rfl rfl, toInt_divSigned nonzero fits, toInt_remSigned nonzero⟩
  · intro s f d a b p c l ha i word
    simp only [List.mem_cons, List.not_mem_nil, or_false] at word
    rcases word with rfl | rfl | rfl | rfl
    all_goals exact ⟨_, rfl, scalarRR_check ha _ 18 d a b _ rfl⟩
  · intro s f x t d a h u r
    obtain ⟨n, leading, zeros⟩ := leadingZeros_spec u
    obtain ⟨m, trailing, ones⟩ := trailingZeros_spec u
    have run (i : Instr) (g : Word → Word) {n : Nat} (plain : plainWord i = true) (count : g u = BitVec.ofNat 64 n) :
        Host.Outcome.next (scalarR i f 1 d a g s) = r n :=
      (scalarR_of_runs h i 1 d a g plain).trans (congrArg (fun w => lands t x 1 (.x d.val ⟨w, (xr t x a).p⟩)) count)
    exact ⟨⟨n, run _ _ rfl leading, zeros⟩, ⟨m, run _ _ rfl trailing, ones⟩, run _ _ rfl (countOnes_eq u)⟩

end Sys2Proof.Proofs
end

section
/-! PROOF. SEL, the immediate words and the constants, and the fields of S words beyond their limits (06 R143 to R146, R149). -/

namespace Sys2Proof.Machine

/-! ### Values (06 R144, R145) -/

/-- A comparison with an immediate is one with the immediate itself. -/
theorem ofBool_slt_signExtend (u : Word) (imm : BitVec 36) :
    ofBool (u.slt (imm.signExtend 64)) = if u.toInt < imm.toInt then 1 else 0 := by
  rw [ofBool_slt, BitVec.toInt_signExtend_of_le (by decide)]

/-- A shift amount within its limit stands as it is. -/
theorem shiftAmount_eq {n : BitVec 36} (h : n.toNat < 64) : (n.setWidth 64).toNat % 64 = n.toNat := by
  rw [BitVec.toNat_setWidth_of_le (by decide), Nat.mod_eq_of_lt h]

section
variable (u : Word) {n : BitVec 36} (h : n.toNat < 64)
include h

theorem shiftLeft_imm : shiftLeft u (n.setWidth 64) = u <<< n.toNat := by rw [shiftLeft, shiftAmount_eq h]
theorem shiftRight_imm : shiftRight u (n.setWidth 64) = u >>> n.toNat := by rw [shiftRight, shiftAmount_eq h]
theorem shiftArith_imm : shiftArith u (n.setWidth 64) = u.sshiftRight n.toNat := by rw [shiftArith, shiftAmount_eq h]

end

theorem toNat_append_eq_add {m n : Nat} (a : BitVec m) (b : BitVec n) : (a ++ b).toNat = b.toNat + 2 ^ n * a.toNat := by
  rw [BitVec.toNat_append, ← Nat.shiftLeft_add_eq_or_of_lt b.isLt, Nat.shiftLeft_eq, Nat.add_comm, Nat.mul_comm]

/-- The value of LIMMH: the immediate above the low half of the register. -/
theorem limmh_eq_append (imm : BitVec 41) (u : Word) :
    BitVec.ofNat 64 (imm.toNat % 2 ^ 32 * 2 ^ 32 + u.toNat % 2 ^ 32) = imm.setWidth 32 ++ u.setWidth 32 := by
  refine BitVec.eq_of_toNat_eq ?_
  rw [toNat_append_eq_add, BitVec.toNat_setWidth, BitVec.toNat_setWidth, BitVec.toNat_ofNat]
  omega

end Sys2Proof.Machine

namespace Sys2Proof

/-! ### Fields beyond their limits (03 R50) -/

/-- A word that encodes an instruction holds its fields, whether the instruction is within its limits or not. -/
theorem decodeFields_of_encode {c : Cluster} {i : Instr} {w : Word} (encoded : encodeNative c i = some w) :
    decodeFields c w.toNat = .ok i := by
  obtain ⟨f, op, fs, form, rfl⟩ := (encodeNative_eq_some c i w).mp encoded
  obtain ⟨opcode, fits⟩ := Instr.formIn_fits form
  obtain ⟨bound, frame, code, operand⟩ := word_parts f opcode (packFrom_lt fits)
  have held : HoldsFields (packFrom 46 fs) 46 fs := by simpa using holdsFields_packFrom fits 0
  have number : (BitVec.ofNat 64 (NativeForm.mk f c op fs).toNat).toNat = frameBits f + op * 2 ^ 46 + packFrom 46 fs :=
    (BitVec.toNat_ofNat _ _).trans (Nat.mod_eq_of_lt bound)
  rw [decodeFields_eq, number, frame, code, operand]
  exact decodeMap_of_holds form held

/-- An instruction with a field beyond its limits is refused as reserved before its formats are looked at. -/
theorem decodeNative_of_beyond_limits {c : Cluster} {i : Instr} {w : Word} (encoded : encodeNative c i = some w)
    (beyond : i.limitsOk = false) : decodeNative c w = .reserved := by
  rw [decodeNative, decodeFields_of_encode encoded]
  simp [checkFields, beyond]

end Sys2Proof

namespace Sys2Proof.Proofs

open Sys2Proof.Machine Sys2Proof.Claims

/-- Settles O11: each word lands its value, and the values of the immediates are the statement's. -/
theorem selectAndImmediateWords : Obligations.SelectAndImmediateWords := by
  intro s f x t d a h u r
  have run (i : Instr) (g : Word → Word) (w : Word) (plain : plainWord i = true) (value : g u = w) :
      Host.Outcome.next (scalarR i f 1 d a g s) = r w :=
    value ▸ scalarR_of_runs h i 1 d a g plain
  refine ⟨fun b g => scalarPut_of_runs h _ 1 d _ rfl, fun imm => ?_, fun n small => ?_,
    fun imm => scalarPut_of_runs h _ 1 d _ rfl, fun imm => ?_⟩
  · exact ⟨run _ _ _ rfl rfl, run _ _ _ rfl rfl, run _ _ _ rfl rfl, run _ _ _ rfl rfl,
      run _ _ _ rfl (ofBool_slt_signExtend u imm)⟩
  · exact ⟨run _ _ _ rfl (shiftLeft_imm u small), run _ _ _ rfl (shiftRight_imm u small), run _ _ _ rfl (shiftArith_imm u small)⟩
  · rw [← limmh_eq_append]
    exact scalarR_of_runs h _ 1 d d _ rfl

/-- Settles O12: each of the fields is beyond a limit of its instruction. -/
theorem scalarFieldLimits : Obligations.ScalarFieldLimits := by
  refine ⟨fun f d a n w large encoded => ?_, fun f d n w large encoded => ?_, fun f g b w large encoded => ?_,
    fun f fl b w large encoded => ?_⟩
  · have beyond : decide (n.toNat < 64) = false := decide_eq_false (not_lt.mpr large)
    rcases encoded with encoded | encoded | encoded
    all_goals exact decodeNative_of_beyond_limits encoded beyond
  · exact decodeNative_of_beyond_limits encoded (decide_eq_false (not_lt.mpr large))
  · refine decodeNative_of_beyond_limits encoded ?_
    have value : decide (b.toNat ≤ 1) = false := decide_eq_false (not_le.mpr large)
    rw [Instr.limitsOk, value, Bool.and_false]
  · exact decodeNative_of_beyond_limits encoded (decide_eq_false (not_le.mpr large))

end Sys2Proof.Proofs
end

section
/-! PROOF. Guard, mailbox, flag, counter and CSR words (06 R139, R146, R147, R149, R150, R153). -/

namespace Sys2Proof.Machine

open Sys2Proof.Claims (Runs lands xr)

section
variable {s t : State} {f : Frame} {x : Ctx} (h : Runs s f x t)
include h

/-- A word that writes something else than an x register. -/
theorem wordPut_of_runs (i : Instr) (n : Nat) (act : Ctx → State → Act) (plain : plainWord i = true) :
    Host.Outcome.next (nativeWord .s i f (fun _ _ => .ok) (fun x s => s.later x (x.t + n) (act x s)) s) = lands t x n (act x t) :=
  congrArg Host.Outcome.next (nativeWord_of_runs h plain rfl)

/-- A word that may not read a poisoned register, with one that is not. -/
theorem cleanWord_of_runs (i : Instr) (n : Nat) (a : XReg) (act : Word → Act) (plain : plainWord i = true)
    (clean : (xr t x a).p = false) :
    Host.Outcome.next (nativeWord .s i f (fun x s => poisonProbe x ((s.core x.c).getX a.val))
      (fun x s => s.later x (x.t + n) (act ((s.core x.c).getX a.val).v)) s) = lands t x n (act (xr t x a).v) := by
  refine congrArg Host.Outcome.next (nativeWord_of_runs h plain (poisonProbe_clean ?_))
  rwa [xr_of_runs h a] at clean

end

/-! ### Views of WALL (06 R139, 19 R364) -/

/-- WALL as the region of a core sees it. -/
def State.regionWall (s : State) (c : Nat) : Int := (s.wall : Int) + (Config.wallSkew (c / 16) s.wall % 3 : Nat) - 1

theorem State.wallView_eq (s : State) (c : Nat) : s.wallView c = BitVec.ofInt 64 (s.regionWall c) := rfl

theorem State.regionWall_congr (s : State) {a b : Nat} (h : a / 16 = b / 16) : s.regionWall a = s.regionWall b := by
  rw [regionWall, regionWall, h]

/-- A view is within 1 ns of the module's WALL. -/
theorem State.regionWall_bounds (s : State) (c : Nat) :
    (s.wall : Int) - 1 ≤ s.regionWall c ∧ s.regionWall c ≤ s.wall + 1 := by
  have skew := Nat.mod_lt (Config.wallSkew (c / 16) s.wall) (by decide : 3 > 0)
  unfold regionWall
  omega

end Sys2Proof.Machine

namespace Sys2Proof.Proofs

open Sys2Proof.Machine Sys2Proof.Claims

/-- Settles O13: each word lands what it reads at its issue, and the views of WALL are within 1 ns of it. -/
theorem guardMailboxFlagCounterWords : Obligations.GuardMailboxFlagCounterWords := by
  refine ⟨?_, ?_⟩
  · intro s f x t h gd
    refine ⟨fun g a clean => ?_, fun g b => ?_, fun g ga gb => ?_, fun d m => ?_, fun m a clean => ?_, fun n b => ?_, fun d n => ?_⟩
    · exact cleanWord_of_runs h _ 2 a (fun v => .guard g.val (v != 0)) rfl clean
    · exact wordPut_of_runs h (.gseti f g b) 2 (fun _ _ => .guard g.val (b != 0)) rfl
    · have glog (op : Lop) : exec (.glog f g ga gb op) s = lands t x 2 (.guard g.val (lopBool op (gd ga) (gd gb))) :=
        wordPut_of_runs h (.glog f g ga gb op) 2
          (fun x s => .guard g.val (lopBool op (s.guard x.p x.c ga.val) (s.guard x.p x.c gb.val))) rfl
      exact ⟨glog .and, glog .or, glog .xor, glog .andn⟩
    · exact scalarPut_of_runs h _ 2 d _ rfl
    · exact cleanWord_of_runs h _ 2 a (.mailbox m.val) rfl clean
    · exact wordPut_of_runs h (.flset f n b) 2 (fun _ _ => .flag n.val (b != 0)) rfl
    · exact scalarPut_of_runs h _ 1 d _ rfl
  · intro s f x t h
    refine ⟨fun d => ?_, fun d => ?_, fun a b => ?_, fun d n => ?_, fun a n clean => ?_⟩
    · exact scalarPut_of_runs h _ 1 d _ rfl
    · exact scalarPut_of_runs h _ 1 d _ rfl
    · obtain ⟨lowA, highA⟩ := t.regionWall_bounds a
      obtain ⟨lowB, highB⟩ := t.regionWall_bounds b
      exact ⟨_, _, t.wallView_eq a, t.wallView_eq b, t.regionWall_congr, by omega, by omega, by omega, by omega⟩
    · exact scalarPut_of_runs h _ 1 d _ rfl
    · exact cleanWord_of_runs h _ 1 a (.csr n.toNat) rfl clean

end Sys2Proof.Proofs
end

section
/-! PROOF. What a handler run refuses, and TRET and TEN outside one (06 R152, 18 R340): the condition goes to every core of
the partition as a double trap while MSK = 1, and to its own core as a nested trap else. -/

namespace Sys2Proof.Machine

/-! ### A handler's own traps (18 R340) -/

section
variable (s : State) (x : Ctx) (k : Cls) (v : Word)

theorem State.handlerTrap_masked (h : (s.core x.c).msk = true) : s.handlerTrap x k v = s.doubleTrap x k := if_pos h

/-- A double trap is recorded in every core of the partition and in its control block, and the driver is told. -/
theorem State.doubleTrap_eq : ∃ (l : List Word) (r : Trap), r.cls = .doubleTrap ∧ r.localRoute = false ∧ r.kill = true ∧
    s.doubleTrap x k = (((s.modCores (s.part x.p).cores fun c => c.setTrec l).modPart x.p fun q =>
      { q with trap := some r }).modEntry x.p fun e => { e with cls := 0x16, trec := l }).interrupt (entryVector x.p) :=
  ⟨_, ⟨_, .doubleTrap, _, _, false, true, _, _⟩, rfl, rfl, rfl, rfl⟩

/-- A double trap is routed to the host, where only a kill ends it. -/
theorem State.doubleTrap_spec :
    (∃ r, ((s.doubleTrap x k).part x.p).trap = some r ∧ r.cls = .doubleTrap ∧ r.localRoute = false ∧ r.kill = true) ∧
    (s.doubleTrap x k).irqs = s.irqs ++ [entryVector x.p] ∧ ((s.doubleTrap x k).entry x.p).cls = 0x16 := by
  obtain ⟨l, r, cls, route, kill, eq⟩ := s.doubleTrap_eq x k
  rw [eq]
  refine ⟨⟨r, ?_, cls, route, kill⟩, ?_, ?_⟩
  · exact congrArg Part.trap (State.part_modPart _ x.p fun q => { q with trap := some r })
  · exact congrArg (· ++ [entryVector x.p]) (State.modCores_irqs s _ _)
  · exact congrArg Entry.cls (State.entry_modEntry _ x.p fun e => { e with cls := 0x16, trec := l })

/-- A core begins its handler run again, for a nested trap. -/
def Core.restartHandler (l : List Word) (k : Core) : Core := { k.setTrec l with msk := true, handler := 0 }

/-- A nested trap is recorded in its own core and in the control block. -/
theorem State.handlerTrap_unmasked (h : (s.core x.c).msk = false) : s.handlerTrap x k v =
    (s.modCore x.c (Core.restartHandler (trapRecord true k x.who (s.part x.p).tick v))).modEntry x.p fun e =>
      { e with cls := BitVec.ofNat 8 (clsCode k), trec := trapRecord true k x.who (s.part x.p).tick v } :=
  if_neg (Bool.eq_false_iff.mp h)

/-- A nested trap starts the handler again. -/
theorem State.handlerTrap_nested (h : (s.core x.c).msk = false) :
    ((s.handlerTrap x k v).core x.c).msk = true ∧ ((s.handlerTrap x k v).core x.c).handler = 0 ∧
    ((s.handlerTrap x k v).core x.c).trec = ((s.core x.c).setTrec (trapRecord true k x.who (s.part x.p).tick v)).trec ∧
    (s.handlerTrap x k v).parts = s.parts ∧ ((s.handlerTrap x k v).entry x.p).cls = BitVec.ofNat 8 (clsCode k) := by
  have core : (s.handlerTrap x k v).core x.c = _ :=
    (congrArg (State.core · x.c) (s.handlerTrap_unmasked x k v h)).trans (State.core_modCore s x.c _)
  rw [core, s.handlerTrap_unmasked x k v h]
  exact ⟨rfl, rfl, rfl, rfl, congrArg Entry.cls (State.entry_modEntry _ x.p _)⟩

end

/-! ### Words of a handler run -/

/-- A word that a handler run refuses is an illegal encoding. -/
theorem exec_handler_refused {i : Instr} {r : NativeForm} {s : State} {p c : Nat} {l : List Item} (native : i.native = some r)
    (refused : handlerIllegal i = true) (agenda : s.agenda = .handler p c :: l) (guard : s.guardTrue p c r.frame = true) :
    exec i s = .next (s.popItem.handlerTrap (s.handlerCtx p c) .illegalEncoding ((s.handlerWord p c).getD 0)) := by
  obtain ⟨pr, e, run | ⟨sa, run⟩⟩ := runsAsNative_of_native native
  · rw [run, nativeWord_handler_illegal agenda guard refused]
    rfl
  · rw [run, nativeWord_handler_illegal agenda guard refused, wakeOnCheck, agenda]
    rfl

/-- The words of 18 R340, each under its frame. -/
theorem handlerIllegal_of_mem {i : Instr} {f : Frame} (h : i ∈ [Instr.ret f, .stop f, .pulse f] ∨
    ∃ (a : XReg) (d : BitVec 8) (q : Num4) (n : BitVec 46) (u v : BitVec 12) (sc : Scope) (j : Join),
      i ∈ [Instr.decide f a d, .loop f a d, .call f u v, .chkp f d, .bar f d sc j, .spawn f n, .qpush f q a, .qpop f a q]) :
    handlerIllegal i = true ∧ ∃ r, i.native = some r ∧ r.frame = f := by
  simp only [List.mem_cons, List.not_mem_nil, or_false] at h
  rcases h with (rfl | rfl | rfl) | ⟨a, d, q, n, u, v, sc, j, rfl | rfl | rfl | rfl | rfl | rfl | rfl | rfl⟩
  all_goals exact ⟨rfl, _, rfl, rfl⟩

/-- TRET and TEN are illegal outside a handler run (06 R152). -/
theorem exec_handlerOnly_check {s : State} {f : Frame} {p c : Nat} {l : List Item} (agenda : s.agenda = .check p c .s :: l)
    (guard : s.guardTrue p c f = true) {i : Instr} (word : i ∈ [Instr.tret f, .ten f]) :
    exec i s = .next (s.checkTrap p c .s .illegalEncoding (s.ctx p c .s).who.word) := by
  simp only [List.mem_cons, List.not_mem_nil, or_false] at word
  rcases word with rfl | rfl
  all_goals exact congrArg Host.Outcome.next (nativeWord_check_trap agenda guard (wordProbe_of_limits _ rfl))

end Sys2Proof.Machine

namespace Sys2Proof.Proofs

open Sys2Proof.Machine Sys2Proof.Claims

/-- Settles O15: the check of TRET and TEN, and the two ends of a word that a handler run refuses. -/
theorem handlerLimits : Obligations.HandlerLimits := by
  refine ⟨fun s f p c l agenda guard i word => exec_handlerOnly_check agenda guard word, ?_⟩
  intro s f p c l i agenda guard word w
  obtain ⟨refused, r, native, rfl⟩ := handlerIllegal_of_mem word
  have run := exec_handler_refused native refused agenda guard
  refine ⟨fun masked => ?_, fun unmasked => ?_⟩
  · rw [s.popItem.handlerTrap_masked (s.handlerCtx p c) _ _ masked] at run
    exact ⟨_, run, s.popItem.doubleTrap_spec (s.handlerCtx p c) .illegalEncoding⟩
  · obtain ⟨msk, handler, trec, parts, cls⟩ := s.popItem.handlerTrap_nested (s.handlerCtx p c) .illegalEncoding w unmasked
    exact ⟨_, run, msk, handler, ⟨_, _, _, trec⟩, State.part_congr parts p, cls⟩

end Sys2Proof.Proofs
end

section
/-! PROOF. Queue words of S, A and V at their issue: a pop takes the oldest entry, a push claims the place behind the entries (06
R136, R148, 07 R190, 08 R206). -/

namespace Sys2Proof.Machine

open Sys2Proof.Claims (Issues lands)

/-! ### Values of the ports of 64 bits (08 R206) -/

/-- The low word of a row, with zeros above it. -/
theorem lowWord_eq_and (r : Row) : (r.setWidth 64).setWidth 512 = r &&& BitVec.ofNat 512 (2 ^ 64 - 1) := by
  refine BitVec.eq_of_getLsbD_eq fun i hi => ?_
  simp only [BitVec.getLsbD_setWidth, BitVec.getLsbD_and, BitVec.getLsbD_ofNat, Nat.testBit_two_pow_sub_one, hi, decide_true,
    Bool.true_and, Bool.and_comm]

/-- A word that every place of a row of words holds. -/
theorem broadcast64_eq_append (w : Word) : broadcast64 w.toNat = w ++ w ++ w ++ w ++ w ++ w ++ w ++ w := by
  have small : rowOfElems 64 (List.replicate 8 w.toNat) < 2 ^ 512 := rowOfElems_lt 64 (List.replicate 8 w.toNat)
  refine BitVec.eq_of_toNat_eq ?_
  rw [broadcast64, BitVec.toNat_ofNat, Nat.mod_eq_of_lt small]
  simp only [toNat_append_eq_add, List.replicate, rowOfElems, Nat.mod_eq_of_lt w.isLt, Nat.mul_zero, Nat.add_zero]

/-! ### Pops and pushes (06 R136) -/

/-- The oldest entry of a queue, taken and delivered later. -/
def State.popLater (s : State) (x : Ctx) (q n : Nat) (act : PRow → Act) : State :=
  (s.pop x.c q).1.later x n (act (s.pop x.c q).2)

theorem State.popLater_cons {s : State} {x : Ctx} {q : Nat} {e : QEntry} {l : List QEntry}
    (front : (s.core x.c).getQueue q = e :: l) (n : Nat) (act : PRow → Act) :
    s.popLater x q n act = (s.modCore x.c fun k => k.setQueue q l).later x n (act ⟨e.v, e.p⟩) := by
  have taken : s.pop x.c q = (s.modCore x.c fun k => k.setQueue q l, ⟨e.v, e.p⟩) := by rw [pop, front]
  rw [popLater, taken]

/-- The place behind the entries that stand in a queue, claimed by a push that issues at `n`. -/
def State.claimed (s : State) (c q n : Nat) : State :=
  s.setCore c { (s.core c).setQueue q ((s.core c).getQueue q ++ [⟨(s.core c).nextId, 0, false, false, n⟩]) with
    nextId := (s.core c).nextId + 1 }

theorem State.pushLater_eq (s : State) (x : Ctx) (q n : Nat) (v : Row) (p : Bool) :
    s.pushLater x q n v p = (s.claimed x.c q x.t).later x n (.queue q (s.core x.c).nextId v p) := rfl

section
variable {s t : State} {f : Frame} {x : Ctx} (q : Num4)

section
variable {e : QEntry} {l : List QEntry} (front : (t.core x.c).getQueue q.val = e :: l)
include front

theorem exec_qpop_issues (d : XReg) (h : Issues s f .s x t) : exec (.qpop f d q) s =
    lands (t.modCore x.c fun k => k.setQueue q.val l) x 2 (.x d.val ⟨e.v.setWidth 64, e.p⟩) :=
  congrArg Host.Outcome.next ((nativeWord_of_issues h).trans
    (State.popLater_cons front (x.t + 2) fun e => .x d.val ⟨e.v.setWidth 64, e.p⟩))

theorem exec_cqpop_issues (d : Num4) (h : Issues s f .a x t) : exec (.cqpop f d q) s =
    lands (t.modCore x.c fun k => k.setQueue q.val l) x 2 (.c d.val ⟨e.v.setWidth 64, e.p⟩) :=
  congrArg Host.Outcome.next ((nativeWord_of_issues h).trans
    (State.popLater_cons front (x.t + 2) fun e => .c d.val ⟨e.v.setWidth 64, e.p⟩))

/-- A VQPOP of queue 10 delivers its word in every place of the row. -/
theorem exec_vqpop_issues (d : VReg) (h : Issues s f .v x t) : exec (.vqpop f d q) s =
    lands (t.modCore x.c fun k => k.setQueue q.val l) x 2
      (.v d.val (if q.val = 10 then broadcast64 (e.v.toNat % 2 ^ 64) else e.v) fullMask e.p) :=
  congrArg Host.Outcome.next ((nativeWord_of_issues h).trans (State.popLater_cons front (x.t + 2) fun e =>
    .v d.val (if q.val = 10 then broadcast64 (e.v.toNat % 2 ^ 64) else e.v) fullMask e.p))

end

/-- A push of row `v` to queue `q`: what its word lands. -/
def pushes (t : State) (x : Ctx) (q : Nat) (v : Row) (p : Bool) : Out :=
  lands (t.claimed x.c q x.t) x 2 (.queue q (t.core x.c).nextId v p)

theorem exec_qpush_issues (a : XReg) (h : Issues s f .s x t) : exec (.qpush f q a) s =
    pushes t x q.val (((t.core x.c).getX a.val).v.setWidth 512) ((t.core x.c).getX a.val).p :=
  congrArg Host.Outcome.next ((nativeWord_of_issues h).trans (State.pushLater_eq ..))

theorem exec_cqpush_issues (a : Num4) (h : Issues s f .a x t) : exec (.cqpush f q a) s =
    pushes t x q.val (((t.core x.c).getC a.val).v.setWidth 512) ((t.core x.c).getC a.val).p :=
  congrArg Host.Outcome.next ((nativeWord_of_issues h).trans (State.pushLater_eq ..))

/-- A VQPUSH to queue 11 pushes the low word of the row. -/
theorem exec_vqpush_issues (a : VReg) (h : Issues s f .v x t) : exec (.vqpush f q a) s = pushes t x q.val
    (if q.val = 11 then ((t.core x.c).getV a.val).v &&& BitVec.ofNat 512 (2 ^ 64 - 1) else ((t.core x.c).getV a.val).v)
    ((t.core x.c).getV a.val).p :=
  congrArg Host.Outcome.next ((nativeWord_of_issues h).trans (State.pushLater_eq ..))

end

end Sys2Proof.Machine

namespace Sys2Proof.Proofs

open Sys2Proof.Machine Sys2Proof.Claims

/-- Settles O18: what each word of a queue takes or claims, with the two ports of 64 bits of V. -/
theorem queueWords : Obligations.QueueWords := by
  refine ⟨fun s f x t d q e l h front => exec_qpop_issues q front d h, fun s f x t d q e l h front => exec_cqpop_issues q front d h,
    fun s f x t d q e l h front => ?_, fun s f x t q => ⟨exec_qpush_issues q, exec_cqpush_issues q, fun a h => ?_⟩⟩
  · intro w
    have row : broadcast64 (e.v.toNat % 2 ^ 64) = w ++ w ++ w ++ w ++ w ++ w ++ w ++ w := by
      rw [← BitVec.toNat_setWidth, broadcast64_eq_append]
    rw [exec_vqpop_issues q front d h, row]
    rfl
  · rw [exec_vqpush_issues q a h, ← lowWord_eq_and]
    rfl

end Sys2Proof.Proofs
end

section
/-! PROOF. Portable branches, jumps, counters, fences and software traps: where each core says that it goes (21 R380 to R384). -/

namespace Sys2Proof.Machine

open Sys2Proof.Claims (Runs32 retires xr)

theorem retires_eq_portDone (x : Ctx) (t : State) (n : Next) : retires x t n = .next (t.portDone x.p x.c n) := by
  cases n <;> rfl

/-! ### Values (21 R380, R381) -/

section
variable (u v : Word)

theorem rvTaken_bge : rvTaken .bge u v = decide (v.toInt ≤ u.toInt) := by
  simp only [rvTaken, BitVec.slt, ← decide_not, not_lt]

theorem rvTaken_bgeu : rvTaken .bgeu u v = decide (v.toNat ≤ u.toNat) := by
  simp only [rvTaken, BitVec.ult, ← decide_not, not_lt]

end

/-- The set of a FENCE that stands for a predecessor and a successor set (21 R383): bit by bit. -/
theorem getLsbD_fenceSet (p s : BitVec 4) : ∀ i < 5, (fenceSet p s).getLsbD i =
    (i == 4 && p.getLsbD 1 && s.getLsbD 1 || i == 3 && p.getLsbD 1 && s.getLsbD 0 || i == 2 && p.getLsbD 0 && s.getLsbD 1 ||
      i == 1 && p.getLsbD 0 && s.getLsbD 0) := by
  unfold fenceSet
  dsimp only
  generalize p.getLsbD 0 = p0
  generalize p.getLsbD 1 = p1
  generalize s.getLsbD 0 = s0
  generalize s.getLsbD 1 = s1
  revert p0 p1 s0 s1
  decide

/-! ### Instructions that run -/

theorem portableWord_retires {u : HwUnit} {s t : State} {x : Ctx} (h : Runs32 s u x t) (pr : Ctx → State → Probe)
    (e : Ctx → State → State × Next) : Host.Outcome.next (portableWord u pr e s) = retires x (e x t).1 (e x t).2 := by
  rw [portableWord_of_runs h, retires_eq_portDone]

section
variable {s t : State} {x : Ctx} (h : Runs32 s .s x t)
include h

theorem exec_rvBranch_runs (c : RvCond) (a b : XReg) (o : BitVec 12) : exec (.rvBranch c a b o) s =
    retires x t (.branch (rvTaken c (xr t x a).v (xr t x b).v) (((t.thread x.p).off : Int) + 2 * o.toInt).toNat) :=
  portableWord_retires h _ _

theorem exec_jal_runs (d : XReg) (o : BitVec 20) : exec (.jal d o) s = retires x (t.linkTo x d)
    (match t.jalKind x.p d (((t.thread x.p).off : Int) + 2 * o.toInt) with
      | .call g => .call g | .hop n => .jump n | .none => .on 1) :=
  portableWord_retires h _ _

/-- A JALR links and goes where its register says, but for the return form. -/
theorem exec_jalr_runs (d a : XReg) (o : BitVec 12) (other : ¬ (d.val = 0 ∧ a.val = 1 ∧ o = 0)) : exec (.jalr d a o) s =
    retires x (t.linkTo x d) (.indirect (((xr t x a).v + o.signExtend 64) &&& ~~~(1 : Word)) (d.val == 1)) := by
  have links : ¬ (decide (d.val = 0) && decide (a.val = 1) && decide (o = 0)) = true := by
    simpa [and_assoc] using other
  refine (portableWord_retires h _ _).trans ?_
  dsimp only
  rw [if_neg links]
  rfl

theorem exec_jalr_back : exec (.jalr 0 1 0) s = retires x t .back := portableWord_retires h _ _

theorem exec_ecall_runs : exec .ecall s =
    retires x (t.addCond x.p ⟨x.t + 1, .softwareTrap, x.who, 0xEC, .continue_⟩) (.on 1) := portableWord_retires h _ _

theorem exec_ebreak_runs : exec .ebreak s =
    retires x (t.addCond x.p ⟨x.t + 1, .softwareTrap, x.who, 0xEB, .continue_⟩) (.on 1) := portableWord_retires h _ _

theorem portableX_retires (n : Nat) (d : XReg) (g : Ctx → State → PWord) : Host.Outcome.next (portableX n d g s) =
    retires x (t.later x (x.t + n) (.x d.val (g x t))) (.on n) := portableWord_retires h _ _

theorem exec_csrrs_runs (d : XReg) (c : RvCounter) : exec (.csrrs d c) s =
    retires x (t.later x (x.t + 1) (.x d.val ⟨t.counter x c, false⟩)) (.on 1) := portableX_retires h 1 d _

theorem exec_csrrsi_runs (d : XReg) (c : RvCounter) : exec (.csrrsi d c) s =
    retires x (t.later x (x.t + 1) (.x d.val ⟨t.counter x c, false⟩)) (.on 1) := portableX_retires h 1 d _

end

section
variable {s t : State} {x : Ctx} (h : Runs32 s .a x t)
include h

theorem exec_rvFence_runs (fm pr su : BitVec 4) (d a : XReg) : exec (.rvFence fm pr su d a) s =
    retires x (if fenceSet pr su = 0 then t else t.fence x (fenceSet pr su) .pd) (.on 1) := portableWord_retires h _ _

theorem exec_fenceTso_runs (d a : XReg) : exec (.fenceTso d a) s = retires x (t.fence x 0x1E .pd) (.on 1) :=
  (portableWord_retires h _ _).trans rfl

end

end Sys2Proof.Machine
end

section
/-! PROOF. The end of a portable instruction and the switch that the votes of every core decide (21 R380, R382, R384). -/

namespace Sys2Proof.Machine

theorem step_portableEnd {s : State} {p : Nat} {l : List Item} (ha : s.agenda = .portableEnd p :: l) :
    step s = .next (s.popItem.portableEnd p) := by
  simp only [step, State.fetch, State.quietStep, ha]

@[simp] theorem State.setPart_setPart (s : State) (p : Nat) (k l : Part) : (s.setPart p k).setPart p l = s.setPart p l := by
  simp [State.setPart]

@[simp] theorem State.modPart_modPart (s : State) (p : Nat) (f g : Part → Part) :
    (s.modPart p f).modPart p g = s.modPart p fun k => g (f k) := by simp [State.modPart]

theorem State.portVote_part {s : State} {p : Nat} {th : Thread} (h : (s.part p).thread = some th) (c : Nat) (n : Next) :
    (s.portVote p c n).part p = { s.part p with thread := some { th with votes := th.votes ++ [(c, n)] } } := by
  rw [portVote, State.part_modPart, h]
  rfl

/-! ### What the votes say (21 R382, R384) -/

/-- Every core votes for one branch, each of them taking it or not. -/
def Thread.branches (th : Thread) (target : Nat) : Prop := ∀ w ∈ th.votes, ∃ b : Bool, w.2 = .branch b target

/-- How many cores take the branch. -/
def Thread.takers (th : Thread) (target : Nat) : Nat := (th.votes.filter fun w => w.2 == .branch true target).length

/-- A vote that takes its branch. -/
def Next.taken : Next → Bool
  | .branch b _ => b
  | _ => false

theorem Thread.takers_eq {th : Thread} {target : Nat} (branches : th.branches target) :
    (th.votes.filter fun w => w.2.taken).length = th.takers target := by
  refine congrArg List.length (List.filter_congr fun w hw => ?_)
  obtain ⟨b, vote⟩ := branches w hw
  cases b <;> simp [vote, Next.taken]

/-- Function `j` may be entered at an address. -/
def Loaded.takenAt (o : Loaded) (va : Word) (j : Nat) : Prop :=
  ∃ f, o.obj.functions[j]? = some f ∧ f.taken = true ∧ o.entryVa j = va

theorem Loaded.takenAt_iff (o : Loaded) (va : Word) (j : Nat) : o.takenAt va j ↔ j < o.obj.functions.length ∧
    ((match listNth o.obj.functions j with | some f => f.taken | none => false) && o.entryVa j == va) = true := by
  rw [listNth_eq_getElem?, takenAt]
  cases found : o.obj.functions[j]? with
  | none => simp
  | some f =>
    obtain ⟨inside, -⟩ := List.getElem?_eq_some_iff.mp found
    simp [inside]

theorem State.takenAt_eq_none {s : State} {p : Nat} {o : Loaded} {va : Word} (loaded : s.loadedOf p = some o)
    (nowhere : ∀ j, ¬ o.takenAt va j) : s.takenAt p va = none := by
  unfold takenAt
  simp only [loaded, List.find?_range_eq_none]
  exact fun j hj => (Bool.not_eq_true' _).mpr (Bool.eq_false_iff.mpr fun found =>
    nowhere j ((o.takenAt_iff va j).mpr ⟨hj, found⟩))

theorem State.takenAt_eq_some {s : State} {p : Nat} {o : Loaded} {va : Word} {fn : Nat}
    (loaded : s.loadedOf p = some o) (entry : o.takenAt va fn) (first : ∀ j < fn, ¬ o.takenAt va j) : s.takenAt p va = some fn := by
  obtain ⟨inside, found⟩ := (o.takenAt_iff va fn).mp entry
  unfold takenAt
  simp only [loaded, List.find?_range_eq_some]
  refine ⟨found, List.mem_range.mpr inside, fun j hj => ?_⟩
  exact (Bool.not_eq_true' _).mpr (Bool.eq_false_iff.mpr fun found =>
    first j hj ((o.takenAt_iff va j).mpr ⟨hj.trans inside, found⟩))

/-! ### The thread goes on, or switches -/

/-- The thread at an offset, with its next instruction at a tick and no votes. -/
def Thread.goOn (th : Thread) (off ready : Nat) : Thread :=
  { th with off := off, votes := [], issue := Option.none, ready := ready }

section
variable {s : State} {p : Nat} {th : Thread} (h : (s.part p).thread = some th)
include h

theorem State.thread_eq : s.thread p = th := by rw [thread, h]; rfl

theorem State.goOn_eq (off ready : Nat) :
    s.goOn p off ready = s.modPart p fun q => { q with thread := some (th.goOn off ready) } := by
  rw [goOn, State.thread_eq h]
  rfl

theorem State.switched_thread : ((s.switched p).part p).thread = some th :=
  (congrArg Part.thread (State.part_congr (State.modCores_parts _ _ _) p)).trans h

/-- An instruction of which the first core asks for a switch issues it on this tick. -/
theorem State.portableEnd_issues {c : Nat} {n : Next} {r : List (Nat × Next)} (unissued : th.issue = none)
    (votes : th.votes = (c, n) :: r) (leaves : ∀ m, n ≠ .on m) (stays : n = .back → th.launch = false) :
    s.portableEnd p = s.setThread p { th with issue := some (s.part p).tick } := by
  unfold portableEnd
  simp only [State.thread_eq h, unissued, votes]
  cases n with
  | on m => exact absurd rfl (leaves m)
  | back => simp [stays rfl]
  | _ => rfl

theorem State.portableEnd_due {i : Nat} (issued : th.issue = some i) (due : (s.part p).tick = i + delta (s.part p).n) :
    s.portableEnd p = s.threadSwitch p := by
  unfold portableEnd
  simp only [State.thread_eq h, issued, due, if_true]

/-- At the switch tick of a branch the number of its takers decides. -/
theorem State.threadSwitch_branch {target : Nat} {v : Nat × Next} {r : List (Nat × Next)} (votes : th.votes = v :: r)
    (branches : th.branches target) : s.threadSwitch p =
      if th.takers target = 0 then (s.switched p).goOn p (th.off + 4) (s.part p).tick
      else if th.takers target = th.votes.length then (s.switched p).goOn p target (s.part p).tick
      else (s.goOn p th.off (s.part p).tick).addCond p ⟨(s.part p).tick, .decisionMiss, (s.portCtx p (s.part p).base .s).who,
        BitVec.ofNat 64 (th.takers target), .continue_⟩ := by
  rw [← Thread.takers_eq branches]
  obtain ⟨b, vote⟩ := branches v (votes ▸ List.mem_cons_self)
  obtain ⟨c, n⟩ := v
  obtain rfl : n = .branch b target := vote
  unfold threadSwitch
  simp only [State.thread_eq h, votes]
  rfl

section
variable {target : Nat} {v : Nat × Next} {r : List (Nat × Next)} (votes : th.votes = v :: r) (branches : th.branches target)
include votes branches

theorem State.threadSwitch_none (nobody : th.takers target = 0) :
    s.threadSwitch p = (s.switched p).goOn p (th.off + 4) (s.part p).tick := by
  rw [State.threadSwitch_branch h votes branches, if_pos nobody]

theorem State.threadSwitch_all (everybody : th.takers target = th.votes.length) :
    s.threadSwitch p = (s.switched p).goOn p target (s.part p).tick := by
  have somebody : th.takers target ≠ 0 := by simp [everybody, votes]
  rw [State.threadSwitch_branch h votes branches, if_neg somebody, if_pos everybody]

theorem State.threadSwitch_some (somebody : 0 < th.takers target) (notAll : th.takers target < th.votes.length) :
    s.threadSwitch p = (s.goOn p th.off (s.part p).tick).addCond p ⟨(s.part p).tick, .decisionMiss,
      (s.portCtx p (s.part p).base .s).who, BitVec.ofNat 64 (th.takers target), .continue_⟩ := by
  rw [State.threadSwitch_branch h votes branches, if_neg somebody.ne', if_neg notAll.ne]

end

theorem State.threadSwitch_nowhere {va : Word} {push : Bool} {c : Nat} {r : List (Nat × Next)}
    (votes : th.votes = (c, .indirect va push) :: r) (nowhere : s.takenAt p va = none) : s.threadSwitch p =
      ((s.switched p).goOn p (th.off + 4) (s.part p).tick).addCond p
        ⟨(s.part p).tick, .decisionMiss, (s.portCtx p (s.part p).base .s).who, va, .continue_⟩ := by
  unfold threadSwitch
  simp only [State.thread_eq h, votes, nowhere]

theorem State.threadSwitch_enters {va : Word} {push : Bool} {c fn : Nat} {r : List (Nat × Next)}
    (votes : th.votes = (c, .indirect va push) :: r) (entry : s.takenAt p va = some fn) :
    s.threadSwitch p = s.enterFunction p fn push := by
  unfold threadSwitch
  simp only [State.thread_eq h, votes, entry]

/-- A function that Chason has translated is entered where the return stack has a place for the return, if it needs one. -/
theorem State.enterFunction_translated {fn : Nat} {push : Bool} (translated : s.untranslated p fn = false)
    (place : push = true → (s.part p).rets.length < 16) : s.enterFunction p fn push =
      ((s.switched p).useFn p fn).modPart p fun q => { q with
        rets := if push then .portable th.fn (th.off + 4) th.launch :: (s.part p).rets else (s.part p).rets
        thread := some ⟨fn, 0, false, [], none, (s.part p).tick⟩ } := by
  have fits : ¬ (push && decide (16 ≤ (s.part p).rets.length)) = true := by
    cases push with
    | false => simp
    | true => simpa using place rfl
  have kept : ((s.switched p).useFn p fn).part p = s.part p := State.part_congr (State.modCores_parts _ _ _) p
  unfold enterFunction
  simp only [translated, Bool.false_eq_true, if_false, if_neg fits, State.thread_eq h, setThread, State.modPart_modPart]
  simp only [State.modPart, kept]

end

end Sys2Proof.Machine

namespace Sys2Proof.Proofs

open Sys2Proof.Machine Sys2Proof.Claims

/-- Settles O47: where each word says its core goes, and what the votes come to at the switch tick. -/
theorem portableControlWords : Obligations.PortableControlWords := by
  refine ⟨?_, ?_, fun s p c n th thread => State.portVote_part thread c n, ?_⟩
  · intro s t x d a b o h u v br reads
    have branch (c : RvCond) {k : Bool} (taken : rvTaken c u v = k) : br c k := taken ▸ exec_rvBranch_runs h c a b o
    obtain ⟨low, high⟩ := t.regionWall_bounds x.c
    exact ⟨branch .beq rfl, branch .bne rfl, branch .blt rfl, branch .bge (rvTaken_bge u v), branch .bltu rfl,
      branch .bgeu (rvTaken_bgeu u v), exec_jal_runs h d, exec_jalr_runs h d a o, exec_jalr_back h, exec_ecall_runs h,
      exec_ebreak_runs h, exec_csrrs_runs h d .cycle, exec_csrrsi_runs h d .cycle, exec_csrrs_runs h d .instret,
      exec_csrrsi_runs h d .instret, t.regionWall x.c, by omega, by omega, exec_csrrs_runs h d .time, exec_csrrsi_runs h d .time⟩
  · intro s t x d a fm pr su h set
    refine ⟨fun b bits => ?_, exec_fenceTso_runs h d a⟩
    have same : fenceSet pr su = b :=
      BitVec.eq_of_getLsbD_eq fun i hi => (getLsbD_fenceSet pr su i hi).trans (bits i hi).symm
    exact same ▸ exec_rvFence_runs h fm pr su d a
  · intro s p l th agenda thread t k who on done misses
    have thread' : (t.part p).thread = some th := thread
    have goesOn (off : Nat) : (t.switched p).goOn p off (t.part p).tick = on done off :=
      State.goOn_eq (State.switched_thread thread') off _
    refine ⟨fun c n r unissued votes leaves stays => ?_, fun i issued due => ?_⟩
    · exact (step_portableEnd agenda).trans
        (congrArg Host.Outcome.next (State.portableEnd_issues thread' unissued votes leaves stays))
    have switches {u : State} (switch : t.threadSwitch p = u) : step s = .next u :=
      (step_portableEnd agenda).trans (congrArg Host.Outcome.next ((State.portableEnd_due thread' issued due).trans switch))
    refine ⟨fun target v r votes branches => ⟨fun nobody => ?_, fun everybody => ?_, fun somebody notAll => ?_⟩,
      fun va push c r o votes loaded => ⟨fun nowhere => ?_, fun fn entry first translated place => ?_⟩⟩
    · exact switches ((State.threadSwitch_none thread' votes branches nobody).trans (goesOn _))
    · exact switches ((State.threadSwitch_all thread' votes branches everybody).trans (goesOn _))
    · have stays : t.goOn p th.off (t.part p).tick = on t th.off := State.goOn_eq thread' _ _
      rw [← stays]
      exact switches (State.threadSwitch_some thread' votes branches somebody notAll)
    · rw [← goesOn]
      exact switches (State.threadSwitch_nowhere thread' votes (State.takenAt_eq_none loaded nowhere))
    · have enters := State.threadSwitch_enters thread' votes (State.takenAt_eq_some loaded entry first)
      exact switches (enters.trans (State.enterFunction_translated thread' translated place))

end Sys2Proof.Proofs
end

section
/-! PROOF. Coordinate and table words: an A word that issues lands what it reads, and the bits of a table entry that read 0 (07 R155,
R158, R164, R179 to R181). -/

namespace Sys2Proof.Machine

open Sys2Proof.Claims (Issues lands)

section
variable {s t : State} {f : Frame} {x : Ctx} (h : Issues s f .a x t)
include h

theorem unit_of_issues_a : unitPlace x.who.unit = 2 := by
  obtain ⟨p, c, l, -, -, -⟩ := h
  rfl

/-- A word of two c registers lands its operation. -/
theorem coordRR_of_issues (i : Instr) (n : Nat) (d a b : Num4) (g : Word → Word → Word) :
    Host.Outcome.next (coordRR i f n d a b g s) = lands t x n (.c d.val
      ⟨g ((t.core x.c).getC a.val).v ((t.core x.c).getC b.val).v, ((t.core x.c).getC a.val).p || ((t.core x.c).getC b.val).p⟩) :=
  congrArg Host.Outcome.next (nativeWord_of_issues h)

/-- A word that reads a table entry sets out the write of its bytes to the core's own pocket. -/
theorem tableGet_of_issues (i : Instr) (a : Num4) {size bits : Nat} (whole : 8 * size = bits) (entry : Core → Row) :
    tableGet i f a size entry s = (t.nextSeq x.p).1.later x (x.t + ownPocket (t.part x.p).loose / 2)
      (.write ⟨.pocket x.c ((t.core x.c).getC a.val).v.toNat, 0xF, (t.part x.p).seq + 1, false,
        x.t + ownPocket (t.part x.p).loose / 2, [], false⟩ (entry (t.core x.c)) (BitVec.ofNat 512 (2 ^ bits - 1)) false) := by
  subst whole
  exact nativeWord_of_issues h

end

/-! ### Reserved bits of table entries (00 R8) -/

/-- A field of ones above the bits of `low`. -/
theorem testBit_ones_above {lo : Nat} (w : Nat) {low : Nat} (small : low < 2 ^ lo) (i : Nat) :
    ((2 ^ w - 1) * 2 ^ lo + low).testBit i = (decide (lo ≤ i ∧ i < lo + w) || low.testBit i) := by
  rw [Nat.mul_comm, Nat.testBit_two_pow_mul_add _ small, Nat.testBit_two_pow_sub_one]
  by_cases below : i < lo
  · simp [below, Nat.not_le.mpr below]
  · have outside : low.testBit i = false :=
      Nat.testBit_lt_two_pow (small.trans_le (Nat.pow_le_pow_right (by decide) (Nat.not_lt.mp below)))
    rw [if_neg below, outside, Bool.or_false]
    exact decide_eq_decide.mpr (by omega)

/-- The reserved bits of a layout entry (07 R158). -/
theorem testBit_layReserved (i : Nat) :
    ((2 ^ 96 - 1) * 2 ^ 416 + (2 ^ 25 - 1) * 2 ^ 103 + 7 * 2 ^ 81 + (2 ^ 12 - 1) * 2 ^ 52).testBit i =
      (decide (416 ≤ i ∧ i < 512) || (decide (103 ≤ i ∧ i < 128) || (decide (81 ≤ i ∧ i < 84) || decide (52 ≤ i ∧ i < 64)))) := by
  have nothing := testBit_ones_above (lo := 52) 12 (low := 0) (by decide) i
  have second := testBit_ones_above (lo := 81) 3 (low := (2 ^ 12 - 1) * 2 ^ 52) (by decide) i
  have third := testBit_ones_above (lo := 103) 25 (low := (2 ^ 3 - 1) * 2 ^ 81 + (2 ^ 12 - 1) * 2 ^ 52) (by decide) i
  have fourth := testBit_ones_above (lo := 416) 96
    (low := (2 ^ 25 - 1) * 2 ^ 103 + ((2 ^ 3 - 1) * 2 ^ 81 + (2 ^ 12 - 1) * 2 ^ 52)) (by decide) i
  rw [Nat.add_zero, Nat.zero_testBit, Bool.or_false] at nothing
  rw [third, second, nothing] at fourth
  rw [Nat.add_assoc, Nat.add_assoc]
  exact fourth

theorem getLsbD_readLt (v : BitVec 512) {i : Nat} (h : i < 512) : (readLt v).getLsbD i = (v.getLsbD i &&
    !(decide (416 ≤ i) || decide (103 ≤ i ∧ i ≤ 127) || decide (81 ≤ i ∧ i ≤ 83) || decide (52 ≤ i ∧ i ≤ 63))) := by
  simp only [readLt, BitVec.getLsbD_and, BitVec.getLsbD_not, BitVec.getLsbD_ofNat, testBit_layReserved, h, and_true, decide_true,
    Bool.true_and, Nat.lt_succ_iff, Bool.or_assoc]

theorem getLsbD_readSt (v : BitVec 256) {i : Nat} (h : i < 256) : (readSt v).getLsbD i = (v.getLsbD i && decide (i < 220)) := by
  simp only [readSt, BitVec.getLsbD_and, BitVec.getLsbD_ofNat, Nat.testBit_two_pow_sub_one, h, decide_true, Bool.true_and]

end Sys2Proof.Machine

namespace Sys2Proof.Proofs

open Sys2Proof.Machine Sys2Proof.Claims

/-- Settles O21: a word of two registers lands its operation, and each operation is the statement's. -/
theorem coordinateWords : Obligations.CoordinateWords := by
  intro s f x t d a b h u v pa p
  have run (i : Instr) (n : Nat) (g : Word → Word → Word) (w : Word) (value : g u v = w) :
      Host.Outcome.next (coordRR i f n d a b g s) = lands t x n (.c d.val ⟨w, p⟩) :=
    value ▸ coordRR_of_issues h i n d a b g
  exact ⟨run _ 1 _ _ rfl, run _ 1 _ _ rfl, run _ 3 _ _ (mul_eq_ofNat u v), run _ 1 _ _ rfl, run _ 1 _ _ rfl, run _ 1 _ _ rfl,
    run _ 1 _ _ rfl, run _ 1 _ _ (min_eq_ofInt u v), run _ 1 _ _ (max_eq_ofInt u v),
    fun imm => congrArg Host.Outcome.next (nativeWord_of_issues h), fun imm => congrArg Host.Outcome.next (nativeWord_of_issues h)⟩

/-- Settles O22: what each word sets out at its issue, and the bits of an entry that read 0. -/
theorem tableWords : Obligations.TableWords := by
  intro s f x t a h k off l put sampled
  refine ⟨fun n => ⟨?layset, ?layget, fun i hi => getLsbD_readLt _ hi⟩,
    fun n => ⟨?stset, ?stget, fun i hi => getLsbD_readSt _ hi, ?strst, ?stadv⟩⟩
  case layget =>
    exact congrArg Host.Outcome.next (tableGet_of_issues h _ a (size := 64) (bits := 512) rfl fun k => readLt (k.getLt n.val))
  case stget =>
    exact congrArg Host.Outcome.next
      (tableGet_of_issues h _ a (size := 32) (bits := 256) rfl fun k => (readSt (k.getSt n.val)).setWidth 512)
  all_goals exact congrArg Host.Outcome.next (nativeWord_of_issues h)

end Sys2Proof.Proofs
end

section
/-! PROOF. Element and row accesses (07 R165, R167, R182 to R184): what an access leaves at its issue for later words, the work it sets
in flight, and its stream's next cursor. -/

namespace Sys2Proof.Machine

open Sys2Proof.Claims (Issues sameData timedFrom)

/-! ### What an access leaves for later words -/

/-- The acts that an access sets out beside its own: what its order modifiers stand for, and its stream's next cursor. -/
def Act.isBooking : Act → Bool
  | .fenceWait .. | .cursor .. => true
  | _ => false

/-- `u` is `t` with access numbers drawn, and no work more than fences and cursors. -/
structure Booked (p : Nat) (t u : State) : Prop where
  cores : u.cores = t.cores
  hbm : u.hbm = t.hbm
  hostMem : u.hostMem = t.hostMem
  work : WorkKept p t u
  added : ∀ d ∈ (u.part p).pend, d ∈ (t.part p).pend ∨ d.act.isBooking = true

theorem Booked.refl (p : Nat) (t : State) : Booked p t t := ⟨rfl, rfl, rfl, .refl p t, fun _ h => .inl h⟩

theorem Booked.trans {p : Nat} {t u v : State} (h : Booked p t u) (i : Booked p u v) : Booked p t v where
  cores := i.cores.trans h.cores
  hbm := i.hbm.trans h.hbm
  hostMem := i.hostMem.trans h.hostMem
  work := h.work.trans i.work
  added := fun d hd => (i.added d hd).elim (h.added d) .inr

theorem Booked.core {p : Nat} {t u : State} (h : Booked p t u) (c : Nat) : u.core c = t.core c := by
  rw [State.core, h.cores, State.core]

theorem Booked.data {p : Nat} {t u : State} (h : Booked p t u) : DataKept t u := .of_cores h.hbm h.hostMem h.cores

theorem Booked.addDue (s : State) (p : Nat) {d : Due} (booking : d.act.isBooking = true) : Booked p s (s.addDue p d) where
  cores := rfl
  hbm := rfl
  hostMem := rfl
  work := WorkKept.addDue s p d
  added := fun e he => ((State.mem_addDue s p d e).mp he).elim (fun new => .inr (new ▸ booking)) .inl

theorem Booked.nextSeq (s : State) (p : Nat) : Booked p s (s.nextSeq p).1 where
  cores := rfl
  hbm := rfl
  hostMem := rfl
  work := WorkKept.nextSeq s p p
  added := fun d hd => .inl (by simpa [State.nextSeq] using hd)

theorem Booked.fenceWait (s : State) (x : Ctx) (sc : Scope) (t u : Nat) (ld st : Bool) :
    Booked x.p s (s.fenceWait x sc t u ld st) := .addDue s x.p rfl

theorem Booked.orderWait (s : State) (x : Ctx) (o : Order) (sc : Scope) (tm : Timing) : Booked x.p s (s.orderWait x o sc tm) := by
  have release : Booked x.p s (if o == .rel || o == .ar then
      (s.fenceWait x sc tm.relL x.t true false).fenceWait x sc tm.relS x.t false true else s) := by
    split
    · exact (Booked.fenceWait s x sc _ _ _ _).trans (Booked.fenceWait _ x sc _ _ _ _)
    · exact .refl x.p s
  unfold State.orderWait
  dsimp only
  split
  · exact release.trans (Booked.fenceWait _ x sc _ _ _ _)
  · exact release

theorem Booked.advanceStream (s : State) (x : Ctx) (n : Nat) (adv : Adv) (m : Nat) (run : x.handler = false) :
    Booked x.p s (s.advanceStream x n adv m) := by
  unfold State.advanceStream
  dsimp only
  split
  · rw [State.later_word _ _ _ _ run]
    exact .addDue s x.p rfl
  · exact .refl x.p s

/-- An access issues: its core keeps what later accesses wait for, its order modifiers look at their ticks, and it takes a number. -/
def State.issueAccess (s : State) (x : Ctx) (k : Core) (o : Order) (sc : Scope) (tm : Timing) : State :=
  (((s.setCore x.c k).orderWait x o sc tm).nextSeq x.p).1

theorem Booked.issueAccess (s : State) (x : Ctx) (k : Core) (o : Order) (sc : Scope) (tm : Timing) :
    Booked x.p (s.setCore x.c k) (s.issueAccess x k o sc tm) :=
  (Booked.orderWait _ x o sc tm).trans (Booked.nextSeq _ x.p)

/-- What an access keeps in its core is no data. -/
theorem DataKept.enqueue (s : State) (c : Nat) (loose : Bool) (t first last tick : Nat) (o : Order) (sc : Scope) (ld st q : Bool) :
    DataKept s (s.setCore c ((accessTiming loose (s.core c) t first last o sc ld st).core.enqueue t tick q)) :=
  DataKept.setCore s c _ ⟨rfl, rfl, rfl, rfl, rfl, rfl, rfl, rfl⟩

/-- An access of a stream issues and moves the stream on. -/
def State.issueStream (s : State) (x : Ctx) (k : Core) (o : Order) (sc : Scope) (tm : Timing) (n : Nat) (adv : Adv) (m : Nat) : State :=
  (s.issueAccess x k o sc tm).advanceStream x n adv m

section
variable (s : State) (x : Ctx) (k : Core) (o : Order) (sc : Scope) (tm : Timing) (n : Nat) (adv : Adv) (m : Nat)
  (run : x.handler = false)
include run

theorem Booked.issueStream : Booked x.p (s.setCore x.c k) (s.issueStream x k o sc tm n adv m) :=
  (Booked.issueAccess s x k o sc tm).trans (Booked.advanceStream _ x n adv m run)

theorem State.core_issueStream : (s.issueStream x k o sc tm n adv m).core x.c = k := by
  rw [(Booked.issueStream s x k o sc tm n adv m run).core, State.core_setCore]

/-- The cursor that a stream goes on from lands at t + 1. -/
theorem State.cursor_issueStream (unit : unitPlace x.who.unit = 2) {c : BitVec 128}
    (next : cursorAfter (k.stream n).1 (k.stream n).2 adv m = some c) :
    ⟨x.t + 1, 2, x.who, .cursor n c⟩ ∈ ((s.issueStream x k o sc tm n adv m).part x.p).pend := by
  rw [← unit]
  refine State.mem_advanceStream (s.issueAccess x k o sc tm) x n adv m c run ?_
  rw [(Booked.issueAccess s x k o sc tm).core, State.core_setCore, next]

end

/-! ### The work of an access -/

/-- A load reads where its place is one, and else lands its zero. -/
def State.loadFrom (s : State) (x : Ctx) (b lat : Nat) (read : Loc → Act) (zero : Act) : Option Loc → State
  | some loc => s.sampleAt x (b + lat / 2) (read loc)
  | none => s.later x (b + lat) zero

/-- A store claims its unit of a window and writes where its place is one. -/
def State.storeTo (s : State) (x : Ctx) (l : Lay) (seq at_ : Nat) (write : Loc → Act) : Option Loc → State
  | some loc => (s.claimWindow x.c l 1 seq).later x at_ (write loc)
  | none => s

section
variable (s : State) (x : Ctx) (loc : Option Loc) (run : x.handler = false)
include run

theorem State.loadFrom_kept (b lat : Nat) (read : Loc → Act) (zero : Act) :
    DataKept s (s.loadFrom x b lat read zero loc) ∧ WorkKept x.p s (s.loadFrom x b lat read zero loc) := by
  cases loc with
  | some loc => exact ⟨DataKept.sampleAt s x _ _, WorkKept.addDue s x.p _⟩
  | none => exact ⟨DataKept.later s x _ _ run, WorkKept.later s x _ _ run⟩

theorem State.storeTo_kept (l : Lay) (seq at_ : Nat) (write : Loc → Act) :
    DataKept s (s.storeTo x l seq at_ write loc) ∧ WorkKept x.p s (s.storeTo x l seq at_ write loc) := by
  cases loc with
  | some loc =>
    exact ⟨(DataKept.claimWindow s x.c l 1 seq).trans (DataKept.later _ x _ _ run),
      (WorkKept.of_parts (State.claimWindow_parts s x.c l 1 seq)).trans (WorkKept.later _ x _ _ run)⟩
  | none => exact ⟨.refl s, .refl x.p s⟩

end

section
variable (t : State) (x : Ctx) (n : Nat)

/-- The latency of the path of a stream's layout. -/
def State.pathOf : Nat := pathLatency (t.part x.p).loose x.c ((t.core x.c).stream n).2

variable (o : Order) (sc : Scope)

/-- The timing of an access of one element or row, at half its path's latency. -/
def State.timing (ld st : Bool) : Timing :=
  accessTiming (t.part x.p).loose (t.core x.c) x.t (t.pathOf x n / 2) (t.pathOf x n / 2) o sc ld st

theorem State.timing_base (ld st : Bool) : (t.timing x n o sc ld st).base = timedFrom t x (t.pathOf x n / 2) o sc ld st :=
  accessTiming_base t x _ _ o sc ld st

/-- What a load or store keeps in its core: its own place in the load or store queue beside its timing. -/
def State.queued (store : Bool) : Core :=
  (t.timing x n o sc (!store) store).core.enqueue x.t ((t.timing x n o sc (!store) store).base + t.pathOf x n / 2) store

variable (store : Bool) (adv : Adv) (m : Nat)

/-- A load or store of `m` elements of a stream issues. -/
def State.streamIssued : State := t.issueStream x (t.queued x n o sc store) o sc (t.timing x n o sc (!store) store) n adv m

/-- The number of that access. -/
def State.streamSeq : Nat :=
  (((t.setCore x.c (t.queued x n o sc store)).orderWait x o sc (t.timing x n o sc (!store) store)).nextSeq x.p).2

section
variable (run : x.handler = false)
include run

theorem DataKept.streamIssued : DataKept t (t.streamIssued x n o sc store adv m) :=
  (DataKept.enqueue t x.c _ _ _ _ _ _ _ _ _ _).trans (Booked.issueStream t x _ _ _ _ _ _ _ run).data

theorem State.core_streamIssued : (t.streamIssued x n o sc store adv m).core x.c = t.queued x n o sc store :=
  State.core_issueStream t x _ o sc _ n adv m run

theorem State.added_streamIssued : ∀ d ∈ ((t.streamIssued x n o sc store adv m).part x.p).pend,
    d.act.isBooking = false → d ∈ (t.part x.p).pend := fun d hd plain =>
  ((Booked.issueStream t x (t.queued x n o sc store) o sc _ n adv m run).added d hd).elim id fun booking =>
    absurd booking (by simp [plain])

theorem State.cursor_streamIssued (unit : unitPlace x.who.unit = 2) {c : BitVec 128}
    (next : cursorAfter ((t.core x.c).stream n).1 ((t.core x.c).stream n).2 adv m = some c) :
    ⟨x.t + 1, 2, x.who, .cursor n c⟩ ∈ ((t.streamIssued x n o sc store adv m).part x.p).pend :=
  State.cursor_issueStream t x _ o sc _ n adv m run unit next

end

section
variable (loc : Option Loc) {v : State} (run : x.handler = false) (unit : unitPlace x.who.unit = 2)
  (kept : DataKept (t.streamIssued x n o sc store adv m) v) (parts : v.parts = (t.streamIssued x n o sc store adv m).parts)
include run unit kept parts

/-- A load of a stream, with its queue's bookkeeping done: it keeps the data, and sets out its read or its zero and its cursor. -/
theorem State.streamLoad_spec (b lat : Nat) (read : Loc → Act) (zero : Act) :
    sameData t (v.loadFrom x b lat read zero loc) ∧
    (∀ l, loc = some l → ⟨b + lat / 2, samplePlace, x.who, read l⟩ ∈ ((v.loadFrom x b lat read zero loc).part x.p).pend) ∧
    (loc = none → ⟨b + lat, 2, x.who, zero⟩ ∈ ((v.loadFrom x b lat read zero loc).part x.p).pend) ∧
    ∀ c, cursorAfter ((t.core x.c).stream n).1 ((t.core x.c).stream n).2 adv m = some c →
      ⟨x.t + 1, 2, x.who, .cursor n c⟩ ∈ ((v.loadFrom x b lat read zero loc).part x.p).pend := by
  obtain ⟨data, work⟩ := v.loadFrom_kept x loc run b lat read zero
  refine ⟨(((DataKept.streamIssued t x n o sc store adv m run).trans kept).trans data).sameData, ?_, ?_, fun c next => ?_⟩
  · rintro l rfl
    exact (State.mem_addDue v x.p _ _).mpr (.inl rfl)
  · rintro rfl
    rw [State.loadFrom, State.later_word v x _ _ run, unit]
    exact (State.mem_addDue v x.p _ _).mpr (.inl rfl)
  · exact work _ (WorkKept.of_parts parts _ (State.cursor_streamIssued t x n o sc store adv m run unit next))

/-- A store of a stream, with its queue's bookkeeping done: it keeps the data, and sets out its write, if any, and its cursor. -/
theorem State.streamStore_spec (l : Lay) (seq at_ : Nat) (write : Loc → Act) :
    sameData t (v.storeTo x l seq at_ write loc) ∧
    (∀ a, loc = some a → ⟨at_, 2, x.who, write a⟩ ∈ ((v.storeTo x l seq at_ write loc).part x.p).pend) ∧
    (loc = none → ∀ d ∈ ((v.storeTo x l seq at_ write loc).part x.p).pend, d.act.isBooking = false → d ∈ (t.part x.p).pend) ∧
    ∀ c, cursorAfter ((t.core x.c).stream n).1 ((t.core x.c).stream n).2 adv m = some c →
      ⟨x.t + 1, 2, x.who, .cursor n c⟩ ∈ ((v.storeTo x l seq at_ write loc).part x.p).pend := by
  obtain ⟨data, work⟩ := v.storeTo_kept x loc run l seq at_ write
  refine ⟨(((DataKept.streamIssued t x n o sc store adv m run).trans kept).trans data).sameData, ?_, ?_, fun c next => ?_⟩
  · rintro a rfl
    rw [State.storeTo, State.later_word _ x _ _ run, unit]
    exact (State.mem_addDue _ x.p _ _).mpr (.inl rfl)
  · rintro rfl d hd
    rw [State.storeTo, State.part_congr parts] at hd
    exact State.added_streamIssued t x n o sc store adv m run d hd
  · exact work _ (WorkKept.of_parts parts _ (State.cursor_streamIssued t x n o sc store adv m run unit next))

end
end

/-! ### Elements (07 R182) -/

theorem elemLoc_at {e : Elem} {l : Loc} (h : e = .at l) : elemLoc e = some l := by rw [h]; rfl
theorem elemLoc_drop {e : Elem} {d : Nat} (h : e = .drop d) : elemLoc e = none := by rw [h]; rfl

section
variable {s t : State} {f : Frame} {x : Ctx} (h : Issues s f .a x t)
include h

theorem exec_ld_issues (r n : Num4) (o : Order) (sc : Scope) (adv : Adv) :
    let st := ((t.core x.c).stream n.val).1
    let l := ((t.core x.c).stream n.val).2
    let b := (t.timing x n.val o sc true false).base
    let lat := t.pathOf x n.val
    exec (.ld f r n o sc adv) s = .next ((t.streamIssued x n.val o sc false adv 1).loadFrom x b lat
      (fun loc => .sampleC ⟨loc, n.val, t.streamSeq x n.val o sc false, l.promise, b + lat, [packCursor st.cur], l.erc⟩ r.val
        (elemBytes l) (isSignedFmt l.format)) (.c r.val Pv.zero) (elemLoc (t.element x.c l st.cur))) :=
  congrArg Host.Outcome.next (nativeWord_of_issues h)

theorem exec_st_issues (r n : Num4) (o : Order) (sc : Scope) (adv : Adv) :
    let st := ((t.core x.c).stream n.val).1
    let l := ((t.core x.c).stream n.val).2
    let at_ := (t.timing x n.val o sc false true).base + t.pathOf x n.val / 2
    exec (.st f n r o sc adv) s = .next ((t.streamIssued x n.val o sc true adv 1).storeTo x l (t.streamSeq x n.val o sc true) at_
      (fun loc => .write ⟨loc, n.val, t.streamSeq x n.val o sc true, l.promise, at_, [packCursor st.cur], l.erc⟩
        (((t.core x.c).getC r.val).v.setWidth 512) (BitVec.ofNat 512 (2 ^ (8 * elemBytes l) - 1)) false)
      (elemLoc (t.element x.c l st.cur))) :=
  congrArg Host.Outcome.next (nativeWord_of_issues h)

end

end Sys2Proof.Machine

namespace Sys2Proof.Proofs

open Sys2Proof.Machine Sys2Proof.Claims

/-- Settles O23: each word issues its access and moves its stream on; then it reads or writes where its element is at a place. -/
theorem elementLoadsAndStores : Obligations.ElementLoadsAndStores := by
  intro s f x t n r o sc adv h k st l lat
  have run := handler_of_issues h
  have unit := unit_of_issues_a h
  refine ⟨?_, ?_⟩
  · obtain ⟨kept, reads, zero, cursor⟩ := State.streamLoad_spec t x n.val o sc false adv 1 (elemLoc (t.element x.c l st.cur)) run unit
      (.refl _) rfl (t.timing x n.val o sc true false).base lat _ _
    exact ⟨_, _, _, exec_ld_issues h r n o sc adv, kept, t.timing_base x n.val o sc true false,
      fun loc inside => reads loc (elemLoc_at inside), fun d outside => zero (elemLoc_drop outside), cursor⟩
  · obtain ⟨kept, writes, dropped, cursor⟩ := State.streamStore_spec t x n.val o sc true adv 1 (elemLoc (t.element x.c l st.cur)) run
      unit (.refl _) rfl l (t.streamSeq x n.val o sc true) ((t.timing x n.val o sc false true).base + lat / 2) _
    exact ⟨_, _, _, exec_st_issues h r n o sc adv, kept, t.timing_base x n.val o sc false true,
      fun loc inside => writes loc (elemLoc_at inside),
      fun d outside e he a v m p act => dropped (elemLoc_drop outside) e he (by rw [act]; rfl), cursor⟩

end Sys2Proof.Proofs
end

section
/-! PROOF. Row accesses, gathers and scatters, and TOUCH (07 R184 to R186): the place that a load claims in its queue, the entry that a
store takes, and the row or index row that is read. -/

namespace Sys2Proof.Machine

open Sys2Proof.Claims (Issues sameData timedFrom)

/-! ### Queues of an access (06 R136) -/

theorem Core.getQueue_setQueue_append (k : Core) (q : Nat) (l : List QEntry) (e : QEntry) :
    (k.setQueue q (l ++ [e])).getQueue q = l ++ [e] := by
  rw [setQueue, getQueue, tset, if_neg (by simp), tget_tput_self]

/-- A claim puts a place behind the entries that stand in the queue. -/
theorem State.getQueue_claim (s : State) (c q sample : Nat) : ((s.claim c q sample).1.core c).getQueue q =
    (s.core c).getQueue q ++ [⟨(s.core c).nextId, 0, false, false, sample⟩] := by
  rw [claim, core_setCore]
  exact Core.getQueue_setQueue_append (s.core c) q _ _

theorem State.pop_cons {s : State} {c q : Nat} {e : QEntry} {l : List QEntry} (front : (s.core c).getQueue q = e :: l) :
    s.pop c q = (s.modCore c fun k => k.setQueue q l, ⟨e.v, e.p⟩) := by rw [pop, front]

theorem State.queues_claimUnits (s : State) (c target n seq : Nat) :
    ((s.claimUnits c target n seq).core c).queues = (s.core c).queues := by
  unfold claimUnits
  split
  · rfl
  · split
    · rfl
    · split <;> rw [core_modCore]

theorem State.queues_claimWindow (s : State) (c : Nat) (l : Lay) (n seq : Nat) :
    ((s.claimWindow c l n seq).core c).queues = (s.core c).queues := by
  unfold claimWindow
  split
  · exact s.queues_claimUnits c _ n seq
  · rfl

/-- Neither the read of a load nor the zero that it lands changes a core. -/
theorem State.cores_loadFrom (s : State) (x : Ctx) (run : x.handler = false) (b lat : Nat) (read : Loc → Act) (zero : Act)
    (loc : Option Loc) : (s.loadFrom x b lat read zero loc).cores = s.cores := by
  cases loc with
  | some loc => rfl
  | none => rw [loadFrom, later_word _ _ _ _ run]; rfl

theorem State.queues_storeTo (s : State) (x : Ctx) (run : x.handler = false) (l : Lay) (seq at_ : Nat) (write : Loc → Act)
    (loc : Option Loc) : ((s.storeTo x l seq at_ write loc).core x.c).queues = (s.core x.c).queues := by
  cases loc with
  | some loc =>
    rw [storeTo, later_word _ _ _ _ run]
    exact s.queues_claimWindow x.c l 1 seq
  | none => rfl

/-! ### Rows (07 R184) -/

section
variable (t : State) (x : Ctx) (n : Nat) (o : Order) (sc : Scope) (store : Bool) (adv : Adv) (m : Nat) (run : x.handler = false)
include run

theorem State.nextId_streamIssued : ((t.streamIssued x n o sc store adv m).core x.c).nextId = (t.core x.c).nextId := by
  rw [core_streamIssued t x n o sc store adv m run]
  rfl

theorem State.getQueue_streamIssued (q : Nat) :
    ((t.streamIssued x n o sc store adv m).core x.c).getQueue q = (t.core x.c).getQueue q := by
  rw [core_streamIssued t x n o sc store adv m run]
  rfl

theorem State.queues_setQueue_streamIssued (q : Nat) (l : List QEntry) :
    (((t.streamIssued x n o sc store adv m).core x.c).setQueue q l).queues = ((t.core x.c).setQueue q l).queues := by
  rw [core_streamIssued t x n o sc store adv m run]
  rfl

end

section
variable {s t : State} {f : Frame} {x : Ctx} (h : Issues s f .a x t) (q n : Num4) (o : Order) (sc : Scope) (adv : Adv)
include h

theorem exec_lds_issues :
    let st := ((t.core x.c).stream n.val).1
    let l := ((t.core x.c).stream n.val).2
    let b := (t.timing x n.val o sc true false).base
    let lat := t.pathOf x n.val
    let row := t.rowAt x.c l n.val st.cur
    exec (.lds f q n o sc adv) s =
      .next (((t.streamIssued x n.val o sc false adv (rowElems l)).claim x.c q.val (b + lat / 2)).1.loadFrom x b lat
        (fun loc => .sampleQ ⟨loc, n.val, t.streamSeq x n.val o sc false, l.promise, b + lat, [packCursor st.cur], l.erc⟩ q.val
          (t.core x.c).nextId row.mask) (.queue q.val (t.core x.c).nextId 0 false) row.loc) := by
  dsimp only
  rw [← State.nextId_streamIssued t x n.val o sc false adv (rowElems ((t.core x.c).stream n.val).2) (handler_of_issues h)]
  exact congrArg Host.Outcome.next (nativeWord_of_issues h)

/-- The store of the entry that it takes, whether its queue has one or not. -/
theorem exec_sts_pops :
    let st := ((t.core x.c).stream n.val).1
    let l := ((t.core x.c).stream n.val).2
    let at_ := (t.timing x n.val o sc false true).base + t.pathOf x n.val / 2
    let row := t.rowAt x.c l n.val st.cur
    let r := (t.streamIssued x n.val o sc true adv (rowElems l)).pop x.c q.val
    exec (.sts f n q o sc adv) s = .next (r.1.storeTo x l (t.streamSeq x n.val o sc true) at_
      (fun loc => .write ⟨loc, n.val, t.streamSeq x n.val o sc true, l.promise, at_, [packCursor st.cur], l.erc⟩ r.2.v row.mask r.2.p)
      row.loc) :=
  congrArg Host.Outcome.next (nativeWord_of_issues h)

theorem exec_sts_issues {e : QEntry} {rest : List QEntry} (front : (t.core x.c).getQueue q.val = e :: rest) :
    let st := ((t.core x.c).stream n.val).1
    let l := ((t.core x.c).stream n.val).2
    let at_ := (t.timing x n.val o sc false true).base + t.pathOf x n.val / 2
    let row := t.rowAt x.c l n.val st.cur
    exec (.sts f n q o sc adv) s =
      .next (((t.streamIssued x n.val o sc true adv (rowElems l)).modCore x.c fun k => k.setQueue q.val rest).storeTo x l
        (t.streamSeq x n.val o sc true) at_ (fun loc => .write ⟨loc, n.val, t.streamSeq x n.val o sc true, l.promise, at_,
          [packCursor st.cur], l.erc⟩ e.v row.mask e.p) row.loc) := by
  have stands := State.getQueue_streamIssued t x n.val o sc true adv (rowElems ((t.core x.c).stream n.val).2) (handler_of_issues h)
    q.val
  dsimp only
  rw [exec_sts_pops h, State.pop_cons (stands.trans front)]

end

end Sys2Proof.Machine

namespace Sys2Proof.Proofs

open Sys2Proof.Machine Sys2Proof.Claims

/-- Settles O24: an access of a row claims its queue's place, or takes its entry, and then reads or writes where its row is at a
place. -/
theorem rowLoadsAndStores : Obligations.RowLoadsAndStores := by
  intro s f x t n q o sc adv h k st l row lat
  have run := handler_of_issues h
  have unit := unit_of_issues_a h
  refine ⟨?_, fun e rest front => ?_⟩
  · let b := (t.timing x n.val o sc true false).base
    obtain ⟨kept, reads, zero, cursor⟩ := State.streamLoad_spec t x n.val o sc false adv (rowElems l) row.loc run unit
      (DataKept.claim _ x.c q.val (b + lat / 2)) rfl b lat _ _
    refine ⟨_, b, _, exec_lds_issues h q n o sc adv, kept, t.timing_base x n.val o sc true false, ?_, reads, zero, cursor⟩
    rw [State.core, State.cores_loadFrom _ x run, ← State.core, State.getQueue_claim,
      State.getQueue_streamIssued t x n.val o sc false adv _ run, State.nextId_streamIssued t x n.val o sc false adv _ run]
    rfl
  · obtain ⟨kept, writes, dropped, cursor⟩ := State.streamStore_spec t x n.val o sc true adv (rowElems l) row.loc run unit
      (DataKept.modCore _ x.c (fun k => k.setQueue q.val rest) fun _ => ⟨rfl, rfl, rfl, rfl, rfl, rfl, rfl, rfl⟩) rfl l
      (t.streamSeq x n.val o sc true) ((t.timing x n.val o sc false true).base + lat / 2) _
    refine ⟨_, _, _, exec_sts_issues h q n o sc adv front, kept, t.timing_base x n.val o sc false true, ?_, writes,
      fun outside d hd a v m p act => dropped outside d hd (by rw [act]; rfl), cursor⟩
    rw [State.queues_storeTo _ x run, State.core_modCore, State.queues_setQueue_streamIssued t x n.val o sc true adv _ run]

end Sys2Proof.Proofs
end

section
/-! PROOF. Gathers, scatters and TOUCH (07 R185, R186): the index row is read at half its path, and the queue's place or entry is taken
at the issue. -/

namespace Sys2Proof.Machine

open Sys2Proof.Claims (Issues sameData timedFrom)

/-! ### Units of a scatter (16 R318) -/

section
variable (s : State) (c : Nat) (l : Lay) (units seq : Nat)

/-- Held units are an entry of the core's account of its windows. -/
theorem State.holdUnits_cases : s.holdUnits c l units seq = s ∨
    ∃ held, s.holdUnits c l units seq = s.modCore c fun k => { k with winInner := k.winInner ++ [held] } := by
  unfold holdUnits
  split
  · exact .inl rfl
  · split
    · exact .inl rfl
    · exact .inr ⟨_, rfl⟩

theorem DataKept.holdUnits : DataKept s (s.holdUnits c l units seq) := by
  obtain same | ⟨held, h⟩ := s.holdUnits_cases c l units seq
  · rw [same]; exact .refl s
  · rw [h]; exact .modCore s c _ fun _ => ⟨rfl, rfl, rfl, rfl, rfl, rfl, rfl, rfl⟩

theorem State.queues_holdUnits : ((s.holdUnits c l units seq).core c).queues = (s.core c).queues := by
  obtain same | ⟨held, h⟩ := s.holdUnits_cases c l units seq
  · rw [same]
  · rw [h, core_modCore]

end

@[simp] theorem State.core_sampleAt (s : State) (x : Ctx) (n : Nat) (a : Act) (c : Nat) : (s.sampleAt x n a).core c = s.core c := rfl

/-- The stream of a core goes by its tables of streams and layouts alone. -/
theorem DataKept.stream {t u : State} (h : DataKept t u) (c n : Nat) : (u.core c).stream n = (t.core c).stream n := by
  unfold Core.stream Core.getSt Core.getLt
  rw [h.st c, h.lt c]

/-! ### Index rows (07 R185) -/

section
variable (t : State) (x : Ctx) (elems index : Nat) (store : Bool)

/-- The timing of a gather or scatter: from its index row's sampling to its elements' tick. -/
def State.indexTiming : Timing :=
  accessTiming (t.part x.p).loose (t.core x.c) x.t (t.pathOf x index / 2) (t.pathOf x index + t.pathOf x elems / 2) .rlx .co (!store)
    store

theorem State.indexTiming_base :
    (t.indexTiming x elems index store).base = timedFrom t x (t.pathOf x index / 2) .rlx .co (!store) store :=
  accessTiming_base t x _ _ .rlx .co (!store) store

/-- The tick at which the elements of a gather or scatter are read or written. -/
def State.elemsAt : Nat := (t.indexTiming x elems index store).base + t.pathOf x index + t.pathOf x elems / 2

/-- What a gather or scatter keeps in its core. -/
def State.indexQueued : Core := (t.indexTiming x elems index store).core.enqueue x.t (t.elemsAt x elems index store) store

/-- A gather or scatter issues. -/
def State.indexIssued : State :=
  t.issueAccess x (t.indexQueued x elems index store) .rlx .co (t.indexTiming x elems index store)

theorem Booked.indexIssued : Booked x.p (t.setCore x.c (t.indexQueued x elems index store)) (t.indexIssued x elems index store) :=
  .issueAccess t x _ .rlx .co _

theorem State.core_indexIssued : (t.indexIssued x elems index store).core x.c = t.indexQueued x elems index store := by
  rw [(Booked.indexIssued t x elems index store).core, core_setCore]

theorem DataKept.indexIssued : DataKept t (t.indexIssued x elems index store) :=
  (DataKept.enqueue t x.c _ _ _ _ _ _ _ _ _ _).trans (Booked.indexIssued t x elems index store).data

end

/-- The index stream of an access that has issued goes on, and neither this nor the queue's bookkeeping nor the read touches the data. -/
theorem State.indexRead_spec {t u v : State} {x : Ctx} (run : x.handler = false) (unit : unitPlace x.who.unit = 2) (n : Nat) (adv : Adv)
    (issued : DataKept t u) (queued : DataKept (u.advanceStream x n adv 16) v) (parts : v.parts = (u.advanceStream x n adv 16).parts)
    (at_ : Nat) (act : Act) :
    sameData t (v.sampleAt x at_ act) ∧ ⟨at_, samplePlace, x.who, act⟩ ∈ ((v.sampleAt x at_ act).part x.p).pend ∧
    ∀ c, cursorAfter ((t.core x.c).stream n).1 ((t.core x.c).stream n).2 adv 16 = some c →
      ⟨x.t + 1, 2, x.who, .cursor n c⟩ ∈ ((v.sampleAt x at_ act).part x.p).pend := by
  refine ⟨?_, (mem_addDue v x.p _ _).mpr (.inl rfl), fun c next => ?_⟩
  · exact (((issued.trans (Booked.advanceStream u x n adv 16 run).data).trans queued).trans (.sampleAt v x _ _)).sameData
  · rw [← issued.stream] at next
    have moved := mem_advanceStream u x n adv 16 c run next
    rw [unit] at moved
    exact WorkKept.addDue v x.p _ _ (WorkKept.of_parts parts _ moved)

section
variable (t : State) (x : Ctx) (elems index n : Nat) (store : Bool) (adv : Adv) (run : x.handler = false)
include run

theorem State.core_indexAdvanced :
    ((t.indexIssued x elems index store).advanceStream x n adv 16).core x.c = t.indexQueued x elems index store := by
  rw [(Booked.advanceStream _ x n adv 16 run).core, core_indexIssued]

theorem State.nextId_indexAdvanced :
    (((t.indexIssued x elems index store).advanceStream x n adv 16).core x.c).nextId = (t.core x.c).nextId := by
  rw [core_indexAdvanced t x elems index n store adv run]
  rfl

theorem State.getQueue_indexAdvanced (q : Nat) :
    (((t.indexIssued x elems index store).advanceStream x n adv 16).core x.c).getQueue q = (t.core x.c).getQueue q := by
  rw [core_indexAdvanced t x elems index n store adv run]
  rfl

end

/-- A scatter that has issued holds its units, and then its index stream goes on. -/
def State.scatterAdvanced (t : State) (x : Ctx) (elems index : Nat) (adv : Adv) : State :=
  let u := t.setCore x.c (t.indexQueued x elems index true)
  ((t.indexIssued x elems index true).holdUnits x.c ((t.core x.c).stream elems).2 (u.scatterUnits x elems index)
    (u.nextSeq x.p).2).advanceStream x index adv 16

theorem State.queues_scatterAdvanced (t : State) (x : Ctx) (elems index : Nat) (adv : Adv) (run : x.handler = false) :
    ((t.scatterAdvanced x elems index adv).core x.c).queues = (t.core x.c).queues := by
  unfold scatterAdvanced
  rw [(Booked.advanceStream _ x index adv 16 run).core, queues_holdUnits, core_indexIssued]
  rfl

section
variable {s t : State} {f : Frame} {x : Ctx} (h : Issues s f .a x t) (q sa sb : Num4) (adv : Adv)
include h

theorem exec_gath_issues :
    let st := ((t.core x.c).stream sb.val).1
    let l := ((t.core x.c).stream sb.val).2
    let row := t.rowAt x.c l sb.val st.cur
    let b := (t.indexTiming x sa.val sb.val false).base
    let at_ := t.elemsAt x sa.val sb.val false
    exec (.gath f q sa sb adv) s =
      .next ((((t.indexIssued x sa.val sb.val false).advanceStream x sb.val adv 16).claim x.c q.val at_).1.sampleAt x
        (b + t.pathOf x sb.val / 2) (.gatherIndex ⟨row.loc.getD (.pocket x.c 0), sa.val,
          ((t.setCore x.c (t.indexQueued x sa.val sb.val false)).nextSeq x.p).2, false,
          b + t.pathOf x sb.val + t.pathOf x sa.val, [], l.erc⟩ (row.loc.map fun _ => row.mask) q.val (t.core x.c).nextId
          ((t.core x.c).getSt sa.val) ((t.core x.c).getLt (strOf ((t.core x.c).getSt sa.val)).lt) at_)) := by
  dsimp only
  rw [← State.nextId_indexAdvanced t x sa.val sb.val sb.val false adv (handler_of_issues h)]
  exact congrArg Host.Outcome.next (nativeWord_of_issues h)

/-- The scatter of the entry that it takes, whether its queue has one or not. -/
theorem exec_scat_pops :
    let st := ((t.core x.c).stream sb.val).1
    let l := ((t.core x.c).stream sb.val).2
    let row := t.rowAt x.c l sb.val st.cur
    let at_ := t.elemsAt x sa.val sb.val true
    let r := (t.scatterAdvanced x sa.val sb.val adv).pop x.c q.val
    exec (.scat f sa sb q adv) s = .next (r.1.sampleAt x ((t.indexTiming x sa.val sb.val true).base + t.pathOf x sb.val / 2)
      (.scatterIndex ⟨row.loc.getD (.pocket x.c 0), sa.val,
        ((t.setCore x.c (t.indexQueued x sa.val sb.val true)).nextSeq x.p).2, ((t.core x.c).stream sa.val).2.promise, at_, [], l.erc⟩
        (row.loc.map fun _ => row.mask) r.2.v ((t.core x.c).getSt sa.val)
        ((t.core x.c).getLt (strOf ((t.core x.c).getSt sa.val)).lt) at_)) :=
  congrArg Host.Outcome.next (nativeWord_of_issues h)

theorem exec_scat_issues {e : QEntry} {rest : List QEntry} (front : (t.core x.c).getQueue q.val = e :: rest) :
    let st := ((t.core x.c).stream sb.val).1
    let l := ((t.core x.c).stream sb.val).2
    let row := t.rowAt x.c l sb.val st.cur
    let at_ := t.elemsAt x sa.val sb.val true
    exec (.scat f sa sb q adv) s =
      .next (((t.scatterAdvanced x sa.val sb.val adv).modCore x.c fun k => k.setQueue q.val rest).sampleAt x
        ((t.indexTiming x sa.val sb.val true).base + t.pathOf x sb.val / 2)
        (.scatterIndex ⟨row.loc.getD (.pocket x.c 0), sa.val,
          ((t.setCore x.c (t.indexQueued x sa.val sb.val true)).nextSeq x.p).2, ((t.core x.c).stream sa.val).2.promise, at_, [], l.erc⟩
          (row.loc.map fun _ => row.mask) e.v ((t.core x.c).getSt sa.val)
          ((t.core x.c).getLt (strOf ((t.core x.c).getSt sa.val)).lt) at_)) := by
  have stands : ((t.scatterAdvanced x sa.val sb.val adv).core x.c).getQueue q.val = e :: rest := by
    rw [Core.getQueue, State.queues_scatterAdvanced t x sa.val sb.val adv (handler_of_issues h), ← front, Core.getQueue]
  dsimp only
  rw [exec_scat_pops h, State.pop_cons stands]

theorem exec_touch_issues : exec (.touch f sb) s =
    let l := ((t.core x.c).stream sb.val).2
    let b := l.byteOf (elemOffset l ((t.core x.c).stream sb.val).1.cur)
    .next (if l.space = 2 ∧ inRange l b 1 = true then t.sampleAt x (x.t + t.pathOf x sb.val / 2) (.touch b.toNat) else t) := by
  refine (congrArg Host.Outcome.next (nativeWord_of_issues h)).trans (congrArg Host.Outcome.next ?_)
  simp only [Bool.and_eq_true, decide_eq_true_eq]
  rfl

end

end Sys2Proof.Machine

namespace Sys2Proof.Proofs

open Sys2Proof.Machine Sys2Proof.Claims

/-- Settles O25: a gather claims its queue's place and a scatter takes its entry; both read the index row, and TOUCH looks up its
address. -/
theorem gatherScatterTouch : Obligations.GatherScatterTouch := by
  intro s f x t q sa sb adv h k st l row li le at_ mask
  have run := handler_of_issues h
  have unit := unit_of_issues_a h
  refine ⟨?_, fun e rest front => ?_, exec_touch_issues h sb⟩
  · obtain ⟨kept, read, cursor⟩ := State.indexRead_spec run unit sb.val adv (DataKept.indexIssued t x sa.val sb.val false)
      (DataKept.claim _ x.c q.val (t.elemsAt x sa.val sb.val false)) rfl _ _
    refine ⟨_, _, _, exec_gath_issues h q sa sb adv, kept, t.indexTiming_base x sa.val sb.val false, ?_, read, cursor⟩
    rw [State.core_sampleAt, State.getQueue_claim, State.getQueue_indexAdvanced t x sa.val sb.val sb.val false adv run,
      State.nextId_indexAdvanced t x sa.val sb.val sb.val false adv run]
    rfl
  · obtain ⟨kept, read, cursor⟩ := State.indexRead_spec run unit sb.val adv
      ((DataKept.indexIssued t x sa.val sb.val true).trans (DataKept.holdUnits _ x.c _ _ _))
      (DataKept.modCore _ x.c (fun k => k.setQueue q.val rest) fun _ => ⟨rfl, rfl, rfl, rfl, rfl, rfl, rfl, rfl⟩) rfl _ _
    refine ⟨_, _, _, exec_scat_issues h q sa sb adv front, kept, t.indexTiming_base x sa.val sb.val true, ?_, read, cursor⟩
    rw [State.core_sampleAt, State.core_modCore, Core.setQueue, State.queues_scatterAdvanced t x sa.val sb.val adv run]
    rfl

end Sys2Proof.Proofs
end

section
/-! PROOF. Atomics (07 R161, R187): the work that one sets in flight at its issue, and the new value of each operation. -/

namespace Sys2Proof.Machine

open Sys2Proof.Claims (Issues sameData timedFrom)

/-! ### An atomic that issues -/

/-- The places of an atomic in the load and the store queue. -/
def Core.enqueueAtomic (k : Core) (t tick : Nat) : Core := (k.enqueue t tick false).enqueue t tick true

section
variable (t : State) (x : Ctx) (n : Nat) (o : Order) (sc : Scope)

/-- The tick at which an atomic is performed. -/
def State.atomicAt : Nat := (t.timing x n o sc true true).base + t.pathOf x n / 2

/-- What an atomic keeps in its core: its places in the queues beside its timing. -/
def State.atomicQueued : Core := (t.timing x n o sc true true).core.enqueueAtomic x.t (t.atomicAt x n o sc)

/-- An atomic issues. -/
def State.atomicIssued : State := t.issueAccess x (t.atomicQueued x n o sc) o sc (t.timing x n o sc true true)

theorem Booked.atomicIssued : Booked x.p (t.setCore x.c (t.atomicQueued x n o sc)) (t.atomicIssued x n o sc) :=
  .issueAccess t x _ o sc _

theorem DataKept.atomicQueued : DataKept t (t.setCore x.c (t.atomicQueued x n o sc)) := by
  have queued := (DataKept.timing t x.c (t.part x.p).loose x.t (t.pathOf x n / 2) (t.pathOf x n / 2) o sc true true).trans
    (.modCore _ x.c (·.enqueueAtomic x.t (t.atomicAt x n o sc)) fun _ => ⟨rfl, rfl, rfl, rfl, rfl, rfl, rfl, rfl⟩)
  rwa [State.modCore, State.core_setCore, State.setCore_setCore] at queued

theorem DataKept.atomicIssued : DataKept t (t.atomicIssued x n o sc) :=
  (DataKept.atomicQueued t x n o sc).trans (Booked.atomicIssued t x n o sc).data

/-- The number of an atomic. -/
def State.atomicSeq : Nat :=
  (((t.setCore x.c (t.atomicQueued x n o sc)).orderWait x o sc (t.timing x n o sc true true)).nextSeq x.p).2

variable (d : Nat) (op : Option Aop) (a b : Word)

/-- An atomic of an element at a place sets out to read and write it together. -/
theorem State.atomicIssue_at {loc : Loc}
    (inside : t.element x.c ((t.core x.c).stream n).2 ((t.core x.c).stream n).1.cur = .at loc) :
    t.atomicIssue x n d op a b o sc = (t.atomicIssued x n o sc).later x (t.atomicAt x n o sc)
      (.atomic ⟨loc, n, t.atomicSeq x n o sc, ((t.core x.c).stream n).2.promise, (t.timing x n o sc true true).base + t.pathOf x n,
        [packCursor ((t.core x.c).stream n).1.cur], ((t.core x.c).stream n).2.erc⟩ (some d) op a b ((t.core x.c).stream n).2.format) := by
  unfold atomicIssue
  dsimp only
  rw [elemLoc_at inside]
  rfl

/-- An atomic of an element outside its extents lands its zero. -/
theorem State.atomicIssue_drop {dim : Nat}
    (outside : t.element x.c ((t.core x.c).stream n).2 ((t.core x.c).stream n).1.cur = .drop dim) :
    t.atomicIssue x n d op a b o sc =
      (t.atomicIssued x n o sc).later x ((t.timing x n o sc true true).base + t.pathOf x n) (.c d Pv.zero) := by
  unfold atomicIssue
  dsimp only
  rw [elemLoc_drop outside]
  rfl

section
variable (run : x.handler = false) (unit : unitPlace x.who.unit = 2)
include run unit

/-- What an atomic sets out as its own work. -/
theorem State.atomicIssued_later (tick : Nat) (act : Act) : sameData t ((t.atomicIssued x n o sc).later x tick act) ∧
    ⟨tick, 2, x.who, act⟩ ∈ (((t.atomicIssued x n o sc).later x tick act).part x.p).pend := by
  refine ⟨((DataKept.atomicIssued t x n o sc).trans (.later _ x tick act run)).sameData, ?_⟩
  rw [later_word _ x tick act run, unit]
  exact (mem_addDue _ x.p _ _).mpr (.inl rfl)

omit unit in
/-- Work that is no atomic leaves the atomics in flight as they are. -/
theorem State.atomics_later (tick : Nat) {act : Act} (plain : act.isAtomic = false) :
    ∀ w ∈ (((t.atomicIssued x n o sc).later x tick act).part x.p).pend, w.act.isAtomic = true → w ∈ (t.part x.p).pend := by
  intro w hw atomic
  rw [later_word _ x tick act run] at hw
  obtain rfl | before := (mem_addDue _ x.p _ _).mp hw
  · exact absurd atomic (by rw [plain]; decide)
  · refine ((Booked.atomicIssued t x n o sc).added w before).elim id fun booking => absurd booking ?_
    cases h : w.act <;> simp [h, Act.isAtomic, Act.isBooking] at atomic ⊢

end
end

section
variable {s t : State} {f : Frame} {x : Ctx} (h : Issues s f .a x t) (d st a b : Num4) (o : Order) (sc : Scope)
include h

theorem exec_amo_issues (op : Aop) : exec (.amo f d st a o sc op) s =
    .next (t.atomicIssue x st.val d.val (some op) ((t.core x.c).getC a.val).v 0 o sc) :=
  congrArg Host.Outcome.next (nativeWord_of_issues h)

theorem exec_amocas_issues : exec (.amocas f d st a b o sc) s =
    .next (t.atomicIssue x st.val d.val none ((t.core x.c).getC a.val).v ((t.core x.c).getC b.val).v o sc) :=
  congrArg Host.Outcome.next (nativeWord_of_issues h)

end

/-! ### New values (07 R187) -/

theorem sgn_toNat {n : Nat} (v : BitVec n) : sgn n v.toNat = v.toInt := by
  rw [sgn, Nat.mod_eq_of_lt v.isLt, BitVec.toInt_eq_toNat_cond]
  cases n with
  | zero => simp [BitVec.eq_nil v]
  | succ n =>
    have half : v.toNat < 2 ^ n ↔ 2 * v.toNat < 2 ^ (n + 1) := by rw [pow_succ]; omega
    simp only [Nat.add_sub_cancel, half]

section
variable (n : Nat) (old v w : BitVec n)

/-- A choice between two patterns is that between their numbers. -/
theorem atomicNew_min : atomicNew (some .min) n old.toNat v.toNat w.toNat = some (if v.toInt < old.toInt then v else old).toNat := by
  rw [atomicNew, sgn_toNat, sgn_toNat, apply_ite BitVec.toNat]

theorem atomicNew_max : atomicNew (some .max) n old.toNat v.toNat w.toNat = some (if old.toInt < v.toInt then v else old).toNat := by
  rw [atomicNew, sgn_toNat, sgn_toNat, apply_ite BitVec.toNat]

theorem atomicNew_minu : atomicNew (some .minu) n old.toNat v.toNat w.toNat = some (min old.toNat v.toNat) := by
  rw [atomicNew, min_comm, min_def_lt]

theorem atomicNew_maxu : atomicNew (some .maxu) n old.toNat v.toNat w.toNat = some (max old.toNat v.toNat) := by
  rw [atomicNew, max_def_lt]

theorem atomicNew_cas : atomicNew none n old.toNat v.toNat w.toNat = if old = v then some w.toNat else none := by
  simp only [atomicNew, BitVec.toNat_inj]

end

end Sys2Proof.Machine

namespace Sys2Proof.Proofs

open Sys2Proof.Machine Sys2Proof.Claims

/-- Settles O26: each word sets its atomic, or its zero, in flight, and each operation has the value of the table. -/
theorem atomicWords : Obligations.AtomicWords := by
  refine ⟨fun s f x t d st a b o sc op h => ?_, fun n old v w => ?_⟩
  · intro k l aims lat e
    have run := handler_of_issues h
    have base : (t.timing x st.val o sc true true).base = e := t.timing_base x st.val o sc true true
    refine ⟨fun dim outside i hi => ?_, fun loc inside => ⟨?_, ?_⟩⟩
    · obtain ⟨kept, zero⟩ := State.atomicIssued_later t x st.val o sc run (unit_of_issues_a h) (e + lat) (.c d.val Pv.zero)
      refine ⟨_, ?_, kept, zero, State.atomics_later t x st.val o sc run (e + lat) rfl⟩
      rcases List.mem_pair.mp hi with rfl | rfl
      · rw [exec_amo_issues h, State.atomicIssue_drop _ _ _ _ _ _ _ _ _ outside, base]
        rfl
      · rw [exec_amocas_issues h, State.atomicIssue_drop _ _ _ _ _ _ _ _ _ outside, base]
        rfl
    · have issue := exec_amo_issues h d st a o sc op
      rw [State.atomicIssue_at _ _ _ _ _ _ _ _ _ inside, State.atomicAt, base] at issue
      obtain ⟨kept, work⟩ := State.atomicIssued_later t x st.val o sc run (unit_of_issues_a h) _ _
      exact ⟨_, _, issue, kept, work⟩
    · have issue := exec_amocas_issues h d st a b o sc
      rw [State.atomicIssue_at _ _ _ _ _ _ _ _ _ inside, State.atomicAt, base] at issue
      obtain ⟨kept, work⟩ := State.atomicIssued_later t x st.val o sc run (unit_of_issues_a h) _ _
      exact ⟨_, _, issue, kept, work⟩
  · exact ⟨congrArg some (BitVec.toNat_add old v).symm, rfl, rfl, rfl, atomicNew_minu n old v w, atomicNew_maxu n old v w, rfl,
      atomicNew_min n old v w, atomicNew_max n old v w, rfl, atomicNew_cas n old v w⟩

end Sys2Proof.Proofs
end

section
/-! PROOF. FENCE, QMARK and the noise-slot words (07 R188, R189, R191): what a fence leaves for later accesses of each kind, and the
ticks at which it looks. -/

namespace Sys2Proof.Machine

open Sys2Proof.Claims (Issues lands sameData)

/-! ### FENCE (07 R188) -/

section
variable (t : State) (x : Ctx) (m : BitVec 5) (sc : Scope)

/-- The latest engine word, where the fence names it. -/
def State.fencedEngines : Nat := if m.getLsbD 0 then (t.core x.c).lastE else 0

/-- The tick from which accesses behind earlier loads go on. -/
def State.behindLoads : Nat :=
  max (x.t + fenceTime (t.part x.p).loose sc) (max (t.core x.c).lastL (t.fencedEngines x m))

/-- The tick from which accesses behind earlier stores go on. -/
def State.behindStores : Nat :=
  max (x.t + fenceTime (t.part x.p).loose sc) (max (t.core x.c).lastS (t.fencedEngines x m))

/-- A tick where a bit of the fence is set. -/
def fenceOn (m : BitVec 5) (i n : Nat) : Nat := if m.getLsbD i then n else 0

/-- What a fence leaves in its core. -/
def State.fenced : Core :=
  let toLoads := max (fenceOn m 4 (t.behindLoads x m sc)) (fenceOn m 2 (t.behindStores x m sc))
  let toStores := max (fenceOn m 3 (t.behindLoads x m sc)) (fenceOn m 1 (t.behindStores x m sc))
  { t.core x.c with
    afterL := max (t.core x.c).afterL toLoads
    afterS := max (t.core x.c).afterS toStores
    afterE := max (t.core x.c).afterE (fenceOn m 0 (max toLoads toStores)) }

theorem max_fenceOn (i n k : Nat) : max k (fenceOn m i n) = if m.getLsbD i then max k n else k := by
  unfold fenceOn
  split <;> simp

/-- The tick of two bits of one kind of earlier accesses is that kind's, where one of them is set. -/
theorem fenceOn_max_fenceOn {i j : Nat} (either : m.getLsbD i = true ∨ m.getLsbD j = true) (n : Nat) :
    max (fenceOn m i n) (fenceOn m j n) = n := by
  rcases either with set | set <;> simp only [fenceOn, set, if_true] <;> split <;> simp

/-- A fence keeps its ticks, and looks at those of the kinds of earlier accesses that it names. -/
theorem State.fence_eq : t.fence x m sc =
    let s := t.setCore x.c (t.fenced x m sc)
    let s := if m.getLsbD 4 || m.getLsbD 3 then s.fenceWait x sc
      (max (fenceOn m 4 (t.behindLoads x m sc)) (fenceOn m 3 (t.behindLoads x m sc))) x.t true false else s
    if m.getLsbD 2 || m.getLsbD 1 then s.fenceWait x sc
      (max (fenceOn m 2 (t.behindStores x m sc)) (fenceOn m 1 (t.behindStores x m sc))) x.t false true else s := by
  unfold fenced
  dsimp only
  rw [max_fenceOn m 0]
  rfl

omit t m in
theorem Booked.fenceWhere (s : State) (named : Bool) (tick upto : Nat) (ld st : Bool) :
    Booked x.p s (if named then s.fenceWait x sc tick upto ld st else s) := by
  cases named with
  | true => exact .fenceWait s x sc tick upto ld st
  | false => exact .refl x.p s

theorem Booked.fence : Booked x.p (t.setCore x.c (t.fenced x m sc)) (t.fence x m sc) := by
  rw [State.fence_eq]
  exact (Booked.fenceWhere x sc _ _ _ x.t true false).trans (Booked.fenceWhere x sc _ _ _ x.t false true)

theorem State.core_fence : (t.fence x m sc).core x.c = t.fenced x m sc := by
  rw [(Booked.fence t x m sc).core, core_setCore]

theorem State.core_fence_ne {c : Nat} (other : c ≠ x.c) : (t.fence x m sc).core c = t.core c := by
  rw [(Booked.fence t x m sc).core, core_setCore_ne _ _ other]

theorem DataKept.fence : DataKept t (t.fence x m sc) := by
  have kept : DataKept t (t.setCore x.c (t.fenced x m sc)) := .setCore t x.c _ ⟨rfl, rfl, rfl, rfl, rfl, rfl, rfl, rfl⟩
  exact kept.trans (Booked.fence t x m sc).data

/-- The work of a fence at a tick. -/
theorem State.mem_fenceWait (s : State) (tick upto : Nat) (ld st : Bool) :
    ⟨max tick (x.t + 1), 10, x.who, .fenceWait (sc == .pd) ld st upto⟩ ∈ ((s.fenceWait x sc tick upto ld st).part x.p).pend :=
  (mem_addDue s x.p _ _).mpr (.inl rfl)

theorem State.fence_looks_at_loads (named : m.getLsbD 4 = true ∨ m.getLsbD 3 = true) :
    ⟨max (t.behindLoads x m sc) (x.t + 1), 10, x.who, .fenceWait (sc == .pd) true false x.t⟩ ∈ ((t.fence x m sc).part x.p).pend := by
  have looks := (t.setCore x.c (t.fenced x m sc)).mem_fenceWait x sc (t.behindLoads x m sc) x.t true false
  rw [fence_eq]
  dsimp only
  rw [if_pos (Bool.or_eq_true_iff.mpr named), fenceOn_max_fenceOn m named]
  split
  · exact WorkKept.fenceWait _ x sc _ x.t false true _ looks
  · exact looks

theorem State.fence_looks_at_stores (named : m.getLsbD 2 = true ∨ m.getLsbD 1 = true) :
    ⟨max (t.behindStores x m sc) (x.t + 1), 10, x.who, .fenceWait (sc == .pd) false true x.t⟩ ∈ ((t.fence x m sc).part x.p).pend := by
  rw [fence_eq]
  dsimp only
  rw [if_pos (Bool.or_eq_true_iff.mpr named), fenceOn_max_fenceOn m named]
  exact mem_fenceWait x sc _ _ x.t false true

/-- A fence that names no earlier kind of access looks at no tick. -/
theorem State.fence_alone (small : m.toNat < 2) : (t.fence x m sc).parts = t.parts := by
  have clear (i : Nat) (hi : 1 ≤ i) : m.getLsbD i = false :=
    Nat.testBit_lt_two_pow (small.trans_le (Nat.pow_le_pow_right (n := 2) (by decide) hi))
  rw [fence_eq, clear 1 (by decide), clear 2 (by decide), clear 3 (by decide), clear 4 (by decide)]
  rfl

end

/-! ### Noise-slot words (07 R191) -/

/-- The pair of an even register. -/
theorem Core.pair_even (k : Core) {a : Num4} (even : a.val % 2 = 0) : (k.pair a.val).v = (k.getC (a.val + 1)).v ++ (k.getC a.val).v := by
  have next : (a.val + 1) % 16 = a.val + 1 := by omega
  rw [pair, next]

theorem noiseApply_skip (slot : NoiseSlot) (n : BitVec 128) :
    noiseApply slot (.skip n) = { slot with ctr := BitVec.ofNat 128 ((slot.ctr.toNat + n.toNat) % 2 ^ 128) } := by
  have sum : slot.ctr + n = BitVec.ofNat 128 ((slot.ctr.toNat + n.toNat) % 2 ^ 128) := BitVec.eq_of_toNat_eq (by simp)
  rw [noiseApply, sum]

section
variable {s t : State} {f : Frame} {x : Ctx} (h : Issues s f .a x t)
include h

theorem exec_fence_issues (m : BitVec 5) (sc : Scope) : exec (.fence f m sc) s = .next (t.fence x m sc) :=
  congrArg Host.Outcome.next (nativeWord_of_issues h)

theorem exec_qmark_issues : exec (.qmark f) s = .next (t.modCore x.c fun k => { k with qmark := max k.qmark k.lastS }) :=
  congrArg Host.Outcome.next (nativeWord_of_issues h)

theorem exec_nkey_issues (n : Num3) (a : Num4) :
    exec (.nkey f n a) s = lands t x 2 (.noise n.val (.key ((t.core x.c).pair a.val).v)) :=
  congrArg Host.Outcome.next (nativeWord_of_issues h)

theorem exec_nctr_issues (n : Num3) (a b : Num4) : exec (.nctr f n a b) s =
    lands t x 2 (.noise n.val (.ctr ((t.core x.c).pair a.val).v ((t.core x.c).getC b.val).v)) :=
  congrArg Host.Outcome.next (nativeWord_of_issues h)

theorem exec_nskip_issues (n : Num3) (a : Num4) :
    exec (.nskip f n a) s = lands t x 2 (.noise n.val (.skip ((t.core x.c).pair a.val).v)) :=
  congrArg Host.Outcome.next (nativeWord_of_issues h)

theorem exec_nget_issues (d : Num4) (n : Num3) (part : Sys2Proof.Part) :
    exec (.nget f d n part) s = .next (t.addDue x.p ⟨x.t + 1, 0, x.who, .nget d.val n.val part⟩) :=
  congrArg Host.Outcome.next (nativeWord_of_issues h)

end

end Sys2Proof.Machine

namespace Sys2Proof.Proofs

open Sys2Proof.Machine Sys2Proof.Claims

/-- Settles O27: a fence leaves its ticks to later accesses and looks at those of the kinds that it names; a noise-slot word takes
the pair of an even register. -/
theorem fenceMarkAndNoiseWords : Obligations.FenceMarkAndNoiseWords := by
  refine ⟨fun s f x t h => ⟨fun m sc => ⟨_, exec_fence_issues h m sc, (DataKept.fence t x m sc).sameData, t.core_fence x m sc,
      fun c other => t.core_fence_ne x m sc other, t.fence_looks_at_loads x m sc, t.fence_looks_at_stores x m sc,
      t.fence_alone x m sc⟩, exec_qmark_issues h⟩, fun s f x t n a b d h even => ?_⟩
  intro k pair
  have value : (k.pair a.val).v = pair := k.pair_even even
  have key := exec_nkey_issues h n a
  have ctr := exec_nctr_issues h n a b
  have skip := exec_nskip_issues h n a
  rw [value] at key ctr skip
  exact ⟨key, ctr, skip, exec_nget_issues h d n, fun slot => ⟨rfl, rfl, noiseApply_skip slot pair⟩⟩

end Sys2Proof.Proofs
end

section
/-! PROOF. ENG, EPUSH and EPOP (12 R253 to R255): the command that is claimed and the stores that it releases, and the result that is
taken. -/

namespace Sys2Proof.Machine

open Sys2Proof.Claims (Issues sameData)

/-! ### Commands (12 R253, R254, 15 R301) -/

section
variable (t : State) (x : Ctx) (e entry : Nat) (params : List Word) (chain : Option Nat)

/-- A command that sets out now, timed behind the fences that hold it back. -/
def State.engCommand : EngCmd := ⟨entry, params, chain, max x.t (t.core x.c).afterE + 2, x.t⟩

/-- The core's earlier stores, released by a command that sets out now. -/
def State.releasing : State :=
  t.fenceWait x .pd (max (max x.t (t.core x.c).afterE + 2) (t.core x.c).lastS) x.t false true

/-- The core of a command. -/
def Core.commanded (c : EngCmd) (k : Core) : Core :=
  { k.modEng e fun g => { g with cmds := g.cmds ++ [c] } with lastE := max k.lastE c.land }

omit t x entry params chain in
theorem Core.getEng_commanded (c : EngCmd) (k : Core) :
    (k.commanded e c).getEng e = { k.getEng e with cmds := (k.getEng e).cmds ++ [c] } :=
  Core.getEng_modEng k e fun g => { g with cmds := g.cmds ++ [c] }

theorem State.core_releasing (c : Nat) : (t.releasing x).core c = t.core c := rfl

theorem State.pushCommand_eq : t.pushCommand x e entry params chain =
    ((t.releasing x).modCore x.c (Core.commanded e (t.engCommand x entry params chain)), t.engCommand x entry params chain) := rfl

theorem DataKept.pushCommand : DataKept t (t.pushCommand x e entry params chain).1 :=
  (DataKept.fenceWait t x .pd _ x.t false true).trans
    (.modCore _ x.c (Core.commanded e (t.engCommand x entry params chain)) fun _ => ⟨rfl, rfl, rfl, rfl, rfl, rfl, rfl, rfl⟩)

theorem State.getEng_pushCommand : ((t.pushCommand x e entry params chain).1.core x.c).getEng e =
    { (t.core x.c).getEng e with cmds := ((t.core x.c).getEng e).cmds ++ [t.engCommand x entry params chain] } := by
  rw [pushCommand_eq, core_modCore, Core.getEng_commanded, core_releasing]

theorem State.part_pushCommand : (t.pushCommand x e entry params chain).1.part x.p = (t.releasing x).part x.p := rfl

theorem State.core_pushCommand_ne {c : Nat} (other : c ≠ x.c) : (t.pushCommand x e entry params chain).1.core c = t.core c := by
  rw [pushCommand_eq, core_modCore_ne _ _ other]
  rfl

/-- An engine keeps its latest command. -/
def Core.keepLast (e : Nat) (c : EngCmd) (k : Core) : Core := k.modEng e fun g => { g with last := some c }

/-- The state after an ENG. -/
def State.engIssued : State :=
  (t.pushCommand x e entry params chain).1.modCore x.c (Core.keepLast e (t.engCommand x entry params chain))

theorem DataKept.engIssued : DataKept t (t.engIssued x e entry params chain) :=
  (DataKept.pushCommand t x e entry params chain).trans
    (.modCore _ x.c (Core.keepLast e _) fun _ => ⟨rfl, rfl, rfl, rfl, rfl, rfl, rfl, rfl⟩)

theorem State.getEng_engIssued : ((t.engIssued x e entry params chain).core x.c).getEng e =
    { (t.core x.c).getEng e with
      cmds := ((t.core x.c).getEng e).cmds ++ [t.engCommand x entry params chain]
      last := some (t.engCommand x entry params chain) } := by
  rw [engIssued, core_modCore, Core.keepLast, Core.getEng_modEng, getEng_pushCommand]

theorem State.core_engIssued_ne {c : Nat} (other : c ≠ x.c) : (t.engIssued x e entry params chain).core c = t.core c := by
  rw [engIssued, core_modCore_ne _ _ other, core_pushCommand_ne t x e entry params chain other]

end

/-! ### Results (12 R255) -/

section
variable (t : State) (x : Ctx) (e : Nat)

/-- An EPOP counts as the core's latest engine word. -/
def State.epopIssued : State := t.modCore x.c fun k => { k with lastE := max k.lastE (max x.t (t.core x.c).afterE) }

theorem DataKept.epopIssued : DataKept t (t.epopIssued x) :=
  .modCore t x.c _ fun _ => ⟨rfl, rfl, rfl, rfl, rfl, rfl, rfl, rfl⟩

theorem State.getEng_epopIssued : ((t.epopIssued x).core x.c).getEng e = (t.core x.c).getEng e := by
  rw [epopIssued, core_modCore]
  rfl

/-- The engine's results, from the next one on. -/
def Core.setResults (e : Nat) (l : List ResEntry) (k : Core) : Core := k.modEng e fun g => { g with results := l }

theorem State.takeResult_cons {c : Nat} {r : ResEntry} {l : List ResEntry} (front : ((t.core c).getEng e).results = r :: l) :
    t.takeResult c e = (t.modCore c (Core.setResults e l), r.v) := by
  rw [takeResult, front]
  rfl

end

section
variable {s t : State} {f : Frame} {x : Ctx} (h : Issues s f .a x t) (e : EngineId)
include h

theorem exec_eng_issues (entry : BitVec 10) (a n : Num4) (chain : Option (BitVec 10)) : exec (.eng f e entry a n chain) s =
    .next (t.engIssued x (engNum e) entry.toNat ((List.range n.val).map fun i => ((t.core x.c).getC (a.val + i)).v)
      (chain.map (·.toNat))) := by
  have values : ((t.core x.c).params a.val n.val).map (·.v) = (List.range n.val).map fun i => ((t.core x.c).getC (a.val + i)).v :=
    List.map_map
  rw [← values]
  exact congrArg Host.Outcome.next (nativeWord_of_issues h)

theorem exec_epush_issues (a : Num4) {c : EngCmd} (latest : ((t.core x.c).getEng (engNum e)).last = some c) :
    exec (.epush f e a) s =
      .next (t.pushCommand x (engNum e) c.entry (((t.core x.c).getC a.val).v :: c.params.drop 1) c.chain).1 := by
  refine (congrArg Host.Outcome.next (nativeWord_of_issues h)).trans (congrArg Host.Outcome.next ?_)
  dsimp only
  rw [latest]
  rfl

theorem exec_epop_issues (d : Num4) : exec (.epop f d e) s =
    .next (if x.t < max x.t (t.core x.c).afterE then
      (t.epopIssued x).sampleAt x (max x.t (t.core x.c).afterE) (.epop (engNum e) d.val)
    else ((t.epopIssued x).takeResult x.c (engNum e)).1.later x (x.t + 2)
      (.c d.val ⟨((t.epopIssued x).takeResult x.c (engNum e)).2, false⟩)) :=
  congrArg Host.Outcome.next (nativeWord_of_issues h)

/-- An EPOP that a fence holds back looks for its result where the fence completes. -/
theorem exec_epop_held (d : Num4) (held : x.t < (t.core x.c).afterE) : exec (.epop f d e) s =
    .next ((t.epopIssued x).sampleAt x (max x.t (t.core x.c).afterE) (.epop (engNum e) d.val)) := by
  rw [exec_epop_issues h, if_pos (lt_max_of_lt_right held)]

theorem exec_epop_taken (d : Num4) {r : ResEntry} {l : List ResEntry} (front : ((t.core x.c).getEng (engNum e)).results = r :: l)
    (free : (t.core x.c).afterE ≤ x.t) : exec (.epop f d e) s =
    .next (((t.epopIssued x).modCore x.c (Core.setResults (engNum e) l)).later x (x.t + 2) (.c d.val ⟨r.v, false⟩)) := by
  rw [← State.getEng_epopIssued] at front
  rw [exec_epop_issues h, if_neg (by simpa using free), State.takeResult_cons _ _ front]

end

end Sys2Proof.Machine

namespace Sys2Proof.Proofs

open Sys2Proof.Machine Sys2Proof.Claims

/-- Settles O28: ENG and EPUSH claim their command and release the earlier stores; EPOP takes its result, or looks for it where a
fence lets it. -/
theorem engineCommandWords : Obligations.EngineCommandWords := by
  intro s f x t e h k g b released
  have run := handler_of_issues h
  refine ⟨fun en a n ch => ?eng, fun a c latest => ?epush, fun d held => ?held, fun d r l front free => ?taken⟩
  case eng =>
    exact ⟨_, exec_eng_issues h e en a n ch, t.getEng_engIssued x _ _ _ _, rfl,
      fun c other => t.core_engIssued_ne x (engNum e) _ _ _ other, (DataKept.engIssued t x (engNum e) _ _ _).sameData⟩
  case epush =>
    exact ⟨_, exec_epush_issues h e a latest, t.getEng_pushCommand x _ _ _ _, t.part_pushCommand x _ _ _ _,
      (DataKept.pushCommand t x _ _ _ _).sameData⟩
  case held =>
    exact ⟨_, exec_epop_held h e d held, ((DataKept.epopIssued t x).trans (.sampleAt _ x _ _)).sameData,
      t.getEng_epopIssued x (engNum e), (State.mem_addDue _ x.p _ _).mpr (.inl rfl)⟩
  case taken =>
    have taken : DataKept t ((t.epopIssued x).modCore x.c (Core.setResults (engNum e) l)) :=
      (DataKept.epopIssued t x).trans (.modCore _ x.c _ fun _ => ⟨rfl, rfl, rfl, rfl, rfl, rfl, rfl, rfl⟩)
    refine ⟨_, exec_epop_taken h e d front free, ?_, (taken.trans (.later _ x _ _ run)).sameData, ?_⟩
    · rw [State.later_word _ _ _ _ run, State.core_addDue, State.core_modCore, Core.setResults, Core.getEng_modEng,
        State.getEng_epopIssued]
    · rw [State.later_word _ _ _ _ run, unit_of_issues_a h]
      exact (State.mem_addDue _ x.p _ _).mpr (.inl rfl)

end Sys2Proof.Proofs
end

section
/-! PROOF. Portable vector accesses and the words of KM1 and KG1 (21 R387 to R389): what each leaves in flight. -/

namespace Sys2Proof.Machine

open Sys2Proof.Claims (Runs32 inFlight sameData retires timedFrom)

/-! ### An access of a profile -/

section
variable {s t : State} {u : HwUnit} {x : Ctx} (h : Runs32 s u x t)
include h

/-- An instruction that runs, keeps the data and books the work of its access leaves that work in flight. -/
theorem inFlight_portableWord {pr : Ctx → State → Probe} {e : Ctx → State → State × Next} {w : Who} {place hh i lat : Nat}
    {a : Nat → Nat → Act} (kept : DataKept t (e x t).1) (next : (e x t).2 = .on lat)
    (work : ⟨timedFrom t { x with who := w } hh .rlx .co (place == samplePlace) (place != samplePlace) + hh, place, w,
      a (timedFrom t { x with who := w } hh .rlx .co (place == samplePlace) (place != samplePlace)) i⟩ ∈ ((e x t).1.part x.p).pend) :
    inFlight (.next (portableWord u pr e s)) t { x with who := w } place hh a :=
  ⟨_, _, i, congrArg Host.Outcome.next (portableWord_of_runs h), (kept.portDone next x.p x.c).sameData, rfl,
    WorkKept.portDone _ x.p x.c _ _ work⟩

/-- A read of GLOBAL that a word of the A unit makes. -/
theorem inFlight_portRead (pr : Ctx → State → Probe) {f : State → State} {w : Who} {va : Nat} {a : Access → Act}
    (kept : DataKept t (f t)) (loose : ((f t).part x.p).loose = (t.part x.p).loose)
    (timed : ∀ hh, timedFrom (f t) { x with who := w } hh .rlx .co true false = timedFrom t { x with who := w } hh .rlx .co true false)
    {e : Ctx → State → State × Next} (eff : e x t = (f t).portRead { x with who := w } va a) :
    inFlight (.next (portableWord u pr e s)) t { x with who := w } samplePlace (farLatency (t.part x.p).loose / 2)
      (fun e i => a ⟨.global va, 0xF, i, false, e + farLatency (t.part x.p).loose, [], false⟩) := by
  obtain ⟨i, data, next, work⟩ := (f t).portRead_spec { x with who := w } va a
  rw [timed, show (((f t).part x.p).loose) = _ from loose, ← eff] at work
  rw [← eff] at data next
  exact inFlight_portableWord h (i := i) (kept.trans data) next work

/-- A write of GLOBAL that a word of the A unit makes. -/
theorem inFlight_portWrite (pr : Ctx → State → Probe) {f : State → State} {w : Who} (unit : w.unit = .a) {va : Nat} {a : Access → Act}
    (kept : DataKept t (f t)) (loose : ((f t).part x.p).loose = (t.part x.p).loose)
    (timed : ∀ hh, timedFrom (f t) { x with who := w } hh .rlx .co false true = timedFrom t { x with who := w } hh .rlx .co false true)
    {e : Ctx → State → State × Next} (eff : e x t = (f t).portWrite { x with who := w } va a) :
    inFlight (.next (portableWord u pr e s)) t { x with who := w } 2 (farLatency (t.part x.p).loose / 2)
      (fun e i => a ⟨.global va, 0xF, i, false, e + farLatency (t.part x.p).loose / 2, [], false⟩) := by
  obtain ⟨i, data, next, work⟩ := (f t).portWrite_spec { x with who := w } va a (unit_of_runs h).2
  rw [timed, show (((f t).part x.p).loose) = _ from loose, ← eff] at work
  rw [← eff] at data next
  rw [show unitPlace ({ x with who := w } : Ctx).who.unit = 2 from congrArg unitPlace unit] at work
  exact inFlight_portableWord h (i := i) (kept.trans data) next work

end

/-! ### KV1 and KG1 (21 R387, R389) -/

/-- The state behind the booking of an access in a core's own pocket. -/
def State.booking (t : State) (x : Ctx) (ld st : Bool) : State :=
  ((t.setCore x.c (accessTiming (t.part x.p).loose (t.core x.c) x.t (ownPocket (t.part x.p).loose / 2)
    (ownPocket (t.part x.p).loose / 2) .rlx .co ld st).core).nextSeq x.p).1

theorem DataKept.booking (t : State) (x : Ctx) (ld st : Bool) : DataKept t (t.booking x ld st) :=
  (DataKept.timing t x.c _ _ _ _ _ _ _ _).trans (.nextSeq _ x.p)

theorem State.xr_booking (t : State) (x : Ctx) (ld st : Bool) (r : XReg) : (t.booking x ld st).xr x r = t.xr x r := by
  show ((t.setCore x.c _).core x.c).getX r.val = _
  rw [State.core_setCore]
  rfl

theorem State.vr_booking (t : State) (x : Ctx) (ld st : Bool) (r : VReg) : (t.booking x ld st).vr x r = t.vr x r := by
  show ((t.setCore x.c _).core x.c).getV r.val = _
  rw [State.core_setCore]
  rfl

section
variable {s t : State} {x : Ctx} (h : Runs32 s .a x t)
include h

theorem inFlight_kvLoad (pt : Pt) (d : VReg) (a : XReg) (stride : Ctx → State → Word) :
    inFlight (.next (kvLoad pt d a stride s)) t x samplePlace (farLatency (t.part x.p).loose / 2) (fun e i =>
      .loadV ⟨.global (t.xr x a).v.toNat, 0xF, i, false, e + farLatency (t.part x.p).loose, [], false⟩ d.val
        (elemLocs (t.xr x a).v (stride x t) (t.activeOf x pt)) (Pt.fmt pt).bits (t.activeOf x pt)) :=
  inFlight_portRead h _ (f := id) (w := x.who) (a := fun acc => .loadV acc d.val
    (elemLocs (t.xr x a).v (stride x t) (t.activeOf x pt)) (Pt.fmt pt).bits (t.activeOf x pt)) (.refl t) rfl (fun _ => rfl) rfl

theorem inFlight_kvSt (pt : Pt) (h3 : BitVec 3) (d : VReg) (a : XReg) :
    inFlight (exec (.kvSt pt h3 d a) s) t x 2 (farLatency (t.part x.p).loose / 2) (fun e i =>
      .storeEls ⟨.global (t.xr x a).v.toNat, 0xF, i, false, e + farLatency (t.part x.p).loose / 2, [], false⟩
        (elemLocs (t.xr x a).v (BitVec.ofNat 64 ((Pt.fmt pt).bits / 8)) (t.activeOf x pt)) (t.vr x d).v (Pt.fmt pt).bits) :=
  inFlight_portWrite h _ (f := id) (w := x.who) (unit_of_runs h).1 (a := fun acc => .storeEls acc (elemLocs (t.xr x a).v
    (BitVec.ofNat 64 ((Pt.fmt pt).bits / 8)) (t.activeOf x pt)) (t.vr x d).v (Pt.fmt pt).bits) (.refl t) rfl (fun _ => rfl) rfl

theorem inFlight_kgLd (g : Num3) (h4 : BitVec 4) (d : VReg) (a b : XReg) :
    inFlight (exec (.kgLd g h4 d a b) s) t x samplePlace (ownPocket (t.part x.p).loose / 2) (fun e i =>
      .gridLoad g.val (.reg d.val) (coordsOf (t.xr x a).v) (tagOf (t.xr x b)) true (e + ownPocket (t.part x.p).loose) i) := by
  refine inFlight_portableWord h (w := x.who) (i := (t.part x.p).seq + 1) ?kept rfl ?work
  case kept => exact (DataKept.booking t x true false).trans (.sampleAt _ x _ _)
  case work =>
    rw [← accessTiming_base t x _ (ownPocket (t.part x.p).loose / 2), ← t.xr_booking x true false a, ← t.xr_booking x true false b]
    exact (State.mem_addDue _ _ _ _).mpr (.inl rfl)

theorem inFlight_kgSt (g : Num3) (h4 : BitVec 4) (d : VReg) (a b : XReg) :
    inFlight (exec (.kgSt g h4 d a b) s) t x 2 (ownPocket (t.part x.p).loose / 2) (fun e i =>
      .gridStore ⟨.pocket x.c 0, 0xF, i, false, e + ownPocket (t.part x.p).loose / 2, [], false⟩
        (((t.core x.c).getGrid g.val).storeCells ((tagOf (t.xr x b)).toNat % 2) (coordsOf (t.xr x a).v) (t.vr x d).v)) := by
  obtain ⟨unit, run⟩ := unit_of_runs h
  refine inFlight_portableWord h (w := x.who) (i := (t.part x.p).seq + 1) ?kept rfl ?work
  case kept => exact (DataKept.booking t x false true).trans (.later _ x _ _ run)
  case work =>
    rw [← accessTiming_base t x _ (ownPocket (t.part x.p).loose / 2), ← t.xr_booking x false true a, ← t.xr_booking x false true b,
      ← t.vr_booking x false true d]
    dsimp only
    rw [State.later_word _ x _ _ run, unit]
    exact (State.mem_addDue _ _ _ _).mpr (.inl rfl)

theorem exec_kgAdv_runs (g : Num3) (h4 : BitVec 4) : exec (.kgAdv g h4) s =
    retires x (t.later x (x.t + 1) (.gridAdvance g.val (((t.core x.c).getGrid g.val).step + 1))) (.on 1) :=
  portableWord_retires h _ _

theorem exec_kgDef_runs (g : Num3) (h4 : BitVec 4) (a : XReg) : exec (.kgDef g h4 a) s =
    retires x ((t.modPart x.p fun k => { k with seq := k.seq + 2 }).sampleAt x (x.t + ownPocket (t.part x.p).loose / 2)
      (.gridRow g.val (t.xr x a).v.toNat 0 ((t.part x.p).seq + 1) [])) (.on (ownPocket (t.part x.p).loose + 1)) :=
  portableWord_retires h _ _

end

/-! ### KM1 (21 R388) -/

/-- The core `c` with other sub-arrays. -/
def State.withSa (t : State) (c : Nat) (sa : Tbl SubArray) : State := t.modCore c fun k => { k with sa := sa }

theorem DataKept.withSa (t : State) (c : Nat) (sa : Tbl SubArray) : DataKept t (t.withSa c sa) :=
  .modCore t c _ fun _ => ⟨rfl, rfl, rfl, rfl, rfl, rfl, rfl, rfl⟩

/-- An access looks at no sub-array for its timing. -/
theorem timedFrom_withSa (t : State) (x : Ctx) (sa : Tbl SubArray) (hh : Nat) (o : Order) (sc : Scope) (ld st : Bool) :
    timedFrom (t.withSa x.c sa) x hh o sc ld st = timedFrom t x hh o sc ld st := by
  unfold timedFrom State.withSa
  rw [State.core_modCore, State.part_modCore]

theorem timedFrom_addDue (t : State) (x : Ctx) (p : Nat) (d : Due) (hh : Nat) (o : Order) (sc : Scope) (ld st : Bool) :
    timedFrom (t.addDue p d) x hh o sc ld st = timedFrom t x hh o sc ld st := by
  have loose : ((t.addDue p d).part x.p).loose = (t.part x.p).loose := by
    by_cases own : x.p = p
    · rw [own, State.addDue, State.part_modPart]
    · rw [State.addDue, State.part_modPart_ne _ _ own]
  unfold timedFrom
  rw [State.core_addDue, loose]

theorem State.xr_withSa (t : State) (x : Ctx) (sa : Tbl SubArray) (r : XReg) : (t.withSa x.c sa).xr x r = t.xr x r := by
  unfold State.xr State.withSa
  rw [State.core_modCore]
  rfl

theorem Core.foldl_modSa (f : SubArray → SubArray) (l : List Nat) (k : Core) :
    ∃ sa, l.foldl (fun k i => k.modSa i f) k = { k with sa := sa } := by
  refine List.foldlRecOn (motive := fun r : Core => ∃ sa, r = { k with sa := sa }) l _ ⟨k.sa, rfl⟩ ?_
  rintro _ ⟨sa, rfl⟩ i -
  exact ⟨_, rfl⟩

/-- Naming or waking sub-arrays changes the sub-arrays only. -/
theorem State.modCore_foldl_modSa (t : State) (c : Nat) (f : SubArray → SubArray) (l : List Nat) :
    ∃ sa, (t.modCore c fun k => l.foldl (fun k i => k.modSa i f) k) = t.withSa c sa := by
  obtain ⟨sa, h⟩ := Core.foldl_modSa f l (t.core c)
  exact ⟨sa, congrArg (t.setCore c) h⟩

theorem State.xr_wakeAll (t : State) (x : Ctx) (sa : SaMask) (r : XReg) :
    (t.modCore x.c fun k => k.wakeAll (selected sa) x.t).xr x r = t.xr x r := by
  obtain ⟨b, named⟩ := t.modCore_foldl_modSa x.c (fun a => { a.name x.t with power := .awake, sleepAt := none }) (selected sa)
  exact (congrArg (State.xr · x r) named).trans (t.xr_withSa x b r)

/-- A sub-array that is named keeps its configuration. -/
theorem Core.cfg_nameAll (l : List Nat) (n : Nat) (k : Core) (j : Nat) : ((k.nameAll l n).getSa j).cfg = (k.getSa j).cfg := by
  refine List.foldlRecOn (motive := fun r : Core => (r.getSa j).cfg = (k.getSa j).cfg) l _ rfl ?_
  intro r same i _
  by_cases hj : j = i
  · subst hj
    rw [Core.getSa_modSa]
    exact same
  · rw [← same]
    exact congrArg SubArray.cfg (tget_tput_ne _ _ _ hj)

theorem mem_selected {sa : SaMask} {i : Nat} : i ∈ selected sa ↔ i < 4 ∧ sa.getLsbD i = true := by
  rw [selected, List.mem_filter, List.mem_range]

theorem selected_two_pow {j : Nat} (h : j < 4) : selected (BitVec.ofNat 4 (2 ^ j)) = [j] := by
  interval_cases j <;> decide

/-- Results of one tick, one for each of a list: each is in flight, and nothing else changes. -/
theorem State.foldl_later {x : Ctx} (run : x.handler = false) (n : Nat) (act : Core → Nat → Act) (l : List Nat) (t : State) :
    let r := l.foldl (fun s i => s.later x n (act (s.core x.c) i)) t
    DataKept t r ∧ WorkKept x.p t r ∧
      ∀ i ∈ l, ⟨n, unitPlace x.who.unit, x.who, act (t.core x.c) i⟩ ∈ (r.part x.p).pend := by
  induction l generalizing t with
  | nil => exact ⟨.refl t, .refl x.p t, fun _ hi => nomatch hi⟩
  | cons j l ih =>
    obtain ⟨data, work, each⟩ := ih (t.later x n (act (t.core x.c) j))
    refine ⟨(DataKept.later t x n _ run).trans data, (WorkKept.later t x n _ run).trans work, fun i hi => ?_⟩
    rw [State.later_word t x n _ run] at work each
    rcases List.mem_cons.mp hi with rfl | hi
    · rw [List.foldl_cons, State.later_word t x n _ run]
      exact work _ ((State.mem_addDue _ _ _ _).mpr (.inl rfl))
    · rw [List.foldl_cons, State.later_word t x n _ run]
      exact each i hi

section
variable {s t : State} {x : Ctx} (h : Runs32 s .m x t) (sa : SaMask)
include h

/-- A read that wakes its sub-arrays before (10 R235, log entry 75). -/
theorem inFlight_kmRead {pr : Ctx → State → Probe} {va : Nat} {a : Access → Act} {e : Ctx → State → State × Next}
    (eff : e x t = (t.modCore x.c fun k => k.wakeAll (selected sa) x.t).portRead x.access va a) :
    inFlight (.next (portableWord .m pr e s)) t x.access samplePlace (farLatency (t.part x.p).loose / 2) (fun e i =>
      a ⟨.global va, 0xF, i, false, e + farLatency (t.part x.p).loose, [], false⟩) := by
  obtain ⟨b, named⟩ := t.modCore_foldl_modSa x.c (fun a => { a.name x.t with power := .awake, sleepAt := none }) (selected sa)
  exact inFlight_portRead h pr (f := fun t => t.withSa x.c b) (w := x.access.who) (.withSa t x.c b) rfl
    (fun hh => timedFrom_withSa t x.access b hh _ _ _ _) (eff.trans (congrArg (State.portRead · x.access va a) named))

theorem inFlight_kmWeights (noise : Bool) (hint : BitVec 3) (a : XReg) :
    inFlight (exec (if noise then .kmLwp sa hint a else .kmLw sa hint a) s) t x.access samplePlace
      (farLatency (t.part x.p).loose / 2) (fun e i => .kmWeights ⟨.global (t.xr x a).v.toNat, 0xF, i, false,
        e + farLatency (t.part x.p).loose, [], false⟩ sa noise) := by
  rw [← t.xr_wakeAll x sa a]
  cases noise
  case false => exact inFlight_kmRead h sa (a := fun acc => .kmWeights acc sa false) rfl
  case true => exact inFlight_kmRead h sa (a := fun acc => .kmWeights acc sa true) rfl

theorem inFlight_kmMma (hint : BitVec 3) (a b : XReg) : inFlight (exec (.kmMma sa hint a b) s) t x.access samplePlace
    (farLatency (t.part x.p).loose / 2) (fun e i => .kmPass ⟨.global (t.xr x a).v.toNat, 0xF, i, false,
      e + farLatency (t.part x.p).loose, [], false⟩ sa (t.xr x b).v.toNat) := by
  rw [← t.xr_wakeAll x sa a, ← t.xr_wakeAll x sa b]
  exact inFlight_kmRead h sa (a := fun acc => .kmPass acc sa _) rfl

/-- KM.RD stores the rows of the one sub-array it names. -/
theorem inFlight_kmRd (fmt : DrainFmt) (a b : XReg) : inFlight (exec (.kmRd sa fmt a b) s) t x.access 2
    (farLatency (t.part x.p).loose / 2) (fun e i => .storeRows ⟨.global (t.xr x a).v.toNat, 0xF, i, false,
      e + farLatency (t.part x.p).loose / 2, [], false⟩
      (((t.core x.c).getSa ((selected sa).headD 0)).drained (DrainFmt.fmt fmt) (t.xr x b).v.toNat).1) := by
  have run := (unit_of_runs h).2
  obtain ⟨c, named⟩ := t.modCore_foldl_modSa x.c (fun a => a.name x.t) (selected sa)
  have named : (t.modCore x.c fun k => k.nameAll (selected sa) x.t) = t.withSa x.c c := named
  rw [← t.xr_withSa x c a]
  refine inFlight_portWrite h _ (f := fun t => (t.withSa x.c c).later x (x.t + 2) (.drainFlags ((selected sa).headD 0)
    (t.xr x b).v.toNat (((t.core x.c).getSa ((selected sa).headD 0)).drained (DrainFmt.fmt fmt) (t.xr x b).v.toNat).2))
    (w := x.access.who) rfl (a := fun acc => .storeRows acc _) ?kept ?loose ?timed ?eff
  case kept => exact (DataKept.withSa t x.c c).trans (.later _ x _ _ run)
  case loose => rw [State.later_word _ x _ _ run, State.addDue, State.part_modPart]; rfl
  case timed =>
    intro hh
    rw [State.later_word _ x _ _ run, timedFrom_addDue]
    exact timedFrom_withSa t x.access c hh _ _ _ _
  case eff =>
    dsimp only
    rw [named, State.later_word _ x _ _ run]
    rfl

/-- Results of the next tick, one for each sub-array that is named. -/
theorem lands_each_selected {pr : Ctx → State → Probe} (act : Core → Nat → Act) {e : Ctx → State → State × Next}
    (eff : e x t = ((selected sa).foldl (fun s i => s.later x (x.t + 1) (act (s.core x.c) i))
      (t.modCore x.c fun k => k.nameAll (selected sa) x.t), .on 1)) :
    ∃ u : State, (.next (portableWord .m pr e s) : Out) = .next u ∧ sameData t u ∧ ∀ i < 4, sa.getLsbD i = true →
      ⟨x.t + 1, 4, x.who, act ((t.core x.c).nameAll (selected sa) x.t) i⟩ ∈ (u.part x.p).pend := by
  obtain ⟨unit, run⟩ := unit_of_runs h
  obtain ⟨c, named⟩ := t.modCore_foldl_modSa x.c (fun a => a.name x.t) (selected sa)
  obtain ⟨data, -, each⟩ := State.foldl_later run (x.t + 1) act (selected sa) (t.modCore x.c fun k => k.nameAll (selected sa) x.t)
  have kept : DataKept t (t.modCore x.c fun k => k.nameAll (selected sa) x.t) := named ▸ DataKept.withSa t x.c c
  rw [State.core_modCore, unit] at each
  refine ⟨_, congrArg Host.Outcome.next (portableWord_of_runs h), ((kept.trans ?_).portDone (congrArg Prod.snd eff) x.p x.c).sameData,
    fun i low chosen => WorkKept.portDone _ x.p x.c _ _ ?_⟩
  · rw [eff]
    exact data
  · rw [eff]
    exact each i (mem_selected.mpr ⟨low, chosen⟩)

theorem exec_kmZero_runs (hint : BitVec 3) : ∃ u : State, exec (.kmZero sa hint) s = .next u ∧ sameData t u ∧ ∀ i < 4,
    sa.getLsbD i = true → ⟨x.t + 1, 4, x.who, .clearRows i (isIntPair ((t.core x.c).getSa i).cfg.fmtA)⟩ ∈ (u.part x.p).pend := by
  obtain ⟨u, done, data, each⟩ : ∃ u : State, exec (.kmZero sa hint) s = .next u ∧ _ :=
    lands_each_selected h sa (fun k i => .clearRows i (isIntPair (k.getSa i).cfg.fmtA)) rfl
  refine ⟨u, done, data, fun i low chosen => ?_⟩
  rw [← Core.cfg_nameAll (selected sa) x.t (t.core x.c) i]
  exact each i low chosen

theorem exec_kmCfg_runs (hint : BitVec 3) (a : XReg) {fr : Frame} {s2 : SaMask} {fa fb : Fmt} {p : BitVec 4} {ac : Acc}
    {pro : BitVec 7} (native : decodeNative .m (kmCfgWord sa (t.xr x a).v.toNat) = .ok (.mcfg fr s2 fa fb p ac pro)) :
    ∃ u : State, exec (.kmCfg sa hint a) s = .next u ∧ sameData t u ∧ ∀ i < 4, sa.getLsbD i = true →
      ⟨x.t + 1, 4, x.who, .mcfg i ⟨fa, fb, p.toNat, ac, pro.toNat⟩⟩ ∈ (u.part x.p).pend := by
  refine lands_each_selected h sa (fun _ i => .mcfg i ⟨fa, fb, p.toNat, ac, pro.toNat⟩) ?_
  simp only [native]

end

/-- The native word of KM.CFG, field by field (10 R225, 21 R388). -/
theorem kmCfgWord_eq (sa : SaMask) (w : Nat) : kmCfgWord sa w =
    BitVec.ofNat 64 (2 ^ 46 + sa.toNat * 2 ^ 42 + w % 32 * 2 ^ 37 + w / 2 ^ 5 % 32 * 2 ^ 32 +
      w / 2 ^ 10 % 16 * 2 ^ 28 + w / 2 ^ 14 % 4 * 2 ^ 26 + w / 2 ^ 16 % 128 * 2 ^ 19) := by
  refine congrArg (BitVec.ofNat 64) ?_
  simp only [packFrom, fld]
  omega

end Sys2Proof.Machine

namespace Sys2Proof.Proofs

open Sys2Proof.Machine Sys2Proof.Claims

/-- Settles O50: an access is in flight at its place and tick, timed as its native word is; KM.CFG, KM.ZERO and KG.ADV land at
t + 1. -/
theorem portableProfileWords : Obligations.PortableProfileWords := by
  refine ⟨?s, ?a, ?m⟩
  case s =>
    intro s t x pt d a h n
    exact portableWord_retires h _ _
  case a =>
    intro s t x pt h3 h4 d a b g h f n hh own va grid xyz
    refine ⟨inFlight_kvLoad h pt d a _, inFlight_kvLoad h pt d a _, inFlight_kvSt h pt h3 d a, exec_kgDef_runs h g h4 a,
      exec_kgAdv_runs h g h4, inFlight_kgLd h g h4 d a b, inFlight_kgSt h g h4 d a b⟩
  case m =>
    intro s t x sa hint a b h hh va w acc
    refine ⟨inFlight_kmWeights h sa false hint a, inFlight_kmWeights h sa true hint a, inFlight_kmMma h sa hint a b, ?rd,
      exec_kmZero_runs h sa hint, ?cfg⟩
    case rd =>
      rintro j low rfl fmt
      have rows := inFlight_kmRd h (BitVec.ofNat 4 (2 ^ j)) fmt a b
      rwa [selected_two_pow low] at rows
    case cfg =>
      intro fr s2 fa fb p ac pro native
      rw [← kmCfgWord_eq] at native
      exact exec_kmCfg_runs h sa hint a native

end Sys2Proof.Proofs
end

section
/-! PROOF. Writes of the host: the registers of BAR0, the invalidate queue, the mailboxes of BAR2 and the window of BAR4 (19 R355 to
R358, 07 R176 to R178). -/

namespace Sys2Proof.Machine

theorem fld_zero (o w : Nat) : fld o 0 w = o % 2 ^ w := by rw [fld, pow_zero, Nat.div_one]

section
variable (s : State) (w : Word)

/-! ### The registers of BAR0 -/

/-- Before a grant a write to BAR0 does nothing (19 R358). -/
theorem exec_ungranted (h : s.popEvent.granted = false) : ∀ i ∈ [Instr.wallWrite w, .plimitWrite w, .tjlimitWrite w, .fcapWrite w,
    .invalidateSubmit w, .iqackPop, .bar0RegisterWrite 0x2008 w, .mismatchCounterWrite 0 0], exec i s = .next s.popEvent := by
  have held : (!s.popEvent.granted) = true := by rw [h]; rfl
  have off : ¬ s.popEvent.granted = true := by rw [h]; exact Bool.false_ne_true
  simp only [List.forall_mem_cons]
  refine ⟨if_pos ?_, congrArg _ (if_neg off), congrArg _ (if_neg off), if_pos held, if_pos held, congrArg _ (if_neg off), if_pos ?_,
    congrArg _ (if_neg ?_), fun _ none => nomatch none⟩
  · rw [held, Bool.true_or]
  · rw [held, Bool.true_or]
  · rw [h, Bool.false_and]
    exact Bool.false_ne_true

/-- The version granted: 1.0 up to 1.3, and nothing for another (19 R358). -/
theorem grantOf_eq : grantOf w =
    if w.toNat / 2 ^ 8 % 2 ^ 8 = 1 then BitVec.ofNat 17 (2 ^ 16 + 256 + min (w.toNat % 2 ^ 8) 3) else 0 := by
  rw [grantOf, fld_zero, fld]

theorem exec_hivreq_idle (h : ∀ x ∈ s.popEvent.entries, x.2.state ≠ 3 ∧ x.2.state ≠ 4) :
    exec (.hivreq w) s = .next { s.popEvent with
      hivreq := w.setWidth 16
      hivgnt := if w.toNat / 2 ^ 8 % 2 ^ 8 = 1 then BitVec.ofNat 17 (2 ^ 16 + 256 + min (w.toNat % 2 ^ 8) 3) else 0 } := by
  rw [← grantOf_eq]
  have idle : ¬ (s.popEvent.entries.any fun e => e.2.state == 3 || e.2.state == 4) = true := by
    rw [List.any_eq_true]
    rintro ⟨x, hx, busy⟩
    rcases Bool.or_eq_true_iff.mp busy with busy | busy
    · exact (h x hx).1 (eq_of_beq busy)
    · exact (h x hx).2 (eq_of_beq busy)
  exact if_neg idle

theorem exec_hivreq_busy (h : ∃ x ∈ s.popEvent.entries, x.2.state = 3 ∨ x.2.state = 4) :
    exec (.hivreq w) s = .next s.popEvent := by
  have busy : (s.popEvent.entries.any fun e => e.2.state == 3 || e.2.state == 4) = true := by
    obtain ⟨x, hx, busy⟩ := h
    exact List.any_eq_true.mpr ⟨x, hx, by simpa using busy⟩
  exact if_pos busy

section
variable (granted : s.popEvent.granted = true)
include granted

theorem exec_wallWrite_idle (h : ∀ x ∈ s.popEvent.entries, x.2.state.toNat < 2 ∨ 4 < x.2.state.toNat) :
    exec (.wallWrite w) s = .next { s.popEvent with wall := w.toNat } := by
  have idle : (s.popEvent.entries.any fun e => decide (2 ≤ e.2.state.toNat) && decide (e.2.state.toNat ≤ 4)) = false := by
    rw [List.any_eq_false]
    intro x hx
    have := h x hx
    simp only [Bool.and_eq_true, decide_eq_true_eq]
    omega
  exact if_neg (by simp [granted, idle])

theorem exec_plimitWrite_granted : exec (.plimitWrite w) s =
    .next { s.popEvent with plimit := BitVec.ofNat 16 (max 5000 (min 15000 (w.toNat % 2 ^ 16))) } := by
  rw [← fld_zero]
  exact congrArg Host.Outcome.next (if_pos granted)

theorem exec_tjlimitWrite_granted : exec (.tjlimitWrite w) s =
    .next { s.popEvent with tjlimit := BitVec.ofNat 8 (max 85 (min 105 (w.toNat % 2 ^ 8))) } := by
  rw [← fld_zero]
  exact congrArg Host.Outcome.next (if_pos granted)

theorem exec_iqackPop_granted : exec .iqackPop s = .next { s.popEvent with iqAcks := s.popEvent.iqAcks.drop 1 } :=
  congrArg Host.Outcome.next (if_pos granted)

theorem exec_mismatchCounterWrite_zero (c : Fin 2048) : exec (.mismatchCounterWrite c 0) s =
    .next { s.popEvent with mismatch := tset 0 s.popEvent.mismatch c.val 0 } :=
  congrArg Host.Outcome.next (if_pos (by simp [granted]))

theorem exec_invalidateSubmit_room (h : s.popEvent.iq.length < 64) : exec (.invalidateSubmit w) s = .next { s.popEvent with
    iq := s.popEvent.iq ++ [⟨tget 0 s.popEvent.iqWords 0, tget 0 s.popEvent.iqWords 1, tget 0 s.popEvent.iqWords 2, w, none, []⟩] } :=
  (if_neg (by simp [granted])).trans (if_neg (by omega))

theorem exec_invalidateSubmit_full (h : 64 ≤ s.popEvent.iq.length) :
    exec (.invalidateSubmit w) s = .next { s.popEvent with iqDrop := true } :=
  (if_neg (by simp [granted])).trans (if_pos h)

theorem exec_bar0_timePage (off : BitVec 24) (r : Nat) (place : off.toNat = 0x2000 + r) (aligned : r % 8 = 0) (within : r < 0x1000) :
    exec (.bar0RegisterWrite off w) s = .next (s.popEvent.timePage r w) := by
  refine (if_neg ?_).trans ((if_pos ?_).trans ?_)
  · simp only [granted, place, Bool.not_true, Bool.false_or, decide_eq_true_eq]
    omega
  · simp only [place, Bool.and_eq_true, decide_eq_true_eq]
    omega
  · rw [place, Nat.add_sub_cancel_left]

/-- Time synchronisation: the reserved source reads 0, and the port has 6 bits (19 R364). -/
theorem exec_bar0_tsync : exec (.bar0RegisterWrite 0x2008 w) s = .next { s.popEvent with
    tsrc := if w.toNat % 4 = 3 then 0 else w.setWidth 2, tport := BitVec.ofNat 6 (w.toNat / 4 % 64) } := by
  have reserved : (w.setWidth 2 = 3) ↔ w.toNat % 4 = 3 := by
    rw [← BitVec.toNat_inj, BitVec.toNat_setWidth]
    rfl
  rw [exec_bar0_timePage s w granted 0x2008 0x008 (by decide) (by decide) (by decide)]
  simp only [← reserved]
  rfl

theorem exec_bar0_wbase : exec (.bar0RegisterWrite 0x2020 w) s =
    .next { s.popEvent with wbase := w &&& 0x000FFFFFC0000000 } :=
  exec_bar0_timePage s w granted 0x2020 0x020 (by decide) (by decide) (by decide)

/-- Bytes that no row of BAR0 lists ignore writes (00 R8). -/
theorem exec_bar0_unlisted : exec (.bar0RegisterWrite 0x3000 w) s = .next s.popEvent :=
  (if_neg (by simp [granted])).trans ((if_neg (by decide)).trans ((if_neg (by decide)).trans ((if_neg (by decide)).trans
    (if_neg (by decide)))))

end

/-! ### Steps of the clocks (19 R366, R367) -/

/-- A change of step changes no core, and not FCAP. -/
theorem State.changeStep_frame (l : List Nat) (f : Nat) : (s.changeStep l f).fcap = s.fcap ∧ (s.changeStep l f).cores = s.cores := by
  unfold State.changeStep
  refine List.foldlRecOn (motive := fun r : State => r.fcap = s.fcap ∧ r.cores = s.cores) _ _ ⟨rfl, rfl⟩ ?_
  intro r same e _
  split
  · exact same
  · exact same

theorem State.changeSets_frame (always : Bool) (f : Nat → Nat) :
    (s.changeSets always f).fcap = s.fcap ∧ (s.changeSets always f).cores = s.cores := by
  refine List.foldlRecOn (motive := fun r : State => r.fcap = s.fcap ∧ r.cores = s.cores) _ _ ⟨rfl, rfl⟩ ?_
  intro r same l _
  dsimp only
  split
  · obtain ⟨cap, cores⟩ := r.changeStep_frame l (f (r.setLow l))
    exact ⟨cap.trans same.1, cores.trans same.2⟩
  · exact same

theorem exec_fcapWrite_granted (granted : s.popEvent.granted = true) :
    ∃ u : State, exec (.fcapWrite w) s = .next u ∧ u.fcap = w.setWidth 4 ∧ u.cores = s.popEvent.cores := by
  refine ⟨_, if_neg (by simp [granted]), ?_⟩
  exact State.changeSets_frame { s.popEvent with fcap := w.setWidth 4 } false _

/-! ### The diagnostic counters (19 R355, R373) -/

theorem exec_diagCounterWrite_zero (i : Fin 3) : exec (.diagCounterWrite (BitVec.ofNat 12 (8 * (i.val + 1))) 0) s =
    .next (if tget 0 s.popEvent.diagCount i.val = 0 then s.popEvent
      else { s.popEvent with diagCount := tset 0 s.popEvent.diagCount i.val 0, irqs := s.popEvent.irqs ++ [0] }) := by
  have place : (BitVec.ofNat 12 (8 * (i.val + 1))).toNat = 8 * (i.val + 1) := by
    rw [BitVec.toNat_ofNat]
    omega
  have index : 8 * (i.val + 1) / 8 - 1 = i.val := by omega
  by_cases cleared : tget 0 s.popEvent.diagCount i.val = 0
  · rw [if_pos cleared]
    refine if_neg ?_
    rw [place, index, cleared]
    simp
  · rw [if_neg cleared]
    refine (if_pos ?_).trans ?_
    · rw [place, index]
      simpa using cleared
    · rw [place, index]
      rfl

/-! ### Mailboxes (19 R356) -/

theorem exec_hostMailboxWrite_aligned (off : BitVec 18) (aligned : off.toNat % 8 = 0) : exec (.hostMailboxWrite off 8 w) s =
    .next (s.popEvent.mailboxArrive (off.toNat / 128) (off.toNat / 8 % 16) w) := by
  have number : off.toNat % 128 / 8 = off.toNat / 8 % 16 := by omega
  rw [← number]
  exact if_pos (by simp [aligned])

theorem exec_hostMailboxWrite_other (off : BitVec 18) (n : Nat) (h : n ≠ 8 ∨ off.toNat % 8 ≠ 0) :
    exec (.hostMailboxWrite off n w) s = .next (s.popEvent.countDiag 0) := by
  refine if_neg ?_
  rw [Bool.and_eq_true, decide_eq_true_eq, beq_iff_eq]
  exact fun both => h.elim (· both.1) (· both.2)

end

/-! ### The window of BAR4 (19 R356) -/

section
variable (s : State) (off : Nat)

theorem exec_bar4Read_mapped (n : Nat) (first : hbmMapped (s.popEvent.bar4Pa off) = true)
    (last : hbmMapped (s.popEvent.bar4Pa off + n - 1) = true) : exec (.bar4Read off n) s =
    .next { s.popEvent with readback := Memory.readBytes s.popEvent.hbm (s.popEvent.bar4Pa off) n } :=
  if_pos (Bool.and_eq_true_iff.mpr ⟨first, last⟩)

/-- A write to HBM changes HBM, and no core. -/
theorem State.performWrite_hbm (pa : Nat) (l : List Byte) (mask : Nat) (q : Bool) : let u := s.performWrite none (.hbm pa) l mask q
    u.hbm = Memory.writeCells s.hbm (writtenCells pa (Memory.readBytes s.hbm pa l.length) l mask) ∧ u.cores = s.cores ∧
      u.hostMem = s.hostMem := by
  obtain ⟨ms, mended⟩ := s.mended_eq (.hbm pa) l mask
  simp only [performWrite, writePlace, mended, tellOthers_eq, and_self]

theorem exec_bar4Write_mapped (b : Byte) (l : List Byte) (first : hbmMapped (s.popEvent.bar4Pa off) = true)
    (last : hbmMapped (s.popEvent.bar4Pa off + l.length) = true) : exec (.bar4Write off (b :: l)) s =
    .next (s.popEvent.performWrite none (.hbm (s.popEvent.bar4Pa off)) (b :: l) (2 ^ (8 * (b :: l).length) - 1) false) :=
  if_pos (Bool.and_eq_true_iff.mpr ⟨first, last⟩)

end

/-! ### Invalidation (07 R176 to R178) -/

section
variable (t : State) (c : InvalidateCmd)

/-- What a command removes is in no TLB. -/
theorem State.removeEntries_clean (good : c.malformed = false) :
    (∀ x ∈ (t.removeEntries c).cores, ∀ y ∈ x.2.tlb, c.removes y = false) ∧
      ∀ x ∈ (t.removeEntries c).dieTlb, ∀ y ∈ x.2, c.removes y = false := by
  have stays : ∀ (l : List TlbEntry), ∀ y ∈ l.filter fun e => !c.removes e, c.removes y = false := by
    intro l y hy
    simpa using List.of_mem_filter hy
  simp only [removeEntries, good, List.forall_mem_map]
  exact ⟨fun x _ => stays x.2.tlb, fun x _ => stays x.2⟩

/-- Every entry that a command removes is among those it keeps account of. -/
theorem State.mem_entriesGone (good : c.malformed = false) :
    (∀ x ∈ t.cores, ∀ y ∈ x.2.tlb, c.removes y = true → y ∈ t.entriesGone c) ∧
      ∀ x ∈ t.dieTlb, ∀ y ∈ x.2, c.removes y = true → y ∈ t.entriesGone c := by
  simp only [entriesGone, good, Bool.false_eq_true, if_false]
  refine ⟨fun x hx y hy removed => List.mem_filter.mpr ⟨List.mem_append_left _ ?_, removed⟩,
    fun x hx y hy removed => List.mem_filter.mpr ⟨List.mem_append_right _ ?_, removed⟩⟩
  · exact List.mem_flatMap.mpr ⟨x, hx, hy⟩
  · exact List.mem_flatMap.mpr ⟨x, hx, hy⟩

/-- The command once it is broadcast: the ticks by which work under its entries has issued, and the entries it removed. -/
def State.broadcastCmd : InvalidateCmd :=
  { c with since := some (c.since.getD (if c.malformed then [] else t.parts.map fun e => (e.1, e.2.tick + 1)))
           gone := c.gone ++ t.entriesGone c }

/-- The state once the oldest command is broadcast. -/
def State.broadcast (l : List InvalidateCmd) : State := { t.removeEntries c with iq := t.broadcastCmd c :: l }

theorem exec_invalidateAck_cons {s : State} {l : List InvalidateCmd} (h : s.popEvent.iq = c :: l) : exec .invalidateAck s =
    .next (if (s.popEvent.broadcast c l).ackReady then
      { s.popEvent.broadcast c l with iq := l, iqAcks := s.popEvent.iqAcks ++ [(c.cookie, c.malformed)],
                                      irqs := s.popEvent.irqs ++ [0] }
    else s.popEvent.broadcast c l) := by
  show execInvalidateAck s = _
  simp only [execInvalidateAck, h]
  rfl

/-- A command that is broadcast is acknowledged where the FIFO has room and nothing under its entries is left. -/
theorem State.ackReady_broadcast (l : List InvalidateCmd) {since : List (Nat × Nat)}
    (h : (t.broadcastCmd c).since = some since) : (t.broadcast c l).ackReady = true ↔ t.iqAcks.length < 64 ∧
      ∀ e ∈ since, (t.broadcast c l).underRemoved (t.broadcastCmd c) e.1 e.2 = false := by
  rw [ackReady, show (t.broadcast c l).iq = t.broadcastCmd c :: l from rfl]
  simp only [h, Bool.and_eq_true, decide_eq_true_eq, Bool.not_eq_true', List.any_eq_false, Bool.not_eq_true]
  rfl

end

end Sys2Proof.Machine

namespace Sys2Proof.Proofs

open Sys2Proof.Machine Sys2Proof.Claims

/-- Settles O55: register by register; an invalidation removes its entries when it is broadcast and is acknowledged when nothing under
them is left. -/
theorem hostRegisterWrites : Obligations.HostRegisterWrites := by
  intro s w t
  refine ⟨exec_hivreq_idle s w, exec_hivreq_busy s w, exec_ungranted s w, ?granted, exec_diagCounterWrite_zero s, ?iq,
    exec_hostMailboxWrite_aligned s w, exec_hostMailboxWrite_other s w, ?bar4, fun req => ⟨_, rfl, rfl, rfl, rfl⟩⟩
  case granted =>
    intro granted
    exact ⟨exec_wallWrite_idle s w granted, exec_plimitWrite_granted s w granted, exec_tjlimitWrite_granted s w granted,
      exec_fcapWrite_granted s w granted, exec_invalidateSubmit_room s w granted, exec_invalidateSubmit_full s w granted,
      exec_iqackPop_granted s granted, exec_mismatchCounterWrite_zero s granted, exec_bar0_tsync s w granted,
      exec_bar0_wbase s w granted, exec_bar0_unlisted s w granted⟩
  case iq =>
    intro c l oldest since gone c' v
    have ready := t.ackReady_broadcast c l (since := since) rfl
    have acks := exec_invalidateAck_cons c oldest
    refine ⟨t.removeEntries_clean c, fun good => ?_, fun room done => ?_, fun waits => ?_⟩
    · obtain ⟨cores, dies⟩ := t.mem_entriesGone c good
      exact ⟨fun x hx y hy removed => List.mem_append_right _ (cores x hx y hy removed),
        fun x hx y hy removed => List.mem_append_right _ (dies x hx y hy removed)⟩
    · rw [acks, if_pos (ready.mpr ⟨room, done⟩)]
      rfl
    · rw [acks, if_neg]
      · rfl
      · rintro goes
        obtain ⟨room, done⟩ := ready.mp goes
        rcases waits with full | ⟨e, he, under⟩
        · omega
        · exact Bool.false_ne_true ((done e he).symm.trans under)
  case bar4 =>
    intro off n pa
    refine ⟨exec_bar4Read_mapped s off n, fun b l first last => ⟨_, exec_bar4Write_mapped s off b l first last, ?_⟩⟩
    exact State.performWrite_hbm t pa (b :: l) _ false

end Sys2Proof.Proofs
end

section
/-! PROOF. Taking a trap and going on from it (18 R333 to R339): its record, its routing, the cursors of the streams that fault, and the
tick at which the group stands. -/

namespace Sys2Proof.Machine

/-! ### TREC0 (18 R336) -/

theorem unitField_le (u : HwUnit) : unitField u ≤ 6 := by cases u <;> decide

theorem engineField_le (u : HwUnit) : engineField u ≤ 2 := by cases u <;> decide

theorem clsCode_lt (c : Cls) : clsCode c < 2 ^ 8 := by cases c <;> decide

/-- The fields of TREC0 lie side by side. -/
theorem toNat_trec0 (cls : Cls) (w : Who) : (trec0 false cls w).toNat =
    unitField w.unit * 2 ^ 21 + engineField w.unit * 2 ^ 19 + w.core % 2048 * 2 ^ 8 + clsCode cls := by
  have unit := unitField_le w.unit
  have engine := engineField_le w.unit
  have code := clsCode_lt cls
  rw [trec0, BitVec.toNat_ofNat, if_neg Bool.false_ne_true, Nat.zero_add]
  omega

/-! ### Pointing a cursor at a fault (07 R175) -/

theorem risingFrom_none_tset {α : Type} [DecidableEq α] (d : α) (t : Tbl α) (k : Nat) (v : α) (h : risingFrom none t = true) :
    risingFrom none (tset d t k v) = true := by
  unfold tset
  split
  · exact risingFrom_none_tdel t k h
  · exact risingFrom_none_tput t k v h

theorem Core.rising_setCur (k : Core) (n : Nat) (v : BitVec 128) (h : risingFrom none k.st = true) :
    risingFrom none (k.setCur n v).st = true := risingFrom_none_tset _ _ _ _ h

theorem Core.getCur_setCur (k : Core) (n m : Nat) (v : BitVec 128) (h : risingFrom none k.st = true) :
    (k.setCur n v).getCur m = if m = n then v else k.getCur m := by
  refine BitVec.eq_of_getLsbD_eq fun i hi => ?_
  rw [Core.getCur, BitVec.getLsbD_setWidth, Core.setCur, k.getSt_land n m v i h (by omega)]
  split
  next both => simp [both.1, hi]
  next other =>
    have ne : m ≠ n := fun same => other ⟨same, hi⟩
    simp [ne, Core.getCur, BitVec.getLsbD_setWidth]

/-- A cursor that is pointed at its fault already stays where it is. -/
theorem State.getCur_aim_pointed (l : List (Nat × Nat × BitVec 128)) (s : State) (acc : List Aimed) {x st : Nat}
    (pointed : ∃ a ∈ acc, a.core = x ∧ a.st = st) (rising : risingFrom none (s.core x).st = true) :
    ((s.aim l acc).1.core x).getCur st = (s.core x).getCur st := by
  induction l generalizing s acc with
  | nil => rfl
  | cons e l ih =>
    obtain ⟨c, n, v⟩ := e
    unfold State.aim
    split
    · exact ih s acc pointed rising
    next fresh =>
      obtain ⟨a, ha, rfl, rfl⟩ := pointed
      have other : ¬ (a.core = c ∧ a.st = n) := fun same =>
        fresh (List.any_eq_true.mpr ⟨a, ha, by simp [same.1, same.2]⟩)
      have kept : ∃ b ∈ acc ++ [⟨c, n, v, (s.core c).getCur n⟩], b.core = a.core ∧ b.st = a.st :=
        ⟨a, List.mem_append_left _ ha, rfl, rfl⟩
      by_cases own : a.core = c
      · have stream : a.st ≠ n := fun same => other ⟨own, same⟩
        subst own
        rw [ih _ _ kept (by rw [State.core_modCore]; exact (s.core a.core).rising_setCur n v rising), State.core_modCore,
          Core.getCur_setCur _ _ _ _ rising, if_neg stream]
      · rw [ih _ _ kept (by rw [State.core_modCore_ne s _ own]; exact rising), State.core_modCore_ne s _ own]

/-- The first fault of a stream that no fault had before is where its cursor is pointed. -/
theorem State.getCur_aim_first (l : List (Nat × Nat × BitVec 128)) (s : State) (acc : List Aimed) {x st : Nat} (b : BitVec 128)
    (fresh : ∀ a ∈ acc, ¬ (a.core = x ∧ a.st = st)) (rising : risingFrom none (s.core x).st = true) :
    ((s.aim ((x, st, b) :: l) acc).1.core x).getCur st = b := by
  have unseen : ¬ (acc.any fun a => a.core == x && a.st == st) = true := by
    rw [List.any_eq_true]
    rintro ⟨a, ha, same⟩
    exact fresh a ha (by simpa using same)
  unfold State.aim
  rw [if_neg unseen, State.getCur_aim_pointed l _ _ ⟨_, List.mem_append_right _ (List.mem_singleton.mpr rfl), rfl, rfl⟩]
  · rw [State.core_modCore, Core.getCur_setCur _ _ _ _ rising, if_pos rfl]
  · rw [State.core_modCore]
    exact (s.core x).rising_setCur st b rising

/-- Pointing cursors touches no memory of the module. -/
theorem State.aim_memories (l : List (Nat × Nat × BitVec 128)) (s : State) (acc : List Aimed) :
    (s.aim l acc).1.hbm = s.hbm ∧ (s.aim l acc).1.hostMem = s.hostMem := by
  induction l generalizing s acc with
  | nil => exact ⟨rfl, rfl⟩
  | cons e l ih =>
    obtain ⟨c, n, v⟩ := e
    unfold State.aim
    split
    · exact ih s acc
    · exact ih _ _

/-! ### The pieces of a trap (18 R333) -/

theorem Part.cores_nodup (k : Part) : k.cores.Nodup :=
  List.Nodup.map (fun _ _ h => Nat.add_left_cancel h) List.nodup_range

/-- What a trap does to each core of its partition: the record, and handler mode where it is routed LOCAL. -/
def Core.trapped (loc : Bool) (rec4 : List Word) (k : Core) : Core :=
  if loc then { k.setTrec rec4 with hm := true, msk := true, handler := 0, hcont := k.tvec.toNat % 4096 } else k.setTrec rec4

/-- The partition in a trap. -/
def Part.inTrap (c : TrapCond) (rec4 : List Word) (loc : Bool) (fixes : List Fix) (cursors : List Aimed) (k : Part) : Part :=
  { k with trap := some ⟨k.tick, c.cls, c.who.core, rec4, loc, fixes.contains .killOnly, fixes, cursors⟩, stepping := false }

/-- The control block of a partition in a trap (18 R342). -/
def Entry.inTrap (c : TrapCond) (rec4 : List Word) (e : Entry) : Entry :=
  { e with cls := BitVec.ofNat 8 (clsCode c.cls), trec := rec4 }

/-- What a trap does to each partition of its group. -/
def Part.standStill (loc : Bool) (wall : Nat) (k : Part) : Part :=
  let k := (k.freeze wall).release
  let k := if loc then k else k.stopCount wall
  { k with conds := [], waits := k.waits.filter Wait.lasting }

theorem Part.standStill_tick (loc : Bool) (wall : Nat) (k : Part) : (k.standStill loc wall).tick = k.tick := by
  cases loc <;> rfl

def State.standStill (s : State) (loc : Bool) (l : List Nat) : State :=
  l.foldl (fun t q => t.modPart q (Part.standStill loc t.wall)) s

/-- Freezing the group changes its partitions only. -/
theorem State.standStill_eq (s : State) (loc : Bool) (l : List Nat) : ∃ ps, s.standStill loc l = { s with parts := ps } := by
  refine List.foldlRecOn (motive := fun t : State => ∃ ps, t = { s with parts := ps }) l _ ⟨s.parts, rfl⟩ ?_
  rintro _ ⟨ps, rfl⟩ q -
  exact ⟨_, rfl⟩

theorem State.standStill_tick (s : State) (loc : Bool) (l : List Nat) (p : Nat) :
    ((s.standStill loc l).part p).tick = (s.part p).tick := by
  refine List.foldlRecOn (motive := fun t : State => (t.part p).tick = (s.part p).tick) l _ rfl fun t h q _ => ?_
  rw [State.part_modPart_if]
  split
  next own => rw [Part.standStill_tick, ← own, h]
  next => exact h

theorem State.part_modEntry (s : State) (e p : Nat) (f : Entry → Entry) : (s.modEntry e f).part p = s.part p := rfl

/-- What is left of the tick is not worked. -/
def State.clearAgenda (s : State) : State := { s with agenda := [] }

theorem State.part_clearAgenda (s : State) (p : Nat) : s.clearAgenda.part p = s.part p := rfl

theorem State.entry_clearAgenda (s : State) (p : Nat) : s.clearAgenda.entry p = s.entry p := rfl

section
variable (s : State) (p : Nat) (c : TrapCond) (fixes : List Fix)

/-- The trap of a condition is routed LOCAL (18 R338). -/
def State.routesLocal : Bool := (s.part p).troute.getLsbD (clsCode c.cls) && !alwaysHost c.cls

/-- The record of a condition at the partition's tick. -/
def State.recordOf : List Word := trapRecord false c.cls c.who (s.part p).tick c.status

/-- The cursors that are pointed at their faults, with those of a trap in force. -/
def State.pointed : State × List Aimed :=
  s.aim ((c.fix :: fixes).filterMap Fix.aimOf) (match (s.part p).trap with | some t => t.cursors | none => [])

/-- The state once the record is in every core. -/
def State.recorded : State :=
  (s.pointed p c fixes).1.modCores (s.part p).cores (Core.trapped (s.routesLocal p c) (s.recordOf p c))

/-- The state once the group stands still. -/
def State.stopped : State :=
  (s.recorded p c fixes).standStill (s.routesLocal p c) ((s.recorded p c fixes).members p)

/-- The state with the trap in force. -/
def State.inForce : State :=
  (((s.stopped p c fixes).modPart p (Part.inTrap c (s.recordOf p c) (s.routesLocal p c) fixes (s.pointed p c fixes).2)).modEntry p
    (Entry.inTrap c (s.recordOf p c))).clearAgenda

theorem State.takeTrap_eq : s.takeTrap p c fixes =
    if s.routesLocal p c then s.inForce p c fixes else (s.inForce p c fixes).interrupt (entryVector p) := rfl

theorem State.core_recorded (x : Nat) : (s.recorded p c fixes).core x = if x ∈ (s.part p).cores then
    ((s.pointed p c fixes).1.core x).trapped (s.routesLocal p c) (s.recordOf p c) else (s.pointed p c fixes).1.core x := by
  split
  next member => exact State.core_modCores _ _ _ x member (s.part p).cores_nodup
  next other => exact State.core_modCores_ne _ _ _ x other

theorem State.parts_pointed : (s.pointed p c fixes).1.parts = s.parts := (State.aim_frame s _ _).1

theorem State.irqs_pointed : (s.pointed p c fixes).1.irqs = s.irqs := (State.aim_frame s _ _).2

theorem State.tick_stopped : ((s.stopped p c fixes).part p).tick = (s.part p).tick := by
  have parts : (s.recorded p c fixes).parts = s.parts := by rw [recorded, modCores_parts, parts_pointed]
  rw [stopped, standStill_tick, State.part_congr parts p]

theorem State.part_inForce : (s.inForce p c fixes).part p =
    ((s.stopped p c fixes).part p).inTrap c (s.recordOf p c) (s.routesLocal p c) fixes (s.pointed p c fixes).2 := by
  rw [inForce, part_clearAgenda, part_modEntry, part_modPart]

theorem Part.inTrap_tick (c : TrapCond) (rec4 : List Word) (loc : Bool) (fixes : List Fix) (cursors : List Aimed) (k : Part) :
    (k.inTrap c rec4 loc fixes cursors).tick = k.tick := rfl

theorem State.tick_inForce : ((s.inForce p c fixes).part p).tick = (s.part p).tick := by
  rw [part_inForce, Part.inTrap_tick, tick_stopped]

/-- The trap in force is that of its condition, at the tick where the partition stands. -/
theorem State.trap_inForce : ∃ r, ((s.inForce p c fixes).part p).trap = some r ∧ r.tick = (s.part p).tick ∧ r.cls = c.cls ∧
    r.trec = s.recordOf p c ∧ r.localRoute = s.routesLocal p c ∧ r.fixes = fixes := by
  rw [part_inForce]
  exact ⟨_, rfl, s.tick_stopped p c fixes, rfl, rfl, rfl, rfl⟩

theorem State.trec_inForce : ((s.inForce p c fixes).entry p).trec = s.recordOf p c := by
  rw [inForce, entry_clearAgenda, entry_modEntry]
  rfl

theorem State.recorded_frame : let u := s.recorded p c fixes
    u.hbm = s.hbm ∧ u.hostMem = s.hostMem ∧ u.irqs = s.irqs := by
  obtain ⟨hbm, hostMem⟩ := State.aim_memories ((c.fix :: fixes).filterMap Fix.aimOf) s
    (match (s.part p).trap with | some t => t.cursors | none => [])
  exact State.modCores_keeps (fun t => t.hbm = s.hbm ∧ t.hostMem = s.hostMem ∧ t.irqs = s.irqs) _ (fun _ _ h => h) _ _
    ⟨hbm, hostMem, s.irqs_pointed p c fixes⟩

/-- A trap changes no memory of the module, and no core behind its record. -/
theorem State.inForce_frame : let u := s.inForce p c fixes
    u.cores = (s.recorded p c fixes).cores ∧ u.hbm = s.hbm ∧ u.hostMem = s.hostMem ∧ u.irqs = s.irqs := by
  obtain ⟨hbm, hostMem, irqs⟩ := s.recorded_frame p c fixes
  obtain ⟨ps, still⟩ := (s.recorded p c fixes).standStill_eq (s.routesLocal p c) ((s.recorded p c fixes).members p)
  rw [← hbm, ← hostMem, ← irqs, inForce, stopped, still]
  exact ⟨rfl, rfl, rfl, rfl⟩

theorem State.interrupt_frame (v : Nat) : let u := s.interrupt v
    u.cores = s.cores ∧ u.part p = s.part p ∧ u.entry p = s.entry p ∧ u.agenda = s.agenda ∧ u.hbm = s.hbm ∧
      u.hostMem = s.hostMem ∧ u.irqs = s.irqs ++ [v] := ⟨rfl, rfl, rfl, rfl, rfl, rfl, rfl⟩

theorem State.takeTrap_frame : let u := s.takeTrap p c fixes
    u.cores = (s.recorded p c fixes).cores ∧ u.part p = (s.inForce p c fixes).part p ∧
      u.entry p = (s.inForce p c fixes).entry p ∧ u.agenda = [] ∧ u.hbm = s.hbm ∧ u.hostMem = s.hostMem := by
  obtain ⟨cores, hbm, hostMem, -⟩ := s.inForce_frame p c fixes
  have agenda : (s.inForce p c fixes).agenda = [] := rfl
  rw [takeTrap_eq]
  split
  · exact ⟨cores, rfl, rfl, agenda, hbm, hostMem⟩
  · obtain ⟨cores', part, entry, agenda', hbm', hostMem', -⟩ := (s.inForce p c fixes).interrupt_frame p (entryVector p)
    exact ⟨cores'.trans cores, part, entry, agenda'.trans agenda, hbm'.trans hbm, hostMem'.trans hostMem⟩

/-- The host hears of a trap that is routed to it (18 R338). -/
theorem State.irqs_takeTrap : (s.takeTrap p c fixes).irqs =
    if s.routesLocal p c then s.irqs else s.irqs ++ [entryVector p] := by
  obtain ⟨-, -, -, irqs⟩ := s.inForce_frame p c fixes
  rw [takeTrap_eq]
  split
  · exact irqs
  · exact congrArg (· ++ [entryVector p]) irqs

end

/-! ### Going on (18 R335, R341) -/

/-- Every partition stands at its tick, in its trap if it is in one, in `t` as in `s`. -/
def TrapKept (s t : State) : Prop := ∀ p, (t.part p).trap = (s.part p).trap ∧ (t.part p).tick = (s.part p).tick

theorem TrapKept.refl (s : State) : TrapKept s s := fun _ => ⟨rfl, rfl⟩

theorem TrapKept.trans {s t u : State} (h : TrapKept s t) (i : TrapKept t u) : TrapKept s u :=
  fun p => ⟨(i p).1.trans (h p).1, (i p).2.trans (h p).2⟩

theorem TrapKept.modPart (s : State) (q : Nat) (f : Part → Part) (h : ∀ k, (f k).trap = k.trap ∧ (f k).tick = k.tick) :
    TrapKept s (s.modPart q f) := by
  intro p
  rw [State.part_modPart_if]
  split
  next own => rw [own]; exact h _
  next => exact ⟨rfl, rfl⟩

theorem TrapKept.addDue (s : State) (q : Nat) (d : Due) : TrapKept s (s.addDue q d) := .modPart s q _ fun _ => ⟨rfl, rfl⟩

theorem TrapKept.modCore (s : State) (c : Nat) (f : Core → Core) : TrapKept s (s.modCore c f) := fun _ => ⟨rfl, rfl⟩

theorem TrapKept.foldl {α : Type} (f : State → α → State) (h : ∀ s a, TrapKept s (f s a)) (l : List α) (s : State) :
    TrapKept s (l.foldl f s) :=
  List.foldlRecOn l f (motive := TrapKept s) (.refl s) fun t kept a _ => kept.trans (h t a)

/-- A resumption action moves no tick and ends no trap. -/
theorem TrapKept.applyFix (s : State) (p : Nat) (x : Fix) : TrapKept s (s.applyFix p x) := by
  cases x with
  | continue_ | retry | killOnly | aim => exact .refl s
  | fault d => exact .addDue s _ d
  | settle | void | undecide | pulse => exact .modPart s _ _ fun _ => ⟨rfl, rfl⟩
  | again old new =>
    exact (TrapKept.modPart s _ (fun k => { k with pend := k.pend.erase old }) fun _ => ⟨rfl, rfl⟩).trans (.addDue _ _ new)
  | swap old new =>
    unfold State.applyFix
    dsimp only
    split
    · exact (TrapKept.modPart s _ (fun k => { k with pend := k.pend.erase old }) fun _ => ⟨rfl, rfl⟩).trans (.addDue _ _ new)
    · exact .refl s
  | abandon c e prog => exact .modCore s c _

/-- Ticks resume where they stood, with the trap gone. -/
theorem State.resumeTicks_part (s : State) (p : Nat) :
    ((s.resumeTicks p).part p).trap = none ∧ ((s.resumeTicks p).part p).tick = (s.part p).tick := by
  unfold State.resumeTicks
  split
  next free => exact ⟨free, rfl⟩
  next r _ =>
    have fixed : TrapKept s (r.fixes.foldl (fun s f => s.applyFix p f) (r.cursors.foldl State.unaim s)) :=
      (TrapKept.foldl _ (fun t a => .modCore t a.core _) r.cursors s).trans (.foldl _ (fun t f => .applyFix t p f) r.fixes _)
    have ends : ∀ u : State, TrapKept ((r.fixes.foldl (fun s f => s.applyFix p f) (r.cursors.foldl State.unaim s)).modPart p
        fun k => { k with trap := none }) u → (u.part p).trap = none ∧ (u.part p).tick = (s.part p).tick := by
      intro u kept
      obtain ⟨trap, tick⟩ := kept p
      rw [trap, tick, State.part_modPart]
      exact ⟨rfl, (fixed p).2⟩
    dsimp only
    split
    · exact ends _ (.refl _)
    · refine ends _ (TrapKept.foldl _ (fun t q => ?_) _ _)
      exact TrapKept.modPart t q _ fun _ => ⟨rfl, rfl⟩

end Sys2Proof.Machine

namespace Sys2Proof.Proofs

open Sys2Proof.Machine Sys2Proof.Claims

/-- Settles O58: the record goes into the cores of the partition, the first fault of a stream into its cursor, and the group stands at
its tick until ticks resume. -/
theorem takingATrap : Obligations.TakingATrap := by
  refine ⟨?taken, fun cls w => ?fields, State.resumeTicks_part⟩
  case taken =>
    intro s p c fixes k u rec4 loc old v
    obtain ⟨cores, part, entry, agenda, hbm, hostMem⟩ := s.takeTrap_frame p c fixes
    have irqs : u.irqs = if loc then s.irqs else s.irqs ++ [entryVector p] := s.irqs_takeTrap p c fixes
    have core : ∀ x, u.core x = if x ∈ k.cores then (v.core x).trapped loc rec4 else v.core x := by
      intro x
      rw [State.core, cores]
      exact s.core_recorded p c fixes x
    refine ⟨fun x member => (core x).trans (if_pos member), fun x other => (core x).trans (if_neg other), ?untouched, ?pointed,
      ?_, ?_, ?_, agenda, hbm, hostMem, ?inside, ?host⟩
    case untouched =>
      intro none
      have no : (c.fix :: fixes).filterMap Fix.aimOf = [] := List.filterMap_eq_nil_iff.mpr none
      simp only [v, no]
      rfl
    case pointed =>
      intro d x st b fault fresh rising
      have first : (c.fix :: fixes).filterMap Fix.aimOf = (x, st, b) :: fixes.filterMap Fix.aimOf := by rw [fault]; rfl
      simp only [v, first]
      exact State.getCur_aim_first _ s old b fresh rising
    · rw [part]; exact s.trap_inForce p c fixes
    · rw [part]; exact s.tick_inForce p c fixes
    · rw [entry]; exact s.trec_inForce p c fixes
    case inside => exact fun routed => irqs.trans (if_pos routed)
    case host => exact fun routed => irqs.trans (if_neg (ne_true_of_eq_false routed))
  case fields =>
    have unit := unitField_le w.unit
    have engine := engineField_le w.unit
    have code := clsCode_lt cls
    rw [toNat_trec0]
    omega

end Sys2Proof.Proofs
end

section
/-! PROOF. Lanes of a V word (08 R199, R200): the elements of a row that is made lane by lane, the elements that a mask makes active,
the flags of those alone (04 R64), and what a masked result lands. -/

namespace Sys2Proof.Machine

open Sys2Proof.Claims (Issues lands landsLanes active activeIn maskPoison vr)

/-! ### Rows made lane by lane -/

theorem Fmt.bits_mul_lanes_le (f : Fmt) : f.bits * f.lanes ≤ 512 := Nat.mul_div_le _ _

theorem elemOf_lt (b : Nat) (r : Row) (i : Nat) : elemOf b r i < 2 ^ b := Nat.mod_lt _ (Nat.two_pow_pos b)

theorem elemsOf_eq_map (f : Fmt) (r : Row) : elemsOf f.bits r = (List.range f.lanes).map (elemOf f.bits r) := rfl

/-- An element of a row of the first `m` elements is its own, and 0 from the `m`th on. -/
theorem elemOf_row_map {b m : Nat} (fits : b * m ≤ 512) (g : Nat → Nat) (i : Nat) :
    elemOf b (BitVec.ofNat 512 (rowOfElems b ((List.range m).map g))) i = if i < m then g i % 2 ^ b else 0 := by
  rw [elemOf_rowOfElems _ _ _ (by simpa using fits), List.getD_eq_getElem?_getD]
  by_cases inside : i < m
  · simp [inside]
  · simp [inside]

theorem elemOf_row_lanes {f : Fmt} (g : Nat → Nat) {i : Nat} (inside : i < f.lanes) :
    elemOf f.bits (BitVec.ofNat 512 (rowOfElems f.bits ((List.range f.lanes).map g))) i = g i % 2 ^ f.bits := by
  rw [elemOf_row_map (Fmt.bits_mul_lanes_le f), if_pos inside]

/-- Ones where a condition holds, as an element. -/
theorem ones_mod (c : Prop) [Decidable c] (b : Nat) : (if c then 2 ^ b - 1 else 0) % 2 ^ b = if c then 2 ^ b - 1 else 0 := by
  have below : 2 ^ b - 1 < 2 ^ b := Nat.sub_lt (Nat.two_pow_pos b) Nat.one_pos
  split
  · exact Nat.mod_eq_of_lt below
  · exact Nat.zero_mod _

theorem zipWith_map_range {α β γ : Type} (g : α → β → γ) (u : Nat → α) (v : Nat → β) (n : Nat) :
    List.zipWith g ((List.range n).map u) ((List.range n).map v) = (List.range n).map fun i => g (u i) (v i) := by
  rw [List.zipWith_map, List.zipWith_self]

theorem map_zipIdx_range {α β : Type} (g : Nat → α) (h : α × Nat → β) (n : Nat) :
    (((List.range n).map g).zipIdx).map h = (List.range n).map fun i => h (g i, i) :=
  List.ext_getElem (by simp) (by simp)

/-! ### Active elements (08 R200) -/

section
variable (t : State) (x : Ctx) (k : Num3)

theorem maskOf_poison : ((t.core x.c).maskOf k.val).p = maskPoison t x k := by
  unfold Core.maskOf maskPoison
  by_cases zero : k.val = 0 <;> simp [zero, Pv.zero]

theorem activeLane_maskOf (f : Fmt) (i : Nat) : activeLane f k.val ((t.core x.c).maskOf k.val).v i = activeIn t x k f i := by
  unfold activeLane Core.maskOf activeIn
  by_cases zero : k.val = 0
  · simp [zero]
  · by_cases packed : f.bits = 4 <;> simp [zero, packed]

theorem activeIn_of_wide {f : Fmt} (wide : f.bits ≠ 4) (i : Nat) : activeIn t x k f i = active t x k i := by
  rw [activeIn, if_neg wide, active]

theorem elemOf_laneMask {f : Fmt} {i : Nat} (inside : i < f.lanes) :
    elemOf f.bits (laneMask f k.val ((t.core x.c).maskOf k.val).v) i = if activeIn t x k f i then 2 ^ f.bits - 1 else 0 := by
  rw [laneMask, elemOf_row_lanes _ inside, ones_mod, activeLane_maskOf]

/-- The mask operand is read of the mask registers alone. -/
theorem maskOf_congr {s : State} (same : (s.core x.c).k = (t.core x.c).k) (i : Nat) :
    (s.core x.c).maskOf i = (t.core x.c).maskOf i := by
  simp only [Core.maskOf, Core.getK, same]

end

theorem Fmt.wide_of_isVecInt {f : Fmt} (h : f.isVecInt = true) : f.bits ≠ 4 := by
  revert h; cases f <;> decide

theorem Fmt.wide_of_isVecFloat {f : Fmt} (h : f.isVecFloat = true) : f.bits ≠ 4 := by
  revert h; cases f <;> decide

theorem Fmt.wide_of_isMove {f : Fmt} (h : f.isMove = true) : f.bits ≠ 4 := by
  revert h; cases f <;> decide

/-! ### Flags (04 R64) -/

theorem getLsbD_orFlags (l : List Flags) (j : Nat) : (orFlags l).getLsbD j = l.any (·.getLsbD j) := by
  have from_acc (acc : Flags) : (l.foldl (· ||| ·) acc).getLsbD j = (acc.getLsbD j || l.any (·.getLsbD j)) := by
    induction l generalizing acc with
    | nil => simp
    | cons e l ih => rw [List.foldl_cons, ih, BitVec.getLsbD_or, List.any_cons, Bool.or_assoc]
  exact (from_acc 0).trans (by simp)

theorem laneFlags_eq_orFlags (l : List (Bool × Flags)) : laneFlags l = orFlags (l.map fun e => if e.1 then e.2 else 0) := by
  have each (acc : Flags) (e : Bool × Flags) : (if e.1 then acc ||| e.2 else acc) = acc ||| if e.1 then e.2 else 0 := by
    cases e.1
    · exact BitVec.or_zero.symm
    · rfl
  simp only [laneFlags, orFlags, List.foldl_map, each]

/-- The flags of the active ones of `n` elements. -/
def activeFlags (n : Nat) (act : Nat → Bool) (g : Nat → Flags) : Flags := laneFlags ((List.range n).map fun i => (act i, g i))

theorem getLsbD_activeFlags (n : Nat) (act : Nat → Bool) (g : Nat → Flags) (j : Nat) :
    (activeFlags n act g).getLsbD j = (List.range n).any fun i => (if act i then g i else 0).getLsbD j := by
  rw [activeFlags, laneFlags_eq_orFlags, getLsbD_orFlags, List.map_map, List.any_map]
  rfl

theorem getLsbD_activeFlags_and (n : Nat) (act : Nat → Bool) (g : Nat → Flags) (j : Nat) :
    (activeFlags n act g).getLsbD j = (List.range n).any fun i => act i && (g i).getLsbD j := by
  have each (i : Nat) : (if act i then g i else 0).getLsbD j = (act i && (g i).getLsbD j) := by
    cases act i <;> simp
  simp only [getLsbD_activeFlags, each]

/-- Active elements that raise nothing raise nothing together. -/
theorem activeFlags_eq_zero {n : Nat} {act : Nat → Bool} {g : Nat → Flags} (none : ∀ i < n, act i = true → g i = 0) :
    activeFlags n act g = 0 := by
  refine BitVec.eq_of_getLsbD_eq fun j _ => ?_
  rw [getLsbD_activeFlags_and, show (0 : Flags).getLsbD j = false by simp, List.any_eq_false]
  intro i inside
  cases set : act i
  · simp
  · simp [none i (List.mem_range.mp inside) set]

theorem State.laterFlags_zero (t : State) (x : Ctx) (n : Nat) (p : Bool) : t.laterFlags x n 0 p = t := by
  simp [laterFlags]

theorem State.core_laterFlags {x : Ctx} (run : x.handler = false) (t : State) (n : Nat) (fl : Flags) (p : Bool) (c : Nat) :
    (t.laterFlags x n fl p).core c = t.core c := by
  unfold laterFlags
  split
  · rfl
  · rw [later_word _ _ _ _ run]
    rfl

/-! ### What a masked result lands -/

theorem unit_of_issues_v {f : Frame} {s t : State} {x : Ctx} (h : Issues s f .v x t) : unitPlace x.who.unit = 3 := by
  obtain ⟨p, c, l, -, -, -⟩ := h
  rfl

/-- A masked result and the flags of its active elements: element i is `(g i).1`, and `(g i).2` are its flags. -/
def landsFlagged (o : Out) (t : State) (x : Ctx) (n : Nat) (d : VReg) (f : Fmt) (k : Num3) (p : Bool) (g : Nat → Nat × Flags) : Prop :=
  ∃ fl : Flags, landsLanes o (t.laterFlags x (x.t + n) fl (p || maskPoison t x k)) x n d f k (p || maskPoison t x k)
    (fun i => (g i).1) ∧ ∀ j < 5, fl.getLsbD j = (List.range f.lanes).any fun i => active t x k i && (g i).2.getLsbD j

section
variable {x : Ctx} {f : Fmt} (wide : f.bits ≠ 4) (t : State) (n : Nat) (d : VReg) (k : Num3) (p : Bool)
include wide

/-- A row that lands under a mask, once other work of the word has been put in flight. -/
theorem landsLanes_row {u : State} (same : u.core x.c = t.core x.c) (g : Nat → Nat) :
    landsLanes (lands u x n (.v d.val (BitVec.ofNat 512 (rowOfElems f.bits ((List.range f.lanes).map g)))
      (laneMask f k.val ((t.core x.c).maskOf k.val).v) p)) u x n d f k p g := by
  refine ⟨_, _, rfl, fun i inside => ⟨elemOf_row_lanes g inside, ?_⟩⟩
  have read : active u x k i = active t x k i := by rw [active, same, active]
  rw [elemOf_laneMask _ _ _ inside, activeIn_of_wide _ _ _ wide, read]

variable (run : x.handler = false)
include run

theorem landsFlagged_landLanes (g : Nat → Nat × Flags) :
    landsFlagged (.next (t.landLanes x n d.val f k.val ((t.core x.c).maskOf k.val) p ((List.range f.lanes).map g))) t x n d f k p g := by
  refine ⟨activeFlags f.lanes (active t x k) fun i => (g i).2, ?_, fun j _ => getLsbD_activeFlags_and _ _ _ j⟩
  have flags : laneFlags (((List.range f.lanes).map g).zipIdx.map fun (e, i) =>
      (activeLane f k.val ((t.core x.c).maskOf k.val).v i, e.2)) = activeFlags f.lanes (active t x k) fun i => (g i).2 := by
    simp only [map_zipIdx_range, activeLane_maskOf, activeIn_of_wide _ _ _ wide, activeFlags]
  have landed := landsLanes_row wide t n d k (p || maskPoison t x k)
    (State.core_laterFlags run t (x.t + n) (activeFlags f.lanes (active t x k) fun i => (g i).2) (p || maskPoison t x k) x.c)
    fun i => (g i).1
  simp only [State.landLanes, flags, maskOf_poison, List.map_map]
  exact landed

/-- Without flags the result is all that lands. -/
theorem landsLanes_landLanes (g : Nat → Nat) :
    landsLanes (.next (t.landLanes x n d.val f k.val ((t.core x.c).maskOf k.val) p ((List.range f.lanes).map fun i => (g i, 0))))
      t x n d f k (p || maskPoison t x k) g := by
  obtain ⟨fl, landed, bits⟩ := landsFlagged_landLanes wide t n d k p run fun i => (g i, 0)
  have none : fl = 0 := BitVec.eq_of_getLsbD_eq fun j hj => by simp [bits j hj]
  rwa [none, State.laterFlags_zero] at landed

end

end Sys2Proof.Machine
end

section
/-! PROOF. Integer lane words (08 R207): what each operation makes of the integers that its elements stand for. -/

namespace Sys2Proof.Machine

open Sys2Proof.Claims (Issues landsLanes maskPoison vr)

/-! ### Integers in elements (04 R58) -/

/-- The integer that an element stands for: signed but for uint8. -/
def readInt (f : Fmt) (e : Nat) : Int := if f = .uint8 then e else if e < 2 ^ (f.bits - 1) then e else (e : Int) - 2 ^ f.bits

theorem isSignedFmt_of_isVecInt {f : Fmt} (vec : f.isVecInt = true) : isSignedFmt f = decide (f ≠ .uint8) := by
  revert vec; cases f <;> decide

theorem laneInt_eq {f : Fmt} (vec : f.isVecInt = true) {e : Nat} (small : e < 2 ^ f.bits) : laneInt f e = readInt f e := by
  rw [laneInt, isSignedFmt_of_isVecInt vec, readInt, Nat.mod_eq_of_lt small]
  by_cases unsigned : f = .uint8
  · simp [unsigned]
  · simp [unsigned, sgn, Nat.mod_eq_of_lt small]

/-- An integer as it stands in an element. -/
def wrapped (f : Fmt) (z : Int) : Nat := (z % 2 ^ f.bits).toNat

theorem wrapped_natCast (f : Fmt) (n : Nat) : wrapped f n = n % 2 ^ f.bits := by
  rw [wrapped, ← Int.toNat_natCast (n % 2 ^ f.bits)]
  push_cast
  rfl

/-- Reading an element and writing it back gives it again. -/
theorem wrapped_readInt (f : Fmt) {e : Nat} (small : e < 2 ^ f.bits) : wrapped f (readInt f e) = e := by
  have whole : wrapped f e = e := by rw [wrapped_natCast, Nat.mod_eq_of_lt small]
  unfold readInt
  split
  · exact whole
  · split
    · exact whole
    · rw [wrapped, Int.sub_emod_right]
      exact whole

/-! ### The operations -/

section
variable {f : Fmt} {a b : Nat}

theorem laneAdd_eq : laneAdd f a b = wrapped f (a + b) := (wrapped_natCast f (a + b)).symm

theorem laneSub_eq : laneSub f a b = wrapped f ((a : Int) - b) := unsgn_eq _ _

variable (vec : f.isVecInt = true) (ha : a < 2 ^ f.bits)
include vec ha

theorem laneShr_eq : laneShr f a b = wrapped f (readInt f a / 2 ^ (b % f.bits)) := by
  have power : ((2 ^ (b % f.bits) : Nat) : Int) = 2 ^ (b % f.bits) := by push_cast; rfl
  rw [laneShr, unsgn_eq, laneInt_eq vec ha, power, Int.fdiv_eq_ediv_of_nonneg _ (by positivity), wrapped]

variable (hb : b < 2 ^ f.bits)
include hb

theorem laneMul_eq : laneMul f a b = wrapped f (readInt f a * readInt f b) := by
  rw [laneMul, unsgn_eq, laneInt_eq vec ha, laneInt_eq vec hb, wrapped]

theorem laneMulh_eq : laneMulh f a b = wrapped f (readInt f a * readInt f b / 2 ^ f.bits) := by
  have power : ((2 ^ f.bits : Nat) : Int) = 2 ^ f.bits := by push_cast; rfl
  rw [laneMulh, unsgn_eq, laneInt_eq vec ha, laneInt_eq vec hb, power, Int.fdiv_eq_ediv_of_nonneg _ (by positivity), wrapped]

theorem laneMin_eq : laneMin f a b = wrapped f (min (readInt f a) (readInt f b)) := by
  rw [laneMin, laneInt_eq vec ha, laneInt_eq vec hb]
  split
  next less => rw [min_eq_right less.le, wrapped_readInt f hb]
  next more => rw [min_eq_left (not_lt.mp more), wrapped_readInt f ha]

theorem laneMax_eq : laneMax f a b = wrapped f (max (readInt f a) (readInt f b)) := by
  rw [laneMax, laneInt_eq vec ha, laneInt_eq vec hb]
  split
  next less => rw [max_eq_right less.le, wrapped_readInt f hb]
  next more => rw [max_eq_left (not_lt.mp more), wrapped_readInt f ha]

end

/-! ### The words -/

section
variable {s t : State} {f : Frame} {x : Ctx} (h : Issues s f .v x t) (i : Instr) (d a b : VReg) (k : Num3) (fmt : Fmt)
include h

/-- A masked operation of two registers, lane by lane. -/
theorem vec2_of_issues (lat : Nat) (g : Nat → Nat → Nat × Flags) : vec2 i f lat d a b k fmt g s =
    t.landLanes x lat d.val fmt k.val ((t.core x.c).maskOf k.val) ((vr t x a).p || (vr t x b).p)
      ((List.range fmt.lanes).map fun i => g (elemOf fmt.bits (vr t x a).v i) (elemOf fmt.bits (vr t x b).v i)) := by
  rw [vec2, nativeWord_of_issues h]
  simp only [elemsOf_eq_map, zipWith_map_range]
  rfl

/-- A masked integer operation lands what it makes of each pair of elements. -/
theorem landsLanes_vecInt (vec : fmt.isVecInt = true) (g : Fmt → Nat → Nat → Nat) {r : Nat → Nat}
    (value : ∀ i, g fmt (elemOf fmt.bits (vr t x a).v i) (elemOf fmt.bits (vr t x b).v i) = r i) :
    landsLanes (.next (vecInt i f d a b k fmt g s)) t x 2 d fmt k ((vr t x a).p || (vr t x b).p || maskPoison t x k) r := by
  rw [vecInt, vec2_of_issues h]
  simp only [value]
  exact landsLanes_landLanes (Fmt.wide_of_isVecInt vec) t 2 d k _ (handler_of_issues h) r

end

end Sys2Proof.Machine

namespace Sys2Proof.Proofs

open Sys2Proof.Machine Sys2Proof.Claims

/-- Settles O30: every word lands its operation of each pair of elements, of which only the reading as integers differs. -/
theorem vectorIntegerWords : Obligations.VectorIntegerWords := by
  intro s f x t d a b k fmt h vec n u v int wrap r
  have hu (i : Nat) : u i < 2 ^ fmt.bits := elemOf_lt _ _ _
  have hv (i : Nat) : v i < 2 ^ fmt.bits := elemOf_lt _ _ _
  have lands (j : Instr) (g : Fmt → Nat → Nat → Nat) {q : Nat → Nat} (value : ∀ i, g fmt (u i) (v i) = q i) :=
    landsLanes_vecInt h j d a b k fmt vec g value
  exact ⟨lands _ _ fun _ => laneAdd_eq, lands _ _ fun _ => laneSub_eq, lands _ _ fun i => laneMul_eq vec (hu i) (hv i),
    lands _ _ fun i => laneMulh_eq vec (hu i) (hv i), lands _ _ fun i => laneMin_eq vec (hu i) (hv i),
    lands _ _ fun i => laneMax_eq vec (hu i) (hv i), lands _ (fun _ u v => u &&& v) fun _ => rfl,
    lands _ (fun _ u v => u ||| v) fun _ => rfl, lands _ (fun _ u v => u ^^^ v) fun _ => rfl, lands _ laneShl fun _ => rfl,
    lands _ _ fun i => laneShr_eq vec (hu i)⟩

end Sys2Proof.Proofs
end

section
/-! PROOF. Float lane words (08 R209): the draws that a stochastic rounding takes of its noise slot, and what each word lands. -/

namespace Sys2Proof.Machine

open Sys2Proof.Claims (Issues maskPoison vr)

/-! ### Draws of a noise slot (04 R90, 08 R209) -/

/-- The draw of element `i`, where the mode takes one. -/
def stoDraw (rm : Rm) (slot : NoiseSlot) (i : Nat) : Draw := if rm = .sto then uniDraw (slotBlock slot i) else 0

/-- A noise slot past `m` draws, where the mode takes them. -/
def State.drawn (t : State) (c ns : Nat) (rm : Rm) (m : Nat) : State :=
  if rm = .sto then t.modCore c fun k => k.setNs ns (slotAfter ((t.core c).getNs ns) m) else t

section
variable (t : State) (c ns : Nat) (rm : Rm) (m : Nat)

theorem State.drawSto_eq :
    t.drawSto c ns rm m = (t.drawn c ns rm m, (List.range m).map (stoDraw rm ((t.core c).getNs ns))) := by
  unfold drawSto drawn stoDraw slotDraws
  by_cases sto : rm = .sto
  · simp [sto]
  · simp [sto, List.map_const']

theorem State.drawn_k : ((t.drawn c ns rm m).core c).k = (t.core c).k := by
  unfold drawn
  split
  · rw [core_modCore]
    rfl
  · rfl

end

/-! ### The words -/

section
variable {s t : State} {f : Frame} {x : Ctx} (h : Issues s f .v x t) (d a b c : VReg) (k : Num3) {fmt : Fmt}
  (vec : fmt.isVecFloat = true)
include h vec

/-- A masked operation of one register without flags. -/
theorem landsFlagged_vec1 (i : Instr) (g : Nat → Nat) : landsFlagged (.next (vec1 i f 2 d a k fmt g s)) t x 2 d fmt k (vr t x a).p
    fun i => (g (elemOf fmt.bits (vr t x a).v i), 0) := by
  rw [vec1, nativeWord_of_issues h]
  simp only [elemsOf_eq_map, List.map_map]
  exact landsFlagged_landLanes (Fmt.wide_of_isVecFloat vec) t 2 d k _ (handler_of_issues h) _

/-- A masked operation of two registers without a rounding mode. -/
theorem landsFlagged_vec2 (i : Instr) (g : Nat → Nat → Nat × Flags) :
    landsFlagged (.next (vec2 i f 2 d a b k fmt g s)) t x 2 d fmt k ((vr t x a).p || (vr t x b).p)
      fun i => g (elemOf fmt.bits (vr t x a).v i) (elemOf fmt.bits (vr t x b).v i) := by
  rw [vec2_of_issues h]
  exact landsFlagged_landLanes (Fmt.wide_of_isVecFloat vec) t 2 d k _ (handler_of_issues h) _

variable (rm : Rm) (ns : Num3)

omit h in
/-- A masked result of elements that have each taken a draw. -/
theorem landsFlagged_drawn (run : x.handler = false) (n : Nat) (p : Bool) (g : Draw → Nat → Nat × Flags) :
    let u := t.drawn x.c ns.val rm fmt.lanes
    landsFlagged (.next (u.landLanes x n d.val fmt k.val ((t.core x.c).maskOf k.val) p
      ((List.range fmt.lanes).map fun i => g (stoDraw rm ((t.core x.c).getNs ns.val) i) i))) u x n d fmt k p
      fun i => g (stoDraw rm ((t.core x.c).getNs ns.val) i) i := by
  intro u
  rw [← maskOf_congr t x (t.drawn_k x.c ns.val rm fmt.lanes)]
  exact landsFlagged_landLanes (Fmt.wide_of_isVecFloat vec) u n d k p run _

theorem landsFlagged_vecFloat (i : Instr) (n : Nat) (g : Fmt → Rm → Draw → Nat → Nat → Nat × Flags) :
    landsFlagged (.next (vecFloat i f n d a b k fmt rm ns g s)) (t.drawn x.c ns.val rm fmt.lanes) x n d fmt k
      ((vr t x a).p || (vr t x b).p) fun i => g fmt rm (stoDraw rm ((t.core x.c).getNs ns.val) i)
        (elemOf fmt.bits (vr t x a).v i) (elemOf fmt.bits (vr t x b).v i) := by
  rw [vecFloat, nativeWord_of_issues h]
  simp only [State.drawSto_eq, elemsOf_eq_map, List.zip_map', zipWith_map_range]
  exact landsFlagged_drawn d k vec rm ns (handler_of_issues h) n _ fun q i =>
    g fmt rm q (elemOf fmt.bits (vr t x a).v i) (elemOf fmt.bits (vr t x b).v i)

theorem landsFlagged_vfma : landsFlagged (exec (.vfma f d a b c k fmt rm ns) s) (t.drawn x.c ns.val rm fmt.lanes) x 5 d fmt k
    ((vr t x a).p || (vr t x b).p || (vr t x c).p) fun i => fMa fmt rm (stoDraw rm ((t.core x.c).getNs ns.val) i)
      (elemOf fmt.bits (vr t x a).v i) (elemOf fmt.bits (vr t x b).v i) (elemOf fmt.bits (vr t x c).v i) := by
  show landsFlagged (execVfma f d a b c k fmt rm ns s) _ _ _ _ _ _ _ _
  rw [execVfma, nativeWord_of_issues h]
  simp only [State.drawSto_eq, elemsOf_eq_map, List.zip_map', zipWith_map_range]
  exact landsFlagged_drawn d k vec rm ns (handler_of_issues h) 5 _ fun q i =>
    fMa fmt rm q (elemOf fmt.bits (vr t x a).v i) (elemOf fmt.bits (vr t x b).v i) (elemOf fmt.bits (vr t x c).v i)

end

end Sys2Proof.Machine

namespace Sys2Proof.Proofs

open Sys2Proof.Machine Sys2Proof.Claims

/-- Settles O31: the words with a rounding mode after their draws, and those without one. -/
theorem vectorFloatWords : Obligations.VectorFloatWords := by
  intro s f x t d a b c k fmt rm ns h vec
  exact ⟨landsFlagged_vecFloat h d a b k vec rm ns _ 4 fAdd, landsFlagged_vecFloat h d a b k vec rm ns _ 4 fSub,
    landsFlagged_vecFloat h d a b k vec rm ns _ 4 fMul, landsFlagged_vfma h d a b c k vec rm ns,
    landsFlagged_vec2 h d a b k vec _ fun u v => (fMin fmt u v, 0), landsFlagged_vec2 h d a b k vec _ fun u v => (fMax fmt u v, 0),
    landsFlagged_vec1 h d a k vec _ (fAbs fmt), landsFlagged_vec1 h d a k vec _ (fNeg fmt)⟩

end Sys2Proof.Proofs
end

section
/-! PROOF. Compares and mask words (08 R208, R210, R216): the bits of a mask, the comparisons that raise NV, and what each word lands. -/

namespace Sys2Proof.Machine

open Sys2Proof.Claims (Issues Reads lands active maskPoison shapeOf vr)

/-! ### Masks -/

theorem getLsbD_maskWord (c : Nat → Bool) (n : Nat) {i : Nat} (inside : i < 64) :
    (maskWord ((List.range n).map c)).getLsbD i = (decide (i < n) && c i) := by
  have bit := testBit_rowOfElems (((List.range n).map c).map fun b => if b then 1 else 0) i Nat.one_pos
  rw [one_mul, Nat.add_zero] at bit
  rw [maskWord, BitVec.getLsbD_ofNat, bit, decide_eq_true inside, Bool.true_and, List.getD_eq_getElem?_getD]
  by_cases listed : i < n
  · cases set : c i <;> simp [listed, set]
  · simp [listed]

/-- The first `n` bits (08 R216). -/
theorem getLsbD_ones (n : Nat) {i : Nat} (inside : i < 64) : (BitVec.ofNat 64 (2 ^ n - 1)).getLsbD i = decide (i < n) := by
  rw [BitVec.getLsbD_ofNat, Nat.testBit_two_pow_sub_one, decide_eq_true inside, Bool.true_and]

/-! ### Flags of comparisons -/

/-- Active elements that raise the same flags, or none, raise those where one of them does. -/
theorem activeFlags_eq {n : Nat} {act : Nat → Bool} {g : Nat → Flags} {fl : Flags} (each : ∀ i, g i = fl ∨ g i = 0)
    (one : ∃ i < n, act i = true ∧ g i = fl) : activeFlags n act g = fl := by
  obtain ⟨i, inside, set, raised⟩ := one
  refine BitVec.eq_of_getLsbD_eq fun j _ => ?_
  rw [getLsbD_activeFlags_and, Bool.eq_iff_iff, List.any_eq_true]
  constructor
  · rintro ⟨m, -, bit⟩
    rcases each m with same | none
    · simpa [same] using (Bool.and_eq_true_iff.mp bit).2
    · simp [none] at bit
  · exact fun bit => ⟨i, List.mem_range.mpr inside, by rw [set, raised, bit]; rfl⟩

theorem exists_shapeOf {f : Fmt} (vec : f.isVecFloat = true) : ∃ eb fb bias top, shapeOf f = some (eb, fb, bias, top) := by
  cases f <;> cases vec <;> exact ⟨_, _, _, _, rfl⟩

/-- In the formats of V only a pattern above the infinities reads as NaN. -/
theorem reads_nan_of_isNan {f : Fmt} (vec : f.isVecFloat = true) {n : Nat} (nan : isNan (vIn f n) = true) : Reads f n .nan := by
  obtain ⟨eb, fb, bias, top, shape⟩ := exists_shapeOf vec
  have narrow : f ≠ .e4m3 ∧ f ≠ .e2m1 := by constructor <;> rintro rfl <;> cases vec
  by_cases above : top < n % 2 ^ (eb + fb)
  · rw [vIn_of_special shape n above] at nan
    by_cases fraction : f = .e4m3 ∨ n % 2 ^ fb ≠ 0
    · exact .nan eb fb bias top shape above (fun h => fraction.resolve_left h) narrow.2
    · rw [if_neg fraction] at nan
      cases nan
  · have number := stands_vIn (.fin eb fb bias top shape (not_lt.mp above)) shape
      (Nat.sub_add_cancel (by cases f <;> cases vec <;> cases shape <;> decide : 1 ≤ bias + fb)).symm
    rw [number.isNan_eq] at nan
    cases nan

/-- A comparison raises NV of a NaN under the ordered conditions (08 R210). -/
theorem fCmp_flags_invalid {f : Fmt} {a b : Nat} {cond : Cond} (ordered : cond ∈ [Cond.lt, .le, .gt, .ge])
    (nan : Reads f a .nan ∨ Reads f b .nan) : (fCmp f cond a b).2 = 0b10000 := by
  rw [fCmp_nan nan, if_pos ordered]

theorem fCmp_flags_quiet {f : Fmt} (vec : f.isVecFloat = true) {a b : Nat} {cond : Cond}
    (quiet : ¬ (cond ∈ [Cond.lt, .le, .gt, .ge] ∧ (Reads f a .nan ∨ Reads f b .nan))) : (fCmp f cond a b).2 = 0 := by
  by_cases nan : Reads f a .nan ∨ Reads f b .nan
  · rw [fCmp_nan nan, if_neg fun ordered => quiet ⟨ordered, nan⟩]
  · have numbers : (isNan (vIn f a) || isNan (vIn f b)) = false := by
      rw [Bool.or_eq_false_iff, Bool.eq_false_iff, Bool.eq_false_iff]
      exact ⟨fun h => nan (.inl (reads_nan_of_isNan vec h)), fun h => nan (.inr (reads_nan_of_isNan vec h))⟩
    simp [fCmp, numbers]

/-! ### The words -/

theorem State.laterFlags_eq (t : State) (x : Ctx) (n : Nat) (fl : Flags) (p : Bool) :
    t.laterFlags x n fl p = if p = true ∨ fl = 0 then t else t.later x n (.fflags fl) := by
  simp only [laterFlags, Bool.or_eq_true, beq_iff_eq]

section
variable {s t : State} {f : Frame} {x : Ctx} (h : Issues s f .v x t) (i : Instr) (kd : Num3) (a b : VReg) (k : Num3) {fmt : Fmt}
  (wide : fmt.bits ≠ 4)
include h wide

/-- A compare lands its mask, and the flags of the active elements. -/
theorem vecCmp_of_issues (g : Nat → Nat → Bool × Flags) :
    let r := fun i => g (elemOf fmt.bits (vr t x a).v i) (elemOf fmt.bits (vr t x b).v i)
    let p := (vr t x a).p || (vr t x b).p || maskPoison t x k
    vecCmp i f kd a b k fmt g s =
      (t.laterFlags x (x.t + 2) (activeFlags fmt.lanes (active t x k) fun i => (r i).2) p).later x (x.t + 2)
        (.k kd.val ⟨maskWord ((List.range fmt.lanes).map fun i => active t x k i && (r i).1), p⟩) := by
  rw [vecCmp, nativeWord_of_issues h]
  simp only [elemsOf_eq_map, zipWith_map_range, map_zipIdx_range, List.map_map, Function.comp_def, activeLane_maskOf,
    activeIn_of_wide _ _ _ wide, maskOf_poison]
  rfl

end

section
variable {s t : State} {f : Frame} {x : Ctx} (h : Issues s f .v x t) (kd : Num3) (a b : VReg) (k : Num3) {fmt : Fmt} (cond : Cond)
include h

/-- VCMPI raises no flags. -/
theorem exec_vcmpi_issues (vec : fmt.isVecInt = true) : exec (.vcmpi f kd a b k fmt cond) s =
    lands t x 2 (.k kd.val ⟨maskWord ((List.range fmt.lanes).map fun i => active t x k i &&
      iCmp cond (laneInt fmt (elemOf fmt.bits (vr t x a).v i)) (laneInt fmt (elemOf fmt.bits (vr t x b).v i))),
      (vr t x a).p || (vr t x b).p || maskPoison t x k⟩) := by
  have run := vecCmp_of_issues h (.vcmpi f kd a b k fmt cond) kd a b k (Fmt.wide_of_isVecInt vec)
    fun u v => (iCmp cond (laneInt fmt u) (laneInt fmt v), 0)
  simp only [activeFlags_eq_zero fun _ _ _ => rfl, State.laterFlags_zero] at run
  exact congrArg Host.Outcome.next run

theorem exec_vfcmp_issues (vec : fmt.isVecFloat = true) :
    let r := fun i => fCmp fmt cond (elemOf fmt.bits (vr t x a).v i) (elemOf fmt.bits (vr t x b).v i)
    let p := (vr t x a).p || (vr t x b).p || maskPoison t x k
    let fl := activeFlags fmt.lanes (active t x k) fun i => (r i).2
    exec (.vfcmp f kd a b k fmt cond) s = lands (if p = true ∨ fl = 0 then t else t.later x (x.t + 2) (.fflags fl)) x 2
      (.k kd.val ⟨maskWord ((List.range fmt.lanes).map fun i => active t x k i && (r i).1), p⟩) := by
  intro r p fl
  rw [← State.laterFlags_eq]
  exact congrArg Host.Outcome.next (vecCmp_of_issues h _ kd a b k (Fmt.wide_of_isVecFloat vec) (fCmp fmt cond))

theorem exec_kset_issues (n : BitVec 43) :
    exec (.kset f kd n) s = lands t x 1 (.k kd.val ⟨BitVec.ofNat 64 (2 ^ n.toNat - 1), false⟩) :=
  congrArg Host.Outcome.next (nativeWord_of_issues h)

theorem exec_klog_issues (ka kb : Num3) (op : Lop) : exec (.klog f kd ka kb op) s = lands t x 1
    (.k kd.val ⟨lopWord op ((t.core x.c).getK ka.val).v ((t.core x.c).getK kb.val).v,
      ((t.core x.c).getK ka.val).p || ((t.core x.c).getK kb.val).p⟩) :=
  congrArg Host.Outcome.next (nativeWord_of_issues h)

theorem exec_kcnt_issues (d : VReg) (ka : Num3) : exec (.kcnt f d ka) s = lands t x 2
    (.v d.val (BitVec.ofNat 512 ((List.range 64).filter ((t.core x.c).getK ka.val).v.getLsbD).length) (BitVec.allOnes 512)
      ((t.core x.c).getK ka.val).p) := by
  have count : popcount ((t.core x.c).getK ka.val).v.toNat 64 = ((List.range 64).filter ((t.core x.c).getK ka.val).v.getLsbD).length :=
    popcount_eq_length _ 64
  rw [← count]
  exact congrArg Host.Outcome.next (nativeWord_of_issues h)

end

end Sys2Proof.Machine

namespace Sys2Proof.Proofs

open Sys2Proof.Machine Sys2Proof.Claims

/-- Settles O32: the compares by the bits and the flags of their active elements. -/
theorem maskWords : Obligations.MaskWords := by
  refine ⟨fun s f x t kd a b k fmt cond h => ?_, fun s f x t kd ka kb d h => ⟨fun n _ => ⟨_, exec_kset_issues h kd n,
    fun i => getLsbD_ones n.toNat⟩, exec_klog_issues h kd ka kb .and, exec_klog_issues h kd ka kb .or, exec_klog_issues h kd ka kb .xor,
    exec_klog_issues h kd ka kb .andn, exec_kcnt_issues h d ka⟩⟩
  intro u v p
  refine ⟨fun vec => ⟨_, exec_vcmpi_issues h kd a b k cond vec, fun i inside => ?_⟩, fun vec => ?_⟩
  · rw [getLsbD_maskWord _ _ inside, Bool.and_assoc]
  refine ⟨_, _, exec_vfcmp_issues h kd a b k cond vec, ⟨fun invalid => ?_, fun valid => ?_⟩, fun i inside => ?_⟩
  · obtain ⟨ordered, i, inside, set, nan⟩ := invalid
    refine activeFlags_eq (fun j => ?_) ⟨i, inside, set, fCmp_flags_invalid ordered nan⟩
    by_cases raises : Reads fmt (u j) .nan ∨ Reads fmt (v j) .nan
    · exact .inl (fCmp_flags_invalid ordered raises)
    · exact .inr (fCmp_flags_quiet vec fun both => raises both.2)
  · exact activeFlags_eq_zero fun i inside set => fCmp_flags_quiet vec fun both => valid ⟨both.1, i, inside, set, both.2⟩
  · rw [getLsbD_maskWord _ _ inside, Bool.and_assoc]

end Sys2Proof.Proofs
end

section
/-! PROOF. Ring words (08 R203 to R205): the bank of a row in the ring store, and what each word puts on a track and takes of it. -/

namespace Sys2Proof.Machine

open Sys2Proof.Claims (Issues sameData vr)

/-! ### The bank of a row (07 R157) -/

section
variable (s : State) (core : Nat) (l : Lay) (stream : Nat) (cur : List Int)

/-- The place and the bank of a row are those of its first byte, whatever its elements raise. -/
theorem rowAt_own_bank :
    (s.rowAt core l stream cur).own = (if inRange l (l.byteOf (elemOffset l cur)) 64 then
      some (s.locOf core l (l.byteOf (elemOffset l cur)).toNat (cur.getD 1 0) 64) else none) ∧
    (s.rowAt core l stream cur).bank = (((l.byteOf (elemOffset l cur)).fdiv 64 + (l.skew : Int) * cur.getD 1 0) % 8).toNat := by
  unfold State.rowAt
  dsimp only
  repeat' split
  all_goals exact ⟨rfl, rfl⟩

/-- Whole rows of the ring store are those of their bank (07 R157). -/
theorem locOf_ring {b : Nat} {c1 : Int} {c off : Nat} (place : s.locOf core l b c1 64 = .ring c off) :
    off / 64 = 8 * (b / 64 / 8) + (((b / 64 : Nat) + (l.skew : Int) * c1) % 8).toNat := by
  have low : b % 64 < 64 := Nat.mod_lt _ (by decide)
  have offset : off = ringRow l (b / 64) c1 + b % 64 := by
    unfold State.locOf at place
    split at place
    next =>
      dsimp only at place
      split at place
      next => exact (Loc.ring.inj place).2.symm
      next => cases place
    next => cases place
    next => cases place
    next => split at place <;> cases place
    next => cases place
  rw [offset, ringRow]
  omega

theorem rowAt_bank_of_ring {c off : Nat} (place : (s.rowAt core l stream cur).own = some (.ring c off)) :
    off / 64 % 8 = (s.rowAt core l stream cur).bank := by
  obtain ⟨own, bank⟩ := rowAt_own_bank s core l stream cur
  rw [own] at place
  split at place
  next range =>
    have start : 0 ≤ l.byteOf (elemOffset l cur) := by
      simp only [inRange, Bool.and_eq_true, decide_eq_true_eq] at range
      exact range.1
    obtain ⟨b, first⟩ := Int.eq_ofNat_of_zero_le start
    have row := locOf_ring s core l (Option.some.inj place)
    rw [first, Int.toNat_natCast] at row
    rw [bank, first, Int.fdiv_eq_ediv_of_nonneg _ (by decide), row]
    push_cast
    omega
  next => cases place

end

/-! ### Work that a ring word puts in flight -/

/-- Two pieces of work, whatever else a word sets out beside them. -/
theorem sameData_sends {t v u : State} {p : Nat} {d e : Due} (sent : v = (t.addDue p d).addDue p e) (kept : DataKept v u)
    (work : WorkKept p v u) : sameData t u ∧ d ∈ (u.part p).pend ∧ e ∈ (u.part p).pend := by
  subst sent
  refine ⟨(((DataKept.addDue t p d).trans (.addDue _ p e)).trans kept).sameData, work d ?_, work e (mem_pend_addDue _ p e)⟩
  exact WorkKept.addDue _ p e d (mem_pend_addDue t p d)

theorem DataKept.addDueWhere (s : State) (b : Bool) (p : Nat) (d : Due) : DataKept s (if b then s.addDue p d else s) := by
  cases b
  · exact .refl s
  · exact .addDue s p d

theorem WorkKept.addDueWhere (s : State) (b : Bool) (p : Nat) (d : Due) : WorkKept p s (if b then s.addDue p d else s) := by
  cases b
  · exact .refl p s
  · exact .addDue s p d

section
variable {s t : State} {f : Frame} {x : Ctx} (h : Issues s f .v x t) (d : VReg) (n tk : Num4) (adv : Adv)
include h

/-- VRD sends its bank row on its way to stop 1, where it takes it (08 R203). -/
theorem exec_vrd_sends {w : PRow} (read : t.readBank x.p x.c (t.rowCheck x.c n).own (t.rowCheck x.c n).mask = w) :
    let stop := 2 * (t.rowCheck x.c n).bank
    ∃ u : State, exec (.vrd f d n tk adv) s = .next u ∧ sameData t u ∧
      ⟨x.t + 2, 0, x.who, .inject tk.val stop w.v w.p⟩ ∈ (u.part x.p).pend ∧
      ⟨x.t + 2 + transit stop 1 tk.val, samplePlace, x.who, .tapV d.val tk.val⟩ ∈ (u.part x.p).pend := by
  subst read
  refine ⟨_, congrArg Host.Outcome.next (nativeWord_of_issues h), ?_⟩
  exact sameData_sends rfl ((DataKept.addDueWhere _ _ _ _).trans (.advanceStream _ x n.val adv _ (handler_of_issues h)))
    ((WorkKept.addDueWhere _ _ _ _).trans (.advanceStream _ x n.val adv _ (handler_of_issues h)))

/-- VWR sends its register on its way from stop 1 to the bank, which takes it (08 R204). -/
theorem exec_vwr_sends {off : Option Nat} (place : ringOff (t.rowCheck x.c n).own = off) :
    let stop := 2 * (t.rowCheck x.c n).bank
    ∃ u : State, exec (.vwr f n d tk adv) s = .next u ∧ sameData t u ∧
      ⟨x.t + 1, 0, x.who, .inject tk.val 1 (vr t x d).v (vr t x d).p⟩ ∈ (u.part x.p).pend ∧
      ⟨x.t + 1 + transit 1 stop tk.val, samplePlace, x.who, .bankTake tk.val stop off (t.rowCheck x.c n).mask⟩ ∈ (u.part x.p).pend := by
  subst place
  refine ⟨_, congrArg Host.Outcome.next (nativeWord_of_issues h), ?_⟩
  exact sameData_sends rfl (.advanceStream _ x n.val adv _ (handler_of_issues h)) (.advanceStream _ x n.val adv _ (handler_of_issues h))

/-- What VTAP takes lands a tick later, and its core is as the taking leaves it (08 R205). -/
theorem exec_vtap_takes {k : Core} {v : PRow} (take : (t.core x.c).take tk.val 1 x.t = (k, v))
    (kept : DataKept t (t.setCore x.c k)) : ∃ u : State, exec (.vtap f d tk) s = .next u ∧ sameData t u ∧
      ⟨x.t + 1, 3, x.who, .v d.val v.v (BitVec.allOnes 512) v.p⟩ ∈ (u.part x.p).pend ∧ (u.core x.c).vstat = k.vstat := by
  have run : exec (.vtap f d tk) s = .next ((t.setCore x.c k).addDue x.p ⟨x.t + 1, 3, x.who, .v d.val v.v (BitVec.allOnes 512) v.p⟩) := by
    show execVtap f d tk s = _
    rw [execVtap, nativeWord_of_issues h]
    simp only [take]
    rw [State.later_word _ _ _ _ (handler_of_issues h), unit_of_issues_v h]
    rfl
  refine ⟨_, run, (kept.trans (.addDue _ _ _)).sameData, mem_pend_addDue _ _ _, congrArg Core.vstat (State.core_setCore t x.c k)⟩

theorem exec_vinj_issues : exec (.vinj f tk d) s =
    .next (t.addDue x.p ⟨x.t + 1, 0, x.who, .inject tk.val 1 (vr t x d).v (vr t x d).p⟩) :=
  congrArg Host.Outcome.next (nativeWord_of_issues h)

end

/-! ### Takings (08 R196) -/

theorem Core.take_word {k : Core} {tk stop n : Nat} {w : TrackWord} (found : k.trackAt tk stop n = some w) :
    k.take tk stop n = (k, ⟨w.v, w.p⟩) := by
  rw [take, found]

theorem Core.take_empty {k : Core} {tk stop n : Nat} (empty : k.trackAt tk stop n = none) :
    k.take tk stop n = (k.emptyTap tk, Pv.zero) := by
  rw [take, empty]

theorem DataKept.emptyTap (t : State) (c tk : Nat) : DataKept t (t.setCore c ((t.core c).emptyTap tk)) := by
  refine .setCore t c _ ?_
  unfold Core.emptyTap
  split <;> exact ⟨rfl, rfl, rfl, rfl, rfl, rfl, rfl, rfl⟩

end Sys2Proof.Machine

namespace Sys2Proof.Proofs

open Sys2Proof.Machine Sys2Proof.Claims

/-- Settles O33: VRD and VWR by what a bank row and its place are, VTAP by what stands at stop 1. -/
theorem ringWords : Obligations.RingWords := by
  intro s f x t d n tk adv h k row
  refine ⟨fun c off own => ⟨rowAt_bank_of_ring t _ _ _ _ own, ?_, ?_⟩, fun own => ⟨?_, ?_⟩, fun w found => ?_, fun empty => ?_,
    exec_vinj_issues h d tk⟩
  · have bytes : (t.readBank x.p x.c row.own row.mask).v = rowOfBytes (Memory.readBytes (t.core c).ring off 64) &&& row.mask := by
      rw [own, State.readBank]
    rw [← bytes]
    exact exec_vrd_sends h d n tk adv rfl
  · exact exec_vwr_sends h d n tk adv (congrArg ringOff own)
  · obtain ⟨u, run, kept, injects, -⟩ := exec_vrd_sends h d n tk adv (congrArg (t.readBank x.p x.c · row.mask) own)
    exact ⟨u, run, kept, injects⟩
  · obtain ⟨u, run, kept, -, takes⟩ := exec_vwr_sends h d n tk adv (congrArg ringOff own)
    exact ⟨u, run, kept, takes⟩
  · exact exec_vtap_takes h d tk (Core.take_word found) (.setCore t x.c _ ⟨rfl, rfl, rfl, rfl, rfl, rfl, rfl, rfl⟩)
  · obtain ⟨u, run, kept, lands, stat⟩ := exec_vtap_takes h d tk (Core.take_empty empty) (.emptyTap t x.c tk.val)
    exact ⟨u, run, kept, lands, by rw [stat, Core.emptyTap_bit]⟩

end Sys2Proof.Proofs
end

section
/-! PROOF. Element moves and permutes (08 R215): the element that VINS writes, the bytes that VSEL chooses, and what each word lands. -/

namespace Sys2Proof.Machine

open Sys2Proof.Claims (Issues active lands landsLanes maskPoison vr)

/-! ### One element of a row -/

/-- A number in element `n` of a row, with zeros in every other. -/
theorem rowOfElems_single (b n e : Nat) : rowOfElems b (List.replicate n 0 ++ [e]) = e % 2 ^ b * 2 ^ (b * n) := by
  induction n with
  | zero => simp [rowOfElems]
  | succ n ih =>
    rw [List.replicate_succ, List.cons_append, rowOfElems, ih, Nat.mul_succ, pow_add, Nat.zero_mod, Nat.zero_add]
    ring

theorem elemOf_single {f : Fmt} {e n : Nat} (small : e < 2 ^ f.bits) (inside : n < f.lanes) (i : Nat) :
    elemOf f.bits (BitVec.ofNat 512 (e * 2 ^ (f.bits * n))) i = if i = n then e else 0 := by
  have row := rowOfElems_single f.bits n e
  rw [Nat.mod_eq_of_lt small] at row
  have fits : f.bits * (List.replicate n 0 ++ [e]).length ≤ 512 := by
    rw [List.length_append, List.length_replicate, List.length_singleton]
    exact (Nat.mul_le_mul_left _ inside).trans (Fmt.bits_mul_lanes_le f)
  rw [← row, elemOf_rowOfElems _ _ _ fits, List.getD_eq_getElem?_getD]
  rcases lt_trichotomy i n with below | same | above
  · simp [List.getElem?_append, below, below.ne]
  · simp [same, Nat.mod_eq_of_lt small]
  · have past : (List.replicate n 0 ++ [e])[i]? = none := List.getElem?_eq_none (by simpa using above)
    simp [past, above.ne']

/-! ### Bytes of a row -/

theorem getLsbD_rowByte (r : Row) (i : Nat) {j : Nat} (hj : j < 8) : (rowByte r i).getLsbD j = r.getLsbD (8 * i + j) := by
  rw [rowByte, BitVec.getLsbD_ofNat, decide_eq_true hj, Bool.true_and, Nat.testBit_div_two_pow, Nat.add_comm]
  rfl

/-- The bits that a byte of the mask selects are those of its own byte. -/
theorem getLsbD_byteMask (m : Word) {i j : Nat} (hi : i < 64) (hj : j < 8) : (byteMask m).getLsbD (8 * i + j) = m.getLsbD i := by
  have ones (n : Nat) : (BitVec.ofNat 512 (255 * 2 ^ (8 * n))).getLsbD (8 * i + j) = decide (n = i) := by
    have inside : 8 * i + j < 512 := by omega
    rw [BitVec.getLsbD_ofNat, decide_eq_true inside, Bool.true_and, Nat.testBit_mul_two_pow,
      show (255 : Nat) = 2 ^ 8 - 1 from rfl, Nat.testBit_two_pow_sub_one, Bool.eq_iff_iff]
    simp only [Bool.and_eq_true, decide_eq_true_eq]
    omega
  have selects (l : List Nat) (acc : Row) :
      (l.foldl (fun acc n => if m.getLsbD n then acc ||| BitVec.ofNat 512 (255 * 2 ^ (8 * n)) else acc) acc).getLsbD (8 * i + j) =
        (acc.getLsbD (8 * i + j) || (l.contains i && m.getLsbD i)) := by
    induction l generalizing acc with
    | nil => simp
    | cons n l ih =>
      rw [List.foldl_cons, ih, List.contains_cons]
      by_cases same : n = i
      · subst same
        cases set : m.getLsbD n <;> simp [ones]
      · have other : (i == n) = false := by simp [Ne.symm same]
        cases set : m.getLsbD n <;> simp [ones, same, other]
  rw [byteMask, selects]
  simp [hi]

/-- A byte of two rows under a byte mask is that of one of them. -/
theorem rowByte_mergeRow (m : Word) (old new : Row) {i : Nat} (hi : i < 64) :
    rowByte (mergeRow (byteMask m) old new) i = if m.getLsbD i then rowByte new i else rowByte old i := by
  refine BitVec.eq_of_getLsbD_eq fun j hj => ?_
  rw [getLsbD_rowByte _ _ hj, getLsbD_mergeRow, getLsbD_byteMask m hi hj]
  split <;> rw [getLsbD_rowByte _ _ hj]

/-! ### The words -/

section
variable {s t : State} {f : Frame} {x : Ctx} (h : Issues s f .v x t) (d a b : VReg) (k : Num3) {fmt : Fmt}
include h

theorem landsLanes_vperm (wide : fmt.bits ≠ 4) : landsLanes (exec (.vperm f d a b k fmt) s) t x 3 d fmt k
    ((vr t x a).p || (vr t x b).p || maskPoison t x k)
    fun i => elemOf fmt.bits (vr t x a).v (elemOf fmt.bits (vr t x b).v i % fmt.lanes) := by
  show landsLanes (execVperm f d a b k fmt s) _ _ _ _ _ _ _ _
  rw [execVperm, nativeWord_of_issues h]
  simp only [elemsOf_eq_map, List.map_map]
  exact landsLanes_landLanes wide t 3 d k _ (handler_of_issues h) _

/-- An unmasked move lands every element of its register anew. -/
theorem exec_vecMove (i : Instr) {g : Row → Nat → Nat} {r : Nat → Nat} (value : ∀ j, g (vr t x a).v j = r j)
    (small : ∀ j, r j < 2 ^ fmt.bits) : ∃ val : Row,
      .next (vecMove i f d a fmt g s) = lands t x 3 (.v d.val val (BitVec.allOnes 512) (vr t x a).p) ∧
      ∀ j < fmt.lanes, elemOf fmt.bits val j = r j := by
  refine ⟨_, congrArg Host.Outcome.next (nativeWord_of_issues h), fun j inside => ?_⟩
  rw [elemOf_row_lanes _ inside, ← Nat.mod_eq_of_lt (small j), ← value j]
  rfl

theorem exec_vins_issues (n : BitVec 31) : exec (.vins f d a fmt n) s = lands t x 3 (.v d.val
    (BitVec.ofNat 512 (elemOf fmt.bits (vr t x a).v 0 * 2 ^ (fmt.bits * n.toNat)))
    (BitVec.ofNat 512 ((2 ^ fmt.bits - 1) * 2 ^ (fmt.bits * n.toNat))) (vr t x a).p) :=
  congrArg Host.Outcome.next (nativeWord_of_issues h)

theorem exec_vsel_issues : exec (.vsel f d a b k) s = lands t x 3 (.v d.val
    (if k.val = 0 then (vr t x a).v else mergeRow (byteMask ((t.core x.c).getK k.val).v) (vr t x b).v (vr t x a).v)
    (BitVec.allOnes 512) ((vr t x a).p || (vr t x b).p || ((t.core x.c).getK k.val).p)) :=
  congrArg Host.Outcome.next (nativeWord_of_issues h)

end

end Sys2Proof.Machine

namespace Sys2Proof.Proofs

open Sys2Proof.Machine Sys2Proof.Claims

/-- Settles O34: the whole moves by the element that each place takes, VINS by its one element, VSEL byte by byte. -/
theorem vectorMoves : Obligations.VectorMoves := by
  intro s f x t d a b k fmt h move u whole
  have small (i : Nat) : u i < 2 ^ fmt.bits := elemOf_lt _ _ _
  have pos : 0 < 2 ^ fmt.bits := Nat.two_pow_pos _
  refine ⟨landsLanes_vperm h d a b k (Fmt.wide_of_isMove move), fun n => ?slide,
    fun n => exec_vecMove h d a _ (fun _ => rfl) fun _ => small _, fun n => exec_vecMove h d a _ (fun _ => rfl) fun j => ?ext,
    fun n inside => ⟨_, _, exec_vins_issues h d a n, fun i _ => ⟨?ones, ?elem⟩⟩, _, exec_vsel_issues h d a b k, fun i inside => ?sel⟩
  case slide =>
    refine exec_vecMove h d a _ (fun j => ?_) fun j => ?_
    · simp only [Bool.and_eq_true, decide_eq_true_eq]
      rfl
    · split
      · exact small _
      · exact pos
  case ext =>
    split
    · exact small _
    · exact pos
  case ones => exact elemOf_single (Nat.sub_lt pos Nat.one_pos) inside i
  case elem => exact fun same => (elemOf_single (small 0) inside i).trans (if_pos same)
  case sel =>
    by_cases first : k.val = 0
    · simp [active, first]
    · simp [active, first, rowByte_mergeRow _ _ _ inside]

end Sys2Proof.Proofs
end

section
/-! PROOF. Conversion, quantisation, decoding and reduction (08 R211 to R214): the elements that each word makes, and what it lands. -/

namespace Sys2Proof.Machine

open Sys2Proof.Claims (Issues activeIn lands maskPoison vr)

/-! ### Conversion (08 R211) -/

theorem take_elemsOf {f : Fmt} {n : Nat} (inside : n ≤ f.lanes) (r : Row) :
    (elemsOf f.bits r).take n = (List.range n).map (elemOf f.bits r) := by
  rw [elemsOf_eq_map, ← List.map_take, List.take_range, Nat.min_eq_left inside]

/-- What a VCVT makes of element `i`. -/
def converted (dst src : Fmt) (rm : Rm) (slot : NoiseSlot) (u : Row) (i : Nat) : Nat × Flags :=
  convert dst src rm (stoDraw rm slot i) (elemOf src.bits u i)

/-- The mask of a VCVT of `n` elements: those that are active, and every element above them (log entry 22). -/
def cvtMask (dst : Fmt) (n : Nat) (act : Nat → Bool) : Row :=
  BitVec.ofNat 512 (rowOfElems dst.bits ((List.range dst.lanes).map fun i => if n ≤ i || act i then 2 ^ dst.bits - 1 else 0))

theorem elemOf_cvtMask {dst : Fmt} (n : Nat) (act : Nat → Bool) {i : Nat} (inside : i < dst.lanes) :
    elemOf dst.bits (cvtMask dst n act) i = if n ≤ i ∨ act i = true then 2 ^ dst.bits - 1 else 0 := by
  rw [cvtMask, elemOf_row_lanes _ inside, ones_mod]
  simp only [Bool.or_eq_true, decide_eq_true_eq]

/-! ### Decoding (08 R213) -/

theorem length_dqValues {src : Fmt} (dq : src.isDqSrc = true) (r : Row) : (dqValues src r).length = 32 := by
  cases src with
  | mxfp8e4m3 | mxfp8e5m2 | mxfp4 | mxint8 | kc2 | dev8 => rfl
  | _ => cases dq

/-- Elements of a row of at most as many values as it has room for. -/
theorem elemOf_row_values {b : Nat} {l : List Nat} {n : Nat} (short : l.length ≤ n) (fits : b * n ≤ 512) (i : Nat) :
    elemOf b (BitVec.ofNat 512 (rowOfElems b l)) i = l.getD i 0 % 2 ^ b :=
  elemOf_rowOfElems b l i ((Nat.mul_le_mul_left b short).trans fits)

theorem getD_take {l : List Nat} {n i : Nat} (inside : i < n) : (l.take n).getD i 0 = l.getD i 0 := by
  simp [List.getD_eq_getElem?_getD, inside]

theorem getD_drop (l : List Nat) (n i : Nat) : (l.drop n).getD i 0 = l.getD (i + n) 0 := by
  simp [List.getD_eq_getElem?_getD, Nat.add_comm]

/-! ### The words -/

section
variable {s t : State} {f : Frame} {x : Ctx} (h : Issues s f .v x t) (d a : VReg) (k ns : Num3) (dst src : Fmt) (rm : Rm)
include h

theorem exec_vcvt_issues : let n := min src.lanes dst.lanes
    let c := converted dst src rm ((t.core x.c).getNs ns.val) (vr t x a).v
    let p := (vr t x a).p || maskPoison t x k
    exec (.vcvt f d a k dst src rm ns) s =
      lands ((t.drawn x.c ns.val rm n).laterFlags x (x.t + 4) (activeFlags n (activeIn t x k dst) fun i => (c i).2) p) x 4
        (.v d.val (BitVec.ofNat 512 (rowOfElems dst.bits ((List.range n).map fun i => (c i).1))) (cvtMask dst n (activeIn t x k dst)) p) := by
  show execVcvt f d a k dst src rm ns s = _
  rw [execVcvt, nativeWord_of_issues h]
  simp only [State.drawSto_eq, take_elemsOf (Nat.min_le_left src.lanes dst.lanes), zipWith_map_range, map_zipIdx_range, List.map_map,
    activeLane_maskOf, maskOf_poison]
  rfl

theorem exec_vqmx_issues : let u := vr t x a
    let w := (t.core x.c).getV ((a.val + 1) % 32)
    let planes := (t.core x.c).qp
    let q := quantMx dst ((elemsOf 32 u.v ++ elemsOf 32 w.v).map (vIn .fp32)) rm (if planes = 0 then 8 else planes)
      ((List.range 32).map (stoDraw rm ((t.core x.c).getNs ns.val)))
    exec (.vqmx f d a dst rm ns) s = lands ((t.drawn x.c ns.val rm 32).laterFlags x (x.t + 4) q.2.2 (u.p || w.p)) x 4
      (.v d.val (BitVec.ofNat 512 (rowOfElems dst.bits q.2.1 + q.1 * 2 ^ 256)) (BitVec.allOnes 512) (u.p || w.p)) := by
  show execVqmx f d a dst rm ns s = _
  rw [execVqmx, nativeWord_of_issues h]
  simp only [State.drawSto_eq]
  rfl

/-- The values that a VDQ decodes, rounded into its destination. -/
def decoded (dst src : Fmt) (r : Row) : List (Nat × Flags) := (dqValues src r).map fun q => vOut dst q .rne 0

omit h in
theorem length_decoded (dq : src.isDqSrc = true) (r : Row) : ((decoded dst src r).map (·.1)).length = 32 := by
  rw [List.length_map, decoded, List.length_map, length_dqValues dq]

theorem exec_vdq_bf16 : let q := decoded .bf16 src (vr t x a).v
    exec (.vdq f d a .bf16 src) s = lands (t.laterFlags x (x.t + 4) (orFlags (q.map (·.2))) (vr t x a).p) x 4
      (.v d.val (BitVec.ofNat 512 (rowOfElems 16 ((q.map (·.1)).take 32))) (BitVec.allOnes 512) (vr t x a).p) :=
  congrArg Host.Outcome.next (nativeWord_of_issues h)

theorem exec_vdq_fp32 : let q := decoded .fp32 src (vr t x a).v
    exec (.vdq f d a .fp32 src) s = lands ((t.laterFlags x (x.t + 4) (orFlags (q.map (·.2))) (vr t x a).p).later x (x.t + 4)
      (.v d.val (BitVec.ofNat 512 (rowOfElems 32 ((q.map (·.1)).take 16))) (BitVec.allOnes 512) (vr t x a).p)) x 4
      (.v ((d.val + 1) % 32) (BitVec.ofNat 512 (rowOfElems 32 ((q.map (·.1)).drop 16))) (BitVec.allOnes 512) (vr t x a).p) :=
  congrArg Host.Outcome.next (nativeWord_of_issues h)

theorem exec_vred_issues (red : Red) : let p := (vr t x a).p || maskPoison t x k
    let r := reduce dst red ((elemsOf dst.bits (vr t x a).v).zipIdx.map fun (e, i) => (e, activeIn t x k dst i))
    exec (.vred f d a k dst red) s = lands (t.laterFlags x (x.t + 6) r.2 p) x 6
      (.v d.val (BitVec.ofNat 512 r.1) (BitVec.allOnes 512) p) := by
  show execVred f d a k dst red s = _
  rw [execVred, nativeWord_of_issues h]
  simp only [activeLane_maskOf, maskOf_poison]
  rfl

end

end Sys2Proof.Machine
end

section
/-! PROOF. Random draws (08 R219, R220): the block that each active slot of a VRNG draws, and what the word lands. -/

namespace Sys2Proof.Machine

open Sys2Proof.Claims (Issues active lands maskPoison vr)

/-! ### Blocks -/

/-- How many slots below slot `i` are active. -/
def activeBefore (act : Nat → Bool) (i : Nat) : Nat := ((List.range i).filter act).length

theorem activeBefore_succ (act : Nat → Bool) (i : Nat) : activeBefore act (i + 1) = activeBefore act i + if act i then 1 else 0 := by
  rw [activeBefore, List.range_succ, List.filter_append, List.length_append, activeBefore]
  cases set : act i <;> simp [set]

/-- The block of an active slot: the one that its index names, or the next in the order of the active slots. -/
def slotDraw (slot : NoiseSlot) (idx : Option (Nat → Int)) (act : Nat → Bool) (i : Nat) : Nat :=
  match idx with
  | some r => slotBlock slot (r i)
  | none => slotBlock slot (activeBefore act i)

theorem drawBlocks_range' (slot : NoiseSlot) (idx : Option (Nat → Int)) (act : Nat → Bool) (n i : Nat) :
    drawBlocks slot idx (activeBefore act i) ((List.range' i n).map act) (List.range' i n) =
      (List.range' i n).map fun j => if act j then slotDraw slot idx act j else 0 := by
  induction n generalizing i with
  | zero => rfl
  | succ n ih =>
    have rest := ih (i + 1)
    rw [activeBefore_succ] at rest
    rw [List.range'_succ, List.map_cons, List.map_cons]
    cases set : act i
    · rw [set] at rest
      exact congrArg (List.cons 0) rest
    · rw [set] at rest
      exact congrArg (List.cons (slotDraw slot idx act i)) rest

theorem drawBlocks_range (slot : NoiseSlot) (idx : Option (Nat → Int)) (act : Nat → Bool) (n : Nat) :
    drawBlocks slot idx 0 ((List.range n).map act) (List.range n) =
      (List.range n).map fun j => if act j then slotDraw slot idx act j else 0 := by
  rw [List.range_eq_range']
  exact drawBlocks_range' slot idx act n 0

/-! ### Slots of a register -/

/-- The slots of a register of draws. -/
def drawSlots (dist : Dist) : Nat := if dist = .raw then 4 else 16

theorem drawBits_eq (dist : Dist) : drawBits dist = if dist = .raw then 128 else 32 := by
  cases dist <;> rfl

theorem drawBits_mul_drawSlots (dist : Dist) : drawBits dist * drawSlots dist ≤ 512 := by
  cases dist <;> decide

theorem drawIndex_eq (dist : Dist) (r : Row) (i : Nat) : drawIndex dist r i =
    if dist = .raw ∧ 2 ^ 31 ≤ elemOf 32 r i then (elemOf 32 r i : Int) - 2 ^ 32 else (elemOf 32 r i : Int) := by
  simp only [drawIndex, Bool.and_eq_true, beq_iff_eq, decide_eq_true_eq]

/-- The draws of the active slots of a register, with no value of the others. -/
def drawRow (dist : Dist) (act : Nat → Bool) (block : Nat → Nat) : Row :=
  BitVec.ofNat 512 (rowOfElems (drawBits dist) ((List.range (drawSlots dist)).map fun i => drawValue dist (if act i then block i else 0)))

def drawMask (dist : Dist) (act : Nat → Bool) : Row :=
  BitVec.ofNat 512 (rowOfElems (drawBits dist) ((List.range (drawSlots dist)).map fun i => if act i then 2 ^ drawBits dist - 1 else 0))

section
variable {dist : Dist} {act : Nat → Bool} {i : Nat} (inside : i < drawSlots dist)
include inside

theorem elemOf_drawMask : elemOf (drawBits dist) (drawMask dist act) i = if act i then 2 ^ drawBits dist - 1 else 0 := by
  rw [drawMask, elemOf_row_map (drawBits_mul_drawSlots dist), if_pos inside, ones_mod]

theorem elemOf_drawRow (block : Nat → Nat) (set : act i = true) :
    elemOf (drawBits dist) (drawRow dist act block) i = drawValue dist (block i) % 2 ^ drawBits dist := by
  rw [drawRow, elemOf_row_map (drawBits_mul_drawSlots dist), if_pos inside, if_pos set]

end

/-! ### The word -/

theorem active_maskOf (t : State) (x : Ctx) (k : Num3) (i : Nat) :
    (if k.val = 0 then true else ((t.core x.c).maskOf k.val).v.getLsbD i) = active t x k i := by
  unfold Core.maskOf active
  by_cases zero : k.val = 0 <;> simp [zero]

/-- A sequential VRNG counts its slot on by the active ones; an indexed one leaves it (08 R220). -/
theorem exec_vrng_issues {s t : State} {f : Frame} {x : Ctx} (h : Issues s f .v x t) (d a : VReg) (ns k : Num3) (fmt : Fmt) (dist : Dist)
    (idx : Bool) : let slot := (t.core x.c).getNs ns.val
    let act := active t x k
    exec (.vrng f d a ns k fmt dist idx) s =
      lands (if idx then t else t.modCore x.c fun c => c.setNs ns.val (slotAfter slot (activeBefore act (drawSlots dist)))) x 6
        (.v d.val (drawRow dist act (slotDraw slot (if idx then some (drawIndex dist (vr t x a).v) else none) act)) (drawMask dist act)
          ((idx && (vr t x a).p) || maskPoison t x k)) := by
  have count (n : Nat) : (((List.range n).map (active t x k)).filter id).length = activeBefore (active t x k) n := by
    rw [List.filter_map, List.length_map]
    rfl
  show execVrng f d a ns k fmt dist idx s = _
  rw [execVrng, nativeWord_of_issues h]
  simp only [active_maskOf, maskOf_poison, drawBlocks_range, List.map_map, count, beq_iff_eq]
  rfl

end Sys2Proof.Machine

namespace Sys2Proof.Proofs

open Sys2Proof.Machine Sys2Proof.Claims

/-- Settles O35: each word by what it lands, the conversions and the draws element by element. -/
theorem vectorConversionsAndDraws : Obligations.VectorConversionsAndDraws := by
  refine ⟨fun s f x t d a k ns dst src rm h => ?_, fun s f x t d a ns k fmt dist h => ?_⟩
  · intro u p slot draw drawn any n
    refine ⟨fun _ _ => ⟨_, _, _, exec_vcvt_issues h d a k ns dst src rm, fun i inside => ⟨?_, elemOf_cvtMask n _ inside⟩, fun j _ =>
      getLsbD_activeFlags _ _ _ j⟩, exec_vqmx_issues h d a ns dst rm, fun dq => ?_, fun dq => ?_, exec_vred_issues h d a k dst⟩
    · have fits : dst.bits * n ≤ 512 := (Nat.mul_le_mul_left _ (Nat.min_le_right ..)).trans (Fmt.bits_mul_lanes_le dst)
      exact elemOf_row_map fits _ i
    · refine ⟨_, _, exec_vdq_bf16 h d a src, fun i inside => ?_, fun j _ => ?_⟩
      · rw [elemOf_row_values (List.length_take_le 32 _) (by decide), getD_take inside]
        rfl
      · rw [getLsbD_orFlags, List.any_map]
        rfl
    · have short : (((decoded .fp32 src u).map (·.1)).drop 16).length ≤ 16 := by rw [List.length_drop, length_decoded _ _ dq]
      refine ⟨_, _, _, exec_vdq_fp32 h d a src, fun i inside => ⟨?_, ?_⟩, fun j _ => ?_⟩
      · rw [elemOf_row_values (List.length_take_le 16 _) (by decide), getD_take inside]
        rfl
      · rw [elemOf_row_values short (by decide), getD_drop]
        rfl
      · rw [getLsbD_orFlags, List.any_map]
        rfl
  · intro slot before m b index holds
    have bits : drawBits dist = b := drawBits_eq dist
    have draws (idx : Option (Nat → Int)) {block : Nat → Nat} (same : ∀ i, slotDraw slot idx (active t x k) i = block i) :
        holds (drawRow dist (active t x k) (slotDraw slot idx (active t x k))) (drawMask dist (active t x k)) block := by
      intro i inside
      rw [← bits, ← same i]
      exact ⟨elemOf_drawMask inside, elemOf_drawRow inside _⟩
    exact ⟨⟨_, _, exec_vrng_issues h d a ns k fmt dist false, draws none fun _ => rfl⟩,
      ⟨_, _, exec_vrng_issues h d a ns k fmt dist true, draws (some _) fun i => congrArg (slotBlock slot) (drawIndex_eq dist _ i)⟩⟩

end Sys2Proof.Proofs
end

section
/-! PROOF. Sub-arrays of a core: what an update of some of them leaves alone, and what a word that goes through the sub-arrays it
names does to each of them (10 R228). -/

namespace Sys2Proof.Machine

open Sys2Proof.Claims (Issues sameData)

/-! ### Sub-arrays -/

theorem Core.getSa_setSa_ne (k : Core) {i j : Nat} (a : SubArray) (h : j ≠ i) : (k.setSa i a).getSa j = k.getSa j :=
  tget_tput_ne _ _ _ h

theorem Core.getSa_modSa_ne (k : Core) {i j : Nat} (f : SubArray → SubArray) (h : j ≠ i) : (k.modSa i f).getSa j = k.getSa j :=
  k.getSa_setSa_ne _ h

/-- An update of every sub-array of a list. -/
theorem Core.getSa_foldl_modSa (f : SubArray → SubArray) {l : List Nat} (nodup : l.Nodup) (k : Core) (j : Nat) :
    (l.foldl (fun k i => k.modSa i f) k).getSa j = if j ∈ l then f (k.getSa j) else k.getSa j :=
  foldl_each (fun k i => k.modSa i f) (fun i k => k.getSa i) (fun _ => f) (fun _ => True) (fun k i _ => k.getSa_modSa i f)
    (fun k _ _ _ _ other => k.getSa_modSa_ne f other) l k nodup (fun _ _ => trivial) j trivial

theorem selected_nodup (sa : SaMask) : (selected sa).Nodup := List.nodup_range.filter _

theorem unit_of_issues_m {s t : State} {f : Frame} {x : Ctx} (h : Issues s f .m x t) : unitPlace x.who.unit = 4 := by
  obtain ⟨p, c, l, -, -, -⟩ := h
  rfl

/-! ### One sub-array -/

/-- `u` is `s` with sub-array `i` of core `x.c` now `a` and the work `ds` in flight: data, queues and the other sub-arrays are as they
were. -/
structure SaMoved (x : Ctx) (i : Nat) (a : SubArray) (ds : List Due) (s u : State) : Prop where
  data : DataKept s u
  queues : (u.core x.c).queues = (s.core x.c).queues
  work : WorkKept x.p s u
  others : ∀ j ≠ i, (u.core x.c).getSa j = (s.core x.c).getSa j
  own : (u.core x.c).getSa i = a
  made : ∀ d ∈ ds, d ∈ (u.part x.p).pend

section
variable {x : Ctx} {i : Nat} {a : SubArray} {ds : List Due} {s u : State}

theorem SaMoved.start (s : State) (x : Ctx) (i : Nat) : SaMoved x i ((s.core x.c).getSa i) [] s s :=
  ⟨.refl s, rfl, .refl x.p s, fun _ _ => rfl, rfl, fun _ h => nomatch h⟩

theorem SaMoved.modSa (s : State) (x : Ctx) (i : Nat) (f : SubArray → SubArray) :
    SaMoved x i (f ((s.core x.c).getSa i)) [] s (s.modCore x.c fun k => k.modSa i f) where
  data := .modCore s x.c _ fun _ => ⟨rfl, rfl, rfl, rfl, rfl, rfl, rfl, rfl⟩
  queues := by rw [State.core_modCore]; rfl
  work := .of_parts rfl
  others j h := by rw [State.core_modCore, Core.getSa_modSa_ne _ _ h]
  own := by rw [State.core_modCore, Core.getSa_modSa]
  made _ h := nomatch h

theorem SaMoved.addDue (h : SaMoved x i a ds s u) (d : Due) : SaMoved x i a (d :: ds) s (u.addDue x.p d) where
  data := h.data.trans (.addDue u x.p d)
  queues := h.queues
  work := h.work.trans (.addDue u x.p d)
  others := h.others
  own := h.own
  made e he := (State.mem_addDue u x.p d e).mpr ((List.mem_cons.mp he).imp_right (h.made e))

theorem SaMoved.later (h : SaMoved x i a ds s u) (run : x.handler = false) (n : Nat) (act : Act) :
    SaMoved x i a (⟨n, unitPlace x.who.unit, x.who, act⟩ :: ds) s (u.later x n act) := by
  rw [State.later_word u x n act run]
  exact h.addDue _

end

/-! ### Every sub-array of a list -/

/-- `u` is `s` with each sub-array of `l` moved on by `f` and its work `w` in flight. -/
structure EachMoved (x : Ctx) (l : List Nat) (f : Nat → SubArray → SubArray) (w : Nat → SubArray → List Due) (s u : State) :
    Prop where
  data : DataKept s u
  queues : (u.core x.c).queues = (s.core x.c).queues
  work : WorkKept x.p s u
  rest : ∀ j ∉ l, (u.core x.c).getSa j = (s.core x.c).getSa j
  own : ∀ i ∈ l, (u.core x.c).getSa i = f i ((s.core x.c).getSa i)
  made : ∀ i ∈ l, ∀ d ∈ w i ((s.core x.c).getSa i), d ∈ (u.part x.p).pend

section
variable {x : Ctx} {l : List Nat} {f : Nat → SubArray → SubArray} {w : Nat → SubArray → List Due}

/-- A word that goes through a list of sub-arrays, and at each changes that one only, moves each of them once. -/
theorem EachMoved.foldl {step : State → Nat → State}
    (each : ∀ s i, SaMoved x i (f i ((s.core x.c).getSa i)) (w i ((s.core x.c).getSa i)) s (step s i)) (nodup : l.Nodup) (s : State) :
    EachMoved x l f w s (l.foldl step s) := by
  induction l generalizing s with
  | nil => exact ⟨.refl s, rfl, .refl x.p s, fun _ _ => rfl, (fun _ h => nomatch h), (fun _ h => nomatch h)⟩
  | cons i l ih =>
    obtain ⟨fresh, nodup⟩ := List.nodup_cons.mp nodup
    have first := each s i
    have later := ih nodup (step s i)
    have same {j : Nat} (h : j ∈ l) : ((step s i).core x.c).getSa j = (s.core x.c).getSa j :=
      first.others j fun e => fresh (e ▸ h)
    refine ⟨first.data.trans later.data, later.queues.trans first.queues, first.work.trans later.work, fun j h => ?_, fun j h => ?_,
      fun j h d hd => ?_⟩
    · obtain ⟨other, outside⟩ := not_or.mp (mt List.mem_cons.mpr h)
      exact (later.rest j outside).trans (first.others j other)
    · rcases List.mem_cons.mp h with rfl | h
      · exact (later.rest j fresh).trans first.own
      · rw [← same h]
        exact later.own j h
    · rcases List.mem_cons.mp h with rfl | h
      · exact later.work d (first.made d hd)
      · rw [← same h] at hd
        exact later.made j h d hd

/-- The sub-arrays that a word names, named and then moved on. -/
theorem EachMoved.named {t u : State} (nodup : l.Nodup) (h : EachMoved x l f w (t.modCore x.c fun k => k.nameAll l x.t) u) :
    EachMoved x l (fun i a => f i (a.name x.t)) (fun i a => w i (a.name x.t)) t u := by
  have sub (j : Nat) : ((t.modCore x.c fun k => k.nameAll l x.t).core x.c).getSa j =
      if j ∈ l then ((t.core x.c).getSa j).name x.t else (t.core x.c).getSa j := by
    rw [State.core_modCore]
    exact Core.getSa_foldl_modSa _ nodup _ j
  obtain ⟨sa, kept⟩ := t.modCore_foldl_modSa x.c (fun a => a.name x.t) l
  have kept : (t.modCore x.c fun k => k.nameAll l x.t) = t.withSa x.c sa := kept
  have data : DataKept t (t.modCore x.c fun k => k.nameAll l x.t) := kept ▸ DataKept.withSa t x.c sa
  have queues : ((t.modCore x.c fun k => k.nameAll l x.t).core x.c).queues = (t.core x.c).queues := by
    rw [kept, State.withSa, State.core_modCore]
  refine ⟨data.trans h.data, h.queues.trans queues, h.work, fun j outside => ?_, fun i inside => ?_, fun i inside d hd => ?_⟩
  · rw [h.rest j outside, sub, if_neg outside]
  · rw [h.own i inside, sub, if_pos inside]
  · refine h.made i inside d ?_
    rwa [sub, if_pos inside]

/-- Such a word in the terms of its mask, seen from a state `t` with the same data and sub-arrays. -/
theorem EachMoved.masked {sa : SaMask} {t v u : State} (h : EachMoved x (selected sa) f w v u) (data : DataKept t v)
    (same : ∀ i, (v.core x.c).getSa i = (t.core x.c).getSa i) : sameData t u ∧
      (∀ i < 4, sa.getLsbD i = false → (u.core x.c).getSa i = (t.core x.c).getSa i) ∧
      ∀ i < 4, sa.getLsbD i = true → (u.core x.c).getSa i = f i ((t.core x.c).getSa i) ∧
        ∀ d ∈ w i ((t.core x.c).getSa i), d ∈ (u.part x.p).pend := by
  refine ⟨(data.trans h.data).sameData, fun i _ left => (h.rest i fun inside => ?_).trans (same i), fun i low named => ?_⟩
  · exact Bool.false_ne_true (left.symm.trans (mem_selected.mp inside).2)
  · have inside := mem_selected.mpr ⟨low, named⟩
    rw [← same i]
    exact ⟨h.own i inside, h.made i inside⟩

end

end Sys2Proof.Machine
end

section
/-! PROOF. MCFG, MACZ, MPRO, MWAKE, MSLEEP and MSTAT (10 R236, R237, R241 to R244): what each sets in flight, and what the power words do
at their issue. -/

namespace Sys2Proof.Machine

open Sys2Proof.Claims (Issues sameData)

/-- In `u` the word at `x` has named the sub-arrays of its mask, an act of each lands at the next tick, and the others are as in `t`. -/
def landsEach (t u : State) (x : Ctx) (sa : SaMask) (act : Nat → Act) : Prop :=
  sameData t u ∧
    (∀ i < 4, sa.getLsbD i = true → ⟨x.t + 1, 4, x.who, act i⟩ ∈ (u.part x.p).pend ∧
      (u.core x.c).getSa i = { (t.core x.c).getSa i with used := x.t, idle := 0 }) ∧
    ∀ i < 4, sa.getLsbD i = false → (u.core x.c).getSa i = (t.core x.c).getSa i

section
variable {s t : State} {f : Frame} {x : Ctx} (h : Issues s f .m x t) (sa : SaMask)
include h

theorem landsEach_of_fold (act : Nat → SubArray → Act) (cfg : ∀ i a, act i (a.name x.t) = act i a) :
    landsEach t ((selected sa).foldl (fun s i => s.later x (x.t + 1) (act i ((s.core x.c).getSa i)))
      (t.modCore x.c fun k => k.nameAll (selected sa) x.t)) x sa fun i => act i ((t.core x.c).getSa i) := by
  have each := EachMoved.foldl (f := fun _ a => a) (w := fun i a => [⟨x.t + 1, unitPlace x.who.unit, x.who, act i a⟩])
    (fun s i => (SaMoved.start s x i).later (handler_of_issues h) (x.t + 1) (act i ((s.core x.c).getSa i))) (selected_nodup sa)
    (t.modCore x.c fun k => k.nameAll (selected sa) x.t)
  obtain ⟨data, rest, own⟩ := (each.named (selected_nodup sa)).masked (.refl t) fun _ => rfl
  refine ⟨data, fun i low named => ?_, rest⟩
  obtain ⟨moved, work⟩ := own i low named
  rw [cfg, unit_of_issues_m h] at work
  exact ⟨work _ (List.mem_singleton_self _), moved⟩

theorem exec_mcfg_issues (fa fb : Fmt) (p : BitVec 4) (ac : Acc) (pro : BitVec 7) : ∃ u, exec (.mcfg f sa fa fb p ac pro) s = .next u ∧
    landsEach t u x sa fun i => .mcfg i ⟨fa, fb, p.toNat, ac, pro.toNat⟩ :=
  ⟨_, congrArg Host.Outcome.next (nativeWord_of_issues h),
    landsEach_of_fold h sa (fun i _ => .mcfg i ⟨fa, fb, p.toNat, ac, pro.toNat⟩) fun _ _ => rfl⟩

theorem exec_macz_issues : ∃ u, exec (.macz f sa) s = .next u ∧
    landsEach t u x sa fun i => .clearRows i (isIntPair ((t.core x.c).getSa i).cfg.fmtA) :=
  ⟨_, congrArg Host.Outcome.next (nativeWord_of_issues h),
    landsEach_of_fold h sa (fun i a => .clearRows i (isIntPair a.cfg.fmtA)) fun _ _ => rfl⟩

theorem exec_mpro_issues : ∃ u, exec (.mpro f sa) s = .next u ∧ landsEach t u x sa fun i => .promote i :=
  ⟨_, congrArg Host.Outcome.next (nativeWord_of_issues h), landsEach_of_fold h sa (fun i _ => .promote i) fun _ _ => rfl⟩

end

/-! ### Power words (10 R236, R243) -/

/-- Core `c` with every sub-array of a mask changed by `g`. -/
def State.modSelected (t : State) (c : Nat) (sa : SaMask) (g : SubArray → SubArray) : State :=
  t.modCore c fun k => (selected sa).foldl (fun k i => k.modSa i g) k

section
variable (t : State) (c : Nat) (sa : SaMask) (g : SubArray → SubArray)

theorem State.getSa_modSelected (i : Nat) : ((t.modSelected c sa g).core c).getSa i =
    if i ∈ selected sa then g ((t.core c).getSa i) else (t.core c).getSa i := by
  rw [modSelected, core_modCore]
  exact Core.getSa_foldl_modSa g (selected_nodup sa) _ i

theorem DataKept.modSelected : DataKept t (t.modSelected c sa g) := by
  obtain ⟨b, same⟩ := t.modCore_foldl_modSa c g (selected sa)
  exact (congrArg (DataKept t) same).mpr (.withSa t c b)

variable {sa} {i : Nat}

theorem State.getSa_modSelected_named (low : i < 4) (named : sa.getLsbD i = true) :
    ((t.modSelected c sa g).core c).getSa i = g ((t.core c).getSa i) := by
  rw [getSa_modSelected, if_pos (mem_selected.mpr ⟨low, named⟩)]

theorem State.getSa_modSelected_left (left : sa.getLsbD i = false) :
    ((t.modSelected c sa g).core c).getSa i = (t.core c).getSa i := by
  rw [getSa_modSelected, if_neg fun inside => Bool.false_ne_true (left.symm.trans (mem_selected.mp inside).2)]

end

theorem SubArray.startWake_gated {a : SubArray} (h : a.power = .gated) (n : Nat) :
    a.startWake n = { a with power := .waking, wakeAt := n + 48, idle := 0, sleepAt := none } := by
  simp only [startWake, h, wakeLatency]

theorem SubArray.startWake_not_gated {a : SubArray} (h : a.power ≠ .gated) (n : Nat) : a.startWake n = a := by
  unfold startWake
  split
  next gated => exact absurd gated h
  next => rfl

section
variable {s t : State} {f : Frame} {x : Ctx} (h : Issues s f .m x t) (sa : SaMask)
include h

theorem exec_mwake_issues : exec (.mwake f sa) s = .next (t.modSelected x.c sa fun a => (a.name x.t).startWake x.t) :=
  congrArg Host.Outcome.next (nativeWord_of_issues h)

theorem exec_msleep_issues : exec (.msleep f sa) s =
    .next (t.modSelected x.c sa fun a => { a.name x.t with sleepAt := some (x.t + 1) }) :=
  congrArg Host.Outcome.next (nativeWord_of_issues h)

/-- MSTAT claims its place in q13 at its issue, and the status lands there. -/
theorem exec_mstat_issues {i : Nat} (low : i < 4) : ∃ (u : State) (n : Nat), exec (.mstat f (BitVec.ofNat 4 (2 ^ i))) s = .next u ∧
    sameData t u ∧ (u.core x.c).getQueue 13 = (t.core x.c).getQueue 13 ++ [⟨n, 0, false, false, x.t⟩] ∧
    ⟨x.t + 2, 4, x.who, .queue 13 n ((((t.core x.c).getSa i).status x.t).setWidth 512) false⟩ ∈ (u.part x.p).pend := by
  have run := handler_of_issues h
  obtain ⟨sa, named⟩ := t.modCore_foldl_modSa x.c (fun a => a.name x.t) [i]
  have named : (t.modCore x.c fun k => k.nameAll [i] x.t) = t.withSa x.c sa := named
  have queue : ((t.withSa x.c sa).core x.c).getQueue 13 = (t.core x.c).getQueue 13 := by rw [State.withSa, State.core_modCore]; rfl
  have done : exec (.mstat f (BitVec.ofNat 4 (2 ^ i))) s =
      .next ((t.withSa x.c sa).pushLater x 13 (x.t + 2) ((((t.core x.c).getSa i).status x.t).setWidth 512) false) := by
    refine congrArg Host.Outcome.next ((nativeWord_of_issues h).trans ?_)
    rw [selected_two_pow low, ← named]
    rfl
  refine ⟨_, ((t.withSa x.c sa).core x.c).nextId, done, ?_, ?_, ?_⟩
  all_goals rw [State.pushLater_eq, State.later_word _ x _ _ run]
  · exact (((DataKept.withSa t x.c sa).trans (.claim _ x.c 13 x.t)).trans (.addDue _ _ _)).sameData
  · rw [State.core_addDue, ← queue]
    exact State.getQueue_claim _ x.c 13 x.t
  · rw [unit_of_issues_m h]
    exact (State.mem_addDue _ _ _ _).mpr (.inl rfl)

end

end Sys2Proof.Machine

namespace Sys2Proof.Proofs

open Sys2Proof.Machine Sys2Proof.Claims

/-- Settles O37: three words land one act of each sub-array, two change the sub-arrays at once, and MSTAT claims its entry. -/
theorem matrixControlWords : Obligations.MatrixControlWords := by
  intro s f x t sa h sub each
  refine ⟨exec_mcfg_issues h sa, exec_macz_issues h sa, exec_mpro_issues h sa, ⟨_, exec_mwake_issues h sa, ?_⟩,
    ⟨_, exec_msleep_issues h sa, ?_⟩, ?mstat⟩
  case mstat =>
    rintro i low rfl
    exact exec_mstat_issues h low
  · refine ⟨(DataKept.modSelected t x.c sa _).sameData, rfl, fun i low named gated => ?_, fun i low named other => ?_,
      fun i _ left => t.getSa_modSelected_left x.c _ left⟩
    · dsimp only [sub]
      rw [t.getSa_modSelected_named x.c _ low named, SubArray.startWake_gated (a := ((t.core x.c).getSa i).name x.t) gated]
      exact ⟨rfl, rfl⟩
    · dsimp only [sub]
      rw [t.getSa_modSelected_named x.c _ low named, SubArray.startWake_not_gated (a := ((t.core x.c).getSa i).name x.t) other]
      rfl
  · exact ⟨(DataKept.modSelected t x.c sa _).sameData, rfl, fun i low named => t.getSa_modSelected_named x.c _ low named,
      fun i _ left => t.getSa_modSelected_left x.c _ left⟩

end Sys2Proof.Proofs
end

section
/-! PROOF. MLW, MLWP, MMA and MRD at their issue (10 R227 to R234, R238 to R240): the ports that each sub-array has busy, and the work that
starts its stream. -/

namespace Sys2Proof.Machine

open Sys2Proof.Claims (Issues sameData)

/-! ### Loads (10 R227, R229) -/

/-- Key, counter, base and length of the noise of an MLWP. -/
abbrev LoadNoise := BitVec 128 × BitVec 48 × Word × Word

/-- A load word as it goes through its sub-arrays: its tracks, the words it takes for each, how late its two streams are at each, and its
noise. -/
structure LoadWord where
  tkA : Nat
  tkB : Nat
  words : SaCfg → Nat
  offA : Nat → Nat
  offB : Nat → Nat
  noise : Option LoadNoise

namespace LoadWord
variable (w : LoadWord) (x : Ctx) (i : Nat) (a : SubArray)

/-- The tick of the last word that sub-array `i` takes; the DEV8 words of an MLWP come every two ticks. -/
def last : Nat :=
  if w.noise.isSome then max (x.t + w.words a.cfg + w.offA i) (x.t + 255 + w.offB i) else x.t + w.words a.cfg + w.offA i

/-- The load that sub-array `i` starts. -/
def run : LoadRun := ⟨i, a.loads + 1, a.cfg.fmtB, w.tkA, w.tkB, saStop i, w.noise⟩

/-- Sub-array `i` with its load started. -/
def started : SubArray :=
  { a with loads := a.loads + 1, weightBusy := w.last x i a + 1, swap := some (w.last x i a + 1, w.run i a)
           back := ⟨a.cfg.fmtB, [], false⟩ }

def swapDue : Due := ⟨w.last x i a + 1, 4, x.who, .event (.weightSetSwap x.c i)⟩
def meanDue : Due := ⟨x.t + 1 + w.offA i, samplePlace, x.who, .weightTake (w.run i a) 0⟩
def devDue : Due := ⟨x.t + 1 + w.offB i, samplePlace, x.who, .weightTake (w.run i a) devWord⟩

/-- The work of the load: its swap and its first takings. -/
def work : List Due := w.swapDue x i a :: if w.noise.isSome then [w.devDue x i a, w.meanDue x i a] else [w.meanDue x i a]

theorem swapDue_mem : w.swapDue x i a ∈ w.work x i a := List.mem_cons_self

theorem meanDue_mem : w.meanDue x i a ∈ w.work x i a := by
  unfold work
  split <;> simp

theorem devDue_mem (noisy : w.noise.isSome = true) : w.devDue x i a ∈ w.work x i a := by
  simp [work, noisy]

/-- The state with the load of sub-array `i` started. -/
def start (s : State) : State :=
  s.startLoad x i w.tkA w.tkB (w.words ((s.core x.c).getSa i).cfg) (w.offA i) (w.offB i) w.noise

theorem moved_start (s : State) :
    SaMoved x i (w.started x i ((s.core x.c).getSa i)) (w.work x i ((s.core x.c).getSa i)) s (w.start x i s) := by
  have taken := (SaMoved.modSa s x i (w.started x i)).addDue (w.meanDue x i ((s.core x.c).getSa i))
  obtain ⟨tkA, tkB, words, offA, offB, noise⟩ := w
  cases noise with
  | none => exact taken.addDue _
  | some n => exact (taken.addDue _).addDue _

theorem each_start (sa : SaMask) (t : State) : EachMoved x (selected sa) (fun i a => w.started x i (a.name x.t))
    (fun i a => w.work x i (a.name x.t)) t
    ((selected sa).foldl (fun s i => w.start x i s) (t.modCore x.c fun k => k.nameAll (selected sa) x.t)) :=
  (EachMoved.foldl (fun s i => w.moved_start x i s) (selected_nodup sa) _).named (selected_nodup sa)

end LoadWord

/-! ### The bounds of an MLWP (10 R239) -/

theorem tdel_tput {α : Type} (t : Tbl α) (k : Nat) (v : α) : tdel (tput t k v) k = tdel t k := by
  induction t with
  | nil => simp [tput, tdel]
  | cons e t ih =>
    obtain ⟨n, u⟩ := e
    by_cases own : k = n
    · simp [tput, tdel, own]
    · by_cases before : k < n <;> simp [tput, tdel, own, before, ih]

/-- A queue written twice holds what was written last. -/
theorem Core.setQueue_setQueue_cons (k : Core) (q : Nat) (e : QEntry) (l r : List QEntry) :
    (k.setQueue q (e :: l)).setQueue q r = k.setQueue q r := by
  have table : tset [] (tput k.queues q (e :: l)) q r = tset [] k.queues q r := by
    rw [tset, tset, tdel_tput, tput_tput]
  exact congrArg (fun q => { k with queues := q }) table

theorem Core.getQueue_setQueue_cons (k : Core) (q : Nat) (e : QEntry) (l : List QEntry) : (k.setQueue q (e :: l)).getQueue q = e :: l :=
  tget_tput_self ..

/-- Two pops of a queue take its two oldest entries. -/
theorem State.pop_pop {t : State} {c q : Nat} {b l : QEntry} {rest : List QEntry} (front : (t.core c).getQueue q = b :: l :: rest) :
    (t.pop c q).1.pop c q = (t.modCore c fun k => k.setQueue q rest, ⟨l.v, l.p⟩) := by
  have next : ((t.modCore c fun k => k.setQueue q (l :: rest)).core c).getQueue q = l :: rest := by
    rw [core_modCore, Core.getQueue_setQueue_cons]
  rw [pop_cons front, pop_cons next, modCore_modCore]
  simp only [Core.setQueue_setQueue_cons]

/-! ### The words -/

/-- The load of an MLW. -/
def mlwLoad (sa : SaMask) (tk : Num4) : LoadWord where
  tkA := tk.val
  tkB := tk.val
  words cfg := weightWords cfg.fmtB
  offA := saOffset (selected sa) tk.val
  offB _ := 0
  noise := none

/-- The load of an MLWP. -/
def mlwpLoad (sa : SaMask) (tk tkb : Num4) (noise : LoadNoise) : LoadWord where
  tkA := tk.val
  tkB := tkb.val
  words _ := 256
  offA := saOffset (selected sa) tk.val
  offB := saOffset (selected sa) tkb.val
  noise := some noise

/-- The noise of an MLWP: its slot's key and tensor, with the bounds it pops. -/
def Core.loadNoise (k : Core) (ns : Nat) (base len : Row) : LoadNoise :=
  ((k.getNs ns).key, ((k.getNs ns).ctr >>> 80).setWidth 48, base.setWidth 64, len.setWidth 64)

section
variable (sa : SaMask) (tk : Num4) (rows : Nat) (x : Ctx) (i : Nat) (a : SubArray)

/-- The passes that an MMA sets going in a sub-array. -/
def mmaRun : MmaRun :=
  ⟨i, a.cfg, a.active, tk.val, saStop i, rows, x.t + 1 + saOffset (selected sa) tk.val i⟩

/-- The tick from which the row port of a sub-array is free again after an MMA. -/
def mmaFree : Nat :=
  x.t + 1 + (rows - 1) * a.cfg.planes + (packetWords a.cfg.fmtA a.cfg.planes - 1) + saOffset (selected sa) tk.val i + 1

/-- The rows that an MRD sends of a sub-array. -/
def drainRun (fmt : Fmt) (rm : Rm) : DrainRun := ⟨i, fmt, rm, tk.val, rows, isIntPair a.cfg.fmtA, 0⟩

end

section
variable {s t : State} {f : Frame} {x : Ctx} (h : Issues s f .m x t) (sa : SaMask) (tk tkb : Num4)
include h

theorem exec_mlw_issues : ∃ u, exec (.mlw f sa tk) s = .next u ∧ EachMoved x (selected sa)
    (fun i a => (mlwLoad sa tk).started x i (a.name x.t)) (fun i a => (mlwLoad sa tk).work x i (a.name x.t)) t u := by
  obtain ⟨p, c, l, agenda, -, -⟩ := id h
  exact ⟨_, congrArg Host.Outcome.next ((wakeOnCheck_issue agenda).trans (nativeWord_of_issues h)), (mlwLoad sa tk).each_start _ sa _⟩

theorem exec_mlwp_issues (ns : Num3) {b l : QEntry} {rest : List QEntry} (front : (t.core x.c).getQueue 12 = b :: l :: rest) :
    let w := mlwpLoad sa tk tkb ((t.core x.c).loadNoise ns.val b.v l.v)
    ∃ u, exec (.mlwp f sa tk tkb ns) s = .next u ∧ EachMoved x (selected sa) (fun i a => w.started x i (a.name x.t))
      (fun i a => w.work x i (a.name x.t)) (t.modCore x.c fun k => k.setQueue 12 rest) u := by
  intro w
  have slot : ((t.modCore x.c fun k => k.setQueue 12 rest).core x.c).loadNoise ns.val b.v l.v = (t.core x.c).loadNoise ns.val b.v l.v := by
    rw [State.core_modCore]
    rfl
  have effect : exec (.mlwp f sa tk tkb ns) s = .next ((selected sa).foldl (fun s i => w.start x i s)
      ((t.modCore x.c fun k => k.setQueue 12 rest).modCore x.c fun k => k.nameAll (selected sa) x.t)) := by
    obtain ⟨p, c, m, agenda, -, -⟩ := id h
    refine congrArg Host.Outcome.next ((wakeOnCheck_issue agenda).trans ((nativeWord_of_issues h).trans ?_))
    dsimp only
    rw [State.pop_pop front, State.pop_cons front]
    dsimp only [w]
    rw [← slot]
    rfl
  exact ⟨_, effect, w.each_start x sa _⟩

theorem exec_mma_issues (rows : BitVec 38) : ∃ u, exec (.mma f sa tk rows) s = .next u ∧ EachMoved x (selected sa)
    (fun i a => { a.name x.t with rowBusy := mmaFree sa tk rows.toNat x i a })
    (fun i a => [⟨x.t + 1 + saOffset (selected sa) tk.val i, samplePlace, x.who, .mmaTake (mmaRun sa tk rows.toNat x i a) 0 0 []⟩])
    t u := by
  obtain ⟨p, c, l, agenda, -, -⟩ := id h
  refine ⟨_, congrArg Host.Outcome.next ((wakeOnCheck_issue agenda).trans (nativeWord_of_issues h)), .named (selected_nodup sa)
    (.foldl (f := fun i a => { a with rowBusy := mmaFree sa tk rows.toNat _ i a })
      (w := fun i a => [⟨_, samplePlace, _, .mmaTake (mmaRun sa tk rows.toNat _ i a) 0 0 []⟩]) (fun s i => ?_) (selected_nodup sa) _)⟩
  exact (SaMoved.modSa s _ i fun a => { a with rowBusy := mmaFree sa tk rows.toNat _ i ((s.core _).getSa i) }).addDue _

theorem exec_mrd_issues (fmt : Fmt) (rm : Rm) (rows : BitVec 30) : ∃ u, exec (.mrd f sa tk fmt rm rows) s = .next u ∧
    EachMoved x (selected sa) (fun _ a => { a.name x.t with drainBusy := x.t + 2 + rows.toNat })
      (fun i a => [⟨x.t + 1, samplePlace, x.who, .drainRow (drainRun tk rows.toNat i a fmt rm) 0⟩]) t u := by
  refine ⟨_, congrArg Host.Outcome.next (nativeWord_of_issues h), .named (selected_nodup sa)
    (.foldl (f := fun i a => { a with drainBusy := x.t + 2 + rows.toNat })
      (w := fun i a => [⟨x.t + 1, samplePlace, x.who, .drainRow (drainRun tk rows.toNat i a fmt rm) 0⟩]) (fun s i => ?_)
      (selected_nodup sa) _)⟩
  exact (SaMoved.modSa s x i fun a => { a with drainBusy := x.t + 2 + rows.toNat }).addDue _

end

end Sys2Proof.Machine

namespace Sys2Proof.Proofs

open Sys2Proof.Machine Sys2Proof.Claims

/-- Settles O38: each word moves every sub-array of its mask once, a load by its `LoadWord`, and an MLWP after its two pops. -/
theorem matrixPortWords : Obligations.MatrixPortWords := by
  intro s f x t sa tk tkb h sub off does
  refine ⟨?mlw, fun ns b l rest front => ?mlwp, fun rows _ => ?mma, fun fmt rm rows => ?mrd⟩
  case mlw =>
    obtain ⟨u, done, each⟩ := exec_mlw_issues h sa tk
    obtain ⟨data, rest, own⟩ := each.masked (.refl t) fun _ => rfl
    refine ⟨u, done, data, rest, fun i low named => ?_⟩
    obtain ⟨moved, made⟩ := own i low named
    have moved : sub u i = _ := moved
    rw [moved]
    exact ⟨_, rfl, rfl, rfl, rfl, rfl, rfl, rfl, rfl, made _ (LoadWord.meanDue_mem ..),
      made _ (LoadWord.swapDue_mem ..)⟩
  case mlwp =>
    obtain ⟨u, done, each⟩ := exec_mlwp_issues h sa tk tkb ns front
    obtain ⟨data, others, own⟩ := each.masked
      (.modCore t x.c (fun k => k.setQueue 12 rest) fun _ => ⟨rfl, rfl, rfl, rfl, rfl, rfl, rfl, rfl⟩)
      (fun i => by rw [State.core_modCore]; rfl)
    refine ⟨u, done, data, others, fun i low named => ?_⟩
    obtain ⟨moved, made⟩ := own i low named
    have moved : sub u i = _ := moved
    rw [moved]
    refine ⟨_, ?_, rfl, rfl, rfl, rfl, rfl, rfl, rfl, made _ (LoadWord.meanDue_mem ..), made _ (LoadWord.devDue_mem _ _ _ _ rfl)⟩
    rw [each.queues, State.core_modCore]
  case mma =>
    obtain ⟨u, done, each⟩ := exec_mma_issues h sa tk rows
    obtain ⟨data, rest, own⟩ := each.masked (.refl t) fun _ => rfl
    refine ⟨u, done, data, rest, fun i low named => ?_⟩
    obtain ⟨moved, made⟩ := own i low named
    exact ⟨_, congrArg SubArray.rowBusy moved, rfl, rfl, rfl, rfl, rfl, rfl, made _ (List.mem_singleton_self _)⟩
  case mrd =>
    obtain ⟨u, done, each⟩ := exec_mrd_issues h sa tk fmt rm rows
    obtain ⟨data, rest, own⟩ := each.masked (.refl t) fun _ => rfl
    refine ⟨u, done, data, rest, fun i low named => ?_⟩
    obtain ⟨moved, made⟩ := own i low named
    exact ⟨_, congrArg SubArray.drainBusy moved, rfl, rfl, rfl, rfl, rfl, made _ (List.mem_singleton_self _)⟩

end Sys2Proof.Proofs
end

section
/-! PROOF. The events of a sub-array (10 R229, R230, R236): its swap, its gating and the end of its wake. -/

namespace Sys2Proof.Machine

/-! ### The swap (10 R229, R230) -/

/-- What a load makes active, and the flags of forming it: an MLWP's set with its noise. -/
def SubArray.loadedSet (a : SubArray) (r : LoadRun) : WeightSet × Flags :=
  match r.noise with
  | some (key, hi, base, len) => perturbSet a.back key hi base len
  | none => (a.back, 0)

/-- The sub-array with the set `w` made active. -/
def SubArray.swapped (a : SubArray) (w : WeightSet) : SubArray := { a with active := w, back := a.active, swap := none }

theorem Core.getSa_raiseFlags (k : Core) (f : Flags) (i : Nat) : (k.raiseFlags f).getSa i = k.getSa i := rfl

section
variable {s : State} {p c i : Nat} (own : s.popEvent.partOf c = some p)
include own

/-- The swap of a load at its tick, where no pass uses the old set. -/
theorem exec_weightSetSwap_free {r : LoadRun}
    (due : ((s.popEvent.core c).getSa i).swap = some ((s.popEvent.part p).tick, r))
    (free : ((s.popEvent.core c).getSa i).rowBusy ≤ (s.popEvent.part p).tick) :
    let w := ((s.popEvent.core c).getSa i).loadedSet r
    exec (.weightSetSwap c i) s = .next (s.popEvent.modCore c fun k =>
      (k.modSa i fun a => a.swapped w.1).raiseFlags (if w.1.p then 0 else w.2)) := by
  show execWeightSetSwap c i s = _
  simp only [execWeightSetSwap, own, due, if_neg (Nat.not_lt.mpr free), ne_eq, not_true_eq_false, if_false]
  rfl

/-- A swap that comes while a pass uses the old set waits for the pass. -/
theorem exec_weightSetSwap_busy {r : LoadRun}
    (due : ((s.popEvent.core c).getSa i).swap = some ((s.popEvent.part p).tick, r))
    (busy : (s.popEvent.part p).tick < ((s.popEvent.core c).getSa i).rowBusy) :
    exec (.weightSetSwap c i) s = .next ((s.popEvent.modCore c fun k => k.modSa i fun a => { a with swap := some (a.rowBusy, r) }).addDue p
      ⟨((s.popEvent.core c).getSa i).rowBusy, 4, ⟨c, .m, .cont 0, 0, 0, (s.popEvent.part p).tick⟩,
        .event (.weightSetSwap c i)⟩) := by
  show execWeightSetSwap c i s = _
  simp only [execWeightSetSwap, own, due, if_pos busy, ne_eq, not_true_eq_false, if_false]

/-- The sub-array after its swap: raising flags changes no sub-array. -/
theorem swapped_of_free {r : LoadRun} (due : ((s.popEvent.core c).getSa i).swap = some ((s.popEvent.part p).tick, r))
    (free : ((s.popEvent.core c).getSa i).rowBusy ≤ (s.popEvent.part p).tick) : ∃ u : State, exec (.weightSetSwap c i) s = .next u ∧
      (u.core c).getSa i = ((s.popEvent.core c).getSa i).swapped (((s.popEvent.core c).getSa i).loadedSet r).1 ∧
      u.parts = s.popEvent.parts := by
  refine ⟨_, exec_weightSetSwap_free own due free, ?_, rfl⟩
  rw [State.core_modCore, Core.getSa_raiseFlags, Core.getSa_modSa]

end

/-! ### Power (10 R236) -/

theorem SubArray.busyAt_eq_false (a : SubArray) (t : Nat) :
    a.busyAt t = false ↔ a.weightBusy ≤ t ∧ a.rowBusy ≤ t ∧ a.drainBusy ≤ t := by
  simp only [busyAt, Bool.or_eq_false_iff, decide_eq_false_iff_not, Nat.not_lt, and_assoc]

/-- A sub-array gates where it is awake with no busy port, and MGATE or MSLEEP asks for it. -/
theorem SubArray.gates_iff (a : SubArray) (mgate t : Nat) : a.gates mgate t = true ↔
    a.power = .awake ∧ (a.weightBusy ≤ t ∧ a.rowBusy ≤ t ∧ a.drainBusy ≤ t) ∧
      ((mgate ≠ 0 ∧ mgate ≤ a.idle) ∨ ∃ u, a.sleepAt = some u ∧ u ≤ t) := by
  rw [← a.busyAt_eq_false]
  cases sleep : a.sleepAt <;> simp [gates, sleep, and_assoc]

section
variable {s : State} {p c i : Nat} (own : s.popEvent.partOf c = some p)
include own

theorem exec_subarrayGate_part (i : Nat) : exec (.subarrayGate c i) s = .next
    (if ((s.popEvent.core c).getSa i).gates (s.popEvent.core c).mgate.toNat (s.popEvent.part p).tick then
      s.popEvent.modCore c fun k => k.modSa i fun a => { a with power := .gated, sleepAt := none }
    else s.popEvent) := by
  show execSubarrayGate c i s = _
  simp only [execSubarrayGate, own]

/-- The end of a wake that the partition waits for. -/
theorem exec_subarrayWakeDone_waited (waited : (s.popEvent.part p).waits.contains (.wake c i) = true)
    (waking : ((s.popEvent.core c).getSa i).power = .waking) : ∃ u : State, exec (.subarrayWakeDone c i) s = .next u ∧
      ((u.core c).getSa i).power = .awake ∧ (u.part p).waits = (s.popEvent.part p).waits.filter (· != .wake c i) := by
  have done : exec (.subarrayWakeDone c i) s = .next ((s.popEvent.modCore c fun k => k.modSa i fun a =>
      if a.power == .waking then { a with power := .awake, wakeAt := (s.popEvent.part p).tick, idle := 0 } else a).modPart p
        fun k => k.clearWait (.wake c i)) := by
    show execSubarrayWakeDone c i s = _
    simp only [execSubarrayWakeDone, own, waited, if_true]
  refine ⟨_, done, ?_, ?_⟩
  · rw [State.core_modPart, State.core_modCore, Core.getSa_modSa, waking]
    rfl
  · rw [State.part_modPart]
    rfl

end

end Sys2Proof.Machine

namespace Sys2Proof.Proofs

open Sys2Proof.Machine

/-- Settles O40: the swap by whether a pass holds the old set, the gating by `SubArray.gates_iff`, and the end of a wake. -/
theorem subArrayEvents : Obligations.SubArrayEvents := by
  intro s p c i t own a
  refine ⟨fun r due quiet free => ?_, fun r key hi base len due noisy free => ?_, fun r due busy => ?_,
    ⟨fun gates => ?_, fun stays => ?_⟩, exec_subarrayWakeDone_waited own⟩
  · have set : a.loadedSet r = (a.back, 0) := by rw [SubArray.loadedSet, quiet]
    have swap := swapped_of_free own due free
    rwa [set] at swap
  · have set : a.loadedSet r = perturbSet a.back key hi base len := by rw [SubArray.loadedSet, noisy]
    have swap := swapped_of_free own due free
    rwa [set] at swap
  · refine ⟨_, exec_weightSetSwap_busy own due busy, ?_, _, (State.mem_addDue _ _ _ _).mpr (.inl rfl)⟩
    rw [State.core_addDue, State.core_modCore]
    exact Core.getSa_modSa ..
  · exact (exec_subarrayGate_part own i).trans (congrArg Host.Outcome.next (if_pos ((SubArray.gates_iff ..).mpr gates)))
  · exact (exec_subarrayGate_part own i).trans (congrArg Host.Outcome.next (if_neg (mt (SubArray.gates_iff ..).mp stays)))

end Sys2Proof.Proofs
end

section
/-! PROOF. The start checks of MLW, MLWP, MMA and MRD (10 R235, R236): busy ports, then sub-arrays that are not awake, then poison, and
which wakes a check starts. -/

namespace Sys2Proof.Machine

/-! ### What a start check finds -/

/-- A port of a kind is busy for a word that starts at `t`; a load not yet swapped is no conflict for a load. -/
def SubArray.portBusy (a : SubArray) (kind : PortKind) (t : Nat) : Prop :=
  match kind with
  | .weight => t < a.weightBusy ∧ a.swap = none
  | .row => t < a.rowBusy
  | .drain => t < a.drainBusy

/-- A sub-array of the mask has its port of a kind busy. -/
def Core.someBusy (k : Core) (sa : SaMask) (kind : PortKind) (t : Nat) : Prop :=
  ∃ i < 4, sa.getLsbD i = true ∧ (k.getSa i).portBusy kind t

/-- The sub-arrays of the mask that are not awake. -/
def Core.asleep (k : Core) (sa : SaMask) (t : Nat) : List Nat :=
  (List.range 4).filter fun i => sa.getLsbD i && !(k.getSa i).awakeAt t

theorem Core.asleep_eq (k : Core) (sa : SaMask) (t : Nat) :
    (selected sa).filter (fun i => !(k.getSa i).awakeAt t) = k.asleep sa t := by
  simp only [selected, asleep, List.filter_filter, Bool.and_comm]

/-- The probe of a schedule miss. -/
def missProbe (sa : SaMask) (cause : Nat) : Probe := .trap .scheduleMiss (missStatus sa cause)

section
variable (s : State) (x : Ctx) (sa : SaMask) (kind : PortKind) (poison : Bool)

/-- What is left of a start check once no port is busy. -/
def State.awakeProbe : Probe :=
  if kind ≠ .drain ∧ (s.core x.c).asleep sa x.t ≠ [] then
    if (s.part x.p).loose then missProbe sa 2 else ⟨[], ((s.core x.c).asleep sa x.t).map fun i => .wake x.c i⟩
  else .when ((s.part x.p).loose && poison) (missProbe sa 0)

theorem State.startProbe_busy (busy : (s.core x.c).someBusy sa kind x.t) : s.startProbe x sa kind poison = missProbe sa 1 := by
  obtain ⟨i, low, named, busy⟩ := busy
  refine if_pos (List.any_eq_true.mpr ⟨i, mem_selected.mpr ⟨low, named⟩, ?_⟩)
  cases kind <;> simpa [SubArray.portBusy] using busy

theorem State.startProbe_free (free : ¬ (s.core x.c).someBusy sa kind x.t) :
    s.startProbe x sa kind poison = s.awakeProbe x sa kind poison := by
  refine (if_neg fun busy => free ?_).trans ?_
  · obtain ⟨i, inside, busy⟩ := List.any_eq_true.mp busy
    obtain ⟨low, named⟩ := mem_selected.mp inside
    refine ⟨i, low, named, ?_⟩
    cases kind <;> simpa [SubArray.portBusy] using busy
  · unfold awakeProbe
    rw [← Core.asleep_eq]
    cases kind <;> simp [missProbe]

end

/-! ### What a check raises -/

/-- The check raised a schedule miss of a cause and froze nothing. -/
def missed (s u : State) (p c : Nat) (sa : SaMask) (cause : Nat) : Prop :=
  (u.part p).conds = (s.part p).conds ++
      [⟨(s.part p).tick, .scheduleMiss, (s.ctx p c .m).who, BitVec.ofNat 64 (sa.toNat + 16 * cause), .void c .m⟩] ∧
    (u.part p).waits = (s.part p).waits

section
variable (s : State) (p c : Nat) (pr : Probe)

/-- The state after a check of the M word of core `c` that found `pr`. -/
def State.probed : State := raiseProbe (s.ctx p c .m) .m s.popItem pr

theorem State.waits_probed : ((s.probed p c pr).part p).waits = (s.part p).waits ++ pr.waits :=
  congrArg Part.waits (part_modPart ..)

theorem State.conds_probed : ((s.probed p c pr).part p).conds = (s.part p).conds ++
    pr.conds.map fun e => ⟨(s.part p).tick, e.1, (s.ctx p c .m).who, e.2.1, if e.2.2 then .retry else .void c .m⟩ :=
  congrArg Part.conds (part_modPart ..)

theorem missed_probed (sa : SaMask) (cause : Nat) : missed s (s.probed p c (missProbe sa cause)) p c sa cause := by
  refine ⟨?_, (s.waits_probed p c _).trans (List.append_nil _)⟩
  rw [State.conds_probed, Nat.mul_comm]
  rfl

theorem quiet_probed : ((s.probed p c .ok).part p).conds = (s.part p).conds ∧ ((s.probed p c .ok).part p).waits = (s.part p).waits :=
  ⟨(s.conds_probed p c .ok).trans (List.append_nil _), (s.waits_probed p c .ok).trans (List.append_nil _)⟩

end

/-! ### Which wakes a check starts -/

theorem SubArray.not_gated_of_awakeAt {a : SubArray} {t : Nat} (awake : a.awakeAt t = true) : a.power ≠ .gated := by
  intro gated
  simp [awakeAt, gated] at awake

/-- The state with every gated sub-array of the mask waking from `t` on. -/
def State.woken (s : State) (c : Nat) (sa : SaMask) (t : Nat) : State := s.modSelected c sa fun a => a.startWake t

section
variable (s : State) (c : Nat) {sa : SaMask} {i : Nat} (t : Nat)

theorem State.getSa_woken_gated (low : i < 4) (named : sa.getLsbD i = true) (gated : ((s.core c).getSa i).power = .gated) :
    (((s.woken c sa t).core c).getSa i).power = .waking ∧ (((s.woken c sa t).core c).getSa i).wakeAt = t + 48 := by
  rw [woken, s.getSa_modSelected_named c _ low named, SubArray.startWake_gated gated]
  exact ⟨rfl, rfl⟩

theorem State.getSa_woken_kept (kept : sa.getLsbD i = false ∨ ((s.core c).getSa i).power ≠ .gated) :
    ((s.woken c sa t).core c).getSa i = (s.core c).getSa i := by
  rcases kept with left | other
  · exact s.getSa_modSelected_left c _ left
  · rw [woken, getSa_modSelected, SubArray.startWake_not_gated other, ite_self]

/-- With every sub-array of the mask awake a wake changes none. -/
theorem State.getSa_woken_awake (awake : (s.core c).asleep sa t = []) (i : Nat) :
    ((s.woken c sa t).core c).getSa i = (s.core c).getSa i := by
  by_cases inside : i ∈ selected sa
  · rw [← Core.asleep_eq, List.filter_eq_nil_iff] at awake
    exact s.getSa_woken_kept c t (.inr (SubArray.not_gated_of_awakeAt (by simpa using awake i inside)))
  · rw [woken, getSa_modSelected, if_neg inside]

end

section
variable {s : State} {f : Frame} {p c : Nat} {sa : SaMask} {l : List Item} (ha : s.agenda = .check p c .m :: l)
  (hg : s.guardTrue p c f = true)
include ha hg

theorem wakeOnCheck_check (u : State) : wakeOnCheck sa f s u =
    if wakeReached sa p s u then u.woken c sa (s.part p).tick else u := by
  simp only [wakeOnCheck, ha, hg, Bool.true_and]
  rfl

end

theorem missStatus_toNat (sa : SaMask) {cause : Nat} (small : cause < 3) : (missStatus sa cause).toNat = sa.toNat + cause * 16 := by
  rw [missStatus, BitVec.toNat_ofNat]
  exact Nat.mod_eq_of_lt (by omega)

/-- A busy port ends a check before the wakes, and a sub-array that is not awake does not. -/
theorem wakeReached_miss (s : State) (p c : Nat) (sa : SaMask) {cause : Nat} (small : cause < 3) :
    wakeReached sa p s (s.probed p c (missProbe sa cause)) = decide (cause ≠ 1) := by
  have status : (missStatus sa cause == missStatus sa 1) = decide (cause = 1) := by
    refine decide_eq_decide.mpr ?_
    rw [← BitVec.toNat_inj, missStatus_toNat sa small, missStatus_toNat sa (by decide)]
    omega
  simp [wakeReached, State.conds_probed, missProbe, Probe.trap, bne, status]

theorem wakeReached_waits (s : State) (p c d : Nat) (sa : SaMask) (l : List Nat) :
    wakeReached sa p s (s.probed p c ⟨[], l.map fun i => .wake d i⟩) = true := by
  simp [wakeReached, State.conds_probed, State.waits_probed]

/-! ### A whole check -/

/-- In `u` a check that met sub-arrays not awake has started their wakes, with the partition standing still or a trap raised. -/
def wakesAsleep (s u : State) (p c : Nat) (sa : SaMask) : Prop :=
  (∀ i < 4, sa.getLsbD i = true → ((s.core c).getSa i).power = .gated →
    ((u.core c).getSa i).power = .waking ∧ ((u.core c).getSa i).wakeAt = (s.part p).tick + 48) ∧
  (∀ i < 4, sa.getLsbD i = false ∨ ((s.core c).getSa i).power ≠ .gated → (u.core c).getSa i = (s.core c).getSa i) ∧
  ((s.part p).loose = false → (u.part p).conds = (s.part p).conds ∧
    (u.part p).waits = (s.part p).waits ++ ((s.core c).asleep sa (s.part p).tick).map fun i => .wake c i) ∧
  ((s.part p).loose = true → missed s u p c sa 2)

/-- In `u` a check that met every sub-array awake has left them so, and looked at poison. -/
def startsAwake (s u : State) (p c : Nat) (sa : SaMask) (poison : Bool) : Prop :=
  (∀ i, (u.core c).getSa i = (s.core c).getSa i) ∧
  (((s.part p).loose && poison) = true → missed s u p c sa 0) ∧
  (((s.part p).loose && poison) = false → (u.part p).conds = (s.part p).conds ∧ (u.part p).waits = (s.part p).waits)

/-- The start check of a word that may wake sub-arrays, for a port of a kind and a poisoned operand. -/
def startChecks (s : State) (p c : Nat) (sa : SaMask) (w : Instr) (kind : PortKind) (poison : Bool) : Prop :=
  ((s.core c).someBusy sa kind (s.part p).tick → ∃ u : State, exec w s = .next u ∧ missed s u p c sa 1 ∧ u.cores = s.cores) ∧
  (¬ (s.core c).someBusy sa kind (s.part p).tick →
    ((s.core c).asleep sa (s.part p).tick ≠ [] → ∃ u : State, exec w s = .next u ∧ wakesAsleep s u p c sa) ∧
    ((s.core c).asleep sa (s.part p).tick = [] → ∃ u : State, exec w s = .next u ∧ startsAwake s u p c sa poison))

/-! ### Checks before the start check (10 R234, R239) -/

/-- MLWP's checks come down to the last where its formats take noise and both entries have landed. -/
theorem loadChecks_ok {bad : Bool} {format base len start : Probe} (noisy : bad = false) (first : base = .ok) (second : len = .ok) :
    (Probe.when bad format).andThen ((base.andThen len).before start) = start := by
  rw [noisy, first, second]
  rfl

/-- Poison of one of the two entries that an MLWP pops. -/
def State.boundsPoison (s : State) (c : Nat) : Bool :=
  (s.peek c 12).p || match listNth ((s.core c).getQueue 12) 1 with | some e => e.p | none => false

theorem boundsPoison_cons {s : State} {c : Nat} {b m : QEntry} {rest : List QEntry} (front : (s.core c).getQueue 12 = b :: m :: rest) :
    s.boundsPoison c = (b.p || m.p) := by
  simp only [State.boundsPoison, State.peek, front, listNth]

/-- A format that MRD does not deliver from rows of the given form. -/
def drainUnfit (fmt : Fmt) (int : Bool) : Bool :=
  if int then !(fmt == .int32 || fmt == .int8 || fmt == .fp32 || fmt == .bf16) else !(fmt == .fp32 || fmt == .bf16 || fmt == .acc26)

theorem drainUnfit_of_suits {fmt : Fmt} {int : Bool}
    (suits : fmt = .fp32 ∨ fmt = .bf16 ∨ if int then fmt = .int32 ∨ fmt = .int8 else fmt = .acc26) : drainUnfit fmt int = false := by
  cases int
  case true => rcases suits with rfl | rfl | rfl | rfl <;> rfl
  case false => rcases suits with rfl | rfl | rfl <;> rfl

section
variable {s : State} {f : Frame} {p c : Nat} {sa : SaMask} {l : List Item} (ha : s.agenda = .check p c .m :: l)
  (hg : s.guardTrue p c f = true)
include ha hg

/-- A word with a start check, once its limits are kept. -/
theorem nativeWord_check_probed {i : Instr} {pr : Ctx → State → Probe} {e : Ctx → State → State} (limits : i.entryLimits = true) :
    nativeWord .m i f pr e s = s.probed p c (pr (s.ctx p c .m) s.popItem) := by
  rw [nativeWord_check ha, if_pos hg, wordProbe_of_limits i limits]
  rfl

/-- With every sub-array of the mask awake a check wakes none. -/
theorem wakeOnCheck_awake {u : State} (awake : (u.core c).asleep sa (s.part p).tick = []) :
    (∀ i, ((wakeOnCheck sa f s u).core c).getSa i = (u.core c).getSa i) ∧ (wakeOnCheck sa f s u).part p = u.part p := by
  rw [wakeOnCheck_check ha hg]
  split
  · exact ⟨u.getSa_woken_awake c _ awake, rfl⟩
  · exact ⟨fun _ => rfl, rfl⟩

/-- Where no port is busy and a sub-array is not awake, the check starts the wakes. -/
theorem wakeOnCheck_asleep {kind : PortKind} {poison : Bool} (wakes : kind ≠ .drain)
    (asleep : (s.core c).asleep sa (s.part p).tick ≠ []) :
    let u := s.probed p c (s.awakeProbe (s.ctx p c .m) sa kind poison)
    wakeOnCheck sa f s u = u.woken c sa (s.part p).tick ∧
      ((s.part p).loose = false → (u.part p).conds = (s.part p).conds ∧
        (u.part p).waits = (s.part p).waits ++ ((s.core c).asleep sa (s.part p).tick).map fun i => .wake c i) ∧
      ((s.part p).loose = true → missed s u p c sa 2) := by
  intro u
  have probe : s.awakeProbe (s.ctx p c .m) sa kind poison = if (s.part p).loose then missProbe sa 2 else
      ⟨[], ((s.core c).asleep sa (s.part p).tick).map fun i => .wake c i⟩ := if_pos ⟨wakes, asleep⟩
  dsimp only [u]
  rw [probe, wakeOnCheck_check ha hg]
  cases loose : (s.part p).loose
  case true =>
    exact ⟨if_pos (wakeReached_miss s p c sa (by decide)), (fun strict => nomatch strict), fun _ => missed_probed s p c sa 2⟩
  case false =>
    exact ⟨if_pos (wakeReached_waits ..), fun _ => ⟨(s.conds_probed p c _).trans (List.append_nil _), s.waits_probed p c _⟩,
      (fun loose => nomatch loose)⟩

omit ha hg in
/-- With every sub-array of the mask awake, or none looked at, poison is what is left to find. -/
theorem State.awakeProbe_awake {kind : PortKind} (poison : Bool)
    (awake : kind = .drain ∨ (s.core c).asleep sa (s.part p).tick = []) :
    s.awakeProbe (s.ctx p c .m) sa kind poison = .when ((s.part p).loose && poison) (missProbe sa 0) :=
  if_neg fun h => awake.elim h.1 h.2

theorem startChecks_of_probe {w : Instr} {kind : PortKind} {poison : Bool} (wakes : kind ≠ .drain)
    (run : exec w s = .next (wakeOnCheck sa f s (s.probed p c (s.startProbe (s.ctx p c .m) sa kind poison)))) :
    startChecks s p c sa w kind poison := by
  refine ⟨fun busy => ⟨_, run, ?_⟩, fun free => ?_⟩
  · rw [s.startProbe_busy (s.ctx p c .m) sa kind poison busy, wakeOnCheck_check ha hg, wakeReached_miss s p c sa (by decide)]
    exact ⟨missed_probed s p c sa 1, rfl⟩
  · rw [s.startProbe_free (s.ctx p c .m) sa kind poison free] at run
    refine ⟨fun asleep => ?_, fun awake => ?_⟩
    · obtain ⟨woken, strict, loose⟩ := wakeOnCheck_asleep ha hg (poison := poison) wakes asleep
      rw [woken] at run
      exact ⟨_, run, fun i low named gated => State.getSa_woken_gated _ c _ low named gated,
        fun i _ kept => State.getSa_woken_kept _ c _ kept, strict, loose⟩
    · rw [s.awakeProbe_awake poison (.inr awake)] at run
      obtain ⟨same, part⟩ := wakeOnCheck_awake ha hg (u := s.probed p c (.when ((s.part p).loose && poison) (missProbe sa 0))) awake
      refine ⟨_, run, same, fun found => ?_, fun clean => ?_⟩
      · unfold missed
        rw [part, found]
        exact missed_probed s p c sa 0
      · rw [part, clean]
        exact quiet_probed s p c

/-- A waking word whose own checks come down to its start check. -/
theorem wakingWord_check {w i : Instr} {pr : Ctx → State → Probe} {e : Ctx → State → State} {kind : PortKind} {poison : Bool}
    (limits : i.entryLimits = true) (probe : pr (s.ctx p c .m) s.popItem = s.startProbe (s.ctx p c .m) sa kind poison)
    (run : exec w s = .next (wakeOnCheck sa f s (nativeWord .m i f pr e s))) :
    exec w s = .next (wakeOnCheck sa f s (s.probed p c (s.startProbe (s.ctx p c .m) sa kind poison))) := by
  rw [run, nativeWord_check_probed ha hg limits, probe]

theorem startChecks_mma {tk : Num4} {rows : BitVec 38} (limits : (Instr.mma f sa tk rows).entryLimits = true) :
    startChecks s p c sa (.mma f sa tk rows) .row ((s.core c).mmaPoison sa rows.toNat) :=
  startChecks_of_probe ha hg (by decide) (wakingWord_check ha hg limits rfl rfl)

theorem startChecks_mlw {tk : Num4} (limits : (Instr.mlw f sa tk).entryLimits = true) :
    startChecks s p c sa (.mlw f sa tk) .weight false :=
  startChecks_of_probe ha hg (by decide) (wakingWord_check ha hg limits rfl rfl)

/-- MLWP looks first at the formats that take noise, then at the two entries that it pops. -/
theorem startChecks_mlwp {tk tkb : Num4} {ns : Num3} (limits : (Instr.mlwp f sa tk tkb ns).entryLimits = true)
    (formats : ∀ i < 4, sa.getLsbD i = true → ((s.core c).getSa i).cfg.fmtB = .bf16 ∨ ((s.core c).getSa i).cfg.fmtB = .e4m3)
    {b m : QEntry} {rest : List QEntry} (front : (s.core c).getQueue 12 = b :: m :: rest) (first : b.landed = true)
    (second : m.landed = true) : startChecks s p c sa (.mlwp f sa tk tkb ns) .weight (b.p || m.p) := by
  have noisy : ((selected sa).any fun i =>
      !(((s.core c).getSa i).cfg.fmtB == .bf16 || ((s.core c).getSa i).cfg.fmtB == .e4m3)) = false := by
    refine List.any_eq_false.mpr fun i inside => ?_
    obtain ⟨low, named⟩ := mem_selected.mp inside
    rcases formats i low named with format | format <;> simp [format]
  have base : s.popProbe c 12 (s.part p).tick 0 = .ok := by simp only [State.popProbe, front, listNth, first, if_true]
  have len : s.popProbe c 12 (s.part p).tick 1 = .ok := by simp only [State.popProbe, front, listNth, second, if_true]
  exact startChecks_of_probe ha hg (by decide) (wakingWord_check ha hg limits ((loadChecks_ok noisy base len).trans
    (congrArg (s.startProbe (s.ctx p c .m) sa .weight) (boundsPoison_cons front))) rfl)

/-- MRD wakes nothing and looks at no poison. -/
theorem exec_mrd_check {tk : Num4} {fmt : Fmt} {rm : Rm} {n : BitVec 30} (limits : (Instr.mrd f sa tk fmt rm n).entryLimits = true)
    (formats : ∀ i < 4, sa.getLsbD i = true → fmt = .fp32 ∨ fmt = .bf16 ∨
      if isIntPair ((s.core c).getSa i).cfg.fmtA then fmt = .int32 ∨ fmt = .int8 else fmt = .acc26) :
    exec (.mrd f sa tk fmt rm n) s = .next (s.probed p c (s.startProbe (s.ctx p c .m) sa .drain false)) := by
  have suits : ((selected sa).any fun i => drainUnfit fmt (isIntPair ((s.core c).getSa i).cfg.fmtA)) = false := by
    refine List.any_eq_false.mpr fun i inside => ?_
    obtain ⟨low, named⟩ := mem_selected.mp inside
    simp [drainUnfit_of_suits (formats i low named)]
  have checks : (Probe.when ((selected sa).any fun i => drainUnfit fmt (isIntPair ((s.core c).getSa i).cfg.fmtA))
      (.trap .illegalFormat (s.ctx p c .m).who.word)).andThen (s.startProbe (s.ctx p c .m) sa .drain false) =
      s.startProbe (s.ctx p c .m) sa .drain false := by
    rw [suits, Probe.when_false, Probe.ok_andThen]
  exact congrArg Host.Outcome.next ((nativeWord_check_probed ha hg limits).trans (congrArg (s.probed p c) checks))

end

end Sys2Proof.Machine

namespace Sys2Proof.Proofs

open Sys2Proof.Machine

/-- Settles O39: the check of each word comes down to its start check, which `startChecks_of_probe` settles for the words that wake. -/
theorem matrixStartChecks : Obligations.MatrixStartChecks := by
  intro s f p c sa tk tkb ns rows fmt rm n l ha hg k t some_ asleep miss quiet same busy wakes starts
  refine ⟨fun limits => startChecks_mma ha hg limits, fun limits => startChecks_mlw ha hg limits,
    fun b m rest limits formats front first second => startChecks_mlwp ha hg limits formats front first second,
    fun limits formats => ?_⟩
  have run := exec_mrd_check ha hg limits formats
  refine ⟨fun busy => ⟨_, run, ?_⟩, fun free => ⟨_, run, ?_⟩⟩
  · rw [s.startProbe_busy (s.ctx p c .m) sa .drain false busy]
    exact ⟨missed_probed s p c sa 1, rfl⟩
  · rw [s.startProbe_free (s.ctx p c .m) sa .drain false free, s.awakeProbe_awake false (.inl rfl), Bool.and_false]
    exact ⟨quiet_probed s p c, rfl⟩

end Sys2Proof.Proofs
end

section
/-! PROOF. Engine words (03 R56, 12 R249, R252): the class and operand of a word, what each launch class reads, and both directions
between words and instructions. -/

namespace Sys2Proof

/-! ### Codes and fields -/

theorem CombOp.coding : Coding 2 CombOp.code CombOp.ofCode? where
  lt m := by cases m <;> decide
  read m := by cases m <;> rfl
  only n m h := by unfold CombOp.ofCode? at h; split at h <;> cases h <;> rfl

/-- A number that fits a field whose lowest bit is bit 0 is that field. -/
theorem fld_zero_of_lt {o w : Nat} (h : o < 2 ^ w) : fld o 0 w = o := by
  rw [fld, pow_zero, Nat.div_one, Nat.mod_eq_of_lt h]

theorem n4_val_zero (a : Num4) : n4 a.val 0 = a := by rw [n4_eq, fld_zero_of_lt a.isLt, Fin.ofNat_val_eq_self]
theorem n3_val_zero (a : Num3) : n3 a.val 0 = a := by rw [n3_eq, fld_zero_of_lt a.isLt, Fin.ofNat_val_eq_self]
theorem bits_toNat_zero {n : Nat} (v : BitVec n) : bits n v.toNat 0 = v := by
  rw [bits_eq, fld_zero_of_lt v.isLt, BitVec.ofNat_toNat, BitVec.setWidth_eq]

/-- The sub-operation of a launch word's operand. -/
theorem launch_sub {base a k : Nat} (top : base = k * 256) (small : a < 256) : (base + a) / 256 = k := by omega
theorem launch_arg {base a k : Nat} (top : base = k * 256) (small : a < 256) : (base + a) % 256 = a := by omega

theorem pair_lt {a : Nat} (high : a < 16) (b : Num4) : a * 16 + b.val < 256 := by omega
theorem pair_high (a : Nat) (b : Num4) : (a * 16 + b.val) / 16 = a := by omega
theorem n4_pair_high (a b : Num4) : n4 (a.val * 16 + b.val) 4 = a := Fin.ext (by simp only [n4_val, fld]; omega)
theorem n4_pair_low (a : Nat) (b : Num4) : n4 (a * 16 + b.val) 0 = b := Fin.ext (by simp only [n4_val, fld]; omega)

/-! ### An instruction's own word decodes to it -/

theorem Instr.engineParts_fit {i : Instr} {c o : Nat} (h : i.engineParts = some (c, o)) : c < 2 ^ 4 ∧ o < 2 ^ 12 := by
  cases i <;> cases h
  case comb op st => have code := CombOp.coding.lt op; omega
  all_goals omega

theorem decodeCopy_of_parts {i : Instr} {o : Nat} (wf : i.wellFormed = true) (parts : i.engineParts = some (9, o)) :
    decodeCopy (o / 256) (o % 256) = .ok i := by
  cases i <;> cases parts
  case nestCount l | nestSrc l | nestDst l => revert l; decide
  case nestClear => rfl
  case copy a b =>
    rw [Nat.add_assoc, launch_sub (k := 1) rfl (pair_lt a.isLt b), launch_arg (k := 1) rfl (pair_lt a.isLt b)]
    simp only [decodeCopy, n4_pair_high, n4_pair_low]
  case plane a b =>
    rw [Nat.add_assoc, launch_sub (k := 2) rfl (pair_lt a.isLt b), launch_arg (k := 2) rfl (pair_lt a.isLt b)]
    simp only [decodeCopy, n4_pair_high, n4_pair_low]
  case fill b =>
    have small : b.val < 256 := by omega
    rw [launch_sub (k := 3) rfl small, launch_arg (k := 3) rfl small]
    simp only [decodeCopy, n4_val_zero, Nat.div_eq_of_lt b.isLt, if_true]

theorem decodeTie_of_parts {i : Instr} {o : Nat} (parts : i.engineParts = some (10, o)) :
    decodeTie (o / 256) (o % 256) = .ok i := by
  cases i <;> cases parts
  case tload td => revert td; decide
  case trun a b =>
    rw [Nat.add_assoc, launch_sub (k := 1) rfl (pair_lt a.isLt b), launch_arg (k := 1) rfl (pair_lt a.isLt b)]
    simp only [decodeTie, n4_pair_high, n4_pair_low]

theorem decodeFx_of_parts {i : Instr} {o : Nat} (parts : i.engineParts = some (11, o)) :
    decodeFx (o / 256) (o % 256) = .ok i := by
  cases i <;> cases parts
  case send a b =>
    rw [Nat.div_eq_of_lt (pair_lt a.isLt b), Nat.mod_eq_of_lt (pair_lt a.isLt b)]
    simp only [decodeFx, n4_pair_high, n4_pair_low]
  case comb op b =>
    have small := pair_lt ((CombOp.coding.lt op).trans (by decide)) b
    rw [Nat.add_assoc, launch_sub (k := 1) rfl small, launch_arg (k := 1) rfl small]
    simp only [decodeFx, pair_high, CombOp.coding.read, n4_pair_low]

/-- A word of an instruction's class and operand decodes to it, a launch word in its own engine. -/
theorem decodeEngineNat_of_parts {i : Instr} {c o n : Nat} (wf : i.wellFormed = true) (parts : i.engineParts = some (c, o))
    (cls : n / 2 ^ 12 % 16 = c) (operand : n % 2 ^ 12 = o) : decodeEngineNat (engineOfWord n) n = .ok i := by
  unfold decodeEngineNat engineOfWord
  rw [cls, operand]
  cases i
  case nestCount | nestSrc | nestDst | nestClear | copy | plane | fill => cases parts; exact decodeCopy_of_parts wf rfl
  case tload | trun => cases parts; exact decodeTie_of_parts rfl
  case send | comb => cases parts; exact decodeFx_of_parts rfl
  case param m => cases parts; simp only [n3_val_zero, Nat.div_eq_of_lt m.isLt, if_true]
  case lit | litn | lith | jmp | jz | chain => cases parts; simp only [bits_toNat_zero]
  all_goals cases parts <;> rfl

/-! ### A word decodes only to the instruction whose word it is -/

/-- What is decoded, if anything, is a well-formed instruction of class `c` and operand `o`. -/
def EngineDecode.Reads (c o : Nat) : EngineDecode → Prop
  | .ok i => i.wellFormed = true ∧ i.engineParts = some (c, o)
  | _ => True

theorem EngineDecode.reads_ite {c o : Nat} {p : Prop} [Decidable p] {a b : EngineDecode} (ha : p → a.Reads c o)
    (hb : ¬p → b.Reads c o) : (if p then a else b).Reads c o := by
  split
  next h => exact ha h
  next h => exact hb h

theorem Instr.parts_of_operand {i : Instr} {c a o : Nat} (parts : i.engineParts = some (c, a)) (same : a = o) :
    i.engineParts = some (c, o) := same ▸ parts

theorem Instr.wellFormed_of_limits {i : Instr} (limits : i.limitsOk = true) (formats : i.formatOk = true)
    (combo : i.comboOk = true) : i.wellFormed = true := by simp [Instr.wellFormed, limits, formats, combo]

section
open EngineDecode (reads_ite)
open Instr (wellFormed_of_limits parts_of_operand)

theorem decodeStack_reads (o : Nat) : (decodeStack o).Reads 3 o := by
  unfold decodeStack
  split
  case h_14 => exact trivial
  all_goals exact ⟨rfl, rfl⟩

theorem decodeCopy_reads (sub : Nat) {arg : Nat} (small : arg < 256) : (decodeCopy sub arg).Reads 9 (sub * 256 + arg) := by
  unfold decodeCopy
  split
  · refine reads_ite (fun _ => trivial) fun fits => ?_
    simp only [ne_eq, Bool.or_eq_true, decide_eq_true_eq, not_or, not_not, not_lt] at fits
    obtain ⟨short, level⟩ := fits
    have limit : decide ((n3 arg 0).val ≤ 5) = true := decide_eq_true (by simp only [n3_val, fld]; omega)
    split
    · exact ⟨wellFormed_of_limits limit rfl rfl, parts_of_operand rfl (by simp only [n3_val, fld]; omega)⟩
    · exact ⟨wellFormed_of_limits limit rfl rfl, parts_of_operand rfl (by simp only [n3_val, fld]; omega)⟩
    · exact ⟨wellFormed_of_limits limit rfl rfl, parts_of_operand rfl (by simp only [n3_val, fld]; omega)⟩
    next not0 not1 not2 =>
      refine reads_ite (fun zero => ?_) fun _ => trivial
      rw [imp_false] at not0 not1 not2
      have whole : 24 = 0 * 256 + arg := by omega
      exact ⟨rfl, parts_of_operand rfl whole⟩
  · exact ⟨rfl, parts_of_operand rfl (by simp only [n4_val, fld]; omega)⟩
  · exact ⟨rfl, parts_of_operand rfl (by simp only [n4_val, fld]; omega)⟩
  · exact reads_ite (fun _ => ⟨rfl, parts_of_operand rfl (by simp only [n4_val, fld]; omega)⟩) fun _ => trivial
  · exact trivial

theorem decodeTie_reads (sub : Nat) {arg : Nat} (small : arg < 256) : (decodeTie sub arg).Reads 10 (sub * 256 + arg) := by
  unfold decodeTie
  split
  · exact reads_ite (fun _ => ⟨rfl, parts_of_operand rfl (by simp only [n3_val, fld]; omega)⟩) fun _ => trivial
  · exact ⟨rfl, parts_of_operand rfl (by simp only [n4_val, fld]; omega)⟩
  · exact trivial

theorem decodeFx_reads (sub : Nat) {arg : Nat} (small : arg < 256) : (decodeFx sub arg).Reads 11 (sub * 256 + arg) := by
  unfold decodeFx
  split
  · exact ⟨rfl, parts_of_operand rfl (by simp only [n4_val, fld]; omega)⟩
  · split
    next op found =>
      have code := CombOp.coding.only _ _ found
      exact ⟨rfl, parts_of_operand (i := .comb op _) rfl (by rw [← code, n4_val, fld]; omega)⟩
    next => exact trivial
  · exact trivial

theorem decodeEngineNat_reads (e : EngineId) (n : Nat) :
    (decodeEngineNat e n).Reads (n / 2 ^ 12 % 16) (n % 2 ^ 12) := by
  have small : n % 2 ^ 12 % 256 < 256 := Nat.mod_lt _ (by decide)
  have join : n % 2 ^ 12 / 256 * 256 + n % 2 ^ 12 % 256 = n % 2 ^ 12 := Nat.div_add_mod' _ _
  have number : (bits 12 (n % 2 ^ 12) 0).toNat = n % 2 ^ 12 :=
    (bits_toNat _ _ _).trans (fld_zero_of_lt (Nat.mod_lt _ (by decide)))
  have copy := decodeCopy_reads (n % 2 ^ 12 / 256) small
  have tie := decodeTie_reads (n % 2 ^ 12 / 256) small
  have fx := decodeFx_reads (n % 2 ^ 12 / 256) small
  rw [join] at copy tie fx
  unfold decodeEngineNat
  split
  case h_1 cls | h_2 cls | h_3 cls | h_6 cls | h_7 cls | h_13 cls =>
    rw [cls]
    exact ⟨rfl, parts_of_operand rfl number⟩
  case h_4 cls => rw [cls]; exact decodeStack_reads _
  case h_5 cls =>
    rw [cls]
    exact reads_ite (fun _ => ⟨rfl, parts_of_operand rfl (by simp only [n3_val, fld]; omega)⟩) fun _ => trivial
  case h_8 cls | h_9 cls | h_14 cls =>
    rw [cls]
    exact reads_ite (fun zero => ⟨rfl, parts_of_operand rfl zero.symm⟩) fun _ => trivial
  case h_10 cls => rw [cls]; exact reads_ite (fun _ => copy) fun _ => trivial
  case h_11 cls => rw [cls]; exact reads_ite (fun _ => tie) fun _ => trivial
  case h_12 cls => rw [cls]; exact reads_ite (fun _ => fx) fun _ => trivial
  case h_15 => exact trivial

end

/-! ### Words -/

theorem encodeEngine_eq_some (i : Instr) (w : BitVec 16) : encodeEngine i = some w ↔
    ∃ c o, i.engineParts = some (c, o) ∧ BitVec.ofNat 16 (c * 2 ^ 12 + o) = w := by
  unfold encodeEngine
  cases parts : i.engineParts with
  | none => simp
  | some p => obtain ⟨c, o⟩ := p; simp

/-- The class and the operand of the word that they make. -/
theorem engineWord_parts {c o : Nat} (cls : c < 2 ^ 4) (operand : o < 2 ^ 12) :
    (BitVec.ofNat 16 (c * 2 ^ 12 + o)).toNat / 2 ^ 12 % 16 = c ∧ (BitVec.ofNat 16 (c * 2 ^ 12 + o)).toNat % 2 ^ 12 = o := by
  rw [BitVec.toNat_ofNat]
  omega

/-- A launch word in an engine that is not the one of its class. -/
theorem decodeEngineNat_wrongEngine {e : EngineId} {n : Nat} (launch : 9 ≤ n / 2 ^ 12 ∧ n / 2 ^ 12 ≤ 11)
    (other : e ≠ engineOfWord n) : decodeEngineNat e n = .wrongEngine := by
  obtain cls | cls | cls : n / 2 ^ 12 % 16 = 9 ∨ n / 2 ^ 12 % 16 = 10 ∨ n / 2 ^ 12 % 16 = 11 := by omega
  all_goals
    unfold engineOfWord at other
    rw [cls] at other
    unfold decodeEngineNat
    rw [cls]
    exact if_neg other

end Sys2Proof

namespace Sys2Proof.Proofs

/-- Settles O4: an instruction's class and operand make its word, from which the decoder reads the same class and operand. -/
theorem engineWordsRoundTrip : Obligations.EngineWordsRoundTrip := by
  refine ⟨fun i w wf encoded => ?back, fun e i w decoded => ?forth,
    fun e w launch other => decodeEngineNat_wrongEngine launch other⟩
  case back =>
    obtain ⟨c, o, parts, rfl⟩ := (encodeEngine_eq_some i w).mp encoded
    obtain ⟨cls, operand⟩ := Instr.engineParts_fit parts
    obtain ⟨own, rest⟩ := engineWord_parts cls operand
    exact decodeEngineNat_of_parts wf parts own rest
  case forth =>
    have read : (EngineDecode.ok i).Reads (w.toNat / 2 ^ 12 % 16) (w.toNat % 2 ^ 12) := decoded ▸ decodeEngineNat_reads e w.toNat
    obtain ⟨wf, parts⟩ := read
    have number : w.toNat / 2 ^ 12 % 16 * 2 ^ 12 + w.toNat % 2 ^ 12 = w.toNat := by omega
    exact ⟨wf, (encodeEngine_eq_some i w).mpr ⟨_, _, parts, by rw [number, BitVec.ofNat_toNat, BitVec.setWidth_eq]⟩⟩

end Sys2Proof.Proofs
end

section
/-! PROOF. The common part of engine words (12 R249, R250): an engine word that runs in the terms of `Claims.Executes`, and
the engine that stack, arithmetic and control words leave. -/

namespace Sys2Proof.Machine

open Sys2Proof.Claims (Executes engineAt following moved)

/-! ### An engine word that runs -/

/-- An update of the engine that has moved on. -/
theorem moved_modEng (s : State) (c : Nat) (e : EngineId) (g : Engine) (f : Engine → Engine) :
    ((moved s c e g).modCore c fun k => k.modEng (engNum e) f) = moved s c e (f g) := by
  rw [moved, State.modCore_modCore, moved]
  exact congrArg (s.popItem.setCore c) (Core.modEng_modEng (s.core c) (engNum e) (fun _ => g) f)

theorem getEng_moved (s : State) (c : Nat) (e : EngineId) (g : Engine) : ((moved s c e g).core c).getEng (engNum e) = g := by
  rw [moved, State.core_modCore, Core.getEng_setEng]

theorem Engine.nextIndex_none (g : Engine) : (g.nextIndex none).toNat = following g := by
  have next : ((g.pc : Int) + 1).toNat = g.pc + 1 := rfl
  rcases left : g.rep with _ | _ | _ | n <;> simp [nextIndex, following, left, next]

section
variable {s : State} {launch : Bool} {c : Nat} {e : EngineId} {x : Ctx} {g : Engine} (h : Executes s launch c e x g)
include h

theorem core_of_executes : x.c = c := by
  cases h
  rfl

/-- A word that runs drops its operands and goes on to its next index; then it has its effect. -/
theorem engineWord_of_executes {pops pushes : Nat} {tg : Engine → List Word → Option Int}
    {pr : Ctx → EngineId → List Word → State → EngProbe} {ef : Ctx → EngineId → List Word → State → State} :
    engineWord pops pushes launch tg pr ef s = ef x e (g.stack.take pops)
      (moved s c e (engineAt g (g.stack.drop pops) (g.nextIndex (tg g (g.stack.take pops))).toNat)) := by
  cases h with
  | intro p c e l agenda running free =>
    refine engineWord_runs agenda ?_
    have idle : (launch && decide ((s.part p).tick < ((s.core c).getEng (engNum e)).busy)) = false := by
      cases launch
      · rfl
      · exact decide_eq_false (Nat.not_lt.mpr (free rfl))
    rw [Engine.ready, running, idle]
    rfl

/-- A word that goes on to the next one. -/
theorem engineWord_goes_on {pops pushes : Nat} {pr : Ctx → EngineId → List Word → State → EngProbe}
    {ef : Ctx → EngineId → List Word → State → State} : engineWord pops pushes launch noTarget pr ef s =
      ef x e (g.stack.take pops) (moved s c e (engineAt g (g.stack.drop pops) (following g))) := by
  rw [engineWord_of_executes h, noTarget, Engine.nextIndex_none]

end

/-! ### Stack words (12 R250) -/

section
variable {s : State} {c : Nat} {e : EngineId} {x : Ctx} {g : Engine} (h : Executes s false c e x g)
include h

theorem pushStack_moved (m : Engine) (l : List Word) :
    (moved s c e m).pushStack x e l = moved s c e { m with stack := l.reverse ++ m.stack } := by
  rw [State.pushStack, core_of_executes h, moved_modEng]

/-- A stack word whose operands are `args`: its results go on what stands under them. -/
theorem stackWord_of_executes {args l : List Word} {pushes : Nat} {f : List Word → List Word} (operands : g.stack = args ++ l) :
    stackWord args.length pushes f s = moved s c e (engineAt g ((f args).reverse ++ l) (following g)) := by
  rw [stackWord, engineWord_goes_on h, pushStack_moved h, operands, List.take_left, List.drop_left]
  rfl

end

/-! ### Control words (12 R248 to R251) -/

theorem Engine.nextIndex_where (g : Engine) (p : Prop) [Decidable p] (i : Int) :
    (g.nextIndex (if p then some i else none)).toNat = if p then i.toNat else following g := by
  split
  · rfl
  · exact g.nextIndex_none

section
variable {s : State} {c : Nat} {e : EngineId} {x : Ctx} {g : Engine} (h : Executes s false c e x g)
  {args l : List Word} (operands : g.stack = args ++ l) {target : Engine → List Word → Option Int} {i : Nat}
  (goes : (g.nextIndex (target g args)).toNat = i)
include h operands goes

/-- An engine word that has no effect but where it goes. -/
theorem engineWord_jump :
    engineWord args.length 0 false target noEngCheck (fun _ _ _ s => s) s = moved s c e (engineAt g l i) := by
  rw [engineWord_of_executes h, operands, List.take_left, List.drop_left, goes]

/-- An engine word that updates its engine. -/
theorem engineWord_updates {pr : Ctx → EngineId → List Word → State → EngProbe} {update : Ctx → List Word → Engine → Engine} :
    engineWord args.length 0 false target pr (fun x e a s => s.modCore x.c fun k => k.modEng (engNum e) (update x a)) s =
      moved s c e (update x args (engineAt g l i)) := by
  rw [engineWord_of_executes h, operands, List.take_left, List.drop_left, goes, core_of_executes h, moved_modEng]

end

end Sys2Proof.Machine

namespace Sys2Proof.Proofs

open Sys2Proof.Machine Sys2Proof.Claims

/-- Settles O41: each word is a `stackWord` of its operands, but PARAM, which reads the parameter block. -/
theorem engineStackWords : Obligations.EngineStackWords := by
  intro s c e x g h goes
  have word {i : Instr} {args l r : List Word} {pushes : Nat} {f : List Word → List Word}
      (run : exec i s = .next (stackWord args.length pushes f s)) (operands : g.stack = args ++ l)
      (results : (f args).reverse ++ l = r) : goes i r :=
    run.trans (congrArg Host.Outcome.next (results ▸ stackWord_of_executes h operands))
  refine ⟨fun v => ⟨?_, ?_⟩, fun n => ?param, fun a l front => ?one, fun a b l front => ?two, fun a b d l front => ?three⟩
  · exact word (args := []) rfl rfl rfl
  · exact word (args := []) rfl rfl rfl
  case param =>
    refine congrArg Host.Outcome.next ((engineWord_goes_on h).trans ?_)
    rw [core_of_executes h, getEng_moved, pushStack_moved h]
    rfl
  case one =>
    have operand : g.stack = [a] ++ l := front
    exact ⟨word rfl operand rfl, word rfl operand rfl, fun v => word rfl operand rfl⟩
  case two =>
    have operands : g.stack = [b, a] ++ l := front
    exact ⟨word rfl operands rfl, word rfl operands rfl, word rfl operands rfl, word rfl operands rfl, word rfl operands rfl,
      word rfl operands rfl, word rfl operands rfl, word rfl operands rfl, word rfl operands rfl, word rfl operands rfl⟩
  case three =>
    have operands : g.stack = [d, b, a] ++ l := front
    exact word rfl operands rfl

/-- Settles O42: JMP and JZ only go on; the others update the engine that has moved on. -/
theorem engineControlWords : Obligations.EngineControlWords := by
  intro s c e x g h becomes
  have next : (g.nextIndex none).toNat = following g := g.nextIndex_none
  refine ⟨fun i => ?jmp, fun o a l front => ?jz, fun a l front => ?repw, fun i => ?chain, fun a l front => ?result, ?endE⟩
  case jmp => exact congrArg Host.Outcome.next (engineWord_jump h (args := []) rfl rfl)
  case jz => exact congrArg Host.Outcome.next (engineWord_jump h (args := [a]) front (g.nextIndex_where (a = 0) _))
  case repw => exact congrArg Host.Outcome.next (engineWord_updates h (args := [a]) front (g.nextIndex_where (a = 0) _))
  case chain => exact congrArg Host.Outcome.next (engineWord_updates h (args := []) rfl next)
  case result => exact congrArg Host.Outcome.next (engineWord_updates h (args := [a]) front next)
  case endE => exact congrArg Host.Outcome.next (engineWord_updates h (args := []) rfl rfl)

end Sys2Proof.Proofs
end

section
/-! PROOF. The stack traps of engine words at their check (12 R249, R250): how many operands each word takes and how many results it
leaves, and what a check raises where the operands are too few or the results do not fit. -/

namespace Sys2Proof.Machine

open Sys2Proof.Claims (raised)

/-! ### Operands and results (12 R250, R252) -/

/-- The operands that an engine word takes, the results that it leaves, and whether it waits for its datapath. -/
def stackUse : Instr → Option (Nat × Nat × Bool)
  | .lit _ | .litn _ | .param _ => some (0, 1, false)
  | .lith _ => some (1, 1, false)
  | .dup => some (1, 2, false)
  | .drop | .jz _ | .repw | .result => some (1, 0, false)
  | .swap => some (2, 2, false)
  | .over => some (2, 3, false)
  | .rot => some (3, 3, false)
  | .engAdd | .engSub | .engMul | .engAnd | .engOr | .engXor | .engShl | .engShr => some (2, 1, false)
  | .nestCount _ | .tload _ | .send _ _ => some (1, 0, true)
  | .nestSrc _ | .nestDst _ | .copy _ _ | .plane _ _ | .trun _ _ => some (4, 0, true)
  | .fill _ | .comb _ _ => some (5, 0, true)
  | _ => none

/-- Executing an engine word is the common part of engine words, with the word's own operands and results. -/
theorem runsAsEngineWord {i : Instr} {pops pushes : Nat} {launch : Bool} (use : stackUse i = some (pops, pushes, launch)) :
    ∃ target probe effect, ∀ s, exec i s = .next (engineWord pops pushes launch target probe effect s) := by
  cases i <;> cases use <;> exact ⟨_, _, _, fun _ => rfl⟩

/-! ### The traps of a check -/

/-- The trap of a stack that a word does not find as it needs it: the microprogram is abandoned (12 R249). -/
def State.stackTrap (s : State) (p c : Nat) (e : EngineId) (g : Engine) (cause : Nat) : TrapCond :=
  ⟨(s.part p).tick, .parameterStack, (s.engCtx p c e).who,
    engStatus g.stack.length (engNum e) g.pc + BitVec.ofNat 64 (cause * 2 ^ 32), .abandon c (engNum e) g.prog⟩

theorem raiseEngine_stack {s : State} {p c : Nat} {e : EngineId} {g : Engine} (eng : (s.core c).getEng (engNum e) = g)
    (cause : Nat) : raiseEngine (s.engCtx p c e) s (s.engFault (s.engCtx p c e) e .parameterStack cause) =
      raised s p (s.stackTrap p c e g cause) := by
  subst eng
  simp only [raiseEngine, State.engFault, raised, List.append_nil]
  rfl

section
variable {s : State} {p c : Nat} {e : EngineId} {l : List Item} {g : Engine} (agenda : s.agenda = .checkEngine p c e :: l)
  (eng : (s.core c).getEng (engNum e) = g) {launch : Bool} (ready : g.ready launch (s.part p).tick = true)
  {pops pushes : Nat} {target : Engine → List Word → Option Int} {probe : Ctx → EngineId → List Word → State → EngProbe}
  {effect : Ctx → EngineId → List Word → State → State}
include agenda eng ready

theorem engineWord_underflow (few : g.stack.length < pops) : engineWord pops pushes launch target probe effect s =
    raised s.popItem p (s.stackTrap p c e g 2) := by
  have there : (s.popItem.core c).getEng (engNum e) = g := eng
  have now : g.ready launch (s.popItem.engCtx p c e).t = true := ready
  simp only [engineWord, agenda, there, now, few, Bool.not_true, Bool.false_eq_true, if_false, if_true]
  exact raiseEngine_stack there 2

theorem engineWord_overflow (enough : pops ≤ g.stack.length) (many : 8 < g.stack.length - pops + pushes) :
    engineWord pops pushes launch target probe effect s = raised s.popItem p (s.stackTrap p c e g 1) := by
  have there : (s.popItem.core c).getEng (engNum e) = g := eng
  have now : g.ready launch (s.popItem.engCtx p c e).t = true := ready
  simp only [engineWord, agenda, there, now, Nat.not_lt.mpr enough, many, Bool.not_true, Bool.false_eq_true, if_false, if_true]
  exact raiseEngine_stack there 1

end

section
variable {s : State} {p c : Nat} {e : EngineId} {l : List Item} {g : Engine} (agenda : s.agenda = .checkEngine p c e :: l)
  (eng : (s.core c).getEng (engNum e) = g) {launch : Bool} (ready : g.ready launch (s.part p).tick = true)
  {i : Instr} {pops pushes : Nat} (use : stackUse i = some (pops, pushes, launch))
include agenda eng ready use

theorem exec_underflow (few : g.stack.length < pops) : exec i s = .next (raised s.popItem p (s.stackTrap p c e g 2)) := by
  obtain ⟨target, probe, effect, run⟩ := runsAsEngineWord use
  exact (run s).trans (congrArg Host.Outcome.next (engineWord_underflow agenda eng ready few))

theorem exec_overflow (enough : pops ≤ g.stack.length) (many : 8 < g.stack.length - pops + pushes) :
    exec i s = .next (raised s.popItem p (s.stackTrap p c e g 1)) := by
  obtain ⟨target, probe, effect, run⟩ := runsAsEngineWord use
  exact (run s).trans (congrArg Host.Outcome.next (engineWord_overflow agenda eng ready enough many))

end

end Sys2Proof.Machine

namespace Sys2Proof.Proofs

open Sys2Proof.Machine

/-- Settles O43: what a word takes and leaves, `stackUse`, decides the trap. -/
theorem engineStackLimits : Obligations.EngineStackLimits := by
  intro s p c e l g agenda eng running traps
  have awake : g.ready false (s.part p).tick = true := by simp [Engine.ready, running]
  have starts (free : g.busy ≤ (s.part p).tick) : g.ready true (s.part p).tick = true := by simp [Engine.ready, running, free]
  have under {i : Instr} {pops pushes : Nat} : stackUse i = some (pops, pushes, false) → g.stack.length < pops → traps i 2 :=
    exec_underflow agenda eng awake
  have launch {i : Instr} {pops pushes : Nat} (use : stackUse i = some (pops, pushes, true)) (free : g.busy ≤ (s.part p).tick) :
      g.stack.length < pops → traps i 2 := exec_underflow agenda eng (starts free) use
  have full {i : Instr} {pops pushes : Nat} (use : stackUse i = some (pops, pushes, false)) (depth : g.stack.length = 8)
      (more : pops < pushes) (fits : pops ≤ 8) : traps i 1 := exec_overflow agenda eng awake use (by omega) (by omega)
  refine ⟨fun empty => ?none, fun two => ?two, fun three => under rfl three, fun free a b n op => ?launches, fun depth => ?full⟩
  case none =>
    have one : g.stack.length < 1 := by rw [empty]; exact Nat.zero_lt_one
    exact ⟨under rfl one, under rfl one, under rfl one, under rfl one, fun v => ⟨under rfl one, under rfl one⟩,
      fun free => ⟨fun n => ⟨launch rfl free one, launch rfl free one⟩, fun a b => launch rfl free one⟩⟩
  case two =>
    simp only [List.forall_mem_cons]
    exact ⟨under rfl two, under rfl two, under rfl two, under rfl two, under rfl two, under rfl two, under rfl two, under rfl two,
      under rfl two, under rfl two, fun i none => nomatch none⟩
  case launches =>
    refine ⟨fun four => ?_, fun five => ⟨launch rfl free five, launch rfl free five⟩⟩
    simp only [List.forall_mem_cons]
    exact ⟨launch rfl free four, launch rfl free four, launch rfl free four, launch rfl free four, launch rfl free four,
      fun i none => nomatch none⟩
  case full =>
    exact ⟨full rfl depth (by decide) (by decide), full rfl depth (by decide) (by decide),
      fun v => ⟨full rfl depth (by decide) (by decide), full rfl depth (by decide) (by decide)⟩,
      fun n => full rfl depth (by decide) (by decide)⟩

end Sys2Proof.Proofs
end

section
/-! PROOF. The events of an engine (12 R248, R251, R255, R257): a microprogram that begins, and the oldest result that lands. -/

namespace Sys2Proof.Machine

open Sys2Proof.Claims (started)

/-! ### Microprograms begin (12 R248, R257) -/

section
variable (k : Core) (e : Nat)

theorem Core.begin_eq (f : Engine → Engine) : k.begin e f = { k.modEng e fun g => f (started g g.pc) with
    nest := if e = 0 then [] else k.nest } := by
  unfold begin
  dsimp only
  split <;> rfl

theorem Core.nest_begin (f : Engine → Engine) : (k.begin e f).nest = if e = 0 then [] else k.nest := by rw [begin_eq]

theorem Core.getEng_begin (f : Engine → Engine) : (k.begin e f).getEng e = f (started (k.getEng e) (k.getEng e).pc) := by
  rw [begin_eq]
  exact k.getEng_modEng e fun g => f (started g g.pc)

theorem Core.getEng_startCommand (cmd : EngCmd) (l : List EngCmd) : (k.startCommand e cmd l).getEng e =
    started { k.getEng e with cmds := l, block := blockOf cmd.params, chain := cmd.chain, gate := cmd.gate } cmd.entry := by
  rw [startCommand, getEng_begin]
  rfl

theorem Core.getEng_startChain (i : Nat) : (k.startChain e i).getEng e = started { k.getEng e with chain := none } i := by
  rw [startChain, getEng_begin]
  rfl

end

section
variable {s : State} {p c : Nat} {e : EngineId} (owner : s.popEvent.partOf c = some p)
include owner

theorem exec_engineCommandStart {cmd : EngCmd} {l : List EngCmd} (front : ((s.popEvent.core c).getEng (engNum e)).cmds = cmd :: l)
    (idle : ((s.popEvent.core c).getEng (engNum e)).running = false) (ended : ((s.popEvent.core c).getEng (engNum e)).endAt = none)
    (landed : cmd.land ≤ (s.popEvent.part p).tick) :
    exec (.engineCommandStart c e) s = .next (s.popEvent.modCore c fun k => k.startCommand (engNum e) cmd l) := by
  have can : ((s.popEvent.core c).getEng (engNum e)).canStart (s.popEvent.part p).tick = true := by
    simp [Engine.canStart, front, idle, ended, landed]
  change execEngineCommandStart c e s = _
  simp only [execEngineCommandStart, owner, front, can, if_true]

theorem exec_engineChainStart {i due : Nat} (chained : ((s.popEvent.core c).getEng (engNum e)).chain = some i)
    (idle : ((s.popEvent.core c).getEng (engNum e)).running = false)
    (ended : ((s.popEvent.core c).getEng (engNum e)).endAt = some due) (reached : due ≤ (s.popEvent.part p).tick) :
    exec (.engineChainStart c e) s = .next (s.popEvent.modCore c fun k => k.startChain (engNum e) i) := by
  have can : ((s.popEvent.core c).getEng (engNum e)).canChain (s.popEvent.part p).tick = true := by
    simp [Engine.canChain, idle, ended, reached]
  change execEngineChainStart c e s = _
  simp only [execEngineChainStart, owner, chained, can, if_true]

/-! ### Results (12 R251, R255) -/

/-- A result that an EPOP waits for ends that wait. -/
theorem exec_resultEntryLand_awaited (awaited : (s.popEvent.part p).waits.contains (.epop c (engNum e) true) = true) :
    exec (.resultEntryLand c e) s = .next (s.popEvent.modPart p fun k => k.clearWait (.epop c (engNum e) true)) := by
  change execResultEntryLand c e s = _
  simp only [execResultEntryLand, owner, awaited, if_true]

theorem exec_resultEntryLand_due {due : Nat} (alone : (s.popEvent.part p).waits.contains (.epop c (engNum e) true) = false)
    (ready : s.popEvent.resultReady p c (engNum e) = some due) (reached : due ≤ (s.popEvent.part p).tick) :
    exec (.resultEntryLand c e) s = .next (s.popEvent.modCore c fun k => k.landResult (engNum e)) := by
  change execResultEntryLand c e s = _
  simp only [execResultEntryLand, owner, alone, ready, reached, Bool.false_eq_true, if_false, if_true]

end

section
variable {l rest : List ResEntry} {r : ResEntry} (before : ∀ q ∈ l, q.landed = true) (waiting : r.landed = false)
include before waiting

theorem landFirst_append : landFirst (l ++ r :: rest) = l ++ { r with landed := true } :: rest := by
  induction l with
  | nil => simp [landFirst, waiting]
  | cons q l ih =>
    obtain ⟨landed, others⟩ := List.forall_mem_cons.mp before
    simp [landFirst, landed, ih others]

theorem find_notLanded : (l ++ r :: rest).find? (fun q => !q.landed) = some r := by
  have none : l.find? (fun q => !q.landed) = none := List.find?_eq_none.mpr fun q inside => by simp [before q inside]
  rw [List.find?_append, none, Option.none_or, List.find?_cons_of_pos (by simp [waiting])]

theorem State.resultReady_of_free {s : State} {p c e : Nat} (results : ((s.core c).getEng e).results = l ++ r :: rest)
    (free : s.resultFree p c e r = true) : s.resultReady p c e = some r.due := by
  simp only [resultReady, results, find_notLanded before waiting, free, if_true]

end

theorem State.resultFree_of {s : State} {p c e : Nat} {r : ResEntry} (wait : r.wait = []) (late : e = 0 → s.lateBeat p c r = false) :
    s.resultFree p c e r = true := by
  by_cases copy : e = 0
  · simp [resultFree, wait, late copy]
  · simp [resultFree, wait, copy]

end Sys2Proof.Machine

namespace Sys2Proof.Proofs

open Sys2Proof.Machine Sys2Proof.Claims

/-- Settles O45: a start is `Core.begin` of its microprogram, and the entry that lands is the first that has not. -/
theorem engineEvents : Obligations.EngineEvents := by
  intro s p c e t owner g now
  refine ⟨fun cmd l front idle ended landed => ?command, fun i due chained idle ended reached => ?chain, fun awaited => ?awaited,
    fun l r rest alone results before waiting wait late due => ?lands⟩
  case command =>
    refine ⟨_, exec_engineCommandStart owner front idle ended landed, rfl, ?_, ?_⟩
    · rw [State.core_modCore]
      exact Core.nest_begin ..
    · rw [State.core_modCore]
      exact Core.getEng_startCommand ..
  case chain =>
    refine ⟨_, exec_engineChainStart owner chained idle ended reached, rfl, ?_, ?_⟩
    · rw [State.core_modCore]
      exact Core.nest_begin ..
    · rw [State.core_modCore]
      exact Core.getEng_startChain ..
  case awaited => exact exec_resultEntryLand_awaited owner awaited
  case lands =>
    have ready := State.resultReady_of_free before waiting results (State.resultFree_of wait late)
    refine ⟨_, exec_resultEntryLand_due owner alone ready due, rfl, ?_⟩
    rw [State.core_modCore, Core.landResult, Core.getEng_modEng, results, landFirst_append before waiting]

end Sys2Proof.Proofs
end

section
/-! PROOF. Where the rows and elements of a launch lie (12 R256, R258, R261, R265): they go by the module's number, the core's loop
nest and its latencies. -/

namespace Sys2Proof.Machine

section
variable {s t : State} (same : t.modNum = s.modNum)
include same

theorem State.locOf_congr : t.locOf = s.locOf := by
  unfold locOf
  rw [same]

theorem State.element_congr : t.element = s.element := by
  unfold element
  rw [locOf_congr same]

theorem State.rowAt_congr : t.rowAt = s.rowAt := by
  unfold rowAt
  rw [locOf_congr same]

theorem State.sideRows_congr : t.sideRows = s.sideRows := by
  unfold sideRows
  rw [rowAt_congr same]

theorem State.placed_congr : t.placed = s.placed := by
  unfold placed
  rw [element_congr same]

theorem State.scalePlace_congr : t.scalePlace = s.scalePlace := by
  unfold scalePlace
  rw [locOf_congr same]

/-- The beats of a launch go by the module's number and the loop nest. -/
theorem State.rawBeats_congr {c : Nat} (nest : (t.core c).nest = (s.core c).nest) : t.rawBeats c = s.rawBeats c := by
  have iterations : (t.core c).iterations = (s.core c).iterations := by
    unfold Core.iterations Core.level
    rw [nest]
  unfold rawBeats copyLine planeLine fillLine
  rw [iterations, placed_congr same, scalePlace_congr same]

theorem State.untimedSide_congr : t.untimedSide = s.untimedSide := by
  unfold untimedSide farPeer
  rw [same]

theorem State.sideBytes_congr : t.sideBytes = s.sideBytes := by
  unfold sideBytes
  rw [untimedSide_congr same]

theorem State.sideLatency_congr {p : Nat} (loose : (t.part p).loose = (s.part p).loose) : t.sideLatency p = s.sideLatency p := by
  unfold sideLatency
  rw [untimedSide_congr same, loose]

end

end Sys2Proof.Machine
end

section
/-! PROOF. What a launch hands to its engine (12 R256 to R268): the work that it leaves in flight, the engine that keeps its stack
and its place, and the data that no launch touches at its own tick. -/

namespace Sys2Proof.Machine

open Sys2Proof.Claims (Executes engineAt following moved sameData)

/-! ### Work that is added -/

/-- `u` is `t` with access numbers drawn and more work in flight in partition `p`. -/
structure WorkAdded (p : Nat) (t u : State) : Prop where
  cores : u.cores = t.cores
  hbm : u.hbm = t.hbm
  hostMem : u.hostMem = t.hostMem
  work : WorkKept p t u

namespace WorkAdded
variable {p : Nat} {t u v : State}

theorem refl (p : Nat) (t : State) : WorkAdded p t t := ⟨rfl, rfl, rfl, .refl p t⟩

theorem trans (h : WorkAdded p t u) (i : WorkAdded p u v) : WorkAdded p t v :=
  ⟨i.cores.trans h.cores, i.hbm.trans h.hbm, i.hostMem.trans h.hostMem, h.work.trans i.work⟩

theorem addDue (t : State) (p : Nat) (d : Due) : WorkAdded p t (t.addDue p d) := ⟨rfl, rfl, rfl, .addDue t p d⟩

theorem modPart (t : State) (p : Nat) {f : Part → Part} (pend : ∀ k, (f k).pend = k.pend) : WorkAdded p t (t.modPart p f) :=
  ⟨rfl, rfl, rfl, fun d inside => by rw [State.part_modPart, pend]; exact inside⟩

theorem foldl {α : Type} {f : State → α → State} (step : ∀ t a, WorkAdded p t (f t a)) (l : List α) (t : State) :
    WorkAdded p t (l.foldl f t) :=
  List.foldlRecOn l f (motive := WorkAdded p t) (refl p t) fun u before a _ => before.trans (step u a)

theorem core (h : WorkAdded p t u) (c : Nat) : u.core c = t.core c := by rw [State.core, h.cores, State.core]

end WorkAdded

/-! ### The engine that keeps its stack and its place -/

/-- `u` holds the data of `t`, and engine `e` of core `c` stands where it stood, with the stack that it had. -/
structure Handed (c e : Nat) (t u : State) : Prop where
  data : DataKept t u
  stack : ((u.core c).getEng e).stack = ((t.core c).getEng e).stack
  pc : ((u.core c).getEng e).pc = ((t.core c).getEng e).pc

namespace Handed
variable {c e : Nat} {t u v : State}

theorem refl (c e : Nat) (t : State) : Handed c e t t := ⟨.refl t, rfl, rfl⟩

theorem trans (h : Handed c e t u) (i : Handed c e u v) : Handed c e t v :=
  ⟨h.data.trans i.data, i.stack.trans h.stack, i.pc.trans h.pc⟩

theorem of_engines (data : DataKept t u) (engines : (u.core c).engines = (t.core c).engines) : Handed c e t u := by
  have own : (u.core c).getEng e = (t.core c).getEng e := by rw [Core.getEng, engines, Core.getEng]
  exact ⟨data, congrArg Engine.stack own, congrArg Engine.pc own⟩

theorem of_workAdded {p : Nat} (h : WorkAdded p t u) : Handed c e t u :=
  .of_engines (.of_cores h.hbm h.hostMem h.cores) (congrArg Core.engines (h.core c))

theorem modPart (t : State) (c e p : Nat) (f : Part → Part) : Handed c e t (t.modPart p f) := .of_engines (.modPart t p f) rfl

theorem modEng (t : State) (c e : Nat) {f : Engine → Engine} (stack : ∀ g, (f g).stack = g.stack) (pc : ∀ g, (f g).pc = g.pc) :
    Handed c e t (t.modCore c fun k => k.modEng e f) where
  data := .modCore t c _ fun _ => ⟨rfl, rfl, rfl, rfl, rfl, rfl, rfl, rfl⟩
  stack := by rw [State.core_modCore, Core.getEng_modEng, stack]
  pc := by rw [State.core_modCore, Core.getEng_modEng, pc]

theorem foldl {α : Type} {f : State → α → State} (step : ∀ t a, Handed c e t (f t a)) (l : List α) (t : State) :
    Handed c e t (l.foldl f t) :=
  List.foldlRecOn l f (motive := Handed c e t) (refl c e t) fun u before a _ => before.trans (step u a)

end Handed

/-! ### The state in which a launch word has its effect -/

section
variable (s : State) (c : Nat) (e : EngineId) (g : Engine)

theorem core_moved : (moved s c e g).core c = (s.core c).setEng (engNum e) g := State.core_modCore s.popItem c _

theorem DataKept.moved : DataKept s (moved s c e g) :=
  (DataKept.of_cores (t := s) (u := s.popItem) rfl rfl rfl).trans
    (.modCore s.popItem c (fun k => k.setEng (engNum e) g) fun _ => ⟨rfl, rfl, rfl, rfl, rfl, rfl, rfl, rfl⟩)

end

/-- A launch that hands over from the state in which its engine has moved on keeps the data, the rest of the stack and the next
place. -/
theorem Handed.launched {s u : State} {c : Nat} {e : EngineId} {g : Engine} {l : List Word} {i : Nat}
    (h : Handed c (engNum e) (moved s c e (engineAt g l i)) u) :
    sameData s u ∧ ((u.core c).getEng (engNum e)).stack = l ∧ ((u.core c).getEng (engNum e)).pc = i := by
  obtain ⟨data, stack, pc⟩ := h
  rw [getEng_moved] at stack pc
  exact ⟨((DataKept.moved s c e _).trans data).sameData, stack, pc⟩

theorem launchWord_of_executes {s : State} {c : Nat} {e : EngineId} {x : Ctx} {g : Engine} (h : Executes s true c e x g)
    {args l : List Word} (operands : g.stack = args ++ l) {pr : Ctx → EngineId → List Word → State → EngProbe}
    {ef : Ctx → EngineId → List Word → State → State} :
    engineWord args.length 0 true noTarget pr ef s = ef x e args (moved s c e (engineAt g l (following g))) := by
  rw [engineWord_goes_on h, operands, List.take_left, List.drop_left]

/-! ### The loop nest (12 R257) -/

theorem Handed.nest (t : State) (c e : Nat) (f : Core → Tbl NestLevel) :
    Handed c e t (t.modCore c fun k => { k with nest := f k }) :=
  .of_engines (.modCore t c _ fun _ => ⟨rfl, rfl, rfl, rfl, rfl, rfl, rfl, rfl⟩) (by rw [State.core_modCore])

/-! ### Launches of FX (12 R266 to R268) -/

theorem State.engines_claimUnits (s : State) (c target n seq : Nat) :
    ((s.claimUnits c target n seq).core c).engines = (s.core c).engines := by
  unfold claimUnits
  split
  · rfl
  · split
    · rfl
    · split <;> rw [core_modCore]

theorem Handed.newLaunch (s : State) (p c e n : Nat) : Handed c e s (s.newLaunch p c e n).1 :=
  (Handed.modPart s c e p _).trans (.modEng _ c e (fun _ => rfl) fun _ => rfl)

section
variable (s : State) (x : Ctx) (target rows seq : Nat) (once : Bool)

/-- The units that an exchange claims: all at once for a contribution, one for each row of a SEND (16 R318). -/
def State.fxClaims : State :=
  if once then s.claimUnits x.c target rows (seq + rows)
  else (List.range rows).foldl (fun (s : State) q => s.claimUnits x.c target 1 (seq + rows + q)) s

theorem State.fxClaims_keeps (P : State → Prop) (claim : ∀ t n q, P t → P (t.claimUnits x.c target n q)) (here : P s) :
    P (s.fxClaims x target rows seq once) := by
  unfold fxClaims
  split
  · exact claim _ _ _ here
  · exact List.foldlRecOn _ _ (motive := P) here fun t held q _ => claim t 1 _ held

theorem State.engines_fxClaims : ((s.fxClaims x target rows seq once).core x.c).engines = (s.core x.c).engines :=
  s.fxClaims_keeps x target rows seq once (fun t => (t.core x.c).engines = (s.core x.c).engines)
    (fun t n q kept => (t.engines_claimUnits x.c target n q).trans kept) rfl

theorem DataKept.fxClaims : DataKept s (s.fxClaims x target rows seq once) :=
  s.fxClaims_keeps x target rows seq once (DataKept s) (fun t n q kept => kept.trans (.claimUnits t x.c target n q)) (.refl s)

end

section
variable (s : State) (x : Ctx) (e : EngineId) (a : Side) (dest : Word) (rows : Nat) (comb : Option Contribution)

/-- The tick at which the first row of an exchange is sampled. -/
def State.fxFirst : Nat := x.t + pathLatency (s.part x.p).loose x.c a.l / 2

/-- The state of an exchange that has its number and its datapath. -/
def State.fxNumbered : State :=
  (s.newLaunch x.p x.c 2 (if comb.isSome then 1 else rows)).1.modCore x.c fun k => k.modEng (engNum e) fun g =>
    { g with busy := s.fxFirst x a + rows + 1 }

/-- The state of an exchange that has its access numbers and its units. -/
def State.fxClaimed : State :=
  ((s.fxNumbered x e a rows comb).modPart x.p fun k => { k with seq := k.seq + 2 * rows }).fxClaims x (destTarget dest) rows
    (((s.fxNumbered x e a rows comb).part x.p).seq + 1) comb.isSome

theorem Handed.fxClaimed (fx : engNum e = 2) : Handed x.c 2 s (s.fxClaimed x e a dest rows comb) := by
  have numbered : Handed x.c 2 s (s.fxNumbered x e a rows comb) := by
    unfold State.fxNumbered
    rw [fx]
    exact (Handed.newLaunch s x.p x.c 2 _).trans (.modEng _ x.c 2 (fun _ => rfl) fun _ => rfl)
  exact (numbered.trans (.modPart _ x.c 2 x.p _)).trans
    (.of_engines (.fxClaims _ x _ rows _ _) (State.engines_fxClaims _ x _ rows _ _))

theorem State.busy_fxClaimed (fx : engNum e = 2) :
    (((s.fxClaimed x e a dest rows comb).core x.c).getEng 2).busy = s.fxFirst x a + rows + 1 := by
  rw [fxClaimed, Core.getEng, engines_fxClaims, ← Core.getEng, core_modPart, fxNumbered, fx, core_modCore, Core.getEng_modEng]

/-- A launch of FX leaves the read of its first row in flight. -/
theorem State.fxLaunch_eq : ∃ r : FxRun, r.total = rows ∧ r.dest = dest ∧ r.comb = comb ∧
    r.rows = (s.sideRows x.c a rows).map (fun w => (w.loc, w.mask)) ∧
    s.fxLaunch x e a dest rows comb =
      (s.fxClaimed x e a dest rows comb).sampleAt x (s.fxFirst x a) (.fxRow r [] false) := by
  refine ⟨_, ?_, ?_, ?_, ?_, rfl⟩
  all_goals rfl

/-- What an exchange leaves (12 R266 to R268). -/
theorem State.fxLaunch_hands (fx : engNum e = 2) : Handed x.c (engNum e) s (s.fxLaunch x e a dest rows comb) ∧
    (((s.fxLaunch x e a dest rows comb).core x.c).getEng (engNum e)).busy = s.fxFirst x a + rows + 1 ∧
    ∃ r : FxRun, r.total = rows ∧ r.dest = dest ∧ r.comb = comb ∧
      r.rows = (s.sideRows x.c a rows).map (fun w => (w.loc, w.mask)) ∧
      ⟨s.fxFirst x a, samplePlace, x.who, .fxRow r [] false⟩ ∈ ((s.fxLaunch x e a dest rows comb).part x.p).pend := by
  obtain ⟨r, total, goal, contribution, read, launch⟩ := s.fxLaunch_eq x e a dest rows comb
  rw [launch]
  have handed := (Handed.fxClaimed s x e a dest rows comb fx).trans
    (.of_workAdded (.addDue _ x.p ⟨s.fxFirst x a, samplePlace, x.who, .fxRow r [] false⟩))
  exact ⟨fx ▸ handed, fx ▸ s.busy_fxClaimed x e a dest rows comb fx, r, total, goal, contribution, read,
    (State.mem_addDue _ x.p _ _).mpr (.inl rfl)⟩

end

/-! ### TLOAD (12 R264) -/

section
variable (s : State) (x : Ctx) (e : EngineId)

/-- The state of a TLOAD that has its datapath. -/
def State.tloadBusy : State :=
  s.modCore x.c fun k => k.modEng (engNum e) fun g =>
    { g with busy := x.t + ownPocket (s.part x.p).loose + 1, lastLand := max g.lastLand (x.t + ownPocket (s.part x.p).loose) }

/-- The state of a TLOAD that has its access numbers. -/
def State.tloadNumbered : State := (s.tloadBusy x e).modPart x.p fun k => { k with seq := k.seq + 257 }

theorem Handed.tloadNumbered : Handed x.c (engNum e) s (s.tloadNumbered x e) :=
  .trans (u := s.tloadBusy x e) (.modEng s x.c (engNum e) (fun _ => rfl) fun _ => rfl) (.modPart _ x.c _ x.p _)

theorem State.getEng_tloadBusy : ((s.tloadBusy x e).core x.c).getEng (engNum e) =
    { (s.core x.c).getEng (engNum e) with
      busy := x.t + ownPocket (s.part x.p).loose + 1
      lastLand := max ((s.core x.c).getEng (engNum e)).lastLand (x.t + ownPocket (s.part x.p).loose) } := by
  rw [tloadBusy, core_modCore, Core.getEng_modEng]

end

/-- A launch of a TLOAD leaves the read of its descriptor in flight. -/
def State.tloadLaunch (s : State) (x : Ctx) (e : EngineId) (td off : Nat) : State :=
  (s.tloadNumbered x e).sampleAt x (x.t + ownPocket (s.part x.p).loose / 2)
    (.tload td off 0 0 0 ((s.core x.c).getEng (engNum e)).prog ((s.part x.p).seq + 1) ((s.core x.c).getEng (engNum e)).gate)

theorem exec_tload_executes {s : State} {c : Nat} {e : EngineId} {x : Ctx} {g : Engine} (h : Executes s true c e x g) (td : Num3)
    {a : Word} {l : List Word} (front : g.stack = a :: l) : exec (.tload td) s =
      .next ((moved s c e (engineAt g l (following g))).tloadLaunch x e td.val a.toNat) := by
  refine congrArg Host.Outcome.next ((launchWord_of_executes h (args := [a]) front).trans ?_)
  generalize moved s c e (engineAt g l (following g)) = t
  change (t.tloadNumbered x e).sampleAt x _ (.tload td.val a.toNat 0 0 0 (((t.tloadBusy x e).core x.c).getEng (engNum e)).prog _
    (((t.tloadBusy x e).core x.c).getEng (engNum e)).gate) = _
  rw [t.getEng_tloadBusy]
  rfl

/-! ### TRUN (12 R265) -/

/-- A TRUN as its rows see it: its tracks, its descriptor, the source stream, and the tick whose stores its reads find. -/
structure TrunRun where
  tki : Num4
  tko : Num4
  td : BitVec 512
  stream : Nat
  gate : Nat

namespace TrunRun
variable (r : TrunRun) (x : Ctx) (e m : Nat) (i o : RowAccess)

/-- The tick at which the table engine takes row `m`. -/
def takes : Nat := x.t + 3 + m + transit (2 * i.bank) 7 r.tki.val

/-- The tick at which the destination bank takes what the table engine made of row `m`. -/
def puts : Nat := r.takes x m i + 6 + transit 7 (2 * o.bank) r.tko.val

def row : TrunRow :=
  ⟨r.td, (tieDesc r.td).fmt.getD .fp32, i.own, i.mask, 2 * i.bank, r.tki.val, r.tko.val, r.puts x m i o + 1, r.stream, r.gate⟩

def readDue : Due := ⟨x.t + 1 + m, samplePlace, x.who, .trunRead (r.row x m i o)⟩
def takeDue : Due := ⟨r.takes x m i, samplePlace, x.who, .trunTake (r.row x m i o)⟩
def putDue : Due := ⟨r.puts x m i o, samplePlace, x.who, .bankTake r.tko.val (2 * o.bank) (ringOff o.own) o.mask⟩

/-- The work of row `m` is put in flight, and the engine is busy until its flags are made. -/
def step (s : State) : State :=
  (((s.addDue x.p (r.readDue x m i o)).addDue x.p (r.takeDue x m i o)).addDue x.p (r.putDue x m i o)).modCore x.c fun k =>
    k.modEng e fun g =>
      { g with busy := max g.busy (r.takes x m i + 7), lastLand := max g.lastLand (r.puts x m i o + 1) }

theorem handed_step (s : State) : Handed x.c e s (r.step x e m i o s) :=
  (((Handed.of_workAdded (.addDue s x.p _)).trans (.of_workAdded (.addDue _ x.p _))).trans (.of_workAdded (.addDue _ x.p _))).trans
    (.modEng _ x.c e (fun _ => rfl) fun _ => rfl)

theorem workKept_step (s : State) : WorkKept x.p s (r.step x e m i o s) :=
  ((WorkKept.addDue s x.p _).trans (.addDue _ x.p _)).trans (.addDue _ x.p _)

theorem busy_step (s : State) :
    (((r.step x e m i o s).core x.c).getEng e).busy = max ((s.core x.c).getEng e).busy (r.takes x m i + 7) := by
  rw [step, State.core_modCore, Core.getEng_modEng]
  rfl

/-- Row `m` of a TRUN has its work in flight, and the engine is busy until its flags are made. -/
structure Leaves (u : State) : Prop where
  read : r.readDue x m i o ∈ (u.part x.p).pend
  take : r.takeDue x m i o ∈ (u.part x.p).pend
  put : r.putDue x m i o ∈ (u.part x.p).pend
  busy : r.takes x m i + 7 ≤ ((u.core x.c).getEng e).busy

theorem leaves_step (s : State) : r.Leaves x e m i o (r.step x e m i o s) where
  read := WorkKept.addDue _ x.p _ _ (WorkKept.addDue _ x.p _ _ ((State.mem_addDue s x.p _ _).mpr (.inl rfl)))
  take := WorkKept.addDue _ x.p _ _ ((State.mem_addDue _ x.p _ _).mpr (.inl rfl))
  put := (State.mem_addDue _ x.p _ _).mpr (.inl rfl)
  busy := by rw [busy_step]; exact le_max_right _ _

variable {r x e m i o} in
theorem Leaves.kept {s : State} (h : r.Leaves x e m i o s) (n : Nat) (j q : RowAccess) :
    r.Leaves x e m i o (r.step x e n j q s) where
  read := r.workKept_step x e n j q s _ h.read
  take := r.workKept_step x e n j q s _ h.take
  put := r.workKept_step x e n j q s _ h.put
  busy := by rw [busy_step]; exact h.busy.trans (le_max_left _ _)

/-- A launch of a TRUN whose source and destination rows are `rows`. -/
def launch (rows : List (RowAccess × RowAccess)) (s : State) : State :=
  rows.zipIdx.foldl (fun s w => r.step x e w.2 w.1.1 w.1.2 s) s

theorem handed_launch (rows : List (RowAccess × RowAccess)) (s : State) : Handed x.c e s (r.launch x e rows s) := by
  unfold launch
  refine Handed.foldl (fun t w => ?_) _ s
  exact r.handed_step x e w.2 w.1.1 w.1.2 t

theorem leaves_launch {rows : List (RowAccess × RowAccess)} (pair : rows[m]? = some (i, o)) (s : State) :
    r.Leaves x e m i o (r.launch x e rows s) := by
  have inside : ((i, o), m) ∈ rows.zipIdx := List.mem_zipIdx_iff_getElem?.mpr pair
  unfold launch
  refine foldl_establishes _ (fun w u => r.Leaves x e w.2 w.1.1 w.1.2 u) (fun t w => ?_) (fun t w b left => ?_) rows.zipIdx s
    ((i, o), m) inside
  · exact r.leaves_step x e w.2 w.1.1 w.1.2 t
  · exact left.kept b.2 b.1.1 b.1.2

end TrunRun

theorem State.length_sideRows (s : State) (c : Nat) (a : Side) (n : Nat) : (s.sideRows c a n).length = n := by
  have cursors (st : Str) : (rowCursors st a.l n).length = n := by
    induction n generalizing st with
    | zero => rfl
    | succ n ih => exact congrArg (· + 1) (ih _)
  rw [sideRows, List.length_map, cursors]

end Sys2Proof.Machine
end

section
/-! PROOF. Copy, plane and fill launches (12 R256 to R261): every beat of the launch in flight at its slot, and the tick from which the
datapath is free. -/

namespace Sys2Proof.Machine

open Sys2Proof.Claims (copies)

/-! ### Slots (12 R259) -/

/-- The writes of some beats, each of which takes a slot. -/
def beatWrites (l : List RawBeat) : Nat := (l.map fun z => z.outs.length).sum

theorem lastSlot_append (t bw m : Nat) (l : List RawBeat) (z : RawBeat) (before : Option Nat) :
    lastSlot t bw m (l ++ [z]) before = some (slotTick t bw z.k (m + beatWrites (l ++ [z]) - 1)) := by
  induction l generalizing m before with
  | nil => rfl
  | cons y l ih =>
    rw [List.cons_append, lastSlot, ih, Nat.add_assoc]
    rfl

theorem foldl_writes (l : List RawBeat) (m : Nat) : l.foldl (fun acc r => acc + r.outs.length) m = m + beatWrites l := by
  induction l generalizing m with
  | nil => rfl
  | cons y l ih =>
    rw [List.foldl_cons, ih, Nat.add_assoc]
    rfl

/-! ### Beats that are set to work -/

/-- A launch as its beats see it: its sides, the value of a FILL, its bytes per tick, the latencies of its two sides, and its number
where only acknowledgements tell of its writes. -/
structure CopyRun where
  a : Side
  b : Side
  fill : Option Word
  bytes : Nat
  source : Nat
  target : Nat
  number : Option Nat

namespace CopyRun
variable (r : CopyRun) (x : Ctx) (m : Nat) (z : RawBeat)

/-- The tick at which beat `z`, whose first write is number `m`, reads its source. -/
def reads : Nat := slotTick x.t r.bytes z.k m + r.source / 2

/-- The tick at which write `j` of beat `z` lands. -/
def lands (j : Nat) : Nat := max (slotTick x.t r.bytes z.k (m + j) + r.source + r.target / 2) (r.reads x m z + 1)

/-- The writes of beat `z`. -/
def outs (seq : Nat) : List BeatOut :=
  z.outs.zipIdx.map fun o => ⟨o.1.map (·.spot), z.obits, r.lands x m z o.2, seq + 1 + o.2, slotTick x.t r.bytes z.k (m + o.2)⟩

theorem length_outs (seq : Nat) : (r.outs x m z seq).length = z.outs.length := by
  rw [outs, List.length_map, List.length_zipIdx]

theorem getElem?_outs (seq j : Nat) : (r.outs x m z seq)[j]? =
    z.outs[j]?.map fun o => ⟨o.map (·.spot), z.obits, r.lands x m z j, seq + 1 + j, slotTick x.t r.bytes z.k (m + j)⟩ := by
  rw [outs, List.getElem?_map, List.getElem?_zipIdx, Option.map_map, Nat.zero_add]
  rfl

/-- The state with the beats `l` set to work, the first write of which is number `m`. -/
def launch (s : State) (l : List RawBeat) : State :=
  s.launchBeats x r.a r.b r.fill r.bytes r.source r.target r.number m l

/-- Beats are set to work one after the other. -/
theorem launch_append (s : State) (l k : List RawBeat) :
    r.launch x m s (l ++ k) = r.launch x (m + beatWrites l) (r.launch x m s l) k := by
  induction l generalizing s m with
  | nil => rfl
  | cons z l ih =>
    have later : m + beatWrites (z :: l) = m + z.outs.length + beatWrites l := (Nat.add_assoc ..).symm
    rw [later]
    exact ih _ _

/-- A beat to PEER claims the unit of each of its writes at the write's slot (16 R318). -/
def claim (s : State) (outs : List BeatOut) : State :=
  if r.b.l.space == 3 then
    outs.zipIdx.foldl (fun s o => if o.1.spots.any Option.isSome
      then s.sampleAt x (slotTick x.t r.bytes z.k (m + o.2)) (.claim r.b.n r.b.l.peer o.1.seq) else s) s
  else s

theorem workAdded_claim (s : State) (outs : List BeatOut) : WorkAdded x.p s (r.claim x m z s outs) := by
  unfold claim
  split
  · refine .foldl (fun t o => ?_) _ s
    split
    · exact .addDue t x.p _
    · exact .refl x.p t
  · exact .refl x.p s

/-- A write of a FILL. -/
def fillDue (beat : Beat) (v : Word) (o : BeatOut) : Due :=
  ⟨o.land, if r.number.isSome then 9 else 5, x.who, .beatLand beat o (o.spots.map fun _ => v) false⟩

/-- The read of a beat is put in flight, or the writes of a beat of a FILL. -/
def set (s : State) (beat : Beat) : State :=
  match r.fill with
  | some v => beat.outs.foldl (fun s o => s.addDue x.p (r.fillDue x beat v o)) s
  | none => s.sampleAt x (r.reads x m z) (.beatSample beat)

theorem workAdded_set (s : State) (beat : Beat) : WorkAdded x.p s (r.set x m z s beat) := by
  unfold set
  split
  · exact .foldl (fun t o => .addDue t x.p _) _ s
  · exact .addDue s x.p _

theorem mem_set_none (reading : r.fill = none) (s : State) (beat : Beat) :
    ⟨r.reads x m z, samplePlace, x.who, .beatSample beat⟩ ∈ ((r.set x m z s beat).part x.p).pend := by
  simp only [set, reading]
  exact (s.mem_addDue x.p _ _).mpr (.inl rfl)

theorem mem_set_some {v : Word} (filling : r.fill = some v) (s : State) (beat : Beat) {o : BeatOut} (write : o ∈ beat.outs) :
    r.fillDue x beat v o ∈ ((r.set x m z s beat).part x.p).pend := by
  simp only [set, filling]
  exact foldl_establishes _ (fun o u => r.fillDue x beat v o ∈ (u.part x.p).pend)
    (fun s _ => (s.mem_addDue x.p _ _).mpr (.inl rfl)) (fun s _ _ held => (s.mem_addDue x.p _ _).mpr (.inr held)) beat.outs s o write

/-- Beat `z` as `beat`, which is set to work after its units have been claimed. -/
structure SetsBeat (s : State) (beat : Beat) : Prop where
  src : beat.src = z.src.map (·.spot)
  bits : beat.bits = z.bits
  outs : ∃ seq, beat.outs = r.outs x m z seq
  set : ∃ v, WorkAdded x.p s v ∧ r.launch x m s [z] = r.set x m z v beat

theorem launch_singleton (s : State) : ∃ beat, r.SetsBeat x m z s beat := by
  have claimed : WorkAdded x.p s (r.claim x m z (s.modPart x.p fun k => { k with seq := k.seq + 1 + z.outs.length })
      (r.outs x m z ((s.part x.p).seq + 1))) := by
    refine .trans (.modPart s x.p ?_) (r.workAdded_claim x m z _ _)
    exact fun _ => rfl
  refine ⟨_, ?_, ?_, ⟨(s.part x.p).seq + 1, ?_⟩, _, claimed, rfl⟩
  all_goals rfl

theorem workAdded_launch (s : State) (l : List RawBeat) : WorkAdded x.p s (r.launch x m s l) := by
  induction l generalizing s m with
  | nil => exact .refl x.p s
  | cons z l ih =>
    obtain ⟨beat, first⟩ := r.launch_singleton x m z s
    obtain ⟨v, before, set⟩ := first.set
    have one : WorkAdded x.p s (r.launch x m s [z]) := set ▸ before.trans (r.workAdded_set x m z v beat)
    exact one.trans (ih (m + z.outs.length) _)

/-- Every beat of a launch is set to work, and its work stays in flight. -/
theorem launch_sets (s : State) (l k : List RawBeat) : ∃ beat v w, r.SetsBeat x (beatWrites l) z w beat ∧
    WorkKept x.p (r.set x (beatWrites l) z v beat) (r.launch x 0 s (l ++ z :: k)) := by
  obtain ⟨beat, own⟩ := r.launch_singleton x (beatWrites l) z (r.launch x 0 s l)
  obtain ⟨v, -, set⟩ := own.set
  refine ⟨beat, v, _, own, ?_⟩
  rw [launch_append, Nat.zero_add, ← List.singleton_append, launch_append, set]
  exact (r.workAdded_launch x _ _ k).work

variable {r x m z} {s : State} {beat : Beat} (h : r.SetsBeat x m z s beat)
include h

theorem SetsBeat.length : beat.outs.length = z.outs.length := by
  obtain ⟨seq, outs⟩ := h.outs
  rw [outs, length_outs]

theorem SetsBeat.out_at {j : Nat} {p : List Placed} (place : z.outs[j]? = some p) : ∃ o, beat.outs[j]? = some o := by
  obtain ⟨inside, -⟩ := List.getElem?_eq_some_iff.mp place
  exact ⟨_, List.getElem?_eq_getElem (h.length ▸ inside)⟩

theorem SetsBeat.out_of {j : Nat} {o : BeatOut} {p : List Placed} (out : beat.outs[j]? = some o) (place : z.outs[j]? = some p) :
    o.spots = p.map (·.spot) ∧ o.bits = z.obits ∧ o.land = r.lands x m z j := by
  obtain ⟨seq, outs⟩ := h.outs
  rw [outs, getElem?_outs, place] at out
  cases out
  exact ⟨rfl, rfl, rfl⟩

end CopyRun

/-! ### The number of a launch (12 R251) -/

section
variable (s : State) (x : Ctx) (untimed : Bool) (writes : Nat)

theorem State.nest_newLaunch (p c e n : Nat) : ((s.newLaunch p c e n).1.core c).nest = (s.core c).nest := by
  unfold newLaunch
  dsimp only
  rw [core_modCore]
  rfl

/-- A launch of writes that only acknowledgements tell of has a number. -/
def State.copyNumbered : State × Option Nat :=
  if untimed && writes != 0 then ((s.newLaunch x.p x.c 0 writes).1, some (s.newLaunch x.p x.c 0 writes).2) else (s, none)

theorem Handed.copyNumbered : Handed x.c 0 s (s.copyNumbered x untimed writes).1 := by
  unfold State.copyNumbered
  split
  · exact .newLaunch s x.p x.c 0 writes
  · exact .refl x.c 0 s

theorem State.nest_copyNumbered : ((s.copyNumbered x untimed writes).1.core x.c).nest = (s.core x.c).nest := by
  unfold copyNumbered
  split
  · exact s.nest_newLaunch x.p x.c 0 writes
  · rfl

theorem State.isSome_copyNumbered : (s.copyNumbered x untimed writes).2.isSome = (untimed && writes != 0) := by
  unfold copyNumbered
  split
  next counted => exact counted.symm
  next none => exact (Bool.eq_false_of_not_eq_true none).symm

end

/-! ### The launch (12 R256) -/

/-- The tick until which a launch with a last slot, or with none, keeps its datapath. -/
def untilSlot (last : Option Nat) (free : Nat) : Nat :=
  match last with
  | some v => v
  | none => free

section
variable (s : State) (x : Ctx) (kind : CopyKind) (a b : Side) (args : List Word)

/-- The beats of a launch. -/
def State.copyBeats : List RawBeat := s.rawBeats x.c kind a b (extOf args)

/-- Whether only acknowledgements tell that the writes of a launch are performed. -/
def State.copyUntimed : Bool := (kind != .fill && s.untimedSide a.l) || s.untimedSide b.l

/-- The number of a launch. -/
def State.copyNumber : State × Option Nat := s.copyNumbered x (s.copyUntimed kind a b) (beatWrites (s.copyBeats x kind a b args))

/-- The launch as its beats see it: a FILL has no source. -/
def State.copyRun : CopyRun where
  a := a
  b := b
  fill := if kind = .fill then some (argAt args 4) else none
  bytes := if kind = .fill then s.sideBytes x.c b.l else min (s.sideBytes x.c a.l) (s.sideBytes x.c b.l)
  source := if kind = .fill then 0 else s.sideLatency x.p x.c a.l
  target := s.sideLatency x.p x.c b.l
  number := (s.copyNumber x kind a b args).2

/-- The last slot of a launch. -/
def State.copyLast : Option Nat := lastSlot x.t (s.copyRun x kind a b args).bytes 0 (s.copyBeats x kind a b args) none

/-- The state of a launch that has its number and its datapath. -/
def State.copyReady : State :=
  (s.copyNumber x kind a b args).1.modCore x.c fun k => k.modEng 0 fun g =>
    { g with
      busy := untilSlot (s.copyLast x kind a b args) (x.t + 4 * k.iterationCount) + 1
      lastLand := match s.copyLast x kind a b args with
        | some v => if s.copyUntimed kind a b then g.lastLand
          else max g.lastLand (v + (s.copyRun x kind a b args).source + (s.copyRun x kind a b args).target / 2)
        | none => g.lastLand }

theorem State.copyLaunch_eq : s.copyLaunch x kind a b args =
    (s.copyRun x kind a b args).launch x 0 (s.copyReady x kind a b args) (s.copyBeats x kind a b args) := by
  unfold copyLaunch
  simp only [beq_iff_eq, foldl_writes, Nat.zero_add]
  rfl

theorem Handed.copyLaunch : Handed x.c 0 s (s.copyLaunch x kind a b args) := by
  have ready : Handed x.c 0 s (s.copyReady x kind a b args) :=
    .trans (.copyNumbered s x _ _) (.modEng (s.copyNumber x kind a b args).1 x.c 0 (fun _ => rfl) fun _ => rfl)
  rw [State.copyLaunch_eq]
  exact ready.trans (.of_workAdded (CopyRun.workAdded_launch ..))

theorem State.busy_copyLaunch : (((s.copyLaunch x kind a b args).core x.c).getEng 0).busy =
    untilSlot (s.copyLast x kind a b args) (x.t + 4 * (s.core x.c).iterationCount) + 1 := by
  have count : ((s.copyNumber x kind a b args).1.core x.c).iterationCount = (s.core x.c).iterationCount := by
    unfold Core.iterationCount Core.level
    rw [copyNumber, nest_copyNumbered]
  rw [copyLaunch_eq, (CopyRun.workAdded_launch ..).core, copyReady, core_modCore, Core.getEng_modEng, count]

section
variable {s x kind a b args} {l r : List RawBeat} {z : RawBeat} (beats : s.copyBeats x kind a b args = l ++ z :: r)
include beats

/-- The work of each beat of a launch is in flight. -/
theorem State.copyLaunch_sets : ∃ beat v w, (s.copyRun x kind a b args).SetsBeat x (beatWrites l) z w beat ∧
    WorkKept x.p ((s.copyRun x kind a b args).set x (beatWrites l) z v beat) (s.copyLaunch x kind a b args) := by
  rw [copyLaunch_eq, beats]
  exact CopyRun.launch_sets ..

/-- A launch that has a write has a number where only acknowledgements tell of it. -/
theorem State.isSome_copyNumber {j : Nat} {p : List Placed} (place : z.outs[j]? = some p) :
    (s.copyRun x kind a b args).number.isSome = s.copyUntimed kind a b := by
  obtain ⟨inside, -⟩ := List.getElem?_eq_some_iff.mp place
  have counted : beatWrites (l ++ z :: r) ≠ 0 := by
    simp only [beatWrites, List.map_append, List.map_cons, List.sum_append, List.sum_cons]
    omega
  rw [copyRun, copyNumber, isSome_copyNumbered, beats, bne_iff_ne.mpr counted, Bool.and_true]

end

/-- A launch leaves the work of its beats in flight as 12 R256 to R261 say. -/
theorem copies_copyLaunch : copies s (s.copyLaunch x kind a b args) x kind a b (extOf args) (argAt args 4) := by
  have busy := s.busy_copyLaunch x kind a b args
  refine ⟨fun empty => ?none, fun l z beats => ?last, fun l z r beats => ⟨fun reading => ?read, fun filling j p place => ?fill⟩⟩
  case none =>
    rw [State.copyLast, State.copyBeats, empty] at busy
    exact busy
  case last =>
    rw [State.copyLast, State.copyBeats, beats, lastSlot_append, ← beats, Nat.zero_add] at busy
    exact busy
  case read =>
    obtain ⟨beat, v, w, own, kept⟩ := State.copyLaunch_sets beats
    exact ⟨beat, own.src, own.bits, own.length, fun j o p out place => own.out_of out place,
      kept _ (CopyRun.mem_set_none _ x _ z (if_neg reading) v beat)⟩
  case fill =>
    obtain ⟨beat, v, w, own, kept⟩ := State.copyLaunch_sets beats
    obtain ⟨o, out⟩ := own.out_at place
    obtain ⟨spots, bits, land⟩ := own.out_of out place
    have values : o.spots.map (fun _ => argAt args 4) = p.map fun _ => argAt args 4 := by rw [spots, List.map_map]; rfl
    have write := kept _ (CopyRun.mem_set_some _ x _ z (if_pos filling) v beat (List.mem_of_getElem? out))
    rw [CopyRun.fillDue, values, State.isSome_copyNumber beats place] at write
    exact ⟨beat, o, ⟨spots, bits, land⟩, write⟩

end

/-- The launch of a state whose beats and paths are those of `s`. -/
theorem copies_congr {s t u : State} {x : Ctx} (same : t.modNum = s.modNum) (nest : (t.core x.c).nest = (s.core x.c).nest)
    (loose : (t.part x.p).loose = (s.part x.p).loose) {kind : CopyKind} {a b : Side} {ext : List Nat} {v : Word}
    (h : copies t u x kind a b ext v) : copies s u x kind a b ext v := by
  have count : (t.core x.c).iterationCount = (s.core x.c).iterationCount := by
    unfold Core.iterationCount Core.level
    rw [nest]
  unfold copies at h ⊢
  rw [State.rawBeats_congr same nest, State.untimedSide_congr same, State.sideBytes_congr same, State.sideLatency_congr same loose,
    count] at h
  exact h

end Sys2Proof.Machine
end

section
/-! PROOF. Each launch word as its engine executes it (12 R256 to R268): it has its effect on the state in which the engine has
moved on, whose streams, rows and beats are those of the state before. -/

namespace Sys2Proof.Machine

open Sys2Proof.Claims (Executes engineAt following moved sameData copies)

/-- A launch word runs: it leaves `r`, touches no data, takes its operands from over `l`, and its engine goes on to index `i`. -/
def Launches (s : State) (c : Nat) (e : EngineId) (i : Nat) (w : Instr) (l : List Word) (r : State → Prop) : Prop :=
  ∃ u : State, exec w s = .next u ∧ r u ∧ sameData s u ∧ ((u.core c).getEng (engNum e)).stack = l ∧
    ((u.core c).getEng (engNum e)).pc = i

/-! ### What an engine that moves on leaves alone -/

theorem side_moved (s : State) (c : Nat) (e : EngineId) (g : Engine) (n : Nat) :
    ((moved s c e g).core c).side n = (s.core c).side n := by
  rw [core_moved]
  rfl

theorem nest_moved (s : State) (c : Nat) (e : EngineId) (g : Engine) : ((moved s c e g).core c).nest = (s.core c).nest := by
  rw [core_moved]
  rfl

theorem tds_moved (s : State) (c : Nat) (e : EngineId) (g : Engine) : ((moved s c e g).core c).tds = (s.core c).tds := by
  rw [core_moved]
  rfl

theorem sideRows_moved (s : State) (c : Nat) (e : EngineId) (g : Engine) : (moved s c e g).sideRows = s.sideRows :=
  State.sideRows_congr rfl

section
variable {s : State} {e : EngineId} {x : Ctx} {g : Engine} (h : Executes s true x.c e x g) {l : List Word}
include h

/-- A launch word runs as its effect has it on the state in which its engine has moved on. -/
theorem launches_of {args : List Word} (operands : g.stack = args ++ l) {w : Instr} {r : State → Prop}
    {pr : Ctx → EngineId → List Word → State → EngProbe} {ef : Ctx → EngineId → List Word → State → State}
    (run : exec w s = .next (engineWord args.length 0 true noTarget pr ef s))
    (does : ∀ t, t = moved s x.c e (engineAt g l (following g)) → Handed x.c (engNum e) t (ef x e args t) ∧ r (ef x e args t)) :
    Launches s x.c e (following g) w l r := by
  obtain ⟨handed, left⟩ := does _ rfl
  exact ⟨_, run.trans (congrArg Host.Outcome.next (launchWord_of_executes h operands)), left, handed.launched⟩

/-! ### The loop nest (12 R257) -/

/-- A word that writes the loop nest. -/
theorem launches_nest {args : List Word} (operands : g.stack = args ++ l) {w : Instr}
    {pr : Ctx → EngineId → List Word → State → EngProbe} {f : List Word → Core → Tbl NestLevel}
    (own : ∀ (k : Core) e g, f args (k.setEng e g) = f args k)
    (run : exec w s = .next (engineWord args.length 0 true noTarget pr
      (fun x _ a s => s.modCore x.c fun k => { k with nest := f a k }) s)) :
    Launches s x.c e (following g) w l fun u => (u.core x.c).nest = f args (s.core x.c) := by
  refine launches_of h operands run fun t here => ⟨Handed.nest t x.c _ _, ?_⟩
  rw [State.core_modCore, here, core_moved]
  exact own _ _ _

/-! ### TLOAD (12 R264) -/

theorem launches_tload (td : Num3) {a : Word} (front : g.stack = a :: l) :
    Launches s x.c e (following g) (.tload td) l fun u =>
      ((u.core x.c).getEng (engNum e)).busy = x.t + ownPocket (s.part x.p).loose + 1 ∧
      ⟨x.t + ownPocket (s.part x.p).loose / 2, samplePlace, x.who,
        .tload td.val a.toNat 0 0 0 g.prog ((s.part x.p).seq + 1) g.gate⟩ ∈ (u.part x.p).pend := by
  have own := getEng_moved s x.c e (engineAt g l (following g))
  refine ⟨_, exec_tload_executes h td front, ⟨?_, ?_⟩,
    Handed.launched (.trans (.tloadNumbered _ x e) (.of_workAdded (.addDue _ x.p _)))⟩
  · exact congrArg Engine.busy (State.getEng_tloadBusy _ x e)
  · refine (State.mem_addDue _ x.p _ _).mpr (.inl ?_)
    rw [own]
    rfl

/-! ### Exchanges (12 R266 to R268) -/

/-- What an exchange of `rows` rows of stream `st` leaves. -/
def Exchanges (s : State) (x : Ctx) (e : EngineId) (st rows : Nat) (dest : Word) (comb : Option Contribution) (u : State) : Prop :=
  ((u.core x.c).getEng (engNum e)).busy = x.t + pathLatency (s.part x.p).loose x.c ((s.core x.c).stream st).2 / 2 + rows + 1 ∧
  ∃ r : FxRun, r.total = rows ∧ r.dest = dest ∧ r.comb = comb ∧
    r.rows = (s.sideRows x.c ((s.core x.c).side st) rows).map (fun w => (w.loc, w.mask)) ∧
    ⟨x.t + pathLatency (s.part x.p).loose x.c ((s.core x.c).stream st).2 / 2, samplePlace, x.who, .fxRow r [] false⟩
      ∈ (u.part x.p).pend

theorem launches_exchange (fx : engNum e = 2) {args : List Word} (operands : g.stack = args ++ l) {w : Instr} (st rows : Nat)
    (dest : Word) (comb : Option Contribution) {pr : Ctx → EngineId → List Word → State → EngProbe}
    {ef : Ctx → EngineId → List Word → State → State}
    (run : exec w s = .next (engineWord args.length 0 true noTarget pr ef s))
    (effect : ∀ t, ef x e args t = t.fxLaunch x e ((t.core x.c).side st) dest rows comb) :
    Launches s x.c e (following g) w l (Exchanges s x e st rows dest comb) := by
  refine launches_of h operands run fun t here => ?_
  have side : (t.core x.c).side st = (s.core x.c).side st := by rw [here, side_moved]
  have part : t.part x.p = s.part x.p := by rw [here]; rfl
  have places : t.sideRows = s.sideRows := by rw [here, sideRows_moved]
  obtain ⟨handed, busy, r, total, goal, contribution, read, due⟩ := t.fxLaunch_hands x e ((t.core x.c).side st) dest rows comb fx
  rw [State.fxFirst, part] at busy due
  rw [side] at handed busy read due
  rw [places] at read
  rw [effect, side]
  exact ⟨handed, busy, r, total, goal, contribution, read, due⟩

/-! ### Copies, planes and fills (12 R256 to R261) -/

theorem launches_copy (ce : engNum e = 0) {args : List Word} (operands : g.stack = args ++ l) {w : Instr} {kind : CopyKind}
    (st dt : Nat) {pr : Ctx → EngineId → List Word → State → EngProbe}
    (run : exec w s = .next (engineWord args.length 0 true noTarget pr
      (fun x _ a s => s.copyLaunch x kind ((s.core x.c).side st) ((s.core x.c).side dt) a) s)) :
    Launches s x.c e (following g) w l fun u =>
      copies s u x kind ((s.core x.c).side st) ((s.core x.c).side dt) (extOf args) (argAt args 4) := by
  refine launches_of h operands run fun t here => ?_
  have side (n : Nat) : (t.core x.c).side n = (s.core x.c).side n := by rw [here, side_moved]
  have nest : (t.core x.c).nest = (s.core x.c).nest := by rw [here, nest_moved]
  rw [ce, side, side]
  exact ⟨.copyLaunch t x kind _ _ args,
    copies_congr (by rw [here]; rfl) nest (by rw [here]; rfl) (copies_copyLaunch t x kind _ _ args)⟩

/-! ### TRUN (12 R265) -/

/-- The TRUN of a descriptor and a source stream. -/
def State.trunRun (s : State) (c e : Nat) (tki tko : Num4) (src td : Word) : TrunRun :=
  ⟨tki, tko, tget 0 (s.core c).tds td.toNat, ((s.core c).side src.toNat).n, ((s.core c).getEng e).gate⟩

theorem exec_trun_executes (tki tko : Num4) {n dst src td : Word} (front : g.stack = n :: dst :: src :: td :: l) {t : State}
    (here : t = moved s x.c e (engineAt g l (following g))) : exec (.trun tki tko) s =
      .next ((t.trunRun x.c (engNum e) tki tko src td).launch x (engNum e) (List.zip
        (t.sideRows x.c ((t.core x.c).side src.toNat) n.toNat) (t.sideRows x.c ((t.core x.c).side dst.toNat) n.toNat)) t) := by
  rw [here]
  exact congrArg Host.Outcome.next (launchWord_of_executes h (args := [n, dst, src, td]) front)

theorem launches_trun (tki tko : Num4) {n dst src td : Word} (front : g.stack = n :: dst :: src :: td :: l) :
    ∃ run : TrunRun, run.tki = tki ∧ run.tko = tko ∧ run.td = tget 0 (s.core x.c).tds td.toNat ∧
      Launches s x.c e (following g) (.trun tki tko) l fun u => ∀ m < n.toNat, ∃ i o : RowAccess,
        (s.sideRows x.c ((s.core x.c).side src.toNat) n.toNat)[m]? = some i ∧
        (s.sideRows x.c ((s.core x.c).side dst.toNat) n.toNat)[m]? = some o ∧ run.Leaves x (engNum e) m i o u := by
  have run := exec_trun_executes h tki tko front rfl
  rw [side_moved, side_moved, sideRows_moved] at run
  refine ⟨(moved s x.c e (engineAt g l (following g))).trunRun x.c (engNum e) tki tko src td, rfl, rfl,
    congrArg (tget 0 · td.toNat) (tds_moved ..), _, run, fun m small => ?_, (TrunRun.handed_launch ..).launched⟩
  have row (b : Side) : ∃ i, (s.sideRows x.c b n.toNat)[m]? = some i :=
    ⟨_, List.getElem?_eq_getElem (by rwa [State.length_sideRows])⟩
  obtain ⟨i, source⟩ := row ((s.core x.c).side src.toNat)
  obtain ⟨o, target⟩ := row ((s.core x.c).side dst.toNat)
  exact ⟨i, o, source, target, TrunRun.leaves_launch _ x _ m i o (List.getElem?_zip_eq_some.mpr ⟨source, target⟩) _⟩

end

end Sys2Proof.Machine

namespace Sys2Proof.Proofs

open Sys2Proof.Machine Sys2Proof.Claims

/-- Settles O44: the words of the loop nest write it, TLOAD and the exchanges leave their first reads, a copy, plane or fill its
beats, and a TRUN the work of its rows. -/
theorem engineLaunchWords : Obligations.EngineLaunchWords := by
  constructor
  · intro s c e x g h k runs
    obtain rfl := core_of_executes h
    refine ⟨fun n a l front => ?count, fun n a0 a1 a2 a3 l front => ⟨?src, ?dst⟩, ?clear, fun td a l front => ?tload,
      fun rows st a l front fx => ?send, fun op st dst tag n idx rows l front fx => ?comb⟩
    case count =>
      exact launches_nest h (args := [a]) front (w := .nestCount n)
        (f := fun a k => tset NestLevel.cleared k.nest n.val { k.level n.val with count := (argAt a 0).toNat }) (fun _ _ _ => rfl) rfl
    case src =>
      exact launches_nest h (args := [a0, a1, a2, a3]) front (w := .nestSrc n)
        (f := fun a k => tset NestLevel.cleared k.nest n.val { k.level n.val with src := stepOf a }) (fun _ _ _ => rfl) rfl
    case dst =>
      exact launches_nest h (args := [a0, a1, a2, a3]) front (w := .nestDst n)
        (f := fun a k => tset NestLevel.cleared k.nest n.val { k.level n.val with dst := stepOf a }) (fun _ _ _ => rfl) rfl
    case clear => exact launches_nest h (args := []) rfl (w := .nestClear) (f := fun _ _ => []) (fun _ _ _ => rfl) rfl
    case tload => exact launches_tload h td front
    case send =>
      exact launches_exchange h fx (args := [a]) front (w := .send rows st) st.val (rows.val + 1) a none rfl fun _ => rfl
    case comb =>
      exact launches_exchange h fx (args := [dst, tag, n, idx, rows]) front (w := .comb op st) st.val rows.toNat dst
        (some ⟨op, tag.toNat, n.toNat, idx.toNat⟩) rfl fun _ => rfl
  · intro s c e x g h runs k
    obtain rfl := core_of_executes h
    refine ⟨fun a b a0 a1 a2 a3 l front ce => ⟨?copy, ?plane⟩, fun b a0 a1 a2 a3 v l front ce => ?fill,
      fun tki tko n dst src td l front _ => ?trun⟩
    case copy => exact launches_copy h ce (args := [a0, a1, a2, a3]) front (w := .copy a b) a.val b.val rfl
    case plane => exact launches_copy h ce (args := [a0, a1, a2, a3]) front (w := .plane a b) a.val b.val rfl
    case fill => exact launches_copy h ce (args := [a0, a1, a2, a3, v]) front (w := .fill b) b.val b.val rfl
    case trun =>
      obtain ⟨run, rfl, rfl, desc, u, done, left, handed⟩ := launches_trun h tki tko front
      refine ⟨u, done, fun m small => ?_, handed⟩
      obtain ⟨i, o, source, target, work⟩ := left m small
      exact ⟨i, o, run.row x m i o, source, target, desc, rfl, rfl, rfl, rfl, rfl, rfl, work.read, work.take, work.put, work.busy⟩

end Sys2Proof.Proofs
end

section
/-! PROOF. Grid words (14 R277, R283 to R291): the effects that land, and the row that GLD reads and GST writes, whose stream moves along
dimension 0 without wrapping. -/

namespace Sys2Proof.Machine

open Sys2Proof.Claims (Issues lands sameData timedFrom)

/-! ### The cursor of a grid word's stream (14 R277, R289) -/

/-- A coordinate that is wrapped to 32 bits keeps its pattern. -/
theorem unsgn_sgn_unsgn_32 (z : Int) : unsgn 32 (sgn 32 (unsgn 32 z)) = unsgn 32 z := by
  rw [sgn_unsgn_32, unsgn_eq, unsgn_eq, BitVec.toInt_ofInt]
  exact congrArg Int.toNat (Int.bmod_emod ..)

/-- A stream register holds the patterns of its coordinates, so that a sum may be packed as it is. -/
theorem packCursor_addVec (a b : List Int) : packCursor (addVec a b) = packCursor (List.zipWith (fun c z => c + z) a b) := by
  unfold packCursor addVec
  rw [List.map_zipWith, List.map_zipWith]
  simp only [unsgn_sgn_unsgn_32]

/-- From `t` to `u` the stream `st`, which reads `r`, moves on by `n` elements along dimension 0 at t + 1, by its steps, or not at all. -/
structure State.RowMoved (r : Str) (t u : State) (x : Ctx) (st n : Nat) (adv : Adv) : Prop where
  one : adv = .a1 → ⟨x.t + 1, 2, x.who, .cursor st (packCursor (List.zipWith (fun c z => c + z) r.cur [(n : Int), 0, 0, 0]))⟩ ∈
    (u.part x.p).pend
  steps : adv = .as → ⟨x.t + 1, 2, x.who, .cursor st (packCursor (List.zipWith (fun c z => c + z) r.cur
    [r.step.getD 0 0, r.step.getD 1 0, r.step.getD 2 0, 0]))⟩ ∈ (u.part x.p).pend
  stays : adv = .a0 → ∀ d ∈ (u.part x.p).pend, ∀ m c, d.act = .cursor m c → d ∈ (t.part x.p).pend

section
variable {x : Ctx} (run : x.handler = false) (unit : unitPlace x.who.unit = 2)
include run unit

theorem State.rowMoved_advanceGrid (s : State) (st n : Nat) (adv : Adv) :
    RowMoved (strOf ((s.core x.c).getSt st)) s (s.advanceGrid x st n adv) x st n adv := by
  have moved (by_ : List Int) : ⟨x.t + 1, 2, x.who, .cursor st (packCursor (List.zipWith (fun c z => c + z)
      (strOf ((s.core x.c).getSt st)).cur by_))⟩ ∈ ((s.later x (x.t + 1) (.cursor st (packCursor
        (addVec (strOf ((s.core x.c).getSt st)).cur by_)))).part x.p).pend := by
    rw [packCursor_addVec, later_word _ _ _ _ run, unit]
    exact (mem_addDue s x.p _ _).mpr (.inl rfl)
  constructor
  case one => rintro rfl; exact moved _
  case steps => rintro rfl; exact moved _
  case stays => rintro rfl d hd - - -; exact hd

omit unit in
/-- The cursor's advance is at most one delayed work. -/
theorem Booked.advanceGrid (s : State) (st n : Nat) (adv : Adv) : Booked x.p s (s.advanceGrid x st n adv) := by
  unfold State.advanceGrid
  dsimp only
  split
  · exact .refl x.p s
  · rw [State.later_word _ _ _ _ run]
    exact .addDue s x.p rfl

end

/-! ### The row of a GLD or GST (14 R284, R289) -/

section
variable (t : State) (x : Ctx) (st n : Nat) (store : Bool) (adv : Adv)

/-- The timing of a grid's row, at half the latency of the own pocket. -/
def State.rowTiming : Timing :=
  accessTiming (t.part x.p).loose (t.core x.c) x.t (ownPocket (t.part x.p).loose / 2) (ownPocket (t.part x.p).loose / 2) .rlx .co
    (!store) store

/-- The tick at which a grid's row is read or written. -/
def State.rowAtTick : Nat := (t.rowTiming x store).base + ownPocket (t.part x.p).loose / 2

/-- A core with its place in the load or store queue for a grid's row. -/
def State.rowQueued : Core := (t.rowTiming x store).core.enqueue x.t (t.rowAtTick x store) store

/-- A grid's row is queued and takes its number. -/
def State.rowBooked : State := ((t.setCore x.c (t.rowQueued x store)).nextSeq x.p).1

/-- The access of a grid's row issues and moves its stream on. -/
def State.rowIssued : State := (t.rowBooked x store).advanceGrid x st n adv

theorem DataKept.rowBooked : DataKept t (t.rowBooked x store) := (DataKept.enqueue t x.c ..).trans (.nextSeq _ x.p)

section
variable (run : x.handler = false)
include run

theorem DataKept.rowIssued : DataKept t (t.rowIssued x st n store adv) :=
  (DataKept.rowBooked t x store).trans (Booked.advanceGrid run _ st n adv).data

theorem State.core_rowIssued : (t.rowIssued x st n store adv).core x.c = t.rowQueued x store := by
  unfold rowIssued
  rw [(Booked.advanceGrid run _ st n adv).core]
  exact core_setCore t x.c _

theorem State.nextId_rowIssued : ((t.rowIssued x st n store adv).core x.c).nextId = (t.core x.c).nextId := by
  rw [core_rowIssued t x st n store adv run]
  rfl

theorem State.queues_rowIssued : ((t.rowIssued x st n store adv).core x.c).queues = (t.core x.c).queues := by
  rw [core_rowIssued t x st n store adv run]
  rfl

variable (unit : unitPlace x.who.unit = 2)
include unit

theorem State.rowMoved_rowIssued : RowMoved (strOf ((t.core x.c).getSt st)) t (t.rowIssued x st n store adv) x st n adv := by
  have kept := DataKept.rowBooked t x store
  have stream : ((t.rowBooked x store).core x.c).getSt st = (t.core x.c).getSt st := by
    rw [Core.getSt, kept.st, Core.getSt]
  obtain ⟨one, steps, stays⟩ := rowMoved_advanceGrid run unit (t.rowBooked x store) st n adv
  rw [stream] at one steps
  refine ⟨one, steps, fun none d hd m c act => ?_⟩
  have booked := stays none d hd m c act
  rwa [rowBooked, nextSeq, part_modPart] at booked

/-- The access of a grid's row, with its queue's bookkeeping done: it keeps the data, moves its stream and sets out its work. -/
theorem State.rowAccess_spec {v : State} (kept : DataKept (t.rowIssued x st n store adv) v)
    (parts : v.parts = (t.rowIssued x st n store adv).parts) (d : Due) (plain : ∀ m c, d.act ≠ .cursor m c) :
    sameData t (v.addDue x.p d) ∧ RowMoved (strOf ((t.core x.c).getSt st)) t (v.addDue x.p d) x st n adv ∧
      d ∈ ((v.addDue x.p d).part x.p).pend := by
  obtain ⟨one, steps, stays⟩ := rowMoved_rowIssued t x st n store adv run unit
  have work : WorkKept x.p (t.rowIssued x st n store adv) (v.addDue x.p d) :=
    (WorkKept.of_parts parts).trans (.addDue v x.p d)
  refine ⟨(((DataKept.rowIssued t x st n store adv run).trans kept).trans (.addDue v x.p d)).sameData,
    ⟨fun h => work _ (one h), fun h => work _ (steps h), fun none e he m c act => ?_⟩, (mem_addDue v x.p d d).mpr (.inl rfl)⟩
  rcases (mem_addDue v x.p d e).mp he with rfl | old
  · exact absurd act (plain m c)
  · exact stays none e (part_congr parts x.p ▸ old) m c act

end
end

/-! ### Grid words that issue -/

section
variable {s t : State} {f : Frame} {x : Ctx} (h : Issues s f .a x t) (gr : Num3)
include h

theorem exec_gdef_issues (a : Num4) : exec (.gdef f gr a) s =
    .next ((t.modPart x.p fun k => { k with seq := k.seq + 2 }).sampleAt x (x.t + ownPocket (t.part x.p).loose / 2)
      (.gridRow gr.val ((t.core x.c).getC a.val).v.toNat 0 ((t.part x.p).seq + 1) [])) :=
  congrArg Host.Outcome.next (nativeWord_of_issues h)

theorem exec_gbc_issues (face : Fin 6) (a : Num4) (r : Rule) : exec (.gbc f gr face a r) s =
    lands t x 1 (.gridRule gr.val face.val r (if r = .const then some ((t.core x.c).getC a.val).v else none)) := by
  simp only [← beq_iff_eq (a := r)]
  exact congrArg Host.Outcome.next (nativeWord_of_issues h)

theorem exec_gadv_issues : exec (.gadv f gr) s =
    lands t x 1 (.gridAdvance gr.val (((t.core x.c).getGrid gr.val).step + 1)) :=
  congrArg Host.Outcome.next (nativeWord_of_issues h)

theorem exec_gstat_issues (d : Num4) : exec (.gstat f d gr) s =
    lands t x 2 (.c d.val ⟨((t.core x.c).getGrid gr.val).status, false⟩) :=
  congrArg Host.Outcome.next (nativeWord_of_issues h)

variable (q st a : Num4) (adv : Adv)

/-- How many elements of a grid one row holds (14 R277). -/
def State.rowLength (t : State) (c gr : Nat) : Nat := 64 / dEsize ((t.core c).getGrid gr).desc

theorem exec_gld_issues : exec (.gld f q gr st a adv) s =
    .next (((t.rowIssued x st.val (t.rowLength x.c gr.val) false adv).claim x.c q.val (t.rowAtTick x false)).1.sampleAt x
      (t.rowAtTick x false) (.gridLoad gr.val (.queue q.val (t.core x.c).nextId) (gridCursor ((t.core x.c).getSt st.val))
        (tagOf ((t.core x.c).getC a.val)) true ((t.rowTiming x false).base + ownPocket (t.part x.p).loose)
        ((t.part x.p).seq + 1))) := by
  rw [← State.nextId_rowIssued t x st.val (t.rowLength x.c gr.val) false adv (handler_of_issues h)]
  exact congrArg Host.Outcome.next (nativeWord_of_issues h)

/-- The store of the entry that it takes, whether its queue has one or not. -/
theorem exec_gst_pops :
    let r := (t.rowIssued x st.val (t.rowLength x.c gr.val) true adv).pop x.c q.val
    exec (.gst f gr st a q adv) s = .next (r.1.later x (t.rowAtTick x true)
      (.gridStore ⟨.pocket x.c 0, 0xF, (t.part x.p).seq + 1, false, t.rowAtTick x true, [], false⟩
        (((t.core x.c).getGrid gr.val).storeCells ((tagOf ((t.core x.c).getC a.val)).toNat % 2)
          (gridCursor ((t.core x.c).getSt st.val)) r.2.v))) :=
  congrArg Host.Outcome.next (nativeWord_of_issues h)

theorem exec_gst_issues {e : QEntry} {rest : List QEntry} (front : (t.core x.c).getQueue q.val = e :: rest) :
    exec (.gst f gr st a q adv) s =
      .next (((t.rowIssued x st.val (t.rowLength x.c gr.val) true adv).modCore x.c fun k => k.setQueue q.val rest).addDue x.p
        ⟨t.rowAtTick x true, 2, x.who,
          .gridStore ⟨.pocket x.c 0, 0xF, (t.part x.p).seq + 1, false, t.rowAtTick x true, [], false⟩
            (((t.core x.c).getGrid gr.val).storeCells ((tagOf ((t.core x.c).getC a.val)).toNat % 2)
              (gridCursor ((t.core x.c).getSt st.val)) e.v)⟩) := by
  have run := handler_of_issues h
  have stands : ((t.rowIssued x st.val (t.rowLength x.c gr.val) true adv).core x.c).getQueue q.val = e :: rest := by
    rw [Core.getQueue, State.queues_rowIssued t x _ _ true adv run, ← Core.getQueue, front]
  rw [exec_gst_pops h, State.pop_cons stands, State.later_word _ x _ _ run, unit_of_issues_a h]

end

end Sys2Proof.Machine

namespace Sys2Proof.Proofs

open Sys2Proof.Machine Sys2Proof.Claims

/-- Settles O29: GDEF, GBC, GADV and GSTAT set out one work each; GLD claims its queue's place and GST takes its entry, and each moves
its stream on. -/
theorem gridWords : Obligations.GridWords := by
  intro s f x t gr a q st adv h k g l stream moves
  have run := handler_of_issues h
  have unit := unit_of_issues_a h
  refine ⟨exec_gdef_issues h gr a, fun face r => exec_gbc_issues h gr face a r, exec_gadv_issues h gr, exec_gstat_issues h gr a, ?gld,
    fun e rest front => ?gst⟩
  case gld =>
    obtain ⟨kept, ⟨one, steps, stays⟩, work⟩ := State.rowAccess_spec t x st.val (t.rowLength x.c gr.val) false adv run unit
      (DataKept.claim _ x.c q.val (t.rowAtTick x false)) rfl ⟨t.rowAtTick x false, samplePlace, x.who,
        .gridLoad gr.val (.queue q.val k.nextId) (gridCursor (k.getSt st.val)) (tagOf (k.getC a.val)) true
          ((t.rowTiming x false).base + l) ((t.part x.p).seq + 1)⟩ (fun _ _ => nofun)
    refine ⟨_, (t.rowTiming x false).base, _, exec_gld_issues h gr q st a adv, kept, accessTiming_base t x _ _ .rlx .co true false,
      ⟨one, steps, stays⟩, ?_, work⟩
    rw [State.core_sampleAt, State.getQueue_claim, State.nextId_rowIssued t x _ _ false adv run, Core.getQueue,
      State.queues_rowIssued t x _ _ false adv run]
    rfl
  case gst =>
    obtain ⟨kept, ⟨one, steps, stays⟩, work⟩ := State.rowAccess_spec t x st.val (t.rowLength x.c gr.val) true adv run unit
      (DataKept.modCore _ x.c (fun k => k.setQueue q.val rest) fun _ => ⟨rfl, rfl, rfl, rfl, rfl, rfl, rfl, rfl⟩) rfl
      ⟨t.rowAtTick x true, 2, x.who,
        .gridStore ⟨.pocket x.c 0, 0xF, (t.part x.p).seq + 1, false, t.rowAtTick x true, [], false⟩
          (g.storeCells ((tagOf (k.getC a.val)).toNat % 2) (gridCursor (k.getSt st.val)) e.v)⟩ (fun _ _ => nofun)
    refine ⟨_, (t.rowTiming x true).base, _, exec_gst_issues h gr q st a adv front, kept, accessTiming_base t x _ _ .rlx .co false true,
      ⟨one, steps, stays⟩, ?_, work⟩
    rw [State.core_addDue, State.core_modCore, Core.setQueue, State.queues_rowIssued t x _ _ true adv run]
    rfl

end Sys2Proof.Proofs
end
